-- ==== Sys2Proof/Word.lean ====
section
/-!
DEFINITION. The word types of the panel's registers, records and memories (R6, R8).
-/

namespace Sys2Proof

/-- One byte of memory. -/
abbrev Byte := BitVec 8

/-- A 64-bit register or memory word (R8). -/
abbrev W64 := BitVec 64

/-- A 32-byte record: a completion or response record (Table 5.12). -/
abbrev Rec32 := BitVec 256

/-- A 64-byte line: a descriptor, a fault record, a doorbell line, a control request. -/
abbrev Line := BitVec 512

/-- An FP32 element as its bits (Table 2.2). -/
abbrev F32 := BitVec 32

end Sys2Proof
end

