-- ==== Sys2Proof/Syntax.lean ====
section
/-!
DEFINITION. The commands of the panel: one constructor for each row of spec/opcode_table.json, with the operands that come
from outside the panel (the host, a peer, a device, a sensor or the passing of time). What a command finds in the panel's own
state it takes from there.
-/

namespace Sys2Proof

/-- A compute die D00–D39 (R28). -/
abbrev DieNo := Fin 40
/-- A wing of a die (Table 1.3). -/
abbrev WingNo := Fin 4
/-- A core by its number within a die (R41). -/
abbrev CoreNo := Fin 256
/-- A cluster by its number within a die (R41). -/
abbrev ClusterNo := Fin 32
/-- A queue (R169). -/
abbrev QueueNo := Fin 4096
/-- A job, that is an address space (R216). -/
abbrev JobNo := Fin 256
/-- A stack by its window index 2d + s (R286). -/
abbrev StackNo := Fin 80
/-- A far port (R304). -/
abbrev FarPort := Fin 4
/-- An optical engine (Table 0.1). -/
abbrev OptNo := Fin 24

/-- A fabric packet (Table 10.3): header fields, the owner's six bytes from 0x0A as a number, the payload. -/
structure Packet where
  dst : Nat
  cls : Nat
  src : Nat
  set : Nat
  dl : Nat
  epoch : Nat
  dirX : Nat
  dirY : Nat
  mc : Nat
  mcAxis : Nat
  mcDir : Nat
  mcSpan : Nat
  unit : Nat
  unitMc : Nat
  owner : Nat
  payload : List Byte
  deriving DecidableEq, Repr


/-- Where a PREEMPT finds one share of a command (R244): the command, the share's position, the block, row or row of the share at
which it stops, and the K step or element there. -/
structure PrePoint where
  idx : Nat
  pos : Nat
  block : Nat
  step : Nat
  deriving DecidableEq, Repr

/-- What a lane test finds of one lane group (R316 to R318): failing lanes 0–65, and whether its clock, valid or credit-return lane
fails. -/
structure LaneTest where
  failed : BitVec 66
  ctrl : Bool
  deriving DecidableEq, Repr

/-- One lane's measured margin (R325): group, lane, timing in 1/64 UI, voltage in mV. -/
structure Margin where
  group : Fin 16
  lane : Fin 66
  timing : BitVec 8
  voltage : BitVec 8
  deriving DecidableEq, Repr

/-- The Dolonern identity message of a third-party die (R334). -/
structure UciIdentity where
  vendor : BitVec 16
  device : BitVec 16
  engines : BitVec 9
  maxInflight : BitVec 9
  requester : Bool
  protocol : BitVec 8
  deriving DecidableEq, Repr
/-- A UCIe site (R333). -/
abbrev SiteNo := Fin 2
/-- An edge of a die: north, east, south, west (Table 1.6). -/
abbrev EdgeNo := Fin 4
/-- A receiver of a die's link: that of the die at an edge, or the hub's at the link's other end. -/
structure LinkRecv where
  edge : EdgeNo
  hub : Bool
  deriving DecidableEq, Repr
/-- A flit that fails its CRC (R314): where, its lane group and sequence number, and how many later flits of the group are replayed with it. -/
structure BadFlit where
  recv : LinkRecv
  group : Fin 16
  seq : BitVec 16
  later : Fin 64
  deriving DecidableEq, Repr
/-- The offset in BAR0 and the number of bytes of an access. -/
structure BusAccess where
  off : BitVec 28
  bytes : Fin 65
  deriving DecidableEq, Repr
/-- A fibre of an engine, and a lane of a fibre (R449). -/
abbrev FibreNo := Fin 8
abbrev LaneNo := Fin 16
/-- A commissioned feed-forward coefficient (R461, R476): ring as OPT_LANE_SEL selects it, unit of Table 13.8 (0 or 1), kind of change
(0 active count, 1 wing voltage), value. -/
structure FfCoef where
  ring : BitVec 8
  unit : Fin 2
  kind : Fin 2
  value : BitVec 16
  deriving DecidableEq, Repr
/-- What the second test of R463 works on when WRONG_LOCK comes: the changes that refer the heater settings of this end's two rings of the lane to
the commissioning temperature, and whether the partner's end finds a ring of its own failing. -/
structure RingTest where
  tx : BitVec 17
  rx : BitVec 17
  far : Bool
  deriving DecidableEq, Repr
/-- A write of the management view (R491): generation and panel_state, or one word of the fence map. -/
inductive ViewWrite where
  | view (gen : BitVec 16) (fenced : Bool)
  | fence (word : BitVec 8) (bits : BitVec 64)
  deriving DecidableEq, Repr
/-- A unit with power states of its own below the panel (Table 1.3). -/
inductive PowUnit where
  | core (d : DieNo) (c : CoreNo)
  | cluster (d : DieNo) (cl : ClusterNo)
  | wing (d : DieNo) (a : WingNo)
  | die (d : DieNo)
  deriving DecidableEq, Repr
/-- A copy of an image that the management path has written into the boot flash since the last boot (Table 18.2). -/
structure FlashWrite where
  image : Fin 4
  copyB : Bool
  bytes : List Byte
  deriving DecidableEq, Repr
/-- Where a share of a die's work stops (Table 16.5): its queue and its point. -/
structure DiePoint where
  queue : QueueNo
  point : PrePoint
  deriving DecidableEq, Repr
/-- A host port: 0 port A, 1 port B. -/
abbrev HostPortNo := Fin 2
/-- A path to the security mailbox (Table 18.12): the host, the management path, the debug access port. -/
inductive SecPath where
  | host | management | debugPort
  deriving DecidableEq, Repr
/-- An IDE key management request (R584): program a key, start its stream's secure state with it, stop it. -/
inductive IdeKmOp where
  | program (slot : BitVec 16) (key : BitVec 256)
  | setGo (slot : BitVec 16)
  | setStop (slot : BitVec 16)
  deriving DecidableEq, Repr

/-- What a register write finds outside the panel: the index in a doorbell slot that an enable or a resume reads (R171), what a far
port trains to and finds (R305), whether the fuses of each hub blow (R580, R586), commissioned coefficients (R476), and the points at
which shares of a die are found (R614). -/
structure Outside where
  tail : BitVec 32
  rate : Fin 4
  width : BitVec 5
  device : W64
  blown0 : Bool
  blown1 : Bool
  coefs : List FfCoef
  pts : List DiePoint
  deriving DecidableEq, Repr
/-- One word of a management WRITE message (Table 19.4). -/
structure RegWord where
  v : W64
  x : Outside
  deriving DecidableEq, Repr
/-- A host access of one 64-byte line of the CXL.mem window (R604, R606); `hold` tells that the host keeps the line in its caches. -/
inductive WinOp where
  | read (hold : Bool)
  | write (data : Line) (hold : Bool)
  deriving DecidableEq, Repr
/-- A host write of a port's MSI-X state (R603): its enable, or the mask of a vector. -/
inductive MsixOp where
  | enable (v : Bool)
  | vector (n : Fin 2048) (unmasked : Bool)
  deriving DecidableEq, Repr
/-- A unit that the debug access port can halt (Table 18.7): a core sequencer, or steward core c of a hub. -/
inductive DapUnit where
  | core (d : DieNo) (c : CoreNo)
  | steward (h : Fin 2) (c : Fin 2)
  deriving DecidableEq, Repr
/-- A memory that the debug access port reaches: tile memory of a core, wing memory, a device physical address. -/
inductive DapMem where
  | tile (d : DieNo) (c : CoreNo) (off : BitVec 20)
  | wing (d : DieNo) (a : WingNo) (off : BitVec 26)
  | device (dpa : BitVec 52)
  deriving DecidableEq, Repr
/-- A request on the debug access port (R587, Table 18.7). Memory is read and written in aligned words of 8 bytes; `hub` tells whose logic
a scan covers. -/
inductive DapReq where
  | halt (u : DapUnit)
  | step (u : DapUnit)
  | resume (u : DapUnit)
  | readReg (off : BitVec 28) (bytes : Fin 65)
  | writeReg (off : BitVec 28) (bytes : Fin 65) (v : W64) (x : Outside)
  | readMem (m : DapMem)
  | writeMem (m : DapMem) (v : W64)
  | gallery (g : Fin 42) (r : Fin 1024)
  | scan (hub : Bool)
  deriving DecidableEq, Repr

/-- The commands, in the order of the table. -/
inductive Instr where
  /-- NOP (R195). A NOP command completes at dispatch. -/
  | nop (q : QueueNo) (idx : BitVec 32)
  /-- MATMUL (R141). A MATMUL divides its row bands among the cores of the core set, and each core computes its blocks in passes from tile memory. -/
  | matmul (q : QueueNo) (idx : BitVec 32)
  /-- CVT (R161). VECTOR operation CVT converts each element of X to the result format. -/
  | cvt (q : QueueNo) (idx : BitVec 32)
  /-- VECTOR_ADD (R161). VECTOR operation ADD writes x + y element by element. -/
  | vectorAdd (q : QueueNo) (idx : BitVec 32)
  /-- SUB (R161). VECTOR operation SUB writes x − y element by element. -/
  | vecSub (q : QueueNo) (idx : BitVec 32)
  /-- MUL (R161). VECTOR operation MUL writes x · y element by element. -/
  | vecMul (q : QueueNo) (idx : BitVec 32)
  /-- VECTOR_MAX (R163). VECTOR operation MAX writes the exact maximum of x and y, with −0 ordered below +0. -/
  | vectorMax (q : QueueNo) (idx : BitVec 32)
  /-- VECTOR_MIN (R163). VECTOR operation MIN writes the exact minimum of x and y. -/
  | vectorMin (q : QueueNo) (idx : BitVec 32)
  /-- ADD_ROW (R161). VECTOR operation ADD_ROW adds Y(r, 0) to every element of row r. -/
  | addRow (q : QueueNo) (idx : BitVec 32)
  /-- MUL_ROW (R161). VECTOR operation MUL_ROW multiplies every element of row r by Y(r, 0). -/
  | mulRow (q : QueueNo) (idx : BitVec 32)
  /-- AXPB (R161). VECTOR operation AXPB writes round(round(x · s) + t). -/
  | axpb (q : QueueNo) (idx : BitVec 32)
  /-- EXP (R162). VECTOR operation EXP writes the fixed approximation of e^x. -/
  | vecExp (q : QueueNo) (idx : BitVec 32)
  /-- LOG (R162). VECTOR operation LOG writes the fixed approximation of ln x. -/
  | vecLog (q : QueueNo) (idx : BitVec 32)
  /-- RCP (R162). VECTOR operation RCP writes the fixed approximation of 1 / x. -/
  | rcp (q : QueueNo) (idx : BitVec 32)
  /-- RSQRT (R161). VECTOR operation RSQRT writes EXP(−0.5 · LOG(x)). -/
  | rsqrt (q : QueueNo) (idx : BitVec 32)
  /-- SILU (R161). VECTOR operation SILU writes x · RCP(1 + EXP(−x)). -/
  | silu (q : QueueNo) (idx : BitVec 32)
  /-- RSUM (R164). VECTOR operation RSUM reduces each row by the fixed segment tree into one sum. -/
  | rsum (q : QueueNo) (idx : BitVec 32)
  /-- RSUMSQ (R164). VECTOR operation RSUMSQ reduces each row to the sum of squares by the fixed tree. -/
  | rsumsq (q : QueueNo) (idx : BitVec 32)
  /-- RMAX (R164). VECTOR operation RMAX reduces each row to its maximum by the fixed tree. -/
  | rmax (q : QueueNo) (idx : BitVec 32)
  /-- RSUM_X (R165). VECTOR operation RSUM_X sums each row exactly in X128 and converts the sum. -/
  | rsumX (q : QueueNo) (idx : BitVec 32)
  /-- SOFTMAX (R166). VECTOR operation SOFTMAX computes each row in three passes of RMAX, summed EXP and scaling. -/
  | softmax (q : QueueNo) (idx : BitVec 32)
  /-- MOVE (R277). COPY operation MOVE copies or converts elements from source to destination across its engine set. -/
  | copyMove (q : QueueNo) (idx : BitVec 32)
  /-- ACCUMULATE (R278). COPY operation ACCUMULATE writes destination plus source in the X128 or FP32 domain. -/
  | accumulate (q : QueueNo) (idx : BitVec 32)
  /-- REDUCE_PLANES (R278). COPY operation REDUCE_PLANES writes the sum of the source planes to each destination element. -/
  | reducePlanes (q : QueueNo) (idx : BitVec 32)
  /-- REDUCE_SCATTER (R428). A REDUCE_SCATTER reduces slices over the group in X, Y and Z ring stages, leaving each member its own slice. -/
  | reduceScatter (q : QueueNo) (idx : BitVec 32)
  /-- ALL_GATHER (R428). An ALL_GATHER spreads each member's slice to all members by multicast and unicast stages. -/
  | allGather (q : QueueNo) (idx : BitVec 32)
  /-- EXCHANGE (R421). An EXCHANGE sends block j of each member directly to member j. -/
  | exchange (q : QueueNo) (idx : BitVec 32)
  /-- REMOTE (R409). A REMOTE issues the operations of its list in order and writes a result entry for each. -/
  | remote (q : QueueNo) (idx : BitVec 32)
  /-- WAIT (R205). A WAIT holds later commands of its queue until its semaphore reaches the target. -/
  | waitSem (q : QueueNo) (idx : BitVec 32)
  /-- SIGNAL (R207). A SIGNAL adds its value to a local or remote semaphore after earlier writes are visible at rel_scope. -/
  | signalSem (q : QueueNo) (idx : BitVec 32)
  /-- FENCE (R209). A FENCE completes when the writes of earlier commands are visible at its scope. -/
  | fence (q : QueueNo) (idx : BitVec 32)
  /-- LANDING (R479). A LANDING is dispatched, checked as full or rejoin, and holds later commands until the landing completes. -/
  | landing (q : QueueNo) (idx : BitVec 32)
  /-- TIMER (R211). A TIMER holds later commands of its queue for a number of hub ticks. -/
  | timer (q : QueueNo) (idx : BitVec 32)
  /-- COMMAND_DISPATCH (R203). A descriptor whose holds have cleared is checked and dispatched to its units. -/
  | commandDispatch
  /-- DESCRIPTOR_READ (R173). The data of a descriptor read arrives and the descriptors are queued for dispatch. -/
  | descriptorRead (q : QueueNo) (ds : List Line)
  /-- COMMAND_COMPLETE (R195). A command reaches its completion point, its record is written and its dependants are released. -/
  | commandComplete (q : QueueNo) (idx : BitVec 32)
  /-- HELD_RECORD_WRITE (R198). A held record is written once the driver advances the head or enables the ring. -/
  | heldRecordWrite (kind : Fin 3) (ring : Fin 4096)
  /-- QUEUE_FAULT (R230). A unit stops at its restart point and, once it has stopped, the queue writes its fault record and enters FAULTED. -/
  | queueFault (q : QueueNo)
  /-- QUEUE_ENABLE (R189). A write of enable 1 to a DISABLED queue reads its doorbell slot and starts it in RUNNING. -/
  | queueEnable (q : QueueNo) (tail : BitVec 32)
  /-- QUEUE_DISABLE (R625). A write of enable 0 moves the queue to DRAINING, or to DISABLED from STOPPED, and discards undispatched work. -/
  | queueDisable (q : QueueNo)
  /-- QUEUE_DRAINED (R625). A DRAINING queue becomes DISABLED when every dispatched command has completed or stopped. -/
  | queueDrained (q : QueueNo)
  /-- QUEUE_RESUME (R238). A write of resume 1 to a FAULTED queue continues the faulted command and dispatch, or reports the next unreported stop. -/
  | queueResume (q : QueueNo) (tail : BitVec 32)
  /-- COMPLETION_RING_ENABLE (R197). Enabling a completion or fault ring sets its write index to 0 and releases records held for it. -/
  | completionRingEnable (kind : Fin 2) (ring : Fin 4096)
  /-- CONTROL_RING_ENABLE (R254). Enabling a control ring starts its request and response rings. -/
  | controlRingEnable (x : Fin 16) (tail : BitVec 32)
  /-- QUEUE_ENGINE_ENABLE (R213). A write of QUE_CTL.engine_en holds or releases dispatch on every queue and brings pending S-class values into force. -/
  | queueEngineEnable (v : Bool)
  /-- DOORBELL_SNOOP (R177). An H2D snoop of a held doorbell line is answered and the line is read again. -/
  | doorbellSnoop (line : W64)
  /-- DOORBELL_LINE_LOST (R178). A held doorbell line lost for any reason, such as a back-invalidate, is read again. -/
  | doorbellLineLost (line : W64)
  /-- DOORBELL_LINE_DATA (R177). A re-read doorbell line arrives and the panel acts on every changed tail or head slot. -/
  | doorbellLineData (line : W64) (data : Line)
  /-- DOORBELL_POLL (R179). Each polled doorbell line is read once per effective poll interval. -/
  | doorbellPoll
  /-- DOORBELL_REREAD_ALL (R180). After failover or a change between holding and polling, every doorbell line is read again before dispatch. -/
  | doorbellRereadAll
  /-- PREEMPT (R244). A PREEMPT request stops the queue at restart points, writes the save area and the response, and leaves it STOPPED. -/
  | preempt (x : Fin 16) (req : Line) (pts : List PrePoint)
  /-- RESTORE (R250). A RESTORE request checks the save area, loads saved state onto the core set and re-dispatches the saved contexts. -/
  | restore (x : Fin 16) (req : Line)
  /-- XLT_INVALIDATE (R226). A write of XLT_INV.go starts an invalidation of every translation cache over the selected extent. -/
  | xltInvalidate (job : JobNo) (size : Fin 64) (kind : Fin 4)
  /-- INVALIDATION_COMPLETE (R226). An invalidation ends when no cache holds an entry of the extent and old accesses are performed; busy clears. -/
  | invalidationComplete
  /-- ARRAY_DRAIN_END (R125). An array that finishes its drain becomes idle and lowers its wing's active count within 1 beat. -/
  | arrayDrainEnd (d : DieNo) (c : CoreNo) (array : Fin 8)
  /-- ARRAY_STALL (R129). A stage stalled longer than stall_limit is recorded and raises ARRAY_STALL. -/
  | arrayStall (d : DieNo) (c : CoreNo) (stage : Fin 5)
  /-- ARRAY_ABORT (R130). A stage stalled past the abort limit resets its arrays and stops the share with TIMEOUT. -/
  | arrayAbort (d : DieNo) (c : CoreNo) (block : BitVec 32)
  /-- ARRAY_CLEAR_COUNTS (R132). A write of DIE_ARR_CTL.clear_counts sets the stall and abort counts to 0. -/
  | arrayClearCounts (d : DieNo)
  /-- BEAT_METER_INTERVAL (R127). At the end of each 10 µs interval the beat meter updates rate, rate_min and rate_max. -/
  | beatMeterInterval (d : DieNo) (a : WingNo) (mean : BitVec 16)
  /-- BEAT_CLEAR_EXT (R133). A write of clear_ext sets rate_min and rate_max to 0 until the next interval ends. -/
  | beatClearExt (d : DieNo) (a : WingNo)
  /-- DIE_WRAP_CLEAR (R167). A write of DIE_WRAP_COUNT.clear sets wraps and last_core to 0. -/
  | dieWrapClear (d : DieNo)
  /-- WING_REFRESH (R263). A wing-memory row's refresh falls due and takes its bank. -/
  | wingRefresh (d : DieNo) (a : WingNo) (bank : Fin 32) (row : Fin 1024)
  /-- REFRESH_INTERVAL_CHANGE (R261). The automatic refresh interval changes with the hottest wing sensor. -/
  | refreshIntervalChange (d : DieNo) (a : WingNo) (hottest : BitVec 8)
  /-- COPY_STALL (R282). An engine making no progress for copy_stall_ms raises COPY_STALL. -/
  | copyStall (d : DieNo) (cl : ClusterNo)
  /-- MEM_CLEAR_COUNTS (R257). A write of DIE_MEM_CTL.clear_counts sets the ECC counters, copy_stalls and DIE_MEM_LAST_UE to 0. -/
  | memClearCounts (d : DieNo)
  /-- STK_PATROL (R295). The patrol reads every usable stack unit once per patrol period. -/
  | stkPatrol (w : StackNo)
  /-- ROW_REMAP (R297). A failing row is copied through the corrector to a spare row and redirected. -/
  | rowRemap (w : StackNo)
  /-- STK_REFRESH_CHANGE (R300). The stack refresh interval halves above 85 °C and returns at 81 °C. -/
  | stkRefreshChange (w : StackNo) (temp : BitVec 8)
  /-- SELF_REFRESH_EXIT (R301). An access to a stack in self-refresh wakes its die to D1. -/
  | selfRefreshExit (w : StackNo)
  /-- STK_FAILED (R302). A stack that fails training, goes silent for 100 µs or fails retraining is marked for retirement. -/
  | stkFailed (w : StackNo)
  /-- STK_INIT (R299). A stack controller is enabled at reset and trains, repairs, zeroes and reaches READY. -/
  | stkInit (w : StackNo)
  /-- STK_CLEAR_COUNTS (R293). A write of STK_CTL.clear_counts sets the ECC counts and STK_LAST_UE to 0. -/
  | stkClearCounts (w : StackNo)
  /-- STK_PPR_GO (R303). A write of STK_PPR_CMD.go in BRINGUP starts one post-package repair. -/
  | stkPprGo (w : StackNo) (kind : Bool) (row : BitVec 16)
  /-- PPR_DONE (R303). A repair ends and its result is set. -/
  | pprDone (w : StackNo) (fails : Bool)
  /-- FAR_ENABLE (R308). A write of FAR_CTL.enable turns far-tier access on or off and brings pending port values into force. -/
  | farEnable (v : Bool)
  /-- FAR_ACCESS_TIMEOUT (R308). A far-tier access without a response within timeout_us fails with TIMEOUT. -/
  | farAccessTimeout (f : FarPort)
  /-- FAR_LINK_DOWN (R308). A far port's link going down fails every access to it with TIMEOUT. -/
  | farLinkDown (f : FarPort)
  /-- FAR_WRITE_COMPLETE (R309). A device completion for a far-tier write reaches the hub and the write is performed. -/
  | farWriteComplete (f : FarPort)
  /-- FAR_PORT_RETRAIN (R305). A write of FAR_PORT_CTL.retrain retrains and enumerates the port again. -/
  | farPortRetrain (f : FarPort) (rate : Fin 4) (width : BitVec 5) (device : W64)
  /-- TCN_REPLAY (R314). A flit failing its CRC is answered with a negative acknowledgement and replayed. -/
  | tcnReplay (d : DieNo) (f : BadFlit)
  /-- TCN_LANE_TEST (R316). A lane group runs a lane test after repeated CRC failures or low margin. -/
  | tcnLaneTest (d : DieNo) (r : LinkRecv) (g : Fin 16) (t : LaneTest)
  /-- TCN_TRAINING (R322). A link is trained from scratch and the mask in force is chosen. -/
  | tcnTraining (d : DieNo) (e : EdgeNo) (mine : List LaneTest) (theirs : List LaneTest) (got : Bool) (gave : Bool)
  /-- TCN_RETRAIN (R322). A write of TCN_CTL.retrain trains the link from scratch at both ends. -/
  | tcnRetrain (d : DieNo) (e : EdgeNo)
  /-- TCN_MARGIN_MEASURE (R325). The receiver measures every lane's margin on margin_go or every 10 ms. -/
  | tcnMarginMeasure (d : DieNo) (r : LinkRecv) (ms : List Margin)
  /-- ROUTE_TABLE_CHANGE (R330). When the links in service change, the firmware drains the escape channels and loads new route tables. -/
  | routeTableChange
  /-- UCI_SITE_ENABLE (R334). Enabling a UCIe site trains the link and reads the die's identity message. -/
  | uciSiteEnable (site : SiteNo) (v : Bool)
  /-- UCI_IDENTITY (R334). The die's identity message is read and the site enters UP or REFUSED. -/
  | uciIdentity (site : SiteNo) (rate : Fin 4) (lanes : Fin 65) (modules : Fin 5) (msg : UciIdentity)
  /-- UCI_RETRAIN (R340). A write of UCI_SITE_CTL.retrain takes the link down and trains it again. -/
  | uciRetrain (site : SiteNo)
  /-- UCI_ANSWER (R337). The third-party die answers a command with status, flags and result0. -/
  | uciAnswer (site : SiteNo) (q : QueueNo) (idx : BitVec 32) (status : BitVec 8) (low : Bool) (high : Bool) (result0 : W64)
  /-- UCI_DIE_REQUEST (R338). A requester die's read or write of panel memory is checked by handle and translated. -/
  | uciDieRequest (site : SiteNo) (q : QueueNo) (idx : BitVec 32) (write : Bool) (va : W64) (n : BitVec 12) (data : List Byte)
  /-- UCI_COMMAND_TIMEOUT (R340). A third-party command without an answer in cmd_timeout_ms fails with TIMEOUT. -/
  | uciCommandTimeout (site : SiteNo) (q : QueueNo) (idx : BitVec 32)
  /-- UCI_SITE_DOWN (R340). A site's link going down fails every outstanding command with TIMEOUT. -/
  | uciSiteDown (site : SiteNo)
  /-- UCI_L1_ENTRY (R341). A site idle for 100 µs enters the L1 link state. -/
  | uciL1Entry (site : SiteNo)
  /-- PACKET_INJECT (R354). The panel injects a packet in the set and epoch its table entry gives, or fails it as unreachable. -/
  | packetInject
  /-- PACKET_ROUTE (R351). A router takes a packet from its buffer and forwards it on the next axis or delivers it. -/
  | packetRoute (port : Fin 5) (p : Packet) (ue : Bool) (space : Bool)
  /-- CREDIT_RETURN (R360). Returned per-hop credits let a waiting packet be sent. -/
  | creditReturn (port : Fin 5) (vc : Fin 16) (units : BitVec 20)
  /-- WINDOW_ACK (R365). A window acknowledgement frees a windowed slot at the source. -/
  | windowAck (node : BitVec 14) (cls : Fin 4)
  /-- WINDOW_SLOT_RELEASE (R365). A window slot unacknowledged for 25 ms is released. -/
  | windowSlotRelease (i : Fin 4096)
  /-- PARTNER_ENTRY_WAIT (R366). A windowed packet waiting for a partner entry takes one when it frees. -/
  | partnerEntryWait
  /-- RESIDENCE_DROP (R377). A packet held longer than residence_us is dropped. -/
  | residenceDrop (n : BitVec 32)
  /-- PORT_DOWN (R379). A fabric port going DOWN drops every packet it holds or receives. -/
  | portDown (port : Fin 5) (lost : BitVec 16)
  /-- PORT_TRAIN (R347). An X or Y port training learns its neighbour's ID and stays DOWN if miscabled. -/
  | portTrain (port : Fin 5)
  /-- FAB_ENABLE (R375). A write of FAB_CTL.enable starts or stops the fabric block. -/
  | fabEnable (v : Bool)
  /-- FAB_EPOCH_WRITE (R375). A write of FAB_EPOCH.current selects the injection bank and brings the management view into the data view. -/
  | fabEpochWrite (bank : Fin 2)
  /-- BANK_LOAD (R373). FAB_BANK_CTL op LOAD reads a routing image into an EMPTY bank. -/
  | bankLoad (bank : Fin 2)
  /-- BANK_LOAD_DONE (R373). A bank image read completes or fails and the bank becomes LOADED or EMPTY. -/
  | bankLoadDone (bank : Fin 2)
  /-- BANK_FREE (R373). FAB_BANK_CTL op FREE empties a non-current bank and starts its epoch_hold. -/
  | bankFree (bank : Fin 2)
  /-- EPOCH_HOLD_EXPIRY (R377). The epoch hold of a freed bank elapses and the bank may be loaded again. -/
  | epochHoldExpiry (bank : Fin 2)
  /-- FAB_DROPS_CLEAR (R381). A write of FAB_DROPS_CLR sets the drop counters to 0. -/
  | fabDropsClear
  /-- PARTNER_PIN (R367). A write of FAB_PARTNER_DATA.pin installs or releases a pinned partner entry. -/
  | partnerPin (i : Fin 4096) (pin : Bool) (cls : Fin 4) (node : BitVec 14) (window : BitVec 8)
  /-- LOAD (R396). A remote LOAD request is checked at the destination and answered with the bytes read. -/
  | remoteLoad
  /-- STORE (R396). A remote STORE request is checked, performed and then answered. -/
  | remoteStore
  /-- REMOTE_ADD (R404). A remote ADD atomic is handled by the reply cache and applied at most once. -/
  | remoteAdd
  /-- MIN_S (R404). A remote MIN_S atomic stores the signed minimum and returns the old value. -/
  | minS
  /-- MIN_U (R404). A remote MIN_U atomic stores the unsigned minimum and returns the old value. -/
  | minU
  /-- MAX_S (R404). A remote MAX_S atomic stores the signed maximum and returns the old value. -/
  | maxS
  /-- MAX_U (R404). A remote MAX_U atomic stores the unsigned maximum and returns the old value. -/
  | maxU
  /-- SWAP (R404). A remote SWAP atomic stores the operand and returns the old value. -/
  | swap
  /-- CAS (R404). A remote CAS atomic stores new if old equals compare and returns the old value. -/
  | cas
  /-- ADD_X128 (R384). A remote ADD_X128 atomic adds under R86, saturating with INEXACT_HIGH. -/
  | addX128
  /-- REMOTE_ISSUE (R403). The remote engine issues an operation once its sequence, reply-space and outstanding limits allow. -/
  | remoteIssue
  /-- FLAGGED_ISSUE (R398). A flagged operation is issued once every earlier STORE and atomic has been answered or has failed. -/
  | flaggedIssue
  /-- REMOTE_REPLY (R390). A reply is matched by source and rid and answers its request, or is discarded as unmatched. -/
  | remoteReply
  /-- REMOTE_RETRY (R400). An unanswered request is sent again at each retry interval. -/
  | remoteRetry (rid : BitVec 28)
  /-- REMOTE_TIMEOUT (R400). A request unanswered at timeout_ms fails with TIMEOUT. -/
  | remoteTimeout (rid : BitVec 28)
  /-- REPLY_CACHE_EXPIRY (R405). A reply-cache entry is freed lifetime_ms after it was written. -/
  | replyCacheExpiry
  /-- RMT_STATE_LOST (R408). Uncorrectable data in the remote state region invalidates every record and raises RMT_STATE_LOST. -/
  | rmtStateLost
  /-- RMT_ENABLE (R392). A write of RMT_CTL.enable starts or stops performing incoming requests. -/
  | rmtEnable (v : Bool)
  /-- RMT_WIN_WRITE (R412). A 64-bit write of RMT_WIN_CTL brings all fields of a window into force together. -/
  | rmtWinWrite (window : BitVec 12) (v : W64)
  /-- RMT_CLEAR (R390). A write of RMT_CLR sets the remote statistics to 0. -/
  | rmtClear
  /-- COLLECTIVE_START (R418). A held collective starts once its group sequence number falls within the depth window. -/
  | collectiveStart
  /-- GRANT (R431). A GRANT packet gives the sender slots at a receiver. -/
  | grantPkt
  /-- DATA (R432). A DATA packet is written into its granted slot at its packet offset. -/
  | dataPkt
  /-- SEAL (R432). A SEAL closes a chunk, which is checked by CRC-32C and used, or handled as failed. -/
  | sealChunk
  /-- ACK (R432). An ACK releases a chunk held by its sender. -/
  | ackPkt
  /-- REREQ (R432). A REREQ makes the sender send the chunk again. -/
  | rereqPkt
  /-- REREQ_TIMER (R433). A granted chunk not complete within rereq_us makes the receiver send REREQ. -/
  | rereqTimer (q : QueueNo) (idx : BitVec 32) (src : BitVec 14) (index : BitVec 32)
  /-- CHUNK_FAILED (R440). A chunk whose data cannot be produced is sent as a failed SEAL and the receivers write none of it. -/
  | chunkFailed (q : QueueNo) (idx : BitVec 32)
  /-- COLLECTIVE_WATCHDOG (R443). A collective without progress for watchdog_ms completes with TIMEOUT. -/
  | collectiveWatchdog (q : QueueNo) (idx : BitVec 32)
  /-- GRP_ENABLE (R445). A write of GRP_CTL.enable starts the engine or fails every entry's commands with TIMEOUT. -/
  | grpEnable (v : Bool)
  /-- GROUP_ENTRY_ENABLE (R417). A write of GRP_ENT_CTL.enable checks and enables an entry or fails its commands with TIMEOUT. -/
  | groupEntryEnable (g : Fin 1024) (v : Bool)
  /-- GRP_CLEAR (R434). A write of GRP_CLR sets GRP_STATS and GRP_DROPS to 0. -/
  | grpClear
  /-- FLIT_NAK (R457). A lane word naming a failed flit makes the sender replay from the last good flit. -/
  | flitNak (n : OptNo) (f : FibreNo) (i : LaneNo) (mine : Bool) (ucw : Bool) (seq : BitVec 12)
  /-- FLIT_ACK_TIMEOUT (R458). A flit unacknowledged beyond the round trip plus 4 µs is replayed. -/
  | flitAckTimeout (n : OptNo) (f : FibreNo) (i : LaneNo) (seq : BitVec 12)
  /-- RING_TUNE (R460). Each ring heater loop corrects its lock every 1 µs. -/
  | ringTune (n : OptNo) (dir : Fin 2) (f : FibreNo) (i : LaneNo) (heater : BitVec 16) (err : BitVec 8) (held : Bool)
  /-- FEED_FORWARD_NOTICE (R461). An advance notice of a heat change adds a feed-forward heater correction when the change takes effect. -/
  | feedForwardNotice (n : OptNo) (unit : Fin 2) (kind : Fin 2) (amount : BitVec 16)
  /-- FF_STALE (R462). No notice or keep-alive for 1 ms sets ff_stale. -/
  | ffStale (n : OptNo)
  /-- WRONG_LOCK (R464). A ring found wrongly locked walks back or relocks and its lane is handed over. -/
  | wrongLock (n : OptNo) (f : FibreNo) (i : LaneNo) (test : RingTest) (lost : BitVec 10)
  /-- WALK_COMPLETE (R472). A ring walk completes and the lane goes to TRAINING. -/
  | walkComplete (n : OptNo) (f : FibreNo) (i : LaneNo)
  /-- LASER_SAMPLE (R466). Each laser's output is measured every 1 ms and its fade compared with the thresholds. -/
  | laserSample (n : OptNo) (b : Fin 2) (i : LaneNo) (power : BitVec 16) (fade : BitVec 8)
  /-- SPARE_SWITCHOVER (R467). A spare laser is warmed and locked, then the line is switched to it. -/
  | spareSwitchover (n : OptNo) (i : LaneNo) (stage : Fin 3)
  /-- SUDDEN_LOSS (R468). A sudden laser loss takes the wavelength's lanes out of service by handover. -/
  | suddenLoss (n : OptNo) (i : LaneNo) (lost : BitVec 10)
  /-- BER_INTERVAL (R470). Each 1 ms interval's pre-FEC error ratio is evaluated and the lane relocked or retired. -/
  | berInterval (n : OptNo) (f : FibreNo) (i : LaneNo) (db : BitVec 8) (high : Bool) (corrected : BitVec 32) (ucws : BitVec 32) (lost : BitVec 10)
  /-- LANE_LOCKED (R472). Rings locked at both ends start lane training. -/
  | laneLocked (n : OptNo) (f : FibreNo) (i : LaneNo) (node : BitVec 14) (engine : Fin 32)
  /-- LANE_LOCK_TIMEOUT (R472). A lane not locked within 0.5 s counts a relock and tries again. -/
  | laneLockTimeout (n : OptNo) (f : FibreNo) (i : LaneNo)
  /-- LANE_TRAINED (R472). A lane completes training and joins the port. -/
  | laneTrained (n : OptNo) (f : FibreNo) (i : LaneNo) (rtt : BitVec 16)
  /-- OPT_ENABLE (R474). A write of OPT_CTL.enable brings the engine up from dark or darkens it. -/
  | optEnable (n : OptNo) (v : Bool)
  /-- OPT_CTL_WRITE (R475). A write of the fade thresholds is checked and taken or ignored as a whole. -/
  | optCtlWrite (n : OptNo) (retire : BitVec 8) (spare : BitVec 8) (warn : BitVec 8) (gain : BitVec 8) (relocks : BitVec 4) (ucws : BitVec 4) (ff : Bool)
  /-- OPT_COMMISSION (R476). OPT_COMMISSION.go over the management path stores commissioned laser and ring values. -/
  | optCommission (n : OptNo) (mgmt : Bool) (coefs : List FfCoef)
  /-- OPT_CLEAR (R457). A write of OPT_CLR sets OPT_ERR, OPT_FEC and relocks to 0. -/
  | optClear (n : OptNo)
  /-- ARRIVAL (R479). Every queue of the landing set has dispatched its LANDING and earlier remote writes are answered. -/
  | arrival (job : JobNo)
  /-- ARRIVAL_BARRIER (R479). The arrival barrier all-reduce completes across the barrier group. -/
  | arrivalBarrier (job : JobNo) (low : BitVec 48)
  /-- COMMIT (R482). Every chunk of the job's ranges is acknowledged by the partner. -/
  | commit (job : JobNo)
  /-- LANDING_SEAL (R479). The partner reports the buffer COMMITTED with landing n. -/
  | landingSeal (job : JobNo) (refused : Bool)
  /-- COMMIT_BARRIER (R479). The commit barrier completes and the landing completes in every queue of the set. -/
  | commitBarrier (job : JobNo) (low : BitVec 48)
  /-- LANDING_TIMEOUT (R481). A landing not complete within landing_timeout_ms fails in every queue of the set. -/
  | landingTimeout (job : JobNo)
  /-- PARTNER_COMMIT (R487). The partner checks a commit and streams it into the buffer not holding keep. -/
  | partnerCommit (e : Fin 8) (src : BitVec 14) (key : BitVec 16) (feed : BitVec 8) (keep : BitVec 48) (n : BitVec 48) (size : W64) (offset : W64) (data : List Byte) (last : Bool)
  /-- COMMIT_ABANDON (R487). A streaming buffer with no chunk for landing_timeout_ms, or a fenced source, returns to EMPTY. -/
  | commitAbandon (e : Fin 8)
  /-- MIR_BUF_UE (R487). A buffer chunk read as uncorrectable empties the buffer and raises MIR_BUF_UE. -/
  | mirBufUe (e : Fin 8) (b : Fin 2)
  /-- MIR_ENABLE (R484). A write of MIR_CTL.enable starts or stops the mirror engine. -/
  | mirEnable (v : Bool)
  /-- MIR_JOB_WRITE (R477). A write of MIR_JOB enables or disables a job's landings. -/
  | mirJobWrite (job : JobNo) (partner : BitVec 14) (group : BitVec 10) (bound : Bool) (enable : Bool)
  /-- MIR_RANGE_ENABLE (R489). A write of MIR_RANGE_CTL.enable enables a mirror range or is refused. -/
  | mirRangeEnable (r : Fin 64) (v : Bool)
  /-- MIR_HOST_ENABLE (R486). A write of MIR_HOST_CTL.enable reserves a host entry or empties both buffers. -/
  | mirHostEnable (e : Fin 8) (v : Bool)
  /-- SELF_TEST (R492). MIR_ADMIT_CMD op SELF_TEST tests and zeroes the panel's memories and retrains links. -/
  | selfTest (mgmt : Bool)
  /-- SELF_TEST_DONE (R492). A self-test ends with READY, or with a failing unit marked and MIR_SELFTEST_FAIL raised. -/
  | selfTestDone (failed : List (BitVec 9))
  /-- ADMIT_LOAD (R493). MIR_ADMIT_CMD op LOAD requests landing L of a job from its partner. -/
  | admitLoad (mgmt : Bool) (job : JobNo) (n : BitVec 48)
  /-- LOAD_COMPLETE (R493). All chunks of a load are placed and the job's last_landing becomes L. -/
  | loadComplete (image : List Byte)
  /-- LOAD_REFUSED (R484). A partner refusal of a load before any write returns the panel to its previous state. -/
  | loadRefused
  /-- ORPHANED (R494). A load whose partner is fenced, stalls or sends a failed chunk is aborted as ORPHANED. -/
  | orphaned
  /-- ABORT (R494). MIR_ADMIT_CMD op ABORT returns a LOADING or ORPHANED panel to READY. -/
  | abortLoad (mgmt : Bool)
  /-- REJOIN_COMPLETE (R479). The rejoin landing of every loaded job completes and the panel becomes SERVING. -/
  | rejoinComplete
  /-- MIR_ADMIT_TIMEOUT (R493). A panel WAITING admit_timeout_s after its last load returns to READY. -/
  | mirAdmitTimeout
  /-- MGMT_VIEW_WRITE (R491). A management write of panel_state, view_gen or the fence map updates the management view. -/
  | mgmtViewWrite (mgmt : Bool) (w : ViewWrite)
  /-- INPUT_SAMPLE (R495). The input stage measures voltage and current every 1 µs and classifies the input condition. -/
  | inputSample (volts : BitVec 16) (amps : BitVec 16) (bank : BitVec 16)
  /-- BROWNOUT_CUT (R498). If the draw is still high 40 µs into a brownout, every pace cap falls to 0/16. -/
  | brownoutCut (draw : BitVec 16)
  /-- POWER_LOST (R499). A brownout beyond 3 ms or an empty bank turns off main power and enters P3. -/
  | powerLost
  /-- SAG_END (R500). After 100 µs at 44 V or more the sag ends, caps return to 16/16 and credits are released. -/
  | sagEnd
  /-- HOLDUP_CHARGED (R501). The hold-up bank reaches 52 V and credits are no longer held. -/
  | holdupCharged
  /-- STANDBY_LOST (R502). Loss of the standby input with main power present sets standby_lost. -/
  | standbyLost
  /-- POWER_TELEMETRY (R503). Every 100 µs the power manager reads telemetry and sets ceilings, caps and issuer parameters. -/
  | powerTelemetry (power : BitVec 16)
  /-- OPTIMISER_STEP (R515). Every 1 ms the optimiser raises or lowers each wing's voltage request by 5 mV. -/
  | optimiserStep (d : DieNo) (a : WingNo) (mean : BitVec 16)
  /-- CLAMP_EPISODE_END (R516). A clamp episode ends when no clamp has applied for 100 ms. -/
  | clampEpisodeEnd
  /-- PACE_WINDOW (R506). Each 1 µs the pace limiter caps the beats each array may take. -/
  | paceWindow (d : DieNo) (a : WingNo) (arrays : Fin 513) (wanted : BitVec 16)
  /-- CREDIT_GRANT (R507). The issuer grants a waiting wing a credit within its interval and panel limits and sends notices. -/
  | creditGrant
  /-- CREDIT_EFFECT (R507). A granted credit raises the wing's allowance 2 µs after the grant. -/
  | creditEffect (d : DieNo) (a : WingNo)
  /-- ALLOWANCE_FALL (R509). After credit_hold the allowance falls to the active count rounded up. -/
  | allowanceFall (d : DieNo) (a : WingNo)
  /-- UNIT_IDLE_DOWN (R518). A unit idle under Table 15.7 goes down by itself to a deeper state. -/
  | unitIdleDown (u : PowUnit) (n : Fin 3)
  /-- U2_IDLE_EXPIRY (R518). A core in U1 for u2_idle_us enters U2. -/
  | u2IdleExpiry (d : DieNo) (c : CoreNo)
  /-- D2_IDLE_EXPIRY (R518). A die with all wings W2 and no stack access for d2_idle_ms enters D2. -/
  | d2IdleExpiry (d : DieNo)
  /-- UNIT_WAKE (R518). A unit wakes on access or a child's wake within the times of Table 15.7. -/
  | unitWake (u : PowUnit)
  /-- PSTATE_TARGET (R520). A write of PWR_PSTATE.target requests a panel state, which is entered or refused. -/
  | pstateTarget (target : Fin 4)
  /-- PSTATE_TRANSITION_END (R521). A panel state transition ends and a target written meanwhile is taken. -/
  | pstateTransitionEnd
  /-- PWR_DIE_OFF_WRITE (R519). A write of PWR_DIE_OFF requests D3 for dies, or lifts the request. -/
  | pwrDieOffWrite (mask : BitVec 40)
  /-- PWR_CLEAR_EVENTS (R516). A write of PWR_DIE_OFF.clear_events sets sags, brownouts and clamps to 0. -/
  | pwrClearEvents
  /-- WING_OFF_WRITE (R519). A write of WNG_CTL.wing_off or WNG_CORE_OFF requests W3 or U3. -/
  | wingOffWrite (d : DieNo) (a : WingNo) (cores : Bool) (v : BitVec 64)
  /-- SENSOR_READ (R527). Each sensor reading is compared with its thresholds and moves the sensor state. -/
  | sensorRead (kind : Fin 4) (index : Fin 640) (reading : BitVec 8)
  /-- GRACE_END (R528). A throttle grace expires and the sensor enters ENFORCE. -/
  | graceEnd (kind : Fin 4) (index : Fin 640)
  /-- ORDERLY_STOP_END (R533). After at most 5 ms the die's shares are at restart points and its stacks enter self-refresh. -/
  | orderlyStopEnd (d : DieNo) (pts : List DiePoint)
  /-- THM_DIE_BACK (R536). A shut-down die returns after its sensors stay cool for 1 s, or on THM_RETURN. -/
  | thmDieBack (d : DieNo)
  /-- THM_RETURN_WRITE (R536). A write of THM_RETURN returns a shut-down die if its sensors are cool. -/
  | thmReturnWrite (mask : BitVec 40)
  /-- OPT_THERMAL_RETURN (R539). An engine dark by temperature returns after 1 s below warning − hyst. -/
  | optThermalReturn (n : OptNo)
  /-- HARDWARE_TRIP (R540). A die sensor at 120 °C cuts every supply of the die and marks it for retirement. -/
  | hardwareTrip (d : DieNo)
  /-- THM_THRESHOLD_WRITE (R524). A write to a threshold register is taken or ignored as a whole. -/
  | thmThresholdWrite (kind : Fin 3) (warning : BitVec 8) (throttle : BitVec 8) (shutdown : BitVec 8)
  /-- THM_CLEAR_MAX (R522). A write of THM_SEL.clear_max sets the selected sensor's max to its reading. -/
  | thmClearMax
  /-- PORTER_WAKE (R546). A watched source or standby condition wakes the panel from P2 or P3. -/
  | porterWake (code : Fin 1027)
  /-- PORTER_TIMER (R547). The porter timer expires and wakes the panel. -/
  | porterTimer
  /-- WAKE_FROM_P2 (R548). A wake from P2 resumes the stewards, wakes dies and optics and ends in P0. -/
  | wakeFromP2
  /-- MGMT_WAKE (R544). A wake written over the management path wakes the panel. -/
  | mgmtWake (mgmt : Bool)
  /-- EVENT_LATCH (R551). A block raises an event, setting the source's origin latch and its pending bit. -/
  | eventLatch (src : Fin 1024)
  /-- SOURCE_ACTIVATE (R553). A target with no active source takes its lowest pending enabled source and sends the message. -/
  | sourceActivate (target : Fin 5) (eoi : Bool)
  /-- EVT_HOST_EOI (R556). A host EOI ends the active source and re-pends it if its latch is still set. -/
  | evtHostEoi (priv : Bool) (src : BitVec 10)
  /-- EVT_ACK (R551). A write of EVT_ACK clears a source's origin latch. -/
  | evtAck (src : Fin 1024)
  /-- EVT_PEND_WRITE (R559). A write of EVT_PEND or EVT_HOST_PRIV replaces a word of pending bits. -/
  | evtPendWrite (word : Fin 17) (bits : W64)
  /-- RESCAN (R560). A rescan re-pends every latched, non-active source. -/
  | rescan
  /-- PERIODIC_RESCAN (R560). A rescan starts every rescan_ms. -/
  | periodicRescan
  /-- EVT_SW_SET (R550). A write of EVT_SW_SET latches a software source. -/
  | evtSwSet (n : Fin 128)
  /-- GALLERY_SAMPLE (R566). A sample updates the bins and extremes of a record's working copy. -/
  | gallerySample (g : Fin 42) (r : Fin 1024) (v : BitVec 32)
  /-- GALLERY_PUBLISH (R568). Every publish_us the working copy is published into the visible record. -/
  | galleryPublish (g : Fin 42)
  /-- GAL_CURSOR_WRITE (R570). A cursor write selects a record, holds its publishing for hold_us and may clear it. -/
  | galCursorWrite (b : Fin 41) (record : BitVec 10) (hub : Bool) (clear : Bool)
  /-- GAL_BINS_WRITE (R571). A write of GAL_BINS sets lo and shift from the next publish. -/
  | galBinsWrite (b : Fin 41) (lo : BitVec 16) (shift : BitVec 4)
  /-- HOLD_END (R570). The publish hold ends and held samples are published. -/
  | holdEnd (b : Fin 41)
  /-- TMR_CORR (R574). A write of TMR_CORR.go samples the hub and die ticks at one instant. -/
  | tmrCorr
  /-- ALARM (R575). A timer alarm reaches its compare value and raises its host private source. -/
  | alarm (k : Fin 16)
  /-- GET_NONCE (R592). Mailbox GET_NONCE makes a new nonce and discards the previous one. -/
  | getNonce (path : SecPath)
  /-- UNLOCK (R591). Mailbox UNLOCK checks a token and enters OPEN or RETURN. -/
  | unlock (path : SecPath) (blown : Bool)
  /-- SET_DEBUG (R590). Mailbox SET_DEBUG requests SEALED, OBSERVE or OPEN. -/
  | setDebug (path : SecPath)
  /-- ADVANCE_ARB (R580). Mailbox ADVANCE_ARB blows anti-rollback fuses up to a value. -/
  | advanceArb (path : SecPath) (blown0 : Bool) (blown1 : Bool)
  /-- LIFECYCLE (R586). Mailbox LIFECYCLE blows the fuse for PROVISION or FIELD. -/
  | lifecycle (path : SecPath) (blown : Bool)
  /-- FUSE_AUTH (R577). Mailbox FUSE_AUTH fuses the owner's debug authority digest in PROVISION. -/
  | fuseAuth (path : SecPath) (blown : Bool)
  /-- NONCE_EXPIRY (R592). A nonce is discarded 600 s after it was made. -/
  | nonceExpiry
  /-- OPEN_EXPIRY (R594). open_left_s reaches 0 and the debug state becomes SEALED. -/
  | openExpiry
  /-- DBG_SEAL (R590). A write of DBG_CTL.seal sets SEALED at once. -/
  | dbgSeal
  /-- GET_VERSION (R583). SPDM GET_VERSION is answered with version 1.2. -/
  | getVersion (port : HostPortNo)
  /-- GET_CAPABILITIES (R583). SPDM GET_CAPABILITIES is answered. -/
  | getCapabilities (port : HostPortNo)
  /-- NEGOTIATE_ALGORITHMS (R583). SPDM NEGOTIATE_ALGORITHMS is answered. -/
  | negotiateAlgorithms (port : HostPortNo) (common : Bool)
  /-- GET_DIGESTS (R583). SPDM GET_DIGESTS returns the certificate slot digests. -/
  | getDigests (port : HostPortNo)
  /-- GET_CERTIFICATE (R582). SPDM GET_CERTIFICATE returns a certificate chain. -/
  | getCertificate (port : HostPortNo) (slot : Fin 8) (offset : BitVec 16) (length : BitVec 16)
  /-- CHALLENGE (R583). SPDM CHALLENGE is answered signed with IK over the nonce. -/
  | challenge (port : HostPortNo) (slot : Fin 8) (nonce : BitVec 256)
  /-- GET_MEASUREMENTS (R583). SPDM GET_MEASUREMENTS returns the measurement blocks. -/
  | getMeasurements (port : HostPortNo) (index : BitVec 8) (signed : Bool) (nonce : BitVec 256)
  /-- KEY_EXCHANGE (R593). SPDM KEY_EXCHANGE opens a secure session, refused while OPEN. -/
  | keyExchange (port : HostPortNo)
  /-- FINISH (R583). SPDM FINISH completes session establishment. -/
  | finish (port : HostPortNo) (id : Fin 2) (valid : Bool)
  /-- END_SESSION (R583). SPDM END_SESSION closes a secure session. -/
  | endSession (port : HostPortNo) (id : Fin 2)
  /-- GET_CSR (R583). SPDM GET_CSR returns a signing request in PROVISION. -/
  | getCsr (port : HostPortNo) (nonce : BitVec 256)
  /-- SET_CERTIFICATE (R582). SPDM SET_CERTIFICATE writes the owner's slot in PROVISION. -/
  | setCertificate (port : HostPortNo) (slot : Fin 8) (chain : List Byte)
  /-- CXL_IDE_KM (R584). IDE key management in a session programs or activates a port's IDE keys. -/
  | cxlIdeKm (port : HostPortNo) (id : Fin 2) (op : IdeKmOp)
  /-- MGMT_READ (R612). A management READ message reads BAR0 words, or is answered from a kept reply. -/
  | mgmtRead (src : W64) (seq : BitVec 16) (off : BitVec 32) (count : BitVec 16)
  /-- MGMT_WRITE (R612). A management WRITE message writes BAR0 words in ascending order, or is answered from a kept reply. -/
  | mgmtWrite (src : W64) (seq : BitVec 16) (off : BitVec 32) (words : List RegWord)
  /-- READ_VIN (R612). PMBus READ_VIN returns the input voltage. -/
  | readVin
  /-- READ_IIN (R612). PMBus READ_IIN returns the input current. -/
  | readIin
  /-- READ_TEMPERATURE_1 (R612). PMBus READ_TEMPERATURE_1 returns the hottest sensor. -/
  | readTemperature1
  /-- READ_PIN (R612). PMBus READ_PIN returns the input power. -/
  | readPin
  /-- STATUS_WORD (R612). PMBus STATUS_WORD returns the status word. -/
  | statusWord
  /-- UNIT_STATE_WRITE (R48). A management write of PNL_UNIT_DATA is applied if expect_gen matches and Table 1.9 allows it. -/
  | unitStateWrite (mgmt : Bool) (half : Fin 3) (v : W64)
  /-- PROFILE_WRITE (R52). A write of PNL_PROFILE writes each function's expert fields with preset values, field by field. -/
  | profileWrite (half : Fin 3) (v : W64)
  /-- HUB_SYNC (R44). A hub state change is acknowledged after the standby holds it, or the standby resynchronises. -/
  | hubSync
  /-- ABSENT_ACCESS (R35). An access to the window of an inactive die reads zero or is ignored and sets absent_access. -/
  | absentAccess (a : BusAccess) (write : Bool)
  /-- EARLY_ACCESS (R619). An access to a non-PNL block before PANEL_READY reads zero or is ignored and sets early_access. -/
  | earlyAccess (a : BusAccess) (write : Bool)
  /-- REGISTER_WRITE (R13). A write to a register with no row of its own is taken under the field's access and change class. -/
  | registerWrite (mgmt : Bool) (off : BitVec 28) (bytes : Fin 65) (v : W64) (x : Outside)
  /-- WINDOW_ACCESS (R604). A host CXL.mem access maps through its segment to stacked memory, or is a hole access. -/
  | windowAccess (p : HostPortNo) (line : BitVec 36) (op : WinOp)
  /-- PNL_MEM_SEG_WRITE (R605). A write of PNL_MEM_SEG changes a window segment within 1 µs. -/
  | pnlMemSegWrite (seg : Fin 256) (v : W64)
  /-- BISNP (R607). A panel access to a host-cached window line recalls it with BISnp. -/
  | bisnp (line : BitVec 46) (data : Option Line)
  /-- HOST_MODE_WRITE (R601). A write of PNL_HOST_CTL.mode changes the port mode within 1 µs. -/
  | hostModeWrite (dual : Bool)
  /-- TAKEOVER (R608). A management write of PNL_HOST_CTL.takeover starts a hub takeover. -/
  | takeover (mgmt : Bool)
  /-- HEARTBEAT_MISS (R608). The primary's heartbeat missed for 10 ms triggers a takeover. -/
  | heartbeatMiss
  /-- HOME_PORT_DOWN (R608). The home port down for host_down_ms while the standby's is up triggers a takeover. -/
  | homePortDown
  /-- HUB_DOMAIN_FAULT (R609). A fault of the primary hub's main domain triggers a takeover or HUB_LOST. -/
  | hubDomainFault
  /-- HUB_TAKEOVER (R610). The standby hub takes over, flips primary, re-reads doorbells and reissues uncompleted writes. -/
  | hubTakeover
  /-- HOST_LINK_DOWN (R613). A host-port hot reset or link down resets that port's configuration space and MSI-X table. -/
  | hostLinkDown (p : HostPortNo)
  /-- COLD_RESET (R617). A cold reset runs the start-up timeline from step 1. -/
  | coldReset (flash : List FlashWrite) (h0 : Bool) (h1 : Bool)
  /-- WARM_RESET (R617). A warm reset runs the start-up timeline from step 3. -/
  | warmReset (flash : List FlashWrite) (h0 : Bool) (h1 : Bool)
  /-- PANEL_RESET (R616). A panel reset or CXL Reset runs start-up from step 4 and reports completion. -/
  | panelReset (cxl : Bool)
  /-- DIE_RESET (R614). A die reset stops the die's shares, resets its logic with stacks kept and retrains its links. -/
  | dieReset (d : DieNo) (pts : List DiePoint)
  /-- PANEL_READY (R618). Start-up sets PNL_START.ready when every condition holds. -/
  | panelReady (ms : BitVec 16)
  /-- STARTUP_FAIL (R620). A start-up step incomplete at 10 s sets failed and fail_step. -/
  | startupFail (step : Fin 11)
  /-- PERST_RELEASE (R617). Release of PERST# lets the host port train and answer configuration requests. -/
  | perstRelease (p : HostPortNo) (rate : Fin 3) (x8 : Bool) (cacheEn : Bool) (memEn : Bool)
  /-- SEMAPHORE_WATCH (R206). A write that satisfies a watched semaphore releases its WAIT within 1 µs. -/
  | semaphoreWatch (q : QueueNo) (idx : BitVec 32)
  /-- WAIT_RETEST (R206). With the watch table full, unwatched WAITs are tested every 10 µs. -/
  | waitRetest
  /-- WAIT_TIMEOUT (R201). A WAIT whose timeout expires faults its queue. -/
  | waitTimeout (q : QueueNo) (idx : BitVec 32)
  /-- TIMER_EXPIRY (R211). A TIMER's duration elapses and the command completes. -/
  | timerExpiry (q : QueueNo) (idx : BitVec 32)
  /-- PARTNER_LOAD (R484). A partner receives a load request, checks it against Table 14.2 and streams its COMMITTED buffer of landing L to the loader, or refuses it. -/
  | partnerLoad (e : Fin 8) (src : BitVec 14) (key : BitVec 16) (n : BitVec 48) (size : W64)
  /-- FAR_LINK_UP (R308). A far port's link comes up again, ending the TIMEOUT of every access to it. -/
  | farLinkUp (f : FarPort) (rate : Fin 4) (width : BitVec 5)
  /-- HOST_LINK_UP (R609). A host port's link comes back up, which can satisfy the takeover condition or end the wait after a port failure with peer_synced 0. -/
  | hostLinkUp (p : HostPortNo) (rate : Fin 3) (x8 : Bool) (cacheEn : Bool) (memEn : Bool)
  /-- MSIX_UNMASK (R603). The host unmasks an MSI-X vector or enables MSI-X, and a message waiting in the pending-bit array is sent. -/
  | msixUnmask (p : HostPortNo) (op : MsixOp)
  /-- DEBUG_ACCESS_PORT_REQUEST (R589). A request on the debug access port halts, steps or resumes a unit, reads or writes a register or memory, or scans logic, as the debug state allows. -/
  | debugAccessPortRequest (req : DapReq)
  deriving DecidableEq, Repr

end Sys2Proof
end

