-- ==== Sys2Proof/Decode.lean ====
section
/-!
DEFINITION. The command that a table word spells. The panel has no instruction encoding: spec/opcode_table.json gives none of its rows
bits, so no word spells a command.
-/

namespace Sys2Proof

/-- The command whose bits are `w` in `nbits` bits: none, since the table gives no row bits. -/
def decodeTableWord (nbits w : Nat) : Option Instr :=
  match nbits, w with
  | _, _ => none

end Sys2Proof
end

