-- ==== Sys2Proof/Config.lean ====
section
/-!
DEFINITION. What the spec leaves open. Every constant is opaque: nothing in Lean can evaluate it or prove a value of it,
so a statement about the model holds whatever it is. The assumption log names each one.
-/

namespace Sys2Proof.Config

/-- A fresh open choice: `k` is State.free at the step, `i` tells the choices of one step apart (R149, R210, R220, R228). -/
opaque pick : Nat → Nat → Nat

/-- Packets that a channel of a Tecen link buffers beyond its first, by 2 · class + 1 for escape (R329): the spec gives no size. -/
opaque tcnCredits : Nat → Nat

/-- The six owner bytes of the acknowledgement of a windowed packet of a class (R365): the spec gives them no layout. -/
opaque ackOwner : Nat → Nat

/-- The 250 payload bytes of an IDLE flit of a node, engine, fibre and lane, as a number (R456): the spec gives their layout nowhere. -/
opaque idleBody : (node engine fibre lane : Nat) → Nat

/-- What a byte of memory outside the panel's own zeroed memories reads as before the panel has written it:
far-tier devices (R306) and host memory, by its flat address. -/
opaque outsideByte : Nat → Byte

/-- The fixed EXP approximation of the vector engine before its error bound is applied (R162). -/
opaque expApprox : F32 → F32

/-- The fixed LOG approximation of the vector engine before its error bound is applied (R162). -/
opaque logApprox : F32 → F32

/-- The fixed RCP approximation of the vector engine before its error bound is applied (R162). -/
opaque rcpApprox : F32 → F32

/-- The security controller's random source: the n-th nonce it makes (R592). -/
opaque nonce : Nat → W64

/-- SHA-512 of a byte string (R578, R591). -/
opaque sha512 : List Byte → BitVec 512

/-- Whether `sig` is a valid Ed25519 signature (RFC 8032) under `key` over a byte string (R578, R591). -/
opaque ed25519Valid : (key : BitVec 256) → List Byte → (sig : BitVec 512) → Bool

/-- The Ed25519 signature under the private seed of R581 over a byte string. -/
opaque ed25519Sign : (seed : BitVec 256) → List Byte → BitVec 512

/-- The SHA-512 digest of the maker's root public key, fused at manufacture (Table 18.1). -/
opaque rootDigest : BitVec 512

/-- The word that STATUS_WORD answers at the k-th free choice: the spec names the command and gives its bits no meaning (R612). -/
opaque statusWord : Nat → BitVec 16

/-- The device seed that a hub's random source fuses on leaving MANUFACTURE (Table 18.1). -/
opaque deviceSeed : BitVec 256

/-- The DER certificate chain that the factory writes into slot 0 in PROVISION (R582). -/
opaque factoryChain : List Byte

/-- Engine state of a saved context at 0x78-0xFF, which the panel alone interprets (R248): byte k of the context of a descriptor. -/
opaque engineState : Line → Nat → Byte

end Sys2Proof.Config
end

