-- ==== Sys2Proof/Machine/Operands.lean ====
section
/-!
DEFINITION. Operand forms: the 17 format codes of Table 2.1, the value of every element (Table 2.2, R63, R67, R83), the
rounding modes (R92, R93), the conversion rules (Table 2.5, R95 to R98) and the FP32 operations of the vector engine (R160).
Every value is exact: a sign, a natural number and a power of two.
-/

namespace Sys2Proof.Machine

/-- An exact element value. `fin neg m e` is (-1)^neg · m · 2^e; a zero keeps its sign (R62). -/
inductive Val where
  | nan
  | inf (neg : Bool)
  | fin (neg : Bool) (m : Nat) (e : Int)
  deriving DecidableEq, Repr

/-- The formats of Table 2.1. -/
inductive Fmt where
  | fp32 | bf16 | fp16 | e4m3 | e5m2 | e3m2 | e2m3 | e2m1 | int8 | int4
  | mxE4m3 | mxE5m2 | mxE3m2 | mxE2m3 | mxE2m1 | mxInt8 | x128
  deriving DecidableEq, Repr

/-- The format of a 5-bit code; codes 0x11-0x1F are reserved (R56). -/
def Fmt.ofCode (c : Nat) : Option Fmt :=
  [Fmt.fp32, .bf16, .fp16, .e4m3, .e5m2, .e3m2, .e2m3, .e2m1, .int8, .int4,
   .mxE4m3, .mxE5m2, .mxE3m2, .mxE2m3, .mxE2m1, .mxInt8, .x128][c]?

/-- The format of the elements of a format: an MX format's element format without its scale (R67). -/
def Fmt.elem : Fmt → Fmt
  | .mxE4m3 => .e4m3 | .mxE5m2 => .e5m2 | .mxE3m2 => .e3m2 | .mxE2m3 => .e2m3 | .mxE2m1 => .e2m1
  | f => f

/-- Element size in bits, the scale left out (Table 2.1). -/
def Fmt.bits : Fmt → Nat
  | .fp32 => 32 | .bf16 => 16 | .fp16 => 16 | .e4m3 => 8 | .e5m2 => 8 | .e3m2 => 6 | .e2m3 => 6 | .e2m1 => 4
  | .int8 => 8 | .int4 => 4 | .mxE4m3 => 8 | .mxE5m2 => 8 | .mxE3m2 => 6 | .mxE2m3 => 6 | .mxE2m1 => 4
  | .mxInt8 => 8 | .x128 => 128

/-- Whether a format carries shared scales (R66 to R69). -/
def Fmt.isMx : Fmt → Bool
  | .mxE4m3 | .mxE5m2 | .mxE3m2 | .mxE2m3 | .mxE2m1 | .mxInt8 => true
  | _ => false

/-- Codes 0x03-0x09: FP8, FP6, FP4, INT8 and INT4 (R58). -/
def Fmt.isNarrow : Fmt → Bool
  | .e4m3 | .e5m2 | .e3m2 | .e2m3 | .e2m1 | .int8 | .int4 => true
  | _ => false

/-- The element alignment of R139: 1 byte up to 8 bits, 2 for 16-bit elements, 4 for FP32, 16 for X128. -/
def Fmt.align : Fmt → Nat
  | .fp32 => 4 | .bf16 => 2 | .fp16 => 2 | .x128 => 16 | _ => 1

/-- The pairs of A and B formats that R58 allows. -/
def pairAllowed (a b : Fmt) : Bool :=
  (a.isNarrow && b.isNarrow) || (a.isMx && b.isMx) || (a == .fp16 && b == .fp16) || (a == .bf16 && b == .bf16) ||
  (a == .fp32 && b == .fp32)

/-- Whether a format's throughput class is the 4- and 6-bit class (Table 2.1). -/
def Fmt.isClass46 : Fmt → Bool
  | .e3m2 | .e2m3 | .e2m1 | .int4 | .mxE3m2 | .mxE2m3 | .mxE2m1 => true
  | _ => false

/-- e_lsb of Table 2.3. -/
def Fmt.eLsb : Fmt → Int
  | .fp32 => -149 | .bf16 => -133 | .fp16 => -24 | .e4m3 => -9 | .e5m2 => -16 | .e3m2 => -4 | .e2m3 => -3 | .e2m1 => -1
  | .mxInt8 => -6 | _ => 0

/-- The default anchor of a pair (R78, Table 2.4); an MX pair has none. -/
def defaultAnchor (a b : Fmt) : Option Int :=
  if a.isNarrow && b.isNarrow then some (a.eLsb + b.eLsb)
  else if a == .fp16 && b == .fp16 then some (-48)
  else if (a == .bf16 && b == .bf16) || (a == .fp32 && b == .fp32) then some (-80)
  else none

/-- A two's-complement reading of the low `w` bits of `n`. -/
def signed (w n : Nat) : Int :=
  let r := n % 2 ^ w
  if r < 2 ^ (w - 1) then (r : Int) else (r : Int) - ((2 ^ w : Nat) : Int)

/-- The low `w` bits of an integer in two's complement. -/
def toBits (w : Nat) (i : Int) : Nat := (i % ((2 ^ w : Nat) : Int)).toNat

/-- Bits [lo + w - 1 : lo] of `n`. -/
def bitsOf (n lo w : Nat) : Nat := n / 2 ^ lo % 2 ^ w

/-- The fields of a floating-point format (Table 2.2): exponent bits, mantissa bits, bias. -/
structure FloatSpec where
  ew : Nat
  mw : Nat
  bias : Nat
  /-- an all-ones exponent holds infinity and NaN -/
  ieee : Bool
  /-- exponent 0b1111 with mantissa 0b111 is NaN and nothing else is special (E4M3) -/
  topNan : Bool
  deriving DecidableEq, Repr

/-- Table 2.2 by format; the integer formats and X128 have no float fields. -/
def Fmt.float : Fmt → Option FloatSpec
  | .fp32 => some ⟨8, 23, 127, true, false⟩
  | .bf16 => some ⟨8, 7, 127, true, false⟩
  | .fp16 => some ⟨5, 10, 15, true, false⟩
  | .e4m3 => some ⟨4, 3, 7, false, true⟩
  | .e5m2 => some ⟨5, 2, 15, true, false⟩
  | .e3m2 => some ⟨3, 2, 3, false, false⟩
  | .e2m3 => some ⟨2, 3, 1, false, false⟩
  | .e2m1 => some ⟨2, 1, 1, false, false⟩
  | _ => none

/-- The value of a floating-point code (R59). -/
def floatVal (p : FloatSpec) (n : Nat) : Val :=
  let m := bitsOf n 0 p.mw
  let e := bitsOf n p.mw p.ew
  let neg := bitsOf n (p.mw + p.ew) 1 == 1
  if p.ieee && e == 2 ^ p.ew - 1 then (if m == 0 then .inf neg else .nan)
  else if p.topNan && e == 2 ^ p.ew - 1 && m == 2 ^ p.mw - 1 then .nan
  else if e == 0 then .fin neg m (1 - (p.bias : Int) - (p.mw : Int))
  else .fin neg (2 ^ p.mw + m) ((e : Int) - (p.bias : Int) - (p.mw : Int))

/-- An integer as an exact value times 2^e. -/
def intVal (i : Int) (e : Int) : Val := .fin (i < 0) i.natAbs e

/-- The reserved X128 codes of R83. -/
def x128PosInf : Nat := 2 ^ 127 - 1
def x128NegInf : Nat := 2 ^ 127 + 1
def x128Nan : Nat := 2 ^ 127

/-- The largest magnitude of a finite stored X128 value (R83). -/
def x128Max : Nat := 2 ^ 127 - 2

/-- The value of the bits of one element. `anchor` is used by X128 alone (R83); an MX element is read without its scale. -/
def elemVal (f : Fmt) (anchor : Int) (n : Nat) : Val :=
  match f.elem.float with
  | some p => floatVal p n
  | none =>
    match f with
    | .int8 => intVal (signed 8 n) 0
    | .int4 => intVal (signed 4 n) 0
    | .mxInt8 => intVal (signed 8 n) (-6)
    | _ =>
      let w := n % 2 ^ 128
      if w == x128Nan then .nan
      else if w == x128PosInf then .inf false
      else if w == x128NegInf then .inf true
      else intVal (signed 128 w) anchor

/-- An element under its block's E8M0 scale byte (R66, R67): scale 0xFF reads as NaN. -/
def scaledVal (scale : Nat) (v : Val) : Val :=
  if scale % 256 == 255 then .nan
  else match v with
    | .fin neg m e => .fin neg m (e + (scale % 256 : Nat) - 127)
    | v => v

/-- The rounding modes of R92. -/
inductive Rnd where
  | rne
  | rtz
  /-- stochastic, with the sr_bits of the element's index (R93) -/
  | sr (bits : Nat)
  deriving DecidableEq, Repr

/-- mix64 of R93. -/
def mix64 (z : W64) : W64 :=
  let z := (z ^^^ (z >>> 30)) * 0xBF58476D1CE4E5B9#64
  let z := (z ^^^ (z >>> 27)) * 0x94D049BB133111EB#64
  z ^^^ (z >>> 31)

/-- sr_bits of R93: the upper 32 bits of the mixed seed and index. -/
def srBits (seed index : W64) : Nat :=
  (mix64 (seed + (index + 1) * 0x9E3779B97F4A7C15#64) >>> 32).toNat

/-- The rounding of an rnd field for one element: 0b00, 0b01 and 0b10 of R92. -/
def Rnd.of (rnd : Nat) (seed : W64) (index : Nat) : Rnd :=
  if rnd == 1 then .rtz else if rnd == 2 then .sr (srBits seed (BitVec.ofNat 64 index)) else .rne

/-- Round the magnitude m · 2^e to a multiple of 2^q: the multiple, and whether a non-zero fraction was discarded. -/
def roundMag (r : Rnd) (m : Nat) (e q : Int) : Nat × Bool :=
  if q ≤ e then (m * 2 ^ (e - q).toNat, false)
  else
    let d := (q - e).toNat
    let t := m / 2 ^ d
    let rem := m % 2 ^ d
    if rem == 0 then (t, false)
    else match r with
      | .rtz => (t, true)
      | .rne => (if 2 ^ d < 2 * rem || (2 * rem == 2 ^ d && t % 2 == 1) then t + 1 else t, true)
      | .sr b => (if b < rem * 2 ^ 32 / 2 ^ d then t + 1 else t, true)

/-- Bit length of a natural number. -/
def bitLen (n : Nat) : Nat := if n == 0 then 0 else n.log2 + 1

/-- The outcome of one conversion: the bits, and the flags it sets (Table 2.6). -/
structure Conv where
  bits : Nat
  low : Bool := false
  high : Bool := false
  deriving DecidableEq, Repr

/-- The code of a float format's largest finite value, without its sign (Table 2.2). -/
def FloatSpec.maxCode (p : FloatSpec) : Nat :=
  if p.ieee then (2 ^ p.ew - 1) * 2 ^ p.mw - 1
  else if p.topNan then 2 ^ (p.ew + p.mw) - 2
  else 2 ^ (p.ew + p.mw) - 1

/-- The magnitude code a finite magnitude rounds to with an unbounded exponent range; it may pass the largest finite code. -/
def FloatSpec.roundCode (p : FloatSpec) (r : Rnd) (m : Nat) (e : Int) : Nat :=
  if m == 0 then 0
  else
    let emin : Int := 1 - (p.bias : Int)
    let top : Int := (m.log2 : Int) + e
    let ex := if top < emin then emin else top
    let q := ex - (p.mw : Int)
    let k := (roundMag r m e q).1
    ((ex - emin).toNat) * 2 ^ p.mw + k

/-- The canonical NaN of R61. -/
def FloatSpec.nanCode (p : FloatSpec) : Option Nat :=
  if p.ieee then some ((2 ^ p.ew - 1) * 2 ^ p.mw + 2 ^ (p.mw - 1))
  else if p.topNan then some (2 ^ (p.ew + p.mw) - 1)
  else none

/-- The sign bit of a float format, set for a negative value. -/
def FloatSpec.signBit (p : FloatSpec) (neg : Bool) : Nat := if neg then 2 ^ (p.ew + p.mw) else 0

/-- Table 2.5 for a float destination. -/
def convFloat (p : FloatSpec) (r : Rnd) : Val → Conv
  | .nan => match p.nanCode with
    | some c => ⟨c, false, false⟩
    | none => ⟨0, false, true⟩
  | .inf neg =>
    if p.ieee then ⟨p.signBit neg + (2 ^ p.ew - 1) * 2 ^ p.mw, false, false⟩
    else ⟨p.signBit neg + p.maxCode, false, true⟩
  | .fin neg m e =>
    let c := p.roundCode r m e
    if p.maxCode < c then ⟨p.signBit neg + p.maxCode, false, true⟩
    else ⟨p.signBit neg + c, false, false⟩

/-- Table 2.5 for an integer destination of `w` bits in units of 2^q: saturation to the limit of the source's own sign. -/
def convInt (w : Nat) (q : Int) (r : Rnd) : Val → Conv
  | .nan => ⟨0, false, true⟩
  | .inf neg => ⟨if neg then 2 ^ (w - 1) else 2 ^ (w - 1) - 1, false, true⟩
  | .fin neg m e =>
    let k := (roundMag r m e q).1
    if neg then (if 2 ^ (w - 1) < k then ⟨2 ^ (w - 1), false, true⟩ else ⟨toBits w (-(k : Int)), false, false⟩)
    else (if 2 ^ (w - 1) - 1 < k then ⟨2 ^ (w - 1) - 1, false, true⟩ else ⟨k, false, false⟩)

/-- The stored X128 code of an integer in units of 2^anchor, saturated as R85 lays down. -/
def x128Store (w : Int) : Conv :=
  if w.natAbs ≤ x128Max then ⟨toBits 128 w, false, false⟩
  else ⟨toBits 128 (if w < 0 then -(x128Max : Int) else (x128Max : Int)), false, true⟩

/-- Table 2.5 for X128: rounded to the anchor, INEXACT_LOW for a discarded fraction, saturated as in R85 (R88). -/
def convX128 (anchor : Int) (r : Rnd) : Val → Conv
  | .nan => ⟨x128Nan, false, false⟩
  | .inf neg => ⟨if neg then x128NegInf else x128PosInf, false, false⟩
  | .fin neg m e =>
    let (k, low) := roundMag r m e anchor
    let c := x128Store (if neg then -(k : Int) else (k : Int))
    ⟨c.bits, low, c.high⟩

/-- One conversion of an exact value to an element format (R95, R97, R98); an MX element is converted without its scale. -/
def conv (f : Fmt) (anchor : Int) (r : Rnd) (v : Val) : Conv :=
  match f.elem.float with
  | some p => convFloat p r v
  | none =>
    match f with
    | .int8 => convInt 8 0 r v
    | .int4 => convInt 4 0 r v
    | .mxInt8 => convInt 8 (-6) r v
    | _ => convX128 anchor r v

/-- emax of R96. -/
def Fmt.emax : Fmt → Int
  | .mxE4m3 => 8 | .mxE5m2 => 15 | .mxE3m2 => 4 | .mxE2m3 => 2 | .mxE2m1 => 2 | _ => 0

/-- A value rounded to FP32 by R160's input rule: nearest even, saturating, INEXACT_HIGH when it saturates. -/
def toF32Sat (v : Val) : Val × Bool :=
  let c := conv .fp32 0 .rne v
  (elemVal .fp32 0 c.bits, c.high)

/-- The magnitude key of a finite value for comparisons: m · 2^e against m' · 2^e'. -/
def magLt (m : Nat) (e : Int) (m' : Nat) (e' : Int) : Bool :=
  if e ≤ e' then m < m' * 2 ^ (e' - e).toNat else m * 2 ^ (e - e').toNat < m'

/-- The scale byte and the element bits of one MX block (R96), and the flags. `rs` gives each element's rounding. -/
def convMxBlock (f : Fmt) (vs : List (Rnd × Val)) : Nat × List Nat × Bool × Bool :=
  let special := vs.any fun rv => match rv.2 with | .fin .. => false | _ => true
  if special then
    let anyInf := vs.any fun rv => match rv.2 with | .inf _ => true | _ => false
    let code := match f.elem.float with
      | some p => (p.nanCode).getD 0
      | none => 0
    (255, vs.map fun _ => code, false, anyInf)
  else
    let mags := vs.map fun rv => match (toF32Sat rv.2).1 with | .fin _ m e => (m, e) | _ => (0, (0 : Int))
    let amax := mags.foldl (fun a b => if magLt a.1 a.2 b.1 b.2 then b else a) (0, (0 : Int))
    let scale : Nat :=
      if amax.1 == 0 then 127
      else
        let x : Int := (amax.1.log2 : Int) + amax.2 - f.emax + 127
        if x < 0 then 0 else if 254 < x then 254 else x.toNat
    let es := vs.map fun rv =>
      match rv.2 with
      | .fin neg m e => conv f 0 rv.1 (.fin neg m (e - ((scale : Int) - 127)))
      | v => conv f 0 rv.1 v
    (scale, es.map (·.bits), es.any (·.low), es.any (·.high))

/-! ### FP32 operations of the vector engine and of fast mode -/

/-- FP32 as IEEE 754 rounds it: nearest even, overflow to infinity (R90, R160). -/
def round32 : Val → Val
  | .fin neg m e =>
    let p : FloatSpec := ⟨8, 23, 127, true, false⟩
    let c := p.roundCode .rne m e
    if p.maxCode < c then .inf neg else floatVal p (p.signBit neg + c)
  | v => v

/-- The exact sum of two values, with IEEE rules for infinities, NaN and the sign of a zero sum. -/
def exactAdd : Val → Val → Val
  | .nan, _ => .nan
  | _, .nan => .nan
  | .inf a, .inf b => if a == b then .inf a else .nan
  | .inf a, _ => .inf a
  | _, .inf b => .inf b
  | .fin a m e, .fin b m' e' =>
    let q := min e e'
    let x : Int := (if a then -1 else 1) * ((m * 2 ^ (e - q).toNat : Nat) : Int)
    let y : Int := (if b then -1 else 1) * ((m' * 2 ^ (e' - q).toNat : Nat) : Int)
    let z := x + y
    if z == 0 then .fin (a && b && m == 0 && m' == 0) 0 q else .fin (z < 0) z.natAbs q

/-- The exact product, with IEEE rules. -/
def exactMul : Val → Val → Val
  | .nan, _ => .nan
  | _, .nan => .nan
  | .inf a, .inf b => .inf (a != b)
  | .inf a, .fin b m _ => if m == 0 then .nan else .inf (a != b)
  | .fin a m _, .inf b => if m == 0 then .nan else .inf (a != b)
  | .fin a m e, .fin b m' e' => .fin (a != b) (m * m') (e + e')

/-- Negation. -/
def Val.neg : Val → Val
  | .nan => .nan
  | .inf a => .inf (!a)
  | .fin a m e => .fin (!a) m e

/-- An FP32 addition of the vector engine: one rounding to nearest even (R160). -/
def add32 (x y : Val) : Val := round32 (exactAdd x y)

/-- An FP32 subtraction. -/
def sub32 (x y : Val) : Val := add32 x y.neg

/-- An FP32 multiplication. -/
def mul32 (x y : Val) : Val := round32 (exactMul x y)

/-- x below y, exactly, with -0 below +0 (R163). NaN is below nothing. -/
def Val.lt : Val → Val → Bool
  | .nan, _ => false
  | _, .nan => false
  | .inf a, .inf b => a && !b
  | .inf a, _ => a
  | _, .inf b => !b
  | .fin a m e, .fin b m' e' =>
    if m == 0 && m' == 0 then a && !b
    else if m == 0 then !b
    else if m' == 0 then a
    else if a && !b then true
    else if !a && b then false
    else if a then magLt m' e' m e
    else magLt m e m' e'

/-- MAX of R163: NaN if either is NaN. -/
def max32 (x y : Val) : Val := if x == .nan || y == .nan then .nan else if x.lt y then y else x

/-- MIN of R163: NaN if either is NaN. -/
def min32 (x y : Val) : Val := if x == .nan || y == .nan then .nan else if y.lt x then y else x

/-! ### The approximations EXP, LOG and RCP (R162, R163)

Each is an opaque fixed function of its FP32 input, brought into the interval that its error bound allows. The interval
comes from a fixed-point enclosure of the true value with 2^-160 units. -/

/-- Fixed-point precision of the enclosures. -/
def fxP : Nat := 160

/-- Slack, in units of 2^-160, that covers every truncation of an enclosure. -/
def fxSlack : Nat := 2 ^ 24

/-- Σ 1 / (i · 2^i) from i = n down to 1, in units of 2^-160: ln 2 from below. -/
def ln2Fx : Nat → Nat
  | 0 => 0
  | n + 1 => ln2Fx n + 2 ^ fxP / ((n + 1) * 2 ^ (n + 1))

/-- ln 2 in units of 2^-160, from below. -/
def ln2 : Nat := ln2Fx 170

/-- Horner form of e^r for 0 ≤ r < 1 in units of 2^-160, from below: 1 + r/1 (1 + r/2 (1 + …)). -/
def expFx (r : Nat) : (terms k : Nat) → Nat
  | 0, _ => 2 ^ fxP
  | t + 1, k => 2 ^ fxP + r * expFx r t (k + 1) / 2 ^ fxP / k

/-- 2·(z + z³/3 + z⁵/5 + …) in units of 2^-160, from below; `zp` is the current odd power. -/
def atanhFx (z2 : Nat) : (terms : Nat) → (zp k : Nat) → Nat
  | 0, _, _ => 0
  | t + 1, zp, k => 2 * zp / k + atanhFx z2 t (zp * z2 / 2 ^ fxP) (k + 2)

/-- An FP32 code as a signed ordinal: equal steps of the ordinal are neighbouring values. -/
def f32Ord (c : Nat) : Int := if c < 2 ^ 31 then (c : Int) else -((c - 2 ^ 31 : Nat) : Int)

/-- The FP32 value of an ordinal. -/
def f32OfOrd (o : Int) : Val := elemVal .fp32 0 (if o < 0 then 2 ^ 31 + o.natAbs else o.toNat)

/-- The ordinal of the FP32 value nearest below a signed fixed-point number n · 2^-q, within the finite range. -/
def ordBelow (n : Int) (q : Int) : Int :=
  let p : FloatSpec := ⟨8, 23, 127, true, false⟩
  let c := p.roundCode .rtz n.natAbs (-q)
  let c := if p.maxCode < c then p.maxCode else c
  if n < 0 then
    (if (roundMag .rtz n.natAbs (-q) (match elemVal .fp32 0 c with | .fin _ _ e => e | _ => 0)).2 then -(c : Int) - 1 else -(c : Int))
  else (c : Int)

/-- The ordinal of the FP32 value nearest above n · 2^-q. -/
def ordAbove (n : Int) (q : Int) : Int := -(ordBelow (-n) q)

/-- An ordinal brought into an interval, and into the finite FP32 range. -/
def clampOrd (lo hi o : Int) : Int :=
  let top : Int := 0x7F7FFFFF
  let o := if o < lo then lo else if hi < o then hi else o
  if o < -top then -top else if top < o then top else o

/-- One unit in the last place, as a power of two, of an FP32 result of magnitude n · 2^-q. -/
def ulpExp (n : Nat) (q : Int) : Int :=
  let top : Int := (bitLen n : Int) - 1 - q
  if n == 0 || top < -126 then -149 else top - 23

/-- The opaque approximation `c`, brought within `ulps` units in the last place of a true value that lies in [lo, hi] · 2^-q; a subnormal
result within 2 units (R162). -/
def within (c : F32) (lo hi : Int) (q : Int) (ulps : Nat) : Val :=
  let big := max lo.natAbs hi.natAbs
  let u := ulpExp big q
  let ulps := if (bitLen big : Int) - q ≤ -126 then 2 else ulps
  -- everything in units of 2^-(q + 200), so that the bound is a whole number
  let k := (200 : Nat)
  let d : Int := (ulps * 2 ^ ((u + q + (k : Int)).toNat) : Nat)
  let l := lo * ((2 ^ k : Nat) : Int) - d
  let h := hi * ((2 ^ k : Nat) : Int) + d
  f32OfOrd (clampOrd (ordAbove l (q + (k : Int))) (ordBelow h (q + (k : Int))) (f32Ord c.toNat))

/-- The FP32 code of a value that is already FP32. -/
def f32Code (v : Val) : F32 := BitVec.ofNat 32 (conv .fp32 0 .rne v).bits

/-- EXP (R162, R163). -/
def exp32 (x : Val) : Val :=
  match x with
  | .nan => .nan
  | .inf neg => if neg then .fin false 0 0 else .inf false
  | .fin neg m e =>
    -- |x| at least 2^7 decides the result: overflow, or below every bound of a subnormal result
    if 128 ≤ m * 2 ^ (e + 200).toNat / 2 ^ 200 then
      (if neg then within (Config.expApprox (f32Code x)) 0 1 400 2 else .inf false)
    else
      let fx := if 0 ≤ e + (fxP : Int) then m * 2 ^ (e + (fxP : Int)).toNat else m / 2 ^ (-(e + (fxP : Int))).toNat
      let n : Int := if neg then -(fx : Int) - 1 else (fx : Int)
      let k := n / (ln2 : Int)
      let r := n % (ln2 : Int)
      let lo := expFx r.toNat 60 1
      let hi := lo + fxSlack
      -- the true value lies in [lo, hi] · 2^(k - 160)
      let q : Int := (fxP : Int) - k
      if (bitLen lo : Int) - q > 128 then .inf false
      else within (Config.expApprox (f32Code x)) ((lo : Int) - fxSlack) hi q 2

/-- LOG (R162, R163). -/
def log32 (x : Val) : Val :=
  match x with
  | .nan => .nan
  | .inf neg => if neg then .nan else .inf false
  | .fin neg m e =>
    if m == 0 then .inf true
    else if neg then .nan
    else
      let t := m.log2
      -- x = 2^(t + e) · f with f = m / 2^t in [1, 2)
      let z := (m - 2 ^ t) * 2 ^ fxP / (m + 2 ^ t)
      let z2 := z * z / 2 ^ fxP
      let lf := atanhFx z2 70 z 1
      let ex : Int := (t : Int) + e
      let mid : Int := ex * (ln2 : Int) + (lf : Int)
      -- two units are within 2^-22 for every x in [0.5, 2], whose logarithm lies below 1
      within (Config.logApprox (f32Code x)) (mid - (fxSlack : Int)) (mid + (fxSlack : Int)) fxP 2

/-- RCP (R162, R163). -/
def rcp32 (x : Val) : Val :=
  match x with
  | .nan => .nan
  | .inf neg => .fin neg 0 0
  | .fin neg m e =>
    if m == 0 then .inf neg
    else
      -- 1 / x = 2^-e / m
      let lo : Nat := 2 ^ 400 / m
      let hi : Nat := lo + 1
      let q : Int := 400 + e
      -- an overflowing reciprocal is not stated; the nearest finite values bound it (free within one unit)
      if neg then within (Config.rcpApprox (f32Code x)) (-(hi : Int)) (-(lo : Int)) q 1
      else within (Config.rcpApprox (f32Code x)) (lo : Int) (hi : Int) q 1

end Sys2Proof.Machine
end

