-- ==== Sys2Proof/Machine/Flags.lean ====
section
/-!
DEFINITION. Status codes (Table 0.9), the choice between several of them (R25) and the inexact flags of a command (R26, R77).
-/

namespace Sys2Proof.Machine

def stOk : Nat := 0x00
def stInexactLow : Nat := 0x01
def stInexactHigh : Nat := 0x02
def stDroppedOverflow : Nat := 0x03
def stPolicyClamped : Nat := 0x04
def stFaultPage : Nat := 0x10
def stFaultPerm : Nat := 0x11
def stUncorrectable : Nat := 0x12
def stDescInvalid : Nat := 0x13
def stPreempted : Nat := 0x14
def stTimeout : Nat := 0x20
def stStale : Nat := 0x21
def stRefused : Nat := 0x22
def stOrphaned : Nat := 0x30

/-- The model's own mark of an access that waits (R535, R614): the step that makes it leaves its command where it stood. -/
def stWait : Nat := 0x100

/-- The class of a status code: its high four bits. -/
def stClass (c : Nat) : Nat := c / 16

/-- R25: of two conditions the one with the higher class; within a class the lower code. OK yields to any other code of class 0x0. -/
def stWorse (a b : Nat) : Nat :=
  if stClass a < stClass b then b
  else if stClass b < stClass a then a
  else if a == stOk then b
  else if b == stOk then a
  else min a b

/-- R202: a completion status of class 0x1 or 0x2 is a failed completion. -/
def stFailed (c : Nat) : Bool := stClass c == 1 || stClass c == 2

/-- The sticky inexact flags of a command (R26). -/
structure Inexact where
  low : Bool := false
  high : Bool := false
  deriving DecidableEq, Repr

/-- The flags of two parts of a command together (R77). -/
def inexactOr (a b : Inexact) : Inexact := ⟨a.low || b.low, a.high || b.high⟩

/-- The flags that one conversion sets. -/
def inexactOfConv (c : Conv) : Inexact := ⟨c.low, c.high⟩

/-- The status that the flags alone give a completed command (Table 0.9, R25). -/
def stOfFlags (f : Inexact) : Nat := if f.low then stInexactLow else if f.high then stInexactHigh else stOk

end Sys2Proof.Machine
end

