-- ==== Sys2Proof/Machine/RegFile.lean ====
section
/-!
DEFINITION. The register map: every field of every register table of spec/ (files 01 and 03 to 19), with its place,
its reset value, its access code (Table 0.6), its change class (Table 0.7) and what a value outside its range stores.
A field whose reset the spec gives as "from hub store", "fused", "from boot" and the like carries the model's value,
named in notes/assumptions/3.md (DESIGN CHOICE).
-/

namespace Sys2Proof.Machine

/-- One field of a register: `id` names it, `lo` and `w` place it in its 64-bit register (R8), `rst` is its value at reset. -/
structure Fld where
  id : Nat
  lo : Nat
  w : Nat
  rst : Nat
  deriving DecidableEq, Repr

/-- Access codes of Table 0.6 (R12). -/
inductive Access where
  | ro | rw | w1c | w1s | wo
  deriving DecidableEq, Repr

/-- Change classes of Table 0.7 (R13); `fix` stands for a field that no write changes. -/
inductive Change where
  | imm | bnd | stat | lock | fix
  deriving DecidableEq, Repr

/-- What a field stores for a written value outside its range, as its description says. -/
inductive Norm where
  /-- values outside lo..hi store the nearest limit -/
  | clamp (lo hi : Nat)
  /-- values above lim store v -/
  | above (lim v : Nat)
  deriving DecidableEq, Repr

/-- A field in its register's table: access, change class, stored-value rule. -/
structure FldRow where
  f : Fld
  acc : Access
  chg : Change
  norm : Option Norm
  deriving DecidableEq, Repr

/-- Where a register's offset counts from (Tables 1.5 and 1.6). -/
inductive Space where
  | bar | die | stk | tcn | wng | gal | opt
  deriving DecidableEq, Repr

/-- One register (or run of registers `stride` bytes apart). Its unit number is `base * mul + index` plus, for a register
behind a selector, each selector field's value times its multiplier. -/
structure RegRow where
  name : String
  space : Space
  off : Nat
  stride : Nat
  count : Nat
  mul : Nat
  sels : List (Fld × Nat)
  fields : List FldRow
  deriving DecidableEq, Repr

def PNL_ID.serial : Fld := ⟨0, 32, 32, 0⟩
def PNL_ID.active_dies : Fld := ⟨1, 24, 8, 0⟩
def PNL_ID.stepping : Fld := ⟨2, 20, 4, 0⟩
def PNL_ID.option : Fld := ⟨3, 16, 4, 0⟩
def PNL_ID.part : Fld := ⟨4, 0, 16, 2358⟩
def PNL_DIE_ACTIVE.mask : Fld := ⟨5, 0, 40, 0⟩
def PNL_STATUS.retire_unfused : Fld := ⟨6, 6, 1, 0⟩
def PNL_STATUS.unit_write_rejected : Fld := ⟨7, 5, 1, 0⟩
def PNL_STATUS.below_minimum : Fld := ⟨8, 4, 1, 0⟩
def PNL_STATUS.profile_rejected : Fld := ⟨9, 3, 1, 0⟩
def PNL_STATUS.absent_access : Fld := ⟨10, 2, 1, 0⟩
def PNL_STATUS.cfg_ignored : Fld := ⟨11, 1, 1, 0⟩
def PNL_STATUS.cfg_pending : Fld := ⟨12, 0, 1, 0⟩
def PNL_HUB_ROLE.takeovers : Fld := ⟨13, 8, 8, 0⟩
def PNL_HUB_ROLE.peer_synced : Fld := ⟨14, 1, 1, 0⟩
def PNL_HUB_ROLE.primary : Fld := ⟨15, 0, 1, 0⟩
def PNL_UNIT_SEL.index : Fld := ⟨16, 0, 9, 0⟩
def PNL_UNIT_DATA.expect_gen : Fld := ⟨17, 32, 16, 0⟩
def PNL_UNIT_DATA.generation : Fld := ⟨18, 16, 16, 0⟩
def PNL_UNIT_DATA.width : Fld := ⟨19, 6, 5, 0⟩
def PNL_UNIT_DATA.origin : Fld := ⟨20, 4, 2, 0⟩
def PNL_UNIT_DATA.state : Fld := ⟨21, 0, 4, 1⟩
def PNL_PROFILE.events : Fld := ⟨22, 44, 4, 0⟩
def PNL_PROFILE.far : Fld := ⟨23, 40, 4, 0⟩
def PNL_PROFILE.mirror : Fld := ⟨24, 36, 4, 0⟩
def PNL_PROFILE.collectives : Fld := ⟨25, 32, 4, 0⟩
def PNL_PROFILE.remote : Fld := ⟨26, 28, 4, 0⟩
def PNL_PROFILE.fabric : Fld := ⟨27, 24, 4, 0⟩
def PNL_PROFILE.optics : Fld := ⟨28, 20, 4, 0⟩
def PNL_PROFILE.queues : Fld := ⟨29, 16, 4, 0⟩
def PNL_PROFILE.links : Fld := ⟨30, 12, 4, 0⟩
def PNL_PROFILE.thermal : Fld := ⟨31, 8, 4, 0⟩
def PNL_PROFILE.power : Fld := ⟨32, 4, 4, 0⟩
def DIE_ARR_CTL.stall_abort : Fld := ⟨33, 16, 16, 100⟩
def DIE_ARR_CTL.stall_limit : Fld := ⟨34, 8, 8, 2⟩
def DIE_ARR_CTL.clear_counts : Fld := ⟨35, 1, 1, 0⟩
def DIE_ARR_CTL.stall_event_en : Fld := ⟨36, 0, 1, 1⟩
def DIE_STALL_STATUS.aborts : Fld := ⟨37, 48, 16, 0⟩
def DIE_STALL_STATUS.stalls : Fld := ⟨38, 32, 16, 0⟩
def DIE_STALL_STATUS.last_core : Fld := ⟨39, 16, 8, 0⟩
def DIE_STALL_STATUS.last_stage : Fld := ⟨40, 13, 3, 0⟩
def DIE_STALL_STATUS.stalled_now : Fld := ⟨41, 0, 1, 0⟩
def DIE_BEAT_RATE.clear_ext : Fld := ⟨42, 48, 1, 0⟩
def DIE_BEAT_RATE.rate_max : Fld := ⟨43, 32, 16, 0⟩
def DIE_BEAT_RATE.rate_min : Fld := ⟨44, 16, 16, 0⟩
def DIE_BEAT_RATE.rate : Fld := ⟨45, 0, 16, 0⟩
def DIE_BEAT_BUSY.busy_beats : Fld := ⟨46, 0, 64, 0⟩
def DIE_BEAT_WAIT.wait_beats : Fld := ⟨47, 0, 64, 0⟩
def DIE_STATUS.busy_cores : Fld := ⟨48, 16, 9, 0⟩
def DIE_STATUS.die_state : Fld := ⟨49, 4, 2, 3⟩
def DIE_STATUS.cfg_ignored : Fld := ⟨50, 1, 1, 0⟩
def DIE_STATUS.cfg_pending : Fld := ⟨51, 0, 1, 0⟩
def DIE_CORE_BUSY.busy : Fld := ⟨52, 0, 64, 0⟩
def DIE_WRAP_COUNT.clear : Fld := ⟨53, 63, 1, 0⟩
def DIE_WRAP_COUNT.last_core : Fld := ⟨54, 48, 8, 0⟩
def DIE_WRAP_COUNT.wraps : Fld := ⟨55, 0, 48, 0⟩
def DIE_SHARES.shares : Fld := ⟨56, 0, 64, 0⟩
def QUE_STATUS.lines_polled : Fld := ⟨57, 5, 1, 0⟩
def QUE_STATUS.cache_active : Fld := ⟨58, 4, 1, 0⟩
def QUE_STATUS.ring_full : Fld := ⟨59, 3, 1, 0⟩
def QUE_STATUS.poll_stretched : Fld := ⟨60, 2, 1, 0⟩
def QUE_STATUS.cfg_ignored : Fld := ⟨61, 1, 1, 0⟩
def QUE_STATUS.cfg_pending : Fld := ⟨62, 0, 1, 0⟩
def QUE_CTL.max_inflight : Fld := ⟨63, 24, 7, 64⟩
def QUE_CTL.poll_interval : Fld := ⟨64, 8, 12, 2⟩
def QUE_CTL.db_force_poll : Fld := ⟨65, 1, 1, 0⟩
def QUE_CTL.engine_en : Fld := ⟨66, 0, 1, 1⟩
def QUE_SEL.cset : Fld := ⟨67, 40, 8, 0⟩
def QUE_SEL.fring : Fld := ⟨68, 32, 8, 0⟩
def QUE_SEL.cring : Fld := ⟨69, 16, 12, 0⟩
def QUE_SEL.queue : Fld := ⟨70, 0, 12, 0⟩
def QUE_Q_RING.base : Fld := ⟨71, 12, 52, 0⟩
def QUE_Q_RING.size_log2 : Fld := ⟨72, 0, 4, 6⟩
def QUE_Q_DB.line : Fld := ⟨73, 6, 58, 0⟩
def QUE_Q_DB.slot : Fld := ⟨74, 0, 4, 0⟩
def QUE_Q_BIND.priority : Fld := ⟨75, 36, 2, 0⟩
def QUE_Q_BIND.fring : Fld := ⟨76, 28, 8, 0⟩
def QUE_Q_BIND.cring : Fld := ⟨77, 16, 12, 0⟩
def QUE_Q_BIND.space : Fld := ⟨78, 8, 8, 0⟩
def QUE_Q_BIND.cset : Fld := ⟨79, 0, 8, 0⟩
def QUE_Q_CTL.resume : Fld := ⟨80, 1, 1, 0⟩
def QUE_Q_CTL.enable : Fld := ⟨81, 0, 1, 0⟩
def QUE_Q_STATE.head : Fld := ⟨82, 32, 32, 0⟩
def QUE_Q_STATE.inflight : Fld := ⟨83, 8, 7, 0⟩
def QUE_Q_STATE.state : Fld := ⟨84, 0, 3, 0⟩
def QUE_C_RING.base : Fld := ⟨85, 12, 52, 0⟩
def QUE_C_RING.enable : Fld := ⟨86, 7, 1, 0⟩
def QUE_C_RING.size_log2 : Fld := ⟨87, 0, 4, 6⟩
def QUE_C_DB.line : Fld := ⟨88, 6, 58, 0⟩
def QUE_C_DB.slot : Fld := ⟨89, 0, 4, 0⟩
def QUE_C_IRQ.irq_en : Fld := ⟨90, 11, 1, 0⟩
def QUE_C_IRQ.vector : Fld := ⟨91, 0, 11, 0⟩
def QUE_C_STATE.windex : Fld := ⟨92, 32, 32, 0⟩
def QUE_C_STATE.full : Fld := ⟨93, 0, 1, 0⟩
def QUE_F_RING.base : Fld := ⟨94, 12, 52, 0⟩
def QUE_F_RING.enable : Fld := ⟨95, 7, 1, 0⟩
def QUE_F_RING.size_log2 : Fld := ⟨96, 0, 4, 6⟩
def QUE_F_DB.line : Fld := ⟨97, 6, 58, 0⟩
def QUE_F_DB.slot : Fld := ⟨98, 0, 4, 0⟩
def QUE_F_IRQ.irq_en : Fld := ⟨99, 11, 1, 0⟩
def QUE_F_IRQ.vector : Fld := ⟨100, 0, 11, 0⟩
def QUE_F_STATE.windex : Fld := ⟨101, 32, 32, 0⟩
def QUE_F_STATE.full : Fld := ⟨102, 0, 1, 0⟩
def QUE_CSET.count : Fld := ⟨103, 16, 14, 0⟩
def QUE_CSET.first : Fld := ⟨104, 0, 14, 0⟩
def QUE_CLIST.entry_3 : Fld := ⟨105, 48, 16, 0⟩
def QUE_CLIST.entry_2 : Fld := ⟨106, 32, 16, 0⟩
def QUE_CLIST.entry_1 : Fld := ⟨107, 16, 16, 0⟩
def QUE_CLIST.entry_0 : Fld := ⟨108, 0, 16, 0⟩
def XLT_STATUS.cfg_ignored : Fld := ⟨109, 1, 1, 0⟩
def XLT_STATUS.cfg_pending : Fld := ⟨110, 0, 1, 0⟩
def XLT_CTL.host_walk_cached : Fld := ⟨111, 1, 1, 0⟩
def XLT_CTL.tc_en : Fld := ⟨112, 0, 1, 1⟩
def XLT_JOB_SEL.job : Fld := ⟨113, 0, 8, 0⟩
def XLT_JOB_ROOT.root : Fld := ⟨114, 16, 36, 0⟩
def XLT_JOB_ROOT.root_loc : Fld := ⟨115, 1, 1, 0⟩
def XLT_JOB_ROOT.enable : Fld := ⟨116, 0, 1, 0⟩
def XLT_INV.job : Fld := ⟨117, 16, 8, 0⟩
def XLT_INV.size_log2 : Fld := ⟨118, 4, 6, 12⟩
def XLT_INV.kind : Fld := ⟨119, 2, 2, 0⟩
def XLT_INV.go : Fld := ⟨120, 0, 1, 0⟩
def XLT_INV_VA.va : Fld := ⟨121, 0, 52, 0⟩
def XLT_INV_STATUS.done : Fld := ⟨122, 32, 32, 0⟩
def XLT_INV_STATUS.busy : Fld := ⟨123, 0, 1, 0⟩
def XLT_MISSES.misses : Fld := ⟨124, 0, 64, 0⟩
def QUE_X_RING.base : Fld := ⟨125, 12, 52, 0⟩
def QUE_X_RING.enable : Fld := ⟨126, 7, 1, 0⟩
def QUE_X_RING.size_log2 : Fld := ⟨127, 0, 4, 6⟩
def QUE_X_DB.line : Fld := ⟨128, 6, 58, 0⟩
def QUE_X_DB.slot : Fld := ⟨129, 0, 4, 0⟩
def QUE_X_RRING.base : Fld := ⟨130, 12, 52, 0⟩
def QUE_X_RDB.line : Fld := ⟨131, 6, 58, 0⟩
def QUE_X_RDB.slot : Fld := ⟨132, 0, 4, 0⟩
def DIE_MEM_CTL.copy_stall_ms : Fld := ⟨133, 24, 8, 100⟩
def DIE_MEM_CTL.refresh_cap : Fld := ⟨134, 16, 8, 100⟩
def DIE_MEM_CTL.clear_counts : Fld := ⟨135, 3, 1, 0⟩
def DIE_MEM_CTL.ue_event_en : Fld := ⟨136, 2, 1, 1⟩
def DIE_MEM_CTL.ce_event_en : Fld := ⟨137, 1, 1, 0⟩
def DIE_MEM_CTL.scrub_en : Fld := ⟨138, 0, 1, 1⟩
def DIE_MEM_ECC.wing_ue : Fld := ⟨139, 48, 16, 0⟩
def DIE_MEM_ECC.wing_ce : Fld := ⟨140, 32, 16, 0⟩
def DIE_MEM_ECC.tile_ue : Fld := ⟨141, 16, 16, 0⟩
def DIE_MEM_ECC.tile_ce : Fld := ⟨142, 0, 16, 0⟩
def DIE_MEM_LAST_UE.valid : Fld := ⟨143, 63, 1, 0⟩
def DIE_MEM_LAST_UE.memory : Fld := ⟨144, 62, 1, 0⟩
def DIE_MEM_LAST_UE.unit : Fld := ⟨145, 54, 8, 0⟩
def DIE_MEM_LAST_UE.offset : Fld := ⟨146, 0, 26, 0⟩
def DIE_REFRESH.interval : Fld := ⟨147, 0, 32, 0⟩
def DIE_COPY_STATUS.copy_stalls : Fld := ⟨148, 48, 16, 0⟩
def DIE_COPY_STATUS.busy : Fld := ⟨149, 0, 32, 0⟩
def STK_STATUS.temp : Fld := ⟨150, 24, 8, 0⟩
def STK_STATUS.state : Fld := ⟨151, 16, 3, 0⟩
def STK_STATUS.spares_low : Fld := ⟨152, 4, 1, 0⟩
def STK_STATUS.hot : Fld := ⟨153, 3, 1, 0⟩
def STK_STATUS.cfg_ignored : Fld := ⟨154, 1, 1, 0⟩
def STK_STATUS.cfg_pending : Fld := ⟨155, 0, 1, 0⟩
def STK_CTL.patrol_hours : Fld := ⟨156, 32, 8, 24⟩
def STK_CTL.ce_remap_threshold : Fld := ⟨157, 16, 8, 4⟩
def STK_CTL.bringup : Fld := ⟨158, 5, 1, 0⟩
def STK_CTL.ue_event_en : Fld := ⟨159, 4, 1, 1⟩
def STK_CTL.ce_event_en : Fld := ⟨160, 3, 1, 0⟩
def STK_CTL.remap_en : Fld := ⟨161, 2, 1, 1⟩
def STK_CTL.clear_counts : Fld := ⟨162, 1, 1, 0⟩
def STK_INFO.vendor : Fld := ⟨163, 48, 16, 0⟩
def STK_INFO.height : Fld := ⟨164, 40, 8, 16⟩
def STK_INFO.density : Fld := ⟨165, 32, 8, 32⟩
def STK_INFO.usable : Fld := ⟨166, 0, 32, 64000⟩
def STK_ECC.remaps : Fld := ⟨167, 48, 16, 0⟩
def STK_ECC.ue : Fld := ⟨168, 32, 16, 0⟩
def STK_ECC.ce : Fld := ⟨169, 0, 32, 0⟩
def STK_LAST_UE.valid : Fld := ⟨170, 63, 1, 0⟩
def STK_LAST_UE.source : Fld := ⟨171, 36, 1, 0⟩
def STK_LAST_UE.offset : Fld := ⟨172, 0, 36, 0⟩
def STK_SPARE_SEL.channel : Fld := ⟨173, 8, 5, 0⟩
def STK_SPARE_SEL.entry : Fld := ⟨174, 0, 6, 0⟩
def STK_SPARE_DATA.valid : Fld := ⟨175, 63, 1, 0⟩
def STK_SPARE_DATA.cause : Fld := ⟨176, 62, 1, 0⟩
def STK_SPARE_DATA.bank : Fld := ⟨177, 41, 5, 0⟩
def STK_SPARE_DATA.pc : Fld := ⟨178, 40, 1, 0⟩
def STK_SPARE_DATA.row : Fld := ⟨179, 16, 16, 0⟩
def STK_SPARE_DATA.spare : Fld := ⟨180, 0, 16, 0⟩
def STK_PPR_SEL.channel : Fld := ⟨181, 8, 5, 0⟩
def STK_PPR_SEL.bank : Fld := ⟨182, 0, 6, 0⟩
def STK_PPR_DATA.hard_left : Fld := ⟨183, 8, 8, 0⟩
def STK_PPR_DATA.soft_free : Fld := ⟨184, 0, 1, 0⟩
def STK_PPR_CMD.go : Fld := ⟨185, 63, 1, 0⟩
def STK_PPR_CMD.kind : Fld := ⟨186, 62, 1, 0⟩
def STK_PPR_CMD.row : Fld := ⟨187, 32, 16, 0⟩
def STK_PPR_CMD.result : Fld := ⟨188, 8, 2, 0⟩
def STK_PPR_CMD.busy : Fld := ⟨189, 0, 1, 0⟩
def FAR_STATUS.cfg_ignored : Fld := ⟨190, 1, 1, 0⟩
def FAR_STATUS.cfg_pending : Fld := ⟨191, 0, 1, 0⟩
def FAR_CTL.timeout_us : Fld := ⟨192, 8, 16, 2000⟩
def FAR_CTL.interleave : Fld := ⟨193, 2, 2, 0⟩
def FAR_CTL.enable : Fld := ⟨194, 0, 1, 1⟩
def FAR_PORT_STATUS.capacity : Fld := ⟨195, 24, 16, 0⟩
def FAR_PORT_STATUS.width : Fld := ⟨196, 11, 5, 0⟩
def FAR_PORT_STATUS.rate : Fld := ⟨197, 8, 3, 0⟩
def FAR_PORT_STATUS.device : Fld := ⟨198, 1, 1, 0⟩
def FAR_PORT_STATUS.link_up : Fld := ⟨199, 0, 1, 0⟩
def FAR_PORT_CTL.retrain : Fld := ⟨200, 1, 1, 0⟩
def FAR_PORT_CTL.port_en : Fld := ⟨201, 0, 1, 1⟩
def FAR_PORT_ERR.link_downs : Fld := ⟨202, 48, 16, 0⟩
def FAR_PORT_ERR.timeouts : Fld := ⟨203, 32, 16, 0⟩
def FAR_PORT_ERR.poisoned : Fld := ⟨204, 16, 16, 0⟩
def FAR_PORT_ERR.replays : Fld := ⟨205, 0, 16, 0⟩
def TCN_STATUS.active_mask : Fld := ⟨206, 48, 16, 0⟩
def TCN_STATUS.width : Fld := ⟨207, 43, 5, 0⟩
def TCN_STATUS.partner_width : Fld := ⟨208, 38, 5, 0⟩
def TCN_STATUS.state : Fld := ⟨209, 35, 3, 0⟩
def TCN_STATUS.disagree : Fld := ⟨210, 34, 1, 0⟩
def TCN_STATUS.margin_low : Fld := ⟨211, 33, 1, 0⟩
def TCN_STATUS.cfg_ignored : Fld := ⟨212, 1, 1, 0⟩
def TCN_STATUS.cfg_pending : Fld := ⟨213, 0, 1, 0⟩
def TCN_CTL.margin_min : Fld := ⟨214, 24, 8, 8⟩
def TCN_CTL.lane_test_errors : Fld := ⟨215, 12, 4, 4⟩
def TCN_CTL.proactive_spare : Fld := ⟨216, 2, 1, 1⟩
def TCN_CTL.margin_go : Fld := ⟨217, 1, 1, 0⟩
def TCN_CTL.retrain : Fld := ⟨218, 0, 1, 0⟩
def TCN_STORED.width : Fld := ⟨219, 16, 5, 0⟩
def TCN_STORED.mask : Fld := ⟨220, 0, 16, 0⟩
def TCN_REPAIR.ctrl_fail : Fld := ⟨221, 17, 1, 0⟩
def TCN_REPAIR.retired : Fld := ⟨222, 16, 1, 0⟩
def TCN_REPAIR.spare1_failed : Fld := ⟨223, 15, 1, 0⟩
def TCN_REPAIR.spare1_for : Fld := ⟨224, 8, 7, 127⟩
def TCN_REPAIR.spare0_failed : Fld := ⟨225, 7, 1, 0⟩
def TCN_REPAIR.spare0_for : Fld := ⟨226, 0, 7, 127⟩
def TCN_MARGIN_SEL.group : Fld := ⟨227, 8, 4, 0⟩
def TCN_MARGIN_SEL.lane : Fld := ⟨228, 0, 7, 0⟩
def TCN_MARGIN_DATA.tick : Fld := ⟨229, 32, 32, 0⟩
def TCN_MARGIN_DATA.voltage : Fld := ⟨230, 16, 8, 0⟩
def TCN_MARGIN_DATA.timing : Fld := ⟨231, 0, 8, 0⟩
def TCN_ERR.crc_errors : Fld := ⟨232, 32, 32, 0⟩
def TCN_ERR.lanes_spared : Fld := ⟨233, 24, 8, 0⟩
def TCN_ERR.groups_retired : Fld := ⟨234, 16, 8, 0⟩
def TCN_ERR.trainings : Fld := ⟨235, 8, 8, 0⟩
def TCN_ERR.disagreements : Fld := ⟨236, 0, 8, 0⟩
def UCI_STATUS.cfg_ignored : Fld := ⟨237, 1, 1, 0⟩
def UCI_STATUS.cfg_pending : Fld := ⟨238, 0, 1, 0⟩
def UCI_CTL.cmd_timeout_ms : Fld := ⟨239, 16, 16, 1000⟩
def UCI_CTL.rate_max : Fld := ⟨240, 0, 2, 3⟩
def UCI_SITE_CTL.modules_max : Fld := ⟨241, 2, 2, 2⟩
def UCI_SITE_CTL.retrain : Fld := ⟨242, 1, 1, 0⟩
def UCI_SITE_CTL.enable : Fld := ⟨243, 0, 1, 0⟩
def UCI_SITE_STATUS.inflight : Fld := ⟨244, 23, 9, 0⟩
def UCI_SITE_STATUS.rate : Fld := ⟨245, 16, 2, 0⟩
def UCI_SITE_STATUS.lanes : Fld := ⟨246, 8, 8, 0⟩
def UCI_SITE_STATUS.modules : Fld := ⟨247, 4, 3, 0⟩
def UCI_SITE_STATUS.state : Fld := ⟨248, 0, 3, 0⟩
def UCI_SITE_INFO.vendor : Fld := ⟨249, 48, 16, 0⟩
def UCI_SITE_INFO.device : Fld := ⟨250, 32, 16, 0⟩
def UCI_SITE_INFO.engines : Fld := ⟨251, 23, 9, 0⟩
def UCI_SITE_INFO.max_inflight : Fld := ⟨252, 14, 9, 0⟩
def UCI_SITE_INFO.requester : Fld := ⟨253, 13, 1, 0⟩
def UCI_SITE_INFO.protocol : Fld := ⟨254, 0, 8, 0⟩
def UCI_SITE_ERR.link_downs : Fld := ⟨255, 48, 16, 0⟩
def UCI_SITE_ERR.timeouts : Fld := ⟨256, 32, 16, 0⟩
def UCI_SITE_ERR.refused : Fld := ⟨257, 16, 16, 0⟩
def UCI_SITE_ERR.retries : Fld := ⟨258, 0, 16, 0⟩
def FAB_STATUS.port_up : Fld := ⟨259, 32, 5, 0⟩
def FAB_STATUS.drops_seen : Fld := ⟨260, 2, 1, 0⟩
def FAB_STATUS.cfg_ignored : Fld := ⟨261, 1, 1, 0⟩
def FAB_STATUS.cfg_pending : Fld := ⟨262, 0, 1, 0⟩
def FAB_CTL.epoch_hold_ms : Fld := ⟨263, 48, 16, 100⟩
def FAB_CTL.residence_us : Fld := ⟨264, 32, 16, 1000⟩
def FAB_CTL.mgt_window : Fld := ⟨265, 24, 8, 4⟩
def FAB_CTL.col_window : Fld := ⟨266, 16, 8, 16⟩
def FAB_CTL.req_window : Fld := ⟨267, 8, 8, 32⟩
def FAB_CTL.col_win_en : Fld := ⟨268, 2, 1, 1⟩
def FAB_CTL.req_win_en : Fld := ⟨269, 1, 1, 0⟩
def FAB_CTL.enable : Fld := ⟨270, 0, 1, 0⟩
def FAB_COORD.wrap_y : Fld := ⟨271, 41, 1, 0⟩
def FAB_COORD.wrap_x : Fld := ⟨272, 40, 1, 0⟩
def FAB_COORD.dim_z : Fld := ⟨273, 36, 4, 1⟩
def FAB_COORD.dim_y : Fld := ⟨274, 30, 6, 1⟩
def FAB_COORD.dim_x : Fld := ⟨275, 24, 6, 1⟩
def FAB_COORD.node : Fld := ⟨276, 0, 14, 0⟩
def FAB_EPOCH.flips : Fld := ⟨277, 32, 32, 0⟩
def FAB_EPOCH.current : Fld := ⟨278, 0, 1, 0⟩
def FAB_BANK_CTL.go : Fld := ⟨279, 3, 1, 0⟩
def FAB_BANK_CTL.op : Fld := ⟨280, 1, 2, 0⟩
def FAB_BANK_CTL.bank : Fld := ⟨281, 0, 1, 0⟩
def FAB_BANK_IMG.dpa : Fld := ⟨282, 0, 52, 0⟩
def FAB_BANK_STATUS.hold_b : Fld := ⟨283, 48, 16, 0⟩
def FAB_BANK_STATUS.hold_a : Fld := ⟨284, 32, 16, 0⟩
def FAB_BANK_STATUS.state_b : Fld := ⟨285, 8, 2, 0⟩
def FAB_BANK_STATUS.state_a : Fld := ⟨286, 0, 2, 0⟩
def FAB_EPOCH_COUNT.count_b : Fld := ⟨287, 32, 32, 0⟩
def FAB_EPOCH_COUNT.count_a : Fld := ⟨288, 0, 32, 0⟩
def FAB_RT_SEL.bank : Fld := ⟨289, 11, 1, 0⟩
def FAB_RT_SEL.group : Fld := ⟨290, 0, 11, 0⟩
def FAB_RT_DATA.entries : Fld := ⟨291, 0, 64, 0⟩
def FAB_PORT_STATUS.rtt_ns : Fld := ⟨292, 32, 16, 0⟩
def FAB_PORT_STATUS.rate_limited : Fld := ⟨293, 7, 1, 0⟩
def FAB_PORT_STATUS.up : Fld := ⟨294, 4, 1, 0⟩
def FAB_PORT_STATUS.engines : Fld := ⟨295, 0, 4, 0⟩
def FAB_PORT_BUF.size_mib : Fld := ⟨296, 52, 12, 0⟩
def FAB_PORT_BUF.base : Fld := ⟨297, 20, 32, 0⟩
def FAB_PORT_WAIT.credit_wait_us : Fld := ⟨298, 0, 64, 0⟩
def FAB_DROPS.unreachable : Fld := ⟨299, 48, 16, 0⟩
def FAB_DROPS.residence : Fld := ⟨300, 32, 16, 0⟩
def FAB_DROPS.port_down : Fld := ⟨301, 16, 16, 0⟩
def FAB_DROPS.epoch : Fld := ⟨302, 0, 16, 0⟩
def FAB_DROPS2.buf_ue : Fld := ⟨303, 48, 16, 0⟩
def FAB_DROPS2.disabled : Fld := ⟨304, 32, 16, 0⟩
def FAB_DROPS2.mcast_local : Fld := ⟨305, 16, 16, 0⟩
def FAB_DROPS2.bad_node : Fld := ⟨306, 0, 16, 0⟩
def FAB_DROPS_CLR.clear : Fld := ⟨307, 0, 1, 0⟩
def FAB_PARTNER_SEL.index : Fld := ⟨308, 0, 12, 0⟩
def FAB_PARTNER_DATA.valid : Fld := ⟨309, 63, 1, 0⟩
def FAB_PARTNER_DATA.pin : Fld := ⟨310, 62, 1, 0⟩
def FAB_PARTNER_DATA.cls : Fld := ⟨311, 60, 2, 0⟩
def FAB_PARTNER_DATA.node : Fld := ⟨312, 32, 14, 0⟩
def FAB_PARTNER_DATA.outstanding : Fld := ⟨313, 8, 8, 0⟩
def FAB_PARTNER_DATA.window : Fld := ⟨314, 0, 8, 0⟩
def FAB_PARTNER_WAITS.waits : Fld := ⟨315, 0, 64, 0⟩
def RMT_STATUS.incarnation : Fld := ⟨316, 48, 16, 0⟩
def RMT_STATUS.evicted : Fld := ⟨317, 3, 1, 0⟩
def RMT_STATUS.stale_sent : Fld := ⟨318, 2, 1, 0⟩
def RMT_STATUS.cfg_ignored : Fld := ⟨319, 1, 1, 0⟩
def RMT_STATUS.cfg_pending : Fld := ⟨320, 0, 1, 0⟩
def RMT_CTL.lifetime_ms : Fld := ⟨321, 40, 12, 50⟩
def RMT_CTL.timeout_ms : Fld := ⟨322, 16, 16, 20⟩
def RMT_CTL.retry_100us : Fld := ⟨323, 8, 8, 20⟩
def RMT_CTL.enable : Fld := ⟨324, 0, 1, 0⟩
def RMT_STATE.base : Fld := ⟨325, 20, 32, 0⟩
def RMT_KEY_SEL.job : Fld := ⟨326, 0, 8, 0⟩
def RMT_JOB_KEY.key : Fld := ⟨327, 0, 16, 0⟩
def RMT_WIN_SEL.index : Fld := ⟨328, 0, 12, 0⟩
def RMT_WIN_BASE.va : Fld := ⟨329, 12, 40, 0⟩
def RMT_WIN_CTL.size_pages : Fld := ⟨330, 36, 28, 0⟩
def RMT_WIN_CTL.key : Fld := ⟨331, 20, 16, 0⟩
def RMT_WIN_CTL.job : Fld := ⟨332, 12, 8, 0⟩
def RMT_WIN_CTL.atomic : Fld := ⟨333, 3, 1, 0⟩
def RMT_WIN_CTL.write : Fld := ⟨334, 2, 1, 0⟩
def RMT_WIN_CTL.read : Fld := ⟨335, 1, 1, 0⟩
def RMT_WIN_CTL.enable : Fld := ⟨336, 0, 1, 0⟩
def RMT_REQ_STATS.unmatched : Fld := ⟨337, 48, 16, 0⟩
def RMT_REQ_STATS.retries : Fld := ⟨338, 24, 24, 0⟩
def RMT_REQ_STATS.timeouts : Fld := ⟨339, 0, 24, 0⟩
def RMT_RC_STATS.evictions : Fld := ⟨340, 48, 16, 0⟩
def RMT_RC_STATS.stale : Fld := ⟨341, 32, 16, 0⟩
def RMT_RC_STATS.skipped : Fld := ⟨342, 16, 16, 0⟩
def RMT_RC_STATS.in_use : Fld := ⟨343, 0, 13, 0⟩
def RMT_REFUSE_LAST.refused : Fld := ⟨344, 48, 16, 0⟩
def RMT_REFUSE_LAST.reason : Fld := ⟨345, 40, 6, 0⟩
def RMT_REFUSE_LAST.src : Fld := ⟨346, 24, 14, 0⟩
def RMT_REFUSE_LAST.window : Fld := ⟨347, 12, 12, 0⟩
def RMT_OUTSTANDING.held : Fld := ⟨348, 32, 11, 0⟩
def RMT_OUTSTANDING.outstanding : Fld := ⟨349, 0, 14, 0⟩
def RMT_CLR.clear : Fld := ⟨350, 0, 1, 0⟩
def GRP_STATUS.stage_used : Fld := ⟨351, 32, 16, 0⟩
def GRP_STATUS.cfg_ignored : Fld := ⟨352, 1, 1, 0⟩
def GRP_STATUS.cfg_pending : Fld := ⟨353, 0, 1, 0⟩
def GRP_CTL.watchdog_ms : Fld := ⟨354, 32, 16, 2000⟩
def GRP_CTL.rereq_us : Fld := ⟨355, 16, 16, 2000⟩
def GRP_CTL.enable : Fld := ⟨356, 0, 1, 0⟩
def GRP_STAGE.size_mib : Fld := ⟨357, 52, 12, 0⟩
def GRP_STAGE.base : Fld := ⟨358, 20, 32, 0⟩
def GRP_SEL.group : Fld := ⟨359, 0, 10, 0⟩
def GRP_ENT_CTL.key : Fld := ⟨360, 48, 16, 0⟩
def GRP_ENT_CTL.job : Fld := ⟨361, 40, 8, 0⟩
def GRP_ENT_CTL.chunk_log2_max : Fld := ⟨362, 36, 4, 8⟩
def GRP_ENT_CTL.slots : Fld := ⟨363, 24, 7, 8⟩
def GRP_ENT_CTL.depth : Fld := ⟨364, 20, 3, 1⟩
def GRP_ENT_CTL.kind : Fld := ⟨365, 16, 1, 0⟩
def GRP_ENT_CTL.enable : Fld := ⟨366, 0, 1, 0⟩
def GRP_ENT_SHAPE.zmask : Fld := ⟨367, 32, 8, 0⟩
def GRP_ENT_SHAPE.ny : Fld := ⟨368, 24, 6, 1⟩
def GRP_ENT_SHAPE.y0 : Fld := ⟨369, 16, 5, 0⟩
def GRP_ENT_SHAPE.nx : Fld := ⟨370, 8, 6, 1⟩
def GRP_ENT_SHAPE.x0 : Fld := ⟨371, 0, 6, 0⟩
def GRP_ENT_LIST.count : Fld := ⟨372, 16, 14, 0⟩
def GRP_ENT_LIST.first : Fld := ⟨373, 0, 14, 0⟩
def GRP_ENT_SEQ.next : Fld := ⟨374, 32, 32, 0⟩
def GRP_ENT_SEQ.member : Fld := ⟨375, 16, 14, 0⟩
def GRP_ENT_SEQ.size : Fld := ⟨376, 0, 14, 0⟩
def GRP_STATS.crc_errors : Fld := ⟨377, 32, 32, 0⟩
def GRP_STATS.rereqs : Fld := ⟨378, 16, 16, 0⟩
def GRP_STATS.timeouts : Fld := ⟨379, 0, 16, 0⟩
def GRP_DROPS.key_mismatch : Fld := ⟨380, 48, 16, 0⟩
def GRP_DROPS.no_group : Fld := ⟨381, 32, 16, 0⟩
def GRP_DROPS.stale : Fld := ⟨382, 16, 16, 0⟩
def GRP_DROPS.param_mismatch : Fld := ⟨383, 0, 16, 0⟩
def GRP_CLR.clear : Fld := ⟨384, 0, 1, 0⟩
def GRP_MLIST.entry_3 : Fld := ⟨385, 48, 16, 0⟩
def GRP_MLIST.entry_2 : Fld := ⟨386, 32, 16, 0⟩
def GRP_MLIST.entry_1 : Fld := ⟨387, 16, 16, 0⟩
def GRP_MLIST.entry_0 : Fld := ⟨388, 0, 16, 0⟩
def OPT_STATUS.lanes_up : Fld := ⟨389, 56, 8, 0⟩
def OPT_STATUS.fibres_up : Fld := ⟨390, 48, 8, 0⟩
def OPT_STATUS.state : Fld := ⟨391, 40, 3, 0⟩
def OPT_STATUS.ff_stale : Fld := ⟨392, 4, 1, 0⟩
def OPT_STATUS.no_spare : Fld := ⟨393, 3, 1, 0⟩
def OPT_STATUS.miswired : Fld := ⟨394, 2, 1, 0⟩
def OPT_STATUS.cfg_ignored : Fld := ⟨395, 1, 1, 0⟩
def OPT_STATUS.cfg_pending : Fld := ⟨396, 0, 1, 0⟩
def OPT_CTL.fade_retire : Fld := ⟨397, 48, 8, 30⟩
def OPT_CTL.fade_spare : Fld := ⟨398, 40, 8, 20⟩
def OPT_CTL.fade_warn : Fld := ⟨399, 32, 8, 10⟩
def OPT_CTL.ff_gain : Fld := ⟨400, 24, 8, 128⟩
def OPT_CTL.relock_limit : Fld := ⟨401, 20, 4, 3⟩
def OPT_CTL.ucw_limit : Fld := ⟨402, 16, 4, 4⟩
def OPT_CTL.ff_en : Fld := ⟨403, 1, 1, 1⟩
def OPT_CTL.enable : Fld := ⟨404, 0, 1, 1⟩
def OPT_LANE_SEL.dir : Fld := ⟨405, 7, 1, 0⟩
def OPT_LANE_SEL.fibre : Fld := ⟨406, 4, 3, 0⟩
def OPT_LANE_SEL.lane : Fld := ⟨407, 0, 4, 0⟩
def OPT_LANE_DATA.ber_db : Fld := ⟨408, 40, 8, 0⟩
def OPT_LANE_DATA.relocks : Fld := ⟨409, 32, 8, 0⟩
def OPT_LANE_DATA.heater : Fld := ⟨410, 16, 16, 0⟩
def OPT_LANE_DATA.lock_err : Fld := ⟨411, 8, 8, 0⟩
def OPT_LANE_DATA.state : Fld := ⟨412, 0, 3, 0⟩
def OPT_LASER_SEL.laser : Fld := ⟨413, 0, 5, 0⟩
def OPT_LASER_DATA.commissioned_uw : Fld := ⟨414, 48, 16, 0⟩
def OPT_LASER_DATA.power_uw : Fld := ⟨415, 32, 16, 0⟩
def OPT_LASER_DATA.fade : Fld := ⟨416, 8, 8, 0⟩
def OPT_LASER_DATA.state : Fld := ⟨417, 0, 3, 0⟩
def OPT_COMMISSION.go : Fld := ⟨418, 0, 1, 0⟩
def OPT_ERR.crc_errors : Fld := ⟨419, 32, 32, 0⟩
def OPT_ERR.wrong_locks : Fld := ⟨420, 24, 8, 0⟩
def OPT_ERR.switchovers : Fld := ⟨421, 16, 8, 0⟩
def OPT_ERR.lanes_retired : Fld := ⟨422, 8, 8, 0⟩
def OPT_ERR.relocks : Fld := ⟨423, 0, 8, 0⟩
def OPT_FEC.uncorrectable : Fld := ⟨424, 32, 32, 0⟩
def OPT_FEC.corrected : Fld := ⟨425, 0, 32, 0⟩
def OPT_PARTNER.rtt_ns : Fld := ⟨426, 48, 16, 0⟩
def OPT_PARTNER.node : Fld := ⟨427, 32, 14, 0⟩
def OPT_PARTNER.engine : Fld := ⟨428, 24, 5, 0⟩
def OPT_PARTNER.fibres_matched : Fld := ⟨429, 0, 8, 0⟩
def OPT_CLR.clear : Fld := ⟨430, 0, 1, 0⟩
def MIR_STATUS.orphaned_job : Fld := ⟨431, 32, 8, 0⟩
-- the field admit of MIR_STATUS
def MIR_STATUS.admission : Fld := ⟨432, 8, 3, 0⟩
def MIR_STATUS.mgmt_rejected : Fld := ⟨433, 4, 1, 0⟩
def MIR_STATUS.orphaned : Fld := ⟨434, 3, 1, 0⟩
def MIR_STATUS.cfg_ignored : Fld := ⟨435, 1, 1, 0⟩
def MIR_STATUS.cfg_pending : Fld := ⟨436, 0, 1, 0⟩
def MIR_CTL.feed : Fld := ⟨437, 56, 8, 0⟩
def MIR_CTL.host_job : Fld := ⟨438, 48, 8, 0⟩
def MIR_CTL.landing_timeout_ms : Fld := ⟨439, 32, 16, 10000⟩
def MIR_CTL.admit_timeout_s : Fld := ⟨440, 24, 8, 30⟩
def MIR_CTL.slots : Fld := ⟨441, 16, 8, 24⟩
def MIR_CTL.load_stall : Fld := ⟨442, 8, 8, 20⟩
def MIR_CTL.enable : Fld := ⟨443, 0, 1, 0⟩
def MIR_JOB_SEL.job : Fld := ⟨444, 0, 8, 0⟩
def MIR_JOB.partner : Fld := ⟨445, 36, 14, 0⟩
def MIR_JOB.barrier_group : Fld := ⟨446, 26, 10, 0⟩
def MIR_JOB.residency_bound : Fld := ⟨447, 1, 1, 0⟩
def MIR_JOB.enable : Fld := ⟨448, 0, 1, 0⟩
def MIR_JOB_STATE.isProtected : Fld := ⟨449, 63, 1, 0⟩
def MIR_JOB_STATE.phase : Fld := ⟨450, 60, 3, 0⟩
def MIR_JOB_STATE.reason : Fld := ⟨451, 56, 4, 0⟩
def MIR_JOB_STATE.last_landing : Fld := ⟨452, 0, 48, 0⟩
def MIR_RANGE_SEL.range : Fld := ⟨453, 0, 6, 0⟩
def MIR_RANGE_BASE.va : Fld := ⟨454, 16, 36, 0⟩
def MIR_RANGE_CTL.size_64k : Fld := ⟨455, 24, 24, 0⟩
def MIR_RANGE_CTL.job : Fld := ⟨456, 8, 8, 0⟩
def MIR_RANGE_CTL.enable : Fld := ⟨457, 0, 1, 0⟩
def MIR_HOST_SEL.entry : Fld := ⟨458, 0, 3, 0⟩
def MIR_HOST_BASE.size_gib : Fld := ⟨459, 52, 12, 0⟩
def MIR_HOST_BASE.va : Fld := ⟨460, 30, 22, 0⟩
def MIR_HOST_CTL.key : Fld := ⟨461, 48, 16, 0⟩
def MIR_HOST_CTL.source : Fld := ⟨462, 32, 14, 0⟩
def MIR_HOST_CTL.loader : Fld := ⟨463, 16, 14, 0⟩
def MIR_HOST_CTL.enable : Fld := ⟨464, 0, 1, 0⟩
def MIR_HOST_BUF.state : Fld := ⟨465, 62, 2, 0⟩
def MIR_HOST_BUF.landing : Fld := ⟨466, 0, 48, 0⟩
def MIR_ADMIT.landing : Fld := ⟨467, 0, 48, 0⟩
def MIR_ADMIT_CMD.job : Fld := ⟨468, 8, 8, 0⟩
def MIR_ADMIT_CMD.op : Fld := ⟨469, 1, 2, 0⟩
def MIR_ADMIT_CMD.go : Fld := ⟨470, 0, 1, 0⟩
def MGMT_VIEW.view_gen : Fld := ⟨471, 48, 16, 0⟩
def MGMT_VIEW.panel_state : Fld := ⟨472, 32, 1, 0⟩
def MGMT_VIEW.unit_gen : Fld := ⟨473, 0, 32, 0⟩
def DATA_VIEW.view_gen : Fld := ⟨474, 48, 16, 0⟩
def DATA_VIEW.epoch : Fld := ⟨475, 33, 1, 0⟩
def DATA_VIEW.panel_state : Fld := ⟨476, 32, 1, 0⟩
def DATA_VIEW.unit_gen : Fld := ⟨477, 0, 32, 0⟩
def MIR_FENCE_SEL.word : Fld := ⟨478, 0, 8, 0⟩
def MIR_FENCE_DATA.fenced : Fld := ⟨479, 0, 64, 0⟩
def MIR_VIEW_DROPS.fenced_src : Fld := ⟨480, 32, 32, 0⟩
def MIR_VIEW_DROPS.inactive_unit : Fld := ⟨481, 0, 32, 0⟩
def MIR_STATS.commits : Fld := ⟨482, 32, 32, 0⟩
def MIR_STATS.refusals : Fld := ⟨483, 16, 16, 0⟩
def MIR_STATS.orphans : Fld := ⟨484, 0, 16, 0⟩
def PWR_STATUS.pstate_refused : Fld := ⟨485, 12, 1, 0⟩
def PWR_STATUS.floor_missed : Fld := ⟨486, 11, 1, 0⟩
def PWR_STATUS.policy_clamped : Fld := ⟨487, 10, 1, 0⟩
def PWR_STATUS.standby_lost : Fld := ⟨488, 9, 1, 0⟩
def PWR_STATUS.ovp_open : Fld := ⟨489, 8, 1, 0⟩
def PWR_STATUS.at_limit : Fld := ⟨490, 7, 1, 0⟩
def PWR_STATUS.credits_frozen : Fld := ⟨491, 6, 1, 0⟩
def PWR_STATUS.brownout : Fld := ⟨492, 5, 1, 0⟩
def PWR_STATUS.sag : Fld := ⟨493, 4, 1, 0⟩
def PWR_STATUS.cfg_ignored : Fld := ⟨494, 1, 1, 0⟩
def PWR_STATUS.cfg_pending : Fld := ⟨495, 0, 1, 0⟩
def PWR_CTL.v_max : Fld := ⟨496, 54, 10, 900⟩
def PWR_CTL.v_min : Fld := ⟨497, 44, 10, 550⟩
def PWR_CTL.target_rate : Fld := ⟨498, 33, 11, 1000⟩
def PWR_CTL.vopt_en : Fld := ⟨499, 32, 1, 1⟩
def PWR_CTL.panel_ramp : Fld := ⟨500, 24, 8, 32⟩
def PWR_CTL.credit_interval : Fld := ⟨501, 16, 8, 5⟩
def PWR_CTL.credit_hold : Fld := ⟨502, 8, 8, 10⟩
def PWR_IDLE.d2_idle_ms : Fld := ⟨503, 16, 16, 10⟩
def PWR_IDLE.u2_idle_us : Fld := ⟨504, 0, 16, 100⟩
def PWR_LIMIT.cap_w : Fld := ⟨505, 32, 16, 32000⟩
def PWR_LIMIT.floor : Fld := ⟨506, 16, 16, 0⟩
def PWR_LIMIT.curr_limit : Fld := ⟨507, 0, 10, 640⟩
def PWR_PSTATE.busy : Fld := ⟨508, 16, 1, 0⟩
def PWR_PSTATE.auto_restart : Fld := ⟨509, 8, 1, 0⟩
def PWR_PSTATE.current : Fld := ⟨510, 4, 2, 0⟩
def PWR_PSTATE.target : Fld := ⟨511, 0, 2, 0⟩
def PWR_INPUT.holdup : Fld := ⟨512, 48, 16, 0⟩
def PWR_INPUT.voltage : Fld := ⟨513, 32, 16, 0⟩
def PWR_INPUT.current : Fld := ⟨514, 16, 16, 0⟩
def PWR_INPUT.power : Fld := ⟨515, 0, 16, 0⟩
def PWR_EVENTS.sags : Fld := ⟨516, 48, 16, 0⟩
def PWR_EVENTS.brownouts : Fld := ⟨517, 32, 16, 0⟩
def PWR_EVENTS.clamps : Fld := ⟨518, 16, 16, 0⟩
def PWR_EVENTS.power_losses : Fld := ⟨519, 8, 8, 0⟩
def PWR_EVENTS.ovp_trips : Fld := ⟨520, 0, 8, 0⟩
def PWR_DIE_OFF.clear_events : Fld := ⟨521, 40, 1, 0⟩
def PWR_DIE_OFF.off : Fld := ⟨522, 0, 40, 0⟩
def WNG_STATUS.active : Fld := ⟨523, 50, 10, 0⟩
def WNG_STATUS.allowance : Fld := ⟨524, 40, 10, 0⟩
def WNG_STATUS.pace : Fld := ⟨525, 32, 5, 16⟩
def WNG_STATUS.state : Fld := ⟨526, 30, 2, 3⟩
def WNG_STATUS.v_ceiling : Fld := ⟨527, 16, 10, 900⟩
def WNG_STATUS.v_now : Fld := ⟨528, 2, 10, 0⟩
def WNG_STATUS.cfg_ignored : Fld := ⟨529, 1, 1, 0⟩
def WNG_STATUS.cfg_pending : Fld := ⟨530, 0, 1, 0⟩
def WNG_CTL.wing_off : Fld := ⟨531, 16, 1, 0⟩
def WNG_CTL.v_manual : Fld := ⟨532, 0, 10, 750⟩
def WNG_CORE_OFF.off : Fld := ⟨533, 0, 64, 0⟩
def WNG_PACE_HELD.held_beats : Fld := ⟨534, 0, 64, 0⟩
def THM_STATUS.trip_seen : Fld := ⟨535, 6, 1, 0⟩
def THM_STATUS.skip_seen : Fld := ⟨536, 5, 1, 0⟩
def THM_STATUS.shut_any : Fld := ⟨537, 4, 1, 0⟩
def THM_STATUS.enforcing : Fld := ⟨538, 3, 1, 0⟩
def THM_STATUS.requested : Fld := ⟨539, 2, 1, 0⟩
def THM_STATUS.cfg_ignored : Fld := ⟨540, 1, 1, 0⟩
def THM_STATUS.cfg_pending : Fld := ⟨541, 0, 1, 0⟩
def THM_CTL.shutdown_limit : Fld := ⟨542, 40, 8, 3⟩
def THM_CTL.predict_ms : Fld := ⟨543, 32, 8, 20⟩
def THM_CTL.grace_ms : Fld := ⟨544, 16, 16, 250⟩
def THM_CTL.hyst : Fld := ⟨545, 8, 4, 4⟩
def THM_CTL.auto_return : Fld := ⟨546, 0, 1, 1⟩
def THM_DIE_THR.trip : Fld := ⟨547, 24, 8, 120⟩
def THM_DIE_THR.shutdown : Fld := ⟨548, 16, 8, 110⟩
def THM_DIE_THR.throttle : Fld := ⟨549, 8, 8, 102⟩
def THM_DIE_THR.warning : Fld := ⟨550, 0, 8, 95⟩
def THM_STK_THR.trip : Fld := ⟨551, 24, 8, 0⟩
def THM_STK_THR.shutdown : Fld := ⟨552, 16, 8, 100⟩
def THM_STK_THR.throttle : Fld := ⟨553, 8, 8, 92⟩
def THM_STK_THR.warning : Fld := ⟨554, 0, 8, 85⟩
def THM_OPT_THR.trip : Fld := ⟨555, 24, 8, 0⟩
def THM_OPT_THR.shutdown : Fld := ⟨556, 16, 8, 95⟩
def THM_OPT_THR.throttle : Fld := ⟨557, 8, 8, 85⟩
def THM_OPT_THR.warning : Fld := ⟨558, 0, 8, 80⟩
def THM_SEL.clear_max : Fld := ⟨559, 16, 1, 0⟩
def THM_SEL.kind : Fld := ⟨560, 14, 2, 0⟩
def THM_SEL.index : Fld := ⟨561, 0, 14, 0⟩
def THM_DATA.max : Fld := ⟨562, 56, 8, 0⟩
def THM_DATA.reading : Fld := ⟨563, 48, 8, 0⟩
def THM_DATA.state : Fld := ⟨564, 45, 3, 0⟩
def THM_REQ.deadline : Fld := ⟨565, 32, 32, 0⟩
def THM_REQ.reading : Fld := ⟨566, 24, 8, 0⟩
def THM_REQ.kind : Fld := ⟨567, 22, 2, 0⟩
def THM_REQ.index : Fld := ⟨568, 8, 14, 0⟩
def THM_REQ.valid : Fld := ⟨569, 0, 1, 0⟩
def THM_SHUT.engines : Fld := ⟨570, 40, 24, 0⟩
def THM_SHUT.dies : Fld := ⟨571, 0, 40, 0⟩
def THM_RETURN.dies : Fld := ⟨572, 0, 40, 0⟩
def THM_TRIP.dies : Fld := ⟨573, 0, 40, 0⟩
def THM_EVENTS.warnings : Fld := ⟨574, 48, 16, 0⟩
def THM_EVENTS.enforced : Fld := ⟨575, 32, 16, 0⟩
def THM_EVENTS.shutdowns : Fld := ⟨576, 16, 16, 0⟩
def THM_EVENTS.skips : Fld := ⟨577, 8, 8, 0⟩
def THM_EVENTS.trips : Fld := ⟨578, 0, 8, 0⟩
def THM_PORTER_CTL.timer_s : Fld := ⟨579, 32, 32, 0⟩
def THM_PORTER_CTL.wakes : Fld := ⟨580, 24, 8, 0⟩
def THM_PORTER_CTL.last_source : Fld := ⟨581, 12, 12, 0⟩
def THM_PORTER_CTL.smbus_wake_en : Fld := ⟨582, 1, 1, 1⟩
def THM_PORTER_CTL.wake : Fld := ⟨583, 0, 1, 0⟩
def THM_PORTER_SRC.entry_3 : Fld := ⟨584, 48, 16, 0⟩
def THM_PORTER_SRC.entry_2 : Fld := ⟨585, 32, 16, 0⟩
def THM_PORTER_SRC.entry_1 : Fld := ⟨586, 16, 16, 0⟩
def THM_PORTER_SRC.entry_0 : Fld := ⟨587, 0, 16, 0⟩
def EVT_STATUS.rescan_busy : Fld := ⟨588, 3, 1, 0⟩
def EVT_STATUS.eoi_mismatch : Fld := ⟨589, 2, 1, 0⟩
def EVT_STATUS.cfg_ignored : Fld := ⟨590, 1, 1, 0⟩
def EVT_STATUS.cfg_pending : Fld := ⟨591, 0, 1, 0⟩
def EVT_CTL.priv_vector : Fld := ⟨592, 32, 11, 0⟩
def EVT_CTL.rescan_ms : Fld := ⟨593, 16, 8, 10⟩
def EVT_CTL.rescan : Fld := ⟨594, 0, 1, 0⟩
def EVT_SRC_SEL.source : Fld := ⟨595, 0, 10, 0⟩
def EVT_SRC_CFG.vector : Fld := ⟨596, 16, 11, 0⟩
def EVT_SRC_CFG.target : Fld := ⟨597, 1, 3, 4⟩
def EVT_SRC_CFG.enable : Fld := ⟨598, 0, 1, 0⟩
def EVT_PEND.pending : Fld := ⟨599, 0, 64, 0⟩
def EVT_MASK.mask : Fld := ⟨600, 0, 64, 18446744073709551615⟩
def EVT_LEVEL.latched : Fld := ⟨601, 0, 64, 0⟩
def EVT_ACK.source : Fld := ⟨602, 0, 10, 0⟩
def EVT_HOST_ACTIVE.valid : Fld := ⟨603, 63, 1, 0⟩
def EVT_HOST_ACTIVE.priv : Fld := ⟨604, 10, 1, 0⟩
def EVT_HOST_ACTIVE.source : Fld := ⟨605, 0, 10, 0⟩
def EVT_HOST_EOI.priv : Fld := ⟨606, 10, 1, 0⟩
def EVT_HOST_EOI.source : Fld := ⟨607, 0, 10, 0⟩
def EVT_HOST_PRIV.pending : Fld := ⟨608, 0, 64, 0⟩
def EVT_HOST_PRIV_MASK.mask : Fld := ⟨609, 0, 64, 18446744073709551615⟩
def EVT_SW_SET.n : Fld := ⟨610, 0, 7, 0⟩
def GAL_STATUS.cfg_ignored : Fld := ⟨611, 1, 1, 0⟩
def GAL_STATUS.cfg_pending : Fld := ⟨612, 0, 1, 0⟩
def GAL_CTL.hold_us : Fld := ⟨613, 16, 8, 0⟩
def GAL_CTL.publish_us : Fld := ⟨614, 0, 16, 10⟩
def GAL_CURSOR.clear : Fld := ⟨615, 11, 1, 0⟩
def GAL_CURSOR.hub : Fld := ⟨616, 10, 1, 0⟩
def GAL_CURSOR.record : Fld := ⟨617, 0, 10, 0⟩
def GAL_BINS.shift : Fld := ⟨618, 16, 4, 0⟩
def GAL_BINS.lo : Fld := ⟨619, 0, 16, 0⟩
def TMR_STATUS.cfg_ignored : Fld := ⟨620, 1, 1, 0⟩
def TMR_STATUS.cfg_pending : Fld := ⟨621, 0, 1, 0⟩
def TMR_TICK.tick : Fld := ⟨622, 0, 64, 0⟩
def TMR_CORR.busy : Fld := ⟨623, 1, 1, 0⟩
def TMR_CORR.go : Fld := ⟨624, 0, 1, 0⟩
def TMR_CORR_HUB.tick : Fld := ⟨625, 0, 64, 0⟩
def TMR_CORR_DIE.tick : Fld := ⟨626, 0, 64, 0⟩
def TMR_ALARM_CMP.compare : Fld := ⟨627, 0, 64, 0⟩
def TMR_ALARM_CTL.period : Fld := ⟨628, 16, 48, 0⟩
def TMR_ALARM_CTL.enable : Fld := ⟨629, 0, 1, 0⟩
def SEC_STATUS.copy_b : Fld := ⟨630, 36, 4, 0⟩
def SEC_STATUS.image_fail : Fld := ⟨631, 32, 4, 0⟩
def SEC_STATUS.lifecycle_next : Fld := ⟨632, 20, 3, 0⟩
def SEC_STATUS.lifecycle : Fld := ⟨633, 16, 3, 0⟩
def SEC_STATUS.debug : Fld := ⟨634, 12, 2, 0⟩
def SEC_STATUS.open_seen : Fld := ⟨635, 9, 1, 0⟩
def SEC_STATUS.identity : Fld := ⟨636, 8, 1, 0⟩
def SEC_STATUS.ide_a : Fld := ⟨637, 7, 1, 0⟩
def SEC_STATUS.ide_b : Fld := ⟨638, 6, 1, 0⟩
def SEC_STATUS.token_rejected : Fld := ⟨639, 3, 1, 0⟩
def SEC_STATUS.path_rejected : Fld := ⟨640, 2, 1, 0⟩
def SEC_STATUS.cfg_ignored : Fld := ⟨641, 1, 1, 0⟩
def SEC_STATUS.cfg_pending : Fld := ⟨642, 0, 1, 0⟩
def SEC_ARB.running_ver : Fld := ⟨643, 32, 32, 0⟩
def SEC_ARB.arb : Fld := ⟨644, 0, 32, 0⟩
def SEC_MBOX_CMD.go : Fld := ⟨645, 63, 1, 0⟩
def SEC_MBOX_CMD.busy : Fld := ⟨646, 62, 1, 0⟩
def SEC_MBOX_CMD.result : Fld := ⟨647, 8, 8, 0⟩
def SEC_MBOX_CMD.cmd : Fld := ⟨648, 0, 8, 0⟩
def SEC_MBOX_ARG.arg : Fld := ⟨649, 0, 64, 0⟩
def SEC_NONCE.nonce : Fld := ⟨650, 0, 64, 0⟩
def SEC_MBOX_BUF.data : Fld := ⟨651, 0, 64, 0⟩
def DBG_STATUS.open_left_s : Fld := ⟨652, 16, 32, 0⟩
def DBG_STATUS.state : Fld := ⟨653, 8, 2, 0⟩
def DBG_STATUS.port_attached : Fld := ⟨654, 2, 1, 0⟩
def DBG_STATUS.cfg_ignored : Fld := ⟨655, 1, 1, 0⟩
def DBG_STATUS.cfg_pending : Fld := ⟨656, 0, 1, 0⟩
def DBG_CTL.seal : Fld := ⟨657, 0, 1, 0⟩
def PNL_RESET.die : Fld := ⟨658, 8, 6, 0⟩
def PNL_RESET.op : Fld := ⟨659, 0, 3, 0⟩
def PNL_START.ready_ms : Fld := ⟨660, 48, 16, 0⟩
def PNL_START.last_kind : Fld := ⟨661, 36, 4, 0⟩
def PNL_START.fail_step : Fld := ⟨662, 24, 8, 0⟩
def PNL_START.step : Fld := ⟨663, 16, 8, 0⟩
def PNL_START.early_access : Fld := ⟨664, 3, 1, 0⟩
def PNL_START.one_hub : Fld := ⟨665, 2, 1, 0⟩
def PNL_START.failed : Fld := ⟨666, 1, 1, 0⟩
def PNL_START.ready : Fld := ⟨667, 0, 1, 0⟩
def PNL_HOST_CTL.host_down_ms : Fld := ⟨668, 16, 16, 100⟩
def PNL_HOST_CTL.takeover : Fld := ⟨669, 8, 1, 0⟩
def PNL_HOST_CTL.mode : Fld := ⟨670, 0, 1, 0⟩
def PNL_HOST_STATUS.link_downs : Fld := ⟨671, 48, 16, 0⟩
def PNL_HOST_STATUS.width : Fld := ⟨672, 36, 4, 0⟩
def PNL_HOST_STATUS.rate : Fld := ⟨673, 34, 2, 0⟩
def PNL_HOST_STATUS.role : Fld := ⟨674, 32, 2, 0⟩
def PNL_HOST_STATUS.ide : Fld := ⟨675, 2, 1, 0⟩
def PNL_HOST_STATUS.cache_en : Fld := ⟨676, 1, 1, 0⟩
def PNL_HOST_STATUS.mem_en : Fld := ⟨677, 0, 1, 0⟩
def PNL_MEM_WIN.segments : Fld := ⟨678, 0, 9, 0⟩
def PNL_WIN_HOLES.holes : Fld := ⟨679, 0, 64, 0⟩
def PNL_MEM_SEG.valid : Fld := ⟨680, 15, 1, 0⟩
def PNL_MEM_SEG.window : Fld := ⟨681, 2, 7, 0⟩
def PNL_MEM_SEG.part : Fld := ⟨682, 0, 2, 0⟩

/-- Registers of the PNL block. -/
def regsPNL0 : List RegRow := [
  ⟨"PNL_ID", .bar, 0x0, 0, 1, 1, [],
    [⟨PNL_ID.serial, .ro, .fix, none⟩, ⟨PNL_ID.active_dies, .ro, .fix, none⟩, ⟨PNL_ID.stepping, .ro, .fix, none⟩, ⟨PNL_ID.option, .ro, .fix, none⟩, ⟨PNL_ID.part, .ro, .fix, none⟩]⟩,
  ⟨"PNL_DIE_ACTIVE", .bar, 0x10, 0, 1, 1, [],
    [⟨PNL_DIE_ACTIVE.mask, .ro, .fix, none⟩]⟩,
  ⟨"PNL_STATUS", .bar, 0x18, 0, 1, 1, [],
    [⟨PNL_STATUS.retire_unfused, .ro, .fix, none⟩, ⟨PNL_STATUS.unit_write_rejected, .w1c, .imm, none⟩, ⟨PNL_STATUS.below_minimum, .ro, .fix, none⟩, ⟨PNL_STATUS.profile_rejected, .w1c, .imm, none⟩, ⟨PNL_STATUS.absent_access, .w1c, .imm, none⟩, ⟨PNL_STATUS.cfg_ignored, .w1c, .imm, none⟩, ⟨PNL_STATUS.cfg_pending, .ro, .fix, none⟩]⟩,
  ⟨"PNL_HUB_ROLE", .bar, 0x20, 0, 1, 1, [],
    [⟨PNL_HUB_ROLE.takeovers, .ro, .fix, none⟩, ⟨PNL_HUB_ROLE.peer_synced, .ro, .fix, none⟩, ⟨PNL_HUB_ROLE.primary, .ro, .fix, none⟩]⟩,
  ⟨"PNL_UNIT_SEL", .bar, 0x200, 0, 1, 1, [],
    [⟨PNL_UNIT_SEL.index, .rw, .imm, none⟩]⟩,
  ⟨"PNL_UNIT_DATA", .bar, 0x208, 0, 1, 1, [(PNL_UNIT_SEL.index, 1)],
    [⟨PNL_UNIT_DATA.expect_gen, .wo, .imm, none⟩, ⟨PNL_UNIT_DATA.generation, .ro, .fix, none⟩, ⟨PNL_UNIT_DATA.width, .ro, .fix, none⟩, ⟨PNL_UNIT_DATA.origin, .ro, .fix, none⟩, ⟨PNL_UNIT_DATA.state, .rw, .imm, none⟩]⟩,
  ⟨"PNL_PROFILE", .bar, 0x100, 0, 1, 1, [],
    [⟨PNL_PROFILE.events, .rw, .fix, none⟩, ⟨PNL_PROFILE.far, .rw, .fix, none⟩, ⟨PNL_PROFILE.mirror, .rw, .fix, none⟩, ⟨PNL_PROFILE.collectives, .rw, .fix, none⟩, ⟨PNL_PROFILE.remote, .rw, .fix, none⟩, ⟨PNL_PROFILE.fabric, .rw, .fix, none⟩, ⟨PNL_PROFILE.optics, .rw, .fix, none⟩, ⟨PNL_PROFILE.queues, .rw, .fix, none⟩, ⟨PNL_PROFILE.links, .rw, .fix, none⟩, ⟨PNL_PROFILE.thermal, .rw, .fix, none⟩, ⟨PNL_PROFILE.power, .rw, .fix, none⟩]⟩,
  ⟨"PNL_RESET", .bar, 0x300, 0, 1, 1, [],
    [⟨PNL_RESET.die, .rw, .imm, none⟩, ⟨PNL_RESET.op, .wo, .imm, none⟩]⟩,
  ⟨"PNL_START", .bar, 0x310, 0, 1, 1, [],
    [⟨PNL_START.ready_ms, .ro, .fix, none⟩, ⟨PNL_START.last_kind, .ro, .fix, none⟩, ⟨PNL_START.fail_step, .ro, .fix, none⟩, ⟨PNL_START.step, .ro, .fix, none⟩, ⟨PNL_START.early_access, .w1c, .imm, none⟩, ⟨PNL_START.one_hub, .ro, .fix, none⟩, ⟨PNL_START.failed, .ro, .fix, none⟩, ⟨PNL_START.ready, .ro, .fix, none⟩]⟩,
  ⟨"PNL_HOST_CTL", .bar, 0x400, 0, 1, 1, [],
    [⟨PNL_HOST_CTL.host_down_ms, .rw, .imm, some (.clamp 10 10000)⟩, ⟨PNL_HOST_CTL.takeover, .wo, .imm, none⟩, ⟨PNL_HOST_CTL.mode, .rw, .imm, none⟩]⟩,
  ⟨"PNL_HOST_STATUS", .bar, 0x408, 8, 2, 1, [],
    [⟨PNL_HOST_STATUS.link_downs, .ro, .fix, none⟩, ⟨PNL_HOST_STATUS.width, .ro, .fix, none⟩, ⟨PNL_HOST_STATUS.rate, .ro, .fix, none⟩, ⟨PNL_HOST_STATUS.role, .ro, .fix, none⟩, ⟨PNL_HOST_STATUS.ide, .ro, .fix, none⟩, ⟨PNL_HOST_STATUS.cache_en, .ro, .fix, none⟩, ⟨PNL_HOST_STATUS.mem_en, .ro, .fix, none⟩]⟩,
  ⟨"PNL_MEM_WIN", .bar, 0x420, 0, 1, 1, [],
    [⟨PNL_MEM_WIN.segments, .rw, .stat, some (.clamp 0 256)⟩]⟩]

/-- Registers of the PNL block. -/
def regsPNL1 : List RegRow := [
  ⟨"PNL_WIN_HOLES", .bar, 0x428, 0, 1, 1, [],
    [⟨PNL_WIN_HOLES.holes, .ro, .fix, none⟩]⟩,
  ⟨"PNL_MEM_SEG", .bar, 0x800, 8, 256, 1, [],
    [⟨PNL_MEM_SEG.valid, .rw, .imm, none⟩, ⟨PNL_MEM_SEG.window, .rw, .imm, none⟩, ⟨PNL_MEM_SEG.part, .rw, .imm, none⟩]⟩]

/-- Registers of the DIE block. -/
def regsDIE0 : List RegRow := [
  ⟨"DIE_ARR_CTL", .die, 0x8000, 0, 1, 1, [],
    [⟨DIE_ARR_CTL.stall_abort, .rw, .imm, none⟩, ⟨DIE_ARR_CTL.stall_limit, .rw, .imm, some (.clamp 1 18446744073709551615)⟩, ⟨DIE_ARR_CTL.clear_counts, .wo, .imm, none⟩, ⟨DIE_ARR_CTL.stall_event_en, .rw, .imm, none⟩]⟩,
  ⟨"DIE_STALL_STATUS", .die, 0x8010, 0, 1, 1, [],
    [⟨DIE_STALL_STATUS.aborts, .ro, .fix, none⟩, ⟨DIE_STALL_STATUS.stalls, .ro, .fix, none⟩, ⟨DIE_STALL_STATUS.last_core, .ro, .fix, none⟩, ⟨DIE_STALL_STATUS.last_stage, .ro, .fix, none⟩, ⟨DIE_STALL_STATUS.stalled_now, .ro, .fix, none⟩]⟩,
  ⟨"DIE_BEAT_RATE", .die, 0x8100, 32, 4, 4, [],
    [⟨DIE_BEAT_RATE.clear_ext, .wo, .imm, none⟩, ⟨DIE_BEAT_RATE.rate_max, .ro, .fix, none⟩, ⟨DIE_BEAT_RATE.rate_min, .ro, .fix, none⟩, ⟨DIE_BEAT_RATE.rate, .ro, .fix, none⟩]⟩,
  ⟨"DIE_BEAT_BUSY", .die, 0x8108, 32, 4, 4, [],
    [⟨DIE_BEAT_BUSY.busy_beats, .ro, .fix, none⟩]⟩,
  ⟨"DIE_BEAT_WAIT", .die, 0x8110, 32, 4, 4, [],
    [⟨DIE_BEAT_WAIT.wait_beats, .ro, .fix, none⟩]⟩,
  ⟨"DIE_STATUS", .die, 0x0, 0, 1, 1, [],
    [⟨DIE_STATUS.busy_cores, .ro, .fix, none⟩, ⟨DIE_STATUS.die_state, .ro, .fix, none⟩, ⟨DIE_STATUS.cfg_ignored, .w1c, .imm, none⟩, ⟨DIE_STATUS.cfg_pending, .ro, .fix, none⟩]⟩,
  ⟨"DIE_CORE_BUSY", .die, 0x40, 8, 4, 4, [],
    [⟨DIE_CORE_BUSY.busy, .ro, .fix, none⟩]⟩,
  ⟨"DIE_WRAP_COUNT", .die, 0x80, 0, 1, 1, [],
    [⟨DIE_WRAP_COUNT.clear, .wo, .imm, none⟩, ⟨DIE_WRAP_COUNT.last_core, .ro, .fix, none⟩, ⟨DIE_WRAP_COUNT.wraps, .ro, .fix, none⟩]⟩,
  ⟨"DIE_SHARES", .die, 0x88, 0, 1, 1, [],
    [⟨DIE_SHARES.shares, .ro, .fix, none⟩]⟩,
  ⟨"DIE_MEM_CTL", .die, 0x9000, 0, 1, 1, [],
    [⟨DIE_MEM_CTL.copy_stall_ms, .rw, .imm, some (.clamp 1 18446744073709551615)⟩, ⟨DIE_MEM_CTL.refresh_cap, .rw, .imm, some (.clamp 16 100)⟩, ⟨DIE_MEM_CTL.clear_counts, .wo, .imm, none⟩, ⟨DIE_MEM_CTL.ue_event_en, .rw, .imm, none⟩, ⟨DIE_MEM_CTL.ce_event_en, .rw, .imm, none⟩, ⟨DIE_MEM_CTL.scrub_en, .rw, .imm, none⟩]⟩,
  ⟨"DIE_MEM_ECC", .die, 0x9008, 0, 1, 1, [],
    [⟨DIE_MEM_ECC.wing_ue, .ro, .fix, none⟩, ⟨DIE_MEM_ECC.wing_ce, .ro, .fix, none⟩, ⟨DIE_MEM_ECC.tile_ue, .ro, .fix, none⟩, ⟨DIE_MEM_ECC.tile_ce, .ro, .fix, none⟩]⟩,
  ⟨"DIE_MEM_LAST_UE", .die, 0x9010, 0, 1, 1, [],
    [⟨DIE_MEM_LAST_UE.valid, .ro, .fix, none⟩, ⟨DIE_MEM_LAST_UE.memory, .ro, .fix, none⟩, ⟨DIE_MEM_LAST_UE.unit, .ro, .fix, none⟩, ⟨DIE_MEM_LAST_UE.offset, .ro, .fix, none⟩]⟩]

/-- Registers of the DIE block. -/
def regsDIE1 : List RegRow := [
  ⟨"DIE_REFRESH", .die, 0x9018, 0, 1, 1, [],
    [⟨DIE_REFRESH.interval, .ro, .fix, none⟩]⟩,
  ⟨"DIE_COPY_STATUS", .die, 0x9020, 0, 1, 1, [],
    [⟨DIE_COPY_STATUS.copy_stalls, .ro, .fix, none⟩, ⟨DIE_COPY_STATUS.busy, .ro, .fix, none⟩]⟩]

/-- Registers of the QUE block. -/
def regsQUE0 : List RegRow := [
  ⟨"QUE_STATUS", .bar, 0x10000, 0, 1, 1, [],
    [⟨QUE_STATUS.lines_polled, .ro, .fix, none⟩, ⟨QUE_STATUS.cache_active, .ro, .fix, none⟩, ⟨QUE_STATUS.ring_full, .w1c, .imm, none⟩, ⟨QUE_STATUS.poll_stretched, .ro, .fix, none⟩, ⟨QUE_STATUS.cfg_ignored, .w1c, .imm, none⟩, ⟨QUE_STATUS.cfg_pending, .ro, .fix, none⟩]⟩,
  ⟨"QUE_CTL", .bar, 0x10008, 0, 1, 1, [],
    [⟨QUE_CTL.max_inflight, .rw, .bnd, some (.clamp 1 64)⟩, ⟨QUE_CTL.poll_interval, .rw, .imm, some (.clamp 1 1000)⟩, ⟨QUE_CTL.db_force_poll, .rw, .stat, none⟩, ⟨QUE_CTL.engine_en, .rw, .imm, none⟩]⟩,
  ⟨"QUE_SEL", .bar, 0x10010, 0, 1, 1, [],
    [⟨QUE_SEL.cset, .rw, .imm, none⟩, ⟨QUE_SEL.fring, .rw, .imm, none⟩, ⟨QUE_SEL.cring, .rw, .imm, none⟩, ⟨QUE_SEL.queue, .rw, .imm, none⟩]⟩,
  ⟨"QUE_Q_RING", .bar, 0x10100, 0, 1, 1, [(QUE_SEL.queue, 1)],
    [⟨QUE_Q_RING.base, .rw, .lock, none⟩, ⟨QUE_Q_RING.size_log2, .rw, .lock, none⟩]⟩,
  ⟨"QUE_Q_DB", .bar, 0x10108, 0, 1, 1, [(QUE_SEL.queue, 1)],
    [⟨QUE_Q_DB.line, .rw, .lock, none⟩, ⟨QUE_Q_DB.slot, .rw, .lock, none⟩]⟩,
  ⟨"QUE_Q_BIND", .bar, 0x10110, 0, 1, 1, [(QUE_SEL.queue, 1)],
    [⟨QUE_Q_BIND.priority, .rw, .lock, none⟩, ⟨QUE_Q_BIND.fring, .rw, .lock, none⟩, ⟨QUE_Q_BIND.cring, .rw, .lock, none⟩, ⟨QUE_Q_BIND.space, .rw, .lock, none⟩, ⟨QUE_Q_BIND.cset, .rw, .lock, none⟩]⟩,
  ⟨"QUE_Q_CTL", .bar, 0x10118, 0, 1, 1, [(QUE_SEL.queue, 1)],
    [⟨QUE_Q_CTL.resume, .wo, .imm, none⟩, ⟨QUE_Q_CTL.enable, .rw, .imm, none⟩]⟩,
  ⟨"QUE_Q_STATE", .bar, 0x10120, 0, 1, 1, [(QUE_SEL.queue, 1)],
    [⟨QUE_Q_STATE.head, .ro, .fix, none⟩, ⟨QUE_Q_STATE.inflight, .ro, .fix, none⟩, ⟨QUE_Q_STATE.state, .ro, .fix, none⟩]⟩,
  ⟨"QUE_C_RING", .bar, 0x10200, 0, 1, 1, [(QUE_SEL.cring, 1)],
    [⟨QUE_C_RING.base, .rw, .lock, none⟩, ⟨QUE_C_RING.enable, .rw, .imm, none⟩, ⟨QUE_C_RING.size_log2, .rw, .lock, none⟩]⟩,
  ⟨"QUE_C_DB", .bar, 0x10208, 0, 1, 1, [(QUE_SEL.cring, 1)],
    [⟨QUE_C_DB.line, .rw, .lock, none⟩, ⟨QUE_C_DB.slot, .rw, .lock, none⟩]⟩,
  ⟨"QUE_C_IRQ", .bar, 0x10210, 0, 1, 1, [(QUE_SEL.cring, 1)],
    [⟨QUE_C_IRQ.irq_en, .rw, .imm, none⟩, ⟨QUE_C_IRQ.vector, .rw, .imm, none⟩]⟩,
  ⟨"QUE_C_STATE", .bar, 0x10218, 0, 1, 1, [(QUE_SEL.cring, 1)],
    [⟨QUE_C_STATE.windex, .ro, .fix, none⟩, ⟨QUE_C_STATE.full, .ro, .fix, none⟩]⟩]

/-- Registers of the QUE block. -/
def regsQUE1 : List RegRow := [
  ⟨"QUE_F_RING", .bar, 0x10300, 0, 1, 1, [(QUE_SEL.fring, 1)],
    [⟨QUE_F_RING.base, .rw, .lock, none⟩, ⟨QUE_F_RING.enable, .rw, .imm, none⟩, ⟨QUE_F_RING.size_log2, .rw, .lock, none⟩]⟩,
  ⟨"QUE_F_DB", .bar, 0x10308, 0, 1, 1, [(QUE_SEL.fring, 1)],
    [⟨QUE_F_DB.line, .rw, .lock, none⟩, ⟨QUE_F_DB.slot, .rw, .lock, none⟩]⟩,
  ⟨"QUE_F_IRQ", .bar, 0x10310, 0, 1, 1, [(QUE_SEL.fring, 1)],
    [⟨QUE_F_IRQ.irq_en, .rw, .imm, none⟩, ⟨QUE_F_IRQ.vector, .rw, .imm, none⟩]⟩,
  ⟨"QUE_F_STATE", .bar, 0x10318, 0, 1, 1, [(QUE_SEL.fring, 1)],
    [⟨QUE_F_STATE.windex, .ro, .fix, none⟩, ⟨QUE_F_STATE.full, .ro, .fix, none⟩]⟩,
  ⟨"QUE_CSET", .bar, 0x10400, 0, 1, 1, [(QUE_SEL.cset, 1)],
    [⟨QUE_CSET.count, .rw, .bnd, none⟩, ⟨QUE_CSET.first, .rw, .bnd, none⟩]⟩,
  ⟨"QUE_CLIST", .bar, 0x18000, 8, 4096, 1, [],
    [⟨QUE_CLIST.entry_3, .rw, .bnd, none⟩, ⟨QUE_CLIST.entry_2, .rw, .bnd, none⟩, ⟨QUE_CLIST.entry_1, .rw, .bnd, none⟩, ⟨QUE_CLIST.entry_0, .rw, .bnd, none⟩]⟩,
  ⟨"QUE_X_RING", .bar, 0x10600, 32, 16, 1, [],
    [⟨QUE_X_RING.base, .rw, .lock, none⟩, ⟨QUE_X_RING.enable, .rw, .imm, none⟩, ⟨QUE_X_RING.size_log2, .rw, .lock, none⟩]⟩,
  ⟨"QUE_X_DB", .bar, 0x10608, 32, 16, 1, [],
    [⟨QUE_X_DB.line, .rw, .lock, none⟩, ⟨QUE_X_DB.slot, .rw, .lock, none⟩]⟩,
  ⟨"QUE_X_RRING", .bar, 0x10610, 32, 16, 1, [],
    [⟨QUE_X_RRING.base, .rw, .lock, none⟩]⟩,
  ⟨"QUE_X_RDB", .bar, 0x10618, 32, 16, 1, [],
    [⟨QUE_X_RDB.line, .rw, .lock, none⟩, ⟨QUE_X_RDB.slot, .rw, .lock, none⟩]⟩]

/-- Registers of the XLT block. -/
def regsXLT0 : List RegRow := [
  ⟨"XLT_STATUS", .bar, 0x20000, 0, 1, 1, [],
    [⟨XLT_STATUS.cfg_ignored, .w1c, .imm, none⟩, ⟨XLT_STATUS.cfg_pending, .ro, .fix, none⟩]⟩,
  ⟨"XLT_CTL", .bar, 0x20008, 0, 1, 1, [],
    [⟨XLT_CTL.host_walk_cached, .rw, .imm, none⟩, ⟨XLT_CTL.tc_en, .rw, .imm, none⟩]⟩,
  ⟨"XLT_JOB_SEL", .bar, 0x20010, 0, 1, 1, [],
    [⟨XLT_JOB_SEL.job, .rw, .imm, none⟩]⟩,
  ⟨"XLT_JOB_ROOT", .bar, 0x20018, 0, 1, 1, [(XLT_JOB_SEL.job, 1)],
    [⟨XLT_JOB_ROOT.root, .rw, .lock, none⟩, ⟨XLT_JOB_ROOT.root_loc, .rw, .lock, none⟩, ⟨XLT_JOB_ROOT.enable, .rw, .imm, none⟩]⟩,
  ⟨"XLT_INV", .bar, 0x20020, 0, 1, 1, [],
    [⟨XLT_INV.job, .rw, .imm, none⟩, ⟨XLT_INV.size_log2, .rw, .imm, some (.clamp 12 52)⟩, ⟨XLT_INV.kind, .rw, .imm, none⟩, ⟨XLT_INV.go, .wo, .imm, none⟩]⟩,
  ⟨"XLT_INV_VA", .bar, 0x20028, 0, 1, 1, [],
    [⟨XLT_INV_VA.va, .rw, .imm, none⟩]⟩,
  ⟨"XLT_INV_STATUS", .bar, 0x20030, 0, 1, 1, [],
    [⟨XLT_INV_STATUS.done, .ro, .fix, none⟩, ⟨XLT_INV_STATUS.busy, .ro, .fix, none⟩]⟩,
  ⟨"XLT_MISSES", .bar, 0x20040, 0, 1, 1, [],
    [⟨XLT_MISSES.misses, .ro, .fix, none⟩]⟩]

/-- Registers of the STK block. -/
def regsSTK0 : List RegRow := [
  ⟨"STK_STATUS", .stk, 0x0, 0, 1, 1, [],
    [⟨STK_STATUS.temp, .ro, .fix, none⟩, ⟨STK_STATUS.state, .ro, .fix, none⟩, ⟨STK_STATUS.spares_low, .w1c, .imm, none⟩, ⟨STK_STATUS.hot, .ro, .fix, none⟩, ⟨STK_STATUS.cfg_ignored, .w1c, .imm, none⟩, ⟨STK_STATUS.cfg_pending, .ro, .fix, none⟩]⟩,
  ⟨"STK_CTL", .stk, 0x8, 0, 1, 1, [],
    [⟨STK_CTL.patrol_hours, .rw, .imm, none⟩, ⟨STK_CTL.ce_remap_threshold, .rw, .imm, some (.clamp 1 18446744073709551615)⟩, ⟨STK_CTL.bringup, .rw, .lock, none⟩, ⟨STK_CTL.ue_event_en, .rw, .imm, none⟩, ⟨STK_CTL.ce_event_en, .rw, .imm, none⟩, ⟨STK_CTL.remap_en, .rw, .imm, none⟩, ⟨STK_CTL.clear_counts, .wo, .imm, none⟩]⟩,
  ⟨"STK_INFO", .stk, 0x10, 0, 1, 1, [],
    [⟨STK_INFO.vendor, .ro, .fix, none⟩, ⟨STK_INFO.height, .ro, .fix, none⟩, ⟨STK_INFO.density, .ro, .fix, none⟩, ⟨STK_INFO.usable, .ro, .fix, none⟩]⟩,
  ⟨"STK_ECC", .stk, 0x18, 0, 1, 1, [],
    [⟨STK_ECC.remaps, .ro, .fix, none⟩, ⟨STK_ECC.ue, .ro, .fix, none⟩, ⟨STK_ECC.ce, .ro, .fix, none⟩]⟩,
  ⟨"STK_LAST_UE", .stk, 0x20, 0, 1, 1, [],
    [⟨STK_LAST_UE.valid, .ro, .fix, none⟩, ⟨STK_LAST_UE.source, .ro, .fix, none⟩, ⟨STK_LAST_UE.offset, .ro, .fix, none⟩]⟩,
  ⟨"STK_SPARE_SEL", .stk, 0x100, 0, 1, 1, [],
    [⟨STK_SPARE_SEL.channel, .rw, .imm, none⟩, ⟨STK_SPARE_SEL.entry, .rw, .imm, none⟩]⟩,
  ⟨"STK_SPARE_DATA", .stk, 0x108, 0, 1, 2048, [(STK_SPARE_SEL.channel, 64), (STK_SPARE_SEL.entry, 1)],
    [⟨STK_SPARE_DATA.valid, .ro, .fix, none⟩, ⟨STK_SPARE_DATA.cause, .ro, .fix, none⟩, ⟨STK_SPARE_DATA.bank, .ro, .fix, none⟩, ⟨STK_SPARE_DATA.pc, .ro, .fix, none⟩, ⟨STK_SPARE_DATA.row, .ro, .fix, none⟩, ⟨STK_SPARE_DATA.spare, .ro, .fix, none⟩]⟩,
  ⟨"STK_PPR_SEL", .stk, 0x200, 0, 1, 1, [],
    [⟨STK_PPR_SEL.channel, .rw, .imm, none⟩, ⟨STK_PPR_SEL.bank, .rw, .imm, none⟩]⟩,
  ⟨"STK_PPR_DATA", .stk, 0x208, 0, 1, 2048, [(STK_PPR_SEL.channel, 64), (STK_PPR_SEL.bank, 1)],
    [⟨STK_PPR_DATA.hard_left, .ro, .fix, none⟩, ⟨STK_PPR_DATA.soft_free, .ro, .fix, none⟩]⟩,
  ⟨"STK_PPR_CMD", .stk, 0x210, 0, 1, 1, [],
    [⟨STK_PPR_CMD.go, .wo, .imm, none⟩, ⟨STK_PPR_CMD.kind, .rw, .imm, none⟩, ⟨STK_PPR_CMD.row, .rw, .imm, none⟩, ⟨STK_PPR_CMD.result, .ro, .fix, none⟩, ⟨STK_PPR_CMD.busy, .ro, .fix, none⟩]⟩]

/-- Registers of the FAR block. -/
def regsFAR0 : List RegRow := [
  ⟨"FAR_STATUS", .bar, 0xd0000, 0, 1, 1, [],
    [⟨FAR_STATUS.cfg_ignored, .w1c, .imm, none⟩, ⟨FAR_STATUS.cfg_pending, .ro, .fix, none⟩]⟩,
  ⟨"FAR_CTL", .bar, 0xd0008, 0, 1, 1, [],
    [⟨FAR_CTL.timeout_us, .rw, .imm, some (.clamp 100 50000)⟩, ⟨FAR_CTL.interleave, .rw, .lock, some (.above 2 0)⟩, ⟨FAR_CTL.enable, .rw, .imm, none⟩]⟩,
  ⟨"FAR_PORT_STATUS", .bar, 0xd0100, 32, 4, 1, [],
    [⟨FAR_PORT_STATUS.capacity, .ro, .fix, none⟩, ⟨FAR_PORT_STATUS.width, .ro, .fix, none⟩, ⟨FAR_PORT_STATUS.rate, .ro, .fix, none⟩, ⟨FAR_PORT_STATUS.device, .ro, .fix, none⟩, ⟨FAR_PORT_STATUS.link_up, .ro, .fix, none⟩]⟩,
  ⟨"FAR_PORT_CTL", .bar, 0xd0108, 32, 4, 1, [],
    [⟨FAR_PORT_CTL.retrain, .wo, .imm, none⟩, ⟨FAR_PORT_CTL.port_en, .rw, .stat, none⟩]⟩,
  ⟨"FAR_PORT_ERR", .bar, 0xd0110, 32, 4, 1, [],
    [⟨FAR_PORT_ERR.link_downs, .ro, .fix, none⟩, ⟨FAR_PORT_ERR.timeouts, .ro, .fix, none⟩, ⟨FAR_PORT_ERR.poisoned, .ro, .fix, none⟩, ⟨FAR_PORT_ERR.replays, .ro, .fix, none⟩]⟩]

/-- Registers of the TCN block. -/
def regsTCN0 : List RegRow := [
  ⟨"TCN_STATUS", .tcn, 0x0, 0, 1, 1, [],
    [⟨TCN_STATUS.active_mask, .ro, .fix, none⟩, ⟨TCN_STATUS.width, .ro, .fix, none⟩, ⟨TCN_STATUS.partner_width, .ro, .fix, none⟩, ⟨TCN_STATUS.state, .ro, .fix, none⟩, ⟨TCN_STATUS.disagree, .w1c, .imm, none⟩, ⟨TCN_STATUS.margin_low, .w1c, .imm, none⟩, ⟨TCN_STATUS.cfg_ignored, .w1c, .imm, none⟩, ⟨TCN_STATUS.cfg_pending, .ro, .fix, none⟩]⟩,
  ⟨"TCN_CTL", .tcn, 0x8, 0, 1, 1, [],
    [⟨TCN_CTL.margin_min, .rw, .imm, some (.clamp 1 32)⟩, ⟨TCN_CTL.lane_test_errors, .rw, .imm, some (.clamp 1 18446744073709551615)⟩, ⟨TCN_CTL.proactive_spare, .rw, .imm, none⟩, ⟨TCN_CTL.margin_go, .wo, .imm, none⟩, ⟨TCN_CTL.retrain, .wo, .imm, none⟩]⟩,
  ⟨"TCN_STORED", .tcn, 0x10, 0, 1, 1, [],
    [⟨TCN_STORED.width, .ro, .fix, none⟩, ⟨TCN_STORED.mask, .ro, .fix, none⟩]⟩,
  ⟨"TCN_REPAIR", .tcn, 0x100, 8, 16, 16, [],
    [⟨TCN_REPAIR.ctrl_fail, .ro, .fix, none⟩, ⟨TCN_REPAIR.retired, .ro, .fix, none⟩, ⟨TCN_REPAIR.spare1_failed, .ro, .fix, none⟩, ⟨TCN_REPAIR.spare1_for, .ro, .fix, none⟩, ⟨TCN_REPAIR.spare0_failed, .ro, .fix, none⟩, ⟨TCN_REPAIR.spare0_for, .ro, .fix, none⟩]⟩,
  ⟨"TCN_MARGIN_SEL", .tcn, 0x200, 0, 1, 1, [],
    [⟨TCN_MARGIN_SEL.group, .rw, .imm, none⟩, ⟨TCN_MARGIN_SEL.lane, .rw, .imm, none⟩]⟩,
  ⟨"TCN_MARGIN_DATA", .tcn, 0x208, 0, 1, 2048, [(TCN_MARGIN_SEL.group, 128), (TCN_MARGIN_SEL.lane, 1)],
    [⟨TCN_MARGIN_DATA.tick, .ro, .fix, none⟩, ⟨TCN_MARGIN_DATA.voltage, .ro, .fix, none⟩, ⟨TCN_MARGIN_DATA.timing, .ro, .fix, none⟩]⟩,
  ⟨"TCN_ERR", .tcn, 0x300, 0, 1, 1, [],
    [⟨TCN_ERR.crc_errors, .ro, .fix, none⟩, ⟨TCN_ERR.lanes_spared, .ro, .fix, none⟩, ⟨TCN_ERR.groups_retired, .ro, .fix, none⟩, ⟨TCN_ERR.trainings, .ro, .fix, none⟩, ⟨TCN_ERR.disagreements, .ro, .fix, none⟩]⟩]

/-- Registers of the UCI block. -/
def regsUCI0 : List RegRow := [
  ⟨"UCI_STATUS", .bar, 0xe0000, 0, 1, 1, [],
    [⟨UCI_STATUS.cfg_ignored, .w1c, .imm, none⟩, ⟨UCI_STATUS.cfg_pending, .ro, .fix, none⟩]⟩,
  ⟨"UCI_CTL", .bar, 0xe0008, 0, 1, 1, [],
    [⟨UCI_CTL.cmd_timeout_ms, .rw, .imm, some (.clamp 10 60000)⟩, ⟨UCI_CTL.rate_max, .rw, .stat, none⟩]⟩,
  ⟨"UCI_SITE_CTL", .bar, 0xe0100, 64, 2, 1, [],
    [⟨UCI_SITE_CTL.modules_max, .rw, .lock, some (.above 2 2)⟩, ⟨UCI_SITE_CTL.retrain, .wo, .imm, none⟩, ⟨UCI_SITE_CTL.enable, .rw, .imm, none⟩]⟩,
  ⟨"UCI_SITE_STATUS", .bar, 0xe0108, 64, 2, 1, [],
    [⟨UCI_SITE_STATUS.inflight, .ro, .fix, none⟩, ⟨UCI_SITE_STATUS.rate, .ro, .fix, none⟩, ⟨UCI_SITE_STATUS.lanes, .ro, .fix, none⟩, ⟨UCI_SITE_STATUS.modules, .ro, .fix, none⟩, ⟨UCI_SITE_STATUS.state, .ro, .fix, none⟩]⟩,
  ⟨"UCI_SITE_INFO", .bar, 0xe0110, 64, 2, 1, [],
    [⟨UCI_SITE_INFO.vendor, .ro, .fix, none⟩, ⟨UCI_SITE_INFO.device, .ro, .fix, none⟩, ⟨UCI_SITE_INFO.engines, .ro, .fix, none⟩, ⟨UCI_SITE_INFO.max_inflight, .ro, .fix, none⟩, ⟨UCI_SITE_INFO.requester, .ro, .fix, none⟩, ⟨UCI_SITE_INFO.protocol, .ro, .fix, none⟩]⟩,
  ⟨"UCI_SITE_ERR", .bar, 0xe0118, 64, 2, 1, [],
    [⟨UCI_SITE_ERR.link_downs, .ro, .fix, none⟩, ⟨UCI_SITE_ERR.timeouts, .ro, .fix, none⟩, ⟨UCI_SITE_ERR.refused, .ro, .fix, none⟩, ⟨UCI_SITE_ERR.retries, .ro, .fix, none⟩]⟩]

/-- Registers of the FAB block. -/
def regsFAB0 : List RegRow := [
  ⟨"FAB_STATUS", .bar, 0x90000, 0, 1, 1, [],
    [⟨FAB_STATUS.port_up, .ro, .fix, none⟩, ⟨FAB_STATUS.drops_seen, .w1c, .imm, none⟩, ⟨FAB_STATUS.cfg_ignored, .w1c, .imm, none⟩, ⟨FAB_STATUS.cfg_pending, .ro, .fix, none⟩]⟩,
  ⟨"FAB_CTL", .bar, 0x90008, 0, 1, 1, [],
    [⟨FAB_CTL.epoch_hold_ms, .rw, .imm, some (.clamp 10 10000)⟩, ⟨FAB_CTL.residence_us, .rw, .imm, some (.clamp 100 10000)⟩, ⟨FAB_CTL.mgt_window, .rw, .imm, some (.clamp 1 18446744073709551615)⟩, ⟨FAB_CTL.col_window, .rw, .imm, some (.clamp 1 18446744073709551615)⟩, ⟨FAB_CTL.req_window, .rw, .imm, some (.clamp 1 18446744073709551615)⟩, ⟨FAB_CTL.col_win_en, .rw, .stat, none⟩, ⟨FAB_CTL.req_win_en, .rw, .stat, none⟩, ⟨FAB_CTL.enable, .rw, .imm, none⟩]⟩,
  ⟨"FAB_COORD", .bar, 0x90010, 0, 1, 1, [],
    [⟨FAB_COORD.wrap_y, .rw, .lock, none⟩, ⟨FAB_COORD.wrap_x, .rw, .lock, none⟩, ⟨FAB_COORD.dim_z, .rw, .lock, none⟩, ⟨FAB_COORD.dim_y, .rw, .lock, none⟩, ⟨FAB_COORD.dim_x, .rw, .lock, none⟩, ⟨FAB_COORD.node, .rw, .lock, none⟩]⟩,
  ⟨"FAB_EPOCH", .bar, 0x90018, 0, 1, 1, [],
    [⟨FAB_EPOCH.flips, .ro, .fix, none⟩, ⟨FAB_EPOCH.current, .rw, .imm, none⟩]⟩,
  ⟨"FAB_BANK_CTL", .bar, 0x90020, 0, 1, 1, [],
    [⟨FAB_BANK_CTL.go, .wo, .imm, none⟩, ⟨FAB_BANK_CTL.op, .rw, .imm, none⟩, ⟨FAB_BANK_CTL.bank, .rw, .imm, none⟩]⟩,
  ⟨"FAB_BANK_IMG", .bar, 0x90028, 0, 1, 1, [],
    [⟨FAB_BANK_IMG.dpa, .rw, .imm, none⟩]⟩,
  ⟨"FAB_BANK_STATUS", .bar, 0x90030, 0, 1, 1, [],
    [⟨FAB_BANK_STATUS.hold_b, .ro, .fix, none⟩, ⟨FAB_BANK_STATUS.hold_a, .ro, .fix, none⟩, ⟨FAB_BANK_STATUS.state_b, .ro, .fix, none⟩, ⟨FAB_BANK_STATUS.state_a, .ro, .fix, none⟩]⟩,
  ⟨"FAB_EPOCH_COUNT", .bar, 0x90038, 0, 1, 1, [],
    [⟨FAB_EPOCH_COUNT.count_b, .ro, .fix, none⟩, ⟨FAB_EPOCH_COUNT.count_a, .ro, .fix, none⟩]⟩,
  ⟨"FAB_RT_SEL", .bar, 0x90040, 0, 1, 1, [],
    [⟨FAB_RT_SEL.bank, .rw, .imm, none⟩, ⟨FAB_RT_SEL.group, .rw, .imm, none⟩]⟩,
  ⟨"FAB_RT_DATA", .bar, 0x90048, 0, 1, 1, [],
    [⟨FAB_RT_DATA.entries, .ro, .fix, none⟩]⟩,
  ⟨"FAB_PORT_STATUS", .bar, 0x90100, 32, 5, 1, [],
    [⟨FAB_PORT_STATUS.rtt_ns, .ro, .fix, none⟩, ⟨FAB_PORT_STATUS.rate_limited, .ro, .fix, none⟩, ⟨FAB_PORT_STATUS.up, .ro, .fix, none⟩, ⟨FAB_PORT_STATUS.engines, .ro, .fix, none⟩]⟩,
  ⟨"FAB_PORT_BUF", .bar, 0x90108, 32, 5, 1, [],
    [⟨FAB_PORT_BUF.size_mib, .rw, .lock, none⟩, ⟨FAB_PORT_BUF.base, .rw, .lock, none⟩]⟩]

/-- Registers of the FAB block. -/
def regsFAB1 : List RegRow := [
  ⟨"FAB_PORT_WAIT", .bar, 0x90110, 32, 5, 1, [],
    [⟨FAB_PORT_WAIT.credit_wait_us, .ro, .fix, none⟩]⟩,
  ⟨"FAB_DROPS", .bar, 0x90200, 0, 1, 1, [],
    [⟨FAB_DROPS.unreachable, .ro, .fix, none⟩, ⟨FAB_DROPS.residence, .ro, .fix, none⟩, ⟨FAB_DROPS.port_down, .ro, .fix, none⟩, ⟨FAB_DROPS.epoch, .ro, .fix, none⟩]⟩,
  ⟨"FAB_DROPS2", .bar, 0x90208, 0, 1, 1, [],
    [⟨FAB_DROPS2.buf_ue, .ro, .fix, none⟩, ⟨FAB_DROPS2.disabled, .ro, .fix, none⟩, ⟨FAB_DROPS2.mcast_local, .ro, .fix, none⟩, ⟨FAB_DROPS2.bad_node, .ro, .fix, none⟩]⟩,
  ⟨"FAB_DROPS_CLR", .bar, 0x90210, 0, 1, 1, [],
    [⟨FAB_DROPS_CLR.clear, .wo, .imm, none⟩]⟩,
  ⟨"FAB_PARTNER_SEL", .bar, 0x90300, 0, 1, 1, [],
    [⟨FAB_PARTNER_SEL.index, .rw, .imm, none⟩]⟩,
  ⟨"FAB_PARTNER_DATA", .bar, 0x90308, 0, 1, 1, [(FAB_PARTNER_SEL.index, 1)],
    [⟨FAB_PARTNER_DATA.valid, .ro, .fix, none⟩, ⟨FAB_PARTNER_DATA.pin, .rw, .imm, none⟩, ⟨FAB_PARTNER_DATA.cls, .rw, .imm, none⟩, ⟨FAB_PARTNER_DATA.node, .rw, .imm, none⟩, ⟨FAB_PARTNER_DATA.outstanding, .ro, .fix, none⟩, ⟨FAB_PARTNER_DATA.window, .rw, .imm, none⟩]⟩,
  ⟨"FAB_PARTNER_WAITS", .bar, 0x90310, 0, 1, 1, [],
    [⟨FAB_PARTNER_WAITS.waits, .ro, .fix, none⟩]⟩]

/-- Registers of the RMT block. -/
def regsRMT0 : List RegRow := [
  ⟨"RMT_STATUS", .bar, 0xa0000, 0, 1, 1, [],
    [⟨RMT_STATUS.incarnation, .ro, .fix, none⟩, ⟨RMT_STATUS.evicted, .w1c, .imm, none⟩, ⟨RMT_STATUS.stale_sent, .w1c, .imm, none⟩, ⟨RMT_STATUS.cfg_ignored, .w1c, .imm, none⟩, ⟨RMT_STATUS.cfg_pending, .ro, .fix, none⟩]⟩,
  ⟨"RMT_CTL", .bar, 0xa0008, 0, 1, 1, [],
    [⟨RMT_CTL.lifetime_ms, .rw, .imm, some (.clamp 10 500)⟩, ⟨RMT_CTL.timeout_ms, .rw, .imm, some (.clamp 1 1000)⟩, ⟨RMT_CTL.retry_100us, .rw, .imm, some (.clamp 1 18446744073709551615)⟩, ⟨RMT_CTL.enable, .rw, .imm, none⟩]⟩,
  ⟨"RMT_STATE", .bar, 0xa0010, 0, 1, 1, [],
    [⟨RMT_STATE.base, .rw, .lock, none⟩]⟩,
  ⟨"RMT_KEY_SEL", .bar, 0xa0018, 0, 1, 1, [],
    [⟨RMT_KEY_SEL.job, .rw, .imm, none⟩]⟩,
  ⟨"RMT_JOB_KEY", .bar, 0xa0020, 0, 1, 1, [(RMT_KEY_SEL.job, 1)],
    [⟨RMT_JOB_KEY.key, .rw, .imm, none⟩]⟩,
  ⟨"RMT_WIN_SEL", .bar, 0xa0028, 0, 1, 1, [],
    [⟨RMT_WIN_SEL.index, .rw, .imm, none⟩]⟩,
  ⟨"RMT_WIN_BASE", .bar, 0xa0030, 0, 1, 1, [(RMT_WIN_SEL.index, 1)],
    [⟨RMT_WIN_BASE.va, .rw, .imm, none⟩]⟩,
  ⟨"RMT_WIN_CTL", .bar, 0xa0038, 0, 1, 1, [(RMT_WIN_SEL.index, 1)],
    [⟨RMT_WIN_CTL.size_pages, .rw, .imm, none⟩, ⟨RMT_WIN_CTL.key, .rw, .imm, none⟩, ⟨RMT_WIN_CTL.job, .rw, .imm, none⟩, ⟨RMT_WIN_CTL.atomic, .rw, .imm, none⟩, ⟨RMT_WIN_CTL.write, .rw, .imm, none⟩, ⟨RMT_WIN_CTL.read, .rw, .imm, none⟩, ⟨RMT_WIN_CTL.enable, .rw, .imm, none⟩]⟩,
  ⟨"RMT_REQ_STATS", .bar, 0xa0040, 0, 1, 1, [],
    [⟨RMT_REQ_STATS.unmatched, .ro, .fix, none⟩, ⟨RMT_REQ_STATS.retries, .ro, .fix, none⟩, ⟨RMT_REQ_STATS.timeouts, .ro, .fix, none⟩]⟩,
  ⟨"RMT_RC_STATS", .bar, 0xa0048, 0, 1, 1, [],
    [⟨RMT_RC_STATS.evictions, .ro, .fix, none⟩, ⟨RMT_RC_STATS.stale, .ro, .fix, none⟩, ⟨RMT_RC_STATS.skipped, .ro, .fix, none⟩, ⟨RMT_RC_STATS.in_use, .ro, .fix, none⟩]⟩,
  ⟨"RMT_REFUSE_LAST", .bar, 0xa0050, 0, 1, 1, [],
    [⟨RMT_REFUSE_LAST.refused, .ro, .fix, none⟩, ⟨RMT_REFUSE_LAST.reason, .ro, .fix, none⟩, ⟨RMT_REFUSE_LAST.src, .ro, .fix, none⟩, ⟨RMT_REFUSE_LAST.window, .ro, .fix, none⟩]⟩,
  ⟨"RMT_OUTSTANDING", .bar, 0xa0058, 0, 1, 1, [],
    [⟨RMT_OUTSTANDING.held, .ro, .fix, none⟩, ⟨RMT_OUTSTANDING.outstanding, .ro, .fix, none⟩]⟩]

/-- Registers of the RMT block. -/
def regsRMT1 : List RegRow := [
  ⟨"RMT_CLR", .bar, 0xa0060, 0, 1, 1, [],
    [⟨RMT_CLR.clear, .wo, .imm, none⟩]⟩]

/-- Registers of the GRP block. -/
def regsGRP0 : List RegRow := [
  ⟨"GRP_STATUS", .bar, 0xb0000, 0, 1, 1, [],
    [⟨GRP_STATUS.stage_used, .ro, .fix, none⟩, ⟨GRP_STATUS.cfg_ignored, .w1c, .imm, none⟩, ⟨GRP_STATUS.cfg_pending, .ro, .fix, none⟩]⟩,
  ⟨"GRP_CTL", .bar, 0xb0008, 0, 1, 1, [],
    [⟨GRP_CTL.watchdog_ms, .rw, .imm, some (.clamp 10 60000)⟩, ⟨GRP_CTL.rereq_us, .rw, .imm, some (.clamp 100 50000)⟩, ⟨GRP_CTL.enable, .rw, .imm, none⟩]⟩,
  ⟨"GRP_STAGE", .bar, 0xb0010, 0, 1, 1, [],
    [⟨GRP_STAGE.size_mib, .rw, .lock, none⟩, ⟨GRP_STAGE.base, .rw, .lock, none⟩]⟩,
  ⟨"GRP_SEL", .bar, 0xb0018, 0, 1, 1, [],
    [⟨GRP_SEL.group, .rw, .imm, none⟩]⟩,
  ⟨"GRP_ENT_CTL", .bar, 0xb0020, 0, 1, 1, [(GRP_SEL.group, 1)],
    [⟨GRP_ENT_CTL.key, .rw, .lock, none⟩, ⟨GRP_ENT_CTL.job, .rw, .lock, none⟩, ⟨GRP_ENT_CTL.chunk_log2_max, .rw, .lock, some (.above 8 8)⟩, ⟨GRP_ENT_CTL.slots, .rw, .lock, some (.clamp 1 64)⟩, ⟨GRP_ENT_CTL.depth, .rw, .lock, some (.clamp 1 4)⟩, ⟨GRP_ENT_CTL.kind, .rw, .lock, none⟩, ⟨GRP_ENT_CTL.enable, .rw, .imm, none⟩]⟩,
  ⟨"GRP_ENT_SHAPE", .bar, 0xb0028, 0, 1, 1, [(GRP_SEL.group, 1)],
    [⟨GRP_ENT_SHAPE.zmask, .rw, .lock, none⟩, ⟨GRP_ENT_SHAPE.ny, .rw, .lock, none⟩, ⟨GRP_ENT_SHAPE.y0, .rw, .lock, none⟩, ⟨GRP_ENT_SHAPE.nx, .rw, .lock, none⟩, ⟨GRP_ENT_SHAPE.x0, .rw, .lock, none⟩]⟩,
  ⟨"GRP_ENT_LIST", .bar, 0xb0030, 0, 1, 1, [(GRP_SEL.group, 1)],
    [⟨GRP_ENT_LIST.count, .rw, .lock, none⟩, ⟨GRP_ENT_LIST.first, .rw, .lock, none⟩]⟩,
  ⟨"GRP_ENT_SEQ", .bar, 0xb0038, 0, 1, 1, [(GRP_SEL.group, 1)],
    [⟨GRP_ENT_SEQ.next, .rw, .lock, none⟩, ⟨GRP_ENT_SEQ.member, .ro, .fix, none⟩, ⟨GRP_ENT_SEQ.size, .ro, .fix, none⟩]⟩,
  ⟨"GRP_STATS", .bar, 0xb0040, 0, 1, 1, [],
    [⟨GRP_STATS.crc_errors, .ro, .fix, none⟩, ⟨GRP_STATS.rereqs, .ro, .fix, none⟩, ⟨GRP_STATS.timeouts, .ro, .fix, none⟩]⟩,
  ⟨"GRP_DROPS", .bar, 0xb0048, 0, 1, 1, [],
    [⟨GRP_DROPS.key_mismatch, .ro, .fix, none⟩, ⟨GRP_DROPS.no_group, .ro, .fix, none⟩, ⟨GRP_DROPS.stale, .ro, .fix, none⟩, ⟨GRP_DROPS.param_mismatch, .ro, .fix, none⟩]⟩,
  ⟨"GRP_CLR", .bar, 0xb0050, 0, 1, 1, [],
    [⟨GRP_CLR.clear, .wo, .imm, none⟩]⟩,
  ⟨"GRP_MLIST", .bar, 0xb8000, 8, 4096, 1, [],
    [⟨GRP_MLIST.entry_3, .rw, .imm, none⟩, ⟨GRP_MLIST.entry_2, .rw, .imm, none⟩, ⟨GRP_MLIST.entry_1, .rw, .imm, none⟩, ⟨GRP_MLIST.entry_0, .rw, .imm, none⟩]⟩]

/-- Registers of the OPT block. -/
def regsOPT0 : List RegRow := [
  ⟨"OPT_STATUS", .opt, 0x0, 0, 1, 1, [],
    [⟨OPT_STATUS.lanes_up, .ro, .fix, none⟩, ⟨OPT_STATUS.fibres_up, .ro, .fix, none⟩, ⟨OPT_STATUS.state, .ro, .fix, none⟩, ⟨OPT_STATUS.ff_stale, .ro, .fix, none⟩, ⟨OPT_STATUS.no_spare, .w1c, .imm, none⟩, ⟨OPT_STATUS.miswired, .w1c, .imm, none⟩, ⟨OPT_STATUS.cfg_ignored, .w1c, .imm, none⟩, ⟨OPT_STATUS.cfg_pending, .ro, .fix, none⟩]⟩,
  ⟨"OPT_CTL", .opt, 0x8, 0, 1, 1, [],
    [⟨OPT_CTL.fade_retire, .rw, .imm, none⟩, ⟨OPT_CTL.fade_spare, .rw, .imm, none⟩, ⟨OPT_CTL.fade_warn, .rw, .imm, none⟩, ⟨OPT_CTL.ff_gain, .rw, .imm, none⟩, ⟨OPT_CTL.relock_limit, .rw, .imm, some (.clamp 1 18446744073709551615)⟩, ⟨OPT_CTL.ucw_limit, .rw, .imm, some (.clamp 1 18446744073709551615)⟩, ⟨OPT_CTL.ff_en, .rw, .imm, none⟩, ⟨OPT_CTL.enable, .rw, .imm, none⟩]⟩,
  ⟨"OPT_LANE_SEL", .opt, 0x10, 0, 1, 1, [],
    [⟨OPT_LANE_SEL.dir, .rw, .imm, none⟩, ⟨OPT_LANE_SEL.fibre, .rw, .imm, none⟩, ⟨OPT_LANE_SEL.lane, .rw, .imm, none⟩]⟩,
  ⟨"OPT_LANE_DATA", .opt, 0x18, 0, 1, 256, [(OPT_LANE_SEL.dir, 128), (OPT_LANE_SEL.fibre, 16), (OPT_LANE_SEL.lane, 1)],
    [⟨OPT_LANE_DATA.ber_db, .ro, .fix, none⟩, ⟨OPT_LANE_DATA.relocks, .ro, .fix, none⟩, ⟨OPT_LANE_DATA.heater, .ro, .fix, none⟩, ⟨OPT_LANE_DATA.lock_err, .ro, .fix, none⟩, ⟨OPT_LANE_DATA.state, .ro, .fix, none⟩]⟩,
  ⟨"OPT_LASER_SEL", .opt, 0x20, 0, 1, 1, [],
    [⟨OPT_LASER_SEL.laser, .rw, .imm, none⟩]⟩,
  ⟨"OPT_LASER_DATA", .opt, 0x28, 0, 1, 32, [(OPT_LASER_SEL.laser, 1)],
    [⟨OPT_LASER_DATA.commissioned_uw, .ro, .fix, none⟩, ⟨OPT_LASER_DATA.power_uw, .ro, .fix, none⟩, ⟨OPT_LASER_DATA.fade, .ro, .fix, none⟩, ⟨OPT_LASER_DATA.state, .ro, .fix, none⟩]⟩,
  ⟨"OPT_COMMISSION", .opt, 0x30, 0, 1, 1, [],
    [⟨OPT_COMMISSION.go, .wo, .imm, none⟩]⟩,
  ⟨"OPT_ERR", .opt, 0x38, 0, 1, 1, [],
    [⟨OPT_ERR.crc_errors, .ro, .fix, none⟩, ⟨OPT_ERR.wrong_locks, .ro, .fix, none⟩, ⟨OPT_ERR.switchovers, .ro, .fix, none⟩, ⟨OPT_ERR.lanes_retired, .ro, .fix, none⟩, ⟨OPT_ERR.relocks, .ro, .fix, none⟩]⟩,
  ⟨"OPT_FEC", .opt, 0x40, 0, 1, 1, [],
    [⟨OPT_FEC.uncorrectable, .ro, .fix, none⟩, ⟨OPT_FEC.corrected, .ro, .fix, none⟩]⟩,
  ⟨"OPT_PARTNER", .opt, 0x48, 0, 1, 1, [],
    [⟨OPT_PARTNER.rtt_ns, .ro, .fix, none⟩, ⟨OPT_PARTNER.node, .ro, .fix, none⟩, ⟨OPT_PARTNER.engine, .ro, .fix, none⟩, ⟨OPT_PARTNER.fibres_matched, .ro, .fix, none⟩]⟩,
  ⟨"OPT_CLR", .opt, 0x50, 0, 1, 1, [],
    [⟨OPT_CLR.clear, .wo, .imm, none⟩]⟩]

/-- Registers of the MIR block. -/
def regsMIR0 : List RegRow := [
  ⟨"MIR_STATUS", .bar, 0xc0000, 0, 1, 1, [],
    [⟨MIR_STATUS.orphaned_job, .ro, .fix, none⟩, ⟨MIR_STATUS.admission, .ro, .fix, none⟩, ⟨MIR_STATUS.mgmt_rejected, .w1c, .imm, none⟩, ⟨MIR_STATUS.orphaned, .w1c, .imm, none⟩, ⟨MIR_STATUS.cfg_ignored, .w1c, .imm, none⟩, ⟨MIR_STATUS.cfg_pending, .ro, .fix, none⟩]⟩,
  ⟨"MIR_CTL", .bar, 0xc0008, 0, 1, 1, [],
    [⟨MIR_CTL.feed, .rw, .lock, none⟩, ⟨MIR_CTL.host_job, .rw, .lock, none⟩, ⟨MIR_CTL.landing_timeout_ms, .rw, .imm, some (.clamp 100 60000)⟩, ⟨MIR_CTL.admit_timeout_s, .rw, .imm, some (.clamp 5 255)⟩, ⟨MIR_CTL.slots, .rw, .stat, some (.clamp 1 64)⟩, ⟨MIR_CTL.load_stall, .rw, .imm, some (.clamp 1 18446744073709551615)⟩, ⟨MIR_CTL.enable, .rw, .imm, none⟩]⟩,
  ⟨"MIR_JOB_SEL", .bar, 0xc0010, 0, 1, 1, [],
    [⟨MIR_JOB_SEL.job, .rw, .imm, none⟩]⟩,
  ⟨"MIR_JOB", .bar, 0xc0018, 0, 1, 1, [(MIR_JOB_SEL.job, 1)],
    [⟨MIR_JOB.partner, .rw, .bnd, none⟩, ⟨MIR_JOB.barrier_group, .rw, .lock, none⟩, ⟨MIR_JOB.residency_bound, .rw, .lock, none⟩, ⟨MIR_JOB.enable, .rw, .imm, none⟩]⟩,
  ⟨"MIR_JOB_STATE", .bar, 0xc0020, 0, 1, 1, [(MIR_JOB_SEL.job, 1)],
    [⟨MIR_JOB_STATE.isProtected, .ro, .fix, none⟩, ⟨MIR_JOB_STATE.phase, .ro, .fix, none⟩, ⟨MIR_JOB_STATE.reason, .ro, .fix, none⟩, ⟨MIR_JOB_STATE.last_landing, .ro, .fix, none⟩]⟩,
  ⟨"MIR_RANGE_SEL", .bar, 0xc0028, 0, 1, 1, [],
    [⟨MIR_RANGE_SEL.range, .rw, .imm, none⟩]⟩,
  ⟨"MIR_RANGE_BASE", .bar, 0xc0030, 0, 1, 1, [(MIR_RANGE_SEL.range, 1)],
    [⟨MIR_RANGE_BASE.va, .rw, .lock, none⟩]⟩,
  ⟨"MIR_RANGE_CTL", .bar, 0xc0038, 0, 1, 1, [(MIR_RANGE_SEL.range, 1)],
    [⟨MIR_RANGE_CTL.size_64k, .rw, .lock, none⟩, ⟨MIR_RANGE_CTL.job, .rw, .lock, none⟩, ⟨MIR_RANGE_CTL.enable, .rw, .bnd, none⟩]⟩,
  ⟨"MIR_HOST_SEL", .bar, 0xc0040, 0, 1, 1, [],
    [⟨MIR_HOST_SEL.entry, .rw, .imm, none⟩]⟩,
  ⟨"MIR_HOST_BASE", .bar, 0xc0048, 0, 1, 1, [(MIR_HOST_SEL.entry, 1)],
    [⟨MIR_HOST_BASE.size_gib, .rw, .lock, none⟩, ⟨MIR_HOST_BASE.va, .rw, .lock, none⟩]⟩,
  ⟨"MIR_HOST_CTL", .bar, 0xc0050, 0, 1, 1, [(MIR_HOST_SEL.entry, 1)],
    [⟨MIR_HOST_CTL.key, .rw, .lock, none⟩, ⟨MIR_HOST_CTL.source, .rw, .lock, none⟩, ⟨MIR_HOST_CTL.loader, .rw, .imm, none⟩, ⟨MIR_HOST_CTL.enable, .rw, .imm, none⟩]⟩,
  ⟨"MIR_HOST_BUF", .bar, 0xc0058, 8, 2, 1, [(MIR_HOST_SEL.entry, 2)],
    [⟨MIR_HOST_BUF.state, .ro, .fix, none⟩, ⟨MIR_HOST_BUF.landing, .ro, .fix, none⟩]⟩]

/-- Registers of the MIR block. -/
def regsMIR1 : List RegRow := [
  ⟨"MIR_ADMIT", .bar, 0xc0080, 0, 1, 1, [],
    [⟨MIR_ADMIT.landing, .rw, .imm, none⟩]⟩,
  ⟨"MIR_ADMIT_CMD", .bar, 0xc0088, 0, 1, 1, [],
    [⟨MIR_ADMIT_CMD.job, .rw, .imm, none⟩, ⟨MIR_ADMIT_CMD.op, .rw, .imm, none⟩, ⟨MIR_ADMIT_CMD.go, .wo, .imm, none⟩]⟩,
  ⟨"MGMT_VIEW", .bar, 0xc0100, 0, 1, 1, [],
    [⟨MGMT_VIEW.view_gen, .rw, .imm, none⟩, ⟨MGMT_VIEW.panel_state, .rw, .imm, none⟩, ⟨MGMT_VIEW.unit_gen, .ro, .fix, none⟩]⟩,
  ⟨"DATA_VIEW", .bar, 0xc0108, 0, 1, 1, [],
    [⟨DATA_VIEW.view_gen, .ro, .fix, none⟩, ⟨DATA_VIEW.epoch, .ro, .fix, none⟩, ⟨DATA_VIEW.panel_state, .ro, .fix, none⟩, ⟨DATA_VIEW.unit_gen, .ro, .fix, none⟩]⟩,
  ⟨"MIR_FENCE_SEL", .bar, 0xc0110, 0, 1, 1, [],
    [⟨MIR_FENCE_SEL.word, .rw, .imm, none⟩]⟩,
  ⟨"MIR_FENCE_DATA", .bar, 0xc0118, 0, 1, 1, [(MIR_FENCE_SEL.word, 1)],
    [⟨MIR_FENCE_DATA.fenced, .rw, .imm, none⟩]⟩,
  ⟨"MIR_VIEW_DROPS", .bar, 0xc0120, 0, 1, 1, [],
    [⟨MIR_VIEW_DROPS.fenced_src, .ro, .fix, none⟩, ⟨MIR_VIEW_DROPS.inactive_unit, .ro, .fix, none⟩]⟩,
  ⟨"MIR_STATS", .bar, 0xc0128, 0, 1, 1, [],
    [⟨MIR_STATS.commits, .ro, .fix, none⟩, ⟨MIR_STATS.refusals, .ro, .fix, none⟩, ⟨MIR_STATS.orphans, .ro, .fix, none⟩]⟩]

/-- Registers of the PWR block. -/
def regsPWR0 : List RegRow := [
  ⟨"PWR_STATUS", .bar, 0x60000, 0, 1, 1, [],
    [⟨PWR_STATUS.pstate_refused, .w1c, .imm, none⟩, ⟨PWR_STATUS.floor_missed, .w1c, .imm, none⟩, ⟨PWR_STATUS.policy_clamped, .w1c, .imm, none⟩, ⟨PWR_STATUS.standby_lost, .w1c, .imm, none⟩, ⟨PWR_STATUS.ovp_open, .ro, .fix, none⟩, ⟨PWR_STATUS.at_limit, .w1c, .imm, none⟩, ⟨PWR_STATUS.credits_frozen, .ro, .fix, none⟩, ⟨PWR_STATUS.brownout, .ro, .fix, none⟩, ⟨PWR_STATUS.sag, .ro, .fix, none⟩, ⟨PWR_STATUS.cfg_ignored, .w1c, .imm, none⟩, ⟨PWR_STATUS.cfg_pending, .ro, .fix, none⟩]⟩,
  ⟨"PWR_CTL", .bar, 0x60008, 0, 1, 1, [],
    [⟨PWR_CTL.v_max, .rw, .imm, some (.clamp 550 900)⟩, ⟨PWR_CTL.v_min, .rw, .imm, some (.clamp 550 900)⟩, ⟨PWR_CTL.target_rate, .rw, .imm, some (.clamp 500 1260)⟩, ⟨PWR_CTL.vopt_en, .rw, .imm, none⟩, ⟨PWR_CTL.panel_ramp, .rw, .imm, some (.clamp 1 18446744073709551615)⟩, ⟨PWR_CTL.credit_interval, .rw, .imm, some (.clamp 1 100)⟩, ⟨PWR_CTL.credit_hold, .rw, .imm, some (.clamp 1 18446744073709551615)⟩]⟩,
  ⟨"PWR_IDLE", .bar, 0x60010, 0, 1, 1, [],
    [⟨PWR_IDLE.d2_idle_ms, .rw, .imm, none⟩, ⟨PWR_IDLE.u2_idle_us, .rw, .imm, some (.clamp 1 18446744073709551615)⟩]⟩,
  ⟨"PWR_LIMIT", .bar, 0x60018, 0, 1, 1, [],
    [⟨PWR_LIMIT.cap_w, .rw, .imm, some (.clamp 2000 32000)⟩, ⟨PWR_LIMIT.floor, .rw, .imm, none⟩, ⟨PWR_LIMIT.curr_limit, .rw, .imm, some (.clamp 40 640)⟩]⟩,
  ⟨"PWR_PSTATE", .bar, 0x60020, 0, 1, 1, [],
    [⟨PWR_PSTATE.busy, .ro, .fix, none⟩, ⟨PWR_PSTATE.auto_restart, .rw, .imm, none⟩, ⟨PWR_PSTATE.current, .ro, .fix, none⟩, ⟨PWR_PSTATE.target, .rw, .imm, none⟩]⟩,
  ⟨"PWR_INPUT", .bar, 0x60028, 0, 1, 1, [],
    [⟨PWR_INPUT.holdup, .ro, .fix, none⟩, ⟨PWR_INPUT.voltage, .ro, .fix, none⟩, ⟨PWR_INPUT.current, .ro, .fix, none⟩, ⟨PWR_INPUT.power, .ro, .fix, none⟩]⟩,
  ⟨"PWR_EVENTS", .bar, 0x60030, 0, 1, 1, [],
    [⟨PWR_EVENTS.sags, .ro, .fix, none⟩, ⟨PWR_EVENTS.brownouts, .ro, .fix, none⟩, ⟨PWR_EVENTS.clamps, .ro, .fix, none⟩, ⟨PWR_EVENTS.power_losses, .ro, .fix, none⟩, ⟨PWR_EVENTS.ovp_trips, .ro, .fix, none⟩]⟩,
  ⟨"PWR_DIE_OFF", .bar, 0x60038, 0, 1, 1, [],
    [⟨PWR_DIE_OFF.clear_events, .wo, .imm, none⟩, ⟨PWR_DIE_OFF.off, .rw, .imm, none⟩]⟩]

/-- Registers of the WNG block. -/
def regsWNG0 : List RegRow := [
  ⟨"WNG_STATUS", .wng, 0x0, 0, 1, 1, [],
    [⟨WNG_STATUS.active, .ro, .fix, none⟩, ⟨WNG_STATUS.allowance, .ro, .fix, none⟩, ⟨WNG_STATUS.pace, .ro, .fix, none⟩, ⟨WNG_STATUS.state, .ro, .fix, none⟩, ⟨WNG_STATUS.v_ceiling, .ro, .fix, none⟩, ⟨WNG_STATUS.v_now, .ro, .fix, none⟩, ⟨WNG_STATUS.cfg_ignored, .w1c, .imm, none⟩, ⟨WNG_STATUS.cfg_pending, .ro, .fix, none⟩]⟩,
  ⟨"WNG_CTL", .wng, 0x8, 0, 1, 1, [],
    [⟨WNG_CTL.wing_off, .rw, .imm, none⟩, ⟨WNG_CTL.v_manual, .rw, .imm, some (.clamp 550 900)⟩]⟩,
  ⟨"WNG_CORE_OFF", .wng, 0x10, 0, 1, 1, [],
    [⟨WNG_CORE_OFF.off, .rw, .imm, none⟩]⟩,
  ⟨"WNG_PACE_HELD", .wng, 0x18, 0, 1, 1, [],
    [⟨WNG_PACE_HELD.held_beats, .ro, .fix, none⟩]⟩]

/-- Registers of the THM block. -/
def regsTHM0 : List RegRow := [
  ⟨"THM_STATUS", .bar, 0x70000, 0, 1, 1, [],
    [⟨THM_STATUS.trip_seen, .w1c, .imm, none⟩, ⟨THM_STATUS.skip_seen, .w1c, .imm, none⟩, ⟨THM_STATUS.shut_any, .ro, .fix, none⟩, ⟨THM_STATUS.enforcing, .ro, .fix, none⟩, ⟨THM_STATUS.requested, .ro, .fix, none⟩, ⟨THM_STATUS.cfg_ignored, .w1c, .imm, none⟩, ⟨THM_STATUS.cfg_pending, .ro, .fix, none⟩]⟩,
  ⟨"THM_CTL", .bar, 0x70008, 0, 1, 1, [],
    [⟨THM_CTL.shutdown_limit, .rw, .imm, none⟩, ⟨THM_CTL.predict_ms, .rw, .imm, some (.clamp 5 100)⟩, ⟨THM_CTL.grace_ms, .rw, .imm, some (.clamp 10 2000)⟩, ⟨THM_CTL.hyst, .rw, .imm, some (.clamp 2 10)⟩, ⟨THM_CTL.auto_return, .rw, .imm, none⟩]⟩,
  ⟨"THM_DIE_THR", .bar, 0x70010, 0, 1, 1, [],
    [⟨THM_DIE_THR.trip, .ro, .fix, none⟩, ⟨THM_DIE_THR.shutdown, .rw, .imm, none⟩, ⟨THM_DIE_THR.throttle, .rw, .imm, none⟩, ⟨THM_DIE_THR.warning, .rw, .imm, none⟩]⟩,
  ⟨"THM_STK_THR", .bar, 0x70018, 0, 1, 1, [],
    [⟨THM_STK_THR.trip, .ro, .fix, none⟩, ⟨THM_STK_THR.shutdown, .rw, .imm, none⟩, ⟨THM_STK_THR.throttle, .rw, .imm, none⟩, ⟨THM_STK_THR.warning, .rw, .imm, none⟩]⟩,
  ⟨"THM_OPT_THR", .bar, 0x70020, 0, 1, 1, [],
    [⟨THM_OPT_THR.trip, .ro, .fix, none⟩, ⟨THM_OPT_THR.shutdown, .rw, .imm, none⟩, ⟨THM_OPT_THR.throttle, .rw, .imm, none⟩, ⟨THM_OPT_THR.warning, .rw, .imm, none⟩]⟩,
  ⟨"THM_SEL", .bar, 0x70028, 0, 1, 1, [],
    [⟨THM_SEL.clear_max, .wo, .imm, none⟩, ⟨THM_SEL.kind, .rw, .imm, none⟩, ⟨THM_SEL.index, .rw, .imm, none⟩]⟩,
  ⟨"THM_DATA", .bar, 0x70030, 0, 1, 1, [(THM_SEL.kind, 1024), (THM_SEL.index, 1)],
    [⟨THM_DATA.max, .ro, .fix, none⟩, ⟨THM_DATA.reading, .ro, .fix, none⟩, ⟨THM_DATA.state, .ro, .fix, none⟩]⟩,
  ⟨"THM_REQ", .bar, 0x70038, 0, 1, 1, [],
    [⟨THM_REQ.deadline, .ro, .fix, none⟩, ⟨THM_REQ.reading, .ro, .fix, none⟩, ⟨THM_REQ.kind, .ro, .fix, none⟩, ⟨THM_REQ.index, .ro, .fix, none⟩, ⟨THM_REQ.valid, .ro, .fix, none⟩]⟩,
  ⟨"THM_SHUT", .bar, 0x70040, 0, 1, 1, [],
    [⟨THM_SHUT.engines, .ro, .fix, none⟩, ⟨THM_SHUT.dies, .ro, .fix, none⟩]⟩,
  ⟨"THM_RETURN", .bar, 0x70048, 0, 1, 1, [],
    [⟨THM_RETURN.dies, .wo, .imm, none⟩]⟩,
  ⟨"THM_TRIP", .bar, 0x70050, 0, 1, 1, [],
    [⟨THM_TRIP.dies, .ro, .fix, none⟩]⟩,
  ⟨"THM_EVENTS", .bar, 0x70058, 0, 1, 1, [],
    [⟨THM_EVENTS.warnings, .ro, .fix, none⟩, ⟨THM_EVENTS.enforced, .ro, .fix, none⟩, ⟨THM_EVENTS.shutdowns, .ro, .fix, none⟩, ⟨THM_EVENTS.skips, .ro, .fix, none⟩, ⟨THM_EVENTS.trips, .ro, .fix, none⟩]⟩]

/-- Registers of the THM block. -/
def regsTHM1 : List RegRow := [
  ⟨"THM_PORTER_CTL", .bar, 0x70100, 0, 1, 1, [],
    [⟨THM_PORTER_CTL.timer_s, .rw, .imm, none⟩, ⟨THM_PORTER_CTL.wakes, .ro, .fix, none⟩, ⟨THM_PORTER_CTL.last_source, .ro, .fix, none⟩, ⟨THM_PORTER_CTL.smbus_wake_en, .rw, .imm, none⟩, ⟨THM_PORTER_CTL.wake, .wo, .imm, none⟩]⟩,
  ⟨"THM_PORTER_SRC", .bar, 0x70200, 8, 16, 1, [],
    [⟨THM_PORTER_SRC.entry_3, .rw, .imm, none⟩, ⟨THM_PORTER_SRC.entry_2, .rw, .imm, none⟩, ⟨THM_PORTER_SRC.entry_1, .rw, .imm, none⟩, ⟨THM_PORTER_SRC.entry_0, .rw, .imm, none⟩]⟩]

/-- Registers of the EVT block. -/
def regsEVT0 : List RegRow := [
  ⟨"EVT_STATUS", .bar, 0x30000, 0, 1, 1, [],
    [⟨EVT_STATUS.rescan_busy, .ro, .fix, none⟩, ⟨EVT_STATUS.eoi_mismatch, .w1c, .imm, none⟩, ⟨EVT_STATUS.cfg_ignored, .w1c, .imm, none⟩, ⟨EVT_STATUS.cfg_pending, .ro, .fix, none⟩]⟩,
  ⟨"EVT_CTL", .bar, 0x30008, 0, 1, 1, [],
    [⟨EVT_CTL.priv_vector, .rw, .imm, none⟩, ⟨EVT_CTL.rescan_ms, .rw, .imm, none⟩, ⟨EVT_CTL.rescan, .wo, .imm, none⟩]⟩,
  ⟨"EVT_SRC_SEL", .bar, 0x30010, 0, 1, 1, [],
    [⟨EVT_SRC_SEL.source, .rw, .imm, none⟩]⟩,
  ⟨"EVT_SRC_CFG", .bar, 0x30018, 0, 1, 1, [(EVT_SRC_SEL.source, 1)],
    [⟨EVT_SRC_CFG.vector, .rw, .lock, none⟩, ⟨EVT_SRC_CFG.target, .rw, .lock, some (.above 4 4)⟩, ⟨EVT_SRC_CFG.enable, .rw, .imm, none⟩]⟩,
  ⟨"EVT_PEND", .bar, 0x30100, 8, 16, 1, [],
    [⟨EVT_PEND.pending, .rw, .imm, none⟩]⟩,
  ⟨"EVT_MASK", .bar, 0x30180, 8, 16, 1, [],
    [⟨EVT_MASK.mask, .rw, .imm, none⟩]⟩,
  ⟨"EVT_LEVEL", .bar, 0x30200, 8, 16, 1, [],
    [⟨EVT_LEVEL.latched, .ro, .fix, none⟩]⟩,
  ⟨"EVT_ACK", .bar, 0x30280, 0, 1, 1, [],
    [⟨EVT_ACK.source, .wo, .imm, none⟩]⟩,
  ⟨"EVT_HOST_ACTIVE", .bar, 0x30300, 0, 1, 1, [],
    [⟨EVT_HOST_ACTIVE.valid, .ro, .fix, none⟩, ⟨EVT_HOST_ACTIVE.priv, .ro, .fix, none⟩, ⟨EVT_HOST_ACTIVE.source, .ro, .fix, none⟩]⟩,
  ⟨"EVT_HOST_EOI", .bar, 0x30308, 0, 1, 1, [],
    [⟨EVT_HOST_EOI.priv, .wo, .imm, none⟩, ⟨EVT_HOST_EOI.source, .wo, .imm, none⟩]⟩,
  ⟨"EVT_HOST_PRIV", .bar, 0x30310, 0, 1, 1, [],
    [⟨EVT_HOST_PRIV.pending, .rw, .imm, none⟩]⟩,
  ⟨"EVT_HOST_PRIV_MASK", .bar, 0x30318, 0, 1, 1, [],
    [⟨EVT_HOST_PRIV_MASK.mask, .rw, .imm, none⟩]⟩]

/-- Registers of the EVT block. -/
def regsEVT1 : List RegRow := [
  ⟨"EVT_SW_SET", .bar, 0x30320, 0, 1, 1, [],
    [⟨EVT_SW_SET.n, .wo, .imm, none⟩]⟩]

/-- Registers of the GAL block. -/
def regsGAL0 : List RegRow := [
  ⟨"GAL_STATUS", .gal, 0x0, 0, 1, 1, [],
    [⟨GAL_STATUS.cfg_ignored, .w1c, .imm, none⟩, ⟨GAL_STATUS.cfg_pending, .ro, .fix, none⟩]⟩,
  ⟨"GAL_CTL", .gal, 0x8, 0, 1, 1, [],
    [⟨GAL_CTL.hold_us, .rw, .imm, some (.clamp 0 50)⟩, ⟨GAL_CTL.publish_us, .rw, .imm, some (.clamp 10 1000)⟩]⟩,
  ⟨"GAL_CURSOR", .gal, 0x10, 0, 1, 1, [],
    [⟨GAL_CURSOR.clear, .wo, .imm, none⟩, ⟨GAL_CURSOR.hub, .rw, .imm, none⟩, ⟨GAL_CURSOR.record, .rw, .imm, none⟩]⟩,
  ⟨"GAL_BINS", .gal, 0x18, 0, 1, 1, [],
    [⟨GAL_BINS.shift, .rw, .imm, none⟩, ⟨GAL_BINS.lo, .rw, .imm, none⟩]⟩]

/-- Registers of the TMR block. -/
def regsTMR0 : List RegRow := [
  ⟨"TMR_STATUS", .bar, 0x50000, 0, 1, 1, [],
    [⟨TMR_STATUS.cfg_ignored, .w1c, .imm, none⟩, ⟨TMR_STATUS.cfg_pending, .ro, .fix, none⟩]⟩,
  ⟨"TMR_TICK", .bar, 0x50008, 0, 1, 1, [],
    [⟨TMR_TICK.tick, .ro, .fix, none⟩]⟩,
  ⟨"TMR_CORR", .bar, 0x50010, 0, 1, 1, [],
    [⟨TMR_CORR.busy, .ro, .fix, none⟩, ⟨TMR_CORR.go, .wo, .imm, none⟩]⟩,
  ⟨"TMR_CORR_HUB", .bar, 0x50018, 0, 1, 1, [],
    [⟨TMR_CORR_HUB.tick, .ro, .fix, none⟩]⟩,
  ⟨"TMR_CORR_DIE", .bar, 0x50100, 8, 40, 1, [],
    [⟨TMR_CORR_DIE.tick, .ro, .fix, none⟩]⟩,
  ⟨"TMR_ALARM_CMP", .bar, 0x50200, 16, 16, 1, [],
    [⟨TMR_ALARM_CMP.compare, .rw, .imm, none⟩]⟩,
  ⟨"TMR_ALARM_CTL", .bar, 0x50208, 16, 16, 1, [],
    [⟨TMR_ALARM_CTL.period, .rw, .imm, none⟩, ⟨TMR_ALARM_CTL.enable, .rw, .imm, none⟩]⟩]

/-- Registers of the SEC block. -/
def regsSEC0 : List RegRow := [
  ⟨"SEC_STATUS", .bar, 0x80000, 0, 1, 1, [],
    [⟨SEC_STATUS.copy_b, .ro, .fix, none⟩, ⟨SEC_STATUS.image_fail, .ro, .fix, none⟩, ⟨SEC_STATUS.lifecycle_next, .ro, .fix, none⟩, ⟨SEC_STATUS.lifecycle, .ro, .fix, none⟩, ⟨SEC_STATUS.debug, .ro, .fix, none⟩, ⟨SEC_STATUS.open_seen, .ro, .fix, none⟩, ⟨SEC_STATUS.identity, .ro, .fix, none⟩, ⟨SEC_STATUS.ide_a, .ro, .fix, none⟩, ⟨SEC_STATUS.ide_b, .ro, .fix, none⟩, ⟨SEC_STATUS.token_rejected, .w1c, .imm, none⟩, ⟨SEC_STATUS.path_rejected, .w1c, .imm, none⟩, ⟨SEC_STATUS.cfg_ignored, .w1c, .imm, none⟩, ⟨SEC_STATUS.cfg_pending, .ro, .fix, none⟩]⟩,
  ⟨"SEC_ARB", .bar, 0x80008, 0, 1, 1, [],
    [⟨SEC_ARB.running_ver, .ro, .fix, none⟩, ⟨SEC_ARB.arb, .ro, .fix, none⟩]⟩,
  ⟨"SEC_MBOX_CMD", .bar, 0x80100, 0, 1, 1, [],
    [⟨SEC_MBOX_CMD.go, .wo, .imm, none⟩, ⟨SEC_MBOX_CMD.busy, .ro, .fix, none⟩, ⟨SEC_MBOX_CMD.result, .ro, .fix, none⟩, ⟨SEC_MBOX_CMD.cmd, .rw, .imm, none⟩]⟩,
  ⟨"SEC_MBOX_ARG", .bar, 0x80108, 0, 1, 1, [],
    [⟨SEC_MBOX_ARG.arg, .rw, .imm, none⟩]⟩,
  ⟨"SEC_NONCE", .bar, 0x80110, 0, 1, 1, [],
    [⟨SEC_NONCE.nonce, .ro, .fix, none⟩]⟩,
  ⟨"SEC_MBOX_BUF", .bar, 0x80200, 8, 16, 1, [],
    [⟨SEC_MBOX_BUF.data, .rw, .imm, none⟩]⟩]

/-- Registers of the DBG block. -/
def regsDBG0 : List RegRow := [
  ⟨"DBG_STATUS", .bar, 0xf0000, 0, 1, 1, [],
    [⟨DBG_STATUS.open_left_s, .ro, .fix, none⟩, ⟨DBG_STATUS.state, .ro, .fix, none⟩, ⟨DBG_STATUS.port_attached, .ro, .fix, none⟩, ⟨DBG_STATUS.cfg_ignored, .w1c, .imm, none⟩, ⟨DBG_STATUS.cfg_pending, .ro, .fix, none⟩]⟩,
  ⟨"DBG_CTL", .bar, 0xf0008, 0, 1, 1, [],
    [⟨DBG_CTL.seal, .wo, .imm, none⟩]⟩]

/-- Every register of the panel (Table 1.5, Table 1.6). -/
def regTable : List RegRow :=
  regsPNL0 ++
  regsPNL1 ++
  regsDIE0 ++
  regsDIE1 ++
  regsQUE0 ++
  regsQUE1 ++
  regsXLT0 ++
  regsSTK0 ++
  regsFAR0 ++
  regsTCN0 ++
  regsUCI0 ++
  regsFAB0 ++
  regsFAB1 ++
  regsRMT0 ++
  regsRMT1 ++
  regsGRP0 ++
  regsOPT0 ++
  regsMIR0 ++
  regsMIR1 ++
  regsPWR0 ++
  regsWNG0 ++
  regsTHM0 ++
  regsTHM1 ++
  regsEVT0 ++
  regsEVT1 ++
  regsGAL0 ++
  regsTMR0 ++
  regsSEC0 ++
  regsDBG0

end Sys2Proof.Machine
end

