-- ==== Sys2Proof/Machine/State.lean ====
section
/-!
DEFINITION. The machine's state, the reasons a step can stop, and the state after reset.
Every register field of RegFile.lean has its one home in `State.fields`; the rest is what the chapters give the panel
behind the registers: memories, queues, contexts, caches, counters, latches and tables.
-/

namespace Sys2Proof.Machine

/-- Why a step stops with a fault. The panel itself reports every condition in records, registers and events, so only a
malformed command stops the model. -/
inductive Fault where
  /-- A command whose operand lists break `Instr.wf` (WellFormed.lean): nothing the hardware could be sent. Raised by the
  meanings that take lists. Safe: the model stops where the hardware receives no such command. -/
  | illFormed
  deriving DecidableEq, Repr

/-- Why a step has no meaning. -/
inductive Refusal where
  /-- Not modelled, by mnemonic: raised by an arm of Dispatch.lean that has no meaning yet. Safe. -/
  | notModelled (mnemonic : String)
  deriving DecidableEq, Repr

/-- A map from keys to values, as plain data. -/
abbrev KMap (α : Type) := List (Nat × α)

/-- A stop of a command at a restart point: what its fault record carries (Table 5.14, Table 6.4). -/
structure Stop where
  status : Nat
  /-- 0 read, 1 write, 2 atomic, 3 none -/
  access : Nat
  va : Nat
  unit : Nat
  restart : Nat
  p0 : Nat
  p1 : Nat
  p2 : Nat
  deriving DecidableEq, Repr

/-- What a joined swap leaves to the next MATMUL of a core (R113): beats streamed since the swap before it, the result port's beats of the
block drained meanwhile (0 none), those of the block that the joined swap drains, and the array mode. -/
structure Join where
  stream : Nat
  drain : Nat
  last : Nat
  quad : Bool
  deriving DecidableEq, Repr

/-- Where a VECTOR share stands inside a row, at a restart point (R234): pass and element of the row that it resumes at, the inputs read in the
first and the second pass, Y(r, 0), and the scale bytes of the result so far. -/
structure VecRun where
  pass : Nat
  elem : Nat
  firsts : List Val
  seconds : List Val
  y0 : Val
  scales : List Nat
  deriving DecidableEq, Repr

/-- Where a dispatched command stands. -/
inductive CtxPhase where
  /-- dispatched, its work not at its end -/
  | running
  /-- stopped with a fault that no record has reported yet (R238) -/
  | stopped
  /-- stopped with its fault reported -/
  | reported
  /-- its work is done: the completion point of R195 is reached but for its record -/
  | done
  /-- complete but for a record that its ring holds (R198) -/
  | held
  deriving DecidableEq, Repr

/-- The context of a dispatched command. -/
structure Ctx where
  idx : Nat
  desc : Line
  /-- the core-list entries sampled at dispatch (R183) -/
  cores : List Nat
  phase : CtxPhase
  status : Nat
  low : Bool
  high : Bool
  result0 : Nat
  /-- the layout record and the shape record, once read (R138) -/
  recs : Option (List Byte × List Byte)
  /-- shares (positions of the core set, or engines) that have come to their end -/
  ran : List Nat
  /-- shares stopped at a restart point, with their stops -/
  stops : KMap Stop
  /-- elements written, shares complete or operations answered by the whole command (Table 6.4) -/
  count : Nat
  /-- ticks that a TIMER has left (R211) -/
  tick : Nat
  /-- a descriptor that failed its checks, to be checked again on resume (Table 6.3) -/
  recheck : Bool
  /-- engine progress of a collective, a LANDING, a TIMER: started -/
  started : Bool
  /-- saved accumulators that a share resumes from: flat address of its per-core block, block and K step (R249, R622) -/
  accAt : KMap (Nat × Nat × Nat)
  /-- rows that VECTOR shares resume inside, by position of the core set (R234, R249) -/
  vecAt : KMap VecRun
  /-- unit rows of COPY shares whose wraps are counted: share, row ordinal, die (R273) -/
  wrapped : List (Nat × Nat × Nat)
  deriving DecidableEq, Repr

/-- A stop waiting for its fault record, in the order of detection (R238). -/
structure StopRec where
  idx : Nat
  tag : Nat
  opcode : Nat
  stop : Stop
  deriving DecidableEq, Repr

/-- What a queue holds behind its registers. -/
structure Queue where
  /-- the last tail observed in its doorbell slot -/
  tail : Nat
  /-- descriptors read and not dispatched, in ring order, with their indices -/
  fetched : List (Nat × Line)
  ctxs : List Ctx
  /-- unreported stops in the order of detection -/
  stops : List StopRec
  /-- the reported stop is the tail check of R174 -/
  tailFault : Bool
  /-- a fault record of this queue that its ring holds -/
  frecHeld : Bool
  /-- a PREEMPT has stopped fetch and dispatch (R244) -/
  preempting : Bool
  /-- the queue's contexts as its save area holds them, with the engine state that the panel alone interprets (R248) -/
  saved : List Ctx
  /-- state a STOPPED queue was in when its save area was written: 1 RUNNING, 2 FAULTED -/
  savedState : Nat
  deriving DecidableEq, Repr

/-- A record held by a ring (R198): its bytes without index and phase, its queue and command, and what follows once it is written: its
MSI-X message (R199), or for a response that its queue enters STOPPED (R244). -/
structure HeldRec where
  queue : Nat
  idx : Nat
  body : List Byte
  irq : Bool
  deriving DecidableEq, Repr

/-- What a completion, fault or response ring holds behind its registers. -/
structure Ring where
  /-- the head last observed in its slot -/
  head : Nat
  held : List HeldRec
  /-- an episode of R198 is on: the ring is full, or a record waits for a ring that is not enabled -/
  episode : Bool
  deriving DecidableEq, Repr

/-- The request side of a control ring: the tail observed, the next index to handle, and the response ring's write index. -/
structure XRing where
  tail : Nat
  next : Nat
  windex : Nat
  deriving DecidableEq, Repr

/-- The rings that use doorbell lines. -/
inductive RingId where
  | sq (q : Nat) | cr (c : Nat) | fr (f : Nat) | xq (x : Nat) | xr (x : Nat)
  deriving DecidableEq, Repr

/-- A doorbell line in use, in the order in which its first ring was enabled (R176). -/
structure DbLine where
  addr : Nat
  users : List RingId
  /-- the panel holds a Shared copy -/
  copy : Bool
  /-- lost or dropped and to be read again (R177, R178, R180) -/
  reread : Bool
  deriving DecidableEq, Repr

/-- One entry of a translation cache (R225): level 0 to 2 leaf entries, and walk-cache entries of levels 3 to 1. -/
structure TcEntry where
  /-- cluster 0–1,279, then 1,280 the command processor, 1,281 the collective engine, 1,282 the remote engine -/
  cache : Nat
  job : Nat
  level : Nat
  leaf : Bool
  /-- first address and size of the page, or of the span of the table pointed to -/
  base : Nat
  size : Nat
  pte : Nat
  deriving DecidableEq, Repr

/-- A far-tier write whose device completion is outstanding (R309). -/
structure FarWrite where
  port : Nat
  queue : Nat
  idx : Nat
  addr : Nat
  data : List Byte
  /-- replies to send once it is performed (R396) -/
  replies : List Packet
  deriving DecidableEq, Repr

/-- A flit of a lane's retry buffer (R458): its sequence number, whether a packet begins in it, its payload. -/
structure LaneFlit where
  seq : Nat
  first : Bool
  payload : List Byte
  deriving DecidableEq, Repr

/-- MSI-X of a host port: enable, unmasked vectors, pending-bit array (R603). -/
structure Msix where
  enabled : Bool
  unmasked : List Nat
  pba : List Nat
  deriving DecidableEq, Repr

/-- Where a remote request comes from (file 11). -/
inductive RmtOrigin where
  /-- operation i of a REMOTE -/
  | entry (q idx i : Nat)
  /-- a remote SIGNAL -/
  | signal (q idx : Nat)
  /-- piece `key` of a COPY side of kind 3 -/
  | copy (q idx key : Nat)
  deriving DecidableEq, Repr

/-- The queue whose command makes a request. -/
def RmtOrigin.queue : RmtOrigin → Nat
  | .entry q _ _ => q
  | .signal q _ => q
  | .copy q _ _ => q

/-- The answer of a remote operation (Table 11.3), with a LOAD's data. -/
structure RmtAns where
  status : Nat
  high : Bool
  reason : Nat
  sends : Nat
  seq : Nat
  old : Nat
  data : List Byte
  /-- where a LOAD's data goes -/
  va : Nat
  deriving DecidableEq, Repr

/-- A remote request at its requester: waiting to be issued, or outstanding. -/
structure RmtOp where
  id : Nat
  origin : RmtOrigin
  code : Nat
  size : Nat
  node : Nat
  window : Nat
  offset : Nat
  data : List Byte
  key : Nat
  job : Nat
  flag : Bool
  issued : Bool
  rid : Nat
  seq : Nat
  floor : Nat
  sends : Nat
  /-- retry interval and timeout in force at the first send (R400) -/
  retry : Nat
  timeout : Nat
  /-- writes outstanding when a flagged operation began to wait (R399) -/
  waitOn : List Nat
  doomed : Bool
  /-- status and reason of the other part of a STORE sent in two parts, once it is answered (R389) -/
  part : Option (Nat × Nat)
  /-- the operation's local_va as the entry gave it (R624) -/
  va : Nat
  deriving DecidableEq, Repr

/-- A REMOTE in progress: next operation to reach, answers, result entries written, and what ends or stops it. -/
structure RmtCmd where
  queue : Nat
  idx : Nat
  next : Nat
  answers : KMap RmtAns
  written : List Nat
  /-- a fault that waits for the issued operations: status, access, address -/
  fault : Option (Nat × Nat × Nat)
  /-- the operation whose entry was unreadable, and its status: no later operation goes on (R624) -/
  ended : Option (Nat × Nat)
  /-- status of writes of local data and result entries that failed without a fault (R224) -/
  fail : Nat
  deriving DecidableEq, Repr

/-- A share of a COPY with a side of kind 3: pieces loaded or answered, by key. -/
structure CopyRemote where
  queue : Nat
  idx : Nat
  /-- the share's engine, by its place in the engine set -/
  share : Nat
  /-- 0 loads to be sent, 1 loads sent, 2 the share's groups are done -/
  stage : Nat
  /-- keys of pieces sent and not answered -/
  waiting : List Nat
  /-- answers to loads -/
  answers : KMap RmtAns
  /-- status of the stores answered so far -/
  status : Nat
  deriving DecidableEq, Repr

/-- A source's record of processed atomics (R404). -/
structure AtomicRec where
  inc : Nat
  next : Nat
  done : Nat
  deriving DecidableEq, Repr

/-- A reply-cache entry (R405), oldest first in its list. -/
structure RcEntry where
  src : Nat
  seq : Nat
  status : Nat
  high : Bool
  reason : Nat
  old : Nat
  size : Nat
  deriving DecidableEq, Repr

/-- What waits for injection, and who hears of a failure (R354). -/
inductive InjOwner where
  | remote (id : Nat)
  | none
  | coll (q idx : Nat)
  deriving DecidableEq, Repr

/-- A packet that waits in a receive buffer, or at injection (input 5), for credit or for its unit. -/
structure FabWait where
  input : Nat
  /-- output port 0–4, or 5 for delivery -/
  output : Nat
  vc : Nat
  pkt : Packet
  deriving DecidableEq, Repr

/-- What a SEAL says of its chunk (Table 12.5). -/
structure CollSeal where
  packets : Nat
  crc : Nat
  /-- failed member -/
  failed : Option Nat
  low : Bool
  high : Bool
  last : Bool
  elems : Nat
  deriving DecidableEq, Repr

/-- A chunk that a member has sent: the members that have acknowledged it, its data and its seal (R432). -/
structure CollTx where
  index : Nat
  acks : List Nat
  bytes : List Byte
  cseal : CollSeal
  deriving DecidableEq, Repr

/-- A chunk that a member has granted (Table 12.6): its sender and sent index, its packets and seal, and whether it is used and its
slot still held. -/
structure CollRx where
  src : Nat
  index : Nat
  packets : KMap (List Byte)
  cseal : Option CollSeal
  used : Bool
  deriving DecidableEq, Repr

/-- A range of elements of a slice (or block) at this member. Stages 0 to 3: partial sums, as wire codes, received in that stage and
combined with this member's own; `owned` where this member is the stage's owner. Stage 8: placed at the destination. Stage 9: failed. -/
structure CollPart where
  stage : Nat
  owned : Bool
  slice : Nat
  lo : Nat
  n : Nat
  vals : List Nat
  low : Bool
  high : Bool
  failed : Option Nat
  deriving DecidableEq, Repr

/-- A collective command at this member (file 12). -/
structure CollCmd where
  queue : Nat
  idx : Nat
  group : Nat
  seq : Nat
  desc : Line
  started : Bool
  /-- counts read and local data placed -/
  setup : Bool
  /-- a fault has stopped the engine: on resume chunks are requested and sent again (R236) -/
  halted : Bool
  /-- the next chunk is to be sent as failed (R440) -/
  failNext : Bool
  /-- runtime counts (R422) -/
  counts : List Nat
  /-- grants held: receiver and sent index -/
  grants : List (Nat × Nat)
  /-- sent and not acknowledged by every receiver -/
  txs : List CollTx
  /-- sent indices that every receiver has acknowledged, or that have no data -/
  acked : List Nat
  /-- lowest index not yet sent -/
  next : Nat
  rxs : List CollRx
  /-- chunks used or failed here: sender and sent index -/
  rxDone : List (Nat × Nat)
  parts : List CollPart
  /-- elements of a share of a slice or block, once its last chunk is known (R423), by 16 · slice + 2 · stage + direction -/
  lens : KMap Nat
  /-- members of the failure list (R424) -/
  failed : List Nat
  /-- destination chunks not written because they failed -/
  lost : Bool
  deriving DecidableEq, Repr

/-- A landing in progress (R479). -/
structure Landing where
  n : Nat
  rejoin : Bool
  /-- step 1 to 5 of Table 14.1 -/
  step : Nat
  /-- partner and enabled ranges, as address and bytes each, sampled at arrival (R19, R490, MIR_RANGE_CTL) -/
  partner : Nat
  ranges : List (Nat × Nat)
  /-- this panel's number has gone to the barrier of step 2 or 5 -/
  told : Bool
  deriving DecidableEq, Repr

/-- A load that runs (R493): its job and landing, the admission state before it, the job's partner and ranges as they were when it began (R19),
and whether its request has left. -/
structure MirLoad where
  job : Nat
  n : Nat
  before : Nat
  partner : Nat
  ranges : List (Nat × Nat)
  asked : Bool
  deriving DecidableEq, Repr

/-- What the power manager holds of a temperature sensor behind THM_DATA (R527 to R532). -/
structure Sensor where
  /-- hub tick at which the throttle was reached -/
  graceAt : Nat
  /-- telemetry periods since the throttle ceiling was last raised (R529) -/
  sinceRaise : Nat
  /-- the last 10 readings, the latest first (R532) -/
  last : List Nat
  deriving DecidableEq, Repr

/-- A copy of a Gallery record (Table 17.6). -/
structure GalRec where
  bins : List Nat
  /-- extremes and their ticks, once there is a sample -/
  low : Option (Int × Nat)
  high : Option (Int × Nat)
  shift : Nat
  lo : Int
  halvings : Nat
  seq : Nat
  valid : Bool
  deriving DecidableEq, Repr

/-- An IDE key that the host has programmed (R584): port, its place in CXL_IDE_KM's numbering, the key, and whether K_SET_GO has
activated it. -/
structure IdeKey where
  port : Nat
  slot : Nat
  key : BitVec 256
  active : Bool
  deriving DecidableEq, Repr

/-- A secure session (Table 18.4): port, number, and whether FINISH has completed it. -/
structure SpdmSession where
  port : Nat
  id : Nat
  done : Bool
  deriving DecidableEq, Repr

/-- A reply that the hub keeps (R612): source, seq, and the reply's op, status, offset and data. -/
structure MgmtReply where
  src : Nat
  seq : Nat
  op : Nat
  status : Nat
  offset : Nat
  data : List W64
  deriving DecidableEq, Repr


/-- What the input stage, the credit issuer and the power manager hold behind their registers (file 15). -/
structure PowerState where
  /-- the panel is in P3: main power off (R499, R520) -/
  offP3 : Bool
  /-- the standby input is present (R502) -/
  standby : Bool
  /-- the hold-up bank has reached 52 V since main power came up (R501) -/
  bankReady : Bool
  /-- consecutive 1 µs samples above 60 V and above 72 V (Table 15.1) -/
  overUs : Nat
  overHiUs : Nat
  /-- the draw was too high 40 µs into the brownout: pace cap 0/16 (R498) -/
  brCut : Bool
  /-- the cap of the current limit in sixteenths, and the µs that the current has stayed below 95 % of it (R511) -/
  limitCap : Nat
  belowUs : Nat
  /-- optimiser request, cap ceiling and throttle ceiling of a wing in mV (R513 to R515, R529), by wing -/
  wingReq : KMap Nat
  capCeil : KMap Nat
  thrCeil : KMap Nat
  /-- credits granted and not in effect: wing and hub tick of the grant, the oldest first (R507) -/
  credPend : List (Nat × Nat)
  /-- grants of the last 10 µs, and the last of each wing: wing and hub tick (R507, R508) -/
  credHist : List (Nat × Nat)
  /-- last die served by the credit issuer, and last wing of each die (R508) -/
  credDie : Nat
  credWing : KMap Nat
  /-- clamps that apply (R516): 0 cap_w, 1 write of P0 in a brownout, 2 + wing a voltage request, 1,000 + wing the floor -/
  clamped : List Nat
  /-- a clamp episode is on -/
  clampOn : Bool
  /-- telemetry periods that a wing has missed the floor under its ceiling (Table 15.2) -/
  floorMiss : KMap Nat
  deriving DecidableEq, Repr

/-- What the power manager and the porter hold of temperatures, shutdowns and wakes (file 16). -/
structure ThermState where
  /-- sensors, by 1,024 · kind + index (Table 16.1) -/
  sensors : KMap Sensor
  /-- dies in an orderly stop or a die reset: no share starts (Table 16.5, R614) -/
  stopping : List Nat
  /-- a hub sensor has reached shutdown: the panel enters P3 once every die has stopped (R539) -/
  hubStop : Bool
  /-- hub ticks of the shutdowns of a die within the last hour (R537) -/
  shutTicks : KMap (List Nat)
  /-- the source that a wake starts with once the transition in progress ends (R546) -/
  wakeNext : Option Nat
  /-- a wake from P2 is in progress (Table 16.9) -/
  waking : Bool
  /-- main power was lost: POWER_LOST is raised at the next boot (Table 17.1) -/
  lossNote : Bool
  /-- THM_SHUTDOWN that the porter holds for the wake (R541) -/
  heldNote : Bool
  deriving DecidableEq, Repr

/-- Active sources of the steward cores, and the Galleries (file 17). -/
structure GalState where
  /-- active source of a steward target 0–3: a shared source (R554) -/
  stewardActive : KMap Nat
  /-- working and visible copies of the Gallery records: 1,024 · Gallery + record, Galleries 0–39 of dies, 40 and 41 of hubs (R565) -/
  galWork : KMap GalRec
  galSeen : KMap GalRec
  /-- bins set and not in effect until the next publish: lo and shift (R571) -/
  galBins : KMap (Int × Nat)
  /-- record that a hold keeps from being published, by Gallery (R570) -/
  galHold : KMap Nat
  deriving DecidableEq, Repr

/-- What the security controllers and the boot flash hold (file 18). -/
structure SecState where
  /-- boot flash: copies A and B of images 0–3 as bytes, by 2 · image + copy (Table 18.2) -/
  flash : KMap (List Byte)
  /-- digest of the running copy of an image (Table 18.5) -/
  imgDigest : KMap (List Byte)
  /-- blown anti-rollback fuses, by 4 · hub + image (R580) -/
  arbFuses : KMap Nat
  /-- the owner's debug authority digest, once fused (Table 18.1) -/
  authDigest : Option (BitVec 512)
  /-- a nonce stands (R592), and the number of nonces made -/
  nonceLive : Bool
  nonceCount : Nat
  /-- OPEN has a limit that open_left_s counts (R593) -/
  openTimed : Bool
  /-- hub tick of the entry to OPEN -/
  openAt : Nat
  /-- certificate slots (R582) -/
  certs : KMap (List Byte)
  /-- how far the SPDM exchange of a port has come: 1 version, 2 capabilities, 3 algorithms -/
  spdmStep : KMap Nat
  sessions : List SpdmSession
  ideKeys : List IdeKey
  /-- units halted through the debug port (R587): cores by panel core number, steward cores at 16,384 + 2h + c -/
  halted : List Nat
  deriving DecidableEq, Repr

/-- What the hubs hold of the host ports, the window, takeovers and resets (file 19). -/
structure HostState where
  /-- window lines that the host holds, in order of entry, and whether their recall has been sent (R607) -/
  snoop : List (Nat × Bool)
  /-- a takeover is in progress (R504, R608) -/
  takingOver : Bool
  /-- hubs whose main domain runs -/
  hubsUp : List Nat
  /-- HUB_LOST: dispatch is stopped until a cold or warm reset (R609) -/
  hubLost : Bool
  /-- a former primary's host port is held link-disabled (R610) -/
  portHeld : List Nat
  /-- kept management replies, the latest first (R612) -/
  mgmtKept : List MgmtReply
  /-- the reset that runs start-up: 0 cold, 1 warm, 2 panel (R615) -/
  resetKind : Option Nat
  /-- ports whose PERST# is released (Table 19.6 step 5) -/
  perst : List Nat
  /-- the panel reset in progress was a CXL Reset (R616) -/
  cxlReset : Bool
  deriving DecidableEq, Repr

/-- What the responder answers to an SPDM request (R583, Table 18.4); the wire layout is that of DMTF SPDM 1.2. -/
inductive SpdmAns where
  /-- versions listed: 0x12 for 1.2 -/
  | version (versions : List Nat)
  | capabilities
  | algorithms
  /-- digests of the filled slots -/
  | digests (slots : List (Nat × BitVec 512))
  | certificate (slot : Nat) (part : List Byte)
  | challengeAuth (sig : BitVec 512)
  /-- blocks by index, signed or not -/
  | measurements (blocks : List (Nat × List Byte)) (sig : Option (BitVec 512))
  | keyExchange (session : Nat)
  | finish (session : Nat)
  | endSession (session : Nat)
  | csr (sig : BitVec 512)
  | setCertificate (slot : Nat)
  /-- an answer of IDE key management -/
  | ideKm
  /-- ERROR with code UnsupportedRequest (R583), or with another code of DMTF SPDM 1.2 -/
  | error (unsupported : Bool)
  deriving DecidableEq, Repr

/-- What leaves the panel, newest first. -/
inductive Out where
  /-- an MSI-X message of a vector -/
  | msix (vector : Nat)
  /-- a command sent to a third-party die (R336): its core-list entry (site and engine), the handle, and bytes 0x08-0x3F of the descriptor -/
  | uciCommand (entry queue idx : Nat) (body : List Byte)
  /-- the answer to a request of a third-party die (R338): site, status, data -/
  | uciReply (site status : Nat) (data : List Byte)
  /-- a packet onto the link of a port, on a channel -/
  | fabSend (port vc : Nat) (p : Packet)
  /-- a receiver of a Tecen link (a site, or 160 + site at a hub) tells the sender of a group the last good flit's sequence number, the next
  having failed its CRC; and the sender replays `count` flits of the group from a sequence number on (R314) -/
  | tcnNak (receiver group ack : Nat)
  | tcnReplay (receiver group seq count : Nat)
  /-- codewords of a transmit lane (R454): engine, fibre, lane, and 544 symbols each -/
  | lane (engine fibre lane : Nat) (words : List (List Nat))
  /-- per-hop credits returned to the sender at a port, in 64-byte units -/
  | fabCredit (port vc units : Nat)
  /-- a packet of class MGT delivered to the steward firmware -/
  | mgtIn (p : Packet)
  /-- a lane tells its partner to replay after a flit (R457): engine, fibre, lane, and the lane word with nak set (Table 13.5) -/
  | flitNak (engine fibre lane word : Nat)
  /-- a lane replays its unacknowledged flits from a sequence number on (R457, R458) -/
  | flitReplay (engine fibre lane seq : Nat) (flits : List (List Byte))
  /-- a CTRL flit that hands a closing lane over (R471): engine, fibre, lane -/
  | handover (engine fibre lane : Nat)
  /-- a commit's image streamed to a partner, with the COMMIT message (R482): partner, landing, key, image -/
  | mirCommit (partner landing key : Nat) (image : List Byte)
  /-- this panel's number in the all-reduce of MIN over a group's members (R479, R480): the group entry, the job's landing number, and whether it
  has arrived (0) or is sealed (1) -/
  | mirBarrier (group landing stage : Nat)
  /-- a partner's answers (R484, R487): refused; buffer committed; a load's stream -/
  | mirRefuse (node : Nat)
  | mirSealed (node landing : Nat)
  | mirStream (node landing : Nat) (image : List Byte)
  /-- a load request to a partner (R493): partner, landing, key, total size -/
  | mirLoadReq (partner landing key size : Nat)
  /-- a packet of type 7 handed to the mirror engine (R483) -/
  | mirIn (p : Packet)
  /-- advance notice to an optical engine (R461): the engine, the unit of Table 13.8 (0 or 1), the kind of change (0 active count,
  1 wing voltage), its signed amount -/
  | ffNotice (engine unit kind : Nat) (amount : Int)
  /-- a data word read, or a write acknowledged, through the host's CXL.mem window: its bytes and the poison indication (R604 to R606) -/
  | winData (port : Nat) (data : List Byte) (poison : Bool)
  | winDone (port : Nat)
  /-- a back-invalidate of a window line (R607), by its device physical address -/
  | bisnp (line : Nat)
  /-- HUB_LOST over the management path (R609) -/
  | hubLost
  /-- a management reply (Table 19.4) to a source -/
  | mgmtReply (r : MgmtReply)
  /-- a PMBus answer (R612): command code, word -/
  | pmbus (code value : Nat)
  /-- an answer over DOE on a port (R583) -/
  | spdm (port : Nat) (a : SpdmAns)
  /-- CXL Reset Complete (R616) -/
  | cxlResetDone
  /-- what a debug access port request answers with -/
  | dap (data : Nat)
  /-- what a host read of a register that no block answers returns (R35, R619) -/
  | regData (v : Nat)
  deriving DecidableEq, Repr

/-- A packet that waits on the panel's network (R329, R330): the node it has reached, the node it came from over a link, the node it goes to,
whether it is on the escape set, and the port and engine it leaves by there, none where it is delivered. -/
structure TcnPkt where
  pkt : Packet
  node : Nat
  via : Option Nat
  dst : Nat
  esc : Bool
  out : Option (Nat × Nat)
  deriving DecidableEq, Repr

/-- The machine. -/
structure State where
  /-- commands waiting, first in, first out -/
  pending : List Instr
  /-- register fields that differ from their reset value: key is field id · 2^20 + number of the unit, then the value -/
  fields : KMap Nat
  /-- S-class values in force where they differ from the field's reset value (R15) -/
  force : KMap Nat
  /-- every memory, by flat address (Ops.lean, `memDefault`) -/
  mem : List Host.Cell
  /-- ECC units that read as uncorrectable, by flat address, rising -/
  ue : List Nat
  /-- ECC units that hold a correctable error -/
  ce : List Nat
  outbox : List Out
  /-- the model's own counter of free choices (Config.pick) -/
  free : Nat
  /-- ticks of dies 0–39, and of hubs 40 and 41 (R572) -/
  ticks : KMap Nat
  queues : KMap Queue
  crings : KMap Ring
  frings : KMap Ring
  xrings : KMap XRing
  rrings : KMap Ring
  dbLines : List DbLine
  /-- last queue served at each priority level (R187) -/
  rrLast : KMap Nat
  /-- dispatch waits until every doorbell line has been read again (R180) -/
  dbHold : Bool
  /-- semaphore watch table: line, queue and descriptor index of each watched WAIT (R206) -/
  watch : List (Nat × Nat × Nat)
  /-- WAITs that found the watch table full -/
  unwatched : List (Nat × Nat)
  tcs : List TcEntry
  /-- the invalidation in progress: kind, job, first address, size (R226) -/
  inv : Option (Nat × Nat × Nat × Nat)
  farWrites : List FarWrite
  /-- by host port -/
  msix : KMap Msix
  /-- power state of each core 0–3, by panel core number (`corePowOf`) -/
  corePow : KMap Nat
  /-- power state of each cluster, by panel cluster number (`clusPowOf`) -/
  clusPow : KMap Nat
  /-- arrays that are active (1) or wait for credit (2), by 8 · panel core number + array -/
  arrays : KMap Nat
  /-- cores whose arrays stay active because a MATMUL share waits behind the one that ended (R113) -/
  arrayJoin : KMap Join
  /-- die tick at which an array began to wait for credit (R124), by 8 · panel core number + array -/
  arrayWait : KMap Nat
  /-- stages stalled beyond stall_limit: panel core number and stage code (R128, R129) -/
  stalled : List (Nat × Nat)
  /-- wings that have left W0 in the beat meter's present interval (R133) -/
  beatLeft : List Nat
  /-- cores holding a MATMUL or VECTOR share: panel core number, queue, descriptor index -/
  coreShares : List (Nat × Nat × Nat)
  /-- engines holding a COPY share: panel cluster number, queue, descriptor index -/
  copyShares : List (Nat × Nat × Nat)
  /-- automatic refresh interval of each wing in µs (Table 7.1); unlisted 100 -/
  wingAuto : KMap Nat
  rmtOps : List RmtOp
  rmtCmds : List RmtCmd
  copyRemotes : List CopyRemote
  rmtNextId : Nat
  rmtNextRid : Nat
  /-- next sequence number by destination node (R403) -/
  rmtSeq : KMap Nat
  /-- incoming requests taken and not performed, in the order taken (R397) -/
  rmtHeld : List Packet
  /-- replies delivered and not yet matched -/
  rmtReplies : List Packet
  /-- per-source atomic records (R404) -/
  rmtRecs : KMap AtomicRec
  rmtCache : List RcEntry
  /-- the remote state region was lost: every record is invalid (R408) -/
  rmtLost : Bool
  /-- packets waiting for injection, oldest first -/
  injQ : List (InjOwner × Packet)
  fabWaits : List FabWait
  /-- per-hop credits in 64-byte units, by 16 · port + channel (R360) -/
  fabCredits : KMap Nat
  /-- packets sent whose credit has not returned: 16 · port + channel, units, epoch (R376) -/
  fabSent : List (Nat × Nat × Nat)
  /-- routing banks: bank · 16,384 + node (R355) -/
  fabBanks : KMap Nat
  /-- partner entries in order of use, the least recent first (R366) -/
  partnerUse : List Nat
  /-- packets waiting for a partner entry (R366) -/
  partnerWaits : List (InjOwner × Packet)
  /-- the LOAD in progress of each bank: its image address -/
  bankLoads : KMap Nat
  /-- members of each enabled group entry, by member index (R414, R415) -/
  groups : KMap (List Nat)
  colls : List CollCmd
  /-- sequence numbers completed above next, by entry (R418) -/
  collDone : KMap (List Nat)
  /-- COL packets delivered and not handled -/
  collIn : List Packet
  /-- jobs whose last landing a load has installed since their last full landing (R478) -/
  mirLoaded : List Nat
  /-- far ports whose next access gets no answer (R308) -/
  farMute : List Nat
  /-- erring rows with their corrected errors since the last reset, the latest first (R296) -/
  rowWatch : List (Nat × Nat)
  /-- rows due for a remap, with the cause of STK_SPARE_DATA -/
  remapDue : List (Nat × Nat)
  /-- channels that have raised STK_SPARES_EXHAUSTED (R298) -/
  spareOut : List Nat
  /-- rows repaired softly, to be repaired again at the next reset (Table 8.4) -/
  softRows : List Nat
  /-- spare entries whose spare row met R296 in turn (R298): never used again -/
  spareDead : List Nat
  /-- refreshes of each wing-memory row modulo 256 (R264), by wing · 32,768 + bank · 1,024 + row -/
  wingRefs : KMap Nat
  /-- lane groups lost by a link site's receive direction (R320), a mask by 4 · die + edge -/
  tcnLost : KMap Nat
  /-- link units that train for a cold, warm or panel reset (R321, R323) -/
  tcnFull : List Nat
  /-- lanes that have raised TCN_MARGIN_LOW since their link trained (R326), by 2,048 · site + 128 · group + lane -/
  lowLanes : List Nat
  /-- by lane pair: the sequence number of the next flit sent, and of the last flit received in order before one that failed (R454 to R457) -/
  laneSeq : KMap Nat
  laneAck : KMap Nat
  /-- by lane pair: the retry buffer of the lane, oldest flit first (R458) -/
  laneFlits : KMap (List LaneFlit)
  /-- by 8 · port: + class, the channel of the class that the port served last; + 4, which of REQ and COL it served last (R364) -/
  fabTurn : KMap Nat
  /-- by 16 · receiver + group (a receiver is a site, or 160 + site at a hub): the sequence number of the flit that last failed its CRC, and
  how many times running it has (R314, R316) -/
  tcnFails : KMap (Nat × Nat)
  /-- groups, by 16 · receiver + group, whose lane test is due: the sender holds their flits (R316) -/
  tcnTests : List Nat
  /-- packets that wait on the panel's network (R329, R330), oldest first -/
  tcn : List TcnPkt
  /-- link units in service that the route tables are computed from (R327) -/
  routeLinks : List Nat
  /-- ordered pairs of dies and hubs (40, 41) with no path (R331) -/
  cut : List (Nat × Nat)
  /-- the die or hub that makes the accesses of this step; none for the primary hub -/
  srcAt : Option Nat
  /-- UCIe sites in the L1 link state (Table 9.4) -/
  uciL1 : List Nat
  /-- dies retired in the hub's fuse records, at most 8, and in the hub store alone (R32, R33) -/
  fuseRecs : List Nat
  storeRecs : List Nat
  /-- fade thresholds that a laser has crossed (R466), bits 0 warn, 1 spare, 2 retire, by 32 · engine + laser -/
  fadeDone : KMap Nat
  /-- hub ticks of a lane pair's recent re-locks (R470), by 128 · engine + 16 · fibre + lane -/
  relockTicks : KMap (List Nat)
  /-- hub tick at which a lane pair last raised OPT_BER_HIGH (R470) -/
  berTick : KMap Nat
  /-- commissioned heater setting of a ring (R463), by 256 · engine + lane selection -/
  commHeater : KMap Nat
  /-- commissioned feed-forward coefficient of a ring for a unit of Table 13.8 and a kind of change (R461), by 4 · ring + 2 · unit + kind -/
  ffCoef : KMap Int
  /-- landings in progress, by job -/
  landings : KMap Landing
  /-- jobs loaded whose rejoin landing has not completed (Table 14.5) -/
  mirWaiting : List Nat
  /-- the load in progress: job, landing, admission state before it -/
  mirLoad : Option MirLoad
  /-- image size of a partner buffer, by 2 · entry + buffer (R484) -/
  mirSize : KMap Nat
  /-- offsets of the chunks placed in a partner buffer -/
  mirPlaced : KMap (List Nat)
  /-- the fence map of the data view, by word (R491) -/
  dataFence : KMap Nat
  pw : PowerState
  th : ThermState
  gal : GalState
  sec : SecState
  hst : HostState
  deriving DecidableEq, Repr

/-- Key of the unit-state field of the entry of link site n (Table 1.7): field id · 2^20 + unit. -/
def linkEntryKey (n : Nat) : Nat := PNL_UNIT_DATA.state.id * 2 ^ 20 + 120 + n

/-- Whether the entry of link site 4·row-major die + edge records a link (R46): east sites, south sites but for the last row, and the
west sites of column 0. -/
def recordsLink (n : Nat) : Bool :=
  let d := n / 4
  n % 4 == 1 || (n % 4 == 2 && d < 32) || (n % 4 == 3 && d % 8 == 0)

/-- The link-site entries that are ABSENT (R46), as register fields. -/
def absentLinks : KMap Nat := ((List.range 160).filter fun n => !recordsLink n).map fun n => (linkEntryKey n, 0)

/-- The machine right after a cold reset has begun: dies off, registers at their reset values, memories with nothing listed. -/
def State.reset : State where
  pending := []
  fields := absentLinks
  force := []
  mem := []
  ue := []
  ce := []
  outbox := []
  free := 0
  ticks := []
  queues := []
  crings := []
  frings := []
  xrings := []
  rrings := []
  dbLines := []
  rrLast := []
  dbHold := false
  watch := []
  unwatched := []
  tcs := []
  inv := none
  farWrites := []
  msix := []
  corePow := []
  clusPow := []
  arrays := []
  arrayJoin := []
  arrayWait := []
  stalled := []
  beatLeft := []
  coreShares := []
  copyShares := []
  wingAuto := []
  rmtOps := []
  rmtCmds := []
  copyRemotes := []
  rmtNextId := 0
  rmtNextRid := 0
  rmtSeq := []
  rmtHeld := []
  rmtReplies := []
  rmtRecs := []
  rmtCache := []
  rmtLost := false
  injQ := []
  fabWaits := []
  fabCredits := []
  fabSent := []
  fabBanks := []
  partnerUse := []
  partnerWaits := []
  bankLoads := []
  groups := []
  colls := []
  collDone := []
  collIn := []
  mirLoaded := []
  farMute := []
  rowWatch := []
  remapDue := []
  spareOut := []
  softRows := []
  spareDead := []
  wingRefs := []
  tcnLost := []
  tcnFull := []
  lowLanes := []
  laneSeq := []
  laneAck := []
  laneFlits := []
  fabTurn := []
  tcnFails := []
  tcnTests := []
  tcn := []
  routeLinks := []
  cut := []
  srcAt := none
  uciL1 := []
  fuseRecs := []
  storeRecs := []
  fadeDone := []
  relockTicks := []
  berTick := []
  commHeater := []
  ffCoef := []
  landings := []
  mirWaiting := []
  mirLoad := none
  mirSize := []
  mirPlaced := []
  dataFence := []
  pw := ⟨false, true, false, 0, 0, false, 16, 0, [], [], [], [], [], 39, [], [], false, []⟩
  th := ⟨[], [], false, [], none, false, false, false⟩
  gal := ⟨[], [], [], [], []⟩
  sec := ⟨[], [], [], none, false, 0, false, 0, [], [], [], [], []⟩
  hst := ⟨[], false, [0, 1], false, [], [], none, [], false⟩

/-- What a meaning answers. -/
abbrev Res := Host.Outcome State Fault Refusal

end Sys2Proof.Machine
end

