-- ==== Sys2Proof/Machine/Ops.lean ====
section
/-!
DEFINITION. The named operations over the state: keyed maps, register fields, memory with its error units, events and
their messages, power states, unit states. Every meaning goes through these.
-/

namespace Sys2Proof.Machine

/-! ### Keyed maps -/

/-- The value listed under a key. -/
def kfind {α : Type} : KMap α → Nat → Option α
  | [], _ => none
  | (k, v) :: m, j => if k = j then some v else kfind m j

/-- The value under a key, or the default. -/
def kget {α : Type} (m : KMap α) (k : Nat) (d : α) : α := (kfind m k).getD d

/-- List a value under a key, in rising order of keys. -/
def kput {α : Type} : KMap α → Nat → α → KMap α
  | [], k, v => [(k, v)]
  | (j, w) :: m, k, v => if k = j then (k, v) :: m else if k < j then (k, v) :: (j, w) :: m else (j, w) :: kput m k v

/-- Take every listing of a key away. -/
def kdel {α : Type} : KMap α → Nat → KMap α
  | [], _ => []
  | (j, w) :: m, k => if k = j then kdel m k else (j, w) :: kdel m k

/-- Change the value under a key. -/
def kmod {α : Type} (m : KMap α) (k : Nat) (d : α) (f : α → α) : KMap α := kput m k (f (kget m k d))

/-- Insert into a rising list without repeats. -/
def setIns : List Nat → Nat → List Nat
  | [], a => [a]
  | b :: l, a => if a = b then b :: l else if a < b then a :: b :: l else b :: setIns l a

/-! ### Register fields -/

/-- The key of a field's value at one unit. -/
def fkey (f : Fld) (i : Nat) : Nat := f.id * 2 ^ 20 + i

/-- A field's value as the register holds it, in the field's width. -/
def rd (s : State) (f : Fld) (i : Nat := 0) : Nat := kget s.fields (fkey f i) f.rst % 2 ^ f.w

/-- Store a field's value, cut to the field's width. -/
def wr (s : State) (f : Fld) (i : Nat) (v : Nat) : State := { s with fields := kput s.fields (fkey f i) (v % 2 ^ f.w) }

/-- Bring a field back to its reset value. -/
def unset (s : State) (f : Fld) (i : Nat) : State := { s with fields := kdel s.fields (fkey f i) }

/-- A status bit set. -/
def setBit (s : State) (f : Fld) (i : Nat := 0) : State := wr s f i 1

/-- A counter that saturates at its field's largest value. -/
def incSat (s : State) (f : Fld) (i : Nat := 0) (n : Nat := 1) : State := wr s f i (min (rd s f i + n) (2 ^ f.w - 1))

/-- A counter that wraps. -/
def incWrap (s : State) (f : Fld) (i : Nat := 0) (n : Nat := 1) : State := wr s f i (rd s f i + n)

/-- Whether a one-bit field reads 1. -/
def on (s : State) (f : Fld) (i : Nat := 0) : Bool := rd s f i == 1

/-- The S-class value in force (R13, R15). -/
def inForce (s : State) (f : Fld) (i : Nat := 0) : Nat := kget s.force (fkey f i) f.rst % 2 ^ f.w

/-- Bring the written value of an S-class field into force. -/
def bringIn (s : State) (f : Fld) (i : Nat := 0) : State := { s with force := kput s.force (fkey f i) (rd s f i) }

/-- One open choice among `n` (Config.pick), the `i`-th of this step. -/
def choose (s : State) (i n : Nat) : Nat := if n = 0 then 0 else Config.pick s.free i % n

/-- The next step's choices are fresh. -/
def bumpFree (s : State) : State := { s with free := s.free + 1 }

/-- Something leaves the panel. -/
def emit (s : State) (o : Out) : State := { s with outbox := o :: s.outbox }

/-! ### Bytes and numbers -/

/-- Little-endian bytes of a number (R6). -/
def leBytes : (n v : Nat) → List Byte
  | 0, _ => []
  | n + 1, v => BitVec.ofNat 8 v :: leBytes n (v / 256)

/-- The number that little-endian bytes spell (R6). -/
def leNat : List Byte → Nat
  | [] => 0
  | b :: l => b.toNat + 256 * leNat l

/-- Bytes [o, o + n) of a list as a little-endian number; bytes beyond the end count as 0. -/
def leAt (l : List Byte) (o n : Nat) : Nat := leNat ((l.drop o).take n)

/-- A list of bytes cut or zero-filled to a length. -/
def padTo (n : Nat) (l : List Byte) : List Byte := (l ++ List.replicate (n - l.length) 0).take n

/-- The bits [8·o + lo, 8·o + lo + w) of a 64-byte line. -/
def lineBits (d : Line) (o lo w : Nat) : Nat := d.toNat / 2 ^ (8 * o + lo) % 2 ^ w

/-! ### Memory

Flat addresses: device physical addresses below 2^52 (Table 8.2); tile memory of panel core c at 2^52 + c·2^20 (R255); wing
memory of wing 4d + a at 2^53 + (4d + a)·2^26 (R259); host memory at 2^64; accumulators of a stopped share of queue q on core c at
2^66 + (2^14·q + c)·2^18 (R249, R622). Far memory lies at its port's window whatever the interleave (`devFlat`). -/

/-- First flat address of a core's tile memory. -/
def tileFlat (core off : Nat) : Nat := 2 ^ 52 + core * 2 ^ 20 + off

/-- First flat address of a wing's memory. -/
def wingFlat (wing off : Nat) : Nat := 2 ^ 53 + wing * 2 ^ 26 + off

/-- A host physical address. -/
def hostFlat (a : Nat) : Nat := 2 ^ 64 + a

/-- Whether an unlisted byte reads as zero: stacked memory (R299), tile and wing memory (Table 7.2). -/
def zeroAt (a : Nat) : Bool := a < 0x050000000000 || (2 ^ 52 ≤ a && a < 2 ^ 64) || 2 ^ 66 ≤ a

/-- First flat address of the accumulators that a queue's share holds for a core, laid out as its per-core block (R249). -/
def accFlat (q core : Nat) : Nat := 2 ^ 66 + (q * 2 ^ 14 + core) * 2 ^ 18

/-- What an unlisted address reads as: zero in the panel's own memories, a free byte in far devices and in the host. -/
def memDefault (a : Nat) : Byte := if zeroAt a then 0 else Config.outsideByte a

/-- One byte of memory. -/
def memByte (m : List Host.Cell) (a : Nat) : Byte := ((kfind m a).getD (memDefault a))

/-- Store one byte, keeping the canonical form. -/
def memPut (m : List Host.Cell) (a : Nat) (b : Byte) : List Host.Cell :=
  if zeroAt a && b == 0 then kdel m a else kput m a b

/-- Store bytes from an address on. -/
def memPutList : List Host.Cell → Nat → List Byte → List Host.Cell
  | m, _, [] => m
  | m, a, b :: l => memPutList (memPut m a b) (a + 1) l

/-- Bytes [a, a + n). -/
def memBytes (m : List Host.Cell) : (a n : Nat) → List Byte
  | _, 0 => []
  | a, n + 1 => memByte m a :: memBytes m (a + 1) n

/-- The canonical form: addresses strictly rise, and no zero is listed where an unlisted byte reads as zero. -/
def Memory.wf : List Host.Cell → Bool
  | [] => true
  | [(a, b)] => !(zeroAt a && b == 0)
  | (a, b) :: (a', b') :: m => a < a' && !(zeroAt a && b == 0) && Memory.wf ((a', b') :: m)

/-- Size of the error unit at an address: 8-byte words on the die (R257), 64-byte units elsewhere (R292, R308). -/
def eccSize (a : Nat) : Nat := if 2 ^ 52 ≤ a ∧ a < 2 ^ 64 then 8 else 64

/-- First address of the error unit that holds an address. -/
def eccUnit (a : Nat) : Nat := a / eccSize a * eccSize a

/-- The error units that a run of bytes touches, without repeats, rising. -/
def unitsOf : (a n : Nat) → List Nat
  | _, 0 => []
  | a, n + 1 => setIns (unitsOf (a + 1) n) (eccUnit a)

/-- Whether a run of bytes covers a whole error unit. -/
def covers (a n u : Nat) : Bool := a ≤ u && u + eccSize u ≤ a + n

/-- Store a run of bytes: covered units lose every error (R258, R294); the others keep their marks. -/
def memStore (s : State) (a : Nat) (bs : List Byte) : State :=
  let us := unitsOf a bs.length
  { s with
    mem := memPutList s.mem a bs
    ue := s.ue.filter fun u => !(us.contains u && covers a bs.length u)
    ce := s.ce.filter fun u => !(us.contains u && covers a bs.length u) }

/-- Zero a range of the panel's own memory with valid check bits (Table 7.2, R299). -/
def zeroRange (s : State) (lo n : Nat) : State :=
  { s with
    mem := s.mem.filter fun c => !(lo ≤ c.1 && c.1 < lo + n)
    ue := s.ue.filter fun u => !(lo ≤ u && u < lo + n)
    ce := s.ce.filter fun u => !(lo ≤ u && u < lo + n) }

/-! ### Events (R551, R552, R555) -/

/-- Source number of event k of die d (Table 17.1, Table 17.2). -/
def srcDie (d k : Nat) : Nat := 0x100 + 16 * d + k

/-- Source number of event k of optical engine n. -/
def srcOpt (n k : Nat) : Nat := 0x040 + 8 * n + k

/-- Whether bit j of a word is set. -/
def bitOn (w j : Nat) : Bool := w / 2 ^ j % 2 == 1

/-- Set bit j of a word. -/
def bitSet (w j : Nat) : Nat := if bitOn w j then w else w + 2 ^ j

/-- Clear bit j of a word. -/
def bitClr (w j : Nat) : Nat := if bitOn w j then w - 2 ^ j else w

/-- The number of set bits among the low n. -/
def popCount : (n w : Nat) → Nat
  | 0, _ => 0
  | n + 1, w => w % 2 + popCount n (w / 2)

/-- Set a source's pending bit. -/
def pendSource (s : State) (src : Nat) : State := wr s EVT_PEND.pending (src / 64) (bitSet (rd s EVT_PEND.pending (src / 64)) (src % 64))

/-- A block raises a shared source: the origin latch is set, and pending when the latch was 0 (R551, R552). -/
def raise (s : State) (src : Nat) : State :=
  let w := rd s EVT_LEVEL.latched (src / 64)
  if bitOn w (src % 64) then s
  else pendSource (wr s EVT_LEVEL.latched (src / 64) (bitSet w (src % 64))) src

/-- Raise a source under a condition. -/
def raiseIf (c : Bool) (s : State) (src : Nat) : State := if c then raise s src else s

/-- Send the MSI-X message of a vector through the home port, or leave it in that port's pending-bit array (R603). -/
def sendMsix (s : State) (v : Nat) : State :=
  let p := rd s PNL_HUB_ROLE.primary
  let m := kget s.msix p ⟨false, [], []⟩
  if m.enabled && m.unmasked.contains v then emit s (.msix v) else { s with msix := kput s.msix p { m with pba := setIns m.pba v } }

/-! ### Unit states (R31, R45 to R50) -/

/-- State of a unit entry (Table 1.8). -/
def unitState (s : State) (u : Nat) : Nat := rd s PNL_UNIT_DATA.state u

/-- ENABLED or RETIRE_PENDING: in service. -/
def unitInService (s : State) (u : Nat) : Bool := unitState s u == 1 || unitState s u == 3

/-- Whether a die site is active (R31). -/
def dieActive (s : State) (d : Nat) : Bool := d < 40 && unitInService s d

/-- PNL_DIE_ACTIVE.mask. -/
def dieMask (s : State) : Nat := ((List.range 40).filter (dieActive s)).foldl (fun m d => m + 2 ^ d) 0

/-- Whether a stack is excluded by R287. -/
def stackExcluded (s : State) (w : Nat) : Bool := !(unitInService s (40 + w) && dieActive s (w / 2))

/-- An entry's generation advances, and with it the generation of the table in both views (R45, R49, R491). -/
def bumpUnit (s : State) (u : Nat) : State :=
  incWrap (incWrap (incWrap s PNL_UNIT_DATA.generation u) MGMT_VIEW.unit_gen) DATA_VIEW.unit_gen

/-- Change a unit entry: state, origin, and one more generation (R45, R49). -/
def setUnit (s : State) (u state origin : Nat) : State :=
  bumpUnit (wr (wr s PNL_UNIT_DATA.state u state) PNL_UNIT_DATA.origin u origin) u

/-- The panel marks a unit for retirement on its own (Table 1.9): origin automatic. -/
def retireMark (s : State) (u : Nat) : State := if unitState s u == 1 then setUnit s u 3 1 else s

/-! ### Links and their ends (R28, R29, R46) -/

/-- What a link joins a die to: a site of another die, a hub, or nothing. -/
inductive LinkEnd where
  | site (n : Nat)
  | hub (h : Nat)
  | none
  deriving DecidableEq, Repr

/-- The other end of link site 4·d + e (R28, R29). -/
def linkOther (n : Nat) : LinkEnd :=
  let d := n / 4
  match n % 4 with
  | 0 => if 8 ≤ d then .site (4 * (d - 8) + 2) else .none
  | 1 => if d % 8 = 7 then .hub 1 else .site (4 * (d + 1) + 3)
  | 2 => if d < 32 then .site (4 * (d + 8)) else .none
  | _ => if d % 8 = 0 then .hub 0 else .site (4 * (d - 1) + 1)

/-- The unit that records the link of a site (R46). -/
def linkUnit (n : Nat) : Nat :=
  match n % 4, linkOther n with
  | 0, .site m => 120 + m
  | 3, .site m => 120 + m
  | _, _ => 120 + n

/-- The sites of a link, this end first: two, or one for a link to a hub. -/
def linkSites (n : Nat) : List Nat := match linkOther n with | .site m => [n, m] | _ => [n]

/-- The two receivers of a link, this end first. The hub end of a link of site n, which the spec gives no register window, is kept as number
160 + n (DESIGN CHOICE, log 123). -/
def linkEnds (n : Nat) : List Nat := match linkOther n with | .site m => [n, m] | .hub _ => [n, 160 + n] | .none => [n]

/-- The sites that have a link (R29, R42). -/
def linkExists (n : Nat) : Bool := linkOther n != .none

/-- Units that record a link (R46). -/
def linkUnits : List Nat := (((List.range 160).filter linkExists).map linkUnit).foldl setIns []

/-- States of TCN_STATUS. -/
def tcnDown : Nat := 1
def tcnTraining : Nat := 2
def tcnUp : Nat := 3
def tcnOut : Nat := 4

/-- Whether both dies of a link are active, or its die is and the hub at its other end is not RETIRED (R31, R49). -/
def linkLive (s : State) (n : Nat) : Bool :=
  (linkSites n).all (fun m => dieActive s (m / 4)) && (match linkOther n with | .hub h => unitState s (304 + h) != 4 | _ => true)

/-- The number of a lane group of a site. -/
def grpIdx (n g : Nat) : Nat := 16 * n + g

/-- What a lane test finds wrong with a group, and the group's spares once used (R317, R318): whether it works, lanes spared, and for
each spare whether it failed and the data lane it carries (127 none). -/
structure GroupRepair where
  works : Bool
  spared : Nat
  fail0 : Bool
  for0 : Nat
  fail1 : Bool
  for1 : Nat
  deriving DecidableEq, Repr

/-- A group with both spares unused. -/
def groupFresh : GroupRepair := ⟨true, 0, false, 127, false, 127⟩

/-- Store a repair of a group of the receive direction of a site. -/
def putRepair (s : State) (n g : Nat) (r : GroupRepair) (ctrl : Bool) : State :=
  let i := grpIdx n g
  let b (x : Bool) : Nat := if x then 1 else 0
  let s := wr (wr s TCN_REPAIR.spare0_failed i (b r.fail0)) TCN_REPAIR.spare0_for i r.for0
  let s := wr (wr s TCN_REPAIR.spare1_failed i (b r.fail1)) TCN_REPAIR.spare1_for i r.for1
  if ctrl then wr s TCN_REPAIR.ctrl_fail i 1 else s

/-- Both ends' state, groups in service and reported width. -/
def showLink (s : State) (n state mask : Nat) : State :=
  (linkSites n).foldl (fun s m => wr (wr (wr s TCN_STATUS.state m state) TCN_STATUS.active_mask m mask) TCN_STATUS.width m (popCount 16 mask)) s

/-- Release a link to train from scratch (R322): both repair maps are discarded; the link of an inactive die stays DOWN. -/
def startTraining (s : State) (n : Nat) (full : Bool) : State :=
  if !linkExists n then s
  else if !linkLive s n || !unitInService s (linkUnit n) then
    (linkSites n).foldl (fun s m => if dieActive s (m / 4) then wr (wr (wr s TCN_STATUS.state m tcnDown) TCN_STATUS.width m 0) TCN_STATUS.active_mask m 0 else s) s
  else
    let s := showLink s n tcnTraining 0
    let s := (linkEnds n).foldl (fun s m =>
      let s := (List.range 16).foldl (fun s g => wr (wr (putRepair s m g groupFresh false) TCN_REPAIR.ctrl_fail (grpIdx m g) 0) TCN_REPAIR.retired (grpIdx m g) 0) s
      { s with
        tcnLost := kdel s.tcnLost m, lowLanes := s.lowLanes.filter (· / 2048 != m)
        tcnFails := s.tcnFails.filter fun e => e.1 / 16 != m
        tcnTests := s.tcnTests.filter fun e => e / 16 != m }) s
    let u := linkUnit n
    { s with tcnFull := if full then setIns s.tcnFull u else s.tcnFull.filter (· != u) }

/-! ### Power states (Tables 1.4 and 15.7) -/

/-- Restart a die's tick as the die leaves D3, with its stacks initialised and zeroed and its links trained (R572, Table 15.7, R303). -/
def dieLeaveOff (s : State) (d : Nat) : State :=
  let s := { s with ticks := kput s.ticks d 0 }
  let s := [4 * d, 4 * d + 1, 4 * d + 2, 4 * d + 3].foldl (fun s n => startTraining s n false) s
  [2 * d, 2 * d + 1].foldl (fun s w =>
    if stackExcluded s w || rd s STK_STATUS.state w == 4 then s
    else if on s STK_CTL.bringup w then wr s STK_STATUS.state w 5
    else wr (zeroRange s (w * 2 ^ 36) (2 ^ 36)) STK_STATUS.state w 2) s

/-- The shallowest state that the panel's own state allows a die (Table 1.4, R39): D3 in P3, D2 in P2 and on the way there; a wake has
ended that. -/
def dieFloor (s : State) : Nat :=
  if s.pw.offP3 then 3
  else if (rd s PWR_PSTATE.current == 2 || on s PWR_PSTATE.busy) && !s.th.waking then 2
  else 0

/-- A die wakes at least to state n (0 D0, 1 D1), as far as the panel's state allows it (R38). -/
def wakeDie (s : State) (d n : Nat) : State :=
  let st := rd s DIE_STATUS.die_state d
  -- an inactive die is not powered (R31); work never wakes a tripped die, nor one that is shut down (R535, R540)
  if st ≤ n || !dieActive s d || n < dieFloor s || bitOn (rd s THM_TRIP.dies) d || bitOn (rd s THM_SHUT.dies) d then s
  else
    let s := if st == 3 then dieLeaveOff s d else s
    -- self-refresh ends as the die leaves D2 (R301)
    let s := if st == 2 then [2 * d, 2 * d + 1].foldl (fun s w => if rd s STK_STATUS.state w == 3 then wr s STK_STATUS.state w 2 else s) s else s
    wr s DIE_STATUS.die_state d n

/-- The refresh interval in force of a wing: the smaller of automatic and cap (R261); 0 in W3. Byte a of DIE_REFRESH. -/
def putRefresh (s : State) (wing v : Nat) : State :=
  let d := wing / 4
  let a := wing % 4
  let w := rd s DIE_REFRESH.interval d
  wr s DIE_REFRESH.interval d (w - w / 2 ^ (8 * a) % 256 * 2 ^ (8 * a) + v % 256 * 2 ^ (8 * a))

/-- Set the interval in force from the automatic interval and the cap. -/
def setRefresh (s : State) (wing : Nat) : State :=
  if rd s WNG_STATUS.state wing == 3 then putRefresh s wing 0
  else putRefresh s wing (min (kget s.wingAuto wing 100) (rd s DIE_MEM_CTL.refresh_cap (wing / 4)))

/-- The hottest reading of the 4 die sensors that lie in a wing (Table 16.1, R120). -/
def wingHottest (s : State) (wing : Nat) : Nat := (List.range 4).foldl (fun t j => max t (rd s THM_DATA.reading (4 * wing + j))) 0

/-- The automatic interval that a reading of the hottest sensor leads to, from the one in force (Table 7.1, R261). -/
def autoRefresh (now t : Nat) : Nat :=
  let want := if 100 < t then 32 else if 85 < t then 64 else 100
  if want ≤ now then want
  -- a longer interval only 4 K below the threshold
  else
    let back := if 96 < t then 32 else if 81 < t then 64 else 100
    max now back

/-- A wing's refresh follows the hottest of its sensors (R120, R261). -/
def followHeat (s : State) (wing : Nat) : State :=
  setRefresh { s with wingAuto := kput s.wingAuto wing (autoRefresh (kget s.wingAuto wing 100) (wingHottest s wing)) } wing

/-- A wing enters a power state. As it leaves W0 its replica stops: the rate reads 0 and the present interval is discarded (R127, R133). -/
def setWing (s : State) (wing st : Nat) : State :=
  let s :=
    if rd s WNG_STATUS.state wing == 0 && st != 0 then wr { s with beatLeft := setIns s.beatLeft wing } DIE_BEAT_RATE.rate wing 0 else s
  wr s WNG_STATUS.state wing st

/-- Ceiling of a wing (R513), mV. -/
def wingCeil (s : State) (wing : Nat) : Nat :=
  max 550 (min (rd s PWR_CTL.v_max) (min (kget s.pw.thrCeil wing 900) (kget s.pw.capCeil wing 900)))

/-- The voltage that a wing's request and ceiling give (R513), in the regulator's steps of 5 mV: what is no whole number of steps is cut to the step
below (R505; DESIGN CHOICE, log 138). The optimiser's first request is 750 mV. -/
def wingVolt (s : State) (wing : Nat) : Nat :=
  min (wingCeil s wing) (if on s PWR_CTL.vopt_en then kget s.pw.wingReq wing 750 else rd s WNG_CTL.v_manual wing) / 5 * 5

/-- A wing wakes at least to state n; leaving W3 zeroes its memory (Table 7.2). -/
def wakeWing (s : State) (wing n : Nat) : State :=
  let st := rd s WNG_STATUS.state wing
  if st ≤ n || bitOn (rd s THM_TRIP.dies) (wing / 4) || bitOn (rd s THM_SHUT.dies) (wing / 4) then s
  else
    let s := wakeDie s (wing / 4) n
    -- never shallower than its die allows (R38)
    if n < rd s DIE_STATUS.die_state (wing / 4) then s
    else
      let s := if st == 3 then wr (zeroRange s (wingFlat wing 0) (2 ^ 26)) WNG_STATUS.v_now wing (wingVolt s wing) else s
      setRefresh (setWing s wing n) wing

/-- The power state of a cluster, and of a core: unlisted it is idle, or as deep as what holds it. U3 and K3 are entered only on request, or
with their wing (R519, Table 1.4). -/
def clusPowOf (s : State) (cl : Nat) : Nat := (kfind s.clusPow cl).getD (max 1 (rd s WNG_STATUS.state (cl / 8)))
def corePowOf (s : State) (c : Nat) : Nat := (kfind s.corePow c).getD (max 1 (clusPowOf s (c / 8)))

/-- A cluster wakes at least to state n. -/
def wakeCluster (s : State) (cl n : Nat) : State :=
  if clusPowOf s cl ≤ n || bitOn (rd s THM_TRIP.dies) (cl / 32) || bitOn (rd s THM_SHUT.dies) (cl / 32) then s
  else
    let s := wakeWing s (cl / 8) n
    if n < rd s WNG_STATUS.state (cl / 8) then s else { s with clusPow := kput s.clusPow cl n }

/-- A dispatch or an incoming request returns the panel from P1 to P0 (R520). -/
def wakePanel (s : State) : State :=
  if rd s PWR_PSTATE.current == 1 then wr (wr s PWR_PSTATE.current 0 0) PWR_PSTATE.target 0 0 else s

/-- A core wakes to U0 for dispatched work; leaving U3 zeroes its tile memory (R185, R518, Table 7.2). -/
def wakeCore (s : State) (core : Nat) : State :=
  let st := corePowOf s core
  if st == 0 || bitOn (rd s THM_TRIP.dies) (core / 256) || bitOn (rd s THM_SHUT.dies) (core / 256) then s
  else
    let s := wakeCluster (wakePanel s) (core / 8) 0
    if 0 < clusPowOf s (core / 8) then s
    else
      let s := if st == 3 then zeroRange s (tileFlat core 0) (2 ^ 20) else s
      { s with corePow := kput s.corePow core 0 }

/-- An access to the tile memory of a core that holds no work brings it to U1, where the memory is accessible; leaving U3 zeroes it first
(Table 7.2). -/
def wakeTile (s : State) (core : Nat) : State :=
  let st := corePowOf s core
  if st < 2 || bitOn (rd s THM_TRIP.dies) (core / 256) || bitOn (rd s THM_SHUT.dies) (core / 256) then s
  else
    let s := wakeCluster s (core / 8) 1
    if 1 < clusPowOf s (core / 8) then s
    else
      let s := if st == 3 then zeroRange s (tileFlat core 0) (2 ^ 20) else s
      { s with corePow := kput s.corePow core 1 }

/-! ### Places in the device physical address map (Table 8.2, R286, R287, R307) -/

/-- What lies at a device physical address. -/
inductive Place where
  | hole
  /-- a stack that R287 excludes -/
  | excluded
  | stack (w : Nat)
  | far (f : Nat)
  deriving DecidableEq, Repr

/-- Mapped bytes of a far port (R305). -/
def farCap (s : State) (f : Nat) : Nat := rd s FAR_PORT_STATUS.capacity f * 2 ^ 28

/-- The far port that a far-tier offset maps to (R307); `n` ports from `base` on. -/
def farSet (s : State) (base n o : Nat) : Place :=
  let c := (List.range n).foldl (fun c i => min c (farCap s (base + i))) (farCap s base)
  if o < n * c then .far (base + o / 4096 % n) else .hole

/-- What lies at a device physical address (Table 8.2). -/
def placeOf (s : State) (a : Nat) : Place :=
  if a < 80 * 2 ^ 36 then
    let w := a / 2 ^ 36
    if rd s STK_INFO.usable w * 1000000 ≤ a % 2 ^ 36 then .hole
    else if stackExcluded s w then .excluded
    else .stack w
  else if a < 2 ^ 51 then .hole
  else if a < 2 ^ 51 + 4 * 2 ^ 42 then
    let o := a - 2 ^ 51
    match rd s FAR_CTL.interleave with
    | 1 => farSet s (o / 2 ^ 43 * 2) 2 (o % 2 ^ 43)
    | 2 => farSet s 0 4 o
    | _ => farSet s (o / 2 ^ 42) 1 (o % 2 ^ 42)
  else .hole

/-- Whether a byte of a region named by its device physical address lies in a hole or an excluded stack: what is read there is uncorrectable
data, what is written is discarded (R621). -/
def regionHole (s : State) (a : Nat) : Bool := match placeOf s a with | .hole => true | .excluded => true | _ => false

/-- Where the byte at a flat address is stored: a far-tier address by its port and device offset (R307). -/
def devFlat (s : State) (a : Nat) : Nat :=
  match (if 2 ^ 51 ≤ a ∧ a < 2 ^ 52 then placeOf s a else .hole) with
  | .far f =>
    let n := match rd s FAR_CTL.interleave with | 1 => 2 | 2 => 4 | _ => 1
    let o := (a - 2 ^ 51) % (n * 2 ^ 42)
    2 ^ 51 + f * 2 ^ 42 + o / (4096 * n) * 4096 + o % 4096
  | _ => a

/-- Whether a far port serves accesses (R308, FAR_CTL.enable, FAR_PORT_CTL.port_en in force). -/
def farServes (s : State) (f : Nat) : Bool :=
  on s FAR_CTL.enable && on s FAR_PORT_STATUS.link_up f && inForce s FAR_PORT_CTL.port_en f == 1 && !s.farMute.contains f

/-! ### The panel's network (R327 to R332) -/

/-- Whether a link is in service (R327). -/
def linkInService (s : State) (n : Nat) : Bool := rd s TCN_STATUS.state n == tcnUp && 8 ≤ rd s TCN_STATUS.width n

/-- The end of a link as a node of the panel: dies 0–39, hubs 40 and 41. -/
def linkNodes (n : Nat) : Nat × Nat :=
  (n / 4, match linkOther n with | .site m => m / 4 | .hub h => 40 + h | .none => n / 4)

/-- The sites of dies with an edge, as node pairs, over a set of link units. -/
def linkPairs (links : List Nat) : List (Nat × Nat) :=
  (links.map fun u => linkNodes (u - 120)).flatMap fun p => [p, (p.2, p.1)]

/-- Distances in hops from a node: the nodes reached so far with their distances, one more hop for each unit of fuel. -/
def hops (pairs : List (Nat × Nat)) : (fuel dist : Nat) → List Nat → KMap Nat → KMap Nat
  | 0, _, _, m => m
  | f + 1, dist, front, m =>
    let next := (pairs.filter fun p => front.contains p.1 && (kfind m p.2).isNone).map (·.2)
    let front' := next.foldl setIns []
    if front'.isEmpty then m else hops pairs f (dist + 1) front' (front'.foldl (fun m v => kput m v (dist + 1)) m)

/-- Hops from every node to a destination. -/
def hopsTo (links : List Nat) (dst : Nat) : KMap Nat := hops (linkPairs links) 42 0 [dst] [(dst, 0)]

/-- The adaptive next node towards a destination (R328): shortest in hops, then east–west before north–south, then the lower number. -/
def adaptiveHop (links : List Nat) (src dst : Nat) : Option Nat :=
  let m := hopsTo links dst
  match kfind m src with
  | some (k + 1) =>
    let cands := ((linkPairs links).filter fun p => p.1 == src && kfind m p.2 == some k).map (·.2) |>.foldl setIns []
    let ew (v : Nat) : Bool := 40 ≤ src || 40 ≤ v || src / 8 == v / 8
    match cands.find? ew with
    | some v => some v
    | none => cands.head?
  | _ => none

/-- The spanning tree of R328: each node's parent, breadth first from H0, dies in ascending number before H1. -/
def treeFrom (pairs : List (Nat × Nat)) : (fuel : Nat) → (queue : List Nat) → KMap Nat → KMap Nat
  | 0, _, m => m
  | _ + 1, [], m => m
  | f + 1, v :: q, m =>
    let kids := (((pairs.filter fun p => p.1 == v).map (·.2)).foldl setIns []).filter fun w => w != 40 && (kfind m w).isNone
    treeFrom pairs f (q ++ kids) (kids.foldl (fun m w => kput m w v) m)

def routeTree (links : List Nat) : KMap Nat := treeFrom (linkPairs links) 43 [40] []

/-- A node and its ancestors in a tree. -/
def upPath (tree : KMap Nat) : (fuel : Nat) → Nat → List Nat
  | 0, v => [v]
  | f + 1, v => v :: (match kfind tree v with | some p => upPath tree f p | none => [])

/-- The escape next node towards a destination (R328): up the tree until the destination lies below, then down. -/
def escapeHop (links : List Nat) (src dst : Nat) : Option Nat :=
  let tree := routeTree links
  let path := upPath tree 42 dst
  if src == dst || !path.contains 40 then none
  else if path.contains src then (path.takeWhile (· != src)).getLast?
  else kfind tree src

/-- Where a packet of the panel's network stands: its node, the node it came from over a link, and whether it is on the escape set. -/
structure Hop where
  node : Nat
  via : Option Nat
  esc : Bool
  deriving DecidableEq, Repr

/-- The receiver of the flits that a link carries from node u to node v: a die's site, or 160 + the die's site at the hub end of a link. -/
def recvEnd (u v : Nat) : Option Nat :=
  (linkUnits.map (· - 120)).findSome? fun n =>
    if linkNodes n == (v, u) then some n
    else if linkNodes n == (u, v) then (match linkOther n with | .site m => some m | .hub _ => some (160 + n) | .none => none)
    else none

/-- Whether a link carries packets from u to v now: it is in service (R327), and not every group in service is held for a lane test (R316). -/
def linkPasses (s : State) (u v : Nat) : Bool :=
  match recvEnd u v with
  | some e => linkInService s (e % 160) && (List.range 16).any fun g => bitOn (rd s TCN_STATUS.active_mask (e % 160)) g && !s.tcnTests.contains (16 * e + g)
  | none => false

/-- Whether a channel of a link holds a credit (R329): each class has an adaptive and an escape channel, whose buffers the spec does not size. -/
def tcnCredit (s : State) (u v cls : Nat) (esc : Bool) : Bool :=
  (s.tcn.filter fun p => p.node == v && p.via == some u && p.pkt.cls == cls && p.esc == esc).length <
    Config.tcnCredits (2 * cls + if esc then 1 else 0) + 1

/-- The next hop of a packet of a class (R327 to R329): by the adaptive entry of the node's table, or on the escape set, which a packet may join
at any node while injection into it is not held and never leaves; none where the packet must wait. -/
def nextHop (s : State) (hold : Bool) (cls dst : Nat) (h : Hop) : Option Hop :=
  let go (esc : Bool) (n : Option Nat) : Option Hop :=
    n.bind fun v => if linkPasses s h.node v && tcnCredit s h.node v cls esc then some ⟨v, some h.node, esc⟩ else none
  if h.esc then go true (escapeHop s.routeLinks h.node dst)
  else (go false (adaptiveHop s.routeLinks h.node dst)).orElse fun _ => if hold then none else go true (escapeHop s.routeLinks h.node dst)

/-- How far a packet comes, hop by hop; before a start-up has loaded tables nothing holds it. -/
def tcnWalk (s : State) (hold : Bool) (cls dst : Nat) : (fuel : Nat) → Hop → Hop
  | 0, h => h
  | f + 1, h =>
    if h.node == dst then h
    else if s.routeLinks.isEmpty then ⟨dst, none, h.esc⟩
    else match nextHop s hold cls dst h with
      | some h' => tcnWalk s hold cls dst f h'
      | none => h

/-- Hops that no route exceeds: every adaptive hop, then up and down the tree. -/
def maxHops : Nat := 128

/-- Whether a request and its reply cross the panel now between two nodes (R327); else the access waits for a link or a new table (R330). -/
def pathOpen (s : State) (a b : Nat) : Bool :=
  (tcnWalk s false 0 b maxHops ⟨a, none, false⟩).node == b && (tcnWalk s false 1 a maxHops ⟨b, none, false⟩).node == a

/-- Engines of a port (Table 10.2). -/
def portEngines (port : Nat) : List Nat :=
  match port with
  | 0 => [20, 21, 22, 23] | 1 => [16, 17, 18, 19] | 2 => [0, 1, 2, 3] | 3 => [8, 9, 10, 11] | _ => [4, 5, 6, 7, 12, 13, 14, 15]

/-- Whether an engine carries traffic (R473): OPT_STATUS.state UP. -/
def engineUp (s : State) (n : Nat) : Bool := rd s OPT_STATUS.state n == 4

/-- The node that an engine sits beside (Table 1.2). -/
def engineNode (n : Nat) : Nat := if n < 8 then n else if n < 16 then 24 + n else if n < 20 then 40 else 41

/-- The engine of a port that takes a packet: one that carries traffic, at the port's free choice. -/
def portEngine (s : State) (port : Nat) : Nat :=
  let es := (portEngines port).filter (engineUp s)
  es.getD (choose s (2 ^ 32 + port) es.length) ((portEngines port).headD 0)

/-! ### Physical accesses -/

/-- Whether die d is shut down by temperature (R533, R535), or tripped (R540). -/
def dieShut (s : State) (d : Nat) : Bool := bitOn (rd s THM_SHUT.dies) d
def dieTripped (s : State) (d : Nat) : Bool := bitOn (rd s THM_TRIP.dies) d

/-- Whether no new share starts on die d: it is shut down, stopping, or in a die reset (R535, R614, Table 16.5). -/
def dieHeld (s : State) (d : Nat) : Bool := dieShut s d || s.th.stopping.contains d

/-- Whether the die or hub that makes the step's accesses has no path to a die or hub (R331). -/
def isCut (s : State) (dest : Nat) : Bool := s.cut.contains (s.srcAt.getD (40 + rd s PNL_HUB_ROLE.primary), dest)

/-- What the panel's network makes of the step's accesses to a die or hub: no path (R331), a path that waits (R330), or one to take. -/
def pathStatus (s : State) (dest : Nat) : Nat :=
  if isCut s dest then stTimeout else if pathOpen s (s.srcAt.getD (40 + rd s PNL_HUB_ROLE.primary)) dest then stOk else stWait

/-- Whether the home port's link carries requests to host memory (R601); from step 1 of a takeover until the roles flip it is down (R610). -/
def homeUp (s : State) : Bool := rd s PNL_HOST_STATUS.rate (rd s PNL_HUB_ROLE.primary) != 0

/-- The port that a COPY or pre-emption access of a host address takes: in DUAL mode the one that bit 12 names, while its link is up; else the
home port (R601, R602). -/
def hostPort (s : State) (a : Nat) : Nat :=
  if on s PNL_HOST_CTL.mode && rd s PNL_HOST_STATUS.rate (a / 2 ^ 12 % 2) != 0 then a / 2 ^ 12 % 2 else rd s PNL_HUB_ROLE.primary

/-- The status that reaching a flat address gives before any data moves: 0, UNCORRECTABLE (R302, R303, R540, R621), TIMEOUT (R308,
R331, R535), or that the access waits: for a shut-down die (R535), for memory that the panel's state holds in D2 or deeper (R38), or for a host
port whose link is down (R602). Host memory lies behind the hub of its port (R331, R601). -/
def reachStatus (s : State) (a : Nat) : Nat :=
  if 2 ^ 64 ≤ a then (if rd s PNL_HOST_STATUS.rate (hostPort s a) == 0 then stWait else pathStatus s (40 + hostPort s a))
  else if 2 ^ 52 ≤ a then
    let d := if 2 ^ 53 ≤ a then (a - 2 ^ 53) / 2 ^ 28 else (a - 2 ^ 52) / 2 ^ 28
    if dieTripped s d then stUncorrectable else if dieShut s d then stTimeout
    else if pathStatus s d != stOk then pathStatus s d
    else if 2 ≤ dieFloor s then stWait else stOk
  else match placeOf s a with
    | .hole => stUncorrectable
    | .excluded => stUncorrectable
    | .stack w =>
      if dieTripped s (w / 2) || rd s STK_STATUS.state w == 4 || rd s STK_STATUS.state w == 5 then stUncorrectable
      else if pathStatus s (w / 2) != stOk then pathStatus s (w / 2)
      else if dieShut s (w / 2) || (2 ≤ dieFloor s && 2 ≤ rd s DIE_STATUS.die_state (w / 2)) then stWait else stOk
    | .far f => if farServes s f then pathStatus s (40 + f / 2) else stTimeout

/-- An access wakes what must be awake: a die in D2 for its stacks (R301), a wing for its memory (R265), a core for its tile memory (Table 7.2). -/
def touch (s : State) (a : Nat) : State :=
  if 2 ^ 64 ≤ a then s
  else if 2 ^ 53 ≤ a then wakeWing s ((a - 2 ^ 53) / 2 ^ 26) 1
  else if 2 ^ 52 ≤ a then wakeTile s ((a - 2 ^ 52) / 2 ^ 20)
  else match placeOf s a with
    | .stack w => if 2 ≤ rd s DIE_STATUS.die_state (w / 2) then wakeDie s (w / 2) 1 else s
    | .far f => if farServes s f then s else incSat { s with farMute := s.farMute.erase f } FAR_PORT_ERR.timeouts f
    | _ => s

/-- The row of a stack that holds a flat address (R288): stack, pseudo-channel, bank, row in one number. -/
def rowOf (a : Nat) : Nat :=
  let sw := a % 2 ^ 36 / 512
  let l := sw / 64
  ((a / 2 ^ 36 * 64 + sw % 64) * 32 + l / 2 % 32) * 2 ^ 16 + l / 64

/-- The channel of a row: 32 channels to a stack (R288). -/
def rowChan (r : Nat) : Nat := r / 2 ^ 22

/-- Keep the watch list to the 256 most recently erring rows of a channel (R296). -/
def capRows (ch : Nat) : Nat → List (Nat × Nat) → List (Nat × Nat)
  | _, [] => []
  | n, e :: l =>
    if rowChan e.1 == ch then
      match n with
      | 0 => capRows ch 0 l
      | n + 1 => e :: capRows ch n l
    else e :: capRows ch n l

/-- A row is due for a remap (R296). -/
def dueRow (s : State) (row cause : Nat) : State :=
  if on s STK_CTL.remap_en (row / 2 ^ 27) && !(s.remapDue.any (·.1 == row)) then { s with remapDue := s.remapDue ++ [(row, cause)] } else s

/-- A row has erred (R296). -/
def rowErr (s : State) (row : Nat) : State :=
  let n := ((s.rowWatch.find? (·.1 == row)).map (·.2)).getD 0 + 1
  let s := { s with rowWatch := capRows (rowChan row) 256 ((row, n) :: s.rowWatch.filter (·.1 != row)) }
  if rd s STK_CTL.ce_remap_threshold (row / 2 ^ 27) ≤ n then dueRow s row 0 else s

/-- A corrected error is counted and repaired (R257, R292). -/
def countCe (s : State) (u : Nat) : State :=
  let s := { s with ce := s.ce.filter (· != u) }
  if 2 ^ 64 ≤ u then s
  else if 2 ^ 53 ≤ u then
    let d := (u - 2 ^ 53) / 2 ^ 28
    raiseIf (on s DIE_MEM_CTL.ce_event_en d) (incSat s DIE_MEM_ECC.wing_ce d) (srcDie d 12)
  else if 2 ^ 52 ≤ u then
    let d := (u - 2 ^ 52) / 2 ^ 28
    raiseIf (on s DIE_MEM_CTL.ce_event_en d) (incSat s DIE_MEM_ECC.tile_ce d) (srcDie d 12)
  else
    let w := u / 2 ^ 36
    if w < 80 then rowErr (raiseIf (on s STK_CTL.ce_event_en w) (incSat s STK_ECC.ce w) (srcDie (w / 2) 13)) (rowOf u) else s

/-- A write that covers part of a unit merges into the corrected stored unit (R258, R290): a correctable error there is counted, and an
uncorrectable unit of a stack makes its row due for a remap (R296). Nothing is reported. -/
def mergeUnit (s : State) (u : Nat) : State :=
  if s.ue.contains u then (if u < 80 * 2 ^ 36 then dueRow s (rowOf u) 1 else s)
  else if s.ce.contains u then countCe s u else s

/-- Write a run of bytes: units covered in part are merged, units covered whole lose every error (R258, R290, R294). -/
def memWrite (s : State) (a : Nat) (bs : List Byte) : State :=
  memStore (((unitsOf a bs.length).filter fun u => !covers a bs.length u).foldl mergeUnit s) a bs

/-- An uncorrectable word or unit is counted, recorded and raised (R257, R293, R308). `patrol` tells its finder (R295). -/
def countUe (s : State) (u : Nat) (patrol : Bool := false) : State :=
  if 2 ^ 64 ≤ u then s
  else if 2 ^ 52 ≤ u then
    let wing : Bool := 2 ^ 53 ≤ u
    let d := if wing then (u - 2 ^ 53) / 2 ^ 28 else (u - 2 ^ 52) / 2 ^ 28
    let s := if wing then incSat s DIE_MEM_ECC.wing_ue d else incSat s DIE_MEM_ECC.tile_ue d
    let s := wr s DIE_MEM_LAST_UE.valid d 1
    let s := wr s DIE_MEM_LAST_UE.memory d (if wing then 1 else 0)
    let s := wr s DIE_MEM_LAST_UE.unit d (if wing then (u - 2 ^ 53) / 2 ^ 26 % 4 else (u - 2 ^ 52) / 2 ^ 20 % 256)
    let s := wr s DIE_MEM_LAST_UE.offset d (if wing then u % 2 ^ 26 else u % 2 ^ 20)
    raiseIf (on s DIE_MEM_CTL.ue_event_en d) s (srcDie d 2)
  else if 2 ^ 51 ≤ u then incSat s FAR_PORT_ERR.poisoned ((u - 2 ^ 51) / 2 ^ 42)
  else
      let w := u / 2 ^ 36
      if w < 80 then
        let s := dueRow s (rowOf u) 1
        let s := incSat s STK_ECC.ue w
        let s := wr s STK_LAST_UE.valid w 1
        let s := wr s STK_LAST_UE.source w (if patrol then 1 else 0)
        let s := wr s STK_LAST_UE.offset w (u % 2 ^ 36)
        raiseIf (on s STK_CTL.ue_event_en w) s (srcDie (w / 2) 4)
      else s

/-- Read errors of a run of bytes: corrected ones repaired and counted; the status is UNCORRECTABLE if any unit is (R257, R293). -/
def eccRead (s : State) (a n : Nat) : State × Nat :=
  (unitsOf a n).foldl (fun (s, st) u =>
    if s.ue.contains u then (countUe s u, stUncorrectable)
    else if s.ce.contains u then (countCe s u, st) else (s, st)) (s, stOk)

/-- Whether the host holds a line of a run of bytes of stacked memory in its caches (R607). -/
def snoopHeld (s : State) (a n : Nat) : Bool := s.hst.snoop.any fun l => l.1 < a + n && a < l.1 + 64

/-- Recall from the host the lines of a run that it holds (R607): the access waits until they have come back. -/
def callBack (s : State) (a n : Nat) : State :=
  let hit (l : Nat × Bool) : Bool := l.1 < a + n && a < l.1 + 64
  let s' := (s.hst.snoop.filter fun l => hit l && !l.2).foldl (fun s l => emit s (.bisnp l.1)) s
  { s' with hst.snoop := s.hst.snoop.map fun l => if hit l then (l.1, true) else l }

/-- What one physical read gives. -/
structure Got where
  s : State
  status : Nat
  data : List Byte

/-- Read n bytes at a flat address, all within one page. -/
def readFlat (s : State) (a n : Nat) : Got :=
  if snoopHeld s a n then ⟨callBack s a n, stWait, []⟩ else
  let st := reachStatus s a
  let s := if st == stWait then s else touch s a
  if st != stOk then ⟨s, st, []⟩
  else
    let (s, st) := eccRead s (devFlat s a) n
    ⟨s, st, memBytes s.mem (devFlat s a) n⟩

/-- Write bytes at a flat address for a command of a queue: far-tier writes are posted (R309); a write to a hole is discarded (R621). -/
def writeFlat (s : State) (q idx a : Nat) (bs : List Byte) : State × Nat :=
  if snoopHeld s a bs.length then (callBack s a bs.length, stWait) else
  let st := reachStatus s a
  if st == stWait then (s, st)
  else
  let s := touch s a
  if st != stOk then (s, st)
  else if 2 ^ 52 ≤ a then (memWrite s a bs, stOk)
  else match placeOf s a with
    | .far f => ({ s with farWrites := s.farWrites ++ [⟨f, q, idx, devFlat s a, bs, []⟩] }, stOk)
    | _ => (memWrite s a bs, stOk)

end Sys2Proof.Machine
end

