-- ==== Sys2Proof/Machine/Xlate.lean ====
section
/-!
DEFINITION. Address translation (file 06, R216 to R229): page-table walks, translation caches, invalidation.
-/

namespace Sys2Proof.Machine

/-- Bits of an address that a level indexes: shift and table entries (Table 6.1). -/
def levelShift (l : Nat) : Nat := 12 + 9 * l

/-- Index of an address at a level (Table 6.1). -/
def levelIndex (l va : Nat) : Nat := va / 2 ^ levelShift l % (if l = 3 then 2 ^ 13 else 2 ^ 9)

/-- Page size of a leaf at a level (Table 6.1, R220). -/
def leafSize (l pte : Nat) : Nat := if l = 0 then (if bitOn pte 5 then 2 ^ 16 else 2 ^ 12) else 2 ^ levelShift l

/-- The address field of an entry, bits [51:12] in place (Table 6.2). -/
def pteAddr (pte : Nat) : Nat := pte / 2 ^ 12 % 2 ^ 40 * 2 ^ 12

/-- Flat address of a physical address in panel (loc 0) or host memory (loc 1). -/
def locFlat (loc : Bool) (a : Nat) : Nat := if loc then hostFlat a else a

/-- Whether a page lies wholly in usable memory (R287). -/
def pageUsable (s : State) (a size : Nat) : Bool :=
  match placeOf s a, placeOf s (a + size - 1) with
  | .stack w, .stack w' => w == w'
  | .far _, .far _ => true
  | _, _ => false

/-- R219 for one valid-looking entry at a level: whether the walk ends in FAULT_PAGE at it. Bit 5 (c64) of an entry of levels 1 to 3 is
ignored: Table 6.2 gives it for level 0 only and R219 names no test of it there (DESIGN CHOICE, log 107). -/
def pteBad (l pte : Nat) : Bool :=
  !bitOn pte 0 || pte / 2 ^ 7 % 2 ^ 5 != 0 || (l == 3 && bitOn pte 1) || (l == 0 && !bitOn pte 1) ||
  (bitOn pte 1 && pteAddr pte % leafSize l pte != 0)

/-- Access kinds of R221. -/
def accRead : Nat := 0
def accWrite : Nat := 1
def accAtomic : Nat := 2

/-- Whether a leaf's permission bits allow an access (R221). -/
def pteAllows (pte kind : Nat) : Bool :=
  if kind == 0 then bitOn pte 2
  else if kind == 1 then bitOn pte 3
  else bitOn pte 2 && bitOn pte 3 && bitOn pte 4

/-- What a translation gives: the flat address, or a status other than OK. -/
structure Xl where
  s : State
  status : Nat
  flat : Nat

/-- What a leaf gives an access: FAULT_PAGE by R287, FAULT_PERM by R221, or the flat address. -/
def leafResult (s : State) (l pte va kind : Nat) : Nat × Nat :=
  let size := leafSize l pte
  if !bitOn pte 6 && !pageUsable s (pteAddr pte) size then (stFaultPage, 0)
  else if !pteAllows pte kind then (stFaultPerm, 0)
  else (stOk, locFlat (bitOn pte 6) (pteAddr pte + va % size))

/-- The entry of one translation cache that an access to an address of a job uses, if it does not walk: entries read at different times may
both cover it, and which serves, or that none does, is open (R228). `i` tells the choice from the step's others. -/
def tcFind (s : State) (cache job va : Nat) (leaf : Bool) (level i : Nat) : Option TcEntry :=
  let es := s.tcs.filter fun e => e.cache == cache && e.job == job && e.leaf == leaf && (leaf || e.level == level) &&
    e.base ≤ va && va < e.base + e.size
  if on s XLT_CTL.tc_en then es[choose s i (es.length + 1)]? else none

/-- Leaf entries of a cache: 512 in a cluster, 256 on the primary hub; 64 walk-cache entries. -/
def tcLimit (cache : Nat) (leaf : Bool) : Nat := if leaf then (if cache < 1280 then 512 else 256) else 64

/-- Make room in one cache for one more entry of a kind: which entry a full cache drops is open (R228). -/
def tcRoom (s : State) (cache : Nat) (leaf : Bool) (l : List TcEntry) : List TcEntry :=
  let mine := l.filter fun e => e.cache == cache && e.leaf == leaf
  if mine.length < tcLimit cache leaf then l
  else match mine[choose s 9 mine.length]? with
    | some e => l.erase e
    | none => l

/-- Hold a valid entry (R225); an older one of the same page may stay beside it until an invalidation (R228). -/
def tcHold (s : State) (e : TcEntry) : State :=
  if !on s XLT_CTL.tc_en || s.tcs.contains e then s else { s with tcs := e :: tcRoom s e.cache e.leaf s.tcs }

/-- Read one page-table entry: its value, or a status other than OK. The host may answer a read of a table there with an error, or not
within 1 ms, as it cannot while the home port's link is down: the read then gives UNCORRECTABLE, as an uncorrectable unit does (R224, R601). -/
def readPte (s : State) (loc : Bool) (a : Nat) : State × Nat × Nat :=
  if loc && (!homeUp s || choose s 10 2 == 1) then (s, stUncorrectable, 0)
  else
    let g := readFlat s (locFlat loc a) 8
    (g.s, g.status, leNat g.data)

/-- R220: whether the 16 entries of a 64 KiB group differ although one of them has c64 set. -/
def groupDiffers (s : State) (loc : Bool) (table va : Nat) : Bool :=
  let base := devFlat s (locFlat loc (table + levelIndex 0 va / 16 * 128))
  let es := (List.range 16).map fun i => leNat (memBytes s.mem (base + 8 * i) 8)
  es.any (bitOn · 5) && es.any (· != es.headD 0)

/-- One step of a walk and the levels below it (R217, R219): `l + 1` levels are left. -/
def walk (cache job va kind : Nat) : (l : Nat) → (loc : Bool) → (table : Nat) → State → Xl
  | l, loc, table, s =>
    -- a valid entry read earlier may serve in place of the table's own, as long as no invalidation covers it (R225, R228)
    let cached := if l = 0 then none else tcFind s cache job va false l l
    let idx :=
      if l = 0 && groupDiffers s loc table va then levelIndex 0 va / 16 * 16 + choose s 7 16 else levelIndex l va
    let r : State × Nat × Nat :=
      match cached with
      | some e => (s, stOk, e.pte)
      | none => readPte s loc (table + 8 * idx)
    match r with
    | (s, st, pte) =>
      if st != stOk then ⟨s, st, 0⟩
      else if pteBad l pte then ⟨s, stFaultPage, 0⟩
      else if bitOn pte 1 then
        let size := leafSize l pte
        let (st, flat) := leafResult s l pte va kind
        let s := if st == stFaultPage then s else tcHold s ⟨cache, job, l, true, va / size * size, size, pte⟩
        ⟨s, st, flat⟩
      else
        match l with
        | 0 => ⟨s, stFaultPage, 0⟩
        | l' + 1 =>
          let span := 2 ^ levelShift (l' + 1)
          let s := tcHold s ⟨cache, job, l' + 1, false, va / span * span, span, pte⟩
          walk cache job va kind l' (bitOn pte 6) (pteAddr pte) s

/-- A translation of a device virtual address in a job, through one translation cache (R216 to R228). -/
def translate (s : State) (cache job va kind : Nat) : Xl :=
  if 2 ^ 52 ≤ va || !on s XLT_JOB_ROOT.enable job then ⟨s, stFaultPage, 0⟩
  else
    let go : State → Xl := fun s =>
      let s := if on s XLT_CTL.tc_en then incWrap s XLT_MISSES.misses else s
      walk cache job va kind 3 (on s XLT_JOB_ROOT.root_loc job) (rd s XLT_JOB_ROOT.root job * 2 ^ 16) s
    let r : Xl :=
      match tcFind s cache job va true 0 8 with
      | some e =>
        let (st, flat) := leafResult s e.level e.pte va kind
        ⟨s, st, flat⟩
      | none => go s
    { r with s := bumpFree r.s }

/-- Runs of flat bytes that a range of device virtual addresses translates to, or where it fails. -/
structure Runs where
  s : State
  status : Nat
  /-- address of the failing access -/
  va : Nat
  runs : List (Nat × Nat)

/-- Translate the pages of [va, va + n) in order; `fuel` bounds the pages. -/
def xlRuns (cache job kind : Nat) : (fuel : Nat) → (va n : Nat) → State → Runs
  | 0, _, _, s => ⟨s, stOk, 0, []⟩
  | fuel + 1, va, n, s =>
    if n = 0 then ⟨s, stOk, 0, []⟩
    else
      let x := translate s cache job va kind
      if x.status != stOk then ⟨x.s, x.status, va, []⟩
      else
        let len := min n (4096 - va % 4096)
        let r := xlRuns cache job kind fuel (va + len) (n - len) x.s
        { r with runs := (x.flat, len) :: r.runs }

/-- Translate a range, whatever its length. -/
def xlRange (s : State) (cache job kind va n : Nat) : Runs := xlRuns cache job kind (n / 4096 + 2) va n s

/-- Read translated runs. -/
def readRuns : List (Nat × Nat) → State → Got
  | [], s => ⟨s, stOk, []⟩
  | (a, n) :: l, s =>
    let g := readFlat s a n
    if g.status != stOk then g
    else
      let r := readRuns l g.s
      { r with data := g.data ++ r.data }

/-- Whether writes of translated runs can be made, before any byte of them is written: the status of the first that cannot. Lines that the host
holds are called back (R607), and a write that a far port does not serve times out (R308). -/
def reachRuns : List (Nat × Nat) → State → State × Nat
  | [], s => (s, stOk)
  | (a, n) :: l, s =>
    if snoopHeld s a n then (callBack s a n, stWait)
    else
      let st := reachStatus s a
      if st == stWait then (s, st) else if st != stOk then (touch s a, st) else reachRuns l s

/-- Write translated runs for a command. -/
def writeRuns (q idx : Nat) : List (Nat × Nat) → List Byte → State → State × Nat
  | [], _, s => (s, stOk)
  | (a, n) :: l, bs, s =>
    let (s, st) := writeFlat s q idx a (bs.take n)
    if st != stOk then (s, st) else writeRuns q idx l (bs.drop n) s

/-- A read of device virtual memory: the data, or the status and the address that failed. -/
structure VGot where
  s : State
  status : Nat
  va : Nat
  data : List Byte

/-- Read n bytes of device virtual memory. -/
def readVa (s : State) (cache job va n : Nat) : VGot :=
  let r := xlRange s cache job accRead va n
  if r.status != stOk then ⟨r.s, r.status, r.va, []⟩
  else
    let g := readRuns r.runs r.s
    ⟨g.s, g.status, va, g.data⟩

/-- Write device virtual memory for a command: the state, the status, and the address that failed. -/
def writeVa (s : State) (cache job q idx va : Nat) (bs : List Byte) : State × Nat × Nat :=
  let r := xlRange s cache job accWrite va bs.length
  if r.status != stOk then (r.s, r.status, r.va)
  else
    let (s, st) := writeRuns q idx r.runs bs r.s
    (s, st, va)

/-- Translations cached for a job before a PREEMPT are not used again by what is restored (R252): its entries go. -/
def tcForget (s : State) (job : Nat) : State := { s with tcs := s.tcs.filter (·.job != job) }

/-! ### Invalidation (R226, R227) -/

/-- Whether two ranges overlap. -/
def overlaps (a n b m : Nat) : Bool := a < b + m && b < a + n

/-- Whether an invalidation's extent covers a cache entry. -/
def invCovers (kind job va size : Nat) (e : TcEntry) : Bool :=
  kind == 0 || (e.job == job && (kind == 1 || overlaps va size e.base e.size))

/-- A write of XLT_INV with go = 1. -/
def doInvalidate (s : State) (job size kind : Nat) : State :=
  if on s XLT_INV_STATUS.busy then setBit s XLT_STATUS.cfg_ignored
  else
    let sz := if size < 12 then 12 else if 52 < size then 52 else size
    let s := wr (wr (wr s XLT_INV.job 0 job) XLT_INV.size_log2 0 sz) XLT_INV.kind 0 kind
    if kind == 3 then s
    else
      let va := rd s XLT_INV_VA.va / 2 ^ sz * 2 ^ sz
      { setBit s XLT_INV_STATUS.busy with inv := some (kind, job, va, 2 ^ sz) }

/-- XLT_INVALIDATE (R226, R227): a write of XLT_INV with go = 1 and these fields. -/
def execXltInvalidate (job : JobNo) (size : Fin 64) (kind : Fin 4) (s : State) : Res :=
  .next (doInvalidate s job size kind)

/-- INVALIDATION_COMPLETE (R226): no cache holds an entry of the extent, accesses that used one are performed, busy clears.
With no invalidation in progress, or a far-tier write not yet performed, nothing happens. -/
def execInvalidationComplete (s : State) : Res :=
  match s.inv with
  | some (kind, job, va, size) =>
    if s.farWrites.isEmpty then
      let s := { s with tcs := s.tcs.filter fun e => !invCovers kind job va size e, inv := none }
      .next (incWrap (wr s XLT_INV_STATUS.busy 0 0) XLT_INV_STATUS.done)
    else .next s
  | none => .next s

end Sys2Proof.Machine
end

