-- ==== Sys2Proof/Machine/Ctxs.lean ====
section
/-!
DEFINITION. Queues, the contexts of dispatched commands, stops, and the rings that records are written to (file 05, R169 to
R202; file 06, R230 to R238).
-/

namespace Sys2Proof.Machine

/-! ### Queues and contexts -/

/-- A queue that nothing has used. -/
def queueEmpty : Queue := ⟨0, [], [], [], false, false, false, [], 0⟩

def getQ (s : State) (q : Nat) : Queue := kget s.queues q queueEmpty
def putQ (s : State) (q : Nat) (x : Queue) : State := { s with queues := kput s.queues q x }

/-- QUE_Q_STATE.state values (Table 5.2). -/
def qsDisabled : Nat := 0
def qsRunning : Nat := 1
def qsFaulted : Nat := 2
def qsDraining : Nat := 3
def qsStopped : Nat := 4
def qState (s : State) (q : Nat) : Nat := rd s QUE_Q_STATE.state q

/-- The context of a dispatched command. -/
def findCtx (s : State) (q idx : Nat) : Option Ctx := (getQ s q).ctxs.find? fun c => c.idx == idx

/-- Change the context of a dispatched command. -/
def modCtx (s : State) (q idx : Nat) (f : Ctx → Ctx) : State :=
  let x := getQ s q
  putQ s q { x with ctxs := x.ctxs.map fun c => if c.idx == idx then f c else c }

/-! Header fields (Table 5.3) -/
def descOpcode (d : Line) : Nat := lineBits d 0 0 8
def descDepMode (d : Line) : Nat := lineBits d 1 0 2
def descDepScope (d : Line) : Nat := lineBits d 1 2 3
def descCompMode (d : Line) : Nat := lineBits d 1 5 2
def descContOnError (d : Line) : Bool := lineBits d 1 7 1 == 1
def descTag (d : Line) : Nat := lineBits d 4 0 32

/-- Opcodes (Table 5.4). -/
def opNop : Nat := 0x00
def opMatmul : Nat := 0x01
def opVector : Nat := 0x02
def opCopy : Nat := 0x03
def opReduceScatter : Nat := 0x04
def opAllGather : Nat := 0x05
def opExchange : Nat := 0x06
def opRemote : Nat := 0x07
def opWait : Nat := 0x08
def opSignal : Nat := 0x09
def opFence : Nat := 0x0A
def opLanding : Nat := 0x0B
def opTimer : Nat := 0x0C

/-- The primary hub (PNL_HUB_ROLE.primary), and its tick (R572, R573). -/
def primaryHub (s : State) : Nat := rd s PNL_HUB_ROLE.primary
def hubTick (s : State) : Nat := kget s.ticks (40 + primaryHub s) 0

/-- Ticks from one tick to a later one; ticks count modulo 2^64 (R572). -/
def since (now t : Nat) : Nat := (now + 2 ^ 64 - t % 2 ^ 64) % 2 ^ 64

/-- A TIMER that nothing earlier of its queue precedes counts from now, if it counts from the completion of every earlier command
(R211). One whose earlier commands were complete before its dispatch counts from its dispatch (DESIGN CHOICE, log 108). -/
def armTimers (s : State) (q : Nat) : State :=
  let x := getQ s q
  match x.ctxs with
  | c :: l =>
    if descOpcode c.desc == opTimer && !c.started then putQ s q { x with ctxs := { c with started := true } :: l } else s
  | [] => s

/-- A TIMER's duration in ticks, and whether it counts from its dispatch (Table 5.10, R211). -/
def timerTicks (d : Line) : Nat := lineBits d 0x08 0 64
def timerFromDispatch (d : Line) : Bool := lineBits d 0x10 0 1 == 0

/-- One tick of the primary hub passes for every TIMER that counts (R211); one of a STOPPED queue keeps what it has left (R244). -/
def countTimers (s : State) : State :=
  let one (c : Ctx) : Ctx := if descOpcode c.desc == opTimer && c.started then { c with tick := c.tick - 1 } else c
  { s with queues := s.queues.map fun x => (x.1, { x.2 with ctxs := x.2.ctxs.map one }) }

/-- Take a context away: the command no longer counts as in flight. -/
def dropCtx (s : State) (q idx : Nat) : State :=
  let x := getQ s q
  let s := putQ s q { x with ctxs := x.ctxs.filter fun c => c.idx != idx }
  let s := { s with watch := s.watch.filter (·.2 != (q, idx)), unwatched := s.unwatched.filter (· != (q, idx)) }
  armTimers (wr s QUE_Q_STATE.inflight q (getQ s q).ctxs.length) q

/-- A fresh context of a descriptor; a TIMER with from 0 counts at once (R211). -/
def ctxNew (idx : Nat) (d : Line) (cores : List Nat) : Ctx :=
  let timer := descOpcode d == opTimer
  { idx := idx, desc := d, cores := cores, phase := .running, status := stOk, low := false, high := false, result0 := 0,
    recs := none, ran := [], stops := [], count := 0, tick := if timer then timerTicks d else 0, recheck := false,
    started := timer && timerFromDispatch d, accAt := [], vecAt := [], wrapped := [] }

/-- Abandon the engine state of a command: nothing further comes of it (R444, R477, R625). -/
def abandon (s : State) (q idx : Nat) : State :=
  { s with
    colls := s.colls.filter fun c => !(c.queue == q && c.idx == idx)
    rmtCmds := s.rmtCmds.filter fun c => !(c.queue == q && c.idx == idx)
    copyRemotes := s.copyRemotes.filter fun c => !(c.queue == q && c.idx == idx)
    coreShares := s.coreShares.filter fun e => !(e.2.1 == q && e.2.2 == idx)
    copyShares := s.copyShares.filter fun e => !(e.2.1 == q && e.2.2 == idx) }

/-- A command's work is at its end: status (R25), flags and result0. -/
def finishCtx (s : State) (q idx status result0 : Nat) (f : Inexact := {}) : State :=
  modCtx s q idx fun c => { c with
    phase := .done, status := stWorse c.status status, low := c.low || f.low, high := c.high || f.high, result0 := result0 }

/-- A stop without a place: descriptor checks, failed completions, WAIT (Table 6.4, last row). -/
def stopPlain (status access va : Nat) : Stop := ⟨status, access, va, 0, 0, 0, 0, 0⟩

/-- A share of a command stops at a restart point (R230, R235). The first stop of a command is the one to be reported. -/
def stopShare (s : State) (q idx pos : Nat) (st : Stop) : State :=
  match findCtx s q idx with
  | none => s
  | some c =>
    let s := modCtx s q idx fun c => { c with
      stops := kput c.stops pos st, phase := if c.phase == .running then .stopped else c.phase }
    if c.phase == .running then
      let x := getQ s q
      putQ s q { x with stops := x.stops ++ [⟨idx, descTag c.desc, descOpcode c.desc, st⟩] }
    else s

/-! ### Rings -/

def ringEmpty : Ring := ⟨0, [], false⟩

/-- Registers of a completion, fault or response ring (R197, R214, R240, R254). -/
def ringBase (s : State) : RingId → Nat
  | .cr c => rd s QUE_C_RING.base c * 4096
  | .fr f => rd s QUE_F_RING.base f * 4096
  | .xr x => rd s QUE_X_RRING.base x * 4096
  | .sq q => rd s QUE_Q_RING.base q * 4096
  | .xq x => rd s QUE_X_RING.base x * 4096

def ringSize (s : State) : RingId → Nat
  | .cr c => 2 ^ rd s QUE_C_RING.size_log2 c
  | .fr f => 2 ^ rd s QUE_F_RING.size_log2 f
  | .xr x => 2 ^ rd s QUE_X_RING.size_log2 x
  | .sq q => 2 ^ rd s QUE_Q_RING.size_log2 q
  | .xq x => 2 ^ rd s QUE_X_RING.size_log2 x

def ringEnabled (s : State) : RingId → Bool
  | .cr c => on s QUE_C_RING.enable c
  | .fr f => on s QUE_F_RING.enable f
  | .xr x => on s QUE_X_RING.enable x
  | .sq q => on s QUE_Q_CTL.enable q
  | .xq x => on s QUE_X_RING.enable x

/-- The doorbell line and slot of a ring (R171). -/
def ringSlot (s : State) : RingId → Nat × Nat
  | .cr c => (rd s QUE_C_DB.line c * 64, rd s QUE_C_DB.slot c)
  | .fr f => (rd s QUE_F_DB.line f * 64, rd s QUE_F_DB.slot f)
  | .xr x => (rd s QUE_X_RDB.line x * 64, rd s QUE_X_RDB.slot x)
  | .sq q => (rd s QUE_Q_DB.line q * 64, rd s QUE_Q_DB.slot q)
  | .xq x => (rd s QUE_X_DB.line x * 64, rd s QUE_X_DB.slot x)

def getRing (s : State) : RingId → Ring
  | .cr c => kget s.crings c ringEmpty
  | .fr f => kget s.frings f ringEmpty
  | .xr x => kget s.rrings x ringEmpty
  | _ => ringEmpty

def putRing (s : State) (r : RingId) (x : Ring) : State :=
  match r with
  | .cr c => { s with crings := kput s.crings c x }
  | .fr f => { s with frings := kput s.frings f x }
  | .xr y => { s with rrings := kput s.rrings y x }
  | _ => s

def xringEmpty : XRing := ⟨0, 0, 0⟩

/-- A ring's write index. -/
def ringWindex (s : State) : RingId → Nat
  | .cr c => rd s QUE_C_STATE.windex c
  | .fr f => rd s QUE_F_STATE.windex f
  | .xr x => (kget s.xrings x xringEmpty).windex
  | _ => 0

def putWindex (s : State) (r : RingId) (w : Nat) : State :=
  match r with
  | .cr c => wr s QUE_C_STATE.windex c w
  | .fr f => wr s QUE_F_STATE.windex f w
  | .xr x => { s with xrings := kmod s.xrings x xringEmpty fun r => { r with windex := w % 2 ^ 32 } }
  | _ => s

/-- Whether a ring holds 2^size_log2 records that the driver has not consumed (R198). -/
def ringFull (s : State) (r : RingId) : Bool :=
  ringSize s r ≤ (ringWindex s r + 2 ^ 32 - (getRing s r).head % 2 ^ 32) % 2 ^ 32

/-- Entry size of a ring (R170, R240). -/
def ringRecLen : RingId → Nat
  | .cr _ => 32
  | .xr _ => 32
  | .fr _ => 64
  | .sq _ => 64
  | .xq _ => 64

/-- Host address of the entry of index i (R170). -/
def ringEntry (s : State) (r : RingId) (i : Nat) : Nat := ringBase s r + i % ringSize s r * ringRecLen r

/-- The 64-byte entries that the host has put into a ring from index i on, as the panel's read finds them there (R172, R173). -/
def ringArrive (s : State) (r : RingId) : (i : Nat) → List Line → State
  | _, [] => s
  | i, d :: l => ringArrive (memStore s (hostFlat (ringEntry s r i)) (leBytes 64 d.toNat)) r (i + 1) l

/-- The phase bit at a write index (R197). -/
def ringPhase (size w : Nat) : Nat := 1 - w / size % 2

/-- A whole record: body, tick, phase (Tables 5.12, 5.14). -/
def recordBytes (tick phase : Nat) (body : List Byte) : List Byte := body ++ leBytes 4 tick ++ leBytes 4 (phase * 2 ^ 31)

/-- The episode of R198: while a ring is full, or a record waits for a ring that is not enabled. Its start sets ring_full and raises
CRING_FULL once. -/
def noteRing (s : State) (r : RingId) : State :=
  let x := getRing s r
  let now := if ringEnabled s r then ringFull s r else !x.held.isEmpty
  if now == x.episode then s
  else
    let s := putRing s r { x with episode := now }
    if now then raise (setBit s QUE_STATUS.ring_full) 0x00F else s

/-- Write a record into its slot in one write and advance the index (R197); its message follows, if irq_en asks for it now that the
record is visible (R199). -/
def ringWrite (s : State) (r : RingId) (h : HeldRec) : State :=
  let w := ringWindex s r
  let bytes := recordBytes (hubTick s) (ringPhase (ringSize s r) w) h.body
  let s := memStore s (hostFlat (ringEntry s r w)) bytes
  let s := noteRing (putWindex s r ((w + 1) % 2 ^ 32)) r
  match r with
  | .cr c => if h.irq && on s QUE_C_IRQ.irq_en c then sendMsix s (rd s QUE_C_IRQ.vector c) else s
  | .fr f => if h.irq && on s QUE_F_IRQ.irq_en f then sendMsix s (rd s QUE_F_IRQ.vector f) else s
  | _ => s

/-- R198, R602: a record that finds its ring full, or not enabled, or the home port's link down, is held. -/
def ringHold (s : State) (r : RingId) (h : HeldRec) : State :=
  let x := getRing s r
  noteRing (putRing s r { x with held := x.held ++ [h] }) r

/-- Whether a ring can take a record at once: the home port's link is up (R602), and the ring is enabled, not full, and holds nothing before it. -/
def ringReady (s : State) (r : RingId) : Bool := homeUp s && ringEnabled s r && !ringFull s r && (getRing s r).held.isEmpty

/-- First 24 bytes of a completion or response record (Table 5.12). -/
def recordHead (tag idx queue opcode status : Nat) (f : Inexact) (result0 : Nat) : List Byte :=
  leBytes 4 tag ++ leBytes 4 idx ++ leBytes 4 (queue + opcode * 2 ^ 16 + status * 2 ^ 24) ++
  leBytes 4 ((if f.low then 1 else 0) + (if f.high then 2 else 0)) ++ leBytes 8 result0

/-- First 56 bytes of a fault record (Table 5.14). -/
def faultHead (queue space : Nat) (r : StopRec) : List Byte :=
  leBytes 4 r.tag ++ leBytes 4 r.idx ++ leBytes 4 (queue + r.opcode * 2 ^ 16 + r.stop.status * 2 ^ 24) ++
  leBytes 4 (space + r.stop.access * 2 ^ 8) ++ leBytes 8 r.stop.va ++ leBytes 4 r.stop.unit ++ leBytes 4 r.stop.restart ++
  leBytes 8 r.stop.p0 ++ leBytes 8 r.stop.p1 ++ leBytes 8 r.stop.p2

/-- Whether a command is a third-party die's work (R335). -/
def atSite (c : Ctx) : Bool := c.cores.any (2 ^ 15 ≤ ·)

/-- The final status of a command: its conditions and its flags under R25; a third-party die's answer gives its status itself (R337). -/
def ctxStatus (c : Ctx) : Nat := if atSite c then c.status else stWorse c.status (stOfFlags ⟨c.low, c.high⟩)

/-- A command is complete and its record, if any, is written: its context goes, and a failed completion without
cont_on_error leaves a stop for the queue's fault record (R202). -/
def releaseCtx (s : State) (q : Nat) (c : Ctx) : State :=
  let s := dropCtx s q c.idx
  if stFailed (ctxStatus c) && !descContOnError c.desc then
    let x := getQ s q
    putQ s q { x with stops := x.stops ++ [⟨c.idx, descTag c.desc, descOpcode c.desc, stopPlain (ctxStatus c) 3 0⟩] }
  else s

/-- R196, R198, R199: write, hold or leave out the completion record of a command that is done. -/
def completeCtx (s : State) (q : Nat) (c : Ctx) : State :=
  let st := ctxStatus c
  let mode := descCompMode c.desc
  if mode == 0 && st == stOk then releaseCtx s q c
  else
    let ring := RingId.cr (rd s QUE_Q_BIND.cring q)
    let h : HeldRec := ⟨q, c.idx, recordHead (descTag c.desc) c.idx q (descOpcode c.desc) st ⟨c.low, c.high⟩ c.result0,
      mode == 2⟩
    if ringReady s ring then releaseCtx (ringWrite s ring h) q c
    else modCtx (ringHold s ring h) q c.idx fun c => { c with phase := .held }

/-- The queue enters FAULTED once its fault record is written; in DRAINING the command's progress is discarded instead (R188, R625). -/
def faultReported (s : State) (q : Nat) (idx : Nat) : State :=
  if qState s q == qsDraining then dropCtx (abandon s q idx) q idx
  else
    let s := modCtx s q idx fun c => if c.phase == .stopped then { c with phase := .reported } else c
    wr s QUE_Q_STATE.state q qsFaulted

/-- R200: write or hold the fault record of the earliest unreported stop. -/
def reportStop (s : State) (q : Nat) : State :=
  let x := getQ s q
  match x.stops with
  | [] => s
  | r :: rest =>
    if x.frecHeld then s
    else
      let f := rd s QUE_Q_BIND.fring q
      let ring := RingId.fr f
      let h : HeldRec := ⟨q, r.idx, faultHead q (rd s QUE_Q_BIND.space q) r, true⟩
      let s := putQ s q { x with stops := rest }
      if ringReady s ring then faultReported (ringWrite s ring h) q r.idx
      else
        let s := ringHold s ring h
        putQ s q { getQ s q with frecHeld := true }

/-- The owner of the far writes of a control ring's save areas: no queue has its number, nor the remote engine's writes. -/
def saveOwner (x : Nat) : Nat := 4097 + x

/-- Whether far writes of the save area of a control ring's request are still to be performed (R309). -/
def saveOpen (s : State) (x idx : Nat) : Bool := s.farWrites.any fun w => w.queue == saveOwner x && w.idx == idx

/-- Whether a held record may be written now: it waits for the home port (R602), and the response of a PREEMPT for its save area (R244, R309). -/
def heldGoes (s : State) (r : RingId) (h : HeldRec) : Bool :=
  homeUp s && ringEnabled s r && !ringFull s r && (match r with | .xr x => !(h.irq && saveOpen s x h.idx) | _ => true)

/-- A far write of a save area has failed: the response that waits for it carries the status (R308, log 32). -/
def saveFailed (s : State) (owner idx st : Nat) : State :=
  let x := owner - 4097
  let r := getRing s (.xr x)
  let bad (h : HeldRec) : HeldRec :=
    if h.irq && h.idx == idx then { h with body := h.body.set 11 (BitVec.ofNat 8 (stWorse (leAt h.body 11 1) st)) } else h
  putRing s (.xr x) { r with held := r.held.map bad }

/-- Write the oldest record that a ring holds, if the ring can take it, and let what waited for it go on (R198). -/
def writeHeld (s : State) (r : RingId) : State :=
  let x := getRing s r
  match x.held with
  | [] => s
  | h :: rest =>
    if heldGoes s r h then
      let s := putRing s r { x with held := rest }
      let s := ringWrite s r h
      match r with
      | .cr _ =>
        match findCtx s h.queue h.idx with
        | some c => if c.phase == .held then releaseCtx s h.queue c else s
        | none => s
      | .fr _ => faultReported (putQ s h.queue { getQ s h.queue with frecHeld := false }) h.queue h.idx
      -- the response of a PREEMPT is written, and its queue enters STOPPED (R244)
      | .xr _ =>
        if h.irq then
          wr (putQ s h.queue { getQ s h.queue with preempting := false }) QUE_Q_STATE.state h.queue qsStopped
        else s
      | _ => s
    else s

/-! ### Doorbell lines (R176 to R180) -/

/-- Whether doorbell lines are held through CXL.cache: enabled on the home port and not forced to polling (R176). -/
def cacheOn (s : State) : Bool := on s PNL_HOST_STATUS.cache_en (primaryHub s) && inForce s QUE_CTL.db_force_poll == 0

/-- A ring begins to use its line. -/
def dbAdd (s : State) (r : RingId) : State :=
  let a := (ringSlot s r).1
  if s.dbLines.any (·.addr == a) then
    { s with dbLines := s.dbLines.map fun l => if l.addr == a then { l with users := if l.users.contains r then l.users else l.users ++ [r] } else l }
  else { s with dbLines := s.dbLines ++ [⟨a, [r], cacheOn s && s.dbLines.length < 4096, false⟩] }

/-- A ring stops using its line; a line without users is released, and the line polled longest takes its place: it is read (R176, R178). -/
def dbRemove (s : State) (r : RingId) : State :=
  let ls := (s.dbLines.map fun l => { l with users := l.users.filter (· != r) }).filter fun l => !l.users.isEmpty
  { s with dbLines := (List.range ls.length).zipWith (fun i l => { l with reread := l.reread || (cacheOn s && i < 4096 && !l.copy) }) ls }

/-- Every line is to be read again before dispatch (R180); a line that is to be held is held once it has been read. -/
def dbRereadAll (s : State) : State :=
  { s with dbLines := s.dbLines.map fun l => { l with copy := false, reread := true } }

/-- The lines that the panel polls (R176, R179). -/
def polledLines (s : State) : List DbLine := if cacheOn s then s.dbLines.drop 4096 else s.dbLines

end Sys2Proof.Machine
end

