-- ==== Sys2Proof/Machine/Matmul.lean ====
section
/-!
DEFINITION. MATMUL: X128 and FP32 accumulation (file 02, R70 to R91), passes and beats (file 03), row bands, tile addresses,
shapes and edges (file 04).
-/

namespace Sys2Proof.Machine

/-! ### Tile memory as rows of packed elements (R64, R145) -/

/-- Flat addresses of a run of n bytes from offset o of a tile on, cut wherever it wraps (R146). -/
def tileCut (core : Nat) : (fuel o n : Nat) → List (Nat × Nat)
  | 0, _, _ => []
  | fuel + 1, o, n => if o + n ≤ 2 ^ 20 then [(tileFlat core o, n)] else (tileFlat core o, 2 ^ 20 - o) :: tileCut core fuel 0 (o + n - 2 ^ 20)

/-- Flat addresses of the bytes of a run that starts at an unreduced tile offset (R146). -/
def tileRuns (core : Nat) (off n : Nat) : List (Nat × Nat) := tileCut core (n / 2 ^ 20 + 2) (off % 2 ^ 20) n

/-- Element bits at a bit offset of a row in one memory. -/
def tileBits (m : List Host.Cell) (core row bit w : Nat) : Nat :=
  let n := (bit % 8 + w + 7) / 8
  let bs := (List.range n).map fun i => memByte m (tileFlat core ((row + bit / 8 + i) % 2 ^ 20))
  leNat bs / 2 ^ (bit % 8) % 2 ^ w

/-- Pack values of w bits each, element 0 lowest (R64). -/
def packVals (w : Nat) : List Nat → Nat
  | [] => 0
  | v :: l => v % 2 ^ w + 2 ^ w * packVals w l

/-- Write `len` bits of `v` at bit offset `bit` of flat bytes from `a` on: whole bytes as one run, edge bytes merged (R258, R276). -/
def writeBits (s : State) (a bit len v : Nat) : State :=
  if len = 0 then s
  else
    let b0 := bit / 8
    let n := (bit % 8 + len + 7) / 8
    let old := leNat (memBytes s.mem (a + b0) n)
    let sh := bit % 8
    let new := old % 2 ^ sh + v % 2 ^ len * 2 ^ sh + old / 2 ^ (sh + len) * 2 ^ (sh + len)
    let bs := leBytes n new
    let first := if sh = 0 then 0 else 1
    let last := if (sh + len) % 8 = 0 then n else n - 1
    let s := if first = 1 then memWrite s (a + b0) (bs.take 1) else s
    let s := if first < last then memWrite s (a + b0 + first) ((bs.drop first).take (last - first)) else s
    if last < n ∧ (first = 0 ∨ 0 < last) then memWrite s (a + b0 + last) (bs.drop last) else s

/-- Write `len` bits of `v` from bit `bit` of byte o of a tile on, going on at the tile's first byte where its end is reached (R146). -/
def tilePut (core : Nat) : (fuel o bit len v : Nat) → State → State
  | 0, _, _, _, _, s => s
  | fuel + 1, o, bit, len, v, s =>
    let room := (2 ^ 20 - o) * 8 - bit
    if len ≤ room then writeBits s (tileFlat core o) bit len v
    else tilePut core fuel 0 0 (len - room) (v / 2 ^ room) (writeBits s (tileFlat core o) bit room v)

/-- Write packed elements of w bits into a tile row from a bit offset on (R146). -/
def tileWrite (s : State) (core row bit w : Nat) (vals : List Nat) : State :=
  let len := w * vals.length
  tilePut core (len / 2 ^ 23 + 2) ((row + bit / 8) % 2 ^ 20) (bit % 8) len (packVals w vals) s

/-- Read errors of the bytes that hold bits [bit, bit + len) of a tile row (R155, R257). -/
def tileEcc (s : State) (core row bit len : Nat) : State × Nat :=
  if len = 0 then (s, stOk)
  else (tileRuns core (row + bit / 8) ((bit % 8 + len + 7) / 8)).foldl
    (fun (s, st) r => let (s, st') := eccRead s r.1 r.2; (s, stWorse st st')) (s, stOk)

/-- R167: one row access; a byte outside the tile counts one wrap. -/
def countWrap (s : State) (core row bit len : Nat) : State :=
  if 0 < len ∧ 2 ^ 20 ≤ row + (bit + len - 1) / 8 then
    wr (incSat s DIE_WRAP_COUNT.wraps (core / 256)) DIE_WRAP_COUNT.last_core (core / 256) (core % 256)
  else s

/-! ### The cell (R70 to R76) -/

/-- A cell: V modulo 2^136, the special tag (0 NONE, 1 +INF, 2 −INF, 3 NAN), the guard record b and n; in fast mode the FP32
accumulator. The flags are those its terms have set. -/
structure Cell where
  v : Nat
  tag : Nat
  b : Nat
  n : Nat
  fast : Val
  low : Bool
  high : Bool
  deriving DecidableEq, Repr

def cellZero : Cell := ⟨0, 0, 0, 0, .fin false 0 0, false, false⟩

/-- ⌈log₂ n⌉. -/
def clog2 (n : Nat) : Nat := if n ≤ 1 then 0 else (n - 1).log2 + 1

/-- The tag after a special term (R76): 3 NAN, 1 or 2 an infinity. -/
def tagAdd (tag t : Nat) : Nat := if tag == 3 || t == 3 then 3 else if tag != 0 && tag != t then 3 else t

/-- Add one term: aligned to the anchor by round-to-nearest-even (R71, R72), limited (R75), added modulo 2^136 (R73). -/
def cellAdd (anchor : Int) (c : Cell) : Val → Cell
  | .nan => { c with tag := tagAdd c.tag 3 }
  | .inf neg => { c with tag := tagAdd c.tag (if neg then 2 else 1) }
  | .fin neg m e =>
    let (k, low) := roundMag .rne m e anchor
    let big : Bool := 2 ^ 134 ≤ k
    let k := if big then 2 ^ 134 - 1 else k
    { c with
      v := toBits 136 ((c.v : Int) + (if neg then -(k : Int) else (k : Int)))
      b := max c.b (bitLen k)
      n := c.n + 1
      low := c.low || low
      high := c.high || big }

/-- One fast-mode step: acc ← round(acc + a·b) with a single rounding (R90). -/
def cellFma (c : Cell) (a b : Val) : Cell := { c with fast := round32 (exactAdd c.fast (exactMul a b)) }

/-- R74: the guard test. -/
def guardTrips (c : Cell) : Bool := c.n != 0 && 135 < c.b + clog2 c.n

/-- The value a cell holds (R70, R98). -/
def cellVal (anchor : Int) (c : Cell) : Val :=
  if c.tag == 3 then .nan
  else if c.tag == 1 then .inf false
  else if c.tag == 2 then .inf true
  else intVal (signed 136 c.v) anchor

/-! ### The command as its descriptor and records give it -/

/-- A MATMUL's body (Table 5.5). -/
structure MmBody where
  layoutVa : Nat
  seed : Nat
  m : Nat
  n : Nat
  k : Nat
  batch : Nat
  fa : Nat
  fb : Nat
  fc0 : Nat
  fc : Nat
  anchor : Nat
  anchorMode : Bool
  acc : Bool
  rnd : Nat
  shapeSrc : Nat
  quad : Bool
  c0 : Bool

/-- Read the body of a MATMUL descriptor. -/
def mmBody (d : Line) : MmBody :=
  let g (lo w : Nat) : Nat := lineBits d 0x28 lo w
  let h (lo w : Nat) : Nat := lineBits d 0x2C lo w
  ⟨lineBits d 0x08 0 64, lineBits d 0x10 0 64, lineBits d 0x18 0 32, lineBits d 0x1C 0 32, lineBits d 0x20 0 32,
   lineBits d 0x24 0 16, g 0 5, g 5 5, g 10 5, g 15 5, g 20 10, g 30 1 == 1, g 31 1 == 1, h 0 2, h 2 4, h 6 1 == 1, h 7 1 == 1⟩

/-- Buffers of the layout record, in its order (Table 4.2). -/
def bufA : Nat := 0
def bufB : Nat := 1
def bufC0 : Nat := 2
def bufC : Nat := 3
def bufSa : Nat := 4
def bufSb : Nat := 5
def bufSc0 : Nat := 6
def bufSc : Nat := 7

/-- The layout record read (Table 4.2). -/
structure Layout where
  base : List Nat
  pitch : List Nat
  bstride : List Nat
  shapeVa : Nat
  clampM : Nat
  clampN : Nat
  clampK : Nat
  clampB : Nat
  kChunk : Nat
  group : Nat

def layoutOf (r : List Byte) : Layout :=
  let t (o : Nat) : List Nat := (List.range 8).map fun i => leAt r (o + 4 * i) 4
  ⟨t 0x00, t 0x20, t 0x40, leAt r 0x60 8, leAt r 0x68 4, leAt r 0x6C 4, leAt r 0x70 4, leAt r 0x74 4, leAt r 0x78 4, leAt r 0x7C 4⟩

/-- Unreduced tile offset of a row of a buffer (Table 4.3). -/
def Layout.row (l : Layout) (buf β r : Nat) : Nat :=
  l.base.getD buf 0 + β * l.bstride.getD buf 0 + r * l.pitch.getD buf 0

/-- R139 for one buffer: bits [31:20] zero, and every figure a multiple of the alignment. Strides count in quadrant mode only. -/
def bufOk (l : Layout) (quad : Bool) (buf align : Nat) : Bool :=
  let ok (v : Nat) : Bool := v < 2 ^ 20 && v % align == 0
  ok (l.base.getD buf 0) && ok (l.pitch.getD buf 0) && (!quad || ok (l.bstride.getD buf 0))

/-- The dimension that a clamp leaves (R147). -/
def clamped (v clamp : Nat) : Nat := if clamp = 0 then v else min v clamp

/-- A MATMUL ready to run: formats resolved, dimensions taken and clamped. -/
structure MmPlan where
  fa : Fmt
  fb : Fmt
  fc0 : Fmt
  fc : Fmt
  anchor : Int
  acc : Bool
  rnd : Nat
  seed : Nat
  quad : Bool
  c0 : Bool
  m : Nat
  n : Nat
  k : Nat
  batch : Nat
  chunk : Nat
  group : Nat
  cores : List Nat
  lay : Layout

/-- The anchor in force (R70, R78); an MX pair has no default. -/
def mmAnchor (b : MmBody) (fa fb : Fmt) : Option Int := if b.anchorMode then some (signed 10 b.anchor) else defaultAnchor fa fb

/-- The checks of a MATMUL body at dispatch (R56, R58, R78, R89, R92, R190, R192): true if every field is legal. -/
def mmBodyOk (d : Line) : Bool :=
  let b := mmBody d
  let reserved := lineBits d 0x26 0 16 == 0 && lineBits d 0x2C 8 24 == 0 && lineBits d 0x30 0 128 == 0
  match Fmt.ofCode b.fa, Fmt.ofCode b.fb, Fmt.ofCode b.fc with
  | some fa, some fb, some _ =>
    reserved && pairAllowed fa fb && (mmAnchor b fa fb).isSome && b.rnd != 3 &&
    (!b.c0 || (Fmt.ofCode b.fc0).isSome) &&
    (!b.acc || fa == .fp32 || fa == .bf16 || fa == .fp16) &&
    b.layoutVa < 2 ^ 52 && b.layoutVa % 128 == 0
  | _, _, _ => false

/-- Bits of shape_src that count: bit 3 is ignored in full mode (R137). -/
def mmShapeSrc (b : MmBody) : Nat := if b.quad then b.shapeSrc else b.shapeSrc % 8

/-- R139 and R144 over a read layout record, and R119: false fails the command with DESC_INVALID. -/
def mmRecordOk (b : MmBody) (fa fb fc0 fc : Fmt) (l : Layout) : Bool :=
  bufOk l b.quad bufA fa.align && bufOk l b.quad bufB fb.align && bufOk l b.quad bufC fc.align &&
  (!b.c0 || bufOk l b.quad bufC0 fc0.align) &&
  (!fa.isMx || bufOk l b.quad bufSa 1) && (!fb.isMx || bufOk l b.quad bufSb 1) &&
  (!(b.c0 && fc0.isMx) || bufOk l b.quad bufSc0 1) && (!fc.isMx || bufOk l b.quad bufSc 1) &&
  l.group < 2 ^ 16 &&
  (mmShapeSrc b == 0 || (l.shapeVa < 2 ^ 52 && l.shapeVa % 16 == 0)) &&
  (!(fa.isClass46 && fb.isClass46) || l.kChunk % 2 == 0)

/-- The plan of a MATMUL, or none where a record breaks a rule. `shape` is the shape record, empty if none was read. -/
def mmPlan (d : Line) (cores : List Nat) (lay shape : List Byte) : Option MmPlan :=
  let b := mmBody d
  match Fmt.ofCode b.fa, Fmt.ofCode b.fb, Fmt.ofCode b.fc with
  | some fa, some fb, some fc =>
    let fc0 := (Fmt.ofCode b.fc0).getD .fp32
    let l := layoutOf lay
    let src := mmShapeSrc b
    let dim (i desc clamp : Nat) : Nat := clamped (if bitOn src i then leAt shape (4 * i) 4 else desc) clamp
    let n := dim 1 b.n l.clampN
    if mmRecordOk b fa fb fc0 fc l && !(b.quad && fc.isMx && 16 < n) then
      some ⟨fa, fb, fc0, fc, (mmAnchor b fa fb).getD 0, b.acc, b.rnd, b.seed, b.quad, b.c0,
        dim 0 b.m l.clampM, n, dim 2 b.k l.clampK, if b.quad then dim 3 b.batch l.clampB else 1,
        l.kChunk, max 1 l.group, cores, l⟩
    else none
  | _, _, _ => none

/-! ### Bands and blocks (R140 to R144) -/

/-- Ceiling division. -/
def cdiv (a b : Nat) : Nat := (a + b - 1) / b

/-- One output block of a share: band, local band, first batch member, first column. -/
structure Block where
  band : Nat
  j : Nat
  β0 : Nat
  col0 : Nat
  deriving DecidableEq, Repr

/-- The core-set position that computes a band (R141). -/
def bandPos (q p b : Nat) : Nat := b / q % p

/-- The local band number of a band (R141). -/
def localBand (q p b : Nat) : Nat := b % q + q * (b / (q * p))

/-- The blocks of the share at a core-set position, in the order of R142. -/
def shareBlocks (pl : MmPlan) (pos : Nat) : List Block :=
  if pl.m = 0 ∨ pl.n = 0 ∨ pl.batch = 0 then []
  else
    let p := pl.cores.length
    let bands := (List.range (cdiv pl.m 64)).filter fun b => bandPos pl.group p b == pos
    let width := if pl.quad then 16 else 128
    let groups := if pl.quad then cdiv pl.batch 8 else 1
    bands.flatMap fun b => (List.range groups).flatMap fun g =>
      (List.range (cdiv pl.n width)).map fun c => ⟨b, localBand pl.group p b, 8 * g, width * c⟩

/-- The valid elements of a block: batch member, row in the band, column, in write order (R148). -/
structure Pos where
  β : Nat
  r : Nat
  col : Nat
  deriving DecidableEq, Repr

/-- Valid rows of a band. -/
def bandRows (pl : MmPlan) (b : Block) : Nat := min 64 (pl.m - 64 * b.band)

/-- Batch members of a block. -/
def blockMembers (pl : MmPlan) (b : Block) : List Nat :=
  if pl.quad then (List.range (min 8 (pl.batch - b.β0))).map (b.β0 + ·) else [0]

/-- Valid columns of a block. -/
def blockCols (pl : MmPlan) (b : Block) : Nat := min (if pl.quad then 16 else 128) (pl.n - b.col0)

/-- The rows of a block that are written in one run each: row then batch member (R148). -/
def blockLines (pl : MmPlan) (b : Block) : List (Nat × Nat) :=
  (List.range (bandRows pl b)).flatMap fun r => (blockMembers pl b).map fun β => (β, r)

/-- Index of a cell in the save area (R249): array (p, q), row i, column j. -/
def cellIndex (pl : MmPlan) (b : Block) (x : Pos) : Nat :=
  let p := x.r / 32
  let i := x.r % 32
  let c := if pl.quad then 16 * (x.β - b.β0) + (x.col - b.col0) else x.col - b.col0
  1024 * (4 * p + c / 32) + 32 * i + c % 32

/-- The K chunks of a plan: first step and end (R144). -/
def kChunks (pl : MmPlan) : List (Nat × Nat) :=
  if pl.chunk = 0 ∨ pl.k ≤ pl.chunk then [(0, pl.k)]
  else (List.range (cdiv pl.k pl.chunk)).map fun c => (c * pl.chunk, min pl.k ((c + 1) * pl.chunk))

/-! ### Reads of a block (R145, R149, R155) -/

/-- What block u of a share may read: memory after block u − 3, after u − 2, after u − 1 (R149). -/
structure Snaps where
  m3 : List Host.Cell
  m2 : List Host.Cell
  m1 : List Host.Cell

/-- Element bits as a block reads them: the value of block u − 3's time, or a later one of the two blocks since, freely. -/
def snapBits (s : State) (sn : Snaps) (core u which row bit w : Nat) : Nat :=
  let a := tileBits sn.m3 core row bit w
  let b := tileBits sn.m2 core row bit w
  let c := tileBits sn.m1 core row bit w
  if a == b && b == c then a
  else match choose s (16 + which + 8 * (u + 2 ^ 20 * (8 * row + bit))) 3 with
    | 0 => a
    | 1 => b
    | _ => c

/-- An element of a buffer with its scale, if the format has one (R66, R67). `sbuf` and the scale's place are the scale array's. -/
def snapVal (s : State) (sn : Snaps) (pl : MmPlan) (core u : Nat) (f : Fmt) (buf β row i sbuf srow si : Nat) : Val :=
  let v := elemVal f pl.anchor (snapBits s sn core u buf (pl.lay.row buf β row) (i * f.bits) f.bits)
  if f.isMx then scaledVal (snapBits s sn core u sbuf (pl.lay.row sbuf β srow) (8 * si) 8) v else v

/-- Element (row of local band, k) of A. -/
def readA (s : State) (sn : Snaps) (pl : MmPlan) (core u : Nat) (b : Block) (β r k : Nat) : Val :=
  snapVal s sn pl core u pl.fa bufA β (64 * b.j + r) k bufSa (64 * b.j + r) (k / 32)

/-- Element (k, col) of B. -/
def readB (s : State) (sn : Snaps) (pl : MmPlan) (core u : Nat) (β k col : Nat) : Val :=
  snapVal s sn pl core u pl.fb bufB β k col bufSb (k / 32) col

/-- Element (row of local band, col) of C₀. -/
def readC0 (s : State) (sn : Snaps) (pl : MmPlan) (core u : Nat) (b : Block) (β r col : Nat) : Val :=
  snapVal s sn pl core u pl.fc0 bufC0 β (64 * b.j + r) col bufSc0 (64 * b.j + r) (col / 32)

/-- The accumulator before the first step of a block (R105, R90). -/
def cellStart (s : State) (sn : Snaps) (pl : MmPlan) (core u : Nat) (b : Block) (x : Pos) : Cell :=
  if pl.c0 then
    let v := readC0 s sn pl core u b x.β x.r x.col
    if pl.acc then { cellZero with fast := round32 v } else cellAdd pl.anchor cellZero v
  else cellZero

/-- Steps k, k + 1, … of one cell, in ascending order. -/
def cellSteps (s : State) (sn : Snaps) (pl : MmPlan) (core u : Nat) (b : Block) (x : Pos) : (n k : Nat) → Cell → Cell
  | 0, _, c => c
  | n + 1, k, c =>
    let a := readA s sn pl core u b x.β x.r k
    let y := readB s sn pl core u x.β k x.col
    cellSteps s sn pl core u b x n (k + 1) (if pl.acc then cellFma c a y else cellAdd pl.anchor c (exactMul a y))

/-- A row access: buffer row (unreduced), bit offset and length, and whether its wrap is still to be counted: a row of a block counts once,
though a PREEMPT parts its reads (R167). -/
structure RowAcc where
  row : Nat
  bit : Nat
  len : Nat
  fresh : Bool
  deriving DecidableEq, Repr

/-- The part from bit `bit` on of a row access whose bits before `bit` were read before: fresh if they reached no wrap. -/
def rowPart (row bit len : Nat) : RowAcc := ⟨row, bit, len, bit == 0 || row + (bit - 1) / 8 < 2 ^ 20⟩

/-- Row accesses of a block's reads for K steps [k0, k1); C₀ is read with step 0. -/
def blockReads (pl : MmPlan) (b : Block) (k0 k1 : Nat) : List RowAcc :=
  let rows := blockLines pl b
  let cols := blockCols pl b
  let ks := k1 - k0
  let a := if ks = 0 then [] else rows.flatMap fun (β, r) =>
    rowPart (pl.lay.row bufA β (64 * b.j + r)) (k0 * pl.fa.bits) (ks * pl.fa.bits) ::
    (if pl.fa.isMx then
      let srow := pl.lay.row bufSa β (64 * b.j + r)
      [⟨srow, 8 * (k0 / 32), 8 * (cdiv k1 32 - k0 / 32), (rowPart srow (8 * cdiv k0 32) 0).fresh⟩]
     else [])
  let bb := (blockMembers pl b).flatMap fun β =>
    ((List.range ks).map fun i => ⟨pl.lay.row bufB β (k0 + i), b.col0 * pl.fb.bits, cols * pl.fb.bits, true⟩) ++
    (if pl.fb.isMx && ks != 0 then
      (List.range (cdiv k1 32 - k0 / 32)).map fun i => ⟨pl.lay.row bufSb β (k0 / 32 + i), 8 * b.col0, 8 * cols, i != 0 || k0 % 32 == 0⟩
     else [])
  let c := if pl.c0 && k0 == 0 then rows.flatMap fun (β, r) =>
    ⟨pl.lay.row bufC0 β (64 * b.j + r), b.col0 * pl.fc0.bits, cols * pl.fc0.bits, true⟩ ::
    (if pl.fc0.isMx then [⟨pl.lay.row bufSc0 β (64 * b.j + r), 8 * (b.col0 / 32), 8 * (cdiv (b.col0 + cols) 32 - b.col0 / 32), true⟩] else [])
    else []
  a ++ bb ++ c

/-- Count wraps and read errors of a list of row accesses (R155, R167, R257). -/
def readRows (s : State) (core : Nat) (l : List RowAcc) : State × Nat :=
  l.foldl (fun (s, st) a =>
    let s := if a.fresh then countWrap s core a.row a.bit a.len else s
    let (s, st') := tileEcc s core a.row a.bit a.len
    (s, stWorse st st')) (s, stOk)

/-! ### Results of a block (R94, R95, R96, R148) -/

/-- The rounding of a result element (R92 to R94). -/
def mmRnd (pl : MmPlan) (b : Block) (x : Pos) : Rnd :=
  let seed := BitVec.ofNat 64 pl.seed + (if pl.quad then BitVec.ofNat 64 x.β * 0xD1B54A32D192ED03#64 else 0)
  Rnd.of pl.rnd seed ((64 * b.band + x.r) * 2 ^ 32 + x.col)

/-- A row of values to element bits and scale bytes, blocks of 32 from the row's first column on (R95, R96, R69). -/
def convRow (f : Fmt) (anchor : Int) : (fuel : Nat) → List (Rnd × Val) → List Nat × List Nat × Inexact
  | 0, _ => ([], [], {})
  | fuel + 1, l =>
    match l with
    | [] => ([], [], {})
    | _ =>
      let h := l.take 32
      let (rest, scales, fl) := convRow f anchor fuel (l.drop 32)
      if f.isMx then
        let (sc, es, low, high) := convMxBlock f h
        (es ++ rest, sc :: scales, inexactOr ⟨low, high⟩ fl)
      else
        let cs := h.map fun rv => conv f anchor rv.1 rv.2
        (cs.map (·.bits) ++ rest, scales, cs.foldl (fun a c => inexactOr a (inexactOfConv c)) fl)

/-- Convert a whole row. -/
def convVals (f : Fmt) (anchor : Int) (l : List (Rnd × Val)) : List Nat × List Nat × Inexact := convRow f anchor (l.length / 32 + 1) l

/-- Write one line of a block's results: elements, then its scale bytes (R148). -/
def writeLine (pl : MmPlan) (core : Nat) (b : Block) (β r : Nat) (vals : List (Rnd × Val)) (s : State) : State × Inexact :=
  let (es, scs, fl) := convVals pl.fc pl.anchor vals
  let row := pl.lay.row bufC β (64 * b.j + r)
  let s := countWrap s core row (b.col0 * pl.fc.bits) (es.length * pl.fc.bits)
  let s := tileWrite s core row (b.col0 * pl.fc.bits) pl.fc.bits es
  if pl.fc.isMx then
    let srow := pl.lay.row bufSc β (64 * b.j + r)
    let s := countWrap s core srow (8 * (b.col0 / 32)) (8 * scs.length)
    (tileWrite s core srow (8 * (b.col0 / 32)) 8 scs, fl)
  else (s, fl)

/-- The value and flags with which a cell leaves the array (R74, R91, R154). -/
def cellResult (s : State) (sn : Snaps) (pl : MmPlan) (core u : Nat) (b : Block) (x : Pos) (c : Cell) : Val × Inexact :=
  if pl.k = 0 then (if pl.c0 then readC0 s sn pl core u b x.β x.r x.col else .fin false 0 0, {})
  else if pl.acc then (c.fast, {})
  else (cellVal pl.anchor c, ⟨c.low, c.high || guardTrips c⟩)

/-! ### Beats (R100, R110 to R112, R127) -/

/-- Streaming beats of n K steps (Table 3.1). -/
def passBeats (fa fb : Fmt) (n : Nat) : Nat :=
  match fa, fb with
  | .fp32, _ => 8 * n
  | .bf16, _ => 2 * n
  | .fp16, _ => 2 * n
  | _, _ => if fa.isClass46 && fb.isClass46 then cdiv n 2 else n

/-- 8·b of R110 in beats, for an element of a format with its share of the scale. -/
def portBeats (f : Fmt) : Nat := cdiv (4 * f.bits + (if f.isMx then 1 else 0)) 4

/-- Streaming beats of K steps [a, e) of a block, chunk by chunk (R100, R144). -/
def streamBeats (pl : MmPlan) (a e : Nat) : Nat :=
  ((kChunks pl).map fun (c, d) => passBeats pl.fa pl.fb (min d e - max c a)).foldl (· + ·) 0

/-- The fill port's beats for the C₀ of a block; 0 without C₀ (R110). -/
def fillBeats (pl : MmPlan) : Nat := if pl.c0 then portBeats pl.fc0 else 0

/-- Waiting beats of a swap: its chain works H beats since the swap before it, while `stream` beats stream (R110, R111). A chain without work
keeps no front waiting (Table 3.2). -/
def swapWait (quad : Bool) (drain fill stream : Nat) : Nat :=
  if drain = 0 ∧ fill = 0 then 0 else max (if quad then 16 else 32) (max drain fill) - stream

/-- Waiting beats of the swap that closes a run of blocks, which fills the C₀ of the command that a joined swap opens (R113). A chain of full
length counts if either command's mode has it. -/
def closeWait (j : Join) (quad : Bool) (fill : Nat) : Nat := swapWait (j.quad && quad) j.drain fill j.stream

/-- Waiting beats of the swaps within a run of blocks, by the streams of the blocks, and what the swap after the run finds (R111). `drain` is
drained during the first of them. -/
def runWaits (pl : MmPlan) : (drain : Nat) → List Nat → Nat × Join
  | d, [] => (0, ⟨0, d, portBeats pl.fc, pl.quad⟩)
  | d, [x] => (0, ⟨x, d, portBeats pl.fc, pl.quad⟩)
  | d, x :: l => let r := runWaits pl (portBeats pl.fc) l; (swapWait pl.quad d (fillBeats pl) x + r.1, r.2)

/-- Waiting beats of the swap that opens a run of blocks: joined to the run before it (R113), or on idle arrays (R112); a resumed block waits
192 beats for its restore fill in place of a LOAD (R622). -/
def openWait (pl : MmPlan) (before : Option Join) (resumed : Bool) : Nat :=
  match before with
  | some j => if resumed then closeWait j j.quad 0 + 192 else closeWait j pl.quad (fillBeats pl)
  | none => if resumed then 192 else swapWait pl.quad 0 (fillBeats pl) 0

/-- Busy and waiting beats of one array over a run of blocks with the streams given, and what the swap after it finds (R111 to R113). -/
def shareBeats (pl : MmPlan) (before : Option Join) (resumed : Bool) (streams : List Nat) : Nat × Nat × Join :=
  let d := match before with | some j => if resumed then 0 else j.last | none => 0
  let r := runWaits pl d streams
  (streams.foldl (· + ·) 0, openWait pl before resumed + r.1, r.2)

/-- Count beats of the 8 arrays of a core (R127). -/
def addBeats (s : State) (core busy wait : Nat) : State :=
  incWrap (incWrap s DIE_BEAT_BUSY.busy_beats (core / 64) (8 * busy)) DIE_BEAT_WAIT.wait_beats (core / 64) (8 * wait)

/-- A joined swap that no pass follows closes by itself: the front waits for its drain, and the arrays go idle (R113). -/
def closeJoin (s : State) (core : Nat) : State :=
  match kfind s.arrayJoin core with
  | some j => addBeats { s with arrayJoin := kdel s.arrayJoin core } core 0 (closeWait j j.quad 0)
  | none => s

/-! ### Shares -/

/-- What running a share gives. -/
structure ShareOut where
  s : State
  /-- UNCORRECTABLE if the share stopped at a block (R623) -/
  status : Nat
  fl : Inexact
  snaps : Snaps
  /-- blocks written -/
  n : Nat

/-- One saved cell (R249): 16 bytes at the accumulator region, 8 at the auxiliary region. -/
def loadCell (acc : Bool) (m : List Host.Cell) (at_ i : Nat) : Cell :=
  let a := leNat (memBytes m (at_ + 16 * i) 16)
  let x := leNat (memBytes m (at_ + 0x20000 + 8 * i) 8)
  if acc then { cellZero with fast := elemVal .fp32 0 (a % 2 ^ 32) }
  else { cellZero with v := a + x % 2 ^ 8 * 2 ^ 128, tag := x / 2 ^ 8 % 4, b := x / 2 ^ 16 % 2 ^ 8, n := x / 2 ^ 24 }

/-- One block of a share: reads, accumulation, results; nothing is written if a read is uncorrectable (R623).
`resume` gives the per-core block and K step that the accumulators come from (R622). -/
def runBlock (pl : MmPlan) (core u : Nat) (b : Block) (resume : Option (Nat × Nat)) (o : ShareOut) : ShareOut :=
  if o.status != stOk then o
  else
    let k0 := match resume with | some (_, k) => k | none => 0
    let (s, st) := readRows o.s core (blockReads pl b k0 pl.k)
    if st != stOk then { o with s := s, status := st }
    else
      let sn := { o.snaps with m1 := s.mem }
      let cols := List.range (blockCols pl b)
      let res := (blockLines pl b).foldl (fun (acc : State × Inexact) (β, r) =>
        let outs := cols.map fun c =>
          let x : Pos := ⟨β, r, b.col0 + c⟩
          let start := match resume with
            | some (a, _) => loadCell pl.acc sn.m1 a (cellIndex pl b x)
            | none => cellStart s sn pl core u b x
          let cell := cellSteps s sn pl core u b x (pl.k - k0) k0 start
          (mmRnd pl b x, cellResult s sn pl core u b x cell)
        let fl := outs.foldl (fun f y => inexactOr f y.2.2) acc.2
        let (s', f') := writeLine pl core b β r (outs.map fun y => (y.1, y.2.1)) acc.1
        (s', inexactOr fl f')) (s, o.fl)
      { s := res.1, status := stOk, fl := res.2, snaps := ⟨sn.m2, sn.m1, res.1.mem⟩, n := o.n + 1 }

/-- Run blocks from number u on, the first of them perhaps resumed. -/
def runBlocks (pl : MmPlan) (core : Nat) : List Block → (u : Nat) → Option (Nat × Nat) → ShareOut → ShareOut
  | [], _, _, o => o
  | b :: l, u, resume, o => runBlocks pl core l (u + 1) none (runBlock pl core u b resume o)

/-- An array is active: its wing's count rises (R123), and the beats that it waited for credit, at the wing's measured rate, are counted (R124,
R127). -/
def arrayOn (s : State) (key : Nat) : State :=
  let wing := key / 512
  let s :=
    match kfind s.arrayWait key with
    | some t =>
      let ticks := (kget s.ticks (wing / 4) 0 + 2 ^ 64 - t) % 2 ^ 64
      incWrap { s with arrayWait := kdel s.arrayWait key } DIE_BEAT_WAIT.wait_beats wing (ticks * rd s DIE_BEAT_RATE.rate wing / 100)
    | none => s
  incSat { s with arrays := kput s.arrays key 1 } WNG_STATUS.active wing

/-- The idle arrays of a core that start a pass ask for activation: within the wing's allowance they are active, others wait for credit
(R123, R124). -/
def activateArrays (s : State) (core : Nat) : State :=
  let wing := core / 64
  (List.range 8).foldl (fun s i =>
    let key := 8 * core + i
    if kget s.arrays key 0 != 0 then s
    else if rd s WNG_STATUS.active wing < rd s WNG_STATUS.allowance wing then arrayOn s key
    else { s with arrays := kput s.arrays key 2, arrayWait := kput s.arrayWait key (kget s.ticks (wing / 4) 0) }) s

/-- Whether all 8 arrays of a core are active: the share's opening swap takes place (R124). -/
def arraysActive (s : State) (core : Nat) : Bool := (List.range 8).all fun i => kget s.arrays (8 * core + i) 0 == 1

/-- The share at a position is to go on from block lo: a pass needs the core's arrays. -/
def startShare (s : State) (pl : MmPlan) (pos lo : Nat) : State × Bool :=
  if pl.k = 0 || (shareBlocks pl pos).length ≤ lo then (s, true)
  else
    let core := pl.cores.getD pos 0
    let s := activateArrays s core
    (s, arraysActive s core)

/-- Whether the next share that a core holds, behind the first, is a MATMUL's: dispatched already, it is ordered after nothing (R113). -/
def joinsNext (s : State) (core : Nat) : Bool :=
  match s.coreShares.filter (·.1 == core) with
  | _ :: (_, q, idx) :: _ => match findCtx s q idx with | some c => descOpcode c.desc == opMatmul && !atSite c | none => false
  | _ => false

/-- Run blocks [lo, hi) of the share at a position, on its core. -/
def runShare (s : State) (pl : MmPlan) (pos lo hi : Nat) (resume : Option (Nat × Nat)) : ShareOut :=
  let core := pl.cores.getD pos 0
  let blocks := ((shareBlocks pl pos).take hi).drop lo
  let o := runBlocks pl core blocks lo resume ⟨{ s with srcAt := some (core / 256) }, stOk, {}, ⟨s.mem, s.mem, s.mem⟩, 0⟩
  let o := { o with s := { o.s with srcAt := none } }
  let last : Bool := (shareBlocks pl pos).length ≤ hi || o.status != stOk
  if pl.k = 0 || o.n = 0 then { o with s := if last then closeJoin o.s core else o.s }
  else
    let streams := (List.range o.n).map fun i => streamBeats pl (if i = 0 then match resume with | some (_, k) => k | none => 0 else 0) pl.k
    let (busy, wait, j) := shareBeats pl (kfind s.arrayJoin core) resume.isSome streams
    let s := addBeats o.s core busy wait
    let s := { s with arrayJoin := kput s.arrayJoin core j }
    -- the run goes on into the share's next block, or into a joined share
    { o with s := if last && !joinsNext s core then closeJoin s core else s }

/-! ### The command -/

/-- A stage of a core that was stalled has completed, or its arrays are reset: stalled_now says whether another of the die still is. -/
def unstall (s : State) (core : Nat) : State :=
  if s.stalled.any (·.1 == core) then
    let s := { s with stalled := s.stalled.filter (·.1 != core) }
    wr s DIE_STALL_STATUS.stalled_now (core / 256) (if s.stalled.any (·.1 / 256 == core / 256) then 1 else 0)
  else s

/-- An array of a core ends its activity or its wait for credit; an active one lowers its wing's count (R123, R125). -/
def arrayIdle (s : State) (core i : Nat) : State :=
  let key := 8 * core + i
  let w := core / 64
  let s := if kget s.arrays key 0 == 1 then wr s WNG_STATUS.active w (rd s WNG_STATUS.active w - 1) else s
  { s with arrays := kdel s.arrays key, arrayWait := kdel s.arrayWait key }

/-- The arrays of a core are reset, with what their chains held (R130, R244). -/
def resetArrays (s : State) (core : Nat) : State :=
  (List.range 8).foldl (fun s i => arrayIdle s core i) (unstall { s with arrayJoin := kdel s.arrayJoin core } core)

/-- A core's share ends or stops: its busy mark goes (R168). -/
def endShare (s : State) (core q idx : Nat) : State :=
  unstall { s with coreShares := s.coreShares.filter (· != (core, q, idx)) } core

/-- Whether the share of a command is the first its core holds (R186). -/
def shareFirst (s : State) (core q idx : Nat) : Bool := s.coreShares.find? (fun e => e.1 == core) == some (core, q, idx)

/-- Whether shares of a command may run: it is at work, or has stopped while units still hold shares of it (R235). A PREEMPT stops the queue's
shares where it finds them (R244). -/
def sharesRun (s : State) (q : Nat) (c : Ctx) : Bool :=
  !(getQ s q).preempting && !atSite c &&
  (c.phase == .running || (c.phase == .stopped && (s.coreShares.any (·.2 == (q, c.idx)) || s.copyShares.any (·.2 == (q, c.idx)))))

/-- Whether the share of a command may run on its core now: first there, the core's sequencer not halted (R587), and its die not
stopping (Table 16.5). -/
def shareRuns (s : State) (core q idx : Nat) : Bool := shareFirst s core q idx && !s.sec.halted.contains core && !dieHeld s (core / 256)

/-- What reading the two records of a command gives (R138, R151, R152). -/
inductive RecsOut where
  | ready (s : State) (lay shape : List Byte)
  /-- the command has stopped or failed -/
  | ended (s : State)

/-- Every core of a command gives its share up: it stops or fails before any core begins. -/
def dropShares (s : State) (q idx : Nat) : State :=
  { s with coreShares := s.coreShares.filter fun e => !(e.2.1 == q && e.2.2 == idx) }

/-- A record read that ends a command: a translation fault stops it, anything else is a failed completion (R152, R224). -/
def recordFail (s : State) (q idx status va : Nat) : State :=
  if status == stWait then s else
  let s := dropShares s q idx
  if status == stFaultPage || status == stFaultPerm then stopShare s q idx 0 (stopPlain status accRead va)
  else finishCtx s q idx status 0

/-- Read the layout record, and the shape record if one is named, once per command. A read that no ordering step orders against an earlier
command's write finds what stands in memory now: R210 lets it find the older bytes too (DESIGN CHOICE, log 109). -/
def readRecords (s : State) (q : Nat) (c : Ctx) (layVa : Nat) (src : Nat) : RecsOut :=
  match c.recs with
  | some (l, sh) => .ready s l sh
  | none =>
    let job := rd s QUE_Q_BIND.space q
    let g := readVa s 1280 job layVa 128
    if g.status != stOk then .ended (recordFail g.s q c.idx g.status g.va)
    else
      let shVa := leAt g.data 0x60 8
      -- a record whose shape address breaks R139 fails before the shape record is read
      if src == 0 || 2 ^ 52 ≤ shVa || shVa % 16 != 0 then
        .ready (modCtx g.s q c.idx fun c => { c with recs := some (g.data, []) }) g.data []
      else
        let h := readVa g.s 1280 job shVa 16
        if h.status != stOk then .ended (recordFail h.s q c.idx h.status h.va)
        else .ready (modCtx h.s q c.idx fun c => { c with recs := some (g.data, h.data) }) g.data h.data

/-- The end of a command whose shares have all ended; a share still held keeps it running. -/
def settle (s : State) (q idx : Nat) : State :=
  match findCtx s q idx with
  | none => s
  | some c =>
    if c.phase == .running && c.stops.isEmpty && !(s.coreShares.any fun e => e.2.1 == q && e.2.2 == idx) then
      finishCtx s q idx stOk 0
    else s

/-- Where a share goes on: its block (or row), and the accumulators and K step of a block that it resumes inside (R230, R622). -/
def shareFrom (c : Ctx) (pos : Nat) : Nat × Option (Nat × Nat) :=
  match kfind c.accAt pos with
  | some (a, b, k) => (b, if k = 0 then none else some (a, k))
  | none => (0, none)

/-- A share has come to its end, or has stopped because it read uncorrectable data: the command then fails with UNCORRECTABLE (R623). -/
def shareDone (s : State) (q idx pos core status : Nat) (fl : Inexact) : State :=
  let s := if status == stOk then incWrap s DIE_SHARES.shares (core / 256) else s
  modCtx s q idx fun c => { c with
    ran := c.ran ++ [pos], count := c.count + (if status == stOk then 1 else 0)
    status := stWorse c.status status, low := c.low || fl.low, high := c.high || fl.high }

/-- Run the shares of a MATMUL that their cores hold first, each from its restart point. -/
def runMatmulShares (pl : MmPlan) (q idx : Nat) (s : State) : State :=
  (List.range pl.cores.length).foldl (fun s pos =>
    match findCtx s q idx with
    | none => s
    | some c =>
      let core := pl.cores.getD pos 0
      if c.ran.contains pos || (kfind c.stops pos).isSome || !shareRuns s core q idx then s
      else
        let (lo, resume) := shareFrom c pos
        let (s, go) := startShare s pl pos lo
        -- arrays without credit wait before their opening swap (R124)
        if !go then s
        else
          let o := runShare s pl pos lo (shareBlocks pl pos).length resume
          shareDone (endShare o.s core q idx) q idx pos core o.status o.fl) s

/-- A DESC_INVALID that a record breaks a rule with: a stop as for a descriptor check (R119, R139, R144). -/
def recordInvalid (s : State) (q idx : Nat) : State :=
  let s := modCtx (dropShares s q idx) q idx fun c => { c with recs := none }
  stopShare s q idx 0 (stopPlain stDescInvalid 3 0)

/-- MATMUL (R141): the records are read once, then each core of the set computes its share (R135 to R157, R623). -/
def execMatmul (q : QueueNo) (idx : BitVec 32) (s : State) : Res :=
  match findCtx s q idx.toNat with
  | none => .next s
  | some c =>
    -- a core set that is a third-party die is that die's work (UCI_ANSWER)
    if descOpcode c.desc != opMatmul || !sharesRun s q c then .next s
    else
      let b := mmBody c.desc
      match readRecords s q c b.layoutVa (mmShapeSrc b) with
      | .ended s => .next s
      | .ready s lay shape =>
        match mmPlan c.desc c.cores lay shape with
        | none => .next (recordInvalid s q c.idx)
        | some pl => .next (bumpFree (settle (runMatmulShares pl q c.idx s) q c.idx))

end Sys2Proof.Machine
end

