-- ==== Sys2Proof/Machine/Vector.lean ====
section
/-!
DEFINITION. The vector engine (file 04, R158 to R166): the nineteen operations of Table 4.5 over one shared row walk.
-/

namespace Sys2Proof.Machine

/-- A VECTOR's body (Table 5.6). -/
structure VecBody where
  layoutVa : Nat
  seed : Nat
  m : Nat
  n : Nat
  sc : Nat
  tc : Nat
  fx : Nat
  fy : Nat
  fr : Nat
  anchor : Nat
  rnd : Nat
  shapeSrc : Nat
  op : Nat

def vecBody (d : Line) : VecBody :=
  let g (lo w : Nat) : Nat := lineBits d 0x28 lo w
  let h (lo w : Nat) : Nat := lineBits d 0x2C lo w
  ⟨lineBits d 0x08 0 64, lineBits d 0x10 0 64, lineBits d 0x18 0 32, lineBits d 0x1C 0 32, lineBits d 0x20 0 32,
   lineBits d 0x24 0 32, g 0 5, g 5 5, g 10 5, g 20 10, h 0 2, h 2 2, h 6 6⟩

/-- Operations that read Y (Table 4.5). -/
def vecReadsY (op : Nat) : Bool := 0x01 ≤ op && op ≤ 0x07

/-- Operations with one result per row (Table 4.5). -/
def vecReduces (op : Nat) : Bool := 0x0E ≤ op && op ≤ 0x11

/-- The checks of a VECTOR body at dispatch (R56, R92, R161, R190, R192). -/
def vecBodyOk (d : Line) : Bool :=
  let b := vecBody d
  lineBits d 0x28 15 5 == 0 && lineBits d 0x28 30 2 == 0 && lineBits d 0x2C 4 2 == 0 && lineBits d 0x2C 12 20 == 0 &&
  lineBits d 0x30 0 128 == 0 &&
  (Fmt.ofCode b.fx).isSome && (Fmt.ofCode b.fr).isSome && (!vecReadsY b.op || (Fmt.ofCode b.fy).isSome) &&
  b.rnd != 3 && b.op ≤ 0x12 && b.layoutVa < 2 ^ 52 && b.layoutVa % 128 == 0

/-- A VECTOR ready to run. -/
structure VecPlan where
  fx : Fmt
  fy : Fmt
  fr : Fmt
  anchor : Int
  rnd : Nat
  seed : Nat
  op : Nat
  sc : Val
  tc : Val
  m : Nat
  n : Nat
  group : Nat
  cores : List Nat
  lay : Layout

/-- R139 for a VECTOR: batch strides are not checked. -/
def vecRecordOk (b : VecBody) (fx fy fr : Fmt) (l : Layout) : Bool :=
  bufOk l false bufA fx.align && (!fx.isMx || bufOk l false bufSa 1) &&
  (!vecReadsY b.op || (bufOk l false bufB fy.align && (!fy.isMx || bufOk l false bufSb 1))) &&
  bufOk l false bufC fr.align && (!fr.isMx || bufOk l false bufSc 1) &&
  l.group < 2 ^ 16 && (b.shapeSrc == 0 || (l.shapeVa < 2 ^ 52 && l.shapeVa % 16 == 0))

def vecPlan (d : Line) (cores : List Nat) (lay shape : List Byte) : Option VecPlan :=
  let b := vecBody d
  match Fmt.ofCode b.fx, Fmt.ofCode b.fr with
  | some fx, some fr =>
    let fy := (Fmt.ofCode b.fy).getD .fp32
    let l := layoutOf lay
    let dim (i desc clamp : Nat) : Nat := clamped (if bitOn b.shapeSrc i then leAt shape (4 * i) 4 else desc) clamp
    if vecRecordOk b fx fy fr l then
      some ⟨fx, fy, fr, signed 10 b.anchor, b.rnd, b.seed, b.op, elemVal .fp32 0 b.sc, elemVal .fp32 0 b.tc,
        dim 0 b.m l.clampM, dim 1 b.n l.clampN, max 1 l.group, cores, l⟩
    else none
  | _, _ => none

/-- What an operation sees of a row, or of the elements of a row that it maps: exact inputs, inputs in FP32 (R160), the row's inputs of
SOFTMAX's first and second pass (R166), Y(r, 0), the scalars, the inputs' roundings into X128 (R165). -/
structure VRow where
  raws : List Val
  xs : List Val
  ys : List Val
  firsts : List Val
  seconds : List Val
  y0 : Val
  sc : Val
  tc : Val
  inRnd : List Rnd
  anchor : Int

/-- An operation on one row: its result values and the flags of its own conversions. -/
abbrev RowFn := VRow → List Val × Inexact

/-- An element-wise operation. -/
def rowMap (f : VRow → Val → Val) : RowFn := fun v => (v.xs.map (f v), {})

/-- An element-wise operation of x and y. -/
def rowZip (f : Val → Val → Val) : RowFn := fun v => (v.xs.zipWith f v.ys, {})

/-- Pairs (2i, 2i + 1) of a level of the tree of R164. -/
def treeLevel (f : Val → Val → Val) : List Val → List Val
  | a :: b :: l => f a b :: treeLevel f l
  | l => l

/-- n levels of the tree. -/
def treeLevels (f : Val → Val → Val) : Nat → List Val → List Val
  | 0, l => l
  | n + 1, l => treeLevels f n (treeLevel f l)

/-- Results of the segments of 64 of a row, the last one padded (R164). -/
def segments (f : Val → Val → Val) (pad : Val) : (fuel : Nat) → List Val → List Val
  | 0, _ => []
  | fuel + 1, l =>
    match l with
    | [] => []
    | _ =>
      let h := l.take 64
      (treeLevels f 6 (h ++ List.replicate (64 - h.length) pad)).headD pad :: segments f pad fuel (l.drop 64)

/-- The fixed reduction of R164: segments combined in ascending order from segment 0. -/
def rowReduce (f : Val → Val → Val) (pad : Val) (l : List Val) : Val :=
  match segments f pad (l.length / 64 + 1) l with
  | [] => pad
  | a :: t => t.foldl f a

def vZero : Val := .fin false 0 0
def vOne : Val := .fin false 1 0
def vNegHalf : Val := .fin true 1 (-1)

def rsum (l : List Val) : Val := rowReduce add32 vZero l
def rmax (l : List Val) : Val := rowReduce max32 (.inf true) l

/-- SILU of one element: x · RCP(1 + EXP(−x)). -/
def silu (x : Val) : Val := mul32 x (rcp32 (add32 vOne (exp32 x.neg)))

/-- RSQRT of one element: EXP(−0.5 · LOG(x)). -/
def rsqrt (x : Val) : Val := exp32 (mul32 vNegHalf (log32 x))

/-- The third pass of SOFTMAX over elements of a row: m comes from the first pass, S from the second (R166). -/
def softmax (firsts seconds xs : List Val) : List Val :=
  let m := rmax firsts
  let r := rcp32 (rsum (seconds.map fun x => exp32 (sub32 x m)))
  xs.map fun x => mul32 (exp32 (sub32 x m)) r

/-- One X128 addition outside the arrays (R86): the code, and INEXACT_HIGH. -/
def x128Add (a b : Nat) : Nat × Bool :=
  match elemVal .x128 0 a, elemVal .x128 0 b with
  | .nan, _ => (x128Nan, false)
  | _, .nan => (x128Nan, false)
  | .inf x, .inf y => if x == y then (if x then x128NegInf else x128PosInf, false) else (x128Nan, false)
  | .inf x, _ => (if x then x128NegInf else x128PosInf, false)
  | _, .inf y => (if y then x128NegInf else x128PosInf, false)
  | .fin .., .fin .. =>
    let c := x128Store (signed 128 a + signed 128 b)
    (c.bits, c.high)

/-- RSUM_X (R165): each element into X128, added exactly. -/
def rsumX : RowFn := fun v =>
  let r := (v.raws.zip v.inRnd).foldl (fun (acc : Nat × Inexact) (x, rn) =>
    let c := conv .x128 v.anchor rn x
    let (s, h) := x128Add acc.1 c.bits
    (s, inexactOr acc.2 ⟨c.low, c.high || h⟩)) (0, {})
  ([elemVal .x128 v.anchor r.1], r.2)

/-- Element bits as a share's row u reads them: what the row itself has written in `w`, or else as the rows before it leave it. A row stands
for a block of R149 here: rows u − 1 and u − 2 may be seen or not (DESIGN CHOICE, log 110). -/
def liveBits (s : State) (sn : Snaps) (w : State) (core u which row bit n : Nat) : Nat :=
  let now := tileBits w.mem core row bit n
  if now != tileBits sn.m1 core row bit n then now else snapBits s sn core u which row bit n

/-- Element i of a row of one buffer, with its scale. -/
def vecVal (s : State) (sn : Snaps) (w : State) (pl : VecPlan) (core u : Nat) (f : Fmt) (buf sbuf lrow i : Nat) : Val :=
  let v := elemVal f pl.anchor (liveBits s sn w core u buf (pl.lay.row buf 0 lrow) (i * f.bits) f.bits)
  if f.isMx then scaledVal (liveBits s sn w core u sbuf (pl.lay.row sbuf 0 lrow) (8 * (i / 32)) 8) v else v

/-- Whether element i of a row lies in an uncorrectable word (R623). -/
def elemBad (s : State) (core row i w : Nat) : Bool :=
  (tileRuns core (row + i * w / 8) ((i * w % 8 + w + 7) / 8)).any fun r => (unitsOf r.1 r.2).any s.ue.contains

/-- The first element from i on whose read fails, or the row's length. -/
def firstBad (s : State) (pl : VecPlan) (core lrow i : Nat) : Nat :=
  if s.ue.isEmpty then pl.n
  else
    let bad (f : Fmt) (buf sbuf i : Nat) : Bool :=
      elemBad s core (pl.lay.row buf 0 lrow) i f.bits || (f.isMx && elemBad s core (pl.lay.row sbuf 0 lrow) (i / 32) 8)
    ((List.range (pl.n - i)).find? fun j =>
      bad pl.fx bufA bufSa (i + j) ||
      (vecReadsY pl.op && (if 0x06 ≤ pl.op then i + j == 0 && bad pl.fy bufB bufSb 0 else bad pl.fy bufB bufSb (i + j)))).elim pl.n (i + ·)

/-- Row accesses of one pass's reads of elements [i, n) of a row; a row counts a wrap once, however often its elements are read (R167). -/
def vecReads (pl : VecPlan) (lrow pass i n : Nat) : List RowAcc :=
  let one (f : Fmt) (buf sbuf i n : Nat) : List RowAcc :=
    if n ≤ i then []
    else
      let x := rowPart (pl.lay.row buf 0 lrow) (i * f.bits) ((n - i) * f.bits)
      let y := rowPart (pl.lay.row sbuf 0 lrow) (8 * (i / 32)) (8 * (cdiv n 32 - i / 32))
      { x with fresh := x.fresh && pass == 0 } :: (if f.isMx then [{ y with fresh := y.fresh && pass == 0 }] else [])
  one pl.fx bufA bufSa i n ++ (if vecReadsY pl.op then one pl.fy bufB bufSb i (if 0x06 ≤ pl.op then min 1 n else n) else [])

/-- Row accesses in order up to the first that meets an uncorrectable word, after which the row reads no more (R623). -/
def readUntil (s : State) (core : Nat) (l : List RowAcc) : State :=
  (l.foldl (fun (o : State × Nat) a => if o.2 != stOk then o else readRows o.1 core [a]) (s, stOk)).1

/-- Passes over X that an operation makes on a row (R166). -/
def rowPasses (op : Nat) : Nat := if op == 0x12 then 3 else 1

/-- A row of a share: the state and the older memories that its reads see, plan, core, ordinal in the share, grid row, local row. -/
structure RowAt where
  s : State
  sn : Snaps
  pl : VecPlan
  core : Nat
  u : Nat
  r : Nat
  lrow : Nat

/-- FP32 values of inputs, and whether one saturated (R160). -/
def toInputs (l : List Val) : List Val × Bool := let c := l.map toF32Sat; (c.map (·.1), c.any (·.2))

/-- What mapping elements gives: result bits, scale bytes, flags. -/
structure Mapped where
  es : List Nat
  scs : List Nat
  fl : Inexact

/-- Map elements [i, i + n) of a row in ascending order, each read and written before the next is read; a block of an MX result is read whole
before its elements are written (R159, R69). `w` is the state as the row's own writes have it. -/
def mapElems (fn : RowFn) (g : RowAt) (run : VecRun) : (fuel i n : Nat) → (w : State) → Mapped
  | 0, _, _, _ => ⟨[], [], {}⟩
  | fuel + 1, i, n, w =>
    if n = 0 then ⟨[], [], {}⟩
    else
      let pl := g.pl
      let k := min n (if pl.fr.isMx then 32 else 1)
      let raws := (List.range k).map fun j => vecVal g.s g.sn w pl g.core g.u pl.fx bufA bufSa g.lrow (i + j)
      let ins := toInputs raws
      let ys := if 0x01 ≤ pl.op ∧ pl.op ≤ 0x05 then
          toInputs ((List.range k).map fun j => vecVal g.s g.sn w pl g.core g.u pl.fy bufB bufSb g.lrow (i + j))
        else ([], false)
      let (out, fl) := fn ⟨raws, ins.1, ys.1, run.firsts, run.seconds, run.y0, pl.sc, pl.tc, [], pl.anchor⟩
      let vals := ((List.range out.length).zip out).map fun (c, x) => (Rnd.of pl.rnd (BitVec.ofNat 64 pl.seed) (g.r * pl.n + i + c), x)
      let (es, scs, fl') := convVals pl.fr pl.anchor vals
      let o := mapElems fn g run fuel (i + k) (n - k) (tileWrite w g.core (pl.lay.row bufC 0 g.lrow) (i * pl.fr.bits) pl.fr.bits es)
      ⟨es ++ o.es, scs ++ o.scs, inexactOr (inexactOr ⟨false, ins.2 || ys.2⟩ (inexactOr fl fl')) o.fl⟩

/-- Write elements of a row of the result from element i on, or its scale bytes (R148). -/
def putElems (s : State) (core row bit w : Nat) (es : List Nat) : State :=
  let a := rowPart row bit (es.length * w)
  tileWrite (if a.fresh then countWrap s core row bit a.len else s) core row bit w es

/-- What running a row, or a part of it, gives: the share so far, and where the row stands if it has not ended. -/
structure RowOut where
  o : ShareOut
  run : Option VecRun

/-- Run one pass of a row from where it stands up to element `hi`, or to the element whose read fails (R159, R623). A reduction and the first
passes of SOFTMAX keep what they read. -/
def rowPass (fn : RowFn) (g : RowAt) (run : VecRun) (hi : Nat) (o : ShareOut) : RowOut :=
  let pl := g.pl
  let bad := firstBad g.s pl g.core g.lrow run.elem
  let failed : Bool := bad < hi
  let n := if failed then bad else hi
  let s := readUntil g.s g.core (vecReads pl g.lrow run.pass run.elem (min hi (n + 1)))
  let g := { g with s := s, sn := { g.sn with m1 := s.mem } }
  let y := if run.elem == 0 && run.pass == 0 && (pl.op == 0x06 || pl.op == 0x07) && !(failed && n == 0) then
      toInputs [vecVal s g.sn s pl g.core g.u pl.fy bufB bufSb g.lrow 0]
    else ([run.y0], false)
  let run := { run with y0 := y.1.headD vZero }
  let fl0 : Inexact := inexactOr o.fl ⟨false, y.2⟩
  if vecReduces pl.op || run.pass + 1 < rowPasses pl.op then
    if failed then ⟨{ o with s := s, status := stUncorrectable }, none⟩
    else
      let raws := (List.range (n - run.elem)).map fun j => vecVal s g.sn s pl g.core g.u pl.fx bufA bufSa g.lrow (run.elem + j)
      let ins := toInputs raws
      let fl := inexactOr fl0 ⟨false, pl.op != 0x11 && ins.2⟩
      let keep := if pl.op == 0x12 then ins.1 else raws
      let run := if run.pass == 0 then { run with firsts := run.firsts ++ keep, elem := n } else { run with seconds := run.seconds ++ keep, elem := n }
      ⟨{ o with s := s, fl := fl }, some run⟩
  else
    -- the blocks of an MX result before the failing read are written, its scale bytes come last
    let n := if failed && pl.fr.isMx then run.elem + (n - run.elem) / 32 * 32 else n
    let w := mapElems fn g run (n + 1) run.elem (n - run.elem) s
    let s := putElems s g.core (pl.lay.row bufC 0 g.lrow) (run.elem * pl.fr.bits) pl.fr.bits w.es
    ⟨{ o with s := s, status := if failed then stUncorrectable else stOk, fl := inexactOr fl0 w.fl },
      if failed then none else some { run with elem := n, scales := run.scales ++ w.scs }⟩

/-- A row that has been read to its end: a reduction writes its one result, an MX result its scale bytes (R148, R164, R165). -/
def rowEnd (fn : RowFn) (g : RowAt) (run : VecRun) (o : ShareOut) : ShareOut :=
  let pl := g.pl
  if vecReduces pl.op then
    let v : VRow := ⟨run.firsts, (toInputs run.firsts).1, [], [], [], run.y0, pl.sc, pl.tc,
      (List.range run.firsts.length).map fun c => Rnd.of pl.rnd (BitVec.ofNat 64 pl.seed) (g.r * pl.n + c), pl.anchor⟩
    let (out, fl) := fn v
    let (es, scs, fl') := convVals pl.fr pl.anchor (out.map fun x => (Rnd.of pl.rnd (BitVec.ofNat 64 pl.seed) g.r, x))
    let s := putElems o.s g.core (pl.lay.row bufC 0 g.lrow) 0 pl.fr.bits es
    { o with
      s := if pl.fr.isMx then putElems s g.core (pl.lay.row bufSc 0 g.lrow) 0 8 scs else s
      fl := inexactOr o.fl (inexactOr fl fl') }
  else if pl.fr.isMx then { o with s := putElems o.s g.core (pl.lay.row bufSc 0 g.lrow) 0 8 run.scales }
  else o

/-- A row not begun. -/
def rowFresh : VecRun := ⟨0, 0, [], [], vZero, []⟩

/-- Run a row from where it stands: to its end, or only up to a pass and an element (R159, R160, R623). -/
def runRow (fn : RowFn) (pl : VecPlan) (core u r lrow : Nat) (stop : Option (Nat × Nat)) : (passes : Nat) → VecRun → ShareOut → RowOut
  | 0, run, o => ⟨rowEnd fn ⟨o.s, o.snaps, pl, core, u, r, lrow⟩ run o, none⟩
  | passes + 1, run, o =>
    let hi := match stop with | some (p, e) => if p = run.pass then min e pl.n else pl.n | none => pl.n
    let x := rowPass fn ⟨o.s, { o.snaps with m1 := o.s.mem }, pl, core, u, r, lrow⟩ run hi o
    match x.run with
    | none => x
    | some run =>
      if (match stop with | some (p, _) => p == run.pass | none => false) then ⟨x.o, some run⟩
      else runRow fn pl core u r lrow stop passes { run with pass := run.pass + 1, elem := 0 } x.o

/-- One row of a share (R159, R160, R623): row number r of the grid, local row lrow, ordinal u in the share, from where it stands. -/
def vecRow (fn : RowFn) (pl : VecPlan) (core u r lrow : Nat) (run : VecRun) (o : ShareOut) : ShareOut :=
  if o.status != stOk then o
  else
    let x := (runRow fn pl core u r lrow none (rowPasses pl.op - run.pass) run o).o
    { x with snaps := ⟨o.snaps.m2, o.snaps.m1, x.s.mem⟩, n := o.n + (if x.status == stOk then 1 else 0) }

/-- The rows of the share at a position: grid row and local row, ascending (R140, R141, R159). -/
def vecShareRows (pl : VecPlan) (pos : Nat) : List (Nat × Nat) :=
  if pl.m = 0 ∨ pl.n = 0 then []
  else
    let p := pl.cores.length
    ((List.range (cdiv pl.m 64)).filter fun b => bandPos pl.group p b == pos).flatMap fun b =>
      (List.range (min 64 (pl.m - 64 * b))).map fun r => (64 * b + r, 64 * localBand pl.group p b + r)

/-- Rows of a share from ordinal u on, the first of them from where it stands. -/
def vecRows (fn : RowFn) (pl : VecPlan) (core : Nat) : List (Nat × Nat) → Nat → VecRun → ShareOut → ShareOut
  | [], _, _, o => o
  | (r, lr) :: l, u, run, o => vecRows fn pl core l (u + 1) rowFresh (vecRow fn pl core u r lr run o)

/-- Run rows [lo, hi) of the share at a position, the first of them from where it stands. -/
def runVecShare (fn : RowFn) (s : State) (pl : VecPlan) (pos lo hi : Nat) (run : VecRun) : ShareOut :=
  let core := pl.cores.getD pos 0
  let o := vecRows fn pl core (((vecShareRows pl pos).take hi).drop lo) lo run
    ⟨{ s with srcAt := some (core / 256) }, stOk, {}, ⟨s.mem, s.mem, s.mem⟩, 0⟩
  { o with s := { o.s with srcAt := none } }

/-- Run the shares that their cores hold first, each from its restart point. -/
def runVecShares (fn : RowFn) (pl : VecPlan) (q idx : Nat) (s : State) : State :=
  (List.range pl.cores.length).foldl (fun s pos =>
    match findCtx s q idx with
    | none => s
    | some c =>
      let core := pl.cores.getD pos 0
      if c.ran.contains pos || (kfind c.stops pos).isSome || !shareRuns s core q idx then s
      else
        let o := runVecShare fn s pl pos (shareFrom c pos).1 (vecShareRows pl pos).length ((kfind c.vecAt pos).getD rowFresh)
        shareDone (endShare o.s core q idx) q idx pos core o.status o.fl) s

/-- The row function of an op code (Table 4.5): CVT converts only (R161); ADD, SUB, MUL; MAX, MIN (R163); ADD_ROW, MUL_ROW; AXPB:
round(round(x · s) + t); EXP, LOG, RCP (R162); RSQRT; SILU; RSUM, RSUMSQ, RMAX (R164); RSUM_X (R165); SOFTMAX (R166). -/
def vecFn (op : Nat) : RowFn :=
  match op with
  | 0x01 => rowZip add32
  | 0x02 => rowZip sub32
  | 0x03 => rowZip mul32
  | 0x04 => rowZip max32
  | 0x05 => rowZip min32
  | 0x06 => rowMap fun v x => add32 x v.y0
  | 0x07 => rowMap fun v x => mul32 x v.y0
  | 0x08 => rowMap fun v x => add32 (mul32 x v.sc) v.tc
  | 0x09 => rowMap fun _ x => exp32 x
  | 0x0A => rowMap fun _ x => log32 x
  | 0x0B => rowMap fun _ x => rcp32 x
  | 0x0C => rowMap fun _ x => rsqrt x
  | 0x0D => rowMap fun _ x => silu x
  | 0x0E => fun v => ([rsum v.xs], {})
  | 0x0F => fun v => ([rsum (v.xs.map fun x => mul32 x x)], {})
  | 0x10 => fun v => ([rmax v.xs], {})
  | 0x11 => rsumX
  | 0x12 => fun v => (softmax v.firsts v.seconds v.xs, {})
  | _ => rowMap fun _ x => x

/-- A VECTOR command whose op code is `op` (R158, R159). -/
def runVector (op : Nat) (q idx : Nat) (s : State) : State :=
  match findCtx s q idx with
  | none => s
  | some c =>
    if descOpcode c.desc != opVector || !sharesRun s q c || (vecBody c.desc).op != op then s
    else
      let b := vecBody c.desc
      match readRecords s q c b.layoutVa b.shapeSrc with
      | .ended s => s
      | .ready s lay shape =>
        match vecPlan c.desc c.cores lay shape with
        | none => recordInvalid s q c.idx
        | some pl => bumpFree (settle (runVecShares (vecFn op) pl q c.idx s) q c.idx)

/-- CVT (R161). -/
def execCvt (q : QueueNo) (idx : BitVec 32) (s : State) : Res :=
  .next (runVector 0x00 q idx.toNat s)
/-- ADD: x + y (R161). -/
def execVectorAdd (q : QueueNo) (idx : BitVec 32) (s : State) : Res :=
  .next (runVector 0x01 q idx.toNat s)
/-- SUB: x − y (R161). -/
def execVecSub (q : QueueNo) (idx : BitVec 32) (s : State) : Res :=
  .next (runVector 0x02 q idx.toNat s)
/-- MUL: x · y (R161). -/
def execVecMul (q : QueueNo) (idx : BitVec 32) (s : State) : Res :=
  .next (runVector 0x03 q idx.toNat s)
/-- MAX: the exact maximum (R163). -/
def execVectorMax (q : QueueNo) (idx : BitVec 32) (s : State) : Res :=
  .next (runVector 0x04 q idx.toNat s)
/-- MIN: the exact minimum (R163). -/
def execVectorMin (q : QueueNo) (idx : BitVec 32) (s : State) : Res :=
  .next (runVector 0x05 q idx.toNat s)
/-- ADD_ROW: x + Y(r, 0) (R161). -/
def execAddRow (q : QueueNo) (idx : BitVec 32) (s : State) : Res :=
  .next (runVector 0x06 q idx.toNat s)
/-- MUL_ROW: x · Y(r, 0) (R161). -/
def execMulRow (q : QueueNo) (idx : BitVec 32) (s : State) : Res :=
  .next (runVector 0x07 q idx.toNat s)
/-- AXPB: round(round(x · s) + t) (R161). -/
def execAxpb (q : QueueNo) (idx : BitVec 32) (s : State) : Res :=
  .next (runVector 0x08 q idx.toNat s)
/-- EXP (R162). -/
def execVecExp (q : QueueNo) (idx : BitVec 32) (s : State) : Res :=
  .next (runVector 0x09 q idx.toNat s)
/-- LOG (R162). -/
def execVecLog (q : QueueNo) (idx : BitVec 32) (s : State) : Res :=
  .next (runVector 0x0A q idx.toNat s)
/-- RCP (R162). -/
def execRcp (q : QueueNo) (idx : BitVec 32) (s : State) : Res :=
  .next (runVector 0x0B q idx.toNat s)
/-- RSQRT (R161). -/
def execRsqrt (q : QueueNo) (idx : BitVec 32) (s : State) : Res :=
  .next (runVector 0x0C q idx.toNat s)
/-- SILU (R161). -/
def execSilu (q : QueueNo) (idx : BitVec 32) (s : State) : Res :=
  .next (runVector 0x0D q idx.toNat s)
/-- RSUM (R164). -/
def execRsum (q : QueueNo) (idx : BitVec 32) (s : State) : Res :=
  .next (runVector 0x0E q idx.toNat s)
/-- RSUMSQ (R164). -/
def execRsumsq (q : QueueNo) (idx : BitVec 32) (s : State) : Res :=
  .next (runVector 0x0F q idx.toNat s)
/-- RMAX (R164). -/
def execRmax (q : QueueNo) (idx : BitVec 32) (s : State) : Res :=
  .next (runVector 0x10 q idx.toNat s)
/-- RSUM_X (R165). -/
def execRsumX (q : QueueNo) (idx : BitVec 32) (s : State) : Res :=
  .next (runVector 0x11 q idx.toNat s)
/-- SOFTMAX (R166). -/
def execSoftmax (q : QueueNo) (idx : BitVec 32) (s : State) : Res :=
  .next (runVector 0x12 q idx.toNat s)

end Sys2Proof.Machine
end

