-- ==== Sys2Proof/Machine/Remote.lean ====
section
/-!
DEFINITION. Remote loads, stores and atomics (file 11): the requester, the destination's checks, the reply cache.
-/

namespace Sys2Proof.Machine

/-- Operation codes (Table 11.1). -/
def rcLoad : Nat := 0x01
def rcStore : Nat := 0x02
def rcAdd : Nat := 0x10
def rcMinS : Nat := 0x11
def rcMinU : Nat := 0x12
def rcMaxS : Nat := 0x13
def rcMaxU : Nat := 0x14
def rcSwap : Nat := 0x15
def rcCas : Nat := 0x16
def rcAddX128 : Nat := 0x17

def rcIsAtomic (c : Nat) : Bool := 0x10 ≤ c && c ≤ 0x17

/-! ### Packets (Table 11.4) -/

/-- A packet of this panel before its route is set. -/
def packetNew (s : State) (dst cls unit owner : Nat) (payload : List Byte) : Packet :=
  ⟨dst, cls, rd s FAB_COORD.node, 0, 0, rd s FAB_EPOCH.current, 0, 0, 0, 0, 0, 0, unit, 0, owner, payload⟩

/-- The request packet of an operation. -/
def requestPacket (s : State) (o : RmtOp) : Packet :=
  let owner := o.key + 2 ^ 16 * (o.code % 32 + 2 ^ 5 * (o.size - 1)) + 2 ^ 32 * (o.rid % 2 ^ 16)
  let word := leBytes 8 (o.offset % 2 ^ 40 + 2 ^ 40 * o.window + 2 ^ 52 * (o.rid / 2 ^ 16))
  let block := if rcIsAtomic o.code then leBytes 4 o.seq ++ leBytes 4 o.floor ++ leBytes 2 (rd s RMT_STATUS.incarnation) ++ leBytes 6 0 else []
  let body := if o.code == rcLoad then [] else o.data
  packetNew s o.node 0 (40 + primaryHub s) owner (word ++ block ++ body)

/-- The parts of a request packet. -/
def rqKey (p : Packet) : Nat := p.owner % 2 ^ 16
def rqCode (p : Packet) : Nat := p.owner / 2 ^ 16 % 32
def rqSize (p : Packet) : Nat := p.owner / 2 ^ 21 % 2 ^ 9 + 1
def rqWord (p : Packet) : Nat := leAt p.payload 0 8
def rqRid (p : Packet) : Nat := p.owner / 2 ^ 32 % 2 ^ 16 + 2 ^ 16 * (rqWord p / 2 ^ 52)
def rqOffset (p : Packet) : Nat := rqWord p % 2 ^ 40
def rqWindow (p : Packet) : Nat := rqWord p / 2 ^ 40 % 2 ^ 12
def rqSeq (p : Packet) : Nat := leAt p.payload 8 4
def rqFloor (p : Packet) : Nat := leAt p.payload 12 4
def rqInc (p : Packet) : Nat := leAt p.payload 16 2
def rqData (p : Packet) : List Byte := p.payload.drop (if rcIsAtomic (rqCode p) then 24 else 8)

/-- The reply packet to a request. -/
def replyPacket (s : State) (p : Packet) (status : Nat) (high : Bool) (reason : Nat) (data : List Byte) : Packet :=
  let rid := rqRid p
  let owner := status + 2 ^ 8 * (if high then 2 else 0) + 2 ^ 10 * reason + 2 ^ 16 * (rid % 2 ^ 16) + 2 ^ 32 * (rid / 2 ^ 16)
  packetNew s p.src 1 (40 + primaryHub s) owner data

def rpStatus (p : Packet) : Nat := p.owner % 2 ^ 8
def rpHigh (p : Packet) : Bool := bitOn p.owner 9
def rpReason (p : Packet) : Nat := p.owner / 2 ^ 10 % 2 ^ 6
def rpRid (p : Packet) : Nat := p.owner / 2 ^ 16 % 2 ^ 16 + 2 ^ 16 * (p.owner / 2 ^ 32 % 2 ^ 12)

/-- Send a packet of this panel: to itself it never enters the fabric (R354, R391). -/
def sendPacket (s : State) (own : InjOwner) (p : Packet) : State :=
  if p.dst == rd s FAB_COORD.node && p.mc == 0 then
    if p.cls == 0 then { s with rmtHeld := s.rmtHeld ++ [p] }
    else if p.cls == 1 then { s with rmtReplies := s.rmtReplies ++ [p] }
    else s
  else { s with injQ := s.injQ ++ [(own, p)] }

/-! ### The requester (R386 to R403) -/

/-- Requests outstanding. -/
def rmtOutstanding (s : State) : Nat := (s.rmtOps.filter (·.issued)).length

/-- Keep RMT_OUTSTANDING current. -/
def rmtCount (s : State) : State :=
  wr (wr s RMT_OUTSTANDING.outstanding 0 (rmtOutstanding s)) RMT_OUTSTANDING.held 0 (min 1024 s.rmtHeld.length)

/-- Whether no packet of class RSP waits to be injected: a REQ waits at delivery for the RSP credit of its reply (R371). -/
def repliesOut (s : State) : Bool := s.injQ.all fun e => e.2.cls != 1

/-- The six owner bytes, unit and class of the acknowledgement of a windowed packet (R365). -/
def ackPacket (s : State) (p : Packet) : Packet := packetNew s p.src 1 (40 + primaryHub s) (Config.ackOwner p.cls) []

/-- Whether the receive region of a port reads as uncorrectable data (R380, R621). -/
def bufHole (s : State) (port : Nat) : Bool := regionHole s (rd s FAB_PORT_BUF.base port * 2 ^ 20)

/-- A REQ packet that waits in a receive buffer for the remote engine's space and the RSP credit of its reply is taken from it (R363, R371, R397): its
credits return, it is acknowledged (R365), and it crosses the panel (R327); one whose region cannot be read is dropped (R380, R621). -/
def pullReq (s : State) : State :=
  if 1024 ≤ s.rmtHeld.length || !repliesOut s then s
  else match s.fabWaits.find? fun w => w.output == 5 && w.pkt.cls == 0 with
    | none => s
    | some w =>
      let s := emit { s with fabWaits := s.fabWaits.erase w } (.fabCredit w.input w.vc ((16 + w.pkt.payload.length + 63) / 64))
      if bufHole s w.input then setBit (incSat s FAB_DROPS2.buf_ue) FAB_STATUS.drops_seen
      else
        let s := sendPacket s .none (ackPacket s w.pkt)
        let h := tcnWalk s false 0 w.pkt.unit maxHops ⟨engineNode (portEngine s w.input), none, false⟩
        if h.node == w.pkt.unit then { s with rmtHeld := s.rmtHeld ++ [w.pkt] }
        else { s with tcn := s.tcn ++ [⟨w.pkt, h.node, h.via, w.pkt.unit, h.esc, none⟩] }

/-- Hand an operation to the remote engine; a STORE above 248 bytes goes in two parts (R389). -/
def rmtSubmit (s : State) (origin : RmtOrigin) (code size node window offset : Nat) (data : List Byte) (job : Nat) (flag : Bool)
    (va : Nat := 0) : State :=
  let wait := (s.rmtOps.filter fun o => o.issued && o.code != rcLoad && o.job == job).map (·.id)
  let mk (id size offset : Nat) (data : List Byte) : RmtOp :=
    ⟨id, origin, code, size, node, window, offset, data, 0, job, flag, false, 0, 0, 0, 0, 0, 0, wait, false, none, va⟩
  let n := s.rmtNextId
  if code == rcStore && 248 < size then
    { s with rmtOps := s.rmtOps ++ [mk n 248 offset (data.take 248), mk (n + 1) (size - 248) (offset + 248) (data.drop 248)], rmtNextId := n + 2 }
  else { s with rmtOps := s.rmtOps ++ [mk n size offset data], rmtNextId := n + 1 }

def getRmtCmd (s : State) (q idx : Nat) : Option RmtCmd := s.rmtCmds.find? fun c => c.queue == q && c.idx == idx
def modRmtCmd (s : State) (q idx : Nat) (f : RmtCmd → RmtCmd) : State :=
  { s with rmtCmds := s.rmtCmds.map fun c => if c.queue == q && c.idx == idx then f c else c }

/-- Whether an origin names operation of one REMOTE. -/
def originOf (q idx : Nat) : RmtOrigin → Bool
  | .entry a b _ => a == q && b == idx
  | _ => false

/-- Fields of an operation entry (Table 11.2). -/
structure OpEntry where
  code : Nat
  flag : Bool
  size : Nat
  node : Nat
  window : Nat
  offset : Nat
  va : Nat
  ok : Bool

/-- Read an operation entry and check it (R385). -/
def opEntry (b : List Byte) : OpEntry :=
  let code := leAt b 0 1
  let w2 := leAt b 2 2
  let size := w2 % 2 ^ 9
  let off := leAt b 8 8
  let va := leAt b 0x10 8
  let sizeOk :=
    if code == rcLoad || code == rcStore then 8 ≤ size && size ≤ 256
    else if code == rcAddX128 then size == 16
    else rcIsAtomic code && (size == 4 || size == 8 || size == 16)
  let ok := sizeOk && leAt b 1 1 / 2 == 0 && w2 / 2 ^ 9 == 0 && leAt b 4 2 / 2 ^ 14 == 0 && leAt b 6 2 / 2 ^ 12 == 0 &&
    off / 2 ^ 40 == 0 && va / 2 ^ 52 == 0 && leAt b 0x18 8 == 0 && off + size ≤ 2 ^ 40 &&
    (!rcIsAtomic code || (off % size == 0 && va % size == 0))
  ⟨code, leAt b 1 1 % 2 == 1, size, leAt b 4 2 % 2 ^ 14, leAt b 6 2 % 2 ^ 12, off % 2 ^ 40, va, ok⟩

/-- REMOTE body (Table 5.10). -/
def rmOps (d : Line) : Nat := lineBits d 0x08 0 64
def rmResult (d : Line) : Nat := lineBits d 0x10 0 64
def rmCount (d : Line) : Nat := lineBits d 0x18 0 16

/-- A result entry (Table 11.3). -/
def resultEntry (a : RmtAns) : List Byte :=
  leBytes 1 a.status ++ leBytes 1 ((if a.high then 2 else 0) + 4 * a.reason) ++ leBytes 1 (min 255 a.sends) ++ leBytes 1 0 ++
  leBytes 4 a.seq ++ leBytes 8 0 ++ leBytes 16 a.old

/-- Whether any part of an operation has been issued: it is outstanding, or a part of it is or has been answered. -/
def rmtBegun (s : State) (o : RmtOp) : Bool := s.rmtOps.any fun x => x.origin == o.origin && (x.issued || x.part.isSome)

/-- Index of an operation in its REMOTE's list. -/
def originIdx : RmtOrigin → Nat
  | .entry _ _ i => i
  | _ => 0

/-- The engine issues no further operation of a REMOTE: those reached and not issued are given back to its list (R237, R244). -/
def rmtWithdraw (s : State) (q idx : Nat) : State :=
  let out := s.rmtOps.filter fun o => originOf q idx o.origin && !rmtBegun s o
  let s := { s with rmtOps := s.rmtOps.filter fun o => !out.contains o }
  modRmtCmd s q idx fun c => { c with next := out.foldl (fun n o => min n (originIdx o.origin)) c.next }

/-- Record a fault of a REMOTE: no later operation is issued; it is reported once the issued ones are done (R237). -/
def rmtFault (s : State) (q idx status access va : Nat) : State :=
  rmtWithdraw (modRmtCmd s q idx fun c => { c with fault := if c.fault.isSome then c.fault else some (status, access, va) }) q idx

/-- Whether a status is a fault of translation. -/
def isFault (st : Nat) : Bool := st == stFaultPage || st == stFaultPerm

/-- Write the result entries of answered operations in ascending order (R387). One whose writes fault keeps its answer; the others are
written before the fault is reported (R237). A write that must wait is made later; one that fails without a fault fails the command (R224). -/
def rmtWriteResults (s : State) (q : Nat) (c : Ctx) : State :=
  match getRmtCmd s q c.idx with
  | none => s
  | some cmd =>
    cmd.answers.foldl (fun s (i, a) =>
      match getRmtCmd s q c.idx with
      | none => s
      | some cmd =>
        if cmd.written.contains i then s
        else
          let job := rd s QUE_Q_BIND.space q
          -- a LOAD's data goes to local_va, only if its status is OK
          let (s, st, va) := if !a.data.isEmpty && a.status == stOk then writeVa s 1282 job q c.idx a.va a.data else (s, stOk, 0)
          if st == stWait then s
          else if isFault st then rmtFault s q c.idx st accWrite va
          else
            let (s, st', va) := writeVa s 1282 job q c.idx (rmResult c.desc + 32 * i) (resultEntry a)
            if st' == stWait then s
            else if isFault st' then rmtFault s q c.idx st' accWrite va
            else modRmtCmd s q c.idx fun cmd => { cmd with
              written := setIns cmd.written i, fail := stWorse cmd.fail (stWorse st st') }) s

/-- Operations of a REMOTE that the engine holds, waiting or outstanding. -/
def rmtOpen (s : State) (q idx : Nat) : Nat := (s.rmtOps.filter fun o => originOf q idx o.origin).length

/-- Operations of a REMOTE among them: the two parts of a STORE are one operation (R237, R389). -/
def rmtOpenOps (s : State) (q idx : Nat) : Nat :=
  (s.rmtOps.filter fun o => originOf q idx o.origin && !(s.rmtOps.any fun x => x.origin == o.origin && x.id < o.id)).length

/-- The answer of an operation that was not sent (R624). -/
def rmtUnsent (status : Nat) : RmtAns := ⟨status, false, 0, 0, 0, 0, [], 0⟩

/-- Reach the next operations of a REMOTE, in list order, while at most 32 are outstanding (R237, R398, R624). A PREEMPT of the queue has no
further one issued (R244); a read that must wait is made again later. -/
def rmtReach (q : Nat) (c : Ctx) : (fuel : Nat) → State → State
  | 0, s => s
  | fuel + 1, s =>
    match getRmtCmd s q c.idx with
    | none => s
    | some cmd =>
      if rmCount c.desc ≤ cmd.next || cmd.fault.isSome || cmd.ended.isSome || (getQ s q).preempting || 32 ≤ rmtOpenOps s q c.idx ||
          s.rmtOps.any (fun o => originOf q c.idx o.origin && o.flag && !o.issued) then s
      else if (kfind cmd.answers cmd.next).isSome || s.rmtOps.any (·.origin == .entry q c.idx cmd.next) then
        -- answered or issued before a stop: not issued again (R237)
        rmtReach q c fuel (modRmtCmd s q c.idx fun cmd => { cmd with next := cmd.next + 1 })
      else
        let i := cmd.next
        let job := rd s QUE_Q_BIND.space q
        let g := readVa s 1282 job (rmOps c.desc + 32 * i) 32
        if g.status == stWait then g.s
        else if isFault g.status then rmtFault g.s q c.idx g.status accRead g.va
        else if g.status != stOk then modRmtCmd g.s q c.idx fun cmd => { cmd with ended := some (i, g.status) }
        else
          let e := opEntry g.data
          if !e.ok then rmtFault g.s q c.idx stDescInvalid 3 0
          else
            let n := if e.code == rcCas then 2 * e.size else e.size
            let x := xlRange g.s 1282 job (if e.code == rcLoad then accWrite else accRead) e.va n
            if x.status == stWait then x.s
            else if isFault x.status then rmtFault x.s q c.idx x.status (if e.code == rcLoad then accWrite else accRead) x.va
            else
              let h := if e.code == rcLoad then ⟨x.s, x.status, []⟩ else if x.status != stOk then ⟨x.s, x.status, []⟩ else readRuns x.runs x.s
              let s := modRmtCmd h.s q c.idx fun cmd => { cmd with next := i + 1 }
              if h.status == stWait then h.s
              else if h.status != stOk then
                rmtReach q c fuel (modRmtCmd s q c.idx fun cmd => { cmd with answers := kput cmd.answers i (rmtUnsent h.status) })
              else
                rmtReach q c fuel (rmtSubmit s (.entry q c.idx i) e.code e.size e.node e.window e.offset h.data job e.flag e.va)

/-- Index of the first operation neither answered nor marked done (Table 6.4). -/
def rmtRestart (cmd : RmtCmd) (n : Nat) : Nat := ((List.range n).find? fun i => (kfind cmd.answers i).isNone).getD n

/-- Bit i: operation restart + 1 + i is done (Table 6.4). -/
def rmtDoneBits (cmd : RmtCmd) (r : Nat) : Nat :=
  (List.range 32).foldl (fun m i => if (kfind cmd.answers (r + 1 + i)).isSome then m + 2 ^ i else m) 0

/-- Whether an answered operation's result entry is still to be written. -/
def rmtUnwritten (cmd : RmtCmd) : Bool := cmd.answers.any fun a => !cmd.written.contains a.1

/-- Once every issued operation is done, the unreadable operation entry has its answer (R624). -/
def rmtEnd (s : State) (q : Nat) (c : Ctx) : State :=
  match (getRmtCmd s q c.idx).bind (·.ended) with
  | some (i, st) =>
    if rmtOpen s q c.idx != 0 then s
    else modRmtCmd s q c.idx fun cmd => { cmd with
      answers := if rmtUnwritten cmd || (kfind cmd.answers i).isSome then cmd.answers else kput cmd.answers i (rmtUnsent st) }
  | none => s

/-- A REMOTE whose open operations are done: its stop is recorded, or it is finished (R237, R409). -/
def rmtSettle (s : State) (q : Nat) (c : Ctx) : State :=
  match getRmtCmd s q c.idx with
  | none => s
  | some cmd =>
    if rmtOpen s q c.idx != 0 then s
    else match cmd.fault with
      | some (st, acc, va) =>
        let r := rmtRestart cmd (rmCount c.desc)
        let s := modRmtCmd s q c.idx fun cmd => { cmd with fault := none }
        stopShare s q c.idx 0 ⟨st, acc, va, 4 * 2 ^ 28, r, rmtDoneBits cmd r, cmd.answers.length, 0⟩
      | none =>
        let all := match cmd.ended with | some (i, _) => (kfind cmd.answers i).isSome | none => cmd.answers.length == rmCount c.desc
        if !rmtUnwritten cmd && all then
          let bad := (List.range (rmCount c.desc)).filter fun i => match kfind cmd.answers i with | some a => a.status != stOk | none => true
          let st := cmd.answers.foldl (fun st a => stWorse st a.2.status) cmd.fail
          let r0 := bad.length % 2 ^ 16 + 2 ^ 16 * (bad.headD 0xFFFF)
          let s := { s with rmtCmds := s.rmtCmds.filter fun x => !(x.queue == q && x.idx == c.idx) }
          finishCtx s q c.idx st r0 ⟨false, cmd.answers.any fun a => a.2.high⟩
        else s

/-- Go on with a REMOTE: write what is answered, reach further operations, settle. -/
def rmtAdvance (s : State) (q idx : Nat) : State :=
  match findCtx s q idx with
  | none => s
  | some c =>
    if c.phase != .running then s
    else
      let s := rmtWriteResults s q c
      let s := rmtReach q c (32 + rmCount c.desc) s
      let s := rmtWriteResults s q c
      let s := rmtWriteResults (rmtEnd s q c) q c
      rmtCount (rmtSettle s q c)

/-- REMOTE (R409): the engine takes the command up and reaches its operations in list order. -/
def execRemote (q : QueueNo) (idx : BitVec 32) (s : State) : Res :=
  match findCtx s q idx.toNat with
  | none => .next s
  | some c =>
    if descOpcode c.desc != opRemote || c.phase != .running then .next s
    else if rmCount c.desc == 0 then .next (finishCtx s q c.idx stOk (2 ^ 16 * 0xFFFF))
    else
      let s := if (getRmtCmd s q c.idx).isSome then s else { s with rmtCmds := s.rmtCmds ++ [⟨q, c.idx, 0, [], [], none, none, stOk⟩] }
      .next (rmtAdvance s q c.idx)

/-- The lowest number to a node that still awaits its reply, or the next to be given: the number farthest below the next, modulo 2^32 (R403). -/
def rmtFloor (s : State) (node : Nat) : Nat :=
  let n := kget s.rmtSeq node 0
  let back := (s.rmtOps.filter fun o => o.issued && o.node == node && rcIsAtomic o.code).foldl (fun d o => max d ((n + 2 ^ 32 - o.seq) % 2 ^ 32)) 0
  (n + 2 ^ 32 - back) % 2 ^ 32

/-- Whether an atomic to a node may take the next number: every number at or below s − 64 is answered or has failed (R403). -/
def seqFree (s : State) (node : Nat) : Bool :=
  let n := kget s.rmtSeq node 0
  (s.rmtOps.filter fun o => o.issued && o.node == node && rcIsAtomic o.code).all fun o => (n + 2 ^ 32 - o.seq) % 2 ^ 32 < 64

/-- Issue one operation: rid, the key in force, sequence block, first send (R390, R392, R400, R403). -/
def rmtIssue (s : State) (o : RmtOp) : State :=
  let at_ := rcIsAtomic o.code
  let n := kget s.rmtSeq o.node 0
  let floor := if at_ then rmtFloor s o.node else 0
  let o' := { o with
    issued := true, key := rd s RMT_JOB_KEY.key o.job, rid := s.rmtNextRid, seq := if at_ then n else 0, floor := floor, sends := 1,
    retry := rd s RMT_CTL.retry_100us, timeout := rd s RMT_CTL.timeout_ms }
  let s := { s with
    rmtOps := s.rmtOps.map (fun x => if x.id == o.id then o' else x),
    rmtNextRid := (s.rmtNextRid + 1) % 2 ^ 28,
    rmtSeq := if at_ then kput s.rmtSeq o.node ((n + 1) % 2 ^ 32) else s.rmtSeq }
  rmtCount (sendPacket s (.remote o.id) (requestPacket s o'))

/-- REMOTE_ISSUE (R403): the first operation without flag that the limits allow. -/
def execRemoteIssue (s : State) : Res :=
  if 8192 ≤ rmtOutstanding s then .next s
  else match s.rmtOps.find? fun o => !o.issued && !o.flag && (!rcIsAtomic o.code || seqFree s o.node) with
    | none => .next s
    | some o => .next (rmtIssue s o)

/-- Keys of a remote side's stores; its loads have the other four of a group's eight (pieceKey). -/
def keyStore (key : Nat) : Bool := 4 ≤ key % 8

/-- The answer to a remote piece of a COPY. A failed one stops the share: what it has not issued of that group and later ones is not sent
(R281). -/
def copyAnswer (s : State) (q idx key : Nat) (a : RmtAns) : State :=
  let mine (c : CopyRemote) : Bool := c.queue == q && c.idx == idx && c.waiting.contains key
  let out := if !keyStore key || a.status == stOk then [] else
    match s.copyRemotes.find? mine with
    | some c => (s.rmtOps.filter fun o => !o.issued && (match o.origin with
      | .copy q' idx' k => q' == q && idx' == idx && c.waiting.contains k && key / 8 ≤ k / 8
      | _ => false)).map (·.origin)
    | none => []
  let gone (k : Nat) : Bool := k == key || out.contains (.copy q idx k)
  { s with
    rmtOps := s.rmtOps.filter fun o => !out.contains o.origin
    copyRemotes := s.copyRemotes.map fun c =>
      if mine c then { c with
        waiting := c.waiting.filter fun k => !gone k
        answers := if keyStore key then c.answers else kput c.answers key a
        status := if keyStore key then stWorse c.status a.status else c.status }
      else c }

/-- Take the answer of a request to whatever it came from. -/
def rmtAnswer (s : State) (o : RmtOp) (a : RmtAns) : State :=
  let s := { s with rmtOps := s.rmtOps.filter (·.id != o.id) }
  -- the status of a STORE in two parts is chosen under R25, its reason is that of a refused part (R387, R389)
  let a := match o.part with
    | some (st, reason) => { a with status := stWorse st a.status, reason := if st == stRefused then reason else a.reason }
    | none => a
  let a := { a with reason := if a.status == stRefused then a.reason else 0, va := o.va }
  -- the other part of a STORE is still open
  if s.rmtOps.any (·.origin == o.origin) then
    rmtCount { s with rmtOps := s.rmtOps.map fun x => if x.origin == o.origin then { x with part := some (a.status, a.reason) } else x }
  else match o.origin with
    | .entry q idx i =>
      let s := modRmtCmd s q idx fun c => { c with answers := kput c.answers i a }
      rmtAdvance (rmtCount s) q idx
    | .signal q idx =>
      rmtCount (finishCtx s q idx a.status (if a.status == stOk then a.old else 0))
    | .copy q idx key => rmtCount (copyAnswer s q idx key a)

/-- A request fails (R354, R399, R400). A flagged operation that waited on a write of its job is not issued (R399). -/
def rmtFail (s : State) (o : RmtOp) : State :=
  let s := incSat s RMT_REQ_STATS.timeouts
  let s := if o.code == rcLoad then s
    else { s with rmtOps := s.rmtOps.map fun x => if x.flag && !x.issued && x.waitOn.contains o.id then { x with doomed := true } else x }
  rmtAnswer s o ⟨stTimeout, false, 0, o.sends, o.seq, 0, [], 0⟩

/-- FLAGGED_ISSUE (R398, R399): the first flagged operation, once no STORE or atomic of the panel is unanswered. -/
def execFlaggedIssue (s : State) : Res :=
  match s.rmtOps.find? fun o => !o.issued && o.flag with
  | none => .next s
  | some o =>
    if s.rmtOps.any fun x => x.issued && x.code != rcLoad then .next s
    else if s.rmtOps.any fun x => !x.issued && x.id < o.id && x.origin != o.origin &&
        (match o.origin with | .entry q idx _ => originOf q idx x.origin | _ => false) then .next s
    else if o.doomed then .next (rmtFail s o)
    else if rmtOutstanding s < 8192 && (!rcIsAtomic o.code || seqFree s o.node) then .next (rmtIssue s o)
    else .next s

/-- REMOTE_REPLY (R390): the next delivered reply is matched by source and rid. -/
def execRemoteReply (s : State) : Res :=
  match s.rmtReplies with
  | [] => .next s
  | p :: rest =>
    let s := { s with rmtReplies := rest }
    match s.rmtOps.find? fun o => o.issued && o.rid == rpRid p && o.node == p.src with
    | none => .next (incSat s RMT_REQ_STATS.unmatched)
    | some o =>
      let ok := rpStatus p == stOk || rpStatus p == stInexactHigh
      .next (rmtAnswer s o ⟨rpStatus p, rpHigh p, if rpStatus p == stRefused then rpReason p else 0, o.sends, o.seq,
        if ok && rcIsAtomic o.code then leNat p.payload else 0, if o.code == rcLoad then padTo o.size p.payload else [], 0⟩)

/-- REMOTE_RETRY (R400): a request's retry interval has passed without an answer; it is sent again. -/
def execRemoteRetry (rid : BitVec 28) (s : State) : Res :=
  match s.rmtOps.find? fun o => o.issued && o.rid == rid.toNat with
  | none => .next s
  | some o =>
    if o.timeout * 10 ≤ o.retry then .next s
    else
      let s := { s with rmtOps := s.rmtOps.map fun x => if x.id == o.id then { x with sends := x.sends + 1 } else x }
      .next (sendPacket (incSat s RMT_REQ_STATS.retries) (.remote o.id) (requestPacket s o))

/-- REMOTE_TIMEOUT (R400, R401): a request is unanswered at its timeout. -/
def execRemoteTimeout (rid : BitVec 28) (s : State) : Res :=
  match s.rmtOps.find? fun o => o.issued && o.rid == rid.toNat with
  | none => .next s
  | some o => .next (rmtFail s o)

/-! ### The destination (R391 to R408) -/

/-- What the checks of Table 11.5 give a request: a refusal reason, or the runs it may touch, or that its walk must wait. -/
structure Checked where
  s : State
  reason : Nat
  runs : List (Nat × Nat)
  wait : Bool

/-- R393, R394: the checks in their order. -/
def checkRequest (s : State) (p : Packet) : Checked :=
  let w := rqWindow p
  let code := rqCode p
  let size := rqSize p
  if !on s RMT_CTL.enable then ⟨s, 0x01, [], false⟩
  else if !on s RMT_WIN_CTL.enable w then ⟨s, 0x02, [], false⟩
  else if rqKey p == 0 || rqKey p != rd s RMT_WIN_CTL.key w then ⟨s, 0x03, [], false⟩
  else if rd s RMT_WIN_CTL.size_pages w * 4096 < rqOffset p + size then ⟨s, 0x04, [], false⟩
  else if !(if code == rcLoad then on s RMT_WIN_CTL.read w else if code == rcStore then on s RMT_WIN_CTL.write w
      else on s RMT_WIN_CTL.atomic w) then ⟨s, 0x05, [], false⟩
  else
    let kind := if code == rcLoad then accRead else if code == rcStore then accWrite else accAtomic
    let x := xlRange s 1282 (rd s RMT_WIN_CTL.job w) kind (rd s RMT_WIN_BASE.va w * 4096 + rqOffset p) size
    if x.status == stWait then ⟨x.s, 0, [], true⟩
    else if x.status != stOk || x.runs.any (fun r => 2 ^ 52 ≤ r.1) then ⟨x.s, 0x06, [], false⟩
    else ⟨x.s, 0, x.runs, false⟩

/-- Record a refusal (R393). -/
def recordRefusal (s : State) (p : Packet) (reason : Nat) : State :=
  let s := incSat s RMT_REFUSE_LAST.refused
  wr (wr (wr s RMT_REFUSE_LAST.reason 0 reason) RMT_REFUSE_LAST.src 0 p.src) RMT_REFUSE_LAST.window 0 (rqWindow p)

/-- Whether two runs touch one 64-byte line (R397). -/
def lineShared (x y : Nat × Nat) : Bool := x.1 / 64 ≤ (y.1 + y.2 - 1) / 64 && y.1 / 64 ≤ (x.1 + x.2 - 1) / 64

/-- Whether a request touches a 64-byte line that another touches, by their places in one window or by the places they translate to (R397). -/
def sameLine (s : State) (p r : Packet) : Bool :=
  (rqWindow p == rqWindow r && lineShared (rqOffset p, rqSize p) (rqOffset r, rqSize r)) ||
  (checkRequest s p).runs.any fun x => (checkRequest s r).runs.any (lineShared x)

/-- The first held request of a code that no earlier held request to its line precedes, and the rest. -/
def takeHeld (s : State) (code : Nat) : (before rest : List Packet) → Option (Packet × List Packet)
  | _, [] => none
  | before, p :: rest =>
    if rqCode p == code && !before.any (sameLine s p) then some (p, before ++ rest)
    else takeHeld s code (before ++ [p]) rest

/-- Queue number that marks a far-tier write of the remote engine: no queue waits for it. -/
def noQueue : Nat := 4096

/-- The index that a request's far-tier writes carry: its source and rid, which every send of it has (R400). -/
def reqTag (p : Packet) : Nat := p.src * 2 ^ 28 + rqRid p

/-- Replies wait for a far-tier write of the remote engine under an index; none if there is no such write. -/
def joinReplies (tag : Nat) (rs : List Packet) : List FarWrite → Option (List FarWrite)
  | [] => none
  | w :: l => if w.queue == noQueue && w.idx == tag then some ({ w with replies := w.replies ++ rs } :: l) else (joinReplies tag rs l).map (w :: ·)

/-- Send the replies to a request, or have them wait for a far-tier write that performing it still needs (R396, R309). -/
def sendReplies (s : State) (tag : Nat) (rs : List Packet) : State :=
  match joinReplies tag rs s.farWrites with
  | some l => { s with farWrites := l }
  | none => rs.foldl (fun s r => sendPacket s .none r) s

/-- Answer a request; its reply waits for far-tier writes that performing it still needs (R396, R309). -/
def answerRequest (s : State) (p : Packet) (status : Nat) (high : Bool) (reason : Nat) (data : List Byte) : State :=
  sendReplies s (reqTag p) [replyPacket s p status high reason data]

/-- A held request has been performed, or refused: it leaves the engine, which takes another from the receive buffers (R397). -/
def heldDone (s : State) (rest : List Packet) : State := rmtCount (pullReq { s with rmtHeld := rest })

/-- LOAD (R395, R396): checked, read, answered. One whose read must wait stays held. -/
def execRemoteLoad (s : State) : Res :=
  match takeHeld s rcLoad [] s.rmtHeld with
  | none => .next s
  | some (p, rest) =>
    let k := checkRequest s p
    if k.wait then .next k.s
    else if k.reason != 0 then .next (answerRequest (recordRefusal (heldDone k.s rest) p k.reason) p stRefused false k.reason [])
    else
      let g := readRuns k.runs k.s
      if g.status == stWait then .next g.s
      else .next (answerRequest (heldDone g.s rest) p g.status false 0 (if g.status == stOk then g.data else []))

/-- STORE (R396, R402): checked, performed, answered. One whose write must wait stays held, and is performed again whole. -/
def execRemoteStore (s : State) : Res :=
  match takeHeld s rcStore [] s.rmtHeld with
  | none => .next s
  | some (p, rest) =>
    let k := checkRequest s p
    if k.wait then .next k.s
    else if k.reason != 0 then .next (answerRequest (recordRefusal (heldDone k.s rest) p k.reason) p stRefused false k.reason [])
    else
      let (s, st) := writeRuns noQueue (reqTag p) k.runs (padTo (rqSize p) (rqData p)) k.s
      if st == stWait then .next s
      else .next (answerRequest (heldDone s rest) p st false 0 [])

/-- The new value of an atomic, and INEXACT_HIGH (Table 11.1, R383, R384). -/
def atomicNew (code size old : Nat) (arg : List Byte) : Nat × Bool :=
  let w := 8 * size
  let x := leAt arg 0 size
  if code == rcAdd then ((old + x) % 2 ^ w, false)
  else if code == rcMinS then (if signed w x < signed w old then x else old, false)
  else if code == rcMinU then (if x < old then x else old, false)
  else if code == rcMaxS then (if signed w old < signed w x then x else old, false)
  else if code == rcMaxU then (if old < x then x else old, false)
  else if code == rcSwap then (x, false)
  else if code == rcCas then (if old == x then leAt arg size size else old, false)
  else x128Add old x

/-- Check and perform a new atomic: status, flag, reason and old value (R393 to R396). The status says if it must wait. -/
structure Performed where
  s : State
  status : Nat
  high : Bool
  reason : Nat
  old : Nat

def performAtomic (s : State) (p : Packet) : Performed :=
  let k := checkRequest s p
  if k.wait then ⟨k.s, stWait, false, 0, 0⟩
  else if k.reason != 0 then ⟨recordRefusal k.s p k.reason, stRefused, false, k.reason, 0⟩
  else
    let g := readRuns k.runs k.s
    if g.status != stOk then ⟨g.s, g.status, false, 0, 0⟩
    else
      let old := leNat g.data
      let (v, high) := atomicNew (rqCode p) (rqSize p) old (rqData p)
      let (s, st) := writeRuns noQueue (reqTag p) k.runs (leBytes (rqSize p) v) g.s
      ⟨s, if st != stOk then st else if high then stInexactHigh else stOk, high, 0, if st == stOk then old else 0⟩

/-- Enter a reply into the cache; a full cache evicts its earliest entry (R405). -/
def rcEnter (s : State) (e : RcEntry) : State :=
  let s :=
    if s.rmtCache.length < 4096 then s
    else setBit (incSat { s with rmtCache := s.rmtCache.drop 1 } RMT_RC_STATS.evictions) RMT_STATUS.evicted
  let s := { s with rmtCache := s.rmtCache ++ [e] }
  wr s RMT_RC_STATS.in_use 0 s.rmtCache.length

/-- Advance E past processed numbers at the bottom of the map (R404). -/
def recAdvance : (fuel : Nat) → AtomicRec → AtomicRec
  | 0, r => r
  | fuel + 1, r => if r.done % 2 == 1 then recAdvance fuel { r with next := (r.next + 1) % 2 ^ 32, done := r.done / 2 } else r

/-- Whether a is above b modulo 2^32. -/
def seqAbove (a b : Nat) : Bool := let d := (a + 2 ^ 32 - b) % 2 ^ 32; 0 < d && d < 2 ^ 31

/-- A new number: checked, performed, cached, marked and answered (Table 11.7). -/
def newAtomic (s : State) (p : Packet) (r : AtomicRec) : State :=
  let sq := rqSeq p
  let x := performAtomic s p
  let s := rcEnter x.s ⟨p.src, sq, x.status, x.high, x.reason, x.old, rqSize p⟩
  let d := (sq + 2 ^ 32 - r.next) % 2 ^ 32
  let s := { s with rmtRecs := kput s.rmtRecs p.src (recAdvance 64 { r with done := bitSet r.done d }) }
  let ok := x.status == stOk || x.status == stInexactHigh
  answerRequest s p x.status x.high x.reason (if ok then leBytes (rqSize p) x.old else [])

/-- The region that holds counters, records and replies returns uncorrectable data: every record is invalid (R408). Its event comes once. -/
def loseRmt (s : State) : State :=
  let s := raiseIf (!s.rmtLost) { s with rmtRecs := [], rmtCache := [], rmtLost := true } 0x013
  wr s RMT_RC_STATS.in_use 0 0

/-- Whether the region that RMT_STATE names reaches a hole or an excluded stack: what is written there is lost (R621). -/
def rmtHole (s : State) : Bool :=
  let a := rd s RMT_STATE.base * 2 ^ 20
  (List.range 256).any fun i => regionHole s (a + 4096 * i)

/-- Keep the reply cache's entries that pass a test, and its count. -/
def rcKeep (s : State) (ok : RcEntry → Bool) : State :=
  let s := { s with rmtCache := s.rmtCache.filter ok }
  wr s RMT_RC_STATS.in_use 0 s.rmtCache.length

/-- The first atomic of a source's incarnation: the source's cache entries go, and its record begins at the atomic's number (Table 11.7). -/
def freshAtomic (s : State) (p : Packet) : State := newAtomic (rcKeep s (·.src != p.src)) p ⟨rqInc p, rqSeq p, 0⟩

/-- An atomic of a source with its record, if it has one (Table 11.7). -/
def placeAtomic (s : State) (p : Packet) : State :=
  let sq := rqSeq p
  let inc := rqInc p
  match kfind s.rmtRecs p.src with
  | none => freshAtomic s p
  | some r =>
    let di := (inc + 2 ^ 16 - r.inc) % 2 ^ 16
    if 1 ≤ di && di < 2 ^ 15 then freshAtomic s p
    else if di != 0 then incSat s RMT_REQ_STATS.unmatched
    else
      let d := (sq + 2 ^ 32 - r.next) % 2 ^ 32
      if d < 64 && !bitOn r.done d then newAtomic s p r
      else if d < 64 || 2 ^ 31 ≤ d then
        match s.rmtCache.find? fun e => e.src == p.src && e.seq == sq with
        | some e =>
          let ok := e.status == stOk || e.status == stInexactHigh
          answerRequest s p e.status e.high e.reason (if ok then leBytes e.size e.old else [])
        | none => answerRequest (incSat (setBit s RMT_STATUS.stale_sent) RMT_RC_STATS.stale) p stStale false 0 []
      else
        -- numbers beyond the map: E moves to s − 63, unprocessed ones below it are passed over
        let e' := (sq + 2 ^ 32 - 63) % 2 ^ 32
        let shift := d - 63
        let kept := r.done / 2 ^ shift
        let seen := popCount 64 (r.done % 2 ^ min shift 64)
        let s := incSat s RMT_RC_STATS.skipped 0 (shift - seen)
        newAtomic s p { r with next := e', done := kept }

/-- An arriving atomic: lost records are lost first (R408), and its floor frees the entries below it (R405). -/
def handleAtomic (s : State) (p : Packet) : State :=
  placeAtomic (rcKeep (if rmtHole s then loseRmt s else s) fun e => !(e.src == p.src && seqAbove (rqFloor p) e.seq)) p

/-- Whether an arriving atomic is performed: its record is absent, lost or of an earlier incarnation, or its number is new (Table 11.7). A repeat of
a processed number reads the reply cache alone (R397). -/
def atomicDue (s : State) (p : Packet) : Bool :=
  rmtHole s || match kfind s.rmtRecs p.src with
    | none => true
    | some r =>
      let di := (rqInc p + 2 ^ 16 - r.inc) % 2 ^ 16
      let d := (rqSeq p + 2 ^ 32 - r.next) % 2 ^ 32
      (1 ≤ di && di < 2 ^ 15) || (di == 0 && !(d < 64 && bitOn r.done d) && d < 2 ^ 31)

/-- Handle the first held atomic of a code. One that comes after a reset of this panel, which R407 leaves without a defined outcome, is handled
like any other (DESIGN CHOICE, log 137). -/
def runAtomic (code : Nat) (s : State) : State :=
  match takeHeld s code [] s.rmtHeld with
  | none => s
  | some (p, rest) =>
    -- one whose read must wait stays held, and nothing of it is done
    let w := performAtomic s p
    if atomicDue s p && w.status == stWait then w.s else handleAtomic (heldDone s rest) p

/-- ADD (R404, Table 11.1). -/
def execRemoteAdd (s : State) : Res := .next (runAtomic rcAdd s)
/-- MIN_S (R404). -/
def execMinS (s : State) : Res := .next (runAtomic rcMinS s)
/-- MIN_U (R404). -/
def execMinU (s : State) : Res := .next (runAtomic rcMinU s)
/-- MAX_S (R404). -/
def execMaxS (s : State) : Res := .next (runAtomic rcMaxS s)
/-- MAX_U (R404). -/
def execMaxU (s : State) : Res := .next (runAtomic rcMaxU s)
/-- SWAP (R404). -/
def execSwap (s : State) : Res := .next (runAtomic rcSwap s)
/-- CAS (R404). -/
def execCas (s : State) : Res := .next (runAtomic rcCas s)
/-- ADD_X128 (R384). -/
def execAddX128 (s : State) : Res := .next (runAtomic rcAddX128 s)

/-- REPLY_CACHE_EXPIRY (R405): lifetime_ms has passed since the earliest entry was written. -/
def execReplyCacheExpiry (s : State) : Res :=
  let s := { s with rmtCache := s.rmtCache.drop 1 }
  .next (wr s RMT_RC_STATS.in_use 0 s.rmtCache.length)

/-- RMT_STATE_LOST (R408): the region returns uncorrectable data; every record is treated as invalid. -/
def execRmtStateLost (s : State) : Res :=
  .next (loseRmt s)

/-- RMT_ENABLE (R392): a write of RMT_CTL.enable; an enable without a state region is refused. -/
def execRmtEnable (v : Bool) (s : State) : Res :=
  if v then
    if rd s RMT_STATE.base == 0 then .next (setBit s RMT_STATUS.cfg_ignored)
    else .next (wr s RMT_CTL.enable 0 1)
  else .next (wr s RMT_CTL.enable 0 0)

/-- RMT_WIN_WRITE (R412): a 64-bit write of RMT_WIN_CTL for a window: every field at once. -/
def execRmtWinWrite (window : BitVec 12) (v : W64) (s : State) : Res :=
  let w := window.toNat
  let n := v.toNat
  let put (s : State) (f : Fld) : State := wr s f w (bitsOf n f.lo f.w)
  .next ([RMT_WIN_CTL.size_pages, RMT_WIN_CTL.key, RMT_WIN_CTL.job, RMT_WIN_CTL.atomic, RMT_WIN_CTL.write, RMT_WIN_CTL.read,
    RMT_WIN_CTL.enable].foldl put s)

/-- RMT_CLEAR: a write of RMT_CLR. -/
def execRmtClear (s : State) : Res :=
  .next ([RMT_REQ_STATS.unmatched, RMT_REQ_STATS.retries, RMT_REQ_STATS.timeouts, RMT_RC_STATS.evictions, RMT_RC_STATS.stale,
    RMT_RC_STATS.skipped, RMT_REFUSE_LAST.refused, RMT_REFUSE_LAST.reason, RMT_REFUSE_LAST.src, RMT_REFUSE_LAST.window].foldl
    (fun s f => wr s f 0 0) s)

end Sys2Proof.Machine
end

