-- ==== Sys2Proof/Machine/Copy.lean ====
section
/-!
DEFINITION. The copy engines (file 07, R267 to R282): the division of a COPY into shares, the addresses of its two sides, and
the operations MOVE, ACCUMULATE and REDUCE_PLANES. A side of kind 3 goes through the remote engine (R280, R410).
-/

namespace Sys2Proof.Machine

/-- A COPY's body (Table 5.7), with its strides as they stand in the descriptor. -/
structure CpBody where
  srcAddr : Nat
  dstAddr : Nat
  seed : Nat
  count0 : Nat
  count1 : Nat
  count2 : Nat
  srcS1 : Nat
  srcS2 : Nat
  dstS1 : Nat
  dstS2 : Nat
  fmtSrc : Nat
  fmtDst : Nat
  anchorSrc : Nat
  anchorDst : Nat
  rnd : Nat
  srcKind : Nat
  dstKind : Nat
  transpose : Bool
  op : Nat
  node : Nat

def cpBody (d : Line) : CpBody :=
  let g (lo w : Nat) : Nat := lineBits d 0x38 lo w
  ⟨lineBits d 0x08 0 64, lineBits d 0x10 0 64, lineBits d 0x18 0 64, lineBits d 0x20 0 24, lineBits d 0x20 24 24, lineBits d 0x20 48 16,
   lineBits d 0x28 0 32, lineBits d 0x2C 0 32, lineBits d 0x30 0 32, lineBits d 0x34 0 32,
   g 0 5, g 5 5, g 10 10, g 20 10, g 30 2, g 32 2, g 34 2, g 36 1 == 1, g 37 2, g 40 14⟩

/-- COPY operations (Table 5.7). -/
def cpMove : Nat := 0
def cpAccumulate : Nat := 1
def cpReduce : Nat := 2

/-- One side of a COPY (Table 5.8, Table 7.4). -/
structure Side where
  fmt : Fmt
  anchor : Int
  kind : Nat
  /-- address within its memory: the device virtual address, tile offset, wing offset or window offset -/
  base : Nat
  s1 : Int
  /-- byte distance between planes -/
  s2 : Int
  /-- core-set position of plane 0 and positions between planes (kind 1) -/
  i0 : Nat
  step : Int
  wing : Nat
  window : Nat

/-- The side that an address, its strides and its format give; the core it names is looked up in the core set. -/
def sideOf (cores : List Nat) (fmt : Fmt) (anchor kind addr s1 s2 : Nat) : Side :=
  let base := if kind == 0 then addr % 2 ^ 52 else if kind == 1 then addr % 2 ^ 20 else if kind == 2 then addr % 2 ^ 26 else addr % 2 ^ 40
  { fmt := fmt, anchor := signed 10 anchor, kind := kind, base := base, s1 := signed 32 s1
    s2 := if kind == 1 then (s2 % 2 ^ 20 : Nat) else signed 32 s2
    i0 := (cores.idxOf? (addr / 2 ^ 20 % 2 ^ 14)).getD 0
    step := signed 12 (s2 / 2 ^ 20)
    wing := addr / 2 ^ 26 % 2 ^ 8, window := addr / 2 ^ 40 % 2 ^ 12 }

/-- The core that holds plane p of a kind-1 side. -/
def Side.core (x : Side) (cores : List Nat) (p : Nat) : Nat :=
  cores.getD ((((x.i0 : Int) + p * x.step) % (max 1 cores.length : Nat)).toNat) 0

/-- First byte of row r of plane p, before any reduction. -/
def Side.row (x : Side) (p r : Nat) : Int := (x.base : Int) + p * x.s2 + r * x.s1

/-- Bytes of n elements of a row (R275); 6-bit elements fill whole groups of 4 at a row's end. -/
def rowBytes (f : Fmt) (n : Nat) : Nat :=
  if f.bits == 6 then 3 * cdiv n 4 else cdiv (n * f.bits) 8

/-- A COPY ready to run. -/
structure CpPlan where
  src : Side
  dst : Side
  n0 : Nat
  n1 : Nat
  n2 : Nat
  rnd : Nat
  seed : Nat
  tr : Bool
  op : Nat
  node : Nat
  cores : List Nat

/-- The engine set (R267): clusters of the core set's cores, in order of first appearance. -/
def engineSet (cores : List Nat) : List Nat :=
  ((cores.filter (· < 2 ^ 15)).map (· / 8)).foldl (fun l c => if l.contains c then l else l ++ [c]) []

/-- The plan that a descriptor and a core set give; none where a format code is reserved. -/
def cpPlan (d : Line) (cores : List Nat) : Option CpPlan :=
  let b := cpBody d
  match Fmt.ofCode b.fmtSrc, Fmt.ofCode b.fmtDst with
  | some fs, some fd =>
    some ⟨sideOf cores fs b.anchorSrc b.srcKind b.srcAddr b.srcS1 b.srcS2, sideOf cores fd b.anchorDst b.dstKind b.dstAddr b.dstS1 b.dstS2,
      b.count0, b.count1, b.count2, b.rnd, b.seed, b.transpose, b.op, b.node, cores⟩
  | _, _ => none

/-- Address form and alignment of one side (Table 5.8, R194, R272, R274). -/
def sideOk (s : State) (cores : List Nat) (x : Side) (addr rawS2 : Nat) : Bool :=
  let form :=
    if x.kind == 0 || x.kind == 3 then addr < 2 ^ 52
    else if x.kind == 1 then
      addr < 2 ^ 34 && addr / 2 ^ 20 < 10240 && dieActive s (addr / 2 ^ 28) && cores.contains (addr / 2 ^ 20)
    else addr < 2 ^ 34 && x.wing < 160 && dieActive s (x.wing / 4)
  let al := x.fmt.align
  form && x.base % al == 0 && x.s1 % al == 0 && (if x.kind == 1 then rawS2 % 2 ^ 20 % al == 0 else x.s2 % al == 0)

/-- Planes whose cores decide the engines: positions repeat after as many planes as the set has entries (R272). -/
def cpPlanes (pl : CpPlan) : List Nat := List.range (min pl.n2 pl.cores.length)

/-- Whether a MOVE copies bits unchanged (R277). -/
def bitCopy (pl : CpPlan) : Bool :=
  pl.op == cpMove && pl.src.fmt == pl.dst.fmt && (pl.src.fmt != .x128 || pl.src.anchor == pl.dst.anchor)

/-- The checks of a COPY at dispatch; a COPY that rounds nothing has no use for rnd, and reserved code 0b11 of it is not checked there
(DEDUCED, log 111) (R56, R92, R190, R194, R267, R269, R274, R279, R280). -/
def cpBodyOk (s : State) (cores : List Nat) (d : Line) : Bool :=
  let b := cpBody d
  match cpPlan d cores with
  | none => false
  | some pl =>
    let onCore (p : Nat) : Bool :=
      let c (x : Side) : Nat := x.core cores p
      (pl.src.kind != 1 || c pl.src < 2 ^ 15) && (pl.dst.kind != 1 || c pl.dst < 2 ^ 15) &&
      (pl.src.kind != 1 || pl.dst.kind != 1 || c pl.src / 8 == c pl.dst / 8)
    let flat (f : Fmt) : Bool := !f.isMx && (f.bits == 8 || f.bits == 16 || f.bits == 32)
    lineBits d 0x38 39 1 == 0 && lineBits d 0x38 54 10 == 0 && b.op != 3 && (b.rnd != 3 || bitCopy pl) &&
    sideOk s cores pl.src b.srcAddr b.srcS2 && sideOk s cores pl.dst b.dstAddr b.dstS2 &&
    !(engineSet cores).isEmpty && (cpPlanes pl).all onCore &&
    !(b.op == cpReduce && ((pl.src.kind == 1 && pl.src.step != 0) || b.dstS2 != 0)) &&
    !(b.transpose && (b.op == cpReduce || !flat pl.src.fmt || !flat pl.dst.fmt)) &&
    !(b.srcKind == 3 && b.dstKind == 3) && !((b.srcKind == 3 || b.dstKind == 3) && (b.op != cpMove || b.transpose))

/-! ### Units, shares and groups (R268 to R270, R233) -/

/-- A group: the elements between two restart points. Rows [r, r + rn) of plane p, elements [c, c + cn), and the row's ordinal
within the share. -/
structure Grp where
  ord : Nat
  p : Nat
  r : Nat
  rn : Nat
  c : Nat
  cn : Nat

/-- Units of a COPY (Table 7.3). -/
def cpUnits (pl : CpPlan) : Nat :=
  if pl.n0 = 0 ∨ pl.n1 = 0 ∨ pl.n2 = 0 then 0
  else if pl.op == cpReduce then pl.n1
  else if pl.tr then cdiv pl.n1 32 * pl.n2
  else pl.n1 * pl.n2

/-- Plane, first row and rows of a unit. -/
def unitRows (pl : CpPlan) (u : Nat) : Nat × Nat × Nat :=
  if pl.op == cpReduce then (0, u, 1)
  else if pl.tr then
    let g := cdiv pl.n1 32
    (u / g, u % g * 32, min 32 (pl.n1 - u % g * 32))
  else (u / pl.n1, u % pl.n1, 1)

/-- The units of the engine at a place in the engine set (R269). -/
def engineUnits (pl : CpPlan) (e : Nat) : List Nat :=
  let es := engineSet pl.cores
  let n := cpUnits pl
  if pl.src.kind == 1 || pl.dst.kind == 1 then
    (List.range n).filter fun u =>
      let p := (unitRows pl u).1
      (if pl.src.kind == 1 then pl.src.core pl.cores p else pl.dst.core pl.cores p) / 8 == es.getD e 0
  else
    let k := max 1 es.length
    let lo := e * (n / k) + min e (n % k)
    (List.range (n / k + if e < n % k then 1 else 0)).map (lo + ·)

/-- The groups of a list of units in order; `ord` is the row ordinal of the first. -/
def unitGroups (pl : CpPlan) : List Nat → (ord : Nat) → List Grp
  | [], _ => []
  | u :: l, ord =>
    let (p, r, rn) := unitRows pl u
    ((List.range (cdiv pl.n0 32)).map fun g => ⟨ord, p, r, rn, 32 * g, min 32 (pl.n0 - 32 * g)⟩) ++ unitGroups pl l (ord + rn)

/-- What a share still has to do from its restart point on. -/
def engineGroups (pl : CpPlan) (e ord c : Nat) : List Grp :=
  (unitGroups pl (engineUnits pl e) 0).dropWhile fun g => g.ord < ord || (g.ord == ord && g.c < c)

/-! ### Bytes of a side -/

/-- Flat runs of n bytes of a side, or the status and address at which its translation fails. -/
def sideRuns (s : State) (pl : CpPlan) (x : Side) (cache job kind p : Nat) (a : Int) (n : Nat) : Runs :=
  if x.kind == 0 then
    if a < 0 then ⟨s, stFaultPage, (a % (2 ^ 64 : Nat)).toNat, []⟩ else xlRange s cache job kind a.toNat n
  else
    let size := if x.kind == 1 then 2 ^ 20 else 2 ^ 26
    let o := (a % (size : Nat)).toNat
    let at_ (o : Nat) : Nat := if x.kind == 1 then tileFlat (x.core pl.cores p) o else wingFlat x.wing o
    ⟨s, stOk, 0, if o + n ≤ size then [(at_ o, n)] else [(at_ o, size - o), (at_ 0, o + n - size)]⟩

/-- What every access of a share needs: the command, its engine, memory as the command found it, and the bytes that other
shares of it have written. -/
structure Env where
  pl : CpPlan
  q : Nat
  idx : Nat
  cache : Nat
  job : Nat
  mem0 : List Host.Cell
  others : List (Nat × Nat)
  remote : KMap RmtAns
  /-- the engine's place in the engine set -/
  e : Nat

/-- An access of n bytes at unreduced address a of a kind-1 or kind-2 side, for the unit row of ordinal `ord`. A unit row in which any byte
lies outside its memory counts once on the memory's die, however often its groups are run (R273). -/
def cpWrap (s : State) (v : Env) (x : Side) (p ord : Nat) (a : Int) (n : Nat) : State :=
  let size : Int := if x.kind == 1 then 2 ^ 20 else 2 ^ 26
  if (x.kind == 1 || x.kind == 2) && n != 0 && (a < 0 || size < a + (n : Nat)) then
    let core := x.core v.pl.cores p
    let die := if x.kind == 1 then core / 256 else x.wing / 4
    let key := (v.e, ord, die)
    if (findCtx s v.q v.idx).any (·.wrapped.contains key) then s
    else
      let s := modCtx s v.q v.idx fun c => { c with wrapped := key :: c.wrapped.filter fun w => w.1 != v.e || ord < w.2.1 + 32 }
      let s := incSat s DIE_WRAP_COUNT.wraps die
      if x.kind == 1 then wr s DIE_WRAP_COUNT.last_core die (core % 256) else s
  else s

/-- Bytes as an unordered read returns them: the old value or the new one, byte by byte (R210, R270). -/
def mixOld (s : State) (mem0 : List Host.Cell) : List (Nat × Nat) → List Byte → List Byte
  | [], l => l
  | (a, n) :: rs, l =>
    ((List.range n).zipWith (fun i b =>
      let old := memByte mem0 (devFlat s (a + i))
      if old == b then b else if Config.pick s.free (a + i) % 2 == 0 then old else b) (l.take n)) ++ mixOld s mem0 rs (l.drop n)

/-- Where a group's work ends early. -/
inductive GrpStop where
  /-- a translation fault: status, access, address -/
  | fault (status access va : Nat)
  /-- a status that the share stops with (R281) -/
  | fail (status : Nat)

/-- What reading a part of a group gives. -/
structure GrpGot where
  s : State
  stop : Option GrpStop
  data : List Byte

/-- The key of a piece of a remote side: unit row, group of 32, piece (0 and 1 elements loaded, 2 their scale, 3 a byte to merge with; 4 and 5
elements stored, 6 their scale). -/
def pieceKey (pl : CpPlan) (p r c j : Nat) : Nat := (((p * pl.n1 + r) * 2 ^ 20) + c / 32) * 8 + j

/-- The answer of a remote piece as a read. -/
def answerGot (s : State) (v : Env) (key : Nat) : GrpGot :=
  match kfind v.remote key with
  | some a => if a.status == stOk then ⟨s, none, a.data⟩ else ⟨s, some (.fail a.status), []⟩
  | none => ⟨s, some (.fail stRefused), []⟩

/-- Read n bytes of a side at byte address a, as an access of a kind: the destination of an ACCUMULATE is a write alone (R221). -/
def cpRead (s : State) (v : Env) (x : Side) (kind p ord : Nat) (a : Int) (n : Nat) : GrpGot :=
  let r := sideRuns (cpWrap s v x p ord a n) v.pl x v.cache v.job kind p a n
  if isFault r.status then ⟨r.s, some (.fault r.status kind r.va), []⟩
  else if r.status != stOk then ⟨r.s, some (.fail r.status), []⟩
  else
    let g := readRuns r.runs r.s
    if g.status != stOk then ⟨g.s, some (.fail g.status), []⟩
    else ⟨g.s, none, if kind == accWrite then g.data else mixOld g.s v.mem0 r.runs g.data⟩

/-- Read the elements [c, c + cn) of a row of a side, with the scale byte of their block, for the unit row of ordinal `ord`. -/
def cpReadElems (s : State) (v : Env) (x : Side) (n0 p r ord c cn : Nat) (kind : Nat := accRead) : GrpGot × Nat :=
  let bytes := rowBytes x.fmt cn
  let go : GrpGot :=
    if x.kind == 3 then
      let g := answerGot s v (pieceKey v.pl p r c 0)
      if g.stop.isSome || bytes ≤ 256 then g
      else
        let h := answerGot s v (pieceKey v.pl p r c 1)
        { h with data := g.data ++ h.data }
    else cpRead s v x kind p ord (x.row p r + (c * x.fmt.bits / 8 : Nat)) (cdiv (cn * x.fmt.bits) 8)
  if go.stop.isSome || !x.fmt.isMx then (go, 0)
  else
    let sc : GrpGot :=
      if x.kind == 3 then answerGot go.s v (pieceKey v.pl p r c 2)
      else cpRead go.s v x kind p ord (x.row p r + (rowBytes x.fmt n0 : Nat) + (c / 32 : Nat)) 1
    ({ sc with data := go.data }, leNat sc.data)

/-- Element bits of packed bytes. -/
def unpackElems (w n : Nat) (bs : List Byte) : List Nat :=
  let v := leNat bs
  (List.range n).map fun i => v / 2 ^ (i * w) % 2 ^ w

/-- The first n bytes of a list of runs, and the rest. -/
def splitRuns : Nat → List (Nat × Nat) → List (Nat × Nat) × List (Nat × Nat)
  | _, [] => ([], [])
  | n, (a, k) :: l =>
    if k ≤ n then
      let (x, y) := splitRuns (n - k) l
      ((a, k) :: x, y)
    else if n = 0 then ([], (a, k) :: l)
    else ([(a, n)], (a + n, k - n) :: l)

/-- Bytes to store where another share of the command has written too: which of the two values stays is open (R210). -/
def mixOthers (s : State) (v : Env) : List (Nat × Nat) → List Byte → List Byte
  | [], _ => []
  | (a, n) :: rs, l =>
    ((List.range n).zipWith (fun i b =>
      if (v.others.any fun o => o.1 ≤ a + i && a + i < o.1 + o.2) && Config.pick s.free (a + i + 2 ^ 70) % 2 == 0 then memByte s.mem (devFlat s (a + i)) else b)
      (l.take n)) ++ mixOthers s v rs (l.drop n)

/-- A part of a group to be written: byte address, flat runs, bits, value. -/
structure CpPart where
  a : Int
  runs : List (Nat × Nat)
  bits : Nat
  val : Nat

/-- The parts of a group, translated; none of them is written unless all of them can be (R233). -/
structure GrpPrep where
  s : State
  stop : Option GrpStop
  parts : List CpPart

/-- Translate the parts of a group of the destination, and see that each can be written. -/
def cpPrep (v : Env) (p : Nat) : List (Int × Nat × Nat) → State → GrpPrep
  | [], s => ⟨s, none, []⟩
  | (a, bits, val) :: l, s =>
    let r := sideRuns s v.pl v.pl.dst v.cache v.job accWrite p a (cdiv bits 8)
    if isFault r.status then ⟨r.s, some (.fault r.status accWrite r.va), []⟩
    else if r.status != stOk then ⟨r.s, some (.fail r.status), []⟩
    else
      let (s, st) := reachRuns r.runs r.s
      if st != stOk then ⟨s, some (.fail st), []⟩
      else
        let t := cpPrep v p l s
        { t with parts := ⟨a, r.runs, bits, val⟩ :: t.parts }

/-- Write a part of a group; a last partial byte is merged with the stored one (R276, R258). -/
def cpStore (v : Env) (p ord : Nat) (s : State) (w : CpPart) : State :=
  let s := cpWrap s v v.pl.dst p ord w.a (cdiv w.bits 8)
  let (whole, part) := splitRuns (w.bits / 8) w.runs
  let bs := leBytes (cdiv w.bits 8) w.val
  let s := (writeRuns v.q v.idx whole (mixOthers s v whole bs) s).1
  match part with
  | (b, _) :: _ =>
    if w.bits % 8 = 0 then s
    else
      let k := 2 ^ (w.bits % 8)
      let old := (memByte s.mem (devFlat s b)).toNat
      (writeFlat s v.q v.idx b [BitVec.ofNat 8 (old / k * k + (leNat (bs.drop (w.bits / 8))) % k)]).1
  | [] => s

/-- What writing a group gives: the runs written. -/
structure GrpPut where
  s : State
  stop : Option GrpStop
  runs : List (Nat × Nat)

/-- Write parts that can all be written. -/
def cpPut (v : Env) (p ord : Nat) (g : GrpPrep) : GrpPut :=
  if g.stop.isSome then ⟨g.s, g.stop, []⟩ else ⟨g.parts.foldl (cpStore v p ord) g.s, none, g.parts.flatMap (·.runs)⟩

def getCopyRemote (s : State) (q idx e : Nat) : Option CopyRemote := s.copyRemotes.find? fun c => c.queue == q && c.idx == idx && c.share == e
def modCopyRemote (s : State) (q idx e : Nat) (f : CopyRemote → CopyRemote) : State :=
  { s with copyRemotes := s.copyRemotes.map fun c => if c.queue == q && c.idx == idx && c.share == e then f c else c }

/-- Hand one remote request of a share to the remote engine (R280, R410); an offset that no request can carry is refused (DESIGN CHOICE). -/
def cpRemoteReq (s : State) (v : Env) (x : Side) (code key : Nat) (a : Int) (n : Nat) (bs : List Byte) : State :=
  let s := modCopyRemote s v.q v.idx v.e fun c => { c with waiting := c.waiting ++ [key] }
  if a < 0 || ((2 ^ 40 : Nat) : Int) < a + n then copyAnswer s v.q v.idx key ⟨stRefused, false, 0x04, 0, 0, 0, [], 0⟩
  else rmtSubmit s (.copy v.q v.idx key) code n v.pl.node x.window a.toNat bs v.job false

/-- Write elements [c, c + cn) of a row of the destination, with their scale byte. -/
def cpWriteElems (s : State) (v : Env) (p r ord c n0 : Nat) (es : List Nat) (scale : Nat) : GrpPut :=
  let x := v.pl.dst
  let w := x.fmt.bits
  let bits := w * es.length
  let a := x.row p r + (c * w / 8 : Nat)
  let sa := x.row p r + (rowBytes x.fmt n0 : Nat) + (c / 32 : Nat)
  if x.kind == 3 then
    let val := packVals w es
    -- a partial last byte is merged with the byte loaded before; a byte that cannot be read keeps bits that nothing gives (R276)
    let m := answerGot s v (pieceKey v.pl p r c 3)
    let lost : Bool := match m.stop with | some (.fail st) => st == stUncorrectable | _ => false
    if bits % 8 != 0 && m.stop.isSome && !lost then ⟨s, m.stop, []⟩
    else
      let byte := if lost then Config.pick s.free (pieceKey v.pl p r c 3) % 2 ^ 8 else leNat m.data
      let val := if bits % 8 = 0 then val else val + byte / 2 ^ (bits % 8) * 2 ^ bits
      let bs := leBytes (cdiv bits 8) val
      let s := cpRemoteReq s v x rcStore (pieceKey v.pl p r c 4) a (min 256 bs.length) (bs.take 256)
      let s := if 256 < bs.length then cpRemoteReq s v x rcStore (pieceKey v.pl p r c 5) (a + 256) (bs.length - 256) (bs.drop 256) else s
      let s := if x.fmt.isMx then cpRemoteReq s v x rcStore (pieceKey v.pl p r c 6) sa 1 [BitVec.ofNat 8 scale] else s
      ⟨s, none, []⟩
  else cpPut v p ord (cpPrep v p ((a, bits, packVals w es) :: if x.fmt.isMx then [(sa, 8, scale)] else []) s)

/-! ### Operations (R277, R278) -/

/-- Values of elements of a side. -/
def sideVals (x : Side) (scale : Nat) (es : List Nat) : List Val :=
  es.map fun e => let v := elemVal x.fmt x.anchor e; if x.fmt.isMx then scaledVal scale v else v

/-- Rounding of the destination element (p, r, e) (R94). -/
def cpRndDst (pl : CpPlan) (p r e : Nat) : Rnd :=
  let (rd, cd) := if pl.tr then (pl.n0, pl.n1) else (pl.n1, pl.n0)
  Rnd.of pl.rnd (BitVec.ofNat 64 pl.seed) ((p * rd + r) * cd + e)

/-- Rounding of a source element on its way into X128 (R94). -/
def cpRndSrc (pl : CpPlan) (p r e : Nat) : Rnd := Rnd.of pl.rnd (BitVec.ofNat 64 pl.seed) ((p * pl.n1 + r) * pl.n0 + e)

/-- Whether a sum is formed in the X128 domain (R278). -/
def x128Domain (pl : CpPlan) : Bool := pl.src.fmt == .x128 || pl.dst.fmt == .x128

/-- An operand taken into X128 at the destination's anchor. -/
def intoX128 (pl : CpPlan) (r : Rnd) (v : Val) : Nat × Inexact :=
  let c := conv .x128 pl.dst.anchor r v
  (c.bits, inexactOfConv c)

/-- Add code lists element by element under R86. -/
def x128Zip (a b : List (Nat × Inexact)) : List (Nat × Inexact) :=
  a.zipWith (fun x y => let (c, h) := x128Add x.1 y.1; (c, inexactOr (inexactOr x.2 y.2) ⟨false, h⟩)) b

/-- Results of one destination row part: values with their roundings, to element bits and the scale of their block. -/
def cpConvert (pl : CpPlan) (l : List (Rnd × Val)) : List Nat × Nat × Inexact :=
  let (es, scs, fl) := convVals pl.dst.fmt pl.dst.anchor l
  (es, scs.headD 0, fl)

/-- The sum of operand rows in the domain of R278: the values to be converted, and the flags so far. -/
def cpSum (pl : CpPlan) (rows : List (List (Rnd × Val))) : List Val × Inexact :=
  if x128Domain pl then
    let codes := rows.map fun r => r.map fun (rn, v) => intoX128 pl rn v
    match codes with
    | [] => ([], {})
    | h :: t =>
      let z := t.foldl x128Zip h
      (z.map fun x => elemVal .x128 pl.dst.anchor x.1, z.foldl (fun f x => inexactOr f x.2) {})
  else
    let vals := rows.map fun r => r.map fun (_, v) => toF32Sat v
    match vals with
    | [] => ([], {})
    | h :: t =>
      let z := t.foldl (fun acc r => acc.zipWith (fun x y => (add32 x.1 y.1, x.2 || y.2)) r) h
      (z.map (·.1), ⟨false, z.any (·.2)⟩)

/-- What one group gives: the elements it wrote, its flags, the runs it wrote. -/
structure GrpOut where
  s : State
  stop : Option GrpStop
  fl : Inexact
  n : Nat
  runs : List (Nat × Nat)

def GrpOut.stopped (s : State) (g : Option GrpStop) : GrpOut := ⟨s, g, {}, 0, []⟩

/-- Rounding, operand of the destination and source operand of one element, summed and converted: an ACCUMULATE's result (R278). -/
def cpAcc (pl : CpPlan) (rnds : List Rnd) (ds : List Val) (srcs : List (Rnd × Val)) : List Nat × Nat × Inexact :=
  let (sum, fl) := cpSum pl [rnds.zip ds, srcs]
  let (o, sc, fl') := cpConvert pl (rnds.zip sum)
  (o, sc, inexactOr fl fl')

/-- A group of a MOVE or ACCUMULATE without transposition. -/
def grpPlain (s : State) (v : Env) (g : Grp) : GrpOut :=
  let pl := v.pl
  let (x, sc) := cpReadElems s v pl.src pl.n0 g.p g.r g.ord g.c g.cn
  if x.stop.isSome then .stopped x.s x.stop
  else
    let es := unpackElems pl.src.fmt.bits g.cn x.data
    let put (s : State) (o : List Nat × Nat × Inexact) : GrpOut :=
      let w := cpWriteElems s v g.p g.r g.ord g.c pl.n0 o.1 o.2.1
      if w.stop.isSome then .stopped w.s w.stop else ⟨w.s, none, o.2.2, g.cn, w.runs⟩
    let rnds := (List.range g.cn).map fun i => cpRndDst pl g.p g.r (g.c + i)
    if bitCopy pl then put x.s (es, sc, {})
    else
      let vals := sideVals pl.src sc es
      if pl.op == cpAccumulate then
        let (y, sd) := cpReadElems x.s v pl.dst pl.n0 g.p g.r g.ord g.c g.cn accWrite
        if y.stop.isSome then .stopped y.s y.stop
        else
          let ds := sideVals pl.dst sd (unpackElems pl.dst.fmt.bits g.cn y.data)
          put y.s (cpAcc pl rnds ds (((List.range g.cn).map fun i => cpRndSrc pl g.p g.r (g.c + i)).zip vals))
      else put x.s (cpConvert pl (rnds.zip vals))

/-- The bytes of element i of a part whose elements have n bytes each. -/
def partElem (w : CpPart) (n i : Nat) : CpPart :=
  ⟨w.a + (i * n : Nat), (splitRuns n (splitRuns (i * n) w.runs).2).1, 8 * n, 0⟩

/-- A 32 × 32 block of a transposed COPY (R279): rows [r, r + rn), columns [c, c + cn) of the source plane. The block's rows are read, every
part of the destination is seen to be there, and the elements are then written by ascending row and element (R270, R233). -/
def grpTranspose (s : State) (v : Env) (g : Grp) : GrpOut :=
  let pl := v.pl
  let n := pl.dst.fmt.bits / 8
  let rd := (List.range g.rn).foldl (fun (acc : GrpGot × List (List Nat)) i =>
    if acc.1.stop.isSome then acc
    else
      let (x, _) := cpReadElems acc.1.s v pl.src pl.n0 g.p (g.r + i) (g.ord + i) g.c g.cn
      (x, acc.2 ++ [unpackElems pl.src.fmt.bits g.cn x.data])) ((⟨s, none, []⟩ : GrpGot), [])
  if rd.1.stop.isSome then .stopped rd.1.s rd.1.stop
  else
    -- column j of the block is a part of destination row c + j
    let prep := cpPrep v g.p ((List.range g.cn).map fun j =>
      (pl.dst.row g.p (g.c + j) + (g.r * n : Nat), 8 * n * g.rn, 0)) rd.1.s
    if prep.stop.isSome then .stopped prep.s prep.stop
    else
      let chk : State × Nat := if pl.op == cpAccumulate then
          prep.parts.foldl (fun a w => if a.2 != stOk then a else let x := readRuns w.runs a.1; (x.s, x.status)) (prep.s, stOk)
        else (prep.s, stOk)
      if chk.2 != stOk then .stopped chk.1 (some (.fail chk.2))
      else
        let one (i : Nat) (acc : State × Inexact) (jw : Nat × CpPart) : State × Inexact :=
          let (j, w) := jw
          let w := partElem w n i
          let e := (rd.2.getD i []).getD j 0
          let rn := cpRndDst pl g.p (g.c + j) (g.r + i)
          let s := cpWrap acc.1 v pl.dst g.p (g.ord + i) w.a n
          let o : List Nat × Nat × Inexact :=
            if bitCopy pl then ([e], 0, {})
            else if pl.op == cpAccumulate then
              let old := leNat (w.runs.flatMap fun r => memBytes s.mem (devFlat s r.1) r.2)
              cpAcc pl [rn] (sideVals pl.dst 0 [old]) [(cpRndSrc pl g.p (g.r + i) (g.c + j), (sideVals pl.src 0 [e]).headD (.fin false 0 0))]
            else cpConvert pl ([rn].zip (sideVals pl.src 0 [e]))
          (cpStore v g.p (g.ord + i) s { w with val := o.1.headD 0 }, inexactOr acc.2 o.2.2)
        let out := (List.range g.rn).foldl (fun acc i => ((List.range prep.parts.length).zip prep.parts).foldl (one i) acc) (chk.1, {})
        ⟨out.1, none, out.2, g.rn * g.cn, prep.parts.flatMap (·.runs)⟩

/-- A group of a REDUCE_PLANES: every plane of the group is read, then the destination is written once (R233, R278). -/
def grpReduce (s : State) (v : Env) (g : Grp) : GrpOut :=
  let pl := v.pl
  let rd := (List.range pl.n2).foldl (fun (acc : GrpGot × List (List (Rnd × Val))) p =>
    if acc.1.stop.isSome then acc
    else
      let (x, sc) := cpReadElems acc.1.s v pl.src pl.n0 p g.r g.ord g.c g.cn
      let vals := sideVals pl.src sc (unpackElems pl.src.fmt.bits g.cn x.data)
      (x, acc.2 ++ [((List.range g.cn).map fun i => cpRndSrc pl p g.r (g.c + i)).zip vals])) ((⟨s, none, []⟩ : GrpGot), [])
  if rd.1.stop.isSome then .stopped rd.1.s rd.1.stop
  else
    let (sum, fl) := cpSum pl rd.2
    let (o, sc, fl') := cpConvert pl (((List.range g.cn).map fun i => cpRndDst pl 0 g.r (g.c + i)).zip sum)
    let w := cpWriteElems rd.1.s v 0 g.r g.ord g.c pl.n0 o sc
    if w.stop.isSome then .stopped w.s w.stop else ⟨w.s, none, inexactOr fl fl', g.cn, w.runs⟩

/-- One group. -/
def runGrp (s : State) (v : Env) (g : Grp) : GrpOut :=
  if v.pl.op == cpReduce then grpReduce s v g else if v.pl.tr then grpTranspose s v g else grpPlain s v g

/-- What running a share gives; `at_` is the group it stopped at. -/
structure CpOut where
  s : State
  stop : Option GrpStop
  at_ : Nat × Nat
  fl : Inexact
  n : Nat
  runs : List (Nat × Nat)

/-- Run groups in order until one stops. -/
def runGrps (v : Env) : List Grp → CpOut → CpOut
  | [], o => o
  | g :: l, o =>
    let x := runGrp o.s v g
    let o' : CpOut := ⟨x.s, x.stop, (g.ord, g.c), inexactOr o.fl x.fl, o.n + x.n, o.runs ++ x.runs⟩
    if x.stop.isSome then o' else runGrps v l o'

/-! ### The command -/

/-- Whether the share of a command is the first its engine holds (R271). -/
def engineFirst (s : State) (cl q idx : Nat) : Bool := s.copyShares.find? (fun e => e.1 == cl) == some (cl, q, idx)

/-- An engine's share ends or stops. -/
def endCopyShare (s : State) (cl q idx : Nat) : State := { s with copyShares := s.copyShares.filter (· != (cl, q, idx)) }

/-- The restart point of an engine's share. -/
def cpFrom (c : Ctx) (e : Nat) : Nat × Nat := match kfind c.accAt e with | some (_, o, k) => (o, k) | none => (0, 0)

/-- An engine's share has come to its end (R281). -/
def copyShareDone (s : State) (q idx e cl status : Nat) : State :=
  modCtx { endCopyShare s cl q idx with copyRemotes := s.copyRemotes.filter fun c => !(c.queue == q && c.idx == idx && c.share == e) } q idx
    fun c => { c with ran := c.ran ++ [e], status := stWorse c.status status }

/-- The loads that a share needs first, from its restart point on: a remote source's pieces, or the bytes that a remote destination merges
with. -/
def cpLoads (v : Env) (gs : List Grp) (s : State) : State :=
  let pl := v.pl
  gs.foldl (fun s g =>
    if pl.src.kind == 3 then
      let x := pl.src
      let a := x.row g.p g.r + (g.c * x.fmt.bits / 8 : Nat)
      let n := cdiv (g.cn * x.fmt.bits) 8
      let s := cpRemoteReq s v x rcLoad (pieceKey pl g.p g.r g.c 0) a (min 256 n) []
      let s := if 256 < n then cpRemoteReq s v x rcLoad (pieceKey pl g.p g.r g.c 1) (a + 256) (n - 256) [] else s
      if x.fmt.isMx then cpRemoteReq s v x rcLoad (pieceKey pl g.p g.r g.c 2) (x.row g.p g.r + (rowBytes x.fmt pl.n0 : Nat) + (g.c / 32 : Nat)) 1 [] else s
    else
      let x := pl.dst
      let bits := g.cn * x.fmt.bits
      if bits % 8 = 0 then s
      else cpRemoteReq s v x rcLoad (pieceKey pl g.p g.r g.c 3) (x.row g.p g.r + (g.c * x.fmt.bits / 8 : Nat) + (bits / 8 : Nat)) 1 []) s

/-- Whether a side of a plan is remote. -/
def cpRemote (pl : CpPlan) : Bool := pl.src.kind == 3 || pl.dst.kind == 3

/-- What has come of a share that ran: it stops at a fault (R230), waits where an access must wait (R535, R607), or has done its groups, or as
many as come before a failing one (R281). A share with stores unanswered ends with the last answer. -/
def copyShareEnd (s : State) (v : Env) (o : CpOut) : State :=
  let s := modCtx o.s v.q v.idx fun c => { c with count := c.count + o.n, low := c.low || o.fl.low, high := c.high || o.fl.high }
  let count := match findCtx s v.q v.idx with | some c => c.count | none => 0
  let done (st : Nat) : State :=
    match getCopyRemote s v.q v.idx v.e with
    | some r =>
      if r.waiting.isEmpty then copyShareDone s v.q v.idx v.e v.cache (stWorse r.status st)
      else modCopyRemote s v.q v.idx v.e fun r => { r with stage := 2, answers := [], status := stWorse r.status st }
    | none => copyShareDone s v.q v.idx v.e v.cache st
  match o.stop with
  | none => done stOk
  | some (.fault st a va) =>
    -- remote pieces are read again on resume (Table 6.3); stores that are out are still answered
    let s := modCopyRemote (endCopyShare s v.cache v.q v.idx) v.q v.idx v.e fun r => { r with stage := 0, answers := [] }
    stopShare s v.q v.idx v.e ⟨st, a, va, 2 * 2 ^ 28 + v.cache, o.at_.1, o.at_.2, count, 0⟩
  | some (.fail st) =>
    if st == stWait then modCtx s v.q v.idx fun c => { c with accAt := kput c.accAt v.e (0, o.at_.1, o.at_.2) } else done st

/-- Run the groups of a share; the engine's die makes the accesses. -/
def runCopyShare (s : State) (v : Env) (gs : List Grp) : CpOut :=
  let o := runGrps v gs ⟨{ s with srcAt := some (v.cache / 32) }, none, (0, 0), {}, 0, []⟩
  { o with s := { o.s with srcAt := none } }

/-- Run one share from its restart point: at once if both sides are local; a remote side goes through loads, work and the answers to its
stores (R280, R410). -/
def copyShare (v : Env) (c : Ctx) (s : State) : CpOut :=
  let (ord, k) := cpFrom c v.e
  let gs := engineGroups v.pl v.e ord k
  let go (remote : KMap RmtAns) : CpOut :=
    let v := { v with remote := remote }
    let o := runCopyShare s v gs
    { o with s := copyShareEnd s v o }
  let stay (s : State) : CpOut := ⟨s, none, (0, 0), {}, 0, []⟩
  if !cpRemote v.pl then go []
  else match getCopyRemote s v.q v.idx v.e with
    | none => stay (cpLoads v gs { s with copyRemotes := s.copyRemotes ++ [⟨v.q, v.idx, v.e, 1, [], [], stOk⟩] })
    | some r =>
      if r.stage == 2 || r.status != stOk then
        -- every group is done, or a store was answered with a failure
        stay (if r.waiting.isEmpty then copyShareDone s v.q v.idx v.e v.cache r.status else s)
      else if r.stage == 0 then stay (cpLoads v gs (modCopyRemote s v.q v.idx v.e fun r => { r with stage := 1 }))
      else if r.waiting.any fun k => !keyStore k then stay s
      else go r.answers

/-- Run the shares that their engines hold first, each from its restart point (R235, R271, R281). -/
def runCopyShares (pl : CpPlan) (q idx : Nat) (s : State) : State :=
  let es := engineSet pl.cores
  let mem0 := s.mem
  ((List.range es.length).foldl (fun (acc : State × List (Nat × Nat)) e =>
    let s := acc.1
    match findCtx s q idx with
    | none => acc
    | some c =>
      let cl := es.getD e 0
      if c.ran.contains e || (kfind c.stops e).isSome || !engineFirst s cl q idx || dieHeld s (cl / 32) then acc
      else
        let o := copyShare ⟨pl, q, idx, cl, rd s QUE_Q_BIND.space q, mem0, acc.2, [], e⟩ c s
        (o.s, acc.2 ++ o.runs)) (s, [])).1

/-- The end of a COPY whose shares have all ended. -/
def settleCopy (s : State) (q idx : Nat) : State :=
  match findCtx s q idx with
  | none => s
  | some c =>
    if c.phase == .running && c.stops.isEmpty && !(s.copyShares.any fun e => e.2.1 == q && e.2.2 == idx) then finishCtx s q idx stOk 0
    else s

/-- Run a COPY (R267 to R281). -/
def runCopy (op : Nat) (q idx : Nat) (s : State) : State :=
  match findCtx s q idx with
  | none => s
  | some c =>
    if descOpcode c.desc != opCopy || !sharesRun s q c || (cpBody c.desc).op != op then s
    else match cpPlan c.desc c.cores with
      | none => s
      | some pl => bumpFree (settleCopy (runCopyShares pl q idx s) q idx)

/-- COPY with op MOVE (R277): elements are copied or converted by the engines that hold the command's shares first. -/
def execCopyMove (q : QueueNo) (idx : BitVec 32) (s : State) : Res := .next (runCopy cpMove q idx.toNat s)
/-- COPY with op ACCUMULATE (R278). -/
def execAccumulate (q : QueueNo) (idx : BitVec 32) (s : State) : Res := .next (runCopy cpAccumulate q idx.toNat s)
/-- COPY with op REDUCE_PLANES (R278). -/
def execReducePlanes (q : QueueNo) (idx : BitVec 32) (s : State) : Res := .next (runCopy cpReduce q idx.toNat s)

end Sys2Proof.Machine
end

