-- ==== Sys2Proof/Machine/Queues.lean ====
section
/-!
DEFINITION. Queues, dispatch, records, doorbell lines, and the commands of the command processor: NOP, WAIT, SIGNAL, FENCE and
TIMER (file 05).
-/

namespace Sys2Proof.Machine

/-! ### Bodies (Tables 5.9, 5.10) -/

/-- A collective's body (Table 5.9). -/
structure CollBody where
  src : Nat
  dst : Nat
  countVa : Nat
  failVa : Nat
  count : Nat
  seq : Nat
  group : Nat
  fmt : Nat
  redOp : Nat
  chunk : Nat
  rnd : Nat
  anchor : Nat
  seed : Nat

def collBody (d : Line) : CollBody :=
  let g (lo w : Nat) : Nat := lineBits d 0x30 lo w
  ⟨lineBits d 0x08 0 64, lineBits d 0x10 0 64, lineBits d 0x18 0 64, lineBits d 0x20 0 64, lineBits d 0x28 0 32, lineBits d 0x2C 0 32,
   g 0 10, g 10 5, g 15 3, g 18 4, g 22 2, lineBits d 0x34 0 10, lineBits d 0x38 0 64⟩

/-- fmt and red_op form a pair of Table 12.2, or a format that the moving collectives take (R425). -/
def collPairOk (op : Nat) (f : Fmt) (red : Nat) : Bool :=
  if op == opReduceScatter then
    match red with
    | 0 => f == .x128 || f == .fp32 || f == .bf16 || f == .fp16 || f == .e4m3 || f == .e5m2 || f == .int8
    | 1 => f == .fp32 || f == .bf16 || f == .fp16
    | 2 => f == .x128 || f == .fp32 || f == .bf16 || f == .fp16 || f == .int8
    | 3 => f == .x128 || f == .fp32 || f == .bf16 || f == .fp16 || f == .int8
    | _ => false
  else red == 0 && !f.isMx && (f.bits == 8 || f.bits == 16 || f.bits == 32 || f.bits == 128)

/-- Distance of a group sequence number from the entry's next (R418). -/
def collDist (s : State) (group seq : Nat) : Nat := (seq + 2 ^ 32 - rd s GRP_ENT_SEQ.next group) % 2 ^ 32

/-- Whether a collective converts elements, and so uses rnd: the moving collectives and MAX and MIN do not, and leave it unchecked (R190,
R425, R437; DEDUCED, log 111). -/
def collRounds (op : Nat) (b : CollBody) : Bool := op == opReduceScatter && b.redOp ≤ 1

/-- The checks of a collective at dispatch (R56, R92, R190, R192, R418, R419, R425). -/
def collOk (s : State) (q : Nat) (d : Line) : Bool :=
  let b := collBody d
  let op := descOpcode d
  let va (a al : Nat) : Bool := a < 2 ^ 52 && a % al == 0
  lineBits d 0x30 24 8 == 0 && lineBits d 0x34 10 22 == 0 && (!collRounds op b || b.rnd != 3) &&
  (match Fmt.ofCode b.fmt with | some f => collPairOk op f b.redOp | none => false) &&
  va b.src 64 && va b.dst 64 && va b.countVa 4 && va b.failVa 64 &&
  on s GRP_ENT_CTL.enable b.group && rd s GRP_ENT_CTL.job b.group == rd s QUE_Q_BIND.space q &&
  b.chunk ≤ 8 && b.chunk ≤ rd s GRP_ENT_CTL.chunk_log2_max b.group &&
  !(op == opReduceScatter && b.countVa != 0) &&
  collDist s b.group b.seq < 2 ^ 31 && !(s.colls.any fun c => c.group == b.group && c.seq == b.seq)

/-- A fresh collective at this member; it starts at once if its number is active (R418). -/
def collNew (s : State) (q idx : Nat) (d : Line) : CollCmd :=
  let b := collBody d
  ⟨q, idx, b.group, b.seq, d, on s GRP_CTL.enable && collDist s b.group b.seq < rd s GRP_ENT_CTL.depth b.group, false, false, false,
   [], [], [], [], 0, [], [], [], [], [], false⟩

/-- Landing number of a LANDING. -/
def landNo (d : Line) : Nat := lineBits d 0x08 0 64

/-- The dispatch check of a LANDING (R478). -/
def landOk (s : State) (q : Nat) (d : Line) : Bool :=
  let job := rd s QUE_Q_BIND.space q
  let n := landNo d
  let last := rd s MIR_JOB_STATE.last_landing job
  n < 2 ^ 48 && on s MIR_JOB.enable job && (last < n || (n == last && s.mirLoaded.contains job))

/-- Fields of a SIGNAL (Table 5.10). -/
def sigRemote (d : Line) : Bool := lineBits d 0x18 14 1 == 1
def sigAddr (d : Line) : Nat := lineBits d 0x08 0 64
def sigValue (d : Line) : Nat := lineBits d 0x10 0 64
def sigNode (d : Line) : Nat := lineBits d 0x18 0 14

/-- Bytes of a descriptor from `lo` to its end are zero (R190). -/
def zeroFrom (d : Line) (lo : Nat) : Bool := d.toNat / 2 ^ (8 * lo) == 0

/-! ### The core set (R182 to R184, R215, R335) -/

/-- Entry n of the core list. -/
def clistEntry (s : State) (n : Nat) : Nat :=
  rd s (match n % 4 with | 0 => QUE_CLIST.entry_0 | 1 => QUE_CLIST.entry_1 | 2 => QUE_CLIST.entry_2 | _ => QUE_CLIST.entry_3) (n / 4)

/-- The core set of a queue as it now stands; none if its run leaves the list or is empty. -/
def coreSet (s : State) (q : Nat) : Option (List Nat) :=
  let e := rd s QUE_Q_BIND.cset q
  let n := rd s QUE_CSET.count e
  let f := rd s QUE_CSET.first e
  if n = 0 ∨ 16384 < f + n then none else some ((List.range n).map fun i => clistEntry s (f + i))

/-- One core-list entry is legal (R184, R215, R335). -/
def entryOk (s : State) (e : Nat) : Bool :=
  if e < 2 ^ 15 then e < 10240 && dieActive s (e / 256)
  else
    let site := e / 2 ^ 8 % 2
    e / 2 ^ 9 % 2 ^ 6 == 0 && rd s UCI_SITE_STATUS.state site == 3 && e % 2 ^ 8 < rd s UCI_SITE_INFO.engines site

/-- No core twice in a list. -/
def noTwice : List Nat → Bool
  | [] => true
  | a :: l => !l.contains a && noTwice l

/-- The core set of a MATMUL, VECTOR or COPY passes R184. -/
def coreSetOk (s : State) (op : Nat) (cores : List Nat) : Bool :=
  cores.all (entryOk s) && noTwice cores && (op == opCopy || cores.length == 1 || cores.all (· < 2 ^ 15))

/-! ### Dispatch (R183, R187, R190, R191, R203 to R212) -/

/-- The header of a descriptor (R190, R191). -/
def headerOk (d : Line) : Bool :=
  lineBits d 2 0 16 == 0 && descDepMode d != 3 && descCompMode d != 3 && (descDepMode d == 0 || descDepScope d != 7) && descOpcode d ≤ 0x0C

/-- The body of a descriptor, by opcode, against its core set (R184, R190 to R194). -/
def bodyOk (s : State) (q : Nat) (cores : Option (List Nat)) (d : Line) : Bool :=
  let op := descOpcode d
  if op == opMatmul || op == opVector || op == opCopy then
    match cores with
    | none => false
    | some cs =>
      coreSetOk s op cs &&
      (if op == opCopy then cpBodyOk s cs d
       else if cs.any (2 ^ 15 ≤ ·) then true
       else if op == opMatmul then mmBodyOk d else vecBodyOk d)
  else if op == opNop then zeroFrom d 0x08
  else if op == opRemote then
    rmOps d < 2 ^ 52 && rmOps d % 32 == 0 && rmResult d < 2 ^ 52 && rmResult d % 32 == 0 && zeroFrom d 0x1A
  else if op == opWait then sigAddr d < 2 ^ 52 && sigAddr d % 8 == 0 && zeroFrom d 0x1C
  else if op == opSignal then
    sigAddr d % 8 == 0 && sigAddr d < 2 ^ 52 && lineBits d 0x18 15 1 == 0 && lineBits d 0x18 16 3 != 7 && lineBits d 0x18 19 45 == 0 && zeroFrom d 0x20
  else if op == opFence then lineBits d 0x08 0 3 != 7 && lineBits d 0x08 3 61 == 0 && zeroFrom d 0x10
  else if op == opTimer then lineBits d 0x10 1 63 == 0 && zeroFrom d 0x18
  else if op == opLanding then landOk s q d && zeroFrom d 0x10
  else collOk s q d

/-- Opcodes whose commands hold every later command of their queue (Table 5.4). -/
def opHolds (op : Nat) : Bool := op == opWait || op == opFence || op == opLanding || op == opTimer

/-- Dies that a core set's cores and engines lie on. -/
def coreDies (cores : List Nat) : List Nat := (cores.filter (· < 2 ^ 15)).map (· / 256)

/-- The third-party site of a core set that is one engine of a die there (R335). -/
def siteOf : List Nat → Option Nat
  | [e] => if 2 ^ 15 ≤ e then some (e / 2 ^ 8 % 2) else none
  | _ => none

/-- Commands outstanding at a third-party site: UCI_SITE_STATUS.inflight (R336). -/
def siteInflight (s : State) (site : Nat) : Nat :=
  s.queues.foldl (fun n x => n + (x.2.ctxs.filter fun c => siteOf c.cores == some site && !c.recheck && c.phase != .done && c.phase != .held).length) 0

/-- Whether a descriptor's own holds have cleared (R187, R204, R207, R209, R212, R336, R535). -/
def holdsClear (s : State) (q : Nat) (x : Queue) (idx : Nat) (d : Line) : Bool :=
  let op := descOpcode d
  let uses := op == opMatmul || op == opVector || op == opCopy
  let cores := (coreSet s q).getD []
  !(x.ctxs.any fun c => opHolds (descOpcode c.desc)) &&
  (descDepMode d != 1 || !(x.ctxs.any fun c => (c.idx + 1) % 2 ^ 32 == idx)) &&
  (!(descDepMode d == 2 || op == opSignal || op == opFence || op == opLanding) || x.ctxs.isEmpty) &&
  !(uses && (coreDies cores).any (dieHeld s)) &&
  -- a core set that R335 refuses is not held: its dispatch fails
  (match siteOf cores with
   | some site => !(uses && op != opCopy && cores.all (entryOk s) && min 256 (rd s UCI_SITE_INFO.max_inflight site) ≤ siteInflight s site)
   | none => true)

/-- Commands dispatched and not complete, over the panel (R187). -/
def panelInflight (s : State) : Nat := s.queues.foldl (fun n x => n + x.2.ctxs.length) 0

/-- Whether a queue has a descriptor that it may dispatch now. -/
def queueReady (s : State) (q : Nat) : Bool :=
  let x := getQ s q
  qState s q == qsRunning && !x.preempting && x.stops.isEmpty && !x.tailFault && !x.frecHeld &&
  x.ctxs.length < rd s QUE_CTL.max_inflight && panelInflight s < 16384 &&
  (match x.fetched with | (idx, d) :: _ => holdsClear s q x idx d | [] => false)

/-- The queue that arbitration serves next: highest priority, round robin within a level (R187). -/
def pickQueue (s : State) : Option Nat :=
  if !on s QUE_CTL.engine_en || s.dbHold || s.hst.hubLost || s.hst.takingOver then none
  else
    let ready := (s.queues.map (·.1)).filter (queueReady s)
    let top := ready.foldl (fun p q => max p (rd s QUE_Q_BIND.priority q)) 0
    let level := ready.filter fun q => rd s QUE_Q_BIND.priority q == top
    match kfind s.rrLast top with
    | some last => match level.find? (last < ·) with | some q => some q | none => level.head?
    | none => level.head?

/-- Add a context to a queue. -/
def addCtx (s : State) (q : Nat) (c : Ctx) : State :=
  let x := getQ s q
  let s := putQ s q { x with ctxs := x.ctxs ++ [c] }
  armTimers (wr s QUE_Q_STATE.inflight q (getQ s q).ctxs.length) q

/-- A dispatched command's shares join the work of its cores or engines in dispatch order (R186, R271). -/
def addShares (s : State) (q : Nat) (c : Ctx) : State :=
  let op := descOpcode c.desc
  if op == opMatmul || op == opVector then
    { s with coreShares := s.coreShares ++ ((((List.range c.cores.length).zip c.cores).filter
        fun (p, e) => e < 2 ^ 15 && !c.ran.contains p).map fun (_, e) => (e, q, c.idx)) }
  else if op == opCopy then
    let es := engineSet c.cores
    { s with copyShares := s.copyShares ++ ((((List.range es.length).zip es).filter fun (p, _) => !c.ran.contains p).map fun (_, e) => (e, q, c.idx)) }
  else s

/-- A command of a third-party die is sent to it: bytes 0x08-0x3F go unchanged (R336). -/
def sendSite (s : State) (q : Nat) (c : Ctx) : State :=
  match c.cores with
  | [e] => if 2 ^ 15 ≤ e then emit s (.uciCommand e q c.idx (leBytes 56 (c.desc.toNat / 2 ^ 64))) else s
  | _ => s

/-- COMMAND_DISPATCH (R183, R187, R191, R203): arbitration takes the next descriptor whose holds have cleared; it is checked and
becomes a command in flight, or fails its checks with DESC_INVALID. -/
def execCommandDispatch (s : State) : Res :=
  match pickQueue s with
  | none => .next s
  | some q =>
    let x := getQ s q
    match x.fetched with
    | [] => .next s
    | (idx, d) :: rest =>
      let s := { s with rrLast := kput s.rrLast (rd s QUE_Q_BIND.priority q) q }
      let s := putQ s q { x with fetched := rest }
      let op := descOpcode d
      let uses := op == opMatmul || op == opVector || op == opCopy
      let cores := coreSet s q
      let c := ctxNew idx d (if uses then cores.getD [] else [])
      if !headerOk d || !bodyOk s q cores d then
        -- no effect beyond the fault record; checked again on resume (R191, Table 6.3)
        let s := addCtx s q { c with recheck := true }
        .next (stopShare s q idx 0 (stopPlain stDescInvalid 3 0))
      else if uses && ((coreDies c.cores).any (fun d => dieTripped s d || isCut s d) || (siteOf c.cores).any fun n => isCut s (40 + n)) then
        -- a tripped die's units take no work (R540), and the primary hub has no path to hand work over a partition (R331)
        .next (finishCtx (addCtx s q c) q idx stTimeout 0)
      else
        let s := addShares (addCtx s q c) q c
        let s :=
          if op == opMatmul || op == opVector then (c.cores.filter (· < 2 ^ 15)).foldl wakeCore s
          else if op == opCopy then (engineSet c.cores).foldl (fun s cl => wakeCluster (wakePanel s) cl 0) s
          else wakePanel s
        let s := match siteOf c.cores with
          | some site => sendSite { s with uciL1 := s.uciL1.filter (· != site) } q c
          | none => s
        .next (if op == opReduceScatter || op == opAllGather || op == opExchange then { s with colls := s.colls ++ [collNew s q idx d] } else s)

/-- DESCRIPTOR_READ (R170, R173, R601): up to 8 descriptors of a queue arrive through the home port, in ring order from its head, as they stand at their places in host
memory; those below the tail are queued. -/
def execDescriptorRead (q : QueueNo) (ds : List Line) (s : State) : Res :=
  if ds.isEmpty || 8 < ds.length then .fault .illFormed
  else
    let x := getQ s q
    let head := rd s QUE_Q_STATE.head q
    if homeUp s && (qState s q == qsRunning || qState s q == qsFaulted) && !x.preempting && !x.tailFault then
      let n := min ds.length ((x.tail + 2 ^ 32 - head) % 2 ^ 32)
      let new := (List.range n).zipWith (fun i d => ((head + i) % 2 ^ 32, d)) ds
      let s := ringArrive s (.sq q) head (ds.take n)
      .next (wr (putQ s q { x with fetched := x.fetched ++ new }) QUE_Q_STATE.head q (head + n))
    else .next s

/-! ### Completion, records and faults -/

/-- COMMAND_COMPLETE (R195, R196, R202): a command whose work is done and whose writes are performed is complete; its record is
written, held or left out. -/
def execCommandComplete (q : QueueNo) (idx : BitVec 32) (s : State) : Res :=
  match findCtx s q idx.toNat with
  | some c =>
    if c.phase == .done && !(s.farWrites.any fun w => w.queue == q && w.idx == c.idx) then .next (completeCtx s q c) else .next s
  | none => .next s

/-- A completion ring (0), fault ring (1) or response ring (2) by number. -/
def ringOf (kind n : Nat) : RingId := if kind == 0 then .cr n else if kind == 1 then .fr (n % 256) else .xr (n % 16)

/-- HELD_RECORD_WRITE (R198): the oldest record that a ring holds is written, if the ring can take it. -/
def execHeldRecordWrite (kind : Fin 3) (ring : Fin 4096) (s : State) : Res := .next (writeHeld s (ringOf kind ring))

/-- Whether a command's units have all stopped or ended; a PREEMPT has stopped every share at a restart point (R244, R246). -/
def unitsStopped (s : State) (q idx : Nat) : Bool :=
  (getQ s q).preempting ||
  !(s.coreShares.any fun e => e.2.1 == q && e.2.2 == idx) && !(s.copyShares.any fun e => e.2.1 == q && e.2.2 == idx)

/-- QUEUE_FAULT (R188, R200, R230, R238, R625): once the command of the earliest unreported stop has stopped, its fault record is
written and a RUNNING queue enters FAULTED; a DRAINING one discards the command's progress. -/
def execQueueFault (q : QueueNo) (s : State) : Res :=
  match (getQ s q).stops with
  | r :: _ =>
    if (qState s q == qsRunning || qState s q == qsDraining) && unitsStopped s q r.idx then .next (reportStop s q) else .next s
  | [] => .next s

/-! ### Queue and ring set-up (Table 5.2) -/

def sizeOk (n : Nat) : Bool := 6 ≤ n && n ≤ 16

/-- QUEUE_ENABLE (Table 5.2, R189): enable written 1; `tail` is what the doorbell slot holds. -/
def execQueueEnable (q : QueueNo) (tail : BitVec 32) (s : State) : Res :=
  let st := qState s q
  if st == qsDisabled then
    if sizeOk (rd s QUE_Q_RING.size_log2 q) then
      let s := putQ s q { queueEmpty with tail := tail.toNat }
      let s := wr (wr (wr s QUE_Q_STATE.head q tail.toNat) QUE_Q_STATE.state q qsRunning) QUE_Q_CTL.enable q 1
      .next (dbAdd s (.sq q))
    else .next (setBit s QUE_STATUS.cfg_ignored)
  else if st == qsDraining || st == qsStopped then .next (setBit s QUE_STATUS.cfg_ignored)
  else .next s

/-- The queue is DISABLED: its doorbell line is released. -/
def queueOff (s : State) (q : Nat) : State :=
  dbRemove (wr (wr (putQ s q queueEmpty) QUE_Q_STATE.state q qsDisabled) QUE_Q_STATE.inflight q 0) (.sq q)

/-- QUEUE_DISABLE (Table 5.2, R189, R253, R444, R477, R625): enable written 0. -/
def execQueueDisable (q : QueueNo) (s : State) : Res :=
  let st := qState s q
  let s := wr s QUE_Q_CTL.enable q 0
  let x := getQ s q
  if st == qsRunning || st == qsFaulted then
    let gone := x.ctxs.filter fun c =>
      c.phase == .reported || descOpcode c.desc == opLanding ||
      (st == qsFaulted && (descOpcode c.desc == opReduceScatter || descOpcode c.desc == opAllGather || descOpcode c.desc == opExchange))
    let s := wr (putQ s q { x with fetched := [], tailFault := false }) QUE_Q_STATE.state q qsDraining
    .next (gone.foldl (fun s c => dropCtx (abandon s q c.idx) q c.idx) s)
  else if st == qsStopped then .next (queueOff (x.saved.foldl (fun s c => abandon s q c.idx) s) q)
  else .next s

/-- QUEUE_DRAINED (R625): every dispatched command has completed or stopped, and every record is written. -/
def execQueueDrained (q : QueueNo) (s : State) : Res :=
  let x := getQ s q
  if qState s q == qsDraining && x.ctxs.isEmpty && x.stops.isEmpty && !x.frecHeld then .next (queueOff s q) else .next s

/-- The tail check of R174. -/
def tailCheck (s : State) (q tail : Nat) : State :=
  let x := getQ s q
  let head := rd s QUE_Q_STATE.head q
  if 2 ^ rd s QUE_Q_RING.size_log2 q < (tail + 2 ^ 32 - head) % 2 ^ 32 then
    putQ s q { x with tailFault := true, stops := x.stops ++ [⟨head, 0, 0, stopPlain stDescInvalid 3 0⟩] }
  else putQ s q { x with tail := tail }

/-- A stopped command goes on: every stopped share from its restart point, its engines' shares queued again (R230, R235); a third-party die
repeats its command whole (R339). -/
def continueCtx (s : State) (q : Nat) (c : Ctx) : State :=
  let copy := descOpcode c.desc == opCopy
  let at_ := c.stops.foldl (fun m (p, st) => kput m p (0, st.restart, if copy then st.p0 else 0)) c.accAt
  let c' := { c with phase := .running, stops := [], accAt := at_ }
  let s := modCtx s q c.idx fun _ => c'
  if atSite c then sendSite s q c'
  else if unitsStopped s q c.idx then addShares s q c' else s

/-- QUEUE_RESUME (Table 5.2, R174, R238, R253): resume written 1; `tail` is what the doorbell slot holds if R174 has it read. -/
def execQueueResume (q : QueueNo) (tail : BitVec 32) (s : State) : Res :=
  if qState s q != qsFaulted then .next (setBit s QUE_STATUS.cfg_ignored)
  else
    let s := wr s QUE_Q_STATE.state q qsRunning
    let x := getQ s q
    -- an unreported stop of a command comes first; the tail is read again once its own stop is reported
    if x.tailFault && !(x.stops.any fun r => r.opcode == 0 && r.tag == 0 && (findCtx s q r.idx).isNone && r.stop.status == stDescInvalid) then
      .next (tailCheck (putQ s q { x with tailFault := false }) q tail.toNat)
    else
      let back := x.ctxs.filter fun c => c.phase == .reported
      let redo := (back.filter (·.recheck)).map fun c => (c.idx, c.desc)
      let s := putQ s q { x with ctxs := x.ctxs.filter fun c => !(c.phase == .reported && c.recheck), fetched := redo ++ x.fetched }
      let s := wr s QUE_Q_STATE.inflight q (getQ s q).ctxs.length
      .next ((back.filter fun c => !c.recheck).foldl (fun s c => continueCtx s q c) s)

/-- COMPLETION_RING_ENABLE (R197, R198): a completion (0) or fault (1) ring is enabled; its write index is set to 0. -/
def execCompletionRingEnable (kind : Fin 2) (ring : Fin 4096) (s : State) : Res :=
  let r := ringOf kind ring
  if ringEnabled s r then .next s
  else
    let (en, sz, i) : Fld × Fld × Nat :=
      if kind.val == 0 then (QUE_C_RING.enable, QUE_C_RING.size_log2, ring.val) else (QUE_F_RING.enable, QUE_F_RING.size_log2, ring.val % 256)
    if sizeOk (rd s sz i) then
      let s := putRing (putWindex (wr s en i 1) r 0) r { getRing s r with head := 0 }
      .next (noteRing (dbAdd s r) r)
    else .next (setBit s QUE_STATUS.cfg_ignored)

/-- CONTROL_RING_ENABLE (R240, R254): both rings of a control ring start; `tail` is what the request slot holds. -/
def execControlRingEnable (x : Fin 16) (tail : BitVec 32) (s : State) : Res :=
  if on s QUE_X_RING.enable x then .next s
  else if sizeOk (rd s QUE_X_RING.size_log2 x) then
    let s := wr s QUE_X_RING.enable x 1
    let s := { s with xrings := kput s.xrings x ⟨tail.toNat, tail.toNat, 0⟩, rrings := kput s.rrings x { getRing s (.xr x) with head := 0 } }
    .next (noteRing (dbAdd (dbAdd s (.xq x)) (.xr x)) (.xr x))
  else .next (setBit s QUE_STATUS.cfg_ignored)

/-- Every doorbell line is to be read again before the panel dispatches (R180). -/
def dbRestart (s : State) : State :=
  let s := dbRereadAll s
  { s with dbHold := !s.dbLines.isEmpty }

/-- QUEUE_ENGINE_ENABLE (R213): a write of QUE_CTL.engine_en; 0 to 1 brings db_force_poll into force, and a change between holding
and polling reads every line again (R180). -/
def execQueueEngineEnable (v : Bool) (s : State) : Res :=
  let was := on s QUE_CTL.engine_en
  let s := wr s QUE_CTL.engine_en 0 (if v then 1 else 0)
  if v && !was then
    let old := inForce s QUE_CTL.db_force_poll
    let s := wr (bringIn s QUE_CTL.db_force_poll) QUE_STATUS.cfg_pending 0 0
    .next (if inForce s QUE_CTL.db_force_poll != old then dbRestart s else s)
  else .next s

/-! ### Doorbell lines -/

/-- A line loses the panel's copy and is to be read again. -/
def dbLose (s : State) (addr : Nat) : State :=
  { s with dbLines := s.dbLines.map fun l => if l.addr == addr && l.copy then { l with copy := false, reread := true } else l }

/-- DOORBELL_SNOOP (R177): a host write to a held line invalidates the copy; the panel answers and reads the line again. -/
def execDoorbellSnoop (line : W64) (s : State) : Res := .next (dbLose s (line.toNat / 64 * 64))

/-- DOORBELL_LINE_LOST (R178): a held line is lost for any other reason. -/
def execDoorbellLineLost (line : W64) (s : State) : Res := .next (dbLose s (line.toNat / 64 * 64))

/-- Act on a slot's value for one ring (R171, R174, R177). -/
def slotTake (s : State) (data : Line) (r : RingId) : State :=
  let v := lineBits data (4 * (ringSlot s r).2) 0 32
  match r with
  | .sq q =>
    if v != (getQ s q).tail && (qState s q == qsRunning || qState s q == qsFaulted) && !(getQ s q).tailFault then tailCheck s q v
    else if qState s q == qsStopped then putQ s q { getQ s q with tail := v } else s
  | .xq x =>
    -- a tail beyond the ring is not taken (R174, R240)
    { s with xrings := kmod s.xrings x xringEmpty fun c => if (v + 2 ^ 32 - c.next) % 2 ^ 32 ≤ 2 ^ rd s QUE_X_RING.size_log2 x then { c with tail := v } else c }
  | r => noteRing (putRing s r { getRing s r with head := v }) r

/-- DOORBELL_LINE_DATA (R177, R179): a line that was to be read arrives, through the home port (R601); the panel acts on every changed slot. -/
def execDoorbellLineData (line : W64) (data : Line) (s : State) : Res :=
  let a := line.toNat / 64 * 64
  match s.dbLines.find? fun l => l.addr == a with
  | none => .next s
  | some l =>
    if !l.reread || !homeUp s then .next s
    else
      let i := s.dbLines.idxOf l
      let lines := s.dbLines.map fun (l : DbLine) => if l.addr == a then { l with copy := cacheOn s && i < 4096, reread := false } else l
      let s := { s with dbLines := lines }
      let s := { s with dbHold := s.dbHold && s.dbLines.any (·.reread) }
      .next (l.users.foldl (fun s r => slotTake s data r) s)

/-- DOORBELL_POLL (R179): the poll interval has passed, and every polled line is read. -/
def execDoorbellPoll (s : State) : Res :=
  let polled := (polledLines s).map (·.addr)
  .next { s with dbLines := s.dbLines.map fun l => if polled.contains l.addr then { l with reread := true } else l }

/-- DOORBELL_REREAD_ALL (R180). -/
def execDoorbellRereadAll (s : State) : Res := .next (dbRestart s)

/-! ### Commands of the command processor -/

/-- The context of a command of an opcode that is at work. -/
def runningCtx (s : State) (q idx op : Nat) : Option Ctx :=
  match findCtx s q idx with
  | some c => if descOpcode c.desc == op && c.phase == .running then some c else none
  | none => none

/-- NOP (R195): complete at dispatch, with nothing done. -/
def execNop (q : QueueNo) (idx : BitVec 32) (s : State) : Res :=
  match runningCtx s q idx.toNat opNop with
  | some _ => .next (finishCtx s q idx.toNat stOk 0)
  | none => .next s

/-- Distinct lines that the watch table holds. -/
def watchLines (s : State) : Nat := (s.watch.foldl (fun l e => setIns l e.1) []).length

/-- Test the semaphore of a WAIT (R205, R206, R207): it is satisfied, fails, faults, or stays on watch. -/
def testWait (s : State) (q : Nat) (c : Ctx) : State :=
  let x := translate s 1280 (rd s QUE_Q_BIND.space q) (sigAddr c.desc) accRead
  if x.status == stFaultPage || x.status == stFaultPerm then stopShare x.s q c.idx 0 (stopPlain x.status accRead (sigAddr c.desc))
  else if x.status == stWait then x.s
  else if x.status != stOk then finishCtx x.s q c.idx x.status 0
  else
    let stacked : Bool := match placeOf x.s x.flat with | .stack _ => x.flat < 2 ^ 52 | _ => false
    if !stacked then stopShare x.s q c.idx 0 (stopPlain stDescInvalid 3 0)
    else
      let g := readFlat x.s x.flat 8
      if g.status == stWait then g.s
      else if g.status != stOk then finishCtx g.s q c.idx g.status 0
      else
        let v := leNat g.data
        let off (s : State) : State := { s with watch := s.watch.filter (·.2 != (q, c.idx)), unwatched := s.unwatched.filter (· != (q, c.idx)) }
        if lineBits c.desc 0x10 0 64 ≤ v then finishCtx (off g.s) q c.idx stOk v
        else if g.s.watch.any (·.2 == (q, c.idx)) then g.s
        else
          let line := x.flat / 64
          if g.s.watch.any (·.1 == line) || watchLines g.s < 1024 then
            let s := off g.s
            { s with watch := s.watch ++ [(line, q, c.idx)] }
          else if g.s.unwatched.contains (q, c.idx) then g.s
          else { g.s with unwatched := g.s.unwatched ++ [(q, c.idx)] }

/-- WAIT (R205): test the semaphore, or watch it. -/
def execWaitSem (q : QueueNo) (idx : BitVec 32) (s : State) : Res :=
  match runningCtx s q idx.toNat opWait with
  | some c => .next (testWait s q c)
  | none => .next s

/-- SEMAPHORE_WATCH (R206): a write has reached a watched line, and the WAIT that watches it is tested. -/
def execSemaphoreWatch (q : QueueNo) (idx : BitVec 32) (s : State) : Res :=
  match runningCtx s q idx.toNat opWait with
  | some c => if s.watch.any (·.2 == (q.val, c.idx)) then .next (testWait s q c) else .next s
  | none => .next s

/-- WAIT_RETEST (R206): every WAIT that found the watch table full is tested. -/
def execWaitRetest (s : State) : Res :=
  .next (s.unwatched.foldl (fun s e => match runningCtx s e.1 e.2 opWait with | some c => testWait s e.1 c | none => s) s)

/-- WAIT_TIMEOUT (R201): the timeout of a WAIT expires and its queue faults. -/
def execWaitTimeout (q : QueueNo) (idx : BitVec 32) (s : State) : Res :=
  match runningCtx s q idx.toNat opWait with
  | some c =>
    if lineBits c.desc 0x18 0 32 == 0 then .next s
    else
      let s := { s with watch := s.watch.filter (·.2 != (q.val, c.idx)), unwatched := s.unwatched.filter (· != (q.val, c.idx)) }
      .next (stopShare s q c.idx 0 (stopPlain stTimeout 3 0))
  | none => .next s

/-- SIGNAL (R207, R411): add to a local semaphore, or send a flagged ADD to a remote one. -/
def execSignalSem (q : QueueNo) (idx : BitVec 32) (s : State) : Res :=
  match runningCtx s q idx.toNat opSignal with
  | none => .next s
  | some c =>
    let d := c.desc
    let job := rd s QUE_Q_BIND.space q
    if sigRemote d then
      if c.started then .next s
      else
        let s := modCtx s q c.idx fun c => { c with started := true }
        .next (rmtSubmit s (.signal q c.idx) rcAdd 8 (sigNode d) (sigAddr d / 2 ^ 40) (sigAddr d % 2 ^ 40) (leBytes 8 (sigValue d)) job true)
    else
      let x := translate s 1280 job (sigAddr d) accAtomic
      if x.status == stFaultPage || x.status == stFaultPerm then .next (stopShare x.s q c.idx 0 (stopPlain x.status accAtomic (sigAddr d)))
      else if x.status == stWait then .next x.s
      else if x.status != stOk then .next (finishCtx x.s q c.idx x.status 0)
      -- a host-memory SIGNAL goes through the home port (R601)
      else if 2 ^ 64 ≤ x.flat && !homeUp x.s then .next x.s
      else if 2 ^ 64 ≤ x.flat && !on x.s PNL_HOST_STATUS.cache_en (primaryHub x.s) then
        .next (stopShare x.s q c.idx 0 (stopPlain stDescInvalid 3 0))
      else
        let g := readFlat x.s x.flat 8
        if g.status == stWait then .next g.s
        else if g.status != stOk then .next (finishCtx g.s q c.idx g.status 0)
        else
          let old := leNat g.data
          let (s, st) := writeFlat g.s q c.idx x.flat (leBytes 8 (old + sigValue d))
          .next (finishCtx s q c.idx st (if st == stOk then old else 0))

/-- FENCE (R208, R209): complete once the writes of the earlier commands of its queue, all complete, are visible at its scope: their far-tier
writes from PANEL on, their remote stores for SYSTEM and HOST. -/
def execFence (q : QueueNo) (idx : BitVec 32) (s : State) : Res :=
  match runningCtx s q idx.toNat opFence with
  | none => .next s
  | some c =>
    let scope := lineBits c.desc 0x08 0 3
    let far := 4 ≤ scope && s.farWrites.any (·.queue == q.val)
    let remote := 5 ≤ scope && s.rmtOps.any fun o => o.origin.queue == q.val && o.code != rcLoad
    if far || remote then .next s else .next (finishCtx s q c.idx stOk 0)

/-- A TIMER that has counted its ticks expires (R211). -/
def timerEnd (s : State) (q : Nat) (c : Ctx) : State :=
  if c.started && c.tick == 0 then finishCtx s q c.idx stOk (hubTick s % 2 ^ 64) else s

/-- TIMER (R211): counting begins at dispatch, or when nothing earlier of its queue is in flight; 0 ticks expire at once. -/
def execTimer (q : QueueNo) (idx : BitVec 32) (s : State) : Res :=
  match runningCtx (armTimers s q) q idx.toNat opTimer with
  | none => .next s
  | some c => .next (timerEnd (armTimers s q) q c)

/-- TIMER_EXPIRY (R211): the duration has elapsed. -/
def execTimerExpiry (q : QueueNo) (idx : BitVec 32) (s : State) : Res :=
  match runningCtx s q idx.toNat opTimer with
  | some c => .next (timerEnd s q c)
  | none => .next s

end Sys2Proof.Machine
end

