-- ==== Sys2Proof/Machine/Collect.lean ====
section
/-!
DEFINITION. Collectives (file 12, R413 to R446): groups, the chunks that every member sends in their order, grants, chunks, reduction
arithmetic, failures, completion.
-/

namespace Sys2Proof.Machine

/-! ### Groups (R413 to R417) -/

/-- Coordinates of a node ID (R342). -/
def nodeX (n : Nat) : Nat := n % 64
def nodeY (n : Nat) : Nat := n / 64 % 32
def nodeZ (n : Nat) : Nat := n / 2048

/-- A node ID names a panel (R342). -/
def nodeValid (s : State) (n : Nat) : Bool :=
  nodeX n < rd s FAB_COORD.dim_x && nodeY n < rd s FAB_COORD.dim_y && nodeZ n < rd s FAB_COORD.dim_z && n < 2 ^ 14

/-- The shape of an entry of kind 0, or a list of n members, for index arithmetic. -/
structure GrpShape where
  list : Bool
  nx : Nat
  ny : Nat
  nz : Nat
  spanX : Bool
  spanY : Bool
  deriving DecidableEq, Repr

def GrpShape.size (g : GrpShape) : Nat := g.nx * g.ny * g.nz

/-- The set bits of a zmask, ascending. -/
def zBits (m : Nat) : List Nat := (List.range 8).filter (bitOn m)

/-- The shape of an entry; a list's members count as one row. -/
def grpShape (s : State) (g : Nat) : GrpShape :=
  if on s GRP_ENT_CTL.kind g then ⟨true, rd s GRP_ENT_LIST.count g, 1, 1, false, false⟩
  else
    let nx := rd s GRP_ENT_SHAPE.nx g
    let ny := rd s GRP_ENT_SHAPE.ny g
    ⟨false, nx, ny, (zBits (rd s GRP_ENT_SHAPE.zmask g)).length,
     nx == rd s FAB_COORD.dim_x && on s FAB_COORD.wrap_x, ny == rd s FAB_COORD.dim_y && on s FAB_COORD.wrap_y⟩

/-- Entry n of the member list. -/
def mlistEntry (s : State) (n : Nat) : Nat :=
  rd s (match n % 4 with | 0 => GRP_MLIST.entry_0 | 1 => GRP_MLIST.entry_1 | 2 => GRP_MLIST.entry_2 | _ => GRP_MLIST.entry_3) (n / 4) % 2 ^ 14

/-- The members of an entry in the order of their indices (R414, R415). -/
def grpMembers (s : State) (g : Nat) : List Nat :=
  if on s GRP_ENT_CTL.kind g then (List.range (rd s GRP_ENT_LIST.count g)).map fun i => mlistEntry s (rd s GRP_ENT_LIST.first g + i)
  else
    let x0 := rd s GRP_ENT_SHAPE.x0 g
    let y0 := rd s GRP_ENT_SHAPE.y0 g
    (zBits (rd s GRP_ENT_SHAPE.zmask g)).flatMap fun z => (List.range (rd s GRP_ENT_SHAPE.ny g)).flatMap fun k =>
      (List.range (rd s GRP_ENT_SHAPE.nx g)).map fun i =>
        z * 2048 + (y0 + k) % rd s FAB_COORD.dim_y * 64 + (x0 + i) % rd s FAB_COORD.dim_x

/-- Inbound streams of an entry (R416). -/
def grpStreams (g : GrpShape) : Nat :=
  if g.list then 1 else max 1 ((if 1 < g.nx then 2 else 0) + (if 1 < g.ny then 2 else 0) + (if 1 < g.nz then 1 else 0))

/-- The staging reservation of an entry in bytes (R416). -/
def grpReserve (s : State) (g : Nat) : Nat :=
  rd s GRP_ENT_CTL.depth g * rd s GRP_ENT_CTL.slots g * 2 ^ (rd s GRP_ENT_CTL.chunk_log2_max g + 12) * grpStreams (grpShape s g)

/-- Bytes reserved by every enabled entry. -/
def grpReserved (s : State) : Nat := s.groups.foldl (fun n x => n + grpReserve s x.1) 0

/-- Keep GRP_STATUS.stage_used current. -/
def grpUsed (s : State) : State := wr s GRP_STATUS.stage_used 0 (cdiv (grpReserved s) (2 ^ 20))

/-- An entry can be enabled (R417). -/
def grpOk (s : State) (g : Nat) : Bool :=
  let ms := grpMembers s g
  let sh := grpShape s g
  let fits := grpReserved s + grpReserve s g ≤ rd s GRP_STAGE.size_mib * 2 ^ 20
  ms.contains (rd s FAB_COORD.node) && fits &&
  (if sh.list then
    rd s GRP_ENT_LIST.first g + rd s GRP_ENT_LIST.count g ≤ 16384 && rd s GRP_ENT_LIST.count g ≤ 10240 && noTwice ms && ms.all (nodeValid s)
   else
    sh.nx ≤ rd s FAB_COORD.dim_x && sh.ny ≤ rd s FAB_COORD.dim_y && sh.nz != 0 &&
    (zBits (rd s GRP_ENT_SHAPE.zmask g)).all (· < rd s FAB_COORD.dim_z) &&
    (on s FAB_COORD.wrap_x || rd s GRP_ENT_SHAPE.x0 g + sh.nx ≤ rd s FAB_COORD.dim_x) &&
    (on s FAB_COORD.wrap_y || rd s GRP_ENT_SHAPE.y0 g + sh.ny ≤ rd s FAB_COORD.dim_y))

/-! ### What a member sends (R428 to R430) -/

/-- Index of the member at ring position p of a stage, in the ring of member m; stages 0 X, 1 Y, 2 Z, 3 list. -/
def ringAt (g : GrpShape) (st m p : Nat) : Nat :=
  match st with
  | 0 => m - m % g.nx + p
  | 1 => m % g.nx + g.nx * (p + g.ny * (m / (g.nx * g.ny)))
  | 2 => m % (g.nx * g.ny) + g.nx * g.ny * p
  | _ => p

/-- Ring position of a member, or owner position of a slice, in a stage. -/
def ringPos (g : GrpShape) (st m : Nat) : Nat :=
  match st with
  | 0 => m % g.nx
  | 1 => m / g.nx % g.ny
  | 2 => m / (g.nx * g.ny)
  | _ => m

/-- Members of a ring of a stage. -/
def ringLen (g : GrpShape) (st : Nat) : Nat :=
  match st with | 0 => g.nx | 1 => g.ny | 2 => g.nz | _ => g.nx

/-- Whether a stage's axis is spanning (R417). -/
def ringSpans (g : GrpShape) (st : Nat) : Bool := match st with | 0 => g.spanX | 1 => g.spanY | _ => false

/-- Stages with more than one member, in order (R428). -/
def grpStages (g : GrpShape) : List Nat := if g.list then (if 1 < g.nx then [3] else []) else [0, 1, 2].filter fun st => 1 < ringLen g st

/-- Slices that travel together in a stage: the share of a slice. -/
def shareSlices (rs : Bool) (g : GrpShape) (st j : Nat) : List Nat :=
  (List.range g.size).filter fun k =>
    match st, rs with
    | 0, true => ringPos g 0 k == ringPos g 0 j
    | 1, true => ringPos g 0 k == ringPos g 0 j && ringPos g 1 k == ringPos g 1 j
    | 1, false => ringPos g 1 k == ringPos g 1 j && ringPos g 2 k == ringPos g 2 j
    | 2, false => ringPos g 2 k == ringPos g 2 j
    | _, _ => k == j

/-- A chunk of a share: direction (0 +, 1 −), number in the share, elements [lo, lo + n) of a slice, the bounds of its piece of the
slice in this share, and the round that orders it. -/
structure ShareChunk where
  dir : Nat
  no : Nat
  slice : Nat
  lo : Nat
  n : Nat
  plo : Nat
  phi : Nat
  round : Nat
  deriving DecidableEq, Repr

/-- Cut [lo, hi) into chunks of at most e elements. -/
def cutRange (e lo hi : Nat) : List (Nat × Nat) :=
  if e = 0 then [] else (List.range (cdiv (hi - lo) e)).map fun k => (lo + k * e, min e (hi - (lo + k * e)))

/-- Chunks of one direction of a share: the elements [a, b) of the run of its slices, `count` elements each (R429, R430). -/
def dirChunks (e count a b dir : Nat) (slices : List Nat) : List ShareChunk :=
  let pieces := ((List.range slices.length).zip slices).map fun (k, j) => (j, max a (k * count) - k * count, min b ((k + 1) * count) - k * count)
  let cs := pieces.flatMap fun (j, lo, hi) => (cutRange e lo hi).map fun (l, n) => (j, l, n, lo, hi)
  ((List.range cs.length).zip cs).map fun (no, j, l, n, lo, hi) => ⟨dir, no, j, l, n, lo, hi, no⟩

/-- The chunks of the share of a slice in the first stage of a list of stages given latest first; a later stage's round is the latest
round that its data come from. -/
def shareChunks (rs : Bool) (g : GrpShape) (e count : Nat) : List Nat → (slice : Nat) → List ShareChunk
  | [], _ => []
  | st :: before, j =>
    let slices := shareSlices rs g st j
    let total := slices.length * count
    let cs :=
      if ringSpans g st then dirChunks e count 0 (cdiv total 2) 0 slices ++ dirChunks e count (cdiv total 2) total 1 slices
      else dirChunks e count 0 total 0 slices
    if before.isEmpty then cs
    else cs.map fun c => { c with
      round := ((shareChunks rs g e count before c.slice).filter fun b => b.slice == c.slice && overlaps b.lo b.n c.lo c.n).foldl (fun r b => max r b.round) 0 }

/-- One chunk that a member sends: its place in the order of first sends, its stage, stream, ring step, share chunk and receivers, and
the direction of a multicast (none for unicast). -/
structure CollSpec where
  key : List Nat
  stage : Nat
  stream : Nat
  step : Nat
  c : ShareChunk
  tos : List Nat
  mc : Option Nat
  deriving DecidableEq, Repr

/-- Order of keys. -/
def keyLt : List Nat → List Nat → Bool
  | [], [] => false
  | [], _ => true
  | _, [] => false
  | a :: as, b :: bs => a < b || (a == b && keyLt as bs)

def insSpec (x : CollSpec) : List CollSpec → List CollSpec
  | [] => [x]
  | y :: l => if keyLt x.key y.key then x :: y :: l else y :: insSpec x l

def mkSpec (st stream step : Nat) (c : ShareChunk) (tos : List Nat) (mc : Option Nat) : CollSpec :=
  ⟨[c.round, st, c.no, step, c.dir], st, stream, step, c, tos, mc⟩

/-- The stream of a stage and direction of travel (R431). -/
def streamOf (st dir : Nat) : Nat := match st with | 0 => dir | 1 => 2 + dir | 2 => 4 | _ => 5

/-- The suffixes of a list of stages, each as the stage and its predecessors, latest first. -/
def stagesBack (l : List Nat) : List (List Nat) := (List.range l.length).map fun k => (l.take (k + 1)).reverse

/-- REDUCE_SCATTER: what a member sends in a stage's ring (R428, R429, R436). -/
def rsSends (g : GrpShape) (e count m : Nat) (back : List Nat) : List CollSpec :=
  match back with
  | [] => []
  | st :: before =>
    let n := ringLen g st
    let p := ringPos g st m
    let dirs := if ringSpans g st then [0, 1] else [0]
    dirs.flatMap fun dir => (List.range (n - 1)).flatMap fun t =>
      let o := if dir == 0 then (p + 2 * n - 1 - t) % n else (p + 1 + t) % n
      let dest := if dir == 0 then (p + 1) % n else (p + n - 1) % n
      -- the closing hop of a line runs back along it
      let stream := streamOf st (if dir == 0 && dest == 0 && !ringSpans g st && st ≤ 1 then 1 else dir)
      -- the share of owner position o among the slices this member holds in the stage
      match (List.range g.size).find? fun j => ringPos g st j == o && before.all fun b => ringPos g b j == ringPos g b m with
      | none => []
      | some j => ((shareChunks true g e count back j).filter (·.dir == dir)).map fun c => mkSpec st stream t c [ringAt g st m dest] none

/-- ALL_GATHER: what a member sends in a stage (R428, R429). -/
def agSends (g : GrpShape) (e count m : Nat) (back : List Nat) : List CollSpec :=
  match back with
  | [] => []
  | st :: _ =>
    let n := ringLen g st
    let p := ringPos g st m
    if st == 3 then
      (List.range (n - 1)).flatMap fun t => (shareChunks false g e count back ((m + n - t) % n)).map fun c => mkSpec 3 5 t c [(m + 1) % n] none
    else
      let cs := shareChunks false g e count back m
      if st == 2 then
        (List.range (n - 1)).flatMap fun t => cs.map fun c => mkSpec 2 4 t c [ringAt g 2 m ((p + 1 + t) % n)] none
      else if ringSpans g st then
        cs.map fun c =>
          let tos := (List.range (n - 1)).map fun t => ringAt g st m (if c.dir == 0 then (p + 1 + t) % n else (p + 2 * n - 1 - t) % n)
          mkSpec st (streamOf st c.dir) 0 c tos (some c.dir)
      else
        cs.flatMap fun c =>
          let up := (List.range (n - 1 - p)).map fun t => ringAt g st m (p + 1 + t)
          let down := (List.range p).map fun t => ringAt g st m (p - 1 - t)
          (if up.isEmpty then [] else [mkSpec st (streamOf st 0) 0 c up (some 0)]) ++
          (if down.isEmpty then [] else [mkSpec st (streamOf st 1) 1 c down (some 1)])

/-- EXCHANGE: block j goes straight to member j, nearest below first (R428, R431). -/
def exSends (g : GrpShape) (e count m : Nat) : List CollSpec :=
  let n := g.size
  (List.range (n - 1)).flatMap fun t =>
    let j := (m + 2 * n - 1 - t) % n
    (dirChunks e count 0 count 0 [0]).map fun c =>
      { mkSpec 4 5 t { c with slice := j } [j] none with key := [c.no, 4, 0, t, 0] }

/-- Wire element size in bytes (Table 12.2). -/
def wireBytes (op : Nat) (b : CollBody) : Nat :=
  if op == opReduceScatter && b.redOp == 0 then 16
  else if op == opReduceScatter && b.redOp == 1 then 4
  else match Fmt.ofCode b.fmt with | some f => f.bits / 8 | none => 1

/-- Elements of a full chunk (R430). -/
def chunkElems (op : Nat) (b : CollBody) : Nat := 2 ^ (b.chunk + 12) / wireBytes op b

/-- Every chunk that a member sends for a command, in the order of first sends: the position is the sent index. -/
def collPlan (g : GrpShape) (op : Nat) (b : CollBody) (m : Nat) : List CollSpec :=
  let e := chunkElems op b
  let l :=
    if op == opExchange then exSends g e b.count m
    else if op == opReduceScatter then (stagesBack (grpStages g)).flatMap (rsSends g e b.count m)
    else (stagesBack (grpStages g)).flatMap (agSends g e b.count m)
  l.foldr insSpec []

/-! ### The command at this member -/

def getColl (s : State) (q idx : Nat) : Option CollCmd := s.colls.find? fun c => c.queue == q && c.idx == idx
def modColl (s : State) (q idx : Nat) (f : CollCmd → CollCmd) : State :=
  { s with colls := s.colls.map fun c => if c.queue == q && c.idx == idx then f c else c }

/-- What the engine works with: shape, members, this member's index, opcode, body, job, plan. -/
structure CollEnv where
  g : GrpShape
  members : List Nat
  me : Nat
  op : Nat
  b : CollBody
  job : Nat
  plan : List CollSpec

def collEnv (s : State) (c : CollCmd) : CollEnv :=
  let g := grpShape s c.group
  let op := descOpcode c.desc
  let me := rd s GRP_ENT_SEQ.member c.group
  ⟨g, kget s.groups c.group [], me, op, collBody c.desc, rd s QUE_Q_BIND.space c.queue, collPlan g op (collBody c.desc) me⟩

def CollEnv.rs (v : CollEnv) : Bool := v.op == opReduceScatter
def CollEnv.counted (v : CollEnv) : Bool := v.b.countVa != 0
def CollEnv.fmt (v : CollEnv) : Fmt := (Fmt.ofCode v.b.fmt).getD .fp32
/-- Bytes of an element in memory. -/
def CollEnv.eb (v : CollEnv) : Nat := v.fmt.bits / 8
def CollEnv.w (v : CollEnv) : Nat := wireBytes v.op v.b

/-- Elements that this member sends of its own slice, or of block j (R422). -/
def ownLen (v : CollEnv) (c : CollCmd) (j : Nat) : Nat :=
  if v.counted then min v.b.count (c.counts.getD (if v.op == opExchange then j else 0) 0) else v.b.count

/-- Elements that exceed count (R422). -/
def collDropped (v : CollEnv) (c : CollCmd) : Nat := if v.counted then c.counts.foldl (fun n k => n + (k - v.b.count)) 0 else 0

/-- Key of a piece of a slice in `lens`. -/
def pieceId (j st dir : Nat) : Nat := 16 * j + 2 * st + dir

/-- Length of a slice as far as known: this member's own, or the sum of the pieces that have been received to their last chunk. -/
def sliceLen (v : CollEnv) (c : CollCmd) (j : Nat) : Option Nat :=
  if !v.counted then some v.b.count
  else if j == v.me then some (ownLen v c j)
  else
    let have_ := c.lens.filter fun x => x.1 / 16 == j
    let span := match have_ with | (k, _) :: _ => ringSpans v.g (k % 16 / 2) && k % 16 / 2 != 4 | [] => false
    if have_.isEmpty || (span && have_.length < 2) then none else some (have_.foldl (fun n x => n + x.2) 0)

/-- Elements of [lo, lo + n) of a slice that parts of a kind cover. -/
def covered (ps : List CollPart) (pick : CollPart → Bool) (j lo n : Nat) : Nat :=
  (ps.filter fun p => pick p && p.slice == j).foldl (fun a p => a + (min (p.lo + p.n) (lo + n) - max p.lo lo)) 0

/-- Whether a range has been placed or has failed. -/
def settledRange (c : CollCmd) (j lo n : Nat) : Bool := n ≤ covered c.parts (fun p => 8 ≤ p.stage) j lo n

/-- A failed range that meets [lo, lo + n). -/
def failedIn (c : CollCmd) (j lo n : Nat) : Option Nat :=
  ((c.parts.find? fun p => p.failed.isSome && p.slice == j && overlaps p.lo p.n lo n && p.stage == 9).bind (·.failed))

/-! ### Stops and ends -/

/-- Destination chunks in order: slice and range (R430). -/
def destChunks (v : CollEnv) : List (Nat × Nat × Nat) :=
  let e := chunkElems v.op v.b
  let js := if v.rs then [v.me] else List.range v.g.size
  js.flatMap fun j => (cutRange e 0 v.b.count).map fun (lo, n) => (j, lo, n)

/-- Restart and progress words of a collective (Table 6.4, R236). -/
def collRestart (s : State) (c : CollCmd) : Nat × Nat × Nat × Nat :=
  let v := collEnv s c
  let ds := destChunks v
  let done := ds.map fun (j, lo, n) => settledRange c j lo n
  let r := (done.idxOf? false).getD done.length
  let w0 := (List.range 64).foldl (fun m i => if done.getD (r + 1 + i) false then m + 2 ^ i else m) 0
  let a := ((List.range c.next).find? fun i => !c.acked.contains i).getD c.next
  let w2 := (List.range 64).foldl (fun m i => if c.acked.contains (a + 1 + i) then m + 2 ^ i else m) 0
  (r, w0, a, w2)

/-- The engine stops the command with a fault (R230, R236). -/
def collFault (s : State) (c : CollCmd) (status access va : Nat) : State :=
  match getColl s c.queue c.idx with
  | none => s
  | some c' =>
    let (r, w0, a, w2) := collRestart s c'
    stopShare (modColl s c.queue c.idx fun x => { x with halted := true }) c.queue c.idx 0 ⟨status, access, va, 3 * 2 ^ 28, r, w0, a, w2⟩

/-- next advances past the completed numbers at the bottom of the window (R418). -/
def advanceSeq (s : State) (g : Nat) : (fuel : Nat) → State
  | 0 => s
  | f + 1 =>
    let n := rd s GRP_ENT_SEQ.next g
    let l := kget s.collDone g []
    if l.contains n then advanceSeq (wr { s with collDone := kput s.collDone g (l.filter (· != n)) } GRP_ENT_SEQ.next g (n + 1)) g f else s

/-- A collective is at its end at this member: its number is complete and its slots are released. -/
def collEnd (s : State) (c : CollCmd) (status : Nat) : State :=
  let v := collEnv s c
  let fails := if v.b.failVa == 0 then 0 else (c.failed.foldl setIns []).length
  let status := stWorse status (stWorse (if collDropped v c != 0 then stDroppedOverflow else stOk) (if c.lost then stUncorrectable else stOk))
  let s := finishCtx s c.queue c.idx status (collDropped v c % 2 ^ 32 + 2 ^ 32 * fails)
  let s := { s with colls := s.colls.filter fun x => !(x.queue == c.queue && x.idx == c.idx) }
  let done := kget s.collDone c.group [] ++ [c.seq]
  advanceSeq { s with collDone := kput s.collDone c.group done } c.group (done.length + 1)

/-- A member sends nothing more for a command: what waits to be injected for it goes (R434, R443). -/
def collMute (s : State) (c : CollCmd) : State := { s with injQ := s.injQ.filter fun e => e.1 != .coll c.queue c.idx }

/-- A collective completes with TIMEOUT (R443, R445, R354). -/
def collTimeout (s : State) (q idx : Nat) : State :=
  match getColl s q idx with
  | some c => collEnd (collMute (incSat s GRP_STATS.timeouts) c) c stTimeout
  | none => s

/-! ### Packets (Tables 12.4, 12.5) -/

/-- A 32-bit CRC over bytes, least significant bit first, of the polynomial whose reflection is `poly`: preset to ones, complemented. -/
def crcBit (poly c : BitVec 32) : BitVec 32 := if c.getLsbD 0 then (c >>> 1) ^^^ poly else c >>> 1
def crcByte (poly c : BitVec 32) (b : Byte) : BitVec 32 := (List.range 8).foldl (fun c _ => crcBit poly c) (c ^^^ b.setWidth 32)
def crcOf (poly : BitVec 32) (l : List Byte) : Nat := ((l.foldl (crcByte poly) 0xFFFFFFFF#32) ^^^ 0xFFFFFFFF#32).toNat

/-- CRC-32C over bytes. -/
def crc32c (l : List Byte) : Nat := crcOf 0x82F63B78#32 l

/-- Owner fields of a COL packet. -/
def colOwner (group ty stream key packet : Nat) : Nat := group + 2 ^ 10 * ty + 2 ^ 13 * stream + 2 ^ 16 * key + 2 ^ 32 * packet

/-- The control payload. -/
def ctlPayload (c : CollCmd) (b : CollBody) (index slots : Nat) (l : CollSeal) : List Byte :=
  let f := match l.failed with | some m => m + 2 ^ 15 | none => 0
  let bit (x : Bool) : Nat := if x then 1 else 0
  leBytes 4 c.seq ++ leBytes 4 index ++ leBytes 4 b.count ++ leBytes 1 (b.fmt + 2 ^ 5 * b.redOp) ++ leBytes 1 (b.chunk + 2 ^ 4 * bit l.last) ++
  leBytes 2 slots ++ leBytes 4 l.crc ++ leBytes 2 f ++ leBytes 2 (bit l.low + 2 * bit l.high) ++ leBytes 4 l.elems ++ leBytes 4 0

/-- No seal: the fields of the other control packets. -/
def sealNone : CollSeal := ⟨0, 0, none, false, false, false, 0⟩

/-- Send a COL packet to a member, or along an axis. -/
def sendCol (s : State) (v : CollEnv) (c : CollCmd) (sp : Option CollSpec) (dest ty stream packet : Nat) (payload : List Byte) : State :=
  let p := packetNew s (v.members.getD dest 0) 2 (40 + primaryHub s) (colOwner c.group ty stream (rd s RMT_JOB_KEY.key v.job) packet) payload
  let p := match sp with
    | some sp => match sp.mc with
      | some dir => { p with mc := 1, mcAxis := sp.stage, mcDir := dir, mcSpan := sp.tos.length }
      | none => p
    | none => p
  { s with injQ := s.injQ ++ [(.coll c.queue c.idx, p)] }

/-- A control packet to the sender of a chunk: GRANT (2), ACK (3) or REREQ (4). -/
def sendCtl (s : State) (v : CollEnv) (c : CollCmd) (ty dest stream index : Nat) : State :=
  sendCol s v c none dest ty stream 0 (ctlPayload c v.b index (if ty == 2 then 1 else 0) sealNone)

/-- A REREQ is sent and counted (R433). -/
def sendRereq (s : State) (v : CollEnv) (c : CollCmd) (r : CollRx) : State :=
  let stream := ((collPlan v.g v.op v.b r.src)[r.index]?.map (·.stream)).getD 0
  incSat (sendCtl s v c 4 r.src stream r.index) GRP_STATS.rereqs

/-- The DATA packets and the SEAL of a chunk (R432). -/
def sendChunk (s : State) (v : CollEnv) (c : CollCmd) (sp : CollSpec) (t : CollTx) : State :=
  let dest := sp.tos.getLastD 0
  let s := (List.range t.cseal.packets).foldl (fun s p =>
    sendCol s v c (some sp) dest 0 sp.stream p (leBytes 4 c.seq ++ leBytes 4 t.index ++ (t.bytes.drop (248 * p)).take 248)) s
  sendCol s v c (some sp) dest 1 sp.stream 0 (ctlPayload c v.b t.index t.cseal.packets t.cseal)

/-! ### Arithmetic (R435 to R439) -/

/-- Codes of w bytes each. -/
def wireCodes (w : Nat) (bs : List Byte) : List Nat := (List.range (if w = 0 then 0 else bs.length / w)).map fun i => leAt bs (i * w) w
def wireBytesOf (w : Nat) (cs : List Nat) : List Byte := cs.flatMap (leBytes w)

/-- An element as it is written: a NaN is the canonical one (R61). -/
def canonNan (f : Fmt) (a : Int) (code : Nat) : Nat := if elemVal f a code == .nan then (conv f a .rne .nan).bits else code

/-- A source element into the wire format, at element index i of its destination. -/
def intoWire (v : CollEnv) (i code : Nat) : Nat × Inexact :=
  let a := signed 10 v.b.anchor
  if v.b.redOp == 0 then
    if v.fmt == .x128 then (code, {})
    else
      let c := conv .x128 a (Rnd.of v.b.rnd (BitVec.ofNat 64 v.b.seed) i) (elemVal v.fmt a code)
      (c.bits, inexactOfConv c)
  else if v.b.redOp == 1 then
    let (x, h) := toF32Sat (elemVal v.fmt a code)
    ((f32Code x).toNat, ⟨false, h⟩)
  else (code, {})

/-- Combine a received partial with this member's own (R435, R436, R437). -/
def wireCombine (v : CollEnv) (x y : Nat) : Nat × Bool :=
  let a := signed 10 v.b.anchor
  if v.b.redOp == 0 then x128Add x y
  else if v.b.redOp == 1 then ((f32Code (add32 (elemVal .fp32 0 x) (elemVal .fp32 0 y))).toNat, false)
  else
    let p := elemVal v.fmt a x
    let q := elemVal v.fmt a y
    if p == .nan || q == .nan then ((conv v.fmt a .rne .nan).bits, false)
    else if v.b.redOp == 2 then (if p.lt q then y else x, false)
    else (if q.lt p then y else x, false)

/-- The owner's final conversion (R435, R436). -/
def outOfWire (v : CollEnv) (i code : Nat) : Nat × Inexact :=
  let a := signed 10 v.b.anchor
  let r := Rnd.of v.b.rnd (BitVec.ofNat 64 v.b.seed) i
  if v.b.redOp == 0 then
    if v.fmt == .x128 then (canonNan .x128 a code, {}) else let c := conv v.fmt a r (elemVal .x128 a code); (c.bits, inexactOfConv c)
  else if v.b.redOp == 1 then let c := conv v.fmt a r (elemVal .fp32 0 code); (c.bits, inexactOfConv c)
  else (canonNan v.fmt a code, {})

def inexactAll (l : List (Nat × Inexact)) : Inexact := l.foldl (fun f x => inexactOr f x.2) {}

/-! ### Data of a chunk -/

/-- What producing data gives. -/
inductive CollData where
  | ready (codes : List Nat) (f : Inexact)
  /-- cannot be produced: the member to name -/
  | failed (m : Nat)
  /-- depends on data not yet here -/
  | wait
  | fault (status va : Nat)

/-- Flags that this member's own conversions set go into its record (R438). -/
def noteFlags (s : State) (c : CollCmd) (f : Inexact) : State :=
  modCtx s c.queue c.idx fun x => { x with low := x.low || f.low, high := x.high || f.high }

/-- Read elements of a buffer in the queue's address space. -/
def readElems (s : State) (v : CollEnv) (va n : Nat) : State × CollData :=
  let g := readVa s 1281 v.job va (n * v.eb)
  if g.status == stFaultPage || g.status == stFaultPerm then (g.s, .fault g.status g.va)
  else if g.status == stWait then (g.s, .wait)
  else if g.status != stOk then (g.s, .failed v.me)
  else (g.s, .ready (wireCodes v.eb g.data) {})

/-- This member's own part in a reduction stage: source elements for the first stage, the partial sums of the stage before it after
that (Table 12.3). -/
def contribution (s : State) (v : CollEnv) (c : CollCmd) (st j lo n : Nat) : State × CollData :=
  match ((grpStages v.g).takeWhile (· != st)).getLast? with
  | none =>
    match readElems s v (v.b.src + (j * v.b.count + lo) * v.eb) n with
    | (s, .ready cs _) =>
      let l := ((List.range n).zip cs).map fun (i, x) => intoWire v (lo + i) x
      (noteFlags s c (inexactAll l), .ready (l.map (·.1)) (inexactAll l))
    | r => r
  | some prev =>
    let ps := c.parts.filter fun p => p.stage == prev && p.owned && p.slice == j && overlaps p.lo p.n lo n
    if covered ps (fun _ => true) j lo n < n then (s, .wait)
    else match ps.findSome? (·.failed) with
      | some m => (s, .failed m)
      | none =>
        (s, .ready ((List.range n).map fun i => ((ps.find? fun p => p.lo ≤ lo + i && lo + i < p.lo + p.n).map fun p => p.vals.getD (lo + i - p.lo) 0).getD 0)
          ⟨ps.any (·.low), ps.any (·.high)⟩)

/-- Elements of a spec that carry data now: with runtime counts, those below the slice's length (R422). -/
def specLen (v : CollEnv) (c : CollCmd) (sp : CollSpec) : Option (Nat × Nat) :=
  match (if v.op == opExchange then some (ownLen v c sp.c.slice) else sliceLen v c sp.c.slice) with
  | none => none
  | some len =>
    let piece := min len sp.c.phi - sp.c.plo
    some (piece, min (sp.c.lo + sp.c.n) (sp.c.plo + piece) - sp.c.lo)

/-- The data of a chunk that this member is to send. -/
def specData (s : State) (v : CollEnv) (c : CollCmd) (sp : CollSpec) (n : Nat) : State × CollData :=
  let j := sp.c.slice
  if v.rs then
    if sp.step == 0 then contribution s v c sp.stage j sp.c.lo n
    else match c.parts.find? fun p => p.stage == sp.stage && !p.owned && p.slice == j && p.lo == sp.c.lo with
      | some p => (s, match p.failed with | some m => .failed m | none => .ready p.vals ⟨p.low, p.high⟩)
      | none => (s, .wait)
  else if v.op == opExchange || j == v.me then
    readElems s v (v.b.src + ((if v.op == opExchange then j * v.b.count else 0) + sp.c.lo) * v.eb) n
  else if !settledRange c j sp.c.lo n then (s, .wait)
  else match failedIn c j sp.c.lo n with
    | some m => (s, .failed m)
    | none => readElems s v (v.b.dst + (j * v.b.count + sp.c.lo) * v.eb) n

/-- Whether a chunk ends what its sender sends to its receivers, and the elements they will then have of it (Table 12.5). -/
def specLast (v : CollEnv) (sp : CollSpec) (i piece : Nat) : Bool × Nat :=
  if v.counted then (sp.c.plo + piece ≤ sp.c.lo + sp.c.n, piece)
  else
    let last := !((v.plan.drop (i + 1)).any fun x => x.tos == sp.tos)
    (last, if last then ((v.plan.filter fun x => x.tos == sp.tos).foldl (fun n x => n + x.c.n) 0) else 0)

/-- Send chunks in order while grants, data and the 64-chunk window allow (R236, R431). -/
def collSend (q idx : Nat) : (fuel : Nat) → State → State
  | 0, s => s
  | fuel + 1, s =>
    match getColl s q idx with
    | none => s
    | some c =>
      let v := collEnv s c
      match v.plan[c.next]? with
      | none => s
      | some sp =>
        let low := ((List.range c.next).find? fun i => !c.acked.contains i).getD c.next
        match specLen v c sp with
        | none => s
        | some (piece, n) =>
          if v.counted && n == 0 && sp.c.lo != sp.c.plo then
            collSend q idx fuel (modColl s q idx fun x => { x with next := c.next + 1, acked := setIns x.acked c.next })
          else if low + 64 ≤ c.next || !(sp.tos.all fun m => c.grants.contains (m, c.next)) then s
          else
            let (s, d) := if c.failNext then (s, .failed v.me) else specData s v c sp n
            let (last, elems) := specLast v sp c.next piece
            let go (s : State) (bytes : List Byte) (l : CollSeal) (self : Bool) : State :=
              let t : CollTx := ⟨c.next, [], bytes, l⟩
              let s := modColl s q idx fun x => { x with
                next := c.next + 1, failNext := false, txs := x.txs ++ [t], failed := if self then x.failed ++ [v.me] else x.failed
                grants := x.grants.filter fun g => g.2 != c.next }
              sendChunk s v c sp t
            match d with
            | .wait => s
            | .fault st va => collFault s c st accRead va
            | .failed m => collSend q idx fuel (go s [] ⟨0, 0, some m, false, false, last, elems⟩ (m == v.me))
            | .ready cs f =>
              let bs := wireBytesOf v.w cs
              collSend q idx fuel (go s bs ⟨cdiv bs.length 248, crc32c bs, none, f.low, f.high, last, elems⟩ false)

/-! ### Using a chunk -/

/-- Write placed elements and mark the range (R432). A write that fails leaves the range lost. -/
def placeElems (s : State) (v : CollEnv) (c : CollCmd) (va j lo : Nat) (codes : List Nat) : State × Bool :=
  let (s, st, a) := writeVa s 1281 v.job c.queue c.idx va (wireBytesOf v.eb codes)
  if st == stFaultPage || st == stFaultPerm then (collFault s c st accWrite a, false)
  else if st == stWait then (s, false)
  else if st != stOk then
    (modColl s c.queue c.idx fun x => { x with parts := x.parts ++ [⟨9, true, j, lo, codes.length, [], false, false, some v.me⟩], lost := true }, true)
  else (modColl s c.queue c.idx fun x => { x with parts := x.parts ++ [⟨8, true, j, lo, codes.length, [], false, false, none⟩] }, true)

/-- A range that nothing is written to (R440). -/
def loseRange (s : State) (c : CollCmd) (j lo n m : Nat) : State :=
  modColl s c.queue c.idx fun x => { x with parts := x.parts ++ [⟨9, true, j, lo, n, [], false, false, some m⟩], lost := true }

/-- Take a reduction's values at the end of a stage's ring at their owner: final ones are converted and written (R435, R436). -/
def ownResult (s : State) (v : CollEnv) (c : CollCmd) (st j lo : Nat) (vals : List Nat) (n : Nat) (f : Inexact) (failed : Option Nat) : State × Bool :=
  if (grpStages v.g).getLast? == some st || (grpStages v.g).isEmpty then
    match failed with
    | some m => (loseRange s c j lo n m, true)
    | none =>
      let l := ((List.range n).zip vals).map fun (i, x) => outOfWire v (lo + i) x
      let (s, ok) := placeElems s v c (v.b.dst + lo * v.eb) j lo (l.map (·.1))
      (if ok then noteFlags s c (inexactOr f (inexactAll l)) else s, ok)
  else
    (modColl s c.queue c.idx fun x => { x with parts := x.parts ++ [⟨st, true, j, lo, n, vals, f.low, f.high, failed⟩] }, true)

/-- The chunk of a receive entry is complete in its slot (Table 12.6): its bytes. -/
def rxBytes (r : CollRx) (l : CollSeal) : Option (List Byte) :=
  if (List.range l.packets).all fun p => (kfind r.packets p).isSome then
    some ((List.range l.packets).flatMap fun p => kget r.packets p [])
  else none

/-- Whether a slot's staging reads as uncorrectable data because its place lies in a hole or an excluded stack (R441, R621). Which pages of the
region a slot has is open. -/
def stageLost (s : State) (r : CollRx) : Bool :=
  regionHole s (rd s GRP_STAGE.base * 2 ^ 20 + 4096 * choose s (2 ^ 80 + 2 ^ 32 * r.src + r.index) (256 * rd s GRP_STAGE.size_mib))

/-- Use one sealed chunk (R432, R440, R441): the state, and whether it was used. -/
def useRx (s : State) (c : CollCmd) (r : CollRx) : State × Bool :=
  let v := collEnv s c
  match r.cseal, (collPlan v.g v.op v.b r.src)[r.index]? with
  | some l, some sp =>
    match rxBytes r l with
    | none => (s, false)
    | some bs =>
      if l.failed.isNone && (crc32c bs != l.crc || stageLost s r) then
        -- a bad CRC: the chunk is asked for again
        let s := modColl s c.queue c.idx fun x => { x with rxs := x.rxs.map fun y => if y == r then { y with packets := [], cseal := none } else y }
        (sendRereq (incSat s GRP_STATS.crc_errors) v c r, false)
      else
        let codes := wireCodes v.w bs
        let j := sp.c.slice
        let n := if l.failed.isSome then sp.c.n else codes.length
        let f : Inexact := ⟨l.low, l.high⟩
        let (s, ok) :=
          if v.rs then
            let owner := ringPos v.g sp.stage j == ringPos v.g sp.stage v.me
            match l.failed with
            | some m =>
              if owner then ownResult s v c sp.stage j sp.c.lo [] n {} (some m)
              else (modColl s c.queue c.idx fun x => { x with parts := x.parts ++ [⟨sp.stage, false, j, sp.c.lo, n, [], false, false, some m⟩] }, true)
            | none =>
              match contribution s v c sp.stage j sp.c.lo n with
              | (s, .wait) => (s, false)
              | (s, .fault st va) => (collFault s c st accRead va, false)
              | (s, .failed m) =>
                let s := if m == v.me then modColl s c.queue c.idx fun x => { x with failed := x.failed ++ [m] } else s
                if owner then ownResult s v c sp.stage j sp.c.lo [] n {} (some m)
                else (modColl s c.queue c.idx fun x => { x with parts := x.parts ++ [⟨sp.stage, false, j, sp.c.lo, n, [], false, false, some m⟩] }, true)
              | (s, .ready own g) =>
                let zs := codes.zipWith (wireCombine v) own
                let h : Inexact := inexactOr (inexactOr f g) ⟨false, zs.any (·.2)⟩
                if owner then ownResult s v c sp.stage j sp.c.lo (zs.map (·.1)) n h none
                else (modColl s c.queue c.idx fun x => { x with parts := x.parts ++ [⟨sp.stage, false, j, sp.c.lo, n, zs.map (·.1), h.low, h.high, none⟩] }, true)
          else
            let slice := if v.op == opExchange then r.src else j
            match l.failed with
            | some m => (loseRange s c slice sp.c.lo n m, true)
            | none => placeElems s v c (v.b.dst + (slice * v.b.count + sp.c.lo) * v.eb) slice sp.c.lo codes
        if !ok then (s, false)
        else
          let slice := if v.op == opExchange then r.src else j
          let s := modColl s c.queue c.idx fun x => { x with
            rxs := x.rxs.map fun y => if y.src == r.src && y.index == r.index then { y with used := true, packets := [] } else y
            rxDone := x.rxDone ++ [(r.src, r.index)]
            failed := match l.failed with | some m => x.failed ++ [m] | none => x.failed
            lens := if v.counted && l.last then kput x.lens (pieceId slice sp.stage sp.c.dir) l.elems else x.lens }
          (sendCtl s v c 3 r.src sp.stream r.index, true)
  | _, _ => (s, false)

/-- Use every chunk that can be used now. -/
def useAll (q idx : Nat) : (fuel : Nat) → State → State
  | 0, s => s
  | fuel + 1, s =>
    match getColl s q idx with
    | none => s
    | some c =>
      let (s', n) := (c.rxs.filter fun r => !r.used && r.cseal.isSome).foldl (fun (acc : State × Nat) r =>
        match getColl acc.1 q idx, runningCtx acc.1 q idx (descOpcode c.desc) with
        | some c, some _ => let (s, b) := useRx acc.1 c r; (s, if b then acc.2 + 1 else acc.2)
        | _, _ => acc) (s, 0)
      if n == 0 then s' else useAll q idx fuel s'

/-! ### Slots and grants (R431, R432) -/

/-- Whether the slot of a used chunk is free again: a relay's once the chunk that holds its data is acknowledged downstream. -/
def slotFree (v : CollEnv) (c : CollCmd) (r : CollRx) : Bool :=
  if !v.rs then true
  else match (collPlan v.g v.op v.b r.src)[r.index]? with
    | none => true
    | some sp =>
      let mine (st : Nat) (pick : CollSpec → Bool) : List Nat :=
        ((List.range v.plan.length).zip v.plan).filterMap fun (i, x) =>
          if x.stage == st && x.c.slice == sp.c.slice && overlaps x.c.lo x.c.n sp.c.lo sp.c.n && pick x then some i else none
      if ringPos v.g sp.stage sp.c.slice != ringPos v.g sp.stage v.me then (mine sp.stage fun x => x.step == sp.step + 1).all c.acked.contains
      else match ((grpStages v.g).dropWhile (· != sp.stage)).drop 1 with
        | [] => true
        | st :: _ =>
          let l := mine st fun _ => true
          if l.isEmpty then sp.c.n ≤ covered c.parts (fun p => p.stage == st || 8 ≤ p.stage) sp.c.slice sp.c.lo sp.c.n
          else l.all c.acked.contains

/-- What a member receives on a stream, in the order in which it is to come: sender, sent index, spec. -/
def expected (v : CollEnv) (stream : Nat) : List (Nat × Nat × CollSpec) :=
  let l := ((List.range v.g.size).filter (· != v.me)).flatMap fun m =>
    let p := collPlan v.g v.op v.b m
    ((List.range p.length).zip p).filterMap fun (i, sp) => if sp.stream == stream && sp.tos.contains v.me then some (m, i, sp) else none
  l.foldr (fun x acc =>
    let (a, b) := acc.span fun y => keyLt y.2.2.key x.2.2.key
    a ++ x :: b) []

/-- A chunk that will not come, because its sender has finished its piece (R431). -/
def notComing (v : CollEnv) (c : CollCmd) (src : Nat) (sp : CollSpec) : Bool :=
  v.counted && sp.c.lo != sp.c.plo &&
  match kfind c.lens (pieceId (if v.op == opExchange then src else sp.c.slice) sp.stage sp.c.dir) with
  | some n => sp.c.plo + n ≤ sp.c.lo
  | none => false

/-- Release slots and grant free ones on every stream, none 64 chunks or more beyond the lowest that is not finished (R236). -/
def collGrant (s : State) (q idx : Nat) : State :=
  match getColl s q idx with
  | none => s
  | some c =>
    let v := collEnv s c
    let s := modColl s q idx fun x => { x with rxs := x.rxs.filter fun r => !(r.used && slotFree v x r) }
    (List.range 6).foldl (fun s stream =>
      let ex := expected v stream
      match getColl s q idx with
      | none => s
      | some c =>
        let here := ex.filter fun e => c.rxs.any fun r => r.src == e.1 && r.index == e.2.1
        let open_ (e : Nat × Nat × CollSpec) : Bool := !(c.rxDone.contains (e.1, e.2.1)) && !(notComing v c e.1 e.2.2)
        let span := (ex.dropWhile fun e => !open_ e).take 64
        let fresh := span.filter fun e => open_ e && !(c.rxs.any fun r => r.src == e.1 && r.index == e.2.1)
        (fresh.take (rd s GRP_ENT_CTL.slots c.group - here.length)).foldl (fun s e =>
          let s := modColl s q idx fun x => { x with rxs := x.rxs ++ [⟨e.1, e.2.1, [], none, false⟩] }
          sendCtl s v c 2 e.1 stream e.2.1) s) s

/-! ### Set-up and completion -/

/-- Write zeros from an element on to the end of a slice. -/
def padSlice (s : State) (v : CollEnv) (c : CollCmd) (j len : Nat) : State × Nat × Nat :=
  if v.b.count ≤ len then (s, stOk, 0)
  else writeVa s 1281 v.job c.queue c.idx (v.b.dst + (j * v.b.count + len) * v.eb) (List.replicate ((v.b.count - len) * v.eb) 0)

/-- Words of the failure list (R424). -/
def failWords (v : CollEnv) (c : CollCmd) : List Byte :=
  (List.range (cdiv v.g.size 64)).flatMap fun k =>
    leBytes 8 ((List.range 64).foldl (fun m j => if c.failed.contains (64 * k + j) then m + 2 ^ j else m) 0)

/-- Writes of a command's end in order, until one does not succeed: its status, access and address. -/
def writesUntil (v : CollEnv) (c : CollCmd) : List (Nat × List Byte) → State → State × Nat × Nat
  | [], s => (s, stOk, 0)
  | (va, bs) :: l, s =>
    if bs.isEmpty then writesUntil v c l s
    else
      let (s, st, a) := writeVa s 1281 v.job c.queue c.idx va bs
      if st == stOk then writesUntil v c l s else (s, st, a)

/-- Complete the command if all of R426 holds. -/
def collFinish (s : State) (q idx : Nat) : State :=
  match getColl s q idx, (getColl s q idx).bind fun c => runningCtx s q idx (descOpcode c.desc) with
  | some c, some _ =>
    let v := collEnv s c
    let js := if v.rs then [v.me] else List.range v.g.size
    let placed := js.all fun j =>
      match (if v.op == opExchange && j == v.me then some (ownLen v c j) else sliceLen v c j) with
      | some n => settledRange c j 0 n
      | none => false
    if !(c.setup && placed && c.next == v.plan.length && c.txs.isEmpty) then s
    else
      let lens := js.map fun j => if v.op == opExchange && j == v.me then ownLen v c j else (sliceLen v c j).getD 0
      let pads := if v.counted then ((js.zip lens).filter fun x => x.2 < v.b.count).map fun (j, n) =>
          (v.b.dst + (j * v.b.count + n) * v.eb, List.replicate ((v.b.count - n) * v.eb) (0 : Byte))
        else []
      let counts := if v.counted then [(v.b.dst + 64 * cdiv (v.g.size * v.b.count * v.eb) 64, lens.flatMap (leBytes 4))] else []
      let fails := if v.b.failVa == 0 then [] else [(v.b.failVa, failWords v c)]
      let (s, st, a) := writesUntil v c (pads ++ counts ++ fails) s
      if st == stFaultPage || st == stFaultPerm then collFault s c st accWrite a
      else if st == stWait then s
      else collEnd s c st
  | _, _ => s

/-- Read the runtime counts and place what needs no other member (R421, R422). -/
def collSetup (s : State) (q idx : Nat) : State :=
  match getColl s q idx with
  | none => s
  | some c =>
    let v := collEnv s c
    let words := if v.op == opExchange then v.g.size else 1
    let (s, counts, st, va) : State × List Nat × Nat × Nat :=
      if v.counted then let g := readVa s 1281 v.job v.b.countVa (4 * words); (g.s, wireCodes 4 g.data, g.status, g.va) else (s, [], stOk, 0)
    if st == stFaultPage || st == stFaultPerm then collFault s c st accRead va
    else if st == stWait then s
    else
      -- counts that cannot be read leave nothing to send
      let counts := if st == stOk then counts else List.replicate words 0
      let s := modColl s q idx fun x => { x with counts := counts, lost := x.lost || st != stOk }
      match getColl s q idx with
      | none => s
      | some c =>
        let done (s : State) : State := modColl s q idx fun x => { x with setup := true }
        if v.rs then
          if !(grpStages v.g).isEmpty then done s
          else match contribution s v c 9 v.me 0 v.b.count with
            | (s, .wait) => s
            | (s, .fault st va) => collFault s c st accRead va
            | (s, .failed m) => done (modColl (loseRange s c v.me 0 v.b.count m) q idx fun x => { x with failed := x.failed ++ [m] })
            | (s, .ready vals f) => let (s, ok) := ownResult s v c 9 v.me 0 vals v.b.count f none; if ok then done s else s
        else
          let n := ownLen v c v.me
          let off := if v.op == opExchange then v.me * v.b.count else 0
          match readElems s v (v.b.src + off * v.eb) n with
          | (s, .wait) => s
          | (s, .fault st va) => collFault s c st accRead va
          | (s, .failed m) => done (modColl (loseRange s c v.me 0 n m) q idx fun x => { x with failed := x.failed ++ [m] })
          | (s, .ready codes _) => let (s, ok) := placeElems s v c (v.b.dst + v.me * v.b.count * v.eb) v.me 0 codes; if ok then done s else s

/-- After a resume every granted chunk that is not placed is requested again and every unacknowledged one is sent again (R236). -/
def collRestartSends (s : State) (q idx : Nat) : State :=
  match getColl s q idx with
  | none => s
  | some c =>
    if !c.halted then s
    else
      let v := collEnv s c
      let s := modColl s q idx fun x => { x with halted := false }
      let s := (c.rxs.filter fun r => !r.used).foldl (fun s r => sendRereq s v c r) s
      c.txs.foldl (fun s t => match v.plan[t.index]? with | some sp => sendChunk s v c sp t | none => s) s

/-- Let the engine do all it can for a command. -/
def collPump (s : State) (q idx : Nat) : State :=
  match getColl s q idx with
  | none => s
  | some c =>
    let live (s : State) : Bool := (runningCtx s q idx (descOpcode c.desc)).isSome && (getColl s q idx).isSome
    if !c.started || !live s then s
    else
      let s := collRestartSends s q idx
      let s := if c.setup then s else collSetup s q idx
      if !live s || !((getColl s q idx).any (·.setup)) then s
      else
        let s := useAll q idx (c.rxs.length + 1) s
        if !live s then s
        else
          let s := collGrant s q idx
          let s := collSend q idx (collEnv s c).plan.length s
          if live s then collFinish s q idx else s

/-- A command of count 0 completes as it starts (R420). -/
def collBegin (s : State) (q idx : Nat) : State :=
  match getColl s q idx with
  | some c => if c.started && (collBody c.desc).count == 0 then collEnd s c stOk else collPump s q idx
  | none => s

/-- The three commands: the engine takes the command up, or goes on with it. -/
def runColl (op q idx : Nat) (s : State) : State :=
  match runningCtx s q idx op with
  | some _ => collBegin s q idx
  | none => s

/-- REDUCE_SCATTER (R428, R435 to R437). -/
def execReduceScatter (q : QueueNo) (idx : BitVec 32) (s : State) : Res := .next (runColl opReduceScatter q idx.toNat s)
/-- ALL_GATHER (R428, R429). -/
def execAllGather (q : QueueNo) (idx : BitVec 32) (s : State) : Res := .next (runColl opAllGather q idx.toNat s)
/-- EXCHANGE (R421, R428). -/
def execExchange (q : QueueNo) (idx : BitVec 32) (s : State) : Res := .next (runColl opExchange q idx.toNat s)

/-- COLLECTIVE_START (R418): the first held command whose number has entered the window starts. -/
def execCollectiveStart (s : State) : Res :=
  match s.colls.find? fun c => !c.started && on s GRP_CTL.enable && collDist s c.group c.seq < rd s GRP_ENT_CTL.depth c.group &&
      (runningCtx s c.queue c.idx (descOpcode c.desc)).isSome with
  | some c => .next (collBegin (modColl s c.queue c.idx fun x => { x with started := true }) c.queue c.idx)
  | none => .next s

/-! ### Incoming packets (R432 to R434) -/

def colGroup (p : Packet) : Nat := p.owner % 2 ^ 10
def colType (p : Packet) : Nat := p.owner / 2 ^ 10 % 8
def colKey (p : Packet) : Nat := p.owner / 2 ^ 16 % 2 ^ 16
def colPacket (p : Packet) : Nat := p.owner / 2 ^ 32 % 2 ^ 13
def colSeq (p : Packet) : Nat := leAt p.payload 0 4
def colIndex (p : Packet) : Nat := leAt p.payload 4 4

/-- The seal that a SEAL packet carries. -/
def colSeal (p : Packet) : CollSeal :=
  let f := leAt p.payload 0x14 2
  ⟨leAt p.payload 0x0E 2, leAt p.payload 0x10 4, if bitOn f 15 then some (f % 2 ^ 14) else none, bitOn (leAt p.payload 0x16 2) 0,
   bitOn (leAt p.payload 0x16 2) 1, bitOn (leAt p.payload 0x0D 1) 4, leAt p.payload 0x18 4⟩

/-- The parameters of a control packet equal the member's own (R434). -/
def paramOk (b : CollBody) (p : Packet) : Bool :=
  leAt p.payload 8 4 == b.count && leAt p.payload 0x0C 1 == b.fmt + 2 ^ 5 * b.redOp && leAt p.payload 0x0D 1 % 16 == b.chunk

/-- Take the first delivered COL packet of a type; `f` handles it for its command and the member index of its source. -/
def takeCol (s : State) (ty : Nat) (f : State → CollCmd → Nat → Packet → State) : State :=
  match s.collIn.find? fun p => colType p == ty with
  | none => s
  | some p =>
    let s := { s with collIn := s.collIn.erase p }
    let g := colGroup p
    if !on s GRP_ENT_CTL.enable g || !on s GRP_CTL.enable then incSat s GRP_DROPS.no_group
    else if colKey p != rd s GRP_ENT_CTL.key g then incSat s GRP_DROPS.key_mismatch
    else
      let stale (s : State) : State := if ty ≤ 1 then incSat s GRP_DROPS.stale else s
      let below := 2 ^ 31 ≤ (colSeq p + 2 ^ 32 - rd s GRP_ENT_SEQ.next g) % 2 ^ 32
      match s.colls.find? fun c => c.group == g && c.seq == colSeq p, (kget s.groups g []).idxOf? p.src with
      | some c, some m =>
        if below then stale s
        else if ty != 0 && !paramOk (collBody c.desc) p then
          -- the member's command fails, and the member sends nothing more for it
          collEnd (collMute (incSat s GRP_DROPS.param_mismatch) c) c stDescInvalid
        else f s c m p
      | _, _ => stale s

/-- GRANT (R431): the sender may send the chunks granted, from the first index on, that go to the granting member. -/
def execGrantPkt (s : State) : Res :=
  .next (takeCol s 2 fun s c m p =>
    let v := collEnv s c
    let is := ((List.range v.plan.length).zip v.plan).filterMap fun (i, sp) =>
      if colIndex p ≤ i && sp.tos.contains m && sp.stream == p.owner / 2 ^ 13 % 8 then some i else none
    let new := (is.take (leAt p.payload 0x0E 2)).filter fun i => c.next ≤ i && !c.grants.contains (m, i)
    collPump (modColl s c.queue c.idx fun x => { x with grants := x.grants ++ new.map fun i => (m, i) }) c.queue c.idx)

/-- DATA (R432): a packet of a granted chunk goes into its slot. -/
def execDataPkt (s : State) : Res :=
  .next (takeCol s 0 fun s c m p =>
    if c.rxs.any (fun r => r.src == m && r.index == colIndex p && !r.used) then
      let put (r : CollRx) : CollRx :=
        if r.src == m && r.index == colIndex p then { r with packets := kput r.packets (colPacket p) (p.payload.drop 8) } else r
      collPump (modColl s c.queue c.idx fun x => { x with rxs := x.rxs.map put }) c.queue c.idx
    else incSat s GRP_DROPS.stale)

/-- SEAL (R432, R440): a granted chunk is closed; a chunk already used is acknowledged again (R236). -/
def execSealChunk (s : State) : Res :=
  .next (takeCol s 1 fun s c m p =>
    if c.rxs.any (fun r => r.src == m && r.index == colIndex p && !r.used) then
      let put (r : CollRx) : CollRx := if r.src == m && r.index == colIndex p then { r with cseal := some (colSeal p) } else r
      collPump (modColl s c.queue c.idx fun x => { x with rxs := x.rxs.map put }) c.queue c.idx
    else if c.rxDone.contains (m, colIndex p) then sendCtl s (collEnv s c) c 3 m (p.owner / 2 ^ 13 % 8) (colIndex p)
    else incSat s GRP_DROPS.stale)

/-- ACK (R432): a receiver has used a chunk; with every receiver's it is released. -/
def execAckPkt (s : State) : Res :=
  .next (takeCol s 3 fun s c m p =>
    let v := collEnv s c
    let i := colIndex p
    let tos := (v.plan[i]?.map (·.tos)).getD []
    let txs := c.txs.map fun t => if t.index == i then { t with acks := setIns t.acks m } else t
    let done := txs.any fun t => t.index == i && tos.all t.acks.contains
    collPump (modColl s c.queue c.idx fun x => { x with
      txs := if done then txs.filter (·.index != i) else txs, acked := if done then setIns x.acked i else x.acked }) c.queue c.idx)

/-- REREQ (R432, R433): the sender sends the chunk again; for a chunk not yet sent it stands for the grant. -/
def execRereqPkt (s : State) : Res :=
  .next (takeCol s 4 fun s c m p =>
    let v := collEnv s c
    let i := colIndex p
    match c.txs.find? (·.index == i), v.plan[i]? with
    | some t, some sp => if (runningCtx s c.queue c.idx v.op).isSome then sendChunk s v c sp t else s
    | none, some sp =>
      if c.next ≤ i && sp.tos.contains m && !c.grants.contains (m, i) then
        collPump (modColl s c.queue c.idx fun x => { x with grants := x.grants ++ [(m, i)] }) c.queue c.idx
      else s
    | _, none => s)

/-- REREQ_TIMER (R433, R441): a granted chunk of a command is not complete rereq_us after its grant or its last REREQ. -/
def execRereqTimer (q : QueueNo) (idx : BitVec 32) (src : BitVec 14) (index : BitVec 32) (s : State) : Res :=
  match getColl s q idx.toNat with
  | none => .next s
  | some c =>
    match c.rxs.find? fun r => r.src == src.toNat && r.index == index.toNat && !r.used with
    | some r => if (runningCtx s q c.idx (descOpcode c.desc)).isSome then .next (sendRereq s (collEnv s c) c r) else .next s
    | none => .next s

/-- CHUNK_FAILED (R440, R441): the data of the next chunk of a command cannot be produced. -/
def execChunkFailed (q : QueueNo) (idx : BitVec 32) (s : State) : Res :=
  match getColl s q idx.toNat with
  | none => .next s
  | some c => .next (collPump (modColl s q c.idx fun x => { x with failNext := true }) q c.idx)

/-- COLLECTIVE_WATCHDOG (R443): a started command has made no progress for watchdog_ms; paused while its queue is FAULTED or STOPPED. -/
def execCollectiveWatchdog (q : QueueNo) (idx : BitVec 32) (s : State) : Res :=
  match getColl s q idx.toNat with
  | none => .next s
  | some c =>
    if c.started && (runningCtx s q c.idx (descOpcode c.desc)).isSome && qState s q != qsFaulted && qState s q != qsStopped then
      .next (collTimeout s q c.idx)
    else .next s

/-! ### Enables -/

/-- Fail the commands of entries that `pick` names (R445). -/
def failGroups (s : State) (pick : Nat → Bool) : State :=
  (s.colls.filter fun c => pick c.group).foldl (fun s c => collTimeout s c.queue c.idx) s

/-- GRP_ENABLE (R445): a write of GRP_CTL.enable. -/
def execGrpEnable (v : Bool) (s : State) : Res :=
  if v then
    if on s GRP_CTL.enable then .next s
    else if rd s GRP_STAGE.size_mib == 0 then .next (setBit s GRP_STATUS.cfg_ignored)
    else .next (wr (wr s GRP_CTL.enable 0 1) GRP_STATUS.cfg_pending 0 0)
  else .next (wr (failGroups s fun _ => true) GRP_CTL.enable 0 0)

/-- GROUP_ENTRY_ENABLE (R415, R417, R445): a write of GRP_ENT_CTL.enable of an entry. -/
def execGroupEntryEnable (g : Fin 1024) (v : Bool) (s : State) : Res :=
  if v then
    if on s GRP_ENT_CTL.enable g then .next s
    else if !grpOk s g then .next (setBit s GRP_STATUS.cfg_ignored)
    else
      let ms := grpMembers s g
      let s := wr { s with groups := kput s.groups g ms } GRP_ENT_CTL.enable g 1
      let s := wr (wr s GRP_ENT_SEQ.member g (ms.idxOf (rd s FAB_COORD.node))) GRP_ENT_SEQ.size g ms.length
      .next (grpUsed s)
  else if !on s GRP_ENT_CTL.enable g then .next s
  else
    let s := wr (failGroups s (· == g.val)) GRP_ENT_CTL.enable g 0
    let s := wr (wr s GRP_ENT_SEQ.member g 0) GRP_ENT_SEQ.size g 0
    .next (grpUsed { s with groups := kdel s.groups g, collDone := kdel s.collDone g })

/-- GRP_CLEAR (R434): a write of GRP_CLR.clear. -/
def execGrpClear (s : State) : Res :=
  .next ([GRP_STATS.crc_errors, GRP_STATS.rereqs, GRP_STATS.timeouts, GRP_DROPS.key_mismatch, GRP_DROPS.no_group, GRP_DROPS.stale,
    GRP_DROPS.param_mismatch].foldl (fun s f => wr s f 0 0) s)

end Sys2Proof.Machine
end

