-- ==== Sys2Proof/Machine/Preempt.lean ====
section
/-!
DEFINITION. Pre-emption (file 06, R240 to R253): control requests, the save area, and its restoration.
-/

namespace Sys2Proof.Machine

/-- Fields of a control request (Table 6.5). -/
def rqOp (d : Line) : Nat := lineBits d 0 0 8
def rqTile (d : Line) : Bool := lineBits d 1 0 1 == 1
def rqLoc (d : Line) : Bool := lineBits d 1 1 1 == 1
def rqTag (d : Line) : Nat := lineBits d 4 0 32
def rqQueue (d : Line) : Nat := lineBits d 8 0 12
def rqAddr (d : Line) : Nat := lineBits d 0x10 0 64
def rqSaveSize (d : Line) : Nat := lineBits d 0x18 0 64

/-- Reserved fields, and the alignment of the save area (R241). `tileSave` counts for PREEMPT. -/
def rqOk (d : Line) : Bool :=
  lineBits d 1 2 6 == 0 && lineBits d 2 0 16 == 0 && lineBits d 8 12 52 == 0 && zeroFrom d 0x20 &&
  rqAddr d % 2 ^ 16 == 0 && (rqLoc d || rqAddr d < 2 ^ 52) && (rqOp d == 0x01 || rqOp d == 0x02)

/-- Flat address of byte o of a save area. -/
def saveAddr (d : Line) (o : Nat) : Nat := if rqLoc d then hostFlat (rqAddr d + o) else rqAddr d + o

/-- Bytes [o, o + n) of a save area in runs that no 4 KiB boundary cuts. -/
def saveCut (d : Line) : (fuel o n : Nat) → List (Nat × Nat)
  | 0, _, _ => []
  | fuel + 1, o, n =>
    let k := min n (4096 - o % 4096)
    if n = 0 then [] else (saveAddr d o, k) :: saveCut d fuel (o + k) (n - k)

def saveRuns (d : Line) (o n : Nat) : List (Nat × Nat) := saveCut d (n / 4096 + 2) o n

/-- Whether no byte of an area in panel memory lies in a hole or an excluded stack (R243, R250). -/
def areaOk (s : State) (d : Line) (n : Nat) : Bool :=
  rqLoc d || (List.range (n / 4096 + 1)).all fun i =>
    let a := rqAddr d + min (4096 * i) (n - 1)
    !regionHole s a

/-- Bytes a save area needs (Table 6.7). -/
def saveSize (p : Nat) (tile : Bool) : Nat := 0x10000 + 0x40000 * p + if tile then 0x100000 * p else 0

/-- Write the response of the request at a control ring's next index, or have its ring hold it (R198, R242). The response of a PREEMPT
(`stops`) waits for its save area, and its queue enters STOPPED with it (R244). -/
def respond (s : State) (x idx : Nat) (d : Line) (status result0 : Nat) (stops : Bool := false) : State :=
  let h : HeldRec := ⟨rqQueue d, idx, recordHead (rqTag d) idx (rqQueue d) (rqOp d) status {} result0, stops⟩
  if (getRing s (.xr x)).held.isEmpty then
    let r := getRing s (.xr x)
    let t := putRing s (.xr x) { r with held := [h] }
    if heldGoes t (.xr x) h then writeHeld t (.xr x) else noteRing t (.xr x)
  else ringHold s (.xr x) h

/-- The core set in force for the commands in flight of a queue: the sampled one of its first MATMUL, VECTOR or COPY, or else the
queue's own. -/
def flightCores (s : State) (q : Nat) : List Nat :=
  match (getQ s q).ctxs.find? fun c => !c.cores.isEmpty with
  | some c => c.cores
  | none => (coreSet s q).getD []

/-- Whether a command in flight keeps a PREEMPT waiting: it has no restart point, its end is near, or its record or its remote
operations are still to come (R244, R246, R339). -/
def mustEnd (s : State) (q : Nat) (c : Ctx) : Bool :=
  let op := descOpcode c.desc
  c.phase == .done || c.phase == .held ||
  (c.phase == .running && (op == opNop || op == opFence || op == opSignal)) ||
  (op == opRemote && c.phase == .running && (rmtOpen s q c.idx != 0 || (getRmtCmd s q c.idx).any rmtUnwritten)) || (siteOf c.cores).isSome ||
  s.copyRemotes.any fun r => r.queue == q && r.idx == c.idx && !r.waiting.isEmpty

/-! ### Stopping shares at restart points -/

/-- The largest restart point of a block's K steps not above k (R234): a K-chunk boundary, or 65,536 beats into a chunk. -/
def restartK (pl : MmPlan) (k : Nat) : Nat :=
  (kChunks pl).foldl (fun best (a, e) =>
    let per := max 1 (2 * 65536 / max 1 (passBeats pl.fa pl.fb 2))
    let here := if k < a then 0 else a + min (k - a) (e - a) / per * per
    max best (if e ≤ k then e else here)) 0

/-- Save one cell at its index in a per-core block (R249). -/
def saveCell (pl : MmPlan) (m : List Host.Cell) (at_ i : Nat) (c : Cell) : List Host.Cell :=
  if pl.acc then
    memPutList (memPutList m (at_ + 16 * i) (leBytes 16 (conv .fp32 0 .rne c.fast).bits)) (at_ + 0x20000 + 8 * i) (leBytes 8 0)
  else
    memPutList (memPutList m (at_ + 16 * i) (leBytes 16 c.v)) (at_ + 0x20000 + 8 * i)
      (leBytes 8 (c.v / 2 ^ 128 + 2 ^ 8 * c.tag + 2 ^ 16 * c.b + 2 ^ 24 * c.n))

/-- The cells of block u of a share as its steps [k0, k1) leave them, saved at `at_`, and the flags that they hold. They come from the cells at
`from_`, or else from the block's start. -/
def saveBlock (s : State) (pl : MmPlan) (core u : Nat) (b : Block) (from_ : Option Nat) (k0 k1 at_ : Nat) : State × Inexact :=
  let sn : Snaps := ⟨s.mem, s.mem, s.mem⟩
  let cell (x : Pos) : Cell :=
    let start := match from_ with
      | some a => loadCell pl.acc s.mem a (cellIndex pl b x)
      | none => cellStart s sn pl core u b x
    cellSteps s sn pl core u b x (k1 - k0) k0 start
  let r := (blockLines pl b).foldl (fun (acc : List Host.Cell × Inexact) (β, r) => (List.range (blockCols pl b)).foldl (fun acc j =>
    let x : Pos := ⟨β, r, b.col0 + j⟩
    let c := cell x
    (saveCell pl acc.1 at_ (cellIndex pl b x) c, if pl.acc then acc.2 else inexactOr acc.2 ⟨c.low, c.high⟩)) acc) (s.mem, {})
  ({ s with mem := r.1 }, r.2)

/-- Run a MATMUL share up to K step k of block u, and leave its cells in the core's accumulators (`accFlat`). A share whose arrays have no
credit stays where it is. -/
def mmUpTo (s : State) (pl : MmPlan) (q idx pos u k : Nat) : State :=
  match findCtx s q idx with
  | none => s
  | some c =>
    let core := pl.cores.getD pos 0
    let (lo, resume) := shareFrom c pos
    let (s, go) := startShare s pl pos lo
    if !go then s
    else
      let n := (shareBlocks pl pos).length
      let u := max lo (min u n)
      let o := runShare s pl pos lo u resume
      -- the share has ended, or has read uncorrectable data (R623)
      if o.status != stOk || n ≤ u then shareDone (endShare o.s core q idx) q idx pos core o.status o.fl
      else
        let s := modCtx o.s q idx fun c => { c with low := c.low || o.fl.low, high := c.high || o.fl.high }
        let resume := if u = lo then resume else none
        let k0 := match resume with | some (_, k0) => k0 | none => 0
        let k := restartK pl (min k pl.k)
        match (shareBlocks pl pos)[u]? with
        | none => s
        | some b =>
          if k ≤ k0 then (if u = lo then s else modCtx s q idx fun c => { c with accAt := kput c.accAt pos (0, u, 0) })
          else
            let (s, st) := readRows s core (blockReads pl b k0 k)
            if st != stOk then shareDone (endShare s core q idx) q idx pos core st {}
            else
              let at_ := accFlat q core
              let s := addBeats s core (streamBeats pl k0 k) (openWait pl (kfind s.arrayJoin core) resume.isSome)
              let (s, fl) := saveBlock s pl core u b (resume.map (·.1)) k0 k at_
              modCtx s q idx fun c => { c with accAt := kput c.accAt pos (at_, u, k), low := c.low || fl.low, high := c.high || fl.high }

/-- The restart point of a row that has come `k` elements far, counted over its passes: a pass and an element of it (R234). A pass after the
first has a restart point only after 65,536 of its elements (DESIGN CHOICE, log 118). -/
def vecRestart (pl : VecPlan) (k : Nat) : Nat × Nat :=
  let n := max 1 pl.n
  let p := min (k / n) (rowPasses pl.op - 1)
  let last := (n - 1) / 65536 * 65536
  let e := min ((k - p * n) / 65536 * 65536) last
  if e != 0 then (p, e) else if p = 0 || last = 0 then (0, 0) else (p - 1, last)

/-- Run a VECTOR share up to row u, and to element k of that row's passes, at a restart point (R234). -/
def vecUpTo (fn : RowFn) (s : State) (pl : VecPlan) (q idx pos u k : Nat) : State :=
  match findCtx s q idx with
  | none => s
  | some c =>
    let core := pl.cores.getD pos 0
    let lo := (shareFrom c pos).1
    let rows := vecShareRows pl pos
    let u := max lo (min u rows.length)
    let run := (kfind c.vecAt pos).getD rowFresh
    let o := runVecShare fn s pl pos lo u run
    let stand (s : State) (fl : Inexact) (run : VecRun) : State := modCtx s q idx fun c => { c with
      low := c.low || fl.low, high := c.high || fl.high
      accAt := kput c.accAt pos (0, u, run.elem), vecAt := if run == rowFresh then kdel c.vecAt pos else kput c.vecAt pos run }
    match (if o.status != stOk then none else rows[u]?) with
    | none => shareDone (endShare o.s core q idx) q idx pos core o.status o.fl
    | some (r, lr) =>
      let run := if u = lo then run else rowFresh
      let (p, e) := vecRestart pl k
      if p < run.pass || (p == run.pass && e ≤ run.elem) then stand o.s o.fl run
      else
        let x := runRow fn pl core u r lr (some (p, e)) (rowPasses pl.op - run.pass) run o
        match x.run with
        | some run => stand x.o.s x.o.fl run
        | none => shareDone (endShare x.o.s core q idx) q idx pos core x.o.status x.o.fl

/-- Run a COPY share up to a group. -/
def cpUpTo (s : State) (v : Env) (c : Ctx) (ord k : Nat) : State :=
  let (o0, k0) := cpFrom c v.e
  let gs := (engineGroups v.pl v.e o0 k0).takeWhile fun g => g.ord < ord || (g.ord == ord && g.c < k)
  let o := runCopyShare s v gs
  match (if o.stop.isSome then none else ((engineGroups v.pl v.e o0 k0).drop gs.length).head?) with
  | none => copyShareEnd s v o
  | some g =>
    modCtx o.s v.q v.idx fun c => { c with
      count := c.count + o.n, low := c.low || o.fl.low, high := c.high || o.fl.high, accAt := kput c.accAt v.e (0, g.ord, g.c) }

/-- Bring one share of a command to the restart point where the PREEMPT finds it. Only a share that its unit holds first has begun; one with a
remote side is not moved on (its restart point is where its loads began). -/
def stopPoint (s : State) (q : Nat) (pt : PrePoint) : State :=
  match findCtx s q pt.idx with
  | none => s
  | some c =>
    let op := descOpcode c.desc
    if atSite c || !(c.phase == .running || c.phase == .stopped) || c.ran.contains pt.pos || (kfind c.stops pt.pos).isSome then s
    else if op == opCopy then
      match cpPlan c.desc c.cores with
      | some pl =>
        let cl := (engineSet c.cores).getD pt.pos 0
        if cpRemote pl || !engineFirst s cl q c.idx || dieHeld s (cl / 32) then s
        else cpUpTo s ⟨pl, q, c.idx, cl, rd s QUE_Q_BIND.space q, s.mem, [], [], pt.pos⟩ c pt.block pt.step
      | none => s
    else if !shareRuns s (c.cores.getD pt.pos 0) q c.idx then s
    else if op == opMatmul then
      let b := mmBody c.desc
      match readRecords s q c b.layoutVa (mmShapeSrc b) with
      | .ended s => s
      | .ready s lay shape => match mmPlan c.desc c.cores lay shape with | some pl => mmUpTo s pl q c.idx pt.pos pt.block pt.step | none => recordInvalid s q c.idx
    else if op == opVector then
      let b := vecBody c.desc
      match readRecords s q c b.layoutVa b.shapeSrc with
      | .ended s => s
      | .ready s lay shape => match vecPlan c.desc c.cores lay shape with | some pl => vecUpTo (vecFn b.op) s pl q c.idx pt.pos pt.block pt.step | none => recordInvalid s q c.idx
    else s

/-- A command that the PREEMPT found at its end completes (R244): MATMUL, VECTOR and COPY whose shares have all ended. A REMOTE gives back what it
has not issued. -/
def stopEnd (s : State) (q : Nat) (c : Ctx) : State :=
  let op := descOpcode c.desc
  if atSite c then s
  else if op == opMatmul || op == opVector then settle s q c.idx
  else if op == opCopy then
    let ended := s.copyRemotes.filter fun r => r.queue == q && r.idx == c.idx && r.waiting.isEmpty && (r.stage == 2 || r.status != stOk)
    settleCopy (ended.foldl (fun s r => copyShareDone s q c.idx r.share ((engineSet c.cores).getD r.share 0) r.status) s) q c.idx
  else if op == opRemote then rmtWithdraw s q c.idx
  else s

/-- The queue's work stops where `pts` find it (R244 steps 1 and 3); a queue that is stopping already keeps its restart points. -/
def stopQueue (s : State) (q : Nat) (pts : List PrePoint) : State :=
  let s := if (getQ s q).preempting then s
    else bumpFree (pts.foldl (fun s pt => stopPoint s q pt) s)
  (getQ s q).ctxs.foldl (fun s c => stopEnd s q c) (putQ s q { getQ s q with preempting := true })

/-! ### The save area (Tables 6.6, 6.7, R247 to R249) -/

/-- Restart point of a share that has not ended. -/
def restartOf (c : Ctx) (pos : Nat) : Nat × Nat :=
  match kfind c.stops pos with
  | some st => (st.restart, st.p0)
  | none => match kfind c.accAt pos with | some (_, b, k) => (b, k) | none => (0, 0)

/-- Positions of a MATMUL's or VECTOR's set whose shares have not ended. -/
def openPos (c : Ctx) : List Nat :=
  let op := descOpcode c.desc
  if op == opMatmul || op == opVector then (List.range c.cores.length).filter fun p => c.cores.getD p 0 < 2 ^ 15 && !c.ran.contains p else []

/-- Where a command stands in the fields of Table 6.4: unit, restart point, progress, status and address of its fault. -/
def progressOf (s : State) (q : Nat) (c : Ctx) : Stop :=
  let op := descOpcode c.desc
  let pos := (openPos c).headD 0
  match c.stops.head? with
  | some (_, x) => x
  | none =>
    let (b, k) := restartOf c pos
    if op == opMatmul || op == opVector then ⟨0, 0, 0, 2 ^ 28 + c.cores.getD pos 0, b, k, c.count, 0⟩
    else if op == opCopy then
      let es := engineSet c.cores
      let e := ((List.range es.length).find? fun e => !c.ran.contains e).getD 0
      let (b, k) := restartOf c e
      ⟨0, 0, 0, 2 * 2 ^ 28 + es.getD e 0, b, k, c.count, 0⟩
    else match getColl s q c.idx, getRmtCmd s q c.idx with
      | some x, _ => let (r, w0, a, w2) := collRestart s x; ⟨0, 0, 0, 3 * 2 ^ 28, r, w0, a, w2⟩
      | none, some x => let r := rmtRestart x (rmCount c.desc); ⟨0, 0, 0, 4 * 2 ^ 28, r, rmtDoneBits x r, x.answers.length, 0⟩
      | none, none => ⟨0, 0, 0, if op == opRemote then 4 * 2 ^ 28 else 0, 0, 0, 0, 0⟩

/-- A context of a queue in the save area (R248). The spec does not say which bit of byte 0x69 holds which flag: inexact_low is bit 0 and
inexact_high bit 1, as in a completion record (DESIGN CHOICE, log 119). -/
def ctxBytes (s : State) (q : Nat) (c : Ctx) : List Byte :=
  let st := match c.phase with | .stopped => 2 | .reported => 3 | _ => 1
  let x := progressOf s q c
  leBytes 64 c.desc.toNat ++ leBytes 4 c.idx ++ leBytes 4 st ++ leBytes 4 x.unit ++ leBytes 4 x.restart ++ leBytes 8 x.p0 ++ leBytes 8 x.p1 ++
  leBytes 8 x.p2 ++ leBytes 1 x.status ++ leBytes 1 ((if c.low then 1 else 0) + (if c.high then 2 else 0)) ++ leBytes 6 0 ++ leBytes 8 x.va ++
  (List.range 0x88).map (Config.engineState c.desc)

/-- A part of the save area: offset, and bytes. -/
abbrev SavePart := Nat × List Byte

/-- The per-core block of a position: accumulators of its unfinished block, and state that the panel alone interprets (R249). -/
def saveCore (s : State) (q : Nat) (c : Ctx) (pos : Nat) : SavePart :=
  let core := c.cores.getD pos 0
  let free (o n : Nat) : List Byte := (List.range n).map fun i => BitVec.ofNat 8 (Config.pick s.free (accFlat q core + o + i))
  let cells := match kfind c.accAt pos with
    | some (a, _, k) => if k != 0 && descOpcode c.desc == opMatmul then memBytes s.mem a 0x30000 else free 0 0x30000
    | none => free 0 0x30000
  (0x10000 + 0x40000 * pos, cells ++ free 0x30000 0x1000)

/-- A tile image, and whether its tile reads as uncorrectable (R247, R257). -/
def saveTile (s : State) (p pos core : Nat) : State × SavePart × Bool :=
  let r := eccRead s (tileFlat core 0) (2 ^ 20)
  (r.1, (0x10000 + 0x40000 * p + 0x100000 * pos, memBytes r.1.mem (tileFlat core 0) (2 ^ 20)), r.2 != stOk)

/-- Write parts of the save area for the request at an index of a control ring, far-tier bytes as posted writes (R309): the worst status. -/
def saveWrite (x idx : Nat) (d : Line) : List SavePart → State × Nat → State × Nat
  | [], a => a
  | (o, bs) :: l, (s, st) =>
    let (s, st') := writeRuns (saveOwner x) idx (saveRuns d o bs.length) bs s
    saveWrite x idx d l (s, stWorse st st')

/-- The save header (Table 6.7). -/
def saveHeader (q space state head n p : Nat) (tile : Bool) : List Byte :=
  leBytes 4 0x51535631 ++ leBytes 4 1 ++ leBytes 4 (q + space * 2 ^ 16) ++ leBytes 4 state ++ leBytes 4 head ++ leBytes 4 n ++
  leBytes 4 p ++ leBytes 4 (if tile then 1 else 0) ++ leBytes 8 (saveSize p tile) ++ leBytes 0xD8 0

/-- The shares that a queue's cores hold, by position of its core set: per position the first (R247). -/
def saveFirsts (s : State) (q : Nat) : List (Ctx × Nat) :=
  let held := (getQ s q).ctxs.flatMap fun c => (openPos c).map fun pos => (c, pos)
  held.filter fun e => (held.find? fun f => f.2 == e.2).any fun f => f.1.idx == e.1.idx

/-- Offsets and lengths of what a PREEMPT writes (Table 6.6). -/
def saveSpans (s : State) (q : Nat) (d : Line) : List (Nat × Nat) :=
  let p := (flightCores s q).length
  (0, 0x100) :: (List.range (getQ s q).ctxs.length).map (fun i => (0x100 + 0x100 * i, 0x100)) ++
  (saveFirsts s q).flatMap fun e => (0x10000 + 0x40000 * e.2, 0x31000) ::
    if rqTile d then [(0x10000 + 0x40000 * p + 0x100000 * e.2, 2 ^ 20)] else []

/-- Whether a span of a save area must wait: the host holds a line of it (it is called back), or its die is shut down (R535, R607). -/
def spanWaits (d : Line) (s : State × Bool) (span : Nat × Nat) : State × Bool :=
  (saveRuns d span.1 span.2).foldl (fun s r =>
    if snoopHeld s.1 r.1 r.2 then (callBack s.1 r.1 r.2, true) else (s.1, s.2 || reachStatus s.1 r.1 == stWait)) s

/-- The parts of the save area in order, the tile images' read errors counted, and whether any is uncorrectable. -/
def saveParts (s : State) (q : Nat) (d : Line) (head state : Nat) : State × List SavePart × Bool :=
  let w := getQ s q
  let p := (flightCores s q).length
  let tile := rqTile d
  let firsts := saveFirsts s q
  let tiles (a : State × List SavePart × Bool) (e : Ctx × Nat) : State × List SavePart × Bool :=
    let r := saveTile a.1 p e.2 (e.1.cores.getD e.2 0)
    (r.1, a.2.1 ++ [r.2.1], a.2.2 || r.2.2)
  let t := if tile then firsts.foldl tiles (s, [], false) else (s, [], false)
  (t.1,
    t.2.1 ++ firsts.map (fun e => saveCore s q e.1 e.2) ++
      (List.range w.ctxs.length).zipWith (fun i c => (0x100 + 0x100 * i, ctxBytes s q c)) w.ctxs ++
      [(0, saveHeader q (rd s QUE_Q_BIND.space q) state head w.ctxs.length p tile)],
    t.2.2)

/-- The queue gives its units up: cores, copy engines and hub engines may take other work (R244). What a core held of its first share is in the
save area. -/
def releaseUnits (s : State) (q : Nat) : State :=
  let firsts := (s.coreShares.filter fun e => e.2.1 == q && shareFirst s e.1 q e.2.2).map (·.1)
  let s := firsts.foldl resetArrays s
  { s with
    watch := s.watch.filter (·.2.1 != q), unwatched := s.unwatched.filter (·.1 != q)
    coreShares := s.coreShares.filter (·.2.1 != q), copyShares := s.copyShares.filter (·.2.1 != q)
    copyRemotes := s.copyRemotes.filter (·.queue != q)
    colls := s.colls.map fun c => if c.queue == q then { c with halted := true } else c }

/-- Steps 4 to 6 of R244: every command in flight stands at restart points. A write of the area that fails gives its status to the response
(DESIGN CHOICE, log 32). -/
def savePreempt (s : State) (x idx q : Nat) (d : Line) : State :=
  let w := getQ s q
  let head := match w.fetched with | (i, _) :: _ => i | [] => rd s QUE_Q_STATE.head q
  let state := if qState s q == qsFaulted then 2 else 1
  let size := saveSize (flightCores s q).length (rqTile d)
  let (s, parts, bad) := saveParts s q d head state
  let (s, st) := saveWrite x idx d parts (s, if bad then stUncorrectable else stPreempted)
  let s := tcForget (releaseUnits s q) (rd s QUE_Q_BIND.space q)
  let s := putQ s q { getQ s q with ctxs := [], fetched := [], stops := [], saved := w.ctxs, savedState := state, preempting := true }
  respond (wr s QUE_Q_STATE.head q head) x idx d st size true

/-- The request that a control ring handles next: its ring index, if there is one. -/
def nextRequest (s : State) (x : Nat) : Option Nat :=
  let r := kget s.xrings x xringEmpty
  if homeUp s && on s QUE_X_RING.enable x && r.next != r.tail then some r.next else none

/-- A control ring goes on to its next request. -/
def nextDone (s : State) (x : Nat) : State := { s with xrings := kmod s.xrings x xringEmpty fun r => { r with next := (r.next + 1) % 2 ^ 32 } }

/-- Whether a PREEMPT of a queue has written its save area and its response is still to be written. -/
def saving (s : State) (q : Nat) : Bool := s.rrings.any fun r => r.2.held.any fun h => h.irq && h.queue == q

/-- PREEMPT (R240 to R247): the next request of a control ring is a PREEMPT, as `req`; `pts` are the restart points at which running
shares are found. Commands that must end first keep the request waiting with dispatch stopped. -/
def execPreempt (x : Fin 16) (req : Line) (pts : List PrePoint) (s : State) : Res :=
  match nextRequest s x with
  | none => .next s
  | some idx =>
    let q := rqQueue req
    let st := qState s q
    let need := saveSize (flightCores s q).length (rqTile req)
    if rqOp req == 0x02 || saving s q then .next s
    else if !rqOk req || !(st == qsRunning || st == qsFaulted) then .next (respond (nextDone (ringArrive s (.xq x) idx [req]) x) x idx req stDescInvalid 0)
    else if rqSaveSize req < need || !areaOk s req need then .next (respond (nextDone (ringArrive s (.xq x) idx [req]) x) x idx req stDescInvalid need)
    else
      let s := stopQueue s q pts
      let w := getQ s q
      if w.frecHeld || (st == qsRunning && (!w.stops.isEmpty || w.tailFault)) || w.ctxs.any (mustEnd s q) then .next s
      else
        let (s, waits) := (saveSpans s q req).foldl (spanWaits req) (s, false)
        if waits then .next s
        else .next (bumpFree (savePreempt (nextDone (ringArrive s (.xq x) idx [req]) x) x idx q req))

/-! ### RESTORE (R250 to R252) -/

/-- Read bytes of a save area. -/
def saveRead (s : State) (d : Line) (o n : Nat) : Got := readRuns (saveRuns d o n) s

/-- Read spans of a save area in order: all their bytes, or the first status that is not OK. -/
def saveReads (d : Line) : List (Nat × Nat) → State → State × Nat × List (List Byte)
  | [], s => (s, stOk, [])
  | (o, n) :: l, s =>
    let g := saveRead s d o n
    if g.status != stOk then (g.s, g.status, [])
    else
      let r := saveReads d l g.s
      (r.1, r.2.1, g.data :: r.2.2)

/-- A context that the panel no longer holds, from the fields of its saved context alone (R248, Table 6.4): a MATMUL goes on from its block and K
step, a VECTOR from the start of its row, a COPY from its group (DESIGN CHOICE, log 120). -/
def ctxOfBytes (q idx : Nat) (d : Line) (cores : List Nat) (b : List Byte) : Ctx :=
  let c := ctxNew idx d []
  let op := descOpcode d
  let unit := leAt b 0x48 4 % 2 ^ 28
  let r := leAt b 0x4C 4
  let p0 := leAt b 0x50 8
  let c := { c with count := leAt b 0x58 8 }
  if op == opMatmul then
    let pos := (cores.idxOf? unit).getD 0
    { c with accAt := [(pos, accFlat q unit, r, p0)] }
  else if op == opVector then { c with accAt := [((cores.idxOf? unit).getD 0, 0, r, 0)] }
  else if op == opCopy then { c with accAt := [(((engineSet cores).idxOf? unit).getD 0, 0, r, p0)] }
  else c

/-- A context as the save area and the panel's own engine state give it. -/
def restoreCtx (q : Nat) (saved : List Ctx) (cores : List Nat) (b : List Byte) : Ctx :=
  let d : Line := BitVec.ofNat 512 (leAt b 0 64)
  let idx := leAt b 0x40 4
  let base := (saved.find? fun c => c.idx == idx && c.desc == d).getD (ctxOfBytes q idx d cores b)
  let op := descOpcode d
  let st : Stop := ⟨leAt b 0x68 1, match base.stops.head? with | some (_, x) => x.access | none => 3, leAt b 0x70 8, leAt b 0x48 4, leAt b 0x4C 4,
    leAt b 0x50 8, leAt b 0x58 8, leAt b 0x60 8⟩
  let phase := match leAt b 0x44 4 with | 2 => CtxPhase.stopped | 3 => .reported | _ => if base.phase == .done then .done else .running
  { base with
    cores := if op == opMatmul || op == opVector || op == opCopy then cores else base.cores
    phase := phase
    stops := if phase == .running || phase == .done then [] else if base.stops.isEmpty then [(0, st)] else base.stops
    low := leAt b 0x69 1 % 2 == 1, high := leAt b 0x69 1 / 2 % 2 == 1 }

/-- The engine state of a restored REMOTE that the remote engine no longer holds: operations before the restart index, and those marked done, are
not issued again (R237). -/
def restoreRmt (q : Nat) (s : State) (cb : Ctx × List Byte) : State :=
  let (c, b) := cb
  if descOpcode c.desc != opRemote || (getRmtCmd s q c.idx).isSome || c.phase == .done then s
  else
    let r := leAt b 0x4C 4
    let done := (List.range (min r (rmCount c.desc))) ++ ((List.range 32).filter fun i => bitOn (leAt b 0x50 8) i).map (r + 1 + ·)
    { s with rmtCmds := s.rmtCmds ++ [⟨q, c.idx, r, done.map fun i => (i, rmtUnsent stOk), done, none, none, stOk⟩] }

/-- Load the saved state of one position into the core now there (R250, R622). -/
def restoreCore (q : Nat) (tile : Bool) (core : Nat) (cells image : List Byte) (s : State) : State :=
  let s := memWrite (wakeCore s core) (accFlat q core) cells
  if tile then memWrite s (tileFlat core 0) image else s

/-- Whether the save header fits the request and its queue (R250). -/
def headerFits (s : State) (q : Nat) (req : Line) (hd : List Byte) : Bool :=
  let size := leAt hd 0x20 8
  leAt hd 0 4 == 0x51535631 && leAt hd 4 4 == 1 && leAt hd 8 4 % 2 ^ 12 == q &&
  leAt hd 8 4 / 2 ^ 16 % 2 ^ 8 == rd s QUE_Q_BIND.space q && size ≤ rqSaveSize req && ((coreSet s q).getD []).length == leAt hd 0x18 4 &&
  areaOk s req size && leAt hd 0x14 4 ≤ 64

/-- RESTORE (R250 to R252): the next request of a control ring is a RESTORE, as `req`. Everything is read before anything is loaded; a read that
fails gives its status to the response and changes nothing (DESIGN CHOICE, log 32), one that must wait keeps the request waiting. -/
def execRestore (x : Fin 16) (req : Line) (s : State) : Res :=
  match nextRequest s x with
  | none => .next s
  | some idx =>
    let q := rqQueue req
    let answer (s : State) (status used : Nat) : Res :=
      .next (respond (nextDone (ringArrive s (.xq x) idx [req]) x) x idx req status used)
    if rqOp req != 0x02 then .next s
    else if !rqOk req || qState s q != qsStopped || !areaOk s req 0x100 then answer s stDescInvalid 0
    else
      let g := saveRead s req 0 0x100
      let hd := g.data
      if g.status == stWait then .next g.s
      else if g.status != stOk then answer g.s g.status 0
      else if !headerFits s q req hd then answer g.s stDescInvalid 0
      else
        let p := leAt hd 0x18 4
        let n := leAt hd 0x14 4
        let size := leAt hd 0x20 8
        let tile := leAt hd 0x1C 4 % 2 == 1
        let cores := (coreSet s q).getD []
        let w := getQ g.s q
        let c := saveReads req ((List.range n).map fun i => (0x100 + 0x100 * i, 0x100)) g.s
        let ctxs := c.2.2.map (restoreCtx q w.saved cores)
        let open_ := (ctxs.flatMap openPos).foldl setIns []
        let a := saveReads req (open_.map fun pos => (0x10000 + 0x40000 * pos, 0x30000)) c.1
        let i := saveReads req (if tile then open_.map fun pos => (0x10000 + 0x40000 * p + 0x100000 * pos, 2 ^ 20) else []) a.1
        let st := stWorse c.2.1 (stWorse a.2.1 i.2.1)
        if c.2.1 == stWait || a.2.1 == stWait || i.2.1 == stWait then .next i.1
        else if st != stOk then answer i.1 st 0
        else
          let s := (List.range open_.length).foldl (fun s k =>
            restoreCore q tile (cores.getD (open_.getD k 0) 0) (a.2.2.getD k []) (i.2.2.getD k []) s) i.1
          let s := (ctxs.zip c.2.2).foldl (restoreRmt q) s
          -- the accumulators now lie in the cores of this set
          let ctxs := ctxs.map fun c =>
            if descOpcode c.desc == opMatmul then
              { c with accAt := c.accAt.map fun (pos, _, b, k) => (pos, if k = 0 then 0 else accFlat q (cores.getD pos 0), b, k) }
            else c
          let stops := (ctxs.filter (·.phase == .stopped)).filterMap fun c => c.stops.head?.map fun (_, st) => ⟨c.idx, descTag c.desc, descOpcode c.desc, st⟩
          let s := putQ s q { w with ctxs := ctxs, fetched := [], stops := stops, saved := [], savedState := 0, preempting := false }
          let s := ctxs.foldl (fun s c => if c.phase == .running then addShares s q c else s) s
          let s := wr (wr s QUE_Q_STATE.head q (leAt hd 0x10 4)) QUE_Q_STATE.inflight q ctxs.length
          let s := wr s QUE_Q_STATE.state q (if leAt hd 0x0C 4 == 2 then qsFaulted else qsRunning)
          answer (tailCheck s q (getQ s q).tail) stOk size

end Sys2Proof.Machine
end

