-- ==== Sys2Proof/Machine/Dies.lean ====
section
/-!
DEFINITION. Events and register commands of a compute die: arrays, beat meters and stalls (file 03), wrap counts (file 04), wing
memory and the copy engines' watch (file 07).
-/

namespace Sys2Proof.Machine

/-- Panel core number of a core of a die (R41). -/
def coreOf (d : DieNo) (c : CoreNo) : Nat := 256 * d.val + c.val

/-- Wing number 4d + a. -/
def wingOf (d : DieNo) (a : WingNo) : Nat := 4 * d.val + a.val

/-- Whether a core holds a MATMUL's share first, joined to the run of passes before it (R113). -/
def joined (s : State) (core : Nat) : Bool :=
  (kfind s.arrayJoin core).isSome && (match s.coreShares.find? (·.1 == core) with
    | some (_, q, idx) => (findCtx s q idx).any fun c => descOpcode c.desc == opMatmul && !atSite c
    | none => false)

/-- ARRAY_DRAIN_END (R125): an array finishes its drain and becomes idle. An array that waits for credit has nothing to drain (R124), and a
joined run of passes keeps the arrays active without a break (R123). -/
def execArrayDrainEnd (d : DieNo) (c : CoreNo) (array : Fin 8) (s : State) : Res :=
  let core := coreOf d c
  if kget s.arrays (8 * core + array.val) 0 != 1 || joined s core then .next s
  else
    let s := arrayIdle (closeJoin s core) core array
    -- an idle array has no stalled stage (R128)
    .next (if (List.range 8).all fun i => kget s.arrays (8 * core + i) 0 != 1 then unstall s core else s)

/-- Whether a stage of a core can be stalled (R128, R589): arrays of it are active, its wing is in W0, and it is not halted. -/
def stallable (s : State) (core : Nat) : Bool :=
  ((List.range 8).any fun i => kget s.arrays (8 * core + i) 0 == 1) && rd s WNG_STATUS.state (core / 64) == 0 && !s.sec.halted.contains core

/-- ARRAY_STALL (R129, R132): a stage of a core is stalled beyond stall_limit. -/
def execArrayStall (d : DieNo) (c : CoreNo) (stage : Fin 5) (s : State) : Res :=
  let core := coreOf d c
  if !stallable s core then .next s
  else
    let s := incSat { s with stalled := s.stalled.filter (· != (core, stage.val)) ++ [(core, stage.val)] } DIE_STALL_STATUS.stalls d
    let s := wr (wr (wr s DIE_STALL_STATUS.last_core d c.val) DIE_STALL_STATUS.last_stage d stage.val) DIE_STALL_STATUS.stalled_now d 1
    .next (raiseIf (on s DIE_ARR_CTL.stall_event_en d) s (srcDie d 1))

/-- ARRAY_ABORT (R130, R234, R235, Table 6.3): the core's arrays are reset in block `block` of its share; the blocks before it are written,
the share stops at the start of that block with TIMEOUT, and the command's other shares run on. -/
def execArrayAbort (d : DieNo) (c : CoreNo) (block : BitVec 32) (s : State) : Res :=
  let core := coreOf d c
  if rd s DIE_ARR_CTL.stall_abort d == 0 || s.sec.halted.contains core then .next s
  else match s.coreShares.find? (fun e => e.1 == core) with
    | none => .next s
    | some (_, q, idx) =>
      match findCtx s q idx with
      | none => .next s
      | some cx =>
        if descOpcode cx.desc != opMatmul || !sharesRun s q cx then .next s
        else
          let pos := (cx.cores.idxOf? core).getD 0
          let b := mmBody cx.desc
          let s := match readRecords s q cx b.layoutVa (mmShapeSrc b) with
            | .ended s => s
            | .ready s lay shape =>
              match mmPlan cx.desc cx.cores lay shape with
              | some pl => if block.toNat < (shareBlocks pl pos).length then mmUpTo s pl q idx pos block.toNat 0 else s
              | none => s
          match findCtx s q idx with
          | none => .next s
          | some cx =>
            if !(s.coreShares.contains (core, q, idx)) || !arraysActive s core then .next s
            else
              let at_ := (restartOf cx pos).1
              let s := incSat (resetArrays (endShare s core q idx) core) DIE_STALL_STATUS.aborts d
              let s := modCtx s q idx fun c => { c with accAt := kdel c.accAt pos }
              .next (raise (stopShare s q idx pos ⟨stTimeout, 3, 0, 2 ^ 28 + core, at_, 0, cx.count, 0⟩) (srcDie d 0))

/-- ARRAY_CLEAR_COUNTS (R132): a write of DIE_ARR_CTL.clear_counts. -/
def execArrayClearCounts (d : DieNo) (s : State) : Res :=
  .next (wr (wr s DIE_STALL_STATUS.stalls d 0) DIE_STALL_STATUS.aborts d 0)

/-- BEAT_METER_INTERVAL (R127, R133): a 10 µs interval of a wing ends with the replica's mean rate, in Mbeat/s. One in which the wing left W0 is
discarded. -/
def execBeatMeterInterval (d : DieNo) (a : WingNo) (mean : BitVec 16) (s : State) : Res :=
  let w := wingOf d a
  let left := s.beatLeft.contains w
  let s := { s with beatLeft := s.beatLeft.filter (· != w) }
  if rd s WNG_STATUS.state w != 0 then .next (wr s DIE_BEAT_RATE.rate w 0)
  else if left then .next s
  else
    let m := mean.toNat
    let fresh := rd s DIE_BEAT_RATE.rate_max w == 0
    let s := wr s DIE_BEAT_RATE.rate_min w (if fresh then m else min m (rd s DIE_BEAT_RATE.rate_min w))
    .next (wr (wr s DIE_BEAT_RATE.rate_max w (max m (rd s DIE_BEAT_RATE.rate_max w))) DIE_BEAT_RATE.rate w m)

/-- BEAT_CLEAR_EXT (R133): a write of DIE_BEAT_RATE.clear_ext. -/
def execBeatClearExt (d : DieNo) (a : WingNo) (s : State) : Res :=
  .next (wr (wr s DIE_BEAT_RATE.rate_min (wingOf d a) 0) DIE_BEAT_RATE.rate_max (wingOf d a) 0)

/-- DIE_WRAP_CLEAR: a write of DIE_WRAP_COUNT.clear. -/
def execDieWrapClear (d : DieNo) (s : State) : Res :=
  .next (wr (wr s DIE_WRAP_COUNT.wraps d 0) DIE_WRAP_COUNT.last_core d 0)

/-- The offsets of a row of a wing-memory bank (R259): 16 pieces of 128 bytes, 4 KiB apart. The spec gives the bank bits and not which pieces
form a row: the row is address bits 25 to 16 (DESIGN CHOICE, log 134). -/
def wingRow (bank row : Nat) : List Nat := (List.range 16).map fun i => row * 2 ^ 16 + i * 2 ^ 12 + bank * 2 ^ 7

/-- WING_REFRESH (R263, R264): a row's refresh; every 256th also checks its words if scrub_en is 1. -/
def execWingRefresh (d : DieNo) (a : WingNo) (bank : Fin 32) (row : Fin 1024) (s : State) : Res :=
  let w := wingOf d a
  if rd s WNG_STATUS.state w == 3 then .next s
  else
    let key := w * 2 ^ 15 + bank.val * 2 ^ 10 + row.val
    let n := (kget s.wingRefs key 0 + 1) % 256
    let s := { s with wingRefs := kput s.wingRefs key n }
    if n == 0 && on s DIE_MEM_CTL.scrub_en d then
      .next ((wingRow bank row).foldl (fun s o => (eccRead s (wingFlat w o) 128).1) s)
    else .next s

/-- REFRESH_INTERVAL_CHANGE (R261): the interval follows the hottest of the wing's sensors. The command names a reading that the wing's stored
ones give; with another it has no effect. -/
def execRefreshIntervalChange (d : DieNo) (a : WingNo) (hottest : BitVec 8) (s : State) : Res :=
  let w := wingOf d a
  .next (if hottest.toNat = wingHottest s w then followHeat s w else s)

/-- COPY_STALL (R282): the engine of a cluster holds a share, first in its order and of a queue not FAULTED, and makes no progress for
copy_stall_ms. Its progress timer pauses while a core of the cluster is halted (R589; DEDUCED, log 121). -/
def execCopyStall (d : DieNo) (cl : ClusterNo) (s : State) : Res :=
  match s.copyShares.find? fun e => e.1 == 32 * d.val + cl.val with
  | none => .next s
  | some (_, q, _) =>
    if qState s q == qsFaulted || ((List.range 8).any fun i => s.sec.halted.contains (8 * (32 * d.val + cl.val) + i)) then .next s else .next (raise (incSat s DIE_COPY_STATUS.copy_stalls d) (srcDie d 11))

/-- MEM_CLEAR_COUNTS (R257): a write of DIE_MEM_CTL.clear_counts. -/
def execMemClearCounts (d : DieNo) (s : State) : Res :=
  .next ([DIE_MEM_ECC.wing_ue, DIE_MEM_ECC.wing_ce, DIE_MEM_ECC.tile_ue, DIE_MEM_ECC.tile_ce, DIE_COPY_STATUS.copy_stalls,
    DIE_MEM_LAST_UE.valid, DIE_MEM_LAST_UE.memory, DIE_MEM_LAST_UE.unit, DIE_MEM_LAST_UE.offset].foldl (fun s f => wr s f d 0) s)

/-! ### Ports of the fabric that lose their link or buffer (R361, R379) -/

/-- A packet is dropped and counted (Table 10.12). -/
def dropCount (s : State) (f : Fld) : State := setBit (incSat s f) FAB_STATUS.drops_seen

/-- Per-hop credit units of a packet (R360). -/
def pktUnits (p : Packet) : Nat := (16 + p.payload.length + 63) / 64

/-- Whether a port of the fabric is UP (R346). -/
def portUp (s : State) (port : Nat) : Bool := on s FAB_PORT_STATUS.up port

/-- A packet leaves a receive buffer: its credits return to the sender. -/
def leaveBuffer (s : State) (input vc : Nat) (p : Packet) : State := emit s (.fabCredit input vc (pktUnits p))

/-- Whether the receive region of a port can serve: its stack and the die are in service (R361). -/
def regionOk (s : State) (port : Nat) : Bool :=
  match placeOf s (rd s FAB_PORT_BUF.base port * 2 ^ 20) with
  | .stack w => rd s STK_STATUS.state w != 4 && !dieTripped s (w / 2)
  | _ => false

/-- A port goes DOWN and drops what it holds; `lost` packets were in flight on its link. -/
def portDown (s : State) (port lost : Nat) : State :=
  if !portUp s port then s
  else
    let gone := s.fabWaits.filter fun w => w.output == port || w.input == port
    let s := { s with fabWaits := s.fabWaits.filter fun w => !gone.contains w }
    let s := (gone.filter (·.input != port)).foldl (fun s w => leaveBuffer s w.input w.vc w.pkt) s
    let n := gone.length + lost
    let s := if n == 0 then s else setBit (incSat s FAB_DROPS.port_down 0 n) FAB_STATUS.drops_seen
    let mine (k : Nat) : Bool := k / 16 == port
    let s := { s with fabCredits := s.fabCredits.filter fun c => !mine c.1, fabSent := s.fabSent.filter fun c => !mine c.1 }
    let s := wr (wr (wr s FAB_PORT_STATUS.up port 0) FAB_PORT_STATUS.rtt_ns port 0) FAB_PORT_STATUS.rate_limited port 0
    raiseIf (!regionOk s port) s 0x010

/-- Ports whose receive region's stack has failed, or whose die has left service, go DOWN (R361). -/
def losePorts (s : State) : State := (List.range 5).foldl (fun s p => if portUp s p && !regionOk s p then portDown s p 0 else s) s

/-! ### Units without power, and retirement (R519, Table 1.9, R31 to R33, R38, R50) -/

/-- A wing enters W3: its memory, its clusters, its cores with their tile memory, and its arrays (R519, Table 7.2). -/
def wingOffNow (s : State) (w : Nat) : State :=
  let s := zeroRange (zeroRange s (wingFlat w 0) (2 ^ 26)) (tileFlat (64 * w) 0) (64 * 2 ^ 20)
  let s := { s with
    arrays := s.arrays.filter fun e => e.1 / 512 != w
    corePow := s.corePow.filter fun e => e.1 / 64 != w || e.2 == 3
    clusPow := s.clusPow.filter fun e => e.1 / 8 != w }
  let s := wr (wr (wr s WNG_STATUS.active w 0) WNG_STATUS.allowance w 0) WNG_STATUS.v_now w 0
  setRefresh (setWing s w 3) w

/-- A die's links have no trained state. -/
def linksDown (s : State) (d : Nat) : State :=
  (List.range 4).foldl (fun s e => if linkExists (4 * d + e) then showLink s (4 * d + e) tcnDown 0 else s) s

/-- A die enters D3: its wings, its stacks with what they hold, its links (R519). -/
def dieOffNow (s : State) (d : Nat) : State :=
  let s := [4 * d, 4 * d + 1, 4 * d + 2, 4 * d + 3].foldl wingOffNow s
  let s := [2 * d, 2 * d + 1].foldl (fun s w =>
    let s := zeroRange s (w * 2 ^ 36) (2 ^ 36)
    if rd s STK_STATUS.state w == 4 then s else wr s STK_STATUS.state w 0) s
  linksDown (wr s DIE_STATUS.die_state d 3) d

/-- The stacks of a die enter self-refresh (R301). -/
def selfRefresh (s : State) (d : Nat) : State :=
  [2 * d, 2 * d + 1].foldl (fun s w => if rd s STK_STATUS.state w == 2 then wr s STK_STATUS.state w 3 else s) s

/-- A die's entry becomes RETIRED, and with it those of its stacks and links (R50); the die is no longer powered (R31). -/
def retireDie (s : State) (d origin : Nat) : State :=
  let s := setUnit s d 4 origin
  let units := [40 + 2 * d, 41 + 2 * d] ++ (((List.range 4).map (4 * d + ·)).filter linkExists).map linkUnit
  let s := units.foldl (fun s u => if unitInService s u then setUnit s u 4 origin else s) s
  losePorts (raise (dieOffNow s d) 0x008)

/-- A field retirement of a die by a reset is fused, or held in the hub store when the 8 fuse records are full (R32, R33). -/
def recordRetired (s : State) (d : Nat) : State :=
  if s.fuseRecs.contains d || s.storeRecs.contains d then s
  else if s.fuseRecs.length < 8 then { s with fuseRecs := s.fuseRecs ++ [d] }
  else setBit { s with storeRecs := s.storeRecs ++ [d] } PNL_STATUS.retire_unfused

end Sys2Proof.Machine
end

