-- ==== Sys2Proof/Machine/Stacks.lean ====
section
/-!
DEFINITION. Stacked memory (file 08, R284 to R303) and the far tier (R304 to R309).
-/

namespace Sys2Proof.Machine

/-! ### Rows and spares (R296 to R298, Table 8.4) -/

/-- The unit number of a spare entry: stack, channel, entry. -/
def spareIdx (w ch e : Nat) : Nat := w * 2048 + ch * 64 + e

/-- Entries of a channel that redirect a row. -/
def spareUsed (s : State) (w ch : Nat) : List Nat := (List.range 64).filter fun e => on s STK_SPARE_DATA.valid (spareIdx w ch e)

/-- First reserved row of a bank, and how many there are (R284, R285). -/
def spareRows (s : State) (w : Nat) : Nat × Nat :=
  let first := (rd s STK_INFO.usable w * 1000000 - 1) / 2 ^ 21 + 1
  (first, rd s STK_INFO.height w * 2048 - first)

/-- Entries of a channel that no remap may take: those in use, and those given up as their spare row failed in turn (R298). -/
def spareTaken (s : State) (w ch : Nat) : List Nat :=
  (List.range 64).filter fun e => on s STK_SPARE_DATA.valid (spareIdx w ch e) || s.spareDead.contains (spareIdx w ch e)

/-- Recount what the spare tables show (R298, STK_ECC.remaps): entries in use, and whether a channel has 4 or fewer free. -/
def spareCount (s : State) (w : Nat) : State :=
  let used := (List.range 32).map fun ch => (spareUsed s w ch).length
  let s := wr s STK_ECC.remaps w (used.foldl (· + ·) 0)
  if (List.range 32).any fun ch => 60 ≤ (spareTaken s w ch).length then setBit s STK_STATUS.spares_low w else s

/-- The reserved rows of a bank that entries of its channel already hold, rising. -/
def sparesHeld (s : State) (w ch pc bank : Nat) : List Nat :=
  ((spareTaken s w ch).filter fun e =>
    rd s STK_SPARE_DATA.pc (spareIdx w ch e) == pc && rd s STK_SPARE_DATA.bank (spareIdx w ch e) == bank).foldl
      (fun l e => setIns l (rd s STK_SPARE_DATA.spare (spareIdx w ch e))) []

/-- The k-th number from `first` on that a rising list leaves out. -/
def skipHeld (first k : Nat) (held : List Nat) : Nat := held.foldl (fun r h => if h ≤ r then r + 1 else r) (first + k)

/-- Whether an entry redirects a row (Table 8.4). -/
def redirects (s : State) (row e : Nat) : Bool :=
  let i := spareIdx (row / 2 ^ 27) (rowChan row % 32) e
  rd s STK_SPARE_DATA.pc i == row / 2 ^ 21 % 2 && rd s STK_SPARE_DATA.bank i == row / 2 ^ 16 % 32 && rd s STK_SPARE_DATA.row i == row % 2 ^ 16

/-- The copy of a row passes the corrector: corrected errors are counted and gone, uncorrectable units stay so (R292, R297). -/
def copyRow (s : State) (row : Nat) : State := (s.ce.filter fun u => u < 80 * 2 ^ 36 && rowOf u == row).foldl countCe s

/-- The entry of a row whose spare row fails in turn is given up for good (R298). -/
def dropSpare (s : State) (row : Nat) : State :=
  let w := row / 2 ^ 27
  let ch := rowChan row % 32
  ((spareUsed s w ch).filter (redirects s row)).foldl
    (fun s e => { wr s STK_SPARE_DATA.valid (spareIdx w ch e) 0 with spareDead := setIns s.spareDead (spareIdx w ch e) }) s

/-- STK_PATROL (R295): the patrol reads every usable unit of a stack once. -/
def execStkPatrol (w : StackNo) (s : State) : Res :=
  if rd s STK_CTL.patrol_hours w == 0 || rd s STK_STATUS.state w != 2 then .next s
  else
    let here (u : Nat) : Bool := u / 2 ^ 36 == w.val
    let s := (s.ce.filter here).foldl countCe s
    .next ((s.ue.filter here).foldl (fun s u => countUe s u true) s)

/-- A row is no longer due, nor watched. -/
def rowDone (s : State) (row : Nat) : State :=
  { s with remapDue := s.remapDue.filter (·.1 != row), rowWatch := s.rowWatch.filter (·.1 != row) }

/-- Entry i redirects a row to a reserved row of its bank (Table 8.4). -/
def fillSpare (s : State) (i row cause spare : Nat) : State :=
  let put (s : State) (f : Fld) (v : Nat) : State := wr s f i v
  let s := put (put (put s STK_SPARE_DATA.valid 1) STK_SPARE_DATA.cause cause) STK_SPARE_DATA.bank (row / 2 ^ 16 % 32)
  put (put (put s STK_SPARE_DATA.pc (row / 2 ^ 21 % 2)) STK_SPARE_DATA.row (row % 2 ^ 16)) STK_SPARE_DATA.spare spare

/-- A row that is due moves to a spare entry of its channel, its contents kept, or, with none for it, raises STK_SPARES_EXHAUSTED once for
the channel (R297, R298). -/
def remapRow (s : State) (w : StackNo) (row cause spare : Nat) : Option Nat → State
  | some e =>
    let s := rowDone (dropSpare (copyRow s row) row) row
    bumpFree (spareCount (fillSpare s (spareIdx w (rowChan row % 32) e) row cause spare) w)
  | none =>
    let s := rowDone s row
    if s.spareOut.contains (rowChan row) then s else raise { s with spareOut := s.spareOut ++ [rowChan row] } (srcDie (w.val / 2) 5)

/-- ROW_REMAP (R296 to R298): the first row of a stack that is due is redirected. The spec does not say which free entry a remap takes: the
model takes the lowest (DESIGN CHOICE, log 34), and which free reserved row of the bank is the controller's free choice. -/
def execRowRemap (w : StackNo) (s : State) : Res :=
  match s.remapDue.find? fun r => r.1 / 2 ^ 27 == w.val with
  | none => .next s
  | some (row, cause) =>
    let ch := rowChan row % 32
    let first := (spareRows s w).1
    let n := (spareRows s w).2
    let held := sparesHeld s w ch (row / 2 ^ 21 % 2) (row / 2 ^ 16 % 32)
    .next (remapRow s w row cause (skipHeld first (choose s 0 (n - held.length)) held)
      (if held.length < n then (List.range 64).find? fun e => !(spareTaken s w ch).contains e else none))

/-- STK_REFRESH_CHANGE (R300): the stack's temperature readout is `temp`. -/
def execStkRefreshChange (w : StackNo) (temp : BitVec 8) (s : State) : Res :=
  let s := wr s STK_STATUS.temp w temp.toNat
  .next (if 85 < temp.toNat then wr s STK_STATUS.hot w 1 else if temp.toNat ≤ 81 then wr s STK_STATUS.hot w 0 else s)

/-- SELF_REFRESH_EXIT (R301, R535, R540): an access reaches a stack in self-refresh and wakes its die to D1. -/
def execSelfRefreshExit (w : StackNo) (s : State) : Res :=
  if rd s STK_STATUS.state w == 3 && !dieHeld s (w.val / 2) && !dieTripped s (w.val / 2) then .next (wakeDie s (w.val / 2) 1) else .next s

/-- STK_FAILED (R302): the stack and its die are marked for retirement; a cold, warm or panel reset in progress completes it at once, and
the die comes up inactive (Table 1.9). A fabric port whose region lies there goes DOWN (R361). -/
def execStkFailed (w : StackNo) (s : State) : Res :=
  let d := w.val / 2
  let s := raise (retireMark (retireMark (wr s STK_STATUS.state w 4) (40 + w)) d) (srcDie d 3)
  .next (losePorts (if s.hst.resetKind.isSome && unitState s d == 3 then recordRetired (retireDie s d 1) d else s))

/-- The bank that a row's repair resources belong to: stack, channel, 32·pc + bank. -/
def pprIdx (row : Nat) : Nat := row / 2 ^ 22 * 64 + row / 2 ^ 16 % 2 ^ 6

/-- Repair one row at a reset (Table 8.4): by hPPR, else by sPPR, else not at all. -/
def repairRow (s : State) (row : Nat) : State × Bool :=
  let i := pprIdx row
  if 0 < rd s STK_PPR_DATA.hard_left i then
    ({ wr s STK_PPR_DATA.hard_left i (rd s STK_PPR_DATA.hard_left i - 1) with softRows := s.softRows.filter (· != row) }, true)
  else if on s STK_PPR_DATA.soft_free i then
    ({ wr s STK_PPR_DATA.soft_free i 0 with softRows := setIns s.softRows row }, true)
  else (s, false)

/-- Repairs of one channel at a reset, at most 8 (Table 8.4): rows kept soft first, whose resource the reset has freed,
then REMAPPED rows by rising entry number, an order that the spec does not give (DESIGN CHOICE, log 34). -/
def repairChannel (s : State) (w ch : Nat) : State :=
  let soft := s.softRows.filter fun r => rowChan r == w * 32 + ch
  let s := soft.foldl (fun s r => wr s STK_PPR_DATA.soft_free (pprIdx r) 1) s
  let (s, n) := soft.foldl (fun (s, n) r => let (s, b) := repairRow s r; (s, if b then n + 1 else n)) (s, 0)
  ((spareUsed s w ch).foldl (fun (acc : State × Nat) e =>
    let (s, n) := acc
    if 8 ≤ n then (s, n)
    else
      let i := spareIdx w ch e
      let row := (((w * 64 + 2 * ch + rd s STK_SPARE_DATA.pc i) * 32 + rd s STK_SPARE_DATA.bank i)) * 2 ^ 16 + rd s STK_SPARE_DATA.row i
      let (s, done) := repairRow s row
      if done then (wr s STK_SPARE_DATA.valid i 0, n + 1) else (s, n)) (s, n)).1

/-- STK_INIT (R299, R303, Tables 8.4, 8.5): a stack controller that a cold, warm or panel reset has enabled repairs rows, zeroes the
stack and reaches READY; with bringup set it enters BRINGUP instead, without zeroing. -/
def execStkInit (w : StackNo) (s : State) : Res :=
  if rd s STK_STATUS.state w != 1 || stackExcluded s w then .next s
  else
    let here (r : Nat) : Bool := r / 2 ^ 27 != w.val
    let s := { s with rowWatch := s.rowWatch.filter fun r => here r.1, remapDue := s.remapDue.filter fun r => here r.1, spareOut := s.spareOut.filter (· / 32 != w.val) }
    if on s STK_CTL.bringup w then .next (wr s STK_STATUS.state w 5)
    else
      let s := spareCount ((List.range 32).foldl (fun s ch => repairChannel s w ch) s) w
      .next (wr (zeroRange s (w * 2 ^ 36) (2 ^ 36)) STK_STATUS.state w 2)

/-- STK_CLEAR_COUNTS (R293): a write of STK_CTL.clear_counts. -/
def execStkClearCounts (w : StackNo) (s : State) : Res :=
  .next ([STK_ECC.ce, STK_ECC.ue, STK_LAST_UE.valid, STK_LAST_UE.source, STK_LAST_UE.offset].foldl (fun s f => wr s f w 0) s)

/-- STK_PPR_GO (R303): a write of STK_PPR_CMD with go set: the kind and row it writes, and one repair begun in BRINGUP. -/
def execStkPprGo (w : StackNo) (kind : Bool) (row : BitVec 16) (s : State) : Res :=
  let s := wr (wr s STK_PPR_CMD.kind w (if kind then 1 else 0)) STK_PPR_CMD.row w row.toNat
  if rd s STK_STATUS.state w != 5 || on s STK_PPR_CMD.busy w then .next (setBit s STK_STATUS.cfg_ignored w)
  else .next (wr s STK_PPR_CMD.busy w 1)

/-- PPR_DONE (R303): the repair in the bank that STK_PPR_SEL selects ends; `fails` tells that the stack did not take it. -/
def execPprDone (w : StackNo) (fails : Bool) (s : State) : Res :=
  if !on s STK_PPR_CMD.busy w then .next s
  else
    let s := wr s STK_PPR_CMD.busy w 0
    let i := w * 2048 + rd s STK_PPR_SEL.channel w * 64 + rd s STK_PPR_SEL.bank w
    let hard := on s STK_PPR_CMD.kind w
    let free := if hard then 0 < rd s STK_PPR_DATA.hard_left i else on s STK_PPR_DATA.soft_free i
    if !free then .next (wr s STK_PPR_CMD.result w 1)
    else if fails then .next (wr s STK_PPR_CMD.result w 2)
    else
      let s := if hard then wr s STK_PPR_DATA.hard_left i (rd s STK_PPR_DATA.hard_left i - 1) else wr s STK_PPR_DATA.soft_free i 0
      .next (wr s STK_PPR_CMD.result w 0)

/-! ### The far tier (R304 to R309) -/

/-- FAR_ENABLE (R308): a write of FAR_CTL.enable; 0 to 1 brings the ports' pending enables into force. -/
def execFarEnable (v : Bool) (s : State) : Res :=
  let was := on s FAR_CTL.enable
  let s := wr s FAR_CTL.enable 0 (if v then 1 else 0)
  if v && !was then .next (wr ((List.range 4).foldl (fun s f => bringIn s FAR_PORT_CTL.port_en f) s) FAR_STATUS.cfg_pending 0 0) else .next s

/-- A reply to a request one of whose far-tier writes has failed (R308, R396). -/
def failReply (p : Packet) : Packet := { p with owner := p.owner - p.owner % 2 ^ 8 + stTimeout }

/-- A posted write fails with TIMEOUT; it may or may not have been applied (R308). -/
def farFail (s : State) (i : Nat) (w : FarWrite) : State :=
  let s := if choose s i 2 == 1 then memWrite s w.addr w.data else s
  let s := incSat s FAR_PORT_ERR.timeouts w.port
  let s :=
    if w.queue < 4096 then modCtx s w.queue w.idx fun c => { c with status := stWorse c.status stTimeout }
    else if w.queue == noQueue then
      -- the replies that wait for another write of the same request
      { s with farWrites := s.farWrites.map fun x => if x.queue == noQueue && x.idx == w.idx then { x with replies := x.replies.map failReply } else x }
    else saveFailed s w.queue w.idx stTimeout
  w.replies.foldl (fun s p => sendPacket s .none (failReply p)) s

/-- Fail posted writes of a port: all, or the oldest. -/
def farFailAll (s : State) (f : Nat) (first : Bool) : State :=
  let ws := s.farWrites.filter (·.port == f)
  let ws := if first then ws.take 1 else ws
  let s := { s with farWrites := s.farWrites.filter fun w => !ws.contains w }
  bumpFree (((List.range ws.length).zip ws).foldl (fun s (i, w) => farFail s i w) s)

/-- FAR_ACCESS_TIMEOUT (R308): a far-tier access of a port gets no response in time: its oldest posted write, or with none
outstanding its next access. -/
def execFarAccessTimeout (f : FarPort) (s : State) : Res :=
  if s.farWrites.any (·.port == f.val) then .next (farFailAll s f true)
  else .next { s with farMute := if s.farMute.contains f.val then s.farMute else s.farMute ++ [f.val] }

/-- FAR_LINK_DOWN (R308): every outstanding access of the port fails with TIMEOUT. -/
def execFarLinkDown (f : FarPort) (s : State) : Res :=
  if !on s FAR_PORT_STATUS.link_up f then .next s
  else
    let s := wr (wr (wr s FAR_PORT_STATUS.link_up f 0) FAR_PORT_STATUS.rate f 0) FAR_PORT_STATUS.width f 0
    .next (raise (farFailAll (incSat s FAR_PORT_ERR.link_downs f) f false) (0x01C + f))

/-- FAR_LINK_UP (R308): the port's link is up again, at the rate and width it trained to. In P2 and P3 the port is held in reset (R306). -/
def execFarLinkUp (f : FarPort) (rate : Fin 4) (width : BitVec 5) (s : State) : Res :=
  if rate.val == 0 || 2 ≤ dieFloor s || inForce s FAR_PORT_CTL.port_en f == 0 then .next s
  else .next (wr (wr (wr s FAR_PORT_STATUS.link_up f 1) FAR_PORT_STATUS.rate f rate.val) FAR_PORT_STATUS.width f width.toNat)

/-- FAR_WRITE_COMPLETE (R309): the device completion of a port's oldest posted write reaches the hub; the write is performed. -/
def execFarWriteComplete (f : FarPort) (s : State) : Res :=
  match s.farWrites.find? (·.port == f.val) with
  | none => .next s
  | some w =>
    let s := memWrite { s with farWrites := s.farWrites.erase w } w.addr w.data
    .next (sendReplies s w.idx w.replies)

/-- FAR_PORT_RETRAIN (R305): a port trains and is enumerated again; `device` is the device's capacity in bytes, 0 for none. It is
also how the training that a reset begins reports its result (DEDUCED, log 122). A port held in reset does not train (R306); a link that was up and
ends down has gone down (R308). -/
def execFarPortRetrain (f : FarPort) (rate : Fin 4) (width : BitVec 5) (device : W64) (s : State) : Res :=
  if 2 ≤ dieFloor s then .next s else
  let was := on s FAR_PORT_STATUS.link_up f
  let s := farFailAll s f false
  let up := rate.val != 0 && inForce s FAR_PORT_CTL.port_en f == 1
  let b (x : Bool) (n : Nat) : Nat := if x then n else 0
  let s := wr (wr s FAR_PORT_STATUS.link_up f (b up 1)) FAR_PORT_STATUS.rate f (b up rate.val)
  let s := wr (wr s FAR_PORT_STATUS.width f (b up width.toNat)) FAR_PORT_STATUS.device f (b (up && device != 0) 1)
  let s := wr s FAR_PORT_STATUS.capacity f (b up (min device.toNat (4 * 10 ^ 12) / 2 ^ 28))
  .next (if was && !up then raise (incSat s FAR_PORT_ERR.link_downs f) (0x01C + f) else s)

end Sys2Proof.Machine
end

