-- ==== Sys2Proof/Machine/Links.lean ====
section
/-!
DEFINITION. Tecen links and the UCIe sites (file 09, R310 to R341), with the retirement of dies (R32, R33, R50).
-/

namespace Sys2Proof.Machine

/-! ### Lane groups (R316 to R320) -/

/-- Give each lane of a list the first unused spare (R317). -/
def giveSpares : List Nat → GroupRepair → GroupRepair
  | [], r => r
  | l :: ls, r =>
    if !r.fail0 && r.for0 == 127 then giveSpares ls { r with for0 := l, spared := r.spared + 1 }
    else if !r.fail1 && r.for1 == 127 then giveSpares ls { r with for1 := l, spared := r.spared + 1 }
    else { r with works := false }

/-- Repair a group whose spares stand at `r` after a lane test. A spare that fails gives up the lane it carries. -/
def repairGroup (r : GroupRepair) (t : LaneTest) : GroupRepair :=
  let bad (l : Nat) : Bool := t.failed.getLsbD l
  let lost := (if bad 64 && r.for0 != 127 then [r.for0] else []) ++ (if bad 65 && r.for1 != 127 then [r.for1] else [])
  let r0 : GroupRepair := { r with
    fail0 := r.fail0 || bad 64, for0 := if bad 64 then 127 else r.for0
    fail1 := r.fail1 || bad 65, for1 := if bad 65 then 127 else r.for1 }
  let need := (List.range 64).filter fun l => lost.contains l || (bad l && r.for0 != l && r.for1 != l)
  let free := (if !r0.fail0 && r0.for0 == 127 then 1 else 0) + (if !r0.fail1 && r0.for1 == 127 then 1 else 0)
  if t.ctrl || free < need.length then { r0 with works := false } else giveSpares need r0

/-- The spares of a group as TCN_REPAIR holds them. -/
def getRepair (s : State) (n g : Nat) : GroupRepair :=
  let i := grpIdx n g
  ⟨true, 0, on s TCN_REPAIR.spare0_failed i, rd s TCN_REPAIR.spare0_for i, on s TCN_REPAIR.spare1_failed i, rd s TCN_REPAIR.spare1_for i⟩

/-- Set what both ends of a link show, and what the hub stores of it (Table 1.9, TCN_STORED). -/
def storeLink (s : State) (n mask : Nat) : State :=
  let w := popCount 16 mask
  let s := (linkSites n).foldl (fun s m => wr (wr s TCN_STORED.mask m mask) TCN_STORED.width m w) s
  bumpUnit (wr s PNL_UNIT_DATA.width (linkUnit n) w) (linkUnit n)

/-- The die that a link with fewer than 8 groups marks (R320). -/
def markedDie (s : State) (n : Nat) : Nat :=
  match linkOther n with
  | .site m =>
    let lost (k : Nat) : Nat := popCount 16 (kget s.tcnLost k 0)
    let others (k : Nat) : Nat :=
      (((List.range 4).map (k / 4 * 4 + ·)).filter (· != k)).foldl (fun a j => if rd s TCN_STATUS.state j == tcnUp then a + rd s TCN_STATUS.width j else a) 0
    if lost n != lost m then (if lost m < lost n then n / 4 else m / 4)
    else if others n != others m then (if others n < others m then n / 4 else m / 4)
    else max (n / 4) (m / 4)
  | _ => n / 4

/-- A link with fewer than 8 groups leaves service (R319); in a cold, warm or panel reset the retirement is completed at once (R321). The spec does
not say which die's source raises TCN_LINK_OUT for a link between two dies: the model raises that of the die the command names (DESIGN CHOICE,
log 40). -/
def linkOut (s : State) (n : Nat) (full : Bool) : State :=
  let s := showLink s n tcnOut 0
  let d := markedDie s n
  let s := retireMark (retireMark s (linkUnit n)) d
  let s := raise s (srcDie (n / 4) 6)
  if full then recordRetired (retireDie s d 1) d else s

/-- A receiver of a site's link: the site itself, or the hub at the other end. -/
def receiverOf (n : Nat) (hub : Bool) : Nat := match linkOther n with | .hub _ => if hub then 160 + n else n | _ => n

/-- A group's lane test falls due: from now the sender holds the group's flits (R316). -/
def dueTest (s : State) (r g : Nat) : State := { s with tcnTests := setIns s.tcnTests (16 * r + g) }

/-- TCN_REPLAY (R314 to R316): a flit of a group fails its CRC at a receiver: the sender is told the last good flit and replays that flit and
the later ones of the group from its retry buffer of 64. When the same flit, replayed, has failed lane_test_errors times running, with none good
between, the group's lane test is due. -/
def execTcnReplay (d : DieNo) (f : BadFlit) (s : State) : Res :=
  let n := 4 * d.val + f.recv.edge.val
  let r := receiverOf n f.recv.hub
  let g := f.group
  let seq := f.seq
  if rd s TCN_STATUS.state n != tcnUp || !bitOn (rd s TCN_STATUS.active_mask n) g then .next s
  else
    let run := match kfind s.tcnFails (16 * r + g) with | some (q, k) => if q == seq.toNat then k + 1 else 1 | none => 1
    let s := incSat { s with tcnFails := kput s.tcnFails (16 * r + g) (seq.toNat, run) } TCN_ERR.crc_errors r
    let s := emit (emit s (.tcnNak r g ((seq.toNat + 2 ^ 16 - 1) % 2 ^ 16))) (.tcnReplay r g seq.toNat (f.later.val + 1))
    .next (if rd s TCN_CTL.lane_test_errors n ≤ run then dueTest s r g else s)

/-- Lanes of a receiver's group whose margin is low (R326, Table 9.2 step 3). -/
def lowSet (s : State) (r g : Nat) : BitVec 66 :=
  BitVec.ofNat 66 (((List.range 66).filter fun l => s.lowLanes.contains (2048 * r + 128 * g + l)).foldl (fun m l => m + 2 ^ l) 0)

/-- TCN_LANE_TEST (R316 to R320): the lane test that is due of a group at a receiver finds `t`; spares replace failed lanes, or the group is
retired in both directions. The group's flits, held meanwhile, go on. The spec does not say which die's source raises TCN_GROUP_RETIRED for a
link between two dies: the model raises that of the die the command names (DESIGN CHOICE, log 40). -/
def execTcnLaneTest (d : DieNo) (r : LinkRecv) (g : Fin 16) (t : LaneTest) (s : State) : Res :=
  let n := 4 * d.val + r.edge.val
  let x := receiverOf n r.hub
  let mask := rd s TCN_STATUS.active_mask n
  if rd s TCN_STATUS.state n != tcnUp || !bitOn mask g || !s.tcnTests.contains (16 * x + g) then .next s
  else
    let low := if on s TCN_CTL.proactive_spare n then lowSet s x g else 0
    let r := repairGroup (getRepair s x g) { t with failed := t.failed ||| low }
    let s := { s with tcnTests := s.tcnTests.filter (· != 16 * x + g), tcnFails := kdel s.tcnFails (16 * x + g) }
    if r.works then
      let s := putRepair s x g r false
      if r.spared == 0 then .next s else .next (raise (incSat s TCN_ERR.lanes_spared x r.spared) (srcDie d 9))
    else
      let s := putRepair s x g r t.ctrl
      let s := { s with tcnLost := kput s.tcnLost x (bitSet (kget s.tcnLost x 0) g) }
      let s := (linkEnds n).foldl (fun s m =>
        incSat (incSat (wr s TCN_REPAIR.retired (grpIdx m g) 1) TCN_ERR.groups_retired m) TCN_ERR.trainings m) s
      let mask := bitClr mask g
      let s := storeLink s n mask
      let s := (linkSites n).foldl (fun s m => wr s TCN_STATUS.partner_width m (popCount 16 mask)) s
      let s := raise s (srcDie d 7)
      .next (if popCount 16 mask < 8 then linkOut s n false else showLink s n tcnUp mask)

/-- TCN_RETRAIN (R322): a write of TCN_CTL.retrain. -/
def execTcnRetrain (d : DieNo) (e : EdgeNo) (s : State) : Res := .next (startTraining s (4 * d.val + e.val) false)

/-- The groups that pass at a receiver, and their repairs, from a lane test of all of them; a lane whose margin the training measured below
margin_min fails too (Table 9.2 step 3). Lanes that spares replace are told (R317). -/
def testEnd (s : State) (r : Nat) (ts : List LaneTest) : State × Nat :=
  ((List.range 16).zip ts).foldl (fun (acc : State × Nat) (g, t) =>
    let x := repairGroup groupFresh { t with failed := t.failed ||| lowSet acc.1 r g }
    let s := putRepair acc.1 r g x t.ctrl
    if x.works then (raiseIf (x.spared != 0) (incSat s TCN_ERR.lanes_spared r x.spared) (srcDie (r % 160 / 4) 9), acc.2 + 2 ^ g)
    else ({ s with tcnLost := kput s.tcnLost r (bitSet (kget s.tcnLost r 0) g) }, acc.2)) (s, 0)

/-- The groups that a training leaves out of service are retired at both ends; those that failed a test are counted and told (R318). -/
def retireTrained (s : State) (n mask passed : Nat) : State :=
  (List.range 16).foldl (fun s g =>
    if bitOn mask g then s
    else
      let s := (linkEnds n).foldl (fun s m =>
        let s := wr s TCN_REPAIR.retired (grpIdx m g) 1
        if bitOn passed g then s else incSat s TCN_ERR.groups_retired m) s
      raiseIf (!bitOn passed g) s (srcDie (n / 4) 7)) s

/-- TCN_TRAINING (R322 to R324, Table 9.2): the training of a link ends. `mine` and `theirs` are the lane tests at the named end and at
the other; `got` and `gave` tell whether this end received the other's mask, and the other end this one's. -/
def execTcnTraining (d : DieNo) (e : EdgeNo) (mine theirs : List LaneTest) (got gave : Bool) (s : State) : Res :=
  if mine.length != 16 || theirs.length != 16 then .fault .illFormed
  else
    let n := 4 * d.val + e.val
    if rd s TCN_STATUS.state n != tcnTraining then .next s
    else
      let u := linkUnit n
      let full := s.tcnFull.contains u
      let (s, a) := testEnd s n mine
      let (s, b) := testEnd s ((linkEnds n).getD 1 n) theirs
      let ra := if got then a &&& b else a
      let rb := if gave then a &&& b else b
      let agree := got && gave && ra == rb
      let mask := if agree then ra else if full then ra &&& rb else rd s TCN_STORED.mask n
      let s := retireTrained s n mask (a &&& b)
      let s := { s with tcnFull := s.tcnFull.filter (· != u), lowLanes := s.lowLanes.filter fun l => !(linkEnds n).contains (l / 2048) }
      let s := (linkSites n).foldl (fun s m =>
        let s := incSat s TCN_ERR.trainings m
        wr s TCN_STATUS.partner_width m (popCount 16 (if m == n then rb else ra))) s
      let s := if agree || full then s
        else (linkSites n).foldl (fun s m => raise (incSat (setBit s TCN_STATUS.disagree m) TCN_ERR.disagreements m) (srcDie (m / 4) 8)) s
      let s := storeLink s n mask
      .next (if popCount 16 mask < 8 then linkOut s n full else showLink s n tcnUp mask)

/-- Whether a lane of a receiver carries data now: its group in service, a data lane no spare has replaced or a spare that carries one. -/
def laneInService (s : State) (x g l : Nat) : Bool :=
  let r := getRepair s x g
  bitOn (rd s TCN_STATUS.active_mask (x % 160)) g &&
  (if l < 64 then r.for0 != l && r.for1 != l else if l == 64 then r.for0 != 127 else r.for1 != 127)

/-- TCN_MARGIN_MEASURE (R325, R326): a receiver's measured margins of its lanes. A low lane in service is told once, and while
proactive_spare is 1 its group's lane test is due (R316); in training a low lane fails (Table 9.2 step 3). -/
def execTcnMarginMeasure (d : DieNo) (r : LinkRecv) (ms : List Margin) (s : State) : Res :=
  let n := 4 * d.val + r.edge.val
  let x := receiverOf n r.hub
  let st := rd s TCN_STATUS.state n
  if st != tcnUp && st != tcnTraining then .next s
  else
    .next (ms.foldl (fun s m =>
      let i := 2048 * x + 128 * m.group.val + m.lane.val
      let s := wr (wr s TCN_MARGIN_DATA.timing i m.timing.toNat) TCN_MARGIN_DATA.voltage i m.voltage.toNat
      let s := wr s TCN_MARGIN_DATA.tick i (kget s.ticks d 0 % 2 ^ 32)
      if rd s TCN_CTL.margin_min n ≤ m.timing.toNat then s
      else if st == tcnTraining then { s with lowLanes := if s.lowLanes.contains i then s.lowLanes else s.lowLanes ++ [i] }
      else if laneInService s x m.group m.lane then
        let s := if on s TCN_CTL.proactive_spare n then dueTest s x m.group else s
        if s.lowLanes.contains i then s
        else raise (setBit { s with lowLanes := s.lowLanes ++ [i] } TCN_STATUS.margin_low n) (srcDie d 10)
      else s) (wr s TCN_CTL.margin_go n 0))

/-! ### Routes on the panel (R327 to R332) -/

/-- Links in service, by unit. -/
def linksUp (s : State) : List Nat := linkUnits.filter fun u => linkInService s (u - 120)

/-! ### UCIe sites (R333 to R341) -/

/-- Commands outstanding at a site: sent to its die and not answered, one stopped on a fault of a request of the die among them. -/
def siteCmds (s : State) (site : Nat) : List (Nat × Nat) :=
  s.queues.flatMap fun x => (x.2.ctxs.filter fun c =>
    siteOf c.cores == some site && !c.recheck && (c.phase == .running || c.phase == .stopped || c.phase == .reported)).map fun c => (x.1, c.idx)

/-- An outstanding command of a site fails with TIMEOUT (R340): a stop of it that is not yet reported gives way. -/
def failOutstanding (s : State) (site q idx : Nat) : State :=
  let x := getQ s q
  let s := putQ s q { x with stops := x.stops.filter (·.idx != idx) }
  incSat (finishCtx s q idx stTimeout 0) UCI_SITE_ERR.timeouts site

/-- Every outstanding command of a site fails with TIMEOUT (R340). -/
def failSite (s : State) (site : Nat) : State := (siteCmds s site).foldl (fun s (q, idx) => failOutstanding s site q idx) s

/-- Whether a site may train: its unit is not RETIRED (R49) and the panel is not in P2 or P3, which hold it in reset (R341). -/
def siteMayTrain (s : State) (site : Nat) : Bool := unitState s (306 + site) != 4 && dieFloor s < 2

/-- A site has no link. -/
def siteDark (s : State) (site state : Nat) : State :=
  let s := wr (wr s UCI_SITE_STATUS.state site state) UCI_SITE_STATUS.rate site 0
  wr (wr { s with uciL1 := s.uciL1.filter (· != site) } UCI_SITE_STATUS.lanes site 0) UCI_SITE_STATUS.modules site 0

/-- A site's link goes down and the site ends in a state (R340). -/
def siteFalls (s : State) (site state : Nat) : State :=
  raise (siteDark (failSite (incSat s UCI_SITE_ERR.link_downs site) site) site state) (0x018 + site)

/-- UCI_SITE_ENABLE (R334, R340): a write of UCI_SITE_CTL.enable; 0 to 1 brings rate_max into force and trains the link, 1 to 0 takes it down. -/
def execUciSiteEnable (site : SiteNo) (v : Bool) (s : State) : Res :=
  let was := on s UCI_SITE_CTL.enable site
  let s := wr s UCI_SITE_CTL.enable site (if v then 1 else 0)
  if v && !was then
    let s := wr (bringIn s UCI_CTL.rate_max) UCI_STATUS.cfg_pending 0 0
    .next (if siteMayTrain s site then siteDark s site 1 else s)
  else if !v && was then .next (if rd s UCI_SITE_STATUS.state site == 3 then siteFalls s site 0 else siteDark (failSite s site) site 0)
  else .next s

/-- UCI_IDENTITY (R334): the link has trained to a rate, lanes and modules, and the die's identity message has arrived. -/
def execUciIdentity (site : SiteNo) (rate : Fin 4) (lanes : Fin 65) (modules : Fin 5) (msg : UciIdentity) (s : State) : Res :=
  let st := rd s UCI_SITE_STATUS.state site
  if st != 1 && st != 2 then .next s
  else
    let s := wr s UCI_SITE_STATUS.rate site (min rate.val (inForce s UCI_CTL.rate_max))
    let s := wr (wr s UCI_SITE_STATUS.lanes site lanes.val) UCI_SITE_STATUS.modules site (min modules.val (2 ^ rd s UCI_SITE_CTL.modules_max site))
    let s := wr (wr s UCI_SITE_INFO.vendor site msg.vendor.toNat) UCI_SITE_INFO.device site msg.device.toNat
    let s := wr (wr s UCI_SITE_INFO.engines site msg.engines.toNat) UCI_SITE_INFO.max_inflight site msg.maxInflight.toNat
    let s := wr (wr s UCI_SITE_INFO.requester site (if msg.requester then 1 else 0)) UCI_SITE_INFO.protocol site msg.protocol.toNat
    if msg.protocol.toNat != 1 || msg.engines.toNat == 0 || msg.maxInflight.toNat == 0 then .next (wr s UCI_SITE_STATUS.state site 5)
    else .next (raise (wr s UCI_SITE_STATUS.state site 3) (0x01A + site))

/-- UCI_RETRAIN (R340): a write of UCI_SITE_CTL.retrain takes the link down and trains it again. -/
def execUciRetrain (site : SiteNo) (s : State) : Res :=
  if on s UCI_SITE_CTL.enable site && siteMayTrain s site then .next (siteFalls s site 1) else .next s

/-- UCI_SITE_DOWN (R340). -/
def execUciSiteDown (site : SiteNo) (s : State) : Res :=
  if rd s UCI_SITE_STATUS.state site == 3 then .next (siteFalls s site 4) else .next s

/-- UCI_L1_ENTRY (Table 9.4): a site idle for 100 µs. -/
def execUciL1Entry (site : SiteNo) (s : State) : Res :=
  if rd s UCI_SITE_STATUS.state site == 3 && siteInflight s site == 0 then .next { s with uciL1 := setIns s.uciL1 site } else .next s

/-- The context of a third-party command at work, by its handle. -/
def siteCtx (s : State) (site q idx : Nat) : Option Ctx :=
  match findCtx s q idx with
  | some c => if siteOf c.cores == some site && c.phase == .running && rd s UCI_SITE_STATUS.state site == 3 then some c else none
  | none => none

/-- UCI_ANSWER (R337): the die answers a command with a status, the inexact flags and result0. -/
def execUciAnswer (site : SiteNo) (q : QueueNo) (idx : BitVec 32) (status : BitVec 8) (low high : Bool) (result0 : W64) (s : State) : Res :=
  match siteCtx s site q idx.toNat with
  | some c => .next (modCtx s q c.idx fun c => { c with phase := .done, status := status.toNat, low := low, high := high, result0 := result0.toNat })
  | none => .next s

/-- UCI_DIE_REQUEST (R338, R339): a requester die reads `n` bytes at an address of a command's address space, or writes `data` there. -/
def execUciDieRequest (site : SiteNo) (q : QueueNo) (idx : BitVec 32) (write : Bool) (va : W64) (n : BitVec 12) (data : List Byte) (s : State) : Res :=
  match (if on s UCI_SITE_INFO.requester site then siteCtx s site q idx.toNat else none) with
  | none => .next (emit (incSat s UCI_SITE_ERR.refused site) (.uciReply site stRefused []))
  | some c =>
    let job := rd s QUE_Q_BIND.space q
    if write then
      let (s, st, a) := writeVa { s with srcAt := some (40 + site.val) } 1280 job q c.idx va.toNat data
      let s := { s with srcAt := none }
      if st == stFaultPage || st == stFaultPerm then .next (stopShare s q c.idx 0 (stopPlain st accWrite a))
      else if st == stWait then .next s
      else .next (emit s (.uciReply site st []))
    else
      let g := readVa { s with srcAt := some (40 + site.val) } 1280 job va.toNat n.toNat
      let s := { g.s with srcAt := none }
      if g.status == stFaultPage || g.status == stFaultPerm then .next (stopShare s q c.idx 0 (stopPlain g.status accRead g.va))
      else if g.status == stWait then .next s
      else .next (emit s (.uciReply site g.status g.data))

/-- UCI_COMMAND_TIMEOUT (R340): a command has had no answer within cmd_timeout_ms. -/
def execUciCommandTimeout (site : SiteNo) (q : QueueNo) (idx : BitVec 32) (s : State) : Res :=
  match findCtx s q idx.toNat with
  | some c =>
    if (siteCmds s site).contains (q.val, c.idx) then .next (failOutstanding s site q c.idx) else .next s
  | none => .next s

end Sys2Proof.Machine
end

