-- ==== Sys2Proof/Machine/Wire.lean ====
section
/-!
DEFINITION. What the fibres carry (files 10 and 13): the packet header (R349), flits (R455), codewords and lane words (R454), and the
placement of packets in lanes (R456).
-/

namespace Sys2Proof.Machine

/-! ### Packets (R349) -/

/-- The 16-byte header of a packet (Table 10.3); reserved bits are 0. -/
def packHeader (p : Packet) : List Byte :=
  leBytes 2 (p.dst % 2 ^ 14 + 2 ^ 14 * (p.cls % 4)) ++
  leBytes 2 (p.src % 2 ^ 14 + 2 ^ 14 * (p.set % 2) + 2 ^ 15 * (p.dl % 2)) ++
  leBytes 2 (p.epoch % 2 + 2 * (p.dirX % 2) + 4 * (p.dirY % 2) + 8 * (p.mc % 2) + 16 * (p.mcAxis % 2) + 32 * (p.mcDir % 2) + 64 * (p.mcSpan % 64)) ++
  leBytes 2 (p.unit % 64 + 64 * (p.unitMc % 4)) ++ leBytes 2 (p.payload.length % 512) ++ leBytes 6 p.owner

/-- A packet's bytes: the header and 0 to 256 bytes of payload. -/
def packPacket (p : Packet) : List Byte := packHeader p ++ p.payload

/-- The packet that bytes spell: as many bytes of payload as its length field names. -/
def unpackPacket (b : List Byte) : Packet :=
  let w (o lo n : Nat) : Nat := leAt b o 2 / 2 ^ lo % 2 ^ n
  { dst := w 0 0 14, cls := w 0 14 2, src := w 2 0 14, set := w 2 14 1, dl := w 2 15 1, epoch := w 4 0 1, dirX := w 4 1 1, dirY := w 4 2 1
    mc := w 4 3 1, mcAxis := w 4 4 1, mcDir := w 4 5 1, mcSpan := w 4 6 6, unit := w 6 0 6, unitMc := w 6 6 2
    owner := leAt b 10 6, payload := (b.drop 16).take (w 8 0 9) }

/-! ### Flits (R455, R456) -/

/-- CRC-32 of IEEE 802.3, polynomial 0x04C1_1DB7, whose reflection this is (R455). -/
def crc32 (bs : List Byte) : Nat := crcOf 0xEDB88320#32 bs

/-- A flit (Table 13.6): 250 bytes of payload, sequence number and type, CRC over bytes 0 to 251. -/
def flitBytes (ty seq : Nat) (payload : List Byte) : List Byte :=
  let body := padTo 250 payload ++ leBytes 2 (seq % 4096 + 4096 * ty)
  body ++ leBytes 4 (crc32 body)

/-- An IDLE flit: the sending node, engine, fibre and lane, and no sequence number (R456). -/
def idleFlit (node n f i : Nat) : List Byte := flitBytes 1 0 (leBytes 250 (Config.idleBody node n f i))

/-- A flit of a retry buffer as it goes out: a DATA flit. -/
def LaneFlit.bytes (x : LaneFlit) : List Byte := flitBytes 0 x.seq x.payload

/-- A packet's bytes cut into flits, from a sequence number on: it begins in a flit of its own and may continue into the next of the same lane. -/
def cutFlits (first : Bool) : (fuel seq : Nat) → List Byte → List LaneFlit
  | 0, _, _ => []
  | _ + 1, _, [] => []
  | k + 1, seq, bs => ⟨seq % 4096, first, bs.take 250⟩ :: cutFlits false k (seq + 1) (bs.drop 250)

/-- The DATA flits of a packet. -/
def dataFlits (fuel seq : Nat) (bs : List Byte) : List (List Byte) := (cutFlits true fuel seq bs).map LaneFlit.bytes

/-! ### Codewords (R454) -/

/-- Multiplication in GF(2^10) modulo x^10 + x^3 + 1, the field of RS(544,514) in IEEE 802.3. -/
def gfMul (a b : Nat) : Nat :=
  ((List.range 10).foldl (fun (acc : Nat × Nat) i =>
    let (r, a) := acc
    (if b / 2 ^ i % 2 == 1 then Nat.xor r a else r, if 512 ≤ a then Nat.xor (2 * a) 0x409 else 2 * a)) (0, a)).1

/-- The generator polynomial of 30 roots 1, α, …, α^29, without its leading term, highest power first. -/
def rsGen : List Nat :=
  let mulRoot (g : List Nat) (r : Nat) : List Nat := List.zipWith Nat.xor (g ++ [0]) (0 :: g.map (gfMul r))
  (((List.range 30).foldl (fun (acc : List Nat × Nat) _ => (mulRoot acc.1 acc.2, gfMul acc.2 2)) ([1], 1)).1).drop 1

/-- The 30 parity symbols of a message's symbols. -/
def rsParity (msg : List Nat) : List Nat :=
  let g := rsGen
  msg.foldl (fun r m => let k := Nat.xor m (r.headD 0); List.zipWith Nat.xor (r.drop 1 ++ [0]) (g.map (gfMul k))) (List.replicate 30 0)

/-- A lane word (Table 13.5): wavelength index, last flit received in order on the paired lane, nak, fibre index. -/
def laneWord (index ack nak fibre : Nat) : Nat := index % 16 + 16 * (ack % 4096) + 2 ^ 16 * (nak % 2) + 2 ^ 17 * (fibre % 8)

/-- A codeword of 544 symbols: 5,120 bits of flits, the lane word, and the parity (R454). -/
def codeword (half : List Byte) (word : Nat) : List Nat :=
  let bits := leNat (padTo 640 half) + 2 ^ 5120 * word
  let msg := (List.range 514).map fun k => bits / 2 ^ (10 * k) % 1024
  msg ++ rsParity msg

/-- Five flits fill two codewords, two and a half in each: the codewords of a lane's flits, filled up with IDLE flits. -/
def codewords (word : Nat) (idle : List Byte) (flits : List (List Byte)) : List (List Nat) :=
  let fill := (5 - flits.length % 5) % 5
  let bytes := (flits ++ List.replicate fill idle).flatten
  (List.range (bytes.length / 640)).map fun k => codeword ((bytes.drop (640 * k)).take 640) word

/-! ### Lanes (R449, R456, R472) -/

/-- States of a lane pair (OPT_LANE_DATA). -/
def lnDark : Nat := 0
def lnLocking : Nat := 1
def lnTraining : Nat := 2
def lnUp : Nat := 3
def lnPaused : Nat := 4
def lnWalking : Nat := 5
def lnRetired : Nat := 6

/-- The number of a lane's entry for a direction (0 transmit, 1 receive). -/
def laneIdx (n dir f i : Nat) : Nat := 256 * n + 128 * dir + 16 * f + i
/-- The number of a lane pair. -/
def pairIdx (n f i : Nat) : Nat := 128 * n + 16 * f + i

def laneState (s : State) (n f i : Nat) : Nat := rd s OPT_LANE_DATA.state (laneIdx n 0 f i)

/-- The pairs of an engine. -/
def allPairs : List (Nat × Nat) := (List.range 8).flatMap fun f => (List.range 16).map fun i => (f, i)

/-- The retry buffer of a lane pair, without the flits that lane words have acknowledged by now: how many have is open (R458). -/
def laneHeld (s : State) (k : Nat) : List LaneFlit :=
  let l := kget s.laneFlits k []
  l.drop (choose s (2 ^ 96 + k) (l.length + 1))

/-- Flits that a lane's retry buffer holds at most (R458). -/
def laneRoom : Nat := 768

/-- Flits go out on a lane, in codewords with its lane word, and stay in its retry buffer until they are acknowledged (R454, R458). -/
def sendFlits (s : State) (n f i : Nat) (flits : List LaneFlit) : State :=
  let k := pairIdx n f i
  let l := laneHeld s k ++ flits
  let cws := codewords (laneWord i (kget s.laneAck k 4095) 0 f) (idleFlit (rd s FAB_COORD.node) n f i) (flits.map LaneFlit.bytes)
  emit { s with
    laneSeq := kput s.laneSeq k ((kget s.laneSeq k 0 + flits.length) % 4096)
    laneFlits := kput s.laneFlits k (l.drop (l.length - laneRoom)) } (.lane n f i cws)

/-- The lanes of an engine that can take flits: those in service whose retry buffers have room; with none such, any in service, where the flits
go as soon as older ones have been acknowledged (R458). -/
def openLanes (s : State) (n count : Nat) (pick : Nat × Nat → Bool) : List (Nat × Nat) :=
  let lanes := allPairs.filter fun x => pick x && laneState s n x.1 x.2 == lnUp
  let room := lanes.filter fun x => (laneHeld s (pairIdx n x.1 x.2)).length + count ≤ laneRoom
  if room.isEmpty then lanes else room

/-- A packet is placed in one lane in service of an engine, at the engine's free choice, and goes out in that lane's flits (R456). -/
def launch (s : State) (port n : Nat) (p : Packet) : State :=
  let s := emit s (.fabSend port (4 * p.cls + 2 * p.set + p.dl) p)
  let lanes := openLanes s n (cutFlits true 2 0 (packPacket p)).length fun _ => true
  match lanes[choose s (2 ^ 32 + 8 + n) lanes.length]? with
  | none => s
  | some (f, i) => sendFlits s n f i (cutFlits true 2 (kget s.laneSeq (pairIdx n f i) 0) (packPacket p))

end Sys2Proof.Machine
end

