-- ==== Sys2Proof/Machine/Fabric.lean ====
section
/-!
DEFINITION. The Vikel fabric (file 10, R342 to R382): routes, channels, per-hop credits, windows, multicast, routing banks, drops.
-/

namespace Sys2Proof.Machine

/-! ### Banks (R355, R373 to R377) -/

/-- State of a bank: 0 EMPTY, 1 LOADING, 2 LOADED. -/
def bankState (s : State) (b : Nat) : Nat := rd s (if b == 0 then FAB_BANK_STATUS.state_a else FAB_BANK_STATUS.state_b)
def putBankState (s : State) (b v : Nat) : State := wr s (if b == 0 then FAB_BANK_STATUS.state_a else FAB_BANK_STATUS.state_b) 0 v
def bankHold (s : State) (b : Nat) : Nat := rd s (if b == 0 then FAB_BANK_STATUS.hold_a else FAB_BANK_STATUS.hold_b)
def putBankHold (s : State) (b v : Nat) : State := wr s (if b == 0 then FAB_BANK_STATUS.hold_a else FAB_BANK_STATUS.hold_b) 0 v

/-- The entry of a node ID in a bank (Table 10.4). -/
def bankEntry (s : State) (b node : Nat) : Nat := kget s.fabBanks (b * 16384 + node) 0

/-- Channel of a packet (R356). -/
def pktVc (p : Packet) : Nat := 4 * p.cls + 2 * p.set + p.dl

/-! ### Routes (R350 to R354, R359, R368) -/

/-- This panel's coordinates. -/
def myX (s : State) : Nat := nodeX (rd s FAB_COORD.node)
def myY (s : State) : Nat := nodeY (rd s FAB_COORD.node)
def myZ (s : State) : Nat := nodeZ (rd s FAB_COORD.node)

/-- Whether the hop from a coordinate in a direction is the axis's wrap link. -/
def wrapHop (dim me dir : Nat) : Bool := if dir == 0 then me + 1 == dim else me == 0

/-- One hop on X (axis 0) or Y (axis 1): output port and packet. `start` tells that the packet starts on the axis here. -/
def axisHop (s : State) (p : Packet) (axis me dest dim : Nat) (wrap start : Bool) : Nat × Packet :=
  let e := bankEntry s p.epoch p.dst
  let held := if axis == 0 then p.dirX else p.dirY
  let dir := if !wrap then (if me < dest then 0 else 1) else if start then e / 2 ^ axis % 2 else held
  let dl := if wrap && wrapHop dim me dir then 1 else if start then 0 else p.dl
  (2 * axis + dir, if axis == 0 then { p with dirX := dir, dl := dl } else { p with dirY := dir, dl := dl })

/-- Where a router sends a packet that came in at port `input` (5: injected here): output port 0–4, or 5 for delivery. -/
def routePacket (s : State) (input : Nat) (p : Packet) : Nat × Packet :=
  let x := nodeX p.dst != myX s
  let y := nodeY p.dst != myY s
  let goX := axisHop s p 0 (myX s) (nodeX p.dst) (rd s FAB_COORD.dim_x) (on s FAB_COORD.wrap_x) (1 < input)
  let goY := axisHop s p 1 (myY s) (nodeY p.dst) (rd s FAB_COORD.dim_y) (on s FAB_COORD.wrap_y) (input != 2 && input != 3)
  if p.set == 0 then
    if x then goX else if y then goY else if nodeZ p.dst != myZ s then (4, { p with dl := 0 }) else (5, p)
  else
    if y then goY else if x then goX else if nodeZ p.dst != myZ s then (4, { p with dl := 0 }) else (5, p)

/-- The next hop of a multicast packet; `start` where it is injected (R359, R368). -/
def mcHop (s : State) (start : Bool) (p : Packet) : Nat × Packet :=
  let (me, dim) := if p.mcAxis == 0 then (myX s, rd s FAB_COORD.dim_x) else (myY s, rd s FAB_COORD.dim_y)
  (2 * p.mcAxis + p.mcDir, { p with dl := if wrapHop dim me p.mcDir then 1 else if start then 0 else p.dl })

/-! ### Sending and credits (R360, R363, R376) -/

/-- Whether a port holds credits for a packet on its channel. -/
def creditOk (s : State) (port : Nat) (p : Packet) : Bool := pktUnits p ≤ kget s.fabCredits (16 * port + pktVc p) 0

/-- How soon an output serves a packet (R364), the smaller the sooner: MGT, then RSP, then REQ and COL round robin; within a class its four
channels round robin. -/
def service (s : State) (port : Nat) (p : Packet) : Nat :=
  let rank := if p.cls == 3 then 0 else if p.cls == 1 then 1 else if kget s.fabTurn (8 * port + 4) 2 == p.cls then 3 else 2
  4 * rank + (2 * p.set + p.dl + 7 - kget s.fabTurn (8 * port + p.cls) 3) % 4

/-- An output has served a packet's channel. -/
def servedTurn (m : KMap Nat) (port : Nat) (p : Packet) : KMap Nat :=
  let m := kput m (8 * port + p.cls) (2 * p.set + p.dl)
  if p.cls == 0 || p.cls == 2 then kput m (8 * port + 4) p.cls else m

/-- The packets of a list that an output serves soonest, the earliest of them. -/
def soonest (s : State) (port : Nat) : List FabWait → Option FabWait
  | [] => none
  | w :: l => match soonest s port l with
    | some v => if service s port v.pkt < service s port w.pkt then some v else some w
    | none => some w

/-! ### Across the panel (R327, R329, R330, R363, R369) -/

/-- Whether the data view makes this panel drop a packet that it receives (R492): the counter, if so. -/
def viewDrop (s : State) (p : Packet) : Option Fld :=
  if p.cls == 3 then none
  else if p.unit < 40 && !dieActive s p.unit then some MIR_VIEW_DROPS.inactive_unit
  else if (p.cls == 0 || p.cls == 2) && (on s DATA_VIEW.panel_state || bitOn (kget s.dataFence (p.src / 64) 0) (p.src % 64)) then
    some MIR_VIEW_DROPS.fenced_src
  else none

/-- A packet has reached its unit. -/
def unitTakes (s : State) (p : Packet) : State :=
  match p.cls with
  | 0 => rmtCount { s with rmtHeld := s.rmtHeld ++ [p] }
  | 1 => { s with rmtReplies := s.rmtReplies ++ [p] }
  | 2 => if colType p == 7 then emit s (.mirIn p) else if colType p < 5 then { s with collIn := s.collIn ++ [p] } else s
  | _ => emit s (.mgtIn p)

/-- A packet has crossed the panel: it goes out by its port's engine, or its unit takes it. -/
def arrive (s : State) (p : TcnPkt) : State :=
  match p.out with
  | some (port, n) => launch s port n p.pkt
  | none => unitTakes s p.pkt

/-- A packet crosses the Tecen links of the panel from where it stands, hop by hop in the channels of its class; without a way on, it waits at the
node it has reached. -/
def carry (s : State) (hold : Bool) (p : TcnPkt) : State :=
  let h := tcnWalk s hold p.pkt.cls p.dst maxHops ⟨p.node, p.via, p.esc⟩
  if h.node == p.dst then arrive s p else { s with tcn := s.tcn ++ [{ p with node := h.node, via := h.via, esc := h.esc }] }

/-- Every waiting packet of the panel's network goes on as far as it can, the oldest first, once for each pass. -/
def tcnPass (hold : Bool) (s : State) : State := s.tcn.foldl (fun s p => carry { s with tcn := s.tcn.erase p } hold p) s
def tcnRun (hold : Bool) : (passes : Nat) → State → State
  | 0, s => s
  | n + 1, s => if s.tcn.isEmpty then s else tcnRun hold n (tcnPass hold s)

/-- Let the panel's network move all it can: each pass may free channels for the next. -/
def tcnDrain (hold : Bool) (s : State) : State := tcnRun hold (s.tcn.length + 1) s

/-- The units that a packet goes to on this panel: the one it names, or every active die of that die's row or column (R369). -/
def unitsNamed (s : State) (p : Packet) : List Nat :=
  match p.unitMc with
  | 1 => (List.range 40).filter fun d => d / 8 == p.unit / 8 && dieActive s d
  | 2 => (List.range 40).filter fun d => d % 8 == p.unit % 8 && dieActive s d
  | _ => [p.unit]

/-- A packet leaves a receive buffer for its unit, unless the data view drops it (R492). It is acknowledged to its source, which alone knows
whether it holds a slot for it (DEDUCED, log 124); the packet, or a copy for each die it names, crosses the panel. -/
def deliver (s : State) (input : Nat) (p : Packet) : State :=
  match viewDrop s p with
  | some f => incSat s f
  | none =>
    let s := if p.mc == 0 && p.cls != 1 then sendPacket s .none (ackPacket s p) else s
    (unitsNamed s p).foldl (fun s u => carry s false ⟨{ p with unit := u }, engineNode (portEngine s input), none, u, false, none⟩) s

/-- A packet goes out by a port, from a node of the panel: its credits are spent until they return, and it crosses the panel to an engine. -/
def putOut (s : State) (src port : Nat) (p : Packet) : State :=
  let k := 16 * port + pktVc p
  let s := { s with
    fabCredits := kput s.fabCredits k (kget s.fabCredits k 0 - pktUnits p)
    fabSent := s.fabSent ++ [(k, pktUnits p, p.epoch)]
    fabTurn := servedTurn s.fabTurn port p }
  let n := portEngine s port
  bumpFree (carry s false ⟨p, src, none, engineNode n, false, some (port, n)⟩)

/-! ### Windows (R365 to R367) -/

/-- The partner entry in use for a destination and class; a pinned one comes first. -/
def partnerOf (s : State) (node cls : Nat) : Option Nat :=
  let l := s.partnerUse.filter fun i => rd s FAB_PARTNER_DATA.node i == node && rd s FAB_PARTNER_DATA.cls i == cls
  match l.find? fun i => on s FAB_PARTNER_DATA.pin i with
  | some i => some i
  | none => l.head?

/-- Whether windows are on for a class (Table 10.8). -/
def windowsOn (s : State) (cls : Nat) : Bool :=
  if cls == 0 then inForce s FAB_CTL.req_win_en == 1 else if cls == 2 then inForce s FAB_CTL.col_win_en == 1 else cls == 3

def classWindow (s : State) (cls : Nat) : Nat :=
  rd s (if cls == 0 then FAB_CTL.req_window else if cls == 2 then FAB_CTL.col_window else FAB_CTL.mgt_window)

/-- Whether a packet takes a windowed slot at its source. -/
def windowed (s : State) (p : Packet) : Bool :=
  p.mc == 0 && p.cls != 1 && (windowsOn s p.cls || (partnerOf s p.dst p.cls).any fun i => on s FAB_PARTNER_DATA.pin i)

/-- An entry for a new pair: a free one, else the least recently used unpinned one with nothing outstanding (R366). -/
def takePartner (s : State) (node cls : Nat) : Option (State × Nat) :=
  let free := if s.partnerUse.length < 4096 then (List.range 4096).find? fun i => !s.partnerUse.contains i else none
  match free.orElse fun _ => s.partnerUse.find? fun i => !on s FAB_PARTNER_DATA.pin i && rd s FAB_PARTNER_DATA.outstanding i == 0 with
  | none => none
  | some i =>
    let s := wr (wr (wr (wr s FAB_PARTNER_DATA.valid i 1) FAB_PARTNER_DATA.node i node) FAB_PARTNER_DATA.cls i cls) FAB_PARTNER_DATA.outstanding i 0
    some ({ wr s FAB_PARTNER_DATA.window i (classWindow s cls) with partnerUse := s.partnerUse.filter (· != i) ++ [i] }, i)

/-- What a windowed packet may do now. -/
inductive WinOut where
  | go (s : State)
  | full
  | noEntry

/-- Take a windowed slot for a packet. -/
def takeSlot (s : State) (p : Packet) : WinOut :=
  if !windowed s p then .go s
  else
    let use (s : State) (i : Nat) : State :=
      incSat { s with partnerUse := s.partnerUse.filter (· != i) ++ [i] } FAB_PARTNER_DATA.outstanding i
    match partnerOf s p.dst p.cls with
    | some i =>
      let w := if on s FAB_PARTNER_DATA.pin i then rd s FAB_PARTNER_DATA.window i else classWindow s p.cls
      if rd s FAB_PARTNER_DATA.outstanding i < w then .go (use s i) else .full
    | none => match takePartner s p.dst p.cls with
      | some (s, i) => .go (use s i)
      | none => .noEntry

/-- One acknowledged or released slot. -/
def freeSlot (s : State) (i : Nat) : State := wr s FAB_PARTNER_DATA.outstanding i (rd s FAB_PARTNER_DATA.outstanding i - 1)

/-! ### Injection (R354, R368) -/

/-- A packet that is not injected: whoever needed it fails at once with TIMEOUT. -/
def injFail (s : State) (own : InjOwner) : State :=
  match own with
  | .remote id => match s.rmtOps.find? (·.id == id) with | some o => rmtFail s o | none => s
  | .coll q idx => collTimeout s q idx
  | .none => s

/-- What injecting one waiting packet comes to: done (sent or failed), or why it waits. -/
inductive InjOut where
  | done (s : State)
  | waits
  | entry

/-- Inject a packet in the set and epoch of its table entry. -/
def tryInject (s : State) (own : InjOwner) (p : Packet) : InjOut :=
  let p := { p with epoch := rd s FAB_EPOCH.current, dl := 0 }
  if p.mc != 1 && !nodeValid s p.dst then .done (injFail (dropCount s FAB_DROPS2.bad_node) own)
  -- a block that is not enabled injects nothing (R380)
  else if !on s FAB_CTL.enable || ((p.cls == 0 || p.cls == 2) && on s DATA_VIEW.panel_state) then .waits
  else if p.mc == 1 then
    if p.cls != 2 && p.cls != 3 then .done (injFail (dropCount s FAB_DROPS2.bad_node) own)
    else
      let (port, p) := mcHop s true p
      if !portUp s port then .done (dropCount s FAB_DROPS.port_down)
      else if creditOk s port p then .done (putOut s (40 + primaryHub s) port p) else .waits
  else
    let mode := bankEntry s p.epoch p.dst / 4 % 4
    if 2 ≤ mode then .done (injFail (dropCount s FAB_DROPS.unreachable) own)
    else
      let (port, p) := routePacket s 5 { p with set := mode }
      if port == 5 then .done s
      else match takeSlot s p with
        | .full => .waits
        | .noEntry => .entry
        | .go s =>
          if !portUp s port then .done (dropCount s FAB_DROPS.port_down)
          else if creditOk s port p then .done (putOut s (40 + primaryHub s) port p) else .waits

/-- When an output would serve a packet that waits to be injected (R364); a packet that no output will serve is done with first. -/
def injRank (s : State) (p : Packet) : Nat :=
  let p := { p with epoch := rd s FAB_EPOCH.current, dl := 0 }
  if p.mc == 1 then let (port, p) := mcHop s true p; service s port p + 1
  else
    let mode := bankEntry s p.epoch p.dst / 4 % 4
    if 2 ≤ mode || !nodeValid s p.dst then 0
    else let (port, p) := routePacket s 5 { p with set := mode }; service s port p + 1

/-- Put a waiting packet into the order in which outputs serve them: after every one that is served no later. -/
def orderIn (s : State) (e : InjOwner × Packet) : List (InjOwner × Packet) → List (InjOwner × Packet)
  | [] => [e]
  | x :: l => if injRank s e.2 < injRank s x.2 then e :: x :: l else x :: orderIn s e l

/-- Waiting packets in the order in which outputs serve them (R364). -/
def inOrder (s : State) (l : List (InjOwner × Packet)) : List (InjOwner × Packet) := l.foldl (fun acc e => orderIn s e acc) []

/-- Inject the first packet of a list that can be; the others go on waiting in the queue. -/
def injectFirst : List (InjOwner × Packet) → State → State
  | [], s => s
  | (own, p) :: rest, s =>
    let t := { s with injQ := s.injQ.erase (own, p) }
    match tryInject t own p with
    | .done u => u
    | .waits => injectFirst rest s
    | .entry => incWrap { t with partnerWaits := t.partnerWaits ++ [(own, p)] } FAB_PARTNER_WAITS.waits

/-- PACKET_INJECT (R354, R364, R365, R380). A reply that goes out may let a waiting REQ be delivered (R371). -/
def execPacketInject (s : State) : Res := .next (pullReq (injectFirst (inOrder s s.injQ) s))

/-- PARTNER_ENTRY_WAIT (R366): the first packet that waits for a partner entry goes back to injection once it can have one. -/
def execPartnerEntryWait (s : State) : Res :=
  match s.partnerWaits with
  | [] => .next s
  | (own, p) :: rest =>
    match takeSlot s p with
    | .noEntry => .next s
    | _ => .next { s with partnerWaits := rest, injQ := (own, p) :: s.injQ }

/-! ### Delivery and forwarding (R363, R369 to R371, R374, R379, R380) -/

/-- Send a packet on from a receive buffer, or let it wait there for credit. -/
def forward (s : State) (input vc port : Nat) (p : Packet) : State :=
  if !portUp s port then leaveBuffer (dropCount s FAB_DROPS.port_down) input vc p
  else if creditOk s port p then putOut (leaveBuffer s input vc p) (engineNode (portEngine s input)) port p
  else { s with fabWaits := s.fabWaits ++ [⟨input, port, vc, p⟩] }

/-- PACKET_ROUTE (R351, R368, R374, R379, R380): a packet of a port's receive buffer is forwarded or delivered. `ue` tells that the
region read as uncorrectable, `space` that the receiving unit can take a multicast's local copy. -/
def execPacketRoute (port : Fin 5) (p : Packet) (ue space : Bool) (s : State) : Res :=
  let vc := pktVc p
  let drop (f : Fld) : Res := .next (leaveBuffer (dropCount s f) port vc p)
  if !on s FAB_CTL.enable then drop FAB_DROPS2.disabled
  else if !portUp s port then .next (dropCount s FAB_DROPS.port_down)
  else if ue then drop FAB_DROPS2.buf_ue
  else if bankState s p.epoch != 2 then drop FAB_DROPS.epoch
  else if p.mc == 1 then
    let s := if space then deliver s port p else dropCount s FAB_DROPS2.mcast_local
    if p.mcSpan ≤ 1 then .next (leaveBuffer s port vc p)
    else let (out, q) := mcHop s false p; .next (forward s port vc out { q with mcSpan := p.mcSpan - 1 })
  else
    let (out, q) := routePacket s port p
    if out != 5 then .next (forward s port vc out q)
    -- a REQ waits for the remote engine's space, and for the RSP credit of its reply (R371)
    else if q.cls == 0 && (1024 ≤ s.rmtHeld.length || !repliesOut s) then .next { s with fabWaits := s.fabWaits ++ [⟨port, 5, vc, q⟩] }
    else .next (deliver (leaveBuffer s port vc q) port q)

/-- Take returned units from what was sent on a channel, oldest first. -/
def retireSent (k : Nat) : (units : Nat) → List (Nat × Nat × Nat) → List (Nat × Nat × Nat)
  | _, [] => []
  | n, (a, u, e) :: l =>
    if a != k || n == 0 then (a, u, e) :: retireSent k n l
    else if u ≤ n then retireSent k (n - u) l
    else (a, u - n, e) :: l

/-- Send what waits for a port's credit, in the order in which the output serves its channels (R364). A packet whose receive region cannot be
read is dropped as it is read back (R380, R621). -/
def drainWaits : (fuel port : Nat) → State → State
  | 0, _, s => s
  | n + 1, port, s =>
    match soonest s port (s.fabWaits.filter fun w => w.output == port && creditOk s port w.pkt) with
    | none => s
    | some w =>
      let s := leaveBuffer { s with fabWaits := s.fabWaits.erase w } w.input w.vc w.pkt
      drainWaits n port (if bufHole s w.input then dropCount s FAB_DROPS2.buf_ue else putOut s (engineNode (portEngine s w.input)) port w.pkt)

/-- CREDIT_RETURN (R360): credits of a channel come back to a port, and packets that waited for them go out. -/
def execCreditReturn (port : Fin 5) (vc : Fin 16) (units : BitVec 20) (s : State) : Res :=
  if !portUp s port then .next s
  else
    let k := 16 * port.val + vc.val
    let s := { s with fabCredits := kput s.fabCredits k (kget s.fabCredits k 0 + units.toNat), fabSent := retireSent k units.toNat s.fabSent }
    .next (drainWaits s.fabWaits.length port s)

/-- WINDOW_ACK (R365): a destination acknowledges a windowed packet of a class. -/
def execWindowAck (node : BitVec 14) (cls : Fin 4) (s : State) : Res :=
  match partnerOf s node.toNat cls with
  | some i => .next (freeSlot s i)
  | none => .next s

/-- WINDOW_SLOT_RELEASE (R365): the acknowledgement of a slot has not come 25 ms after its packet left. -/
def execWindowSlotRelease (i : Fin 4096) (s : State) : Res := .next (freeSlot s i)

/-- RESIDENCE_DROP (R377): a waiting packet, by its place among them, has waited longer than residence_us. -/
def execResidenceDrop (n : BitVec 32) (s : State) : Res :=
  match s.fabWaits[n.toNat]? with
  | some w => .next (leaveBuffer (dropCount { s with fabWaits := s.fabWaits.eraseIdx n.toNat } FAB_DROPS.residence) w.input w.vc w.pkt)
  | none => .next s

/-! ### Ports (R346, R347, R361, R362, R379) -/

/-- PORT_DOWN (R346, R361, R379). -/
def execPortDown (port : Fin 5) (lost : BitVec 16) (s : State) : Res :=
  -- packets lost on a link that has already failed count the same way
  if portUp s port || lost.toNat == 0 then .next (portDown s port lost.toNat)
  else .next (setBit (incSat s FAB_DROPS.port_down 0 lost.toNat) FAB_STATUS.drops_seen)

/-- The node that R343 expects at an X or Y port; none where no link is. -/
def expectedNode (s : State) (port : Nat) : Option Nat :=
  let (me, dim, wrap) := if port < 2 then (myX s, rd s FAB_COORD.dim_x, on s FAB_COORD.wrap_x) else (myY s, rd s FAB_COORD.dim_y, on s FAB_COORD.wrap_y)
  let dir := port % 2
  if dim ≤ 1 || (wrapHop dim me dir && !wrap) then none
  else
    let c := if dir == 0 then (me + 1) % dim else (me + dim - 1) % dim
    some (if port < 2 then myZ s * 2048 + myY s * 64 + c else myZ s * 2048 + c * 64 + myX s)

/-- Whether a port's region holds too little for its full rate (R362). -/
def showRate (s : State) (port : Nat) : State :=
  let need := rd s FAB_PORT_STATUS.engines port * 1024 * (rd s FAB_PORT_STATUS.rtt_ns port + 2000)
  wr s FAB_PORT_STATUS.rate_limited port (if portUp s port && rd s FAB_PORT_BUF.size_mib port * 2 ^ 20 < need then 1 else 0)

/-- Lend the unreserved units of a region to the 16 channels, by free shares. -/
def lendCredits (s : State) (port : Nat) : State :=
  let spare := rd s FAB_PORT_BUF.size_mib port * 2 ^ 14 - 16 * 256
  ((List.range 16).foldl (fun (acc : State × Nat) v =>
    let n := if v == 15 then acc.2 else choose s v (acc.2 + 1)
    (if n == 0 then acc.1 else emit acc.1 (.fabCredit port v n), acc.2 - n)) (s, spare)).1

/-- PORT_TRAIN (R346, R347, R361, R362, R459): a port with an engine in service trains; an X or Y port learns its neighbour's node ID
from its engines. Each channel starts with the credits of its reserved 16 KiB; the rest of this port's own region is lent to the channels of its
sender, in shares that are the receiver's free choice (R361). -/
def execPortTrain (port : Fin 5) (s : State) : Res :=
  let es := (portEngines port).filter (engineUp s)
  let rtt := es.foldl (fun m n => max m (rd s OPT_PARTNER.rtt_ns n)) 0
  match es with
  | [] => .next s
  | n :: _ =>
    if portUp s port then .next s
    else if port.val < 4 && expectedNode s port != some (rd s OPT_PARTNER.node n) then .next (raise s 0x011)
    else
    let s := { s with fabCredits := (List.range 16).foldl (fun m v => kput m (16 * port.val + v) 256) s.fabCredits }
    let s := wr (wr s FAB_PORT_STATUS.up port 1) FAB_PORT_STATUS.rtt_ns port rtt
    .next (bumpFree (lendCredits (showRate s port) port))

/-! ### Registers (R373 to R377, R380, R381) -/

/-- Ports that the torus uses: those of an axis longer than 1. -/
def portsUsed (s : State) : List Nat :=
  (if 1 < rd s FAB_COORD.dim_x then [0, 1] else []) ++ (if 1 < rd s FAB_COORD.dim_y then [2, 3] else []) ++ (if 1 < rd s FAB_COORD.dim_z then [4] else [])

/-- FAB_COORD is valid (R342). -/
def coordOk (s : State) : Bool :=
  let d (f : Fld) (n : Nat) : Bool := 1 ≤ rd s f && rd s f ≤ n
  d FAB_COORD.dim_x 40 && d FAB_COORD.dim_y 32 && d FAB_COORD.dim_z 8 && nodeValid s (rd s FAB_COORD.node)

/-- ROUTE_TABLE_CHANGE (R330, R331): with new injection into the escape channels held, they drain; the tables of the links now in service are loaded
everywhere; the hold is released, and what waited goes on by the new tables. -/
def execRouteTableChange (s : State) : Res :=
  let s := tcnDrain true s
  let links := linksUp s
  let nodes := (List.range 42).filter fun v => 40 ≤ v || dieActive s v
  let cut := nodes.flatMap fun v =>
    let m := hopsTo links v
    (nodes.filter fun w => (kfind m w).isNone).map fun w => (w, v)
  .next (tcnDrain false (raiseIf (!cut.isEmpty) { s with routeLinks := links, cut := cut } 0x007))

/-- FAB_ENABLE (R375, R380): a write of FAB_CTL.enable. -/
def execFabEnable (v : Bool) (s : State) : Res :=
  if !v then .next (wr s FAB_CTL.enable 0 0)
  else if on s FAB_CTL.enable then .next s
  else if bankState s (rd s FAB_EPOCH.current) != 2 || !coordOk s || (portsUsed s).any fun p => rd s FAB_PORT_BUF.size_mib p == 0 then
    .next (setBit s FAB_STATUS.cfg_ignored)
  else .next (wr (wr (bringIn (bringIn s FAB_CTL.col_win_en) FAB_CTL.req_win_en) FAB_STATUS.cfg_pending 0 0) FAB_CTL.enable 0 1)

/-- A write of FAB_EPOCH.current (R375): whether it was taken. -/
def epochWrite (s : State) (b : Nat) : State × Bool :=
  if bankState s b != 2 then (setBit s FAB_STATUS.cfg_ignored, false)
  else if rd s FAB_EPOCH.current == b then (s, true)
  else (incWrap (wr s FAB_EPOCH.current 0 b) FAB_EPOCH.flips, true)

/-- BANK_LOAD (R373): FAB_BANK_CTL.go with op LOAD. -/
def execBankLoad (bank : Fin 2) (s : State) : Res :=
  if bankState s bank == 0 && bankHold s bank == 0 then
    .next (putBankState { s with bankLoads := kput s.bankLoads bank (rd s FAB_BANK_IMG.dpa / 64 * 64) } bank 1)
  else .next (setBit s FAB_STATUS.cfg_ignored)

/-- Read an image in 64-byte units: its bytes, or the status of the first unit that gives none. -/
def readImage (a : Nat) : (units : Nat) → State → State × (List Byte ⊕ Nat)
  | 0, s => (s, .inl [])
  | n + 1, s =>
    let g := readFlat s a 64
    if g.status != stOk then (g.s, .inr g.status)
    else match readImage (a + 64) n g.s with
      | (s, .inl l) => (s, .inl (g.data ++ l))
      | r => r

/-- Put a bank's image: entries that are not 0 are listed. -/
def putImage (m : KMap Nat) (bank : Nat) (bs : List Byte) : KMap Nat :=
  ((List.range bs.length).zip bs).foldl (fun m (i, b) => if b == 0 then m else kput m (bank * 16384 + i) b.toNat) (m.filter fun e => e.1 / 16384 != bank)

/-- BANK_LOAD_DONE (R373): the image read of a LOADING bank ends. One that still waits, or that a far port leaves unanswered, has not ended: only a hole
or an uncorrectable unit fails it (Table 10.10). -/
def execBankLoadDone (bank : Fin 2) (s : State) : Res :=
  if bankState s bank != 1 then .next s
  else
    let a := kget s.bankLoads bank 0
    match readImage a 256 s with
    | (s, .inl bs) => .next (putBankState { s with bankLoads := kdel s.bankLoads bank, fabBanks := putImage s.fabBanks bank bs } bank 2)
    | (s, .inr st) =>
      if st == stUncorrectable then .next (raise (putBankState { s with bankLoads := kdel s.bankLoads bank } bank 0) 0x012) else .next s

/-- The hold that a freed bank waits out, in ms (R377). -/
def epochHold (s : State) : Nat := max (rd s FAB_CTL.epoch_hold_ms) (cdiv (75 * (rd s FAB_CTL.residence_us + 10)) 1000)

/-- BANK_FREE (R373): FAB_BANK_CTL.go with op FREE; waiting packets of the bank's epoch are dropped. -/
def execBankFree (bank : Fin 2) (s : State) : Res :=
  if bankState s bank != 2 then .next s
  else if rd s FAB_EPOCH.current == bank.val then .next (setBit s FAB_STATUS.cfg_ignored)
  else
    let gone := s.fabWaits.filter fun w => w.pkt.epoch == bank.val
    let s := { s with fabWaits := s.fabWaits.filter (fun w => !gone.contains w), fabBanks := s.fabBanks.filter fun e => e.1 / 16384 != bank.val }
    let s := gone.foldl (fun s w => leaveBuffer (dropCount s FAB_DROPS.epoch) w.input w.vc w.pkt) s
    .next (putBankHold (putBankState s bank 0) bank (epochHold s))

/-- EPOCH_HOLD_EXPIRY (R377). -/
def execEpochHoldExpiry (bank : Fin 2) (s : State) : Res := .next (putBankHold s bank 0)

/-- FAB_DROPS_CLEAR: a write of FAB_DROPS_CLR.clear. -/
def execFabDropsClear (s : State) : Res :=
  .next ([FAB_DROPS.unreachable, FAB_DROPS.residence, FAB_DROPS.port_down, FAB_DROPS.epoch, FAB_DROPS2.buf_ue, FAB_DROPS2.disabled,
    FAB_DROPS2.mcast_local, FAB_DROPS2.bad_node].foldl (fun s f => wr s f 0 0) s)

/-- Pinned entries. -/
def pinCount (s : State) : Nat := (s.partnerUse.filter fun i => on s FAB_PARTNER_DATA.pin i).length

/-- PARTNER_PIN (R367): a write of FAB_PARTNER_DATA of an entry, with pin, class, node and window. -/
def execPartnerPin (i : Fin 4096) (pin : Bool) (cls : Fin 4) (node : BitVec 14) (window : BitVec 8) (s : State) : Res :=
  let was := on s FAB_PARTNER_DATA.pin i
  -- pinned entries are expert controls (R53)
  if rd s PNL_PROFILE.fabric != 15 then .next (setBit s PNL_STATUS.profile_rejected)
  else if pin then
    if cls.val == 1 || (!was && 1024 ≤ pinCount s) then .next (setBit s FAB_STATUS.cfg_ignored)
    else
      let same := s.partnerUse.contains i.val && rd s FAB_PARTNER_DATA.node i == node.toNat && rd s FAB_PARTNER_DATA.cls i == cls.val
      let s := wr (wr (wr s FAB_PARTNER_DATA.valid i 1) FAB_PARTNER_DATA.pin i 1) FAB_PARTNER_DATA.cls i cls.val
      let s := wr (wr s FAB_PARTNER_DATA.node i node.toNat) FAB_PARTNER_DATA.window i (max 1 window.toNat)
      let s := if same then s else wr s FAB_PARTNER_DATA.outstanding i 0
      .next { s with partnerUse := s.partnerUse.filter (· != i.val) ++ [i.val] }
  else if !was then .next s
  else
    let s := wr s FAB_PARTNER_DATA.pin i 0
    -- a released entry with packets outstanding stays in use until they are acknowledged
    if rd s FAB_PARTNER_DATA.outstanding i != 0 then .next (wr s FAB_PARTNER_DATA.window i (classWindow s (rd s FAB_PARTNER_DATA.cls i)))
    else
      let s := [FAB_PARTNER_DATA.valid, FAB_PARTNER_DATA.cls, FAB_PARTNER_DATA.node, FAB_PARTNER_DATA.window].foldl (fun s f => wr s f i 0) s
      .next { s with partnerUse := s.partnerUse.filter (· != i.val) }

end Sys2Proof.Machine
end

