-- ==== Sys2Proof/Machine/Optics.lean ====
section
/-!
DEFINITION. Optical engines (file 13, R449 to R476): lane pairs, rings, lasers, spares, bring-up.
-/

namespace Sys2Proof.Machine

/-! ### Lanes and engines (R472 to R474) -/

/-- States of a laser (OPT_LASER_DATA). -/
def lzOff : Nat := 0
def lzWarming : Nat := 1
def lzLocked : Nat := 2
def lzInService : Nat := 3
def lzFailed : Nat := 4

/-- The number of laser (b, i). -/
def laserIdx (n b i : Nat) : Nat := 32 * n + 16 * b + i

def laserState (s : State) (n b i : Nat) : Nat := rd s OPT_LASER_DATA.state (laserIdx n b i)

/-- Whether an engine may run: enabled, its unit in service, the panel in P0 or P1 (R474). -/
def optRuns (s : State) (n : Nat) : Bool :=
  on s OPT_CTL.enable n && unitInService s (280 + n) && !bitOn (rd s THM_SHUT.engines) n && !s.pw.offP3 && !bitOn (rd s SEC_STATUS.image_fail) 3 &&
  (rd s PWR_PSTATE.current ≤ 1 || s.th.waking)

/-- The port of an engine (Table 10.2). -/
def enginePort (n : Nat) : Nat := ((List.range 5).find? fun p => (portEngines p).contains n).getD 4

/-- Bring an engine's status, and its port, into step with its lanes (R346, R473). -/
def optStatus (s : State) (n : Nat) : State :=
  let st := allPairs.map fun (f, i) => laneState s n f i
  let up := (st.filter (· == lnUp)).length
  let fibres := (List.range 8).foldl (fun m f => if (List.range 16).any fun i => laneState s n f i == lnUp then m + 2 ^ f else m) 0
  let warming := (List.range 32).any fun k => rd s OPT_LASER_DATA.state (32 * n + k) == lzWarming
  let state :=
    if !optRuns s n then 0 else if up != 0 then 4 else if st.contains lnTraining then 3
    else if st.contains lnLocking || st.contains lnWalking then 2 else if warming then 1 else 5
  let was := engineUp s n
  let s := wr (wr (wr s OPT_STATUS.lanes_up n up) OPT_STATUS.fibres_up n fibres) OPT_STATUS.state n state
  let s := raiseIf (state == 4 && !was) s (srcOpt n 6)
  let port := enginePort n
  let es := (portEngines port).filter (engineUp s)
  let s := wr s FAB_PORT_STATUS.engines port es.length
  if es.isEmpty then portDown s port 0
  else if portUp s port then showRate (wr s FAB_PORT_STATUS.rtt_ns port (es.foldl (fun m n => max m (rd s OPT_PARTNER.rtt_ns n)) 0)) port else s

/-- Put a lane pair into a state, at both its entries. -/
def putLane (s : State) (n f i st : Nat) : State :=
  wr (wr s OPT_LANE_DATA.state (laneIdx n 0 f i) st) OPT_LANE_DATA.state (laneIdx n 1 f i) st

/-- Empty the retry buffer of a lane pair. -/
def flitsGone (s : State) (k : Nat) : State := { s with laneFlits := kdel s.laneFlits k }

/-- Packets are dropped because no lane of their engine is left, and counted (R471). -/
def flitsLost (s : State) (lost : Nat) : State :=
  if lost == 0 then s else setBit (incSat s FAB_DROPS.port_down 0 lost) FAB_STATUS.drops_seen

/-- Packets that begin in flits of a closing lane's retry buffer that its partner has not had: how many flits the partner's report takes away is
open (R471). -/
def heldPackets (s : State) (n f i : Nat) : Nat := ((laneHeld s (pairIdx n f i)).filter (·.first)).length

/-- A lane pair leaves service by handover (R471): the flits that its partner has not had go on another lane in service, in its numbers; with no
lane left their packets are dropped, `lost` of them where the event tells it. -/
def handOver (s : State) (n f i : Nat) (lost : Option Nat) : State :=
  let k := pairIdx n f i
  if laneState s n f i != lnUp && laneState s n f i != lnPaused then s
  else
    let left := laneHeld s k
    let lanes := openLanes s n left.length fun x => x != (f, i)
    match lanes[choose s (2 ^ 32 + 8 + n) lanes.length]? with
    | none => flitsLost (flitsGone s k) (lost.getD (heldPackets s n f i))
    | some (g, j) =>
      let s := emit (flitsGone s k) (.handover n f i)
      let q := kget s.laneSeq (pairIdx n g j) 0
      if left.isEmpty then s
      else sendFlits s n g j (((List.range left.length).zip left).map fun (d, x) => { x with seq := (q + d) % 4096 })

/-- A lane pair goes to a state out of service. -/
def laneOut (s : State) (n f i st : Nat) (lost : Option Nat) : State := optStatus (putLane (handOver s n f i lost) n f i st) n

/-- Ticks of 10 s and of 1 s (R572). -/
def tenSeconds : Nat := 1000000000
def oneSecond : Nat := 100000000

/-- A lane pair is locked again from LOCKING, or retired at relock_limit within 10 s (R470, R472). -/
def relock (s : State) (n f i : Nat) (lost : Option Nat) : State :=
  let now := hubTick s
  let k := pairIdx n f i
  let past := (kget s.relockTicks k []).filter fun t => since now t < tenSeconds
  let s := { s with relockTicks := kput s.relockTicks k (past ++ [now]) }
  let s := incSat (incSat (incSat s OPT_LANE_DATA.relocks (laneIdx n 0 f i)) OPT_LANE_DATA.relocks (laneIdx n 1 f i)) OPT_ERR.relocks n
  if rd s OPT_CTL.relock_limit n ≤ past.length + 1 then
    raise (incSat (laneOut s n f i lnRetired lost) OPT_ERR.lanes_retired n) (srcOpt n 5)
  else laneOut s n f i lnLocking lost

/-! ### Retry (R457 to R459) -/

/-- The flits of a retry buffer after the one of a number; all of them, if it holds no such flit. -/
def flitsAfter (seq : Nat) (l : List LaneFlit) : List LaneFlit := if l.any (·.seq == seq) then (l.dropWhile (·.seq != seq)).drop 1 else l

/-- FLIT_NAK (R457): this end's receiver finds a flit after `seq` bad (`mine`), in an uncorrectable codeword or not; or a lane word
names the last good flit and the sender replays every later one. -/
def execFlitNak (n : OptNo) (f : FibreNo) (i : LaneNo) (mine ucw : Bool) (seq : BitVec 12) (s : State) : Res :=
  let st := laneState s n f i
  if st != lnUp && st != lnPaused then .next s
  else if mine then
    let s := if ucw then incSat s OPT_FEC.uncorrectable n else s
    let s := { s with laneAck := kput s.laneAck (pairIdx n f i) seq.toNat }
    .next (emit (incSat s OPT_ERR.crc_errors n) (.flitNak n f i (laneWord i seq.toNat 1 f)))
  else
    -- the flits up to the last good one are acknowledged; every later one is sent again
    let k := pairIdx n f i
    let l := flitsAfter seq.toNat (kget s.laneFlits k [])
    .next (emit { s with laneFlits := kput s.laneFlits k l } (.flitReplay n f i ((seq.toNat + 1) % 4096) (l.map LaneFlit.bytes)))

/-- FLIT_ACK_TIMEOUT (R458): a flit has stayed unacknowledged beyond the lane's round trip plus 4 µs. -/
def execFlitAckTimeout (n : OptNo) (f : FibreNo) (i : LaneNo) (seq : BitVec 12) (s : State) : Res :=
  let st := laneState s n f i
  if st == lnUp || st == lnPaused then
    .next (emit s (.flitReplay n f i seq.toNat (((kget s.laneFlits (pairIdx n f i) []).dropWhile (·.seq != seq.toNat)).map LaneFlit.bytes)))
  else .next s

/-! ### Rings (R460 to R465) -/

/-- RING_TUNE (R460, R470): a ring's loop has a new heater setting and lock error; `held` tells that an error above 8 GHz has lasted
100 µs. -/
def execRingTune (n : OptNo) (dir : Fin 2) (f : FibreNo) (i : LaneNo) (heater : BitVec 16) (err : BitVec 8) (held : Bool) (s : State) : Res :=
  if !optRuns s n then .next s
  else
    let k := laneIdx n dir f i
    let s := wr (wr s OPT_LANE_DATA.heater k heater.toNat) OPT_LANE_DATA.lock_err k err.toNat
    let st := laneState s n f i
    if held && (err.toInt < -8 || 8 < err.toInt) && (st == lnUp || st == lnPaused) then .next (relock s n f i none) else .next s

/-- Cut an integer to a heater's range. -/
def heaterCut (x : Int) : Nat := if x < 0 then 0 else if 65535 < x then 65535 else x.toNat

/-- FEED_FORWARD_NOTICE (R461, R462): the change that a notice announced takes effect: a change of `amount` at a unit of Table 13.8. A
keep-alive announces no change. -/
def execFeedForwardNotice (n : OptNo) (unit : Fin 2) (kind : Fin 2) (amount : BitVec 16) (s : State) : Res :=
  let s := wr s OPT_STATUS.ff_stale n 0
  if !on s OPT_CTL.ff_en n || !optRuns s n then .next s
  else
    .next ((List.range 256).foldl (fun s r =>
      let k := 256 * n.val + r
      let c := kget s.ffCoef (4 * k + 2 * unit.val + kind.val) 0
      if c == 0 then s
      else wr s OPT_LANE_DATA.heater k (heaterCut ((rd s OPT_LANE_DATA.heater k : Int) + (rd s OPT_CTL.ff_gain n : Int) * c * amount.toInt / 128))) s)

/-- FF_STALE (R462). -/
def execFfStale (n : OptNo) (s : State) : Res := .next (setBit s OPT_STATUS.ff_stale n)

/-- The second test of R463: a ring's heater setting, changed by `shift` to refer it to the commissioning temperature, differs from the commissioned
setting by more than 100 GHz. A heater tunes over 1.2 × 3.4 THz = 4,080 GHz in 65,536 steps, taken as linear (DEDUCED, log 140); a difference above
1.7 THz is above 100 GHz too. A ring that was never commissioned cannot fail it. -/
def ringFails (s : State) (k : Nat) (shift : BitVec 17) : Bool :=
  match kfind s.commHeater k with
  | none => false
  | some c => 100 * 65536 < (((rd s OPT_LANE_DATA.heater k : Int) + shift.toInt - c).natAbs) * 4080

/-- Whether a ring of a lane fails the second test at either end (R464). -/
def laneFails (s : State) (n f i : Nat) (test : RingTest) : Bool :=
  ringFails s (laneIdx n 0 f i) test.tx || ringFails s (laneIdx n 1 f i) test.rx || test.far

/-- WRONG_LOCK (R463, R464): a lane is wrongly locked. With a ring that fails the second test it walks; with none, both ends lock it again. -/
def execWrongLock (n : OptNo) (f : FibreNo) (i : LaneNo) (test : RingTest) (lost : BitVec 10) (s : State) : Res :=
  let st := laneState s n f i
  if st != lnUp && st != lnPaused then .next s
  else
    let s := laneOut (incSat s OPT_ERR.wrong_locks n) n f i (if laneFails s n f i test then lnWalking else lnLocking) (some lost.toNat)
    .next (raise s (srcOpt n 1))

/-- WALK_COMPLETE (R464, R472). -/
def execWalkComplete (n : OptNo) (f : FibreNo) (i : LaneNo) (s : State) : Res :=
  if laneState s n f i == lnWalking then .next (optStatus (putLane s n f i lnTraining) n) else .next s

/-! ### Lasers (R466 to R469) -/

/-- The bank in service of a wavelength. -/
def bankOf (s : State) (n i : Nat) : Option Nat := (List.range 2).find? fun b => laserState s n b i == lzInService

/-- Retire a wavelength (R469): lane i of every fibre, its laser FAILED in the hub store. -/
def retireWave (s : State) (n b i : Nat) : State :=
  let s := wr s OPT_LASER_DATA.state (laserIdx n b i) lzFailed
  (List.range 8).foldl (fun s f =>
    if laneState s n f i == lnRetired then s else incSat (laneOut s n f i lnRetired none) OPT_ERR.lanes_retired n) s

/-- Whether the other laser of a wavelength can take over, and preparing it (R467). -/
def spareFree (s : State) (n b i : Nat) : Bool := laserState s n (1 - b) i != lzFailed
def warmSpare (s : State) (n b i : Nat) : State :=
  if laserState s n (1 - b) i == lzOff then wr s OPT_LASER_DATA.state (laserIdx n (1 - b) i) lzWarming else s

/-- 10·log₁₀ (p / c) in 0.1 dB is at least v: (p / c)^100 ≥ 10^v. -/
def fadeAtLeast (p c : Nat) (v : Int) : Bool :=
  if 0 ≤ v then c ^ 100 * 10 ^ v.toNat ≤ p ^ 100 else c ^ 100 ≤ p ^ 100 * 10 ^ v.natAbs

/-- The fade of R466 in 0.1 dB, cut to the field's −128 to 127: the value rounded down or, where the measurement says so, up (the spec names no
rounding; log 140). A laser with no commissioned power has no stated fade: the measured value stands. -/
def fadeOf (p c : Nat) (measured : Int) : Int :=
  if c == 0 then measured
  else
    let low : Int := ((List.range 255).countP fun (j : Nat) => fadeAtLeast p c ((j : Int) - 127) : Nat) - 128
    if measured == low + 1 && low != 127 && fadeAtLeast p c low && !(fadeAtLeast c p (-low)) then measured else low

/-- LASER_SAMPLE (R466, Tables 13.9, 13.11): a laser's 100 ms average and the fade that is read from it. A bring-up laser on its grid comes into
service. -/
def execLaserSample (n : OptNo) (b : Fin 2) (i : LaneNo) (power : BitVec 16) (fade : BitVec 8) (s : State) : Res :=
  let k := laserIdx n b i
  let db := fadeOf power.toNat (rd s OPT_LASER_DATA.commissioned_uw k) fade.toInt
  let s := wr (wr s OPT_LASER_DATA.power_uw k power.toNat) OPT_LASER_DATA.fade k (BitVec.ofInt 8 db).toNat
  let st := laserState s n b i
  if st == lzWarming && bankOf s n i == none && optRuns s n && (List.range 8).all (fun f => laneState s n f i == lnDark || laneState s n f i == lnRetired) then
    let s := wr s OPT_LASER_DATA.state k lzInService
    .next (optStatus ((List.range 8).foldl (fun s f => if laneState s n f i == lnDark then putLane s n f i lnLocking else s) s) n)
  else if st != lzInService then .next s
  else
    let loss : Int := -db
    let done := kget s.fadeDone k 0
    let crosses (f : Fld) (bit : Nat) : Bool := (rd s f n : Int) ≤ loss && !bitOn done bit
    let spare := spareFree s n b i
    let warn := crosses OPT_CTL.fade_warn 0
    let swap := crosses OPT_CTL.fade_spare 1
    let retire := crosses OPT_CTL.fade_retire 2 && !spare
    let bits := (if warn then bitSet done 0 else done)
    let bits := (if swap then bitSet bits 1 else bits)
    let bits := (if retire then bitSet bits 2 else bits)
    let s := raiseIf warn { s with fadeDone := kput s.fadeDone k bits } (srcOpt n 2)
    let s := if swap then (if spare then warmSpare s n b i else raise (setBit s OPT_STATUS.no_spare n) (srcOpt n 3)) else s
    .next (if retire then retireWave s n b i else s)

/-- SPARE_SWITCHOVER (R467, R468, R472): a stage of the switch to the spare of a wavelength: 0 the spare is warmed and locked; 1 the line
is switched and its lanes pause; 2 the new line is acquired. -/
def execSpareSwitchover (n : OptNo) (i : LaneNo) (stage : Fin 3) (s : State) : Res :=
  match (List.range 2).find? fun b => laserState s n b i == lzWarming || laserState s n b i == lzLocked with
  | none =>
    -- the new line is in service already: its paused lanes go on
    if stage.val == 2 then
      .next (optStatus ((List.range 8).foldl (fun s f => if laneState s n f i == lnPaused then putLane s n f i lnUp else s) s) n)
    else .next s
  | some b =>
    let k := laserIdx n b i
    -- a laser that warms at a bring-up is no spare
    if bankOf s n i == none && (List.range 8).all (fun f => laneState s n f i == lnDark || laneState s n f i == lnRetired) then .next s
    else if stage.val == 0 then .next (wr s OPT_LASER_DATA.state k lzLocked)
    else if stage.val == 1 && laserState s n b i == lzLocked then
      let s := wr (wr s OPT_LASER_DATA.state k lzInService) OPT_LASER_DATA.state (laserIdx n (1 - b) i) lzFailed
      let s := (List.range 8).foldl (fun s f => if laneState s n f i == lnUp then putLane s n f i lnPaused else s) s
      .next (optStatus (incSat s OPT_ERR.switchovers n) n)
    else .next s

/-- SUDDEN_LOSS (R468): the laser in service of a wavelength is lost; `lost` packets have no lane left to go on. -/
def execSuddenLoss (n : OptNo) (i : LaneNo) (lost : BitVec 10) (s : State) : Res :=
  match bankOf s n i with
  | none => .next s
  | some b =>
    if spareFree s n b i then
      let s := warmSpare (wr s OPT_LASER_DATA.state (laserIdx n b i) lzFailed) n b i
      .next ((List.range 8).foldl (fun s f => if laneState s n f i == lnRetired then s else laneOut s n f i lnLocking (some lost.toNat)) s)
    else .next (retireWave s n b i)

/-! ### Lane health and training (R470, R472) -/

/-- Whether a 1 ms interval is above 2.4 × 10⁻⁴ (36.2 dB) by its whole number of dB; `high` decides where the rounding leaves it open (log 140). -/
def berHigh (db : Nat) (high : Bool) : Bool := db < 36 || (db ≤ 37 && high)

/-- BER_INTERVAL (R470): a receiver's 1 ms interval: its ratio in dB, whether it is above 2.4 × 10⁻⁴, corrected symbols and uncorrectable
codewords. -/
def execBerInterval (n : OptNo) (f : FibreNo) (i : LaneNo) (db : BitVec 8) (high : Bool) (corrected ucws : BitVec 32) (lost : BitVec 10) (s : State) : Res :=
  if laneState s n f i != lnUp then .next s
  else
    let s := wr s OPT_LANE_DATA.ber_db (laneIdx n 1 f i) db.toNat
    let s := incSat (incSat s OPT_FEC.corrected n corrected.toNat) OPT_FEC.uncorrectable n ucws.toNat
    let k := pairIdx n f i
    let s := match berHigh db.toNat high, kfind s.berTick k with
      | true, some t => if oneSecond ≤ since (hubTick s) t then raise { s with berTick := kput s.berTick k (hubTick s) } (srcOpt n 4) else s
      | true, none => raise { s with berTick := kput s.berTick k (hubTick s) } (srcOpt n 4)
      | false, _ => s
    .next (if rd s OPT_CTL.ucw_limit n ≤ ucws.toNat then relock s n f i (some lost.toNat) else s)

/-- LANE_LOCKED (R452, R472): the rings of a lane are locked at both ends, and its codewords carry an identity: node, engine, fibre. A
fibre from another panel or engine than the engine's other fibres stays out of service. -/
def execLaneLocked (n : OptNo) (f : FibreNo) (i : LaneNo) (node : BitVec 14) (engine : Fin 32) (s : State) : Res :=
  if laneState s n f i != lnLocking then .next s
  else
    let m := rd s OPT_PARTNER.fibres_matched n
    if m != 0 && (rd s OPT_PARTNER.node n != node.toNat || rd s OPT_PARTNER.engine n != engine.val) then
      .next (raise (setBit s OPT_STATUS.miswired n) (srcOpt n 0))
    else
      let s := wr (wr s OPT_PARTNER.node n node.toNat) OPT_PARTNER.engine n engine.val
      .next (optStatus (putLane (wr s OPT_PARTNER.fibres_matched n (bitSet m f)) n f i lnTraining) n)

/-- LANE_LOCK_TIMEOUT (R472): no lock within 0.5 s of the partner's light arriving. -/
def execLaneLockTimeout (n : OptNo) (f : FibreNo) (i : LaneNo) (s : State) : Res :=
  if laneState s n f i == lnLocking then .next (relock s n f i none) else .next s

/-- LANE_TRAINED (R459, R472): a lane completes training and joins the port; its fibre pair's round trip is measured. -/
def execLaneTrained (n : OptNo) (f : FibreNo) (i : LaneNo) (rtt : BitVec 16) (s : State) : Res :=
  if laneState s n f i != lnTraining then .next s
  else
    let s := wr s OPT_PARTNER.rtt_ns n (max (rd s OPT_PARTNER.rtt_ns n) rtt.toNat)
    .next (optStatus (putLane s n f i lnUp) n)

/-! ### Enable, power states, registers (R474 to R476) -/

/-- Every lane of an engine closes at once: the packets of the flits its partner has not had are lost, and the retry buffers are empty. -/
def flitsDark (s : State) (n : Nat) : State :=
  let busy := allPairs.filter fun (f, i) => laneState s n f i == lnUp || laneState s n f i == lnPaused
  let s := flitsLost s (busy.foldl (fun a (f, i) => a + heldPackets s n f i) 0)
  { s with laneFlits := s.laneFlits.filter fun e => e.1 / 128 != n }

/-- An engine goes dark: lanes, lasers, partner. With every lane closing at once, the packets of the flits its partner has not had are dropped and
counted (R471, R472). -/
def optDark (s : State) (n : Nat) : State :=
  let s := flitsDark s n
  let s := allPairs.foldl (fun s (f, i) => putLane s n f i lnDark) s
  let s := (List.range 32).foldl (fun s k => if rd s OPT_LASER_DATA.state (32 * n + k) == lzFailed then s else wr s OPT_LASER_DATA.state (32 * n + k) lzOff) s
  optStatus (wr (wr s OPT_PARTNER.fibres_matched n 0) OPT_PARTNER.rtt_ns n 0) n

/-- Bring-up from dark (Table 13.11): one laser of each wavelength warms, the spare where the last fade was at or beyond fade_spare; a
wavelength with both lasers FAILED stays retired (R469). -/
def optBringUp (s : State) (n : Nat) : State :=
  if !optRuns s n then s
  else
    optStatus ((List.range 16).foldl (fun s i =>
      let failed (b : Nat) : Bool := laserState s n b i == lzFailed
      let faded (b : Nat) : Bool := (rd s OPT_CTL.fade_spare n : Int) ≤ -(signed 8 (rd s OPT_LASER_DATA.fade (laserIdx n b i)))
      if failed 0 && failed 1 then (List.range 8).foldl (fun s f => putLane s n f i lnRetired) s
      else
        let b := if failed 0 then 1 else if faded 0 && !failed 1 then 1 else 0
        wr s OPT_LASER_DATA.state (laserIdx n b i) lzWarming) s) n

/-- OPT_ENABLE (R474): a write of OPT_CTL.enable. -/
def execOptEnable (n : OptNo) (v : Bool) (s : State) : Res :=
  let was := on s OPT_CTL.enable n
  let s := wr s OPT_CTL.enable n (if v then 1 else 0)
  if v && !was then .next (optBringUp (wr s OPT_STATUS.cfg_pending n 0) n)
  else if !v && was then .next (optDark s n) else .next s

/-- OPT_CTL_WRITE (R475): a write of OPT_CTL's fields other than enable; a bad threshold makes the write ignored as a whole. -/
def execOptCtlWrite (n : OptNo) (retire spare warn gain : BitVec 8) (relocks ucws : BitVec 4) (ff : Bool) (s : State) : Res :=
  let r := retire.toNat
  let p := spare.toNat
  let w := warn.toNat
  -- an expert field (R53)
  if rd s PNL_PROFILE.optics != 15 then .next (setBit s PNL_STATUS.profile_rejected)
  else if !(w ≤ p && p ≤ r && 10 ≤ r && r ≤ 60 && 5 ≤ p && p ≤ 50 && 5 ≤ w && w ≤ 50) then .next (setBit s OPT_STATUS.cfg_ignored n)
  else
    let s := wr (wr (wr s OPT_CTL.fade_retire n r) OPT_CTL.fade_spare n p) OPT_CTL.fade_warn n w
    let s := wr (wr s OPT_CTL.ff_gain n gain.toNat) OPT_CTL.relock_limit n (max 1 relocks.toNat)
    .next (wr (wr s OPT_CTL.ucw_limit n (max 1 ucws.toNat)) OPT_CTL.ff_en n (if ff then 1 else 0))

/-- OPT_COMMISSION (R476): a write of OPT_COMMISSION.go, over the management path or not, with the coefficients the engine measures. -/
def execOptCommission (n : OptNo) (mgmt : Bool) (coefs : List FfCoef) (s : State) : Res :=
  let life := rd s SEC_STATUS.lifecycle
  if !mgmt || !(life == 0 || life == 3) then .next (setBit s OPT_STATUS.cfg_ignored n)
  else
    let s := (List.range 32).foldl (fun s k => wr s OPT_LASER_DATA.commissioned_uw (32 * n.val + k) (rd s OPT_LASER_DATA.power_uw (32 * n.val + k))) s
    let heat := (List.range 256).foldl (fun m r => kput m (256 * n.val + r) (rd s OPT_LANE_DATA.heater (256 * n.val + r))) s.commHeater
    let mine (k : Nat) : Bool := k / 1024 == n.val
    let coef := coefs.foldl (fun m c => kput m (4 * (256 * n.val + c.ring.toNat) + 2 * c.unit.val + c.kind.val) c.value.toInt) (s.ffCoef.filter fun e => !mine e.1)
    .next { s with commHeater := heat, ffCoef := coef }

/-- OPT_CLEAR (R457, R470): a write of OPT_CLR.clear. -/
def execOptClear (n : OptNo) (s : State) : Res :=
  let s := [OPT_ERR.crc_errors, OPT_ERR.wrong_locks, OPT_ERR.switchovers, OPT_ERR.lanes_retired, OPT_ERR.relocks, OPT_FEC.uncorrectable,
    OPT_FEC.corrected].foldl (fun s f => wr s f n 0) s
  .next ((List.range 256).foldl (fun s r => wr s OPT_LANE_DATA.relocks (256 * n.val + r) 0) s)

end Sys2Proof.Machine
end

