-- ==== Sys2Proof/Machine/Mirror.lean ====
section
/-!
DEFINITION. Mirrors, landings and admission (file 14, R477 to R494).
-/

namespace Sys2Proof.Machine

/-! ### Messages to another panel's mirror engine (R354, R357, R380, R483) -/

/-- What sending COL packets to a panel's mirror engine comes to. -/
inductive MirPath where
  /-- the fabric takes them -/
  | go
  /-- the panel injects nothing now (R380, R492) -/
  | waits
  /-- they are not injected, and what needed them fails with TIMEOUT (R354) -/
  | fails (s : State)
  /-- they are dropped at a port that is down (R379) -/
  | lost (s : State)
  deriving DecidableEq, Repr

/-- How COL packets for a panel leave by the table of the epoch in force. -/
def mirPath (s : State) (node : Nat) : MirPath :=
  if !nodeValid s node then .fails (dropCount s FAB_DROPS2.bad_node)
  else if !on s FAB_CTL.enable || on s DATA_VIEW.panel_state then .waits
  else
    let mode := bankEntry s (rd s FAB_EPOCH.current) node / 4 % 4
    if 2 ≤ mode then .fails (dropCount s FAB_DROPS.unreachable)
    else
      let port := (routePacket s 5 { packetNew s node 2 (40 + primaryHub s) 0 [] with set := mode }).1
      if port == 5 || portUp s port then .go else .lost (dropCount s FAB_DROPS.port_down)

/-- Answer a panel with a message, once the fabric takes it; `w` is what holds until then. Nothing goes to a panel that cannot be reached. -/
def mirAnswer (w s : State) (node : Nat) (o : Out) : State :=
  match mirPath s node with
  | .go => emit s o
  | .waits => w
  | .fails u => u
  | .lost u => u

/-- A FENCED panel drops every REQ and COL packet it receives (R492): what a row brings from another mirror engine counts as one drop. -/
def mirShut (s : State) : Bool := on s DATA_VIEW.panel_state
def mirDrop (s : State) : Res := .next (incSat s MIR_VIEW_DROPS.fenced_src)

/-! ### Landings (R477 to R481) -/

/-- Queues of a job's landing set (R477). -/
def landingSet (s : State) (job : Nat) : List (Nat × Queue) :=
  s.queues.filter fun x => rd s QUE_Q_BIND.space x.1 == job && qState s x.1 != qsDisabled

/-- The job's partner as MIR_JOB names it now. -/
def jobPartner (s : State) (job : Nat) : Nat := rd s MIR_JOB.partner job

/-- The LANDING of number n that a list of contexts holds at work. -/
def landingCtx (n : Nat) (cs : List Ctx) : Option Ctx :=
  cs.find? fun c => descOpcode c.desc == opLanding && landNo c.desc == n && c.phase == .running

/-- A node is fenced in the data view (R492). -/
def fencedNode (s : State) (node : Nat) : Bool := bitOn (kget s.dataFence (node / 64) 0) (node % 64)

/-- Show a job's landing phase. -/
def putPhase (s : State) (job phase : Nat) : State := wr s MIR_JOB_STATE.phase job phase

/-- The landing of a job ends in every queue of its set (R479, R481), pre-empted queues among them (R244). -/
def landingEnd (s : State) (job status : Nat) : State :=
  match kfind s.landings job with
  | none => s
  | some l =>
    let mark (c : Ctx) : Ctx :=
      if descOpcode c.desc == opLanding && landNo c.desc == l.n && c.phase == .running then { c with phase := .done, status := stWorse c.status status, result0 := l.n } else c
    let s := (landingSet s job).foldl (fun s (q, x) => putQ s q { x with ctxs := x.ctxs.map mark, saved := x.saved.map mark }) s
    putPhase { s with landings := kdel s.landings job } job 0

/-- A landing fails with a status and a reason (R481). -/
def landingFail (s : State) (job status reason : Nat) : State := landingEnd (wr s MIR_JOB_STATE.reason job reason) job status

/-- A landing completes (step 6). -/
def landingDone (s : State) (job : Nat) (l : Landing) : State :=
  let s := wr (wr s MIR_JOB_STATE.last_landing job l.n) MIR_JOB_STATE.reason job 0
  let s :=
    if l.rejoin then { s with mirWaiting := s.mirWaiting.filter (· != job) }
    else
      let s := incWrap { s with mirLoaded := s.mirLoaded.filter (· != job) } MIR_STATS.commits
      -- a partner named since the arrival holds nothing of this landing (R490)
      if on s MIR_JOB.residency_bound job || jobPartner s job != l.partner then s else wr s MIR_JOB_STATE.isProtected job 1
  landingEnd s job stOk

/-- Put a landing into a step. -/
def landingStep (s : State) (job : Nat) (l : Landing) (step phase : Nat) : State :=
  putPhase { s with landings := kput s.landings job { l with step := step } } job phase

/-- The collective engine carries the job's barriers now (R380, R480, R492): it and the group entry are enabled and the fabric takes COL packets. -/
def barrierOpen (s : State) (job : Nat) : Bool :=
  on s GRP_CTL.enable && on s GRP_ENT_CTL.enable (rd s MIR_JOB.barrier_group job) && on s FAB_CTL.enable && !on s DATA_VIEW.panel_state

/-- This panel's number goes to the group's all-reduce (R479, R480), once it can. -/
def tellBarrier (s : State) (job : Nat) (l : Landing) : State :=
  if (l.step == 2 || l.step == 5) && !l.told && barrierOpen s job then
    emit { s with landings := kput s.landings job { l with told := true } } (.mirBarrier (rd s MIR_JOB.barrier_group job) l.n (if l.step == 2 then 0 else 1))
  else s

/-- Numbers that waited go to their barriers. -/
def tellBarriers (s : State) : State := s.landings.foldl (fun s (job, l) => tellBarrier s job l) s

/-- A landing comes to a barrier, at step 2 or 5. -/
def toBarrier (s : State) (job : Nat) (l : Landing) (step phase : Nat) : State :=
  let l := { l with step := step, told := false }
  tellBarrier (landingStep s job l step phase) job l

/-- LANDING (R478, R479): the mirror engine takes a dispatched LANDING up; a later queue of the set joins the landing. -/
def execLanding (q : QueueNo) (idx : BitVec 32) (s : State) : Res :=
  match runningCtx s q idx.toNat opLanding with
  | none => .next s
  | some c =>
    let job := rd s QUE_Q_BIND.space q
    let n := landNo c.desc
    let s := modCtx s q c.idx fun c => { c with started := true }
    if (kfind s.landings job).isSome then .next s
    else
      let s := wr s MIR_JOB_STATE.reason job 0
      .next (landingStep s job ⟨n, n == rd s MIR_JOB_STATE.last_landing job, 1, 0, [], false⟩ 1 1)

/-- Enabled ranges of a job, in ascending index (R482). -/
def jobRanges (s : State) (job : Nat) : List Nat :=
  (List.range 64).filter fun r => on s MIR_RANGE_CTL.enable r && rd s MIR_RANGE_CTL.job r == job

/-- Address and bytes of a range. -/
def rangeOf (s : State) (r : Nat) : Nat × Nat := (rd s MIR_RANGE_BASE.va r * 2 ^ 16, rd s MIR_RANGE_CTL.size_64k r * 2 ^ 16)

/-- ARRIVAL (R479 step 1, R490, R492): every queue of the set has dispatched its LANDING and the job's remote writes are answered; the
partner and the ranges are sampled. -/
def execArrival (job : JobNo) (s : State) : Res :=
  match kfind s.landings job with
  | none => .next s
  | some l =>
    let all := (landingSet s job).all fun x => (landingCtx l.n x.2.ctxs).isSome || (landingCtx l.n x.2.saved).isSome
    let open_ := s.rmtOps.any fun o => o.job == job.val && o.code != rcLoad
    if l.step != 1 || !all || open_ then .next s
    else
      let l := { l with partner := jobPartner s job, ranges := (jobRanges s job).map (rangeOf s) }
      if fencedNode s l.partner && !on s MIR_JOB.residency_bound job then .next (landingFail s job stTimeout 3)
      else .next (toBarrier s job l 2 2)

/-- ARRIVAL_BARRIER (R479 step 2, R480, R489): the all-reduce of MIN over the arrived landing numbers gives `low`. -/
def execArrivalBarrier (job : JobNo) (low : BitVec 48) (s : State) : Res :=
  match kfind s.landings job with
  | none => .next s
  | some l =>
    if mirShut s then mirDrop s
    else if l.step != 2 || !l.told || low.toNat < l.n then .next s
    else if l.rejoin || on s MIR_JOB.residency_bound job then .next (landingDone s job l)
    else .next (landingStep s job l 3 3)

/-! ### Commits (R482 to R484) -/

/-- Total bytes of ranges. -/
def rangesSize (rs : List (Nat × Nat)) : Nat := rs.foldl (fun n r => n + r.2) 0

/-- Read the image of ranges: the bytes, or a status and reason (R481, R482). -/
def readRanges (job : Nat) : List (Nat × Nat) → State → State × (List Byte ⊕ (Nat × Nat))
  | [], s => (s, .inl [])
  | (va, n) :: rs, s =>
    let x := xlRange s 1281 job accRead va n
    if x.status == stWait then (x.s, .inr (stWait, 2))
    else if x.status != stOk || x.runs.any (fun y => 2 ^ 64 ≤ y.1) then (x.s, .inr (stRefused, 5))
    else
      let g := readRuns x.runs x.s
      if g.status == stUncorrectable then (g.s, .inr (stUncorrectable, 6))
      else if g.status != stOk then (g.s, .inr (g.status, 2))
      else match readRanges job rs g.s with
        | (s, .inl bs) => (s, .inl (g.data ++ bs))
        | e => e

/-- COMMIT (R354, R380, R479 step 3, R482): the ranges' image is streamed to the partner, every chunk is acknowledged, and the COMMIT
message goes. A panel that injects nothing waits; a partner that the tables do not reach fails the landing. -/
def execCommit (job : JobNo) (s : State) : Res :=
  match kfind s.landings job with
  | none => .next s
  | some l =>
    if l.step != 3 || !on s MIR_CTL.enable then .next s
    else if fencedNode s l.partner then .next (landingFail s job stTimeout 3)
    else match mirPath s l.partner with
      | .waits => .next s
      | .lost s => .next s
      | .fails s => .next (landingFail s job stTimeout 2)
      | .go => match readRanges job l.ranges s with
        | (s, .inr (st, reason)) => if st == stWait then .next s else .next (landingFail s job st reason)
        | (s, .inl image) => .next (emit (landingStep s job l 4 3) (.mirCommit l.partner l.n (rd s RMT_JOB_KEY.key job) image))

/-- LANDING_SEAL (R479 step 4, R481, R484): the partner reports the buffer COMMITTED, or refuses. -/
def execLandingSeal (job : JobNo) (refused : Bool) (s : State) : Res :=
  match kfind s.landings job with
  | none => .next s
  | some l =>
    if mirShut s then mirDrop s
    else if refused then
      if l.step == 3 || l.step == 4 then .next (landingFail (incSat s MIR_STATS.refusals) job stRefused 4) else .next s
    else if l.step == 4 then .next (toBarrier s job l 5 4) else .next s

/-- COMMIT_BARRIER (R479 steps 5 and 6): the all-reduce of MIN over the sealed landing numbers gives `low`. -/
def execCommitBarrier (job : JobNo) (low : BitVec 48) (s : State) : Res :=
  match kfind s.landings job with
  | none => .next s
  | some l =>
    if mirShut s then mirDrop s
    else if l.step == 5 && l.told && l.n ≤ low.toNat then .next (landingDone s job l) else .next s

/-- LANDING_TIMEOUT (R481): landing_timeout_ms have passed since the arrival. -/
def execLandingTimeout (job : JobNo) (s : State) : Res :=
  match kfind s.landings job with
  | none => .next s
  | some l => if l.step == 1 then .next s else .next (landingFail s job stTimeout (if l.step == 3 || l.step == 4 then 2 else 1))

/-! ### The partner (R484, R486, R487) -/

/-- The number of a buffer of a host entry. -/
def bufIdx (e b : Nat) : Nat := 2 * e + b

def bufState (s : State) (e b : Nat) : Nat := rd s MIR_HOST_BUF.state (bufIdx e b)
def bufLanding (s : State) (e b : Nat) : Nat := rd s MIR_HOST_BUF.landing (bufIdx e b)

/-- Put a buffer into a state. -/
def putBuf (s : State) (e b st landing : Nat) : State := wr (wr s MIR_HOST_BUF.state (bufIdx e b) st) MIR_HOST_BUF.landing (bufIdx e b) landing

/-- A buffer is EMPTY. -/
def emptyBuf (s : State) (e b : Nat) : State :=
  putBuf { s with mirSize := kdel s.mirSize (bufIdx e b), mirPlaced := kdel s.mirPlaced (bufIdx e b) } e b 0 0

/-- The buffer that a commit streams into (R487). -/
def chooseBuf (s : State) (e keep n : Nat) : Nat :=
  match (List.range 2).find? fun b => bufState s e b == 1 && bufLanding s e b == n with
  | some b => b
  | none =>
    let holds (b : Nat) : Bool := bufState s e b == 2 && bufLanding s e b == keep
    if holds 0 && !holds 1 then 1
    else if holds 1 && !holds 0 then 0
    else if bufLanding s e 1 < bufLanding s e 0 then 1 else 0

/-- Address of a buffer in host_job, and its size (R486). -/
def bufVa (s : State) (e b : Nat) : Nat := rd s MIR_HOST_BASE.va e * 2 ^ 30 + b * rd s MIR_HOST_BASE.size_gib e * 2 ^ 30
def bufSize (s : State) (e : Nat) : Nat := rd s MIR_HOST_BASE.size_gib e * 2 ^ 30

/-- This panel refuses a commit or a load. -/
def mirRefuse (s : State) (node : Nat) : State := mirAnswer s (incSat s MIR_STATS.refusals) node (.mirRefuse node)

/-- Chunks are 1 MiB (R483). -/
def mirChunk : Nat := 2 ^ 20

/-- Two nodes lie in one rack. -/
def sameRack (s : State) (node : Nat) : Bool := nodeX node == myX s && nodeY node == myY s

/-- PARTNER_COMMIT (R484, R487): a chunk of a commit reaches its partner: source, key, feed, keep, landing, image size, offset and data;
`last` that the COMMIT message has come too. -/
def execPartnerCommit (e : Fin 8) (src : BitVec 14) (key : BitVec 16) (feed : BitVec 8) (keep n : BitVec 48) (size : W64) (offset : W64)
    (data : List Byte) (last : Bool) (s : State) : Res :=
  if mirShut s || fencedNode s src.toNat then mirDrop s
  else if !on s MIR_CTL.enable || !on s MIR_HOST_CTL.enable e || rd s MIR_HOST_CTL.key e != key.toNat || rd s MIR_HOST_CTL.source e != src.toNat ||
      sameRack s src.toNat || rd s MIR_CTL.feed == feed.toNat || bufSize s e < size.toNat then .next (mirRefuse s src.toNat)
  else if data.length != min mirChunk (size.toNat - offset.toNat) || offset.toNat % mirChunk != 0 then .fault .illFormed
  else
    let b := chooseBuf s e keep.toNat n.toNat
    let k := bufIdx e b
    let t := if bufState s e b == 1 && bufLanding s e b == n.toNat then s
      else putBuf { s with mirSize := kput s.mirSize k size.toNat, mirPlaced := kput s.mirPlaced k [] } e b 1 n.toNat
    let (t, st, _) := writeVa t 1281 (rd s MIR_CTL.host_job) 0 (2 ^ 32) (bufVa s e b + offset.toNat) data
    if st == stWait then .next s else
    -- a chunk that cannot be written is not placed, and the commit does not complete
    let t := if st == stOk then { t with mirPlaced := kput t.mirPlaced k (setIns (kget t.mirPlaced k []) (offset.toNat / mirChunk)) } else t
    let all := (kget t.mirPlaced k []).length == cdiv (kget t.mirSize k 0) mirChunk
    .next (if last && all then mirAnswer t (putBuf t e b 2 n.toNat) src.toNat (.mirSealed src.toNat n.toNat) else t)

/-- COMMIT_ABANDON (R487): a streaming buffer of an entry has had no chunk for landing_timeout_ms, or its source is fenced. -/
def execCommitAbandon (e : Fin 8) (s : State) : Res :=
  .next ((List.range 2).foldl (fun s b => if bufState s e b == 1 then emptyBuf s e b else s) s)

/-- MIR_BUF_UE (R487). -/
def execMirBufUe (e : Fin 8) (b : Fin 2) (s : State) : Res := .next (raise (emptyBuf s e b) 0x014)

/-- PARTNER_LOAD (R484, R487): a panel asks for landing n of an entry's job; `size` is the total of its enabled ranges. -/
def execPartnerLoad (e : Fin 8) (src : BitVec 14) (key : BitVec 16) (n : BitVec 48) (size : W64) (s : State) : Res :=
  if mirShut s || fencedNode s src.toNat then mirDrop s
  else
    let b := (List.range 2).find? fun b => bufState s e b == 2 && bufLanding s e b == n.toNat
    match b with
    | none => .next (mirRefuse s src.toNat)
    | some b =>
      if !on s MIR_CTL.enable || !on s MIR_HOST_CTL.enable e || rd s MIR_HOST_CTL.key e != key.toNat || rd s MIR_HOST_CTL.loader e != src.toNat ||
          kget s.mirSize (bufIdx e b) 0 != size.toNat then .next (mirRefuse s src.toNat)
      else
        let g := readVa s 1281 (rd s MIR_CTL.host_job) (bufVa s e b) size.toNat
        if g.status == stOk then .next (mirAnswer s g.s src.toNat (.mirStream src.toNat n.toNat g.data))
        else if g.status == stUncorrectable then .next (raise (emptyBuf g.s e b) 0x014)
        else if g.status == stWait then .next s
        else .next g.s

/-! ### Registers (R477, R486, R489, R490) -/

/-- MIR_ENABLE: a write of MIR_CTL.enable; 0 to 1 brings slots into force. -/
def execMirEnable (v : Bool) (s : State) : Res :=
  let was := on s MIR_CTL.enable
  let s := wr s MIR_CTL.enable 0 (if v then 1 else 0)
  if v && !was then .next (wr (bringIn s MIR_CTL.slots) MIR_STATUS.cfg_pending 0 0) else .next s

/-- MIR_JOB_WRITE (R22, R477, R490): a write of MIR_JOB of a job: barrier_group and residency_bound are locked while the job is enabled
and stays so; a change of partner ends the protection. -/
def execMirJobWrite (job : JobNo) (partner : BitVec 14) (group : BitVec 10) (bound enable : Bool) (s : State) : Res :=
  let was := on s MIR_JOB.enable job
  let old := rd s MIR_JOB.partner job
  let r := if bound then 1 else 0
  let s := wr s MIR_JOB.partner job partner.toNat
  let s := if old == partner.toNat then s else wr s MIR_JOB_STATE.isProtected job 0
  let s :=
    if was && enable then setBit s MIR_STATUS.cfg_ignored
    else wr (wr s MIR_JOB.barrier_group job group.toNat) MIR_JOB.residency_bound job r
  .next (wr s MIR_JOB.enable job (if enable then 1 else 0))

/-- MIR_RANGE_ENABLE (R489): a write of MIR_RANGE_CTL.enable of a range. -/
def execMirRangeEnable (r : Fin 64) (v : Bool) (s : State) : Res :=
  if !v then .next (wr s MIR_RANGE_CTL.enable r 0)
  else if on s MIR_RANGE_CTL.enable r then .next s
  else if rd s MIR_RANGE_CTL.size_64k r == 0 || on s MIR_JOB.residency_bound (rd s MIR_RANGE_CTL.job r) then .next (setBit s MIR_STATUS.cfg_ignored)
  else .next (wr s MIR_RANGE_CTL.enable r 1)

/-- Usable stacked memory of the panel in bytes (R285, R287). -/
def usableStacked (s : State) : Nat :=
  ((List.range 80).filter fun w => !stackExcluded s w).foldl (fun n w => n + rd s STK_INFO.usable w * 1000000) 0

/-- MIR_HOST_ENABLE (R486): a write of MIR_HOST_CTL.enable of an entry. -/
def execMirHostEnable (e : Fin 8) (v : Bool) (s : State) : Res :=
  if !v then .next (wr (emptyBuf (emptyBuf s e 0) e 1) MIR_HOST_CTL.enable e 0)
  else if on s MIR_HOST_CTL.enable e then .next s
  else
    let total := ((List.range 8).filter fun i => on s MIR_HOST_CTL.enable i).foldl (fun n i => n + 2 * bufSize s i) (2 * bufSize s e)
    if usableStacked s < 4 * total then .next (setBit s MIR_STATUS.cfg_ignored) else .next (wr s MIR_HOST_CTL.enable e 1)

/-! ### Views (R491, R492) -/

/-- MGMT_VIEW_WRITE (R491): only the management path writes the view. -/
def execMgmtViewWrite (mgmt : Bool) (w : ViewWrite) (s : State) : Res :=
  if !mgmt then .next (setBit s MIR_STATUS.mgmt_rejected)
  else match w with
    | .view gen fenced => .next (wr (wr s MGMT_VIEW.view_gen 0 gen.toNat) MGMT_VIEW.panel_state 0 (if fenced then 1 else 0))
    | .fence word bits => .next (wr s MIR_FENCE_DATA.fenced word.toNat bits.toNat)

/-- The contents of a load's ranges are undefined (Table 14.5): each byte is a free value. -/
def undefineRanges (s : State) (l : MirLoad) : State :=
  bumpFree (l.ranges.foldl (fun s r =>
    let x := xlRange s 1281 l.job accWrite r.1 r.2
    x.runs.foldl (fun s y => if 2 ^ 64 ≤ y.1 then s else memWrite s (devFlat s y.1) ((List.range y.2).map fun i => BitVec.ofNat 8 (Config.pick s.free (y.1 + i)))) x.s) s)

/-- A load ends ORPHANED (R494). -/
def orphan (s : State) : State :=
  match s.mirLoad with
  | none => s
  | some l =>
    let s := undefineRanges { s with mirLoad := none } l
    let s := wr (setBit s MIR_STATUS.orphaned) MIR_STATUS.orphaned_job 0 l.job
    raise (putPhase (wr (incSat s MIR_STATS.orphans) MIR_STATUS.admission 0 6) l.job 0) 0x006

/-- What follows a fence in the data view at once (R487, R492, Table 14.5): landings with a fenced partner and commits of a fenced source end, and a
load from a fenced partner leaves its job ORPHANED. -/
def fenceEffects (s : State) : State :=
  let s := s.landings.foldl (fun s (job, l) =>
    if 2 ≤ l.step && !on s MIR_JOB.residency_bound job && fencedNode s l.partner then landingFail s job stTimeout 3 else s) s
  let s := if s.mirLoad.any fun l => fencedNode s l.partner then orphan s else s
  (List.range 8).foldl (fun s e =>
    if fencedNode s (rd s MIR_HOST_CTL.source e) then (List.range 2).foldl (fun s b => if bufState s e b == 1 then emptyBuf s e b else s) s else s) s

/-- FAB_EPOCH_WRITE (R375, R491): a write of FAB_EPOCH.current; a change brings panel_state and the fence map into the data view. -/
def execFabEpochWrite (bank : Fin 2) (s : State) : Res :=
  let was := rd s FAB_EPOCH.current
  let (s, ok) := epochWrite s bank
  if !ok || was == bank.val then .next s
  else
    let s := wr (wr s DATA_VIEW.view_gen 0 (rd s MGMT_VIEW.view_gen)) DATA_VIEW.panel_state 0 (rd s MGMT_VIEW.panel_state)
    let s := wr s DATA_VIEW.epoch 0 bank
    let fence := (List.range 256).foldl (fun m w => let b := rd s MIR_FENCE_DATA.fenced w; if b == 0 then m else kput m w b) []
    .next (fenceEffects { s with dataFence := fence })

/-! ### Admission (Table 14.5, R493, R494) -/

/-- A command of MIR_ADMIT_CMD that came from the host, or in a state without a row for it. -/
def admitIgnored (s : State) (mgmt : Bool) : State := if mgmt then setBit s MIR_STATUS.cfg_ignored else setBit s MIR_STATUS.mgmt_rejected

/-- SELF_TEST (R492, Table 14.5): memories are tested and zeroed and every link retrained. -/
def execSelfTest (mgmt : Bool) (s : State) : Res :=
  let busy := s.queues.any fun x => qState s x.1 != qsDisabled
  if !mgmt || rd s MIR_STATUS.admission != 0 || busy then .next (admitIgnored s mgmt)
  else
    let s := zeroRange (zeroRange s 0 (80 * 2 ^ 36)) (2 ^ 52) (2 ^ 64 - 2 ^ 52)
    let s := linkUnits.foldl (fun s u => startTraining s (u - 120) false) s
    .next (wr s MIR_STATUS.admission 0 1)

/-- SELF_TEST_DONE (Table 14.5): the test ends; `failed` names the units that did not pass. -/
def execSelfTestDone (failed : List (BitVec 9)) (s : State) : Res :=
  if rd s MIR_STATUS.admission != 1 then .next s
  else if failed.isEmpty then .next (wr s MIR_STATUS.admission 0 2)
  else .next (raise (wr (failed.foldl (fun s u => retireMark s u.toNat) s) MIR_STATUS.admission 0 0) 0x015)

/-- The request of a load leaves once the mirror engine is on and the fabric takes it; a partner that the tables do not reach leaves the job ORPHANED (R354, R493, R494). -/
def askLoad (s : State) : State :=
  match s.mirLoad with
  | none => s
  | some l =>
    let p := l.partner
    if l.asked || !on s MIR_CTL.enable then s
    else
      let t := { s with mirLoad := some { l with asked := true } }
      match mirPath t p with
      | .go => emit t (.mirLoadReq p l.n (rd s RMT_JOB_KEY.key l.job) (rangesSize l.ranges))
      | .waits => s
      | .fails u => orphan u
      | .lost u => u

/-- ADMIT_LOAD (R489, R493, R494): op LOAD for a job and a landing. -/
def execAdmitLoad (mgmt : Bool) (job : JobNo) (n : BitVec 48) (s : State) : Res :=
  let st := rd s MIR_STATUS.admission
  if !mgmt || !(st == 2 || st == 4 || st == 5) || on s MIR_JOB.residency_bound job then .next (admitIgnored s mgmt)
  else
    let p := jobPartner s job
    let l : MirLoad := ⟨job, n.toNat, st, p, (jobRanges s job).map (rangeOf s), false⟩
    let s := putPhase (wr { s with mirLoad := some l } MIR_STATUS.admission 0 3) job 5
    .next (if fencedNode s p then orphan s else askLoad s)

/-- Write an image into ranges in their order, up to the first that is not written: its status. -/
def writeRanges (job : Nat) : List (Nat × Nat) → List Byte → State → State × Nat
  | [], _, s => (s, stOk)
  | (va, n) :: rs, image, s =>
    let (s, st, _) := writeVa s 1281 job 0 (2 ^ 32) va (image.take n)
    if st != stOk then (s, st) else writeRanges job rs (image.drop n) s

/-- LOAD_COMPLETE (R478, R493): every chunk of the load has arrived; the image is placed in the job's ranges. Bytes of another number
than the ranges hold are no complete load. -/
def execLoadComplete (image : List Byte) (s : State) : Res :=
  match s.mirLoad with
  | none => .next s
  | some l =>
    if mirShut s then mirDrop s
    else if image.length != rangesSize l.ranges then .next s
    else
      let (t, st) := writeRanges l.job l.ranges image s
      if st == stWait then .next s
      else if st != stOk then .next (orphan t)
      else
        let t := wr t MIR_JOB_STATE.last_landing l.job l.n
        let t := wr t MIR_JOB_STATE.isProtected l.job (if jobPartner t l.job == l.partner then 1 else 0)
        let t := putPhase (wr t MIR_STATUS.admission 0 4) l.job 0
        .next { t with mirLoad := none, mirLoaded := setIns t.mirLoaded l.job, mirWaiting := setIns t.mirWaiting l.job }

/-- LOAD_REFUSED (R484): the partner refuses before any write. -/
def execLoadRefused (s : State) : Res :=
  match s.mirLoad with
  | none => .next s
  | some l =>
    if mirShut s then mirDrop s
    else .next (raise (putPhase (wr (incSat { s with mirLoad := none } MIR_STATS.refusals) MIR_STATUS.admission 0 l.before) l.job 0) 0x016)

/-- ORPHANED (R494): the partner is fenced, no chunk has come for load_stall, or a chunk failed. -/
def execOrphaned (s : State) : Res := .next (orphan s)

/-- ABORT (R494, Table 14.5). -/
def execAbortLoad (mgmt : Bool) (s : State) : Res :=
  let st := rd s MIR_STATUS.admission
  if !mgmt || !(st == 3 || st == 6) then .next (admitIgnored s mgmt)
  else match s.mirLoad with
    | some l => .next (wr (putPhase (undefineRanges { s with mirLoad := none } l) l.job 0) MIR_STATUS.admission 0 2)
    | none => .next (wr s MIR_STATUS.admission 0 2)

/-- REJOIN_COMPLETE (Table 14.5): the rejoin landing of every loaded job has completed. -/
def execRejoinComplete (s : State) : Res :=
  if rd s MIR_STATUS.admission == 4 && s.mirWaiting.isEmpty then .next (wr s MIR_STATUS.admission 0 5) else .next s

/-- MIR_ADMIT_TIMEOUT (Table 14.5): admit_timeout_s after the last load. -/
def execMirAdmitTimeout (s : State) : Res :=
  if rd s MIR_STATUS.admission == 4 then .next (raise (wr { s with mirWaiting := [] } MIR_STATUS.admission 0 2) 0x017) else .next s

end Sys2Proof.Machine
end

