-- ==== Sys2Proof/Machine/Power.lean ====
section
/-!
DEFINITION. The supply input, the credit issuer, wing voltages and power states (file 15, R495 to R521), and what a loss of power or a
reset keeps (Tables 16.7, 18.11, 19.5).
-/

namespace Sys2Proof.Machine

/-! ### What is kept (Tables 16.7, 18.11, 19.5) -/

/-- The debug state becomes SEALED (R594). -/
def sealDebug (s : State) : State :=
  { wr (wr s SEC_STATUS.debug 0 0) DBG_STATUS.open_left_s 0 0 with sec.openTimed := false }

/-- The nonce is discarded (R592). -/
def dropNonce (s : State) : State := { wr s SEC_NONCE.nonce 0 0 with sec.nonceLive := false }

/-- The IDE keys of a port are erased, and its streams leave the secure state (R593, Table 18.11). -/
def eraseIde (s : State) (port : Nat) : State :=
  let s := wr (wr s (if port == 0 then SEC_STATUS.ide_a else SEC_STATUS.ide_b) 0 0) PNL_HOST_STATUS.ide port 0
  { s with sec.ideKeys := s.sec.ideKeys.filter (·.port != port) }

/-- Fields that the hub store, the fuses, the boot and the stacks hold: no reset changes them by itself. -/
def storedFields : List Fld := [
  PNL_ID.serial, PNL_ID.stepping, PNL_ID.option, PNL_STATUS.retire_unfused, PNL_UNIT_DATA.generation, PNL_UNIT_DATA.width,
  PNL_UNIT_DATA.origin, PNL_UNIT_DATA.state, STK_INFO.vendor, STK_INFO.height, STK_INFO.density, STK_INFO.usable, STK_ECC.remaps,
  STK_SPARE_DATA.valid, STK_SPARE_DATA.cause, STK_SPARE_DATA.bank, STK_SPARE_DATA.pc, STK_SPARE_DATA.row, STK_SPARE_DATA.spare,
  STK_PPR_DATA.hard_left, STK_PPR_DATA.soft_free, TCN_STORED.width, TCN_STORED.mask, RMT_STATUS.incarnation,
  OPT_LASER_DATA.commissioned_uw, OPT_LASER_DATA.state, OPT_LASER_DATA.fade, PWR_STATUS.ovp_open, PWR_PSTATE.auto_restart,
  PWR_EVENTS.power_losses, PWR_EVENTS.ovp_trips, THM_TRIP.dies, THM_EVENTS.trips, PNL_MEM_WIN.segments, SEC_STATUS.copy_b,
  SEC_STATUS.image_fail, SEC_STATUS.lifecycle_next, SEC_STATUS.lifecycle, SEC_STATUS.open_seen, SEC_STATUS.identity, SEC_ARB.running_ver,
  SEC_ARB.arb, PNL_START.last_kind]

/-- The porter's registers, on the standby rail. -/
def porterFields : List Fld := [
  THM_PORTER_CTL.timer_s, THM_PORTER_CTL.wakes, THM_PORTER_CTL.last_source, THM_PORTER_CTL.smbus_wake_en, THM_PORTER_SRC.entry_0,
  THM_PORTER_SRC.entry_1, THM_PORTER_SRC.entry_2, THM_PORTER_SRC.entry_3]

/-- The fields of a list, out of a register file. -/
def keepFields (fs : List Fld) (m : KMap Nat) : KMap Nat := m.filter fun e => fs.any fun f => f.id == e.1 / 2 ^ 20

/-- Memory outside the panel: far devices and the host. -/
def outsideMem (a : Nat) : Bool := (2 ^ 51 ≤ a && a < 2 ^ 52) || (2 ^ 64 ≤ a && a < 2 ^ 66)

/-- The machine with main power gone or reset: every register, queue, table and on-panel memory is lost but for the fields of a list;
the far devices, the host, the stores and the standby domain keep what they hold. -/
def bareState (s : State) (keep : List Fld) : State :=
  let s := (List.range 4).foldl (fun s f => farFailAll s f false) s
  { State.reset with
    pending := s.pending
    outbox := s.outbox
    free := s.free
    fields := keepFields keep s.fields
    mem := s.mem.filter fun c => outsideMem c.1
    ue := s.ue.filter outsideMem
    ce := s.ce.filter outsideMem
    ticks := s.ticks.filter fun e => 40 ≤ e.1
    softRows := s.softRows
    spareDead := s.spareDead
    fuseRecs := s.fuseRecs
    storeRecs := s.storeRecs
    commHeater := s.commHeater
    ffCoef := s.ffCoef
    msix := s.msix
    pw := { State.reset.pw with standby := s.pw.standby, bankReady := s.pw.bankReady, offP3 := s.pw.offP3 }
    th := { State.reset.th with lossNote := s.th.lossNote, heldNote := s.th.heldNote, wakeNext := s.th.wakeNext }
    sec := { s.sec with nonceLive := false, openTimed := false, spdmStep := [], sessions := [], ideKeys := [], halted := [] }
    hst := { State.reset.hst with hubsUp := s.hst.hubsUp, hubLost := s.hst.hubLost, mgmtKept := s.hst.mgmtKept, perst := s.hst.perst } }

/-- P3 (Tables 16.7, 18.11): only the hub store, the porter's registers and the security controller's retained state are kept; the
identity key goes, and the debug state is SEALED. -/
def enterP3 (s : State) : State :=
  let s := bareState s (porterFields ++ storedFields)
  { wr s SEC_STATUS.identity 0 0 with pw.offP3 := true, pw.bankReady := false, ticks := [], msix := [] }

/-- Main power is lost (R499). -/
def powerLost (s : State) : State :=
  let s := enterP3 (incSat s PWR_EVENTS.power_losses)
  { s with th.lossNote := true }

/-! ### Input, pace caps and credits (R495 to R511) -/

/-- Whether the panel's main domains run and its power manager works at full rate: P0 or P1. -/
def running (s : State) : Bool := !s.pw.offP3 && rd s PWR_PSTATE.current ≤ 1

/-- The pace cap that a sag or a brownout allows, in sixteenths (R497, R498). -/
def inputCap (s : State) : Nat :=
  if on s PWR_STATUS.brownout then (if s.pw.brCut then 0 else 2) else if on s PWR_STATUS.sag then 8 else 16

/-- Bring every wing's pace cap into force: the lowest that R497, R498 and R511 give. -/
def setPace (s : State) : State :=
  (List.range 160).foldl (fun s w => wr s WNG_STATUS.pace w (min (inputCap s) s.pw.limitCap)) s

/-- Whether the input current is at least 95 % of curr_limit. -/
def currentHigh (s : State) : Bool := 95 * (10 * rd s PWR_LIMIT.curr_limit) ≤ 100 * rd s PWR_INPUT.current

/-- Freeze or release credits (R510); a freeze withdraws the credits not yet in effect. -/
def setFrozen (s : State) : State :=
  let f := on s PWR_STATUS.sag || on s PWR_STATUS.brownout || s.hst.takingOver || !s.pw.bankReady || currentHigh s
  let s := wr s PWR_STATUS.credits_frozen 0 (if f then 1 else 0)
  if f then { s with pw.credPend := [] } else s

/-- The current limit (R511), in one µs. -/
def limitStep (s : State) : State :=
  let lim := 10 * rd s PWR_LIMIT.curr_limit
  let i := rd s PWR_INPUT.current
  let base := inputCap s
  if lim < i then
    { setBit s PWR_STATUS.at_limit with pw.limitCap := min s.pw.limitCap base - 1, pw.belowUs := 0 }
  else if 100 * i < 95 * lim then
    if s.pw.belowUs + 1 < 10 then { s with pw.belowUs := s.pw.belowUs + 1 }
    else { s with pw.belowUs := 0, pw.limitCap := if base ≤ s.pw.limitCap + 1 then 16 else s.pw.limitCap + 1 }
  else { s with pw.belowUs := 0 }

/-- INPUT_SAMPLE (R495 to R498, R501, R510, R511, Table 15.1): a 1 µs sample of input voltage and bank voltage in 10 mV and of input current in
0.1 A. A bank below 52 V freezes credits. -/
def execInputSample (volts amps bank : BitVec 16) (s : State) : Res :=
  if s.pw.offP3 then .next s
  else
    let v := volts.toNat
    let s := wr (wr (wr s PWR_INPUT.voltage 0 v) PWR_INPUT.current 0 amps.toNat) PWR_INPUT.holdup 0 bank.toNat
    let first := s.pw.overUs == 0
    let s := { s with
      pw.bankReady := 5200 ≤ bank.toNat
      pw.overUs := if 6000 < v then s.pw.overUs + 1 else 0
      pw.overHiUs := if 7200 < v then s.pw.overHiUs + 1 else 0 }
    if 8000 < v || 10000 < s.pw.overUs || 100 < s.pw.overHiUs then
      -- overvoltage: the protection opens, and main power is lost without ride-through (R496)
      .next (powerLost (incSat (setBit s PWR_STATUS.ovp_open) PWR_EVENTS.ovp_trips))
    else
      let s := raiseIf (6000 < v && first) s 0x005
      let s := if v < 4200 && !on s PWR_STATUS.sag then raise (incSat (setBit s PWR_STATUS.sag) PWR_EVENTS.sags) 0x002 else s
      let s :=
        if v < 3800 && !on s PWR_STATUS.brownout then raise (incSat (setBit s PWR_STATUS.brownout) PWR_EVENTS.brownouts) 0x001
        else if 4000 ≤ v && on s PWR_STATUS.brownout then { wr s PWR_STATUS.brownout 0 0 with pw.brCut := false }
        else s
      .next (setFrozen (setPace (limitStep s)))

/-- BROWNOUT_CUT (R498): the measured draw, in W, 40 µs into a brownout. -/
def execBrownoutCut (draw : BitVec 16) (s : State) : Res :=
  if on s PWR_STATUS.brownout && 25 * (50 * rd s PWR_LIMIT.curr_limit) < 100 * draw.toNat then .next (setPace { s with pw.brCut := true })
  else .next s

/-- POWER_LOST (R499): a brownout has lasted more than 3 ms, or the bank has fallen below 30 V. -/
def execPowerLost (s : State) : Res := if on s PWR_STATUS.brownout then .next (powerLost s) else .next s

/-- SAG_END (R500): the input has been at 44 V or more for 100 µs. -/
def execSagEnd (s : State) : Res :=
  if on s PWR_STATUS.sag && !on s PWR_STATUS.brownout && 4400 ≤ rd s PWR_INPUT.voltage then
    .next (setFrozen (setPace (wr s PWR_STATUS.sag 0 0)))
  else .next s

/-- HOLDUP_CHARGED (R501): the bank reaches 52 V. -/
def execHoldupCharged (s : State) : Res := if s.pw.offP3 then .next s else .next (setFrozen { s with pw.bankReady := true })

/-- STANDBY_LOST (R502): the standby input is lost; with main power present the panel runs on, in P3 it is fully off. -/
def execStandbyLost (s : State) : Res :=
  let s := { s with pw.standby := false }
  if s.pw.offP3 then .next s else .next (raise (setBit s PWR_STATUS.standby_lost) 0x004)

/-- PACE_WINDOW (R506): in a 1 µs window, `arrays` arrays of a wing would each take `wanted` beats; the pace cap withholds the rest. -/
def execPaceWindow (d : DieNo) (a : WingNo) (arrays : Fin 513) (wanted : BitVec 16) (s : State) : Res :=
  let w := 4 * d.val + a.val
  let cap := rd s WNG_STATUS.pace w * (if rd s WNG_STATUS.state w == 0 then rd s DIE_BEAT_RATE.rate w else 0) / 16
  .next (incWrap s WNG_PACE_HELD.held_beats w (arrays.val * (wanted.toNat - cap)))

/-- Optical engines whose neighbourhood holds a die (Table 13.8). -/
def dieEngines (d : Nat) : List Nat :=
  (if d < 8 then [d] else if 32 ≤ d then [d - 24] else []) ++
  (if d == 0 then [16, 17] else if d == 32 then [18, 19] else if d == 7 then [20, 21] else if d == 39 then [22, 23] else [])

/-- Advance notice of a change at a die to the engines beside it (R461); a die is unit 0 of each. -/
def notice (s : State) (d kind : Nat) (amount : Int) : State := (dieEngines d).foldl (fun s n => emit s (.ffNotice n 0 kind amount)) s

/-- Wings with arrays that wait for credit (R124). -/
def creditWings (s : State) : List Nat := (s.arrays.filter (·.2 == 2)).foldl (fun l e => setIns l (e.1 / 512)) []

/-- The first of a list after a given number, round about. -/
def roundRobin (l : List Nat) (last : Nat) : Option Nat := match l.find? (last < ·) with | some x => some x | none => l.head?

/-- Whether the issuer may grant a wing a credit now: its interval is over, and its allowance can still rise (R507). -/
def creditFree (s : State) (now w : Nat) : Bool :=
  (match (s.pw.credHist.filter (·.1 == w)).getLast? with | some (_, t) => 10 * rd s PWR_CTL.credit_interval ≤ since now t | none => true) &&
  rd s WNG_STATUS.allowance w + 64 * (s.pw.credPend.filter (·.1 == w)).length < 512

/-- CREDIT_GRANT (R507, R508): the issuer grants the next credit, with its notice. -/
def execCreditGrant (s : State) : Res :=
  let now := hubTick s
  let recent := (s.pw.credHist.filter fun e => since now e.2 < 1000).length
  let wings := (creditWings s).filter (creditFree s now)
  if on s PWR_STATUS.credits_frozen || !s.pw.bankReady || !running s || rd s PWR_CTL.panel_ramp * 256 < 64 * (recent + 1) then .next s
  else match roundRobin ((wings.map (· / 4)).foldl setIns []) s.pw.credDie with
    | none => .next s
    | some d => match roundRobin (wings.filter (· / 4 == d)) (kget s.pw.credWing d (4 * d + 3)) with
      | none => .next s
      | some w =>
        let hist := s.pw.credHist.filter fun e => since now e.2 < 1000
        let s := { s with
          pw.credPend := s.pw.credPend ++ [(w, now)]
          pw.credHist := hist ++ [(w, now)]
          pw.credDie := d
          pw.credWing := kput s.pw.credWing d w }
        .next (notice s d 0 64)

/-- Arrays of a wing that wait become active while its allowance holds (R124, R507). -/
def admitArrays (s : State) (w : Nat) : State :=
  (s.arrays.filter fun e => e.2 == 2 && e.1 / 512 == w).foldl (fun s e =>
    if rd s WNG_STATUS.active w < rd s WNG_STATUS.allowance w then arrayOn s e.1 else s) s

/-- CREDIT_EFFECT (R507): 2 µs after its grant, a wing's credit takes effect. -/
def execCreditEffect (d : DieNo) (a : WingNo) (s : State) : Res :=
  let w := 4 * d.val + a.val
  match s.pw.credPend.find? (·.1 == w) with
  | none => .next s
  | some e =>
    let s := { s with pw.credPend := s.pw.credPend.erase e }
    .next (admitArrays (wr s WNG_STATUS.allowance w (min 512 (rd s WNG_STATUS.allowance w + 64))) w)

/-- ALLOWANCE_FALL (R509): credit_hold after the active count fell, the allowance follows it. -/
def execAllowanceFall (d : DieNo) (a : WingNo) (s : State) : Res :=
  let w := 4 * d.val + a.val
  .next (wr s WNG_STATUS.allowance w (min (rd s WNG_STATUS.allowance w) ((rd s WNG_STATUS.active w + 63) / 64 * 64)))

/-! ### Clamps and wing voltage (R505, R512 to R516) -/

/-- A request is clamped (R516). -/
def clampHit (s : State) : State :=
  let s := setBit (incSat s PWR_EVENTS.clamps) PWR_STATUS.policy_clamped
  { raiseIf (!s.pw.clampOn) s 0x00D with pw.clampOn := true }

/-- A clamp applies, or no longer applies. -/
def clampSet (s : State) (key : Nat) (applies : Bool) : State :=
  if applies then
    if s.pw.clamped.contains key then s else let s := clampHit s; { s with pw.clamped := setIns s.pw.clamped key }
  else { s with pw.clamped := s.pw.clamped.filter (· != key) }

/-- CLAMP_EPISODE_END (R516): no clamp has applied for 100 ms. -/
def execClampEpisodeEnd (s : State) : Res := if s.pw.clamped.isEmpty then .next { s with pw.clampOn := false } else .next s

/-- The request of a wing: the optimiser's, or v_manual (R513). -/
def wingRequest (s : State) (w : Nat) : Nat := if on s PWR_CTL.vopt_en then kget s.pw.wingReq w 750 else rd s WNG_CTL.v_manual w

/-- Bring a wing's ceiling into its register, note a clamped request, and take one voltage step (R505, R513): rises wait in a sag or
brownout (R497, R531), and a takeover holds every voltage (R504). -/
def voltStep (s : State) (w : Nat) : State :=
  if rd s WNG_STATUS.state w == 3 || s.hst.takingOver then s
  else
    let s := wr s WNG_STATUS.v_ceiling w (wingCeil s w)
    let s := clampSet s (2 + w) (wingCeil s w < max (wingRequest s w) (rd s PWR_CTL.v_min))
    let now := rd s WNG_STATUS.v_now w
    let want := wingVolt s w
    if want == now || (now < want && (on s PWR_STATUS.sag || on s PWR_STATUS.brownout)) then s
    else
      let dest := if now < want then min want (now + 25) else max want (now - 25)
      notice (wr s WNG_STATUS.v_now w dest) (w / 4) 1 ((dest : Int) - now)

/-- OPTIMISER_STEP (R515): a wing's replica rate over the last 1 ms, in Mbeat/s. -/
def execOptimiserStep (d : DieNo) (a : WingNo) (mean : BitVec 16) (s : State) : Res :=
  let w := 4 * d.val + a.val
  if !on s PWR_CTL.vopt_en || rd s WNG_STATUS.state w != 0 || !running s || on s PWR_STATUS.sag || on s PWR_STATUS.brownout || s.hst.takingOver then .next s
  else
    let target := max (rd s PWR_CTL.target_rate) (rd s PWR_LIMIT.floor)
    let req := kget s.pw.wingReq w 750
    let req := if mean.toNat < target then req + 5 else if 101 * target < 100 * mean.toNat then req - 5 else req
    .next (voltStep { s with pw.wingReq := kput s.pw.wingReq w (min (rd s PWR_CTL.v_max) (max (rd s PWR_CTL.v_min) req)) } w)

/-- PWR_CLEAR_EVENTS: a write of PWR_DIE_OFF.clear_events. -/
def execPwrClearEvents (s : State) : Res :=
  .next (wr (wr (wr s PWR_EVENTS.sags 0 0) PWR_EVENTS.brownouts 0 0) PWR_EVENTS.clamps 0 0)

/-- The cap loop (R514): the mean input power is compared with the cap in force, once in 100 µs. -/
def capStep (s : State) : State :=
  let cap := min (rd s PWR_LIMIT.cap_w) (50 * rd s PWR_LIMIT.curr_limit)
  let s := clampSet s 0 (50 * rd s PWR_LIMIT.curr_limit < rd s PWR_LIMIT.cap_w)
  let p := rd s PWR_INPUT.power
  let wings := (List.range 160).filter fun w => dieActive s (w / 4) && rd s WNG_STATUS.state w != 3
  if cap < p then
    let top := wings.foldl (fun m w => max m (rd s WNG_STATUS.v_now w)) 0
    (wings.filter fun w => rd s WNG_STATUS.v_now w == top).foldl
      (fun s w => { s with pw.capCeil := kput s.pw.capCeil w (max 550 (kget s.pw.capCeil w 900 - 5)) }) s
  else if 100 * p < 98 * cap then
    let low := wings.foldl (fun m w => min m (wingCeil s w)) 900
    (wings.filter fun w => wingCeil s w == low).foldl
      (fun s w => { s with pw.capCeil := kput s.pw.capCeil w (min 900 (kget s.pw.capCeil w 900 + 5)) }) s
  else s

/-- The performance floor of a wing in one 100 µs period (Table 15.2). -/
def floorStep (s : State) (w : Nat) : State :=
  let floor := rd s PWR_LIMIT.floor
  let missed := rd s WNG_STATUS.state w == 0 && rd s DIE_BEAT_RATE.rate w < floor && wingCeil s w < rd s PWR_CTL.v_max &&
    wingCeil s w ≤ rd s WNG_STATUS.v_now w
  let n := if missed then min 100 (kget s.pw.floorMiss w 0 + 1) else 0
  let s := { s with pw.floorMiss := if n == 0 then kdel s.pw.floorMiss w else kput s.pw.floorMiss w n }
  let hit := n == 100 && !s.pw.clamped.contains (1000 + w)
  let s := clampSet s (1000 + w) (n == 100)
  if hit then raise (setBit s PWR_STATUS.floor_missed) 0x00E else s

/-! ### Power states (R517 to R521) -/

/-- Whether a core, a cluster's engine, a wing or a die has work. -/
def coreBusy (s : State) (c : Nat) : Bool := s.coreShares.any (·.1 == c) || s.arrays.any (·.1 / 8 == c)
def clusBusy (s : State) (cl : Nat) : Bool := s.copyShares.any (·.1 == cl)
def wingBusy (s : State) (w : Nat) : Bool := s.coreShares.any (·.1 / 64 == w) || s.arrays.any (·.1 / 512 == w) || s.copyShares.any (·.1 / 8 == w)
def dieBusy (s : State) (d : Nat) : Bool := [4 * d, 4 * d + 1, 4 * d + 2, 4 * d + 3].any (wingBusy s)

/-- A core whose off bit is 1 and that has no work enters U3 (R519). -/
def coreOffNow (s : State) (c : Nat) : State := { zeroRange s (tileFlat c 0) (2 ^ 20) with corePow := kput s.corePow c 3 }

/-- Off requests of a wing, its cores and its die that can be met now. -/
def meetOff (s : State) (w : Nat) : State :=
  let s := (List.range 64).foldl (fun s i =>
    if bitOn (rd s WNG_CORE_OFF.off w) i && corePowOf s (64 * w + i) != 3 && !coreBusy s (64 * w + i) then coreOffNow s (64 * w + i) else s) s
  let s := if on s WNG_CTL.wing_off w && rd s WNG_STATUS.state w != 3 && !wingBusy s w then wingOffNow s w else s
  if bitOn (rd s PWR_DIE_OFF.off) (w / 4) && rd s DIE_STATUS.die_state (w / 4) != 3 && !dieBusy s (w / 4) then dieOffNow s (w / 4) else s

/-- P1 is entered as soon as it is asked for and every active die is in D1 or deeper (R520). -/
def tryP1 (s : State) : State :=
  if rd s PWR_PSTATE.target == 1 && rd s PWR_PSTATE.current == 0 && !on s PWR_PSTATE.busy &&
     (List.range 40).all (fun d => !dieActive s d || 1 ≤ rd s DIE_STATUS.die_state d) then wr s PWR_PSTATE.current 0 1
  else s

/-- UNIT_IDLE_DOWN (R518, R519, Table 15.7): a unit that is idle goes down to state n (1 or 2), or to its off state where its off bit
asks for it. For W2 the sender tells that the wing's memory has had no access for 1 ms. -/
def execUnitIdleDown (u : PowUnit) (n : Fin 3) (s : State) : Res :=
  if n.val == 0 || !running s then .next s
  else match u with
    | .core d c =>
      let c := 256 * d.val + c.val
      if coreBusy s c then .next s
      else
        let s := if corePowOf s c == 0 then { s with corePow := kput s.corePow c 1 } else s
        .next (meetOff s (c / 64))
    | .cluster d cl =>
      let cl := 32 * d.val + cl.val
      if clusPowOf s cl < n.val && !clusBusy s cl && (List.range 8).all (fun i => n.val ≤ corePowOf s (8 * cl + i)) then
        .next (meetOff { s with clusPow := kput s.clusPow cl n.val } (cl / 8))
      else .next s
    | .wing d a =>
      let w := 4 * d.val + a.val
      if rd s WNG_STATUS.state w < n.val && (List.range 8).all (fun i => n.val ≤ clusPowOf s (8 * w + i)) then
        .next (meetOff (setWing s w n.val) w)
      else .next s
    | .die d =>
      if n.val == 1 && rd s DIE_STATUS.die_state d == 0 && (List.range 4).all (fun a => 1 ≤ rd s WNG_STATUS.state (4 * d.val + a)) then
        .next (tryP1 (meetOff (wr s DIE_STATUS.die_state d 1) (4 * d.val)))
      else .next s

/-- U2_IDLE_EXPIRY (Table 15.7): a core has been in U1 for u2_idle_us. -/
def execU2IdleExpiry (d : DieNo) (c : CoreNo) (s : State) : Res :=
  let c := 256 * d.val + c.val
  if corePowOf s c == 1 && !coreBusy s c then .next { s with corePow := kput s.corePow c 2 } else .next s

/-- D2_IDLE_EXPIRY (Table 15.7, R301): all wings in W2 or deeper and no stack access for d2_idle_ms. -/
def execD2IdleExpiry (d : DieNo) (s : State) : Res :=
  if rd s PWR_IDLE.d2_idle_ms != 0 && rd s DIE_STATUS.die_state d == 1 && running s &&
     (List.range 4).all (fun a => 2 ≤ rd s WNG_STATUS.state (4 * d.val + a)) then
    .next (selfRefresh (wr s DIE_STATUS.die_state d 2) d)
  else .next s

/-- UNIT_WAKE (R518, Table 15.7): a core, by its share; a cluster, by a core or a copy share; a wing, by an access, or to W0 by a cluster;
a die, by an access or work, or to D0 by a wing. -/
def execUnitWake (u : PowUnit) (s : State) : Res :=
  if !running s then .next s
  else match u with
    | .core d c => if s.coreShares.any (·.1 == 256 * d.val + c.val) then .next (wakeCore s (256 * d.val + c.val)) else .next s
    | .cluster d cl =>
      let cl := 32 * d.val + cl.val
      if clusBusy s cl || (List.range 8).any (fun i => corePowOf s (8 * cl + i) == 0) then .next (wakeCluster (wakePanel s) cl 0) else .next s
    | .wing d a =>
      let w := 4 * d.val + a.val
      if (List.range 8).any (fun i => clusPowOf s (8 * w + i) == 0) then .next (wakeWing (wakePanel s) w 0) else .next (wakeWing s w 1)
    | .die d =>
      if (List.range 4).any (fun a => rd s WNG_STATUS.state (4 * d.val + a) == 0) then .next (wakeDie (wakePanel s) d 0) else .next (wakeDie s d 1)

/-- PWR_DIE_OFF_WRITE (R519): a write of PWR_DIE_OFF.off. A die whose bit is cleared leaves D3 (Table 15.7). -/
def execPwrDieOffWrite (mask : BitVec 40) (s : State) : Res :=
  let old := rd s PWR_DIE_OFF.off
  let s := wr s PWR_DIE_OFF.off 0 mask.toNat
  .next ((List.range 40).foldl (fun s d =>
    if !dieActive s d then s
    else if mask.getLsbD d then meetOff s (4 * d)
    else if bitOn old d && rd s DIE_STATUS.die_state d == 3 then wakeDie s d 1 else s) s)

/-- WING_OFF_WRITE (R519): a write of WNG_CTL.wing_off, or of WNG_CORE_OFF. -/
def execWingOffWrite (d : DieNo) (a : WingNo) (cores : Bool) (v : BitVec 64) (s : State) : Res :=
  let w := 4 * d.val + a.val
  .next (meetOff (if cores then wr s WNG_CORE_OFF.off w v.toNat else wr s WNG_CTL.wing_off w (v.toNat % 2)) w)

/-- Every queue DISABLED or STOPPED, and the fabric, the collectives and the mirror disabled (R520). -/
def mayRetain (s : State) : Bool :=
  (s.queues.all fun e => qState s e.1 == qsDisabled || qState s e.1 == qsStopped) &&
  !on s FAB_CTL.enable && !on s GRP_CTL.enable && !on s MIR_CTL.enable

/-- Whether arrays are still active: units go down only after their drains (R126). -/
def arraysBusy (s : State) : Bool := s.arrays.any (·.2 == 1)

/-- Whether every die is in D2 or deeper (R39). -/
def diesRetained (s : State) : Bool := (List.range 40).all fun d => 2 ≤ rd s DIE_STATUS.die_state d

/-- Every unit goes down to its state under P2; optics dark, far ports and third-party sites held in reset (R306, R341, R474, R520). -/
def unitsRetain (s : State) : State :=
  let s := { s with corePow := s.corePow.map fun (k, v) => (k, max v 2), clusPow := s.clusPow.map fun (k, v) => (k, max v 2) }
  let s := (List.range 160).foldl (fun s w => if rd s WNG_STATUS.state w < 2 then setWing s w 2 else s) s
  let s := (List.range 40).foldl (fun s d => if rd s DIE_STATUS.die_state d < 2 then selfRefresh (wr s DIE_STATUS.die_state d 2) d else s) s
  let s := (List.range 24).foldl optDark s
  let s := (List.range 2).foldl (fun s site => if on s UCI_SITE_CTL.enable site then siteDark (failSite s site) site 0 else s) s
  (List.range 4).foldl (fun s f => wr (wr (wr (farFailAll s f false) FAR_PORT_STATUS.link_up f 0) FAR_PORT_STATUS.rate f 0) FAR_PORT_STATUS.width f 0) s

/-- Ask for a panel state, with no transition in progress (R520). -/
def takeTarget (s : State) : State :=
  let cur := rd s PWR_PSTATE.current
  match rd s PWR_PSTATE.target with
  | 0 =>
    if cur == 2 then
      -- a wake asked for in a brownout proceeds at the pace cap in force (Table 15.2)
      let s := if on s PWR_STATUS.brownout then clampHit s else s
      wr { s with th.waking := true } PWR_PSTATE.busy 0 1
    else wr s PWR_PSTATE.current 0 0
  | 1 => if cur == 2 then wr { s with th.waking := true } PWR_PSTATE.busy 0 1 else tryP1 s
  | t =>
    if t == cur then s
    else if !mayRetain s then setBit (wr s PWR_PSTATE.target 0 cur) PWR_STATUS.pstate_refused
    else wr (if cur == 2 || arraysBusy s then s else unitsRetain s) PWR_PSTATE.busy 0 1

/-- PSTATE_TARGET (R520, R521): a write of PWR_PSTATE.target; while busy it is only noted. -/
def execPstateTarget (target : Fin 4) (s : State) : Res :=
  if s.pw.offP3 then .next s
  else
    let s := wr s PWR_PSTATE.target 0 target.val
    if on s PWR_PSTATE.busy then .next s else .next (takeTarget s)

/-- A wake from P2 starts (R544 to R546); a source is recorded and counted. -/
def startWake (s : State) (code : Option Nat) : State :=
  let s := match code with
    | some c => incSat (wr s THM_PORTER_CTL.last_source 0 c) THM_PORTER_CTL.wakes
    | none => s
  wr (wr { s with th.waking := true, th.wakeNext := none } PWR_PSTATE.target 0 0) PWR_PSTATE.busy 0 1

/-- Shared sources that a valid porter entry watches and whose latch is set (R544). -/
def watchedSource (s : State) : Option Nat :=
  let entries := (List.range 16).flatMap fun i => [rd s THM_PORTER_SRC.entry_0 i, rd s THM_PORTER_SRC.entry_1 i, rd s THM_PORTER_SRC.entry_2 i,
    rd s THM_PORTER_SRC.entry_3 i]
  ((entries.filter fun e => bitOn e 15 && bitOn (rd s EVT_LEVEL.latched (e % 1024 / 64)) (e % 64)).map (· % 1024)).head?

end Sys2Proof.Machine
end

