-- ==== Sys2Proof/Machine/Boot.lean ====
section
/-!
DEFINITION. Verified start (R578 to R581), resets that run start-up, and start-up itself (R613 to R620).
-/

namespace Sys2Proof.Machine

/-! ### Firmware images (R578, R579) -/

/-- The anti-rollback counter in force for an image: the larger of the hubs' counts (R580). -/
def arbCount (s : State) (i : Nat) : Nat := max (kget s.sec.arbFuses i 0) (kget s.sec.arbFuses (4 + i) 0)

/-- Bring SEC_ARB.arb into step with the fuses. -/
def showArb (s : State) : State :=
  wr s SEC_ARB.arb 0 ((List.range 4).foldl (fun v i => v + arbCount s i % 256 * 2 ^ (8 * i)) 0)

/-- Whether the verifier accepts a copy of image i (R578, Table 18.3). -/
def imageOk (s : State) (i : Nat) (b : List Byte) : Bool :=
  let size := leAt b 0x10 8
  let key := (b.drop 0x18).take 32
  let body := (b.drop 0x100).take size
  leAt b 0 4 == 0x5139494D && leAt b 4 1 == i && 0x100 + size ≤ b.length &&
  Config.sha512 key == Config.rootDigest &&
  Config.sha512 body == BitVec.ofNat 512 (leAt b 0x38 64) &&
  Config.ed25519Valid (BitVec.ofNat 256 (leNat key)) (b.take 0x78) (BitVec.ofNat 512 (leAt b 0x78 64)) &&
  arbCount s i ≤ leAt b 8 4

/-- The copy of image i that runs: A, else B (R579). -/
def runningCopy (s : State) (i : Nat) : Option (Nat × List Byte) :=
  [0, 1].findSome? fun c =>
    let b := kget s.sec.flash (2 * i + c) []
    if imageOk s i b then some (c, b) else none

/-- Verify the images and record what runs (R579, SEC_STATUS, SEC_ARB, Table 18.5). -/
def verifyImages (s : State) : State :=
  let run := (List.range 4).map (runningCopy s)
  let bits (f : Option (Nat × List Byte) → Nat) (w : Nat) : Nat := ((List.range 4).zip run).foldl (fun v (i, r) => v + f r % 2 ^ w * 2 ^ (w * i)) 0
  let s := wr s SEC_STATUS.copy_b 0 (bits (fun r => match r with | some (c, _) => c | none => 0) 1)
  let s := wr s SEC_STATUS.image_fail 0 (bits (fun r => if r.isSome then 0 else 1) 1)
  let s := wr s SEC_ARB.running_ver 0 (bits (fun r => match r with | some (_, b) => leAt b 8 4 | none => 0) 8)
  let dig := ((List.range 4).zip run).foldl (fun m (i, r) =>
    kput m i (match r with | some (_, b) => (b.drop 0x38).take 64 | none => List.replicate 64 0)) []
  { s with sec.imgDigest := dig }

/-- Take the flash writes of the management path. -/
def writeFlash (s : State) (l : List FlashWrite) : State :=
  { s with sec.flash := l.foldl (fun m w => kput m (2 * w.image.val + if w.copyB then 1 else 0) w.bytes) s.sec.flash }

/-- The pending lifecycle comes into force, and the identity key is derived or not (R581, R586). -/
def bootIdentity (s : State) : State :=
  let l := rd s SEC_STATUS.lifecycle_next
  let s := wr s SEC_STATUS.lifecycle 0 l
  wr s SEC_STATUS.identity 0 (if (l == 1 || l == 2) && !bitOn (rd s SEC_STATUS.image_fail) 0 then 1 else 0)

/-! ### Host-port roles (R601, PNL_HOST_STATUS) -/

/-- The home port: that of the primary hub (R601). -/
def homePort (s : State) : Nat := rd s PNL_HUB_ROLE.primary

/-- Bring both ports' roles into step: 0 down, 1 standby, 2 active, 3 home. -/
def setRoles (s : State) : State :=
  [0, 1].foldl (fun s p =>
    wr s PNL_HOST_STATUS.role p
      (if rd s PNL_HOST_STATUS.rate p == 0 then 0 else if p == homePort s then 3 else if on s PNL_HOST_CTL.mode then 2 else 1)) s

/-- After a change of the ports, a change between holding and polling has every doorbell line read again before dispatch (R176, R180). -/
def portsChanged (was : Bool) (s : State) : State := if cacheOn s != was then dbRestart s else s

/-- A host port's link is down; `config` tells that its configuration space and MSI-X table are reset (R613). -/
def portLinkDown (s : State) (p : Nat) (config : Bool) : State :=
  let was := cacheOn s
  let s := wr (wr (wr s PNL_HOST_STATUS.rate p 0) PNL_HOST_STATUS.width p 0) PNL_HOST_STATUS.ide p 0
  let s := if config then
      { wr (wr s PNL_HOST_STATUS.cache_en p 0) PNL_HOST_STATUS.mem_en p 0 with
        msix := kdel s.msix p
        sec.sessions := s.sec.sessions.filter (·.port != p)
        sec.spdmStep := kdel s.sec.spdmStep p }
    else s
  -- host copies of window lines mapped through the failed home port are lost (R607)
  portsChanged was (setRoles (if p == homePort s then { s with hst.snoop := [] } else s))

/-- A host port has trained: rate 1 or 2, width 4 or 8, with what the host has enabled by then. -/
def portLinkUp (s : State) (p rate width : Nat) (cacheEn memEn : Bool) : State :=
  if s.pw.offP3 || s.hst.portHeld.contains p || !s.hst.hubsUp.contains p || rate == 0 || !s.hst.perst.contains p then s
  else
    let b (x : Bool) : Nat := if x then 1 else 0
    let was := cacheOn s
    let s := wr (wr s PNL_HOST_STATUS.rate p rate) PNL_HOST_STATUS.width p width
    portsChanged was (setRoles (wr (wr s PNL_HOST_STATUS.cache_en p (b cacheEn)) PNL_HOST_STATUS.mem_en p (b memEn)))

/-! ### Resets and start-up (Tables 19.5, 19.6) -/

/-- Steps 4 to 9 of start-up, on a machine whose registers are reset: retirements are completed, dies woken, links put to training,
engines brought up. -/
def startUnits (s : State) (kind : Nat) : State :=
  let s := (List.range 40).foldl (fun s d =>
    if unitState s d == 3 then recordRetired (retireDie s d (rd s PNL_UNIT_DATA.origin d)) d else s) s
  let s := (List.range 308).foldl (fun s u => if unitState s u == 3 then setUnit s u 4 (rd s PNL_UNIT_DATA.origin u) else s) s
  -- a retired hub is out of service; a hub that is alone is primary (R49, R620)
  let s := match s.hst.hubsUp.filter (fun h => unitState s (304 + h) != 4) with
    | [h] => setBit (wr { s with hst.hubsUp := [h] } PNL_HUB_ROLE.primary 0 h) PNL_START.one_hub
    | _ => s
  let s := wr s THM_TRIP.dies 0 0
  let s := (List.range 40).foldl (fun s d =>
    if !dieActive s d then s
    else
      let s := wr { s with ticks := kput s.ticks d 0 } DIE_STATUS.die_state d 1
      let s := [4 * d, 4 * d + 1, 4 * d + 2, 4 * d + 3].foldl (fun s w => setRefresh (wr (setWing s w 1) WNG_STATUS.v_now w (wingVolt s w)) w) s
      [2 * d, 2 * d + 1].foldl (fun s w => if stackExcluded s w then s else wr s STK_STATUS.state w 1) s) s
  let s := linkUnits.foldl (fun s u => startTraining s (u - 120) true) s
  let s := (List.range 24).foldl (fun s n =>
    optBringUp ((List.range 32).foldl (fun s k => if rd s OPT_LASER_DATA.state (32 * n + k) == lzFailed then s else wr s OPT_LASER_DATA.state (32 * n + k) lzOff) s) n) s
  let s := incWrap s RMT_STATUS.incarnation
  let s := bringIn s PNL_MEM_WIN.segments
  let s := wr (wr s PNL_START.last_kind 0 kind) PNL_START.step 0 5
  setRoles { s with hst.resetKind := some kind }

/-- Start-up ends in failure at a step (R620). -/
def startFail (s : State) (step : Nat) : State :=
  { wr (setBit s PNL_START.failed) PNL_START.fail_step 0 step with hst.resetKind := none, hst.cxlReset := false }

/-- The hubs that have reached step 4: one alone is primary (R620). -/
def bootHubs (s : State) (h0 h1 : Bool) : State :=
  let s := { s with hst.hubsUp := (if h0 then [0] else []) ++ (if h1 then [1] else []) }
  if h0 && h1 then s else setBit (wr s PNL_HUB_ROLE.primary 0 (if h0 then 0 else 1)) PNL_START.one_hub

/-- The registers of a cold boot from step 1, or of a warm one from step 3 (Table 19.5, R617). -/
def bootRegs (s : State) (kind : Nat) : State :=
  let keep := storedFields ++ if kind == 0 then [] else PNL_HUB_ROLE.takeovers :: porterFields
  let s := bareState { s with pw.offP3 := false, pw.bankReady := false, hst.hubLost := false } keep
  let s := wr { s with msix := [], ticks := if kind == 0 then [] else s.ticks } PWR_STATUS.ovp_open 0 0
  if kind == 0 then { wr s SEC_STATUS.open_seen 0 0 with hst.mgmtKept := [], hst.portHeld := [] } else s

/-- What a boot raises at its end: POWER_LOST after the loss (Table 17.1), the note of a shutdown in P2 at the wake (R541). -/
def bootNotes (s : State) : State :=
  { raiseIf s.th.heldNote (raiseIf s.th.lossNote s 0x003) 0x000 with th.lossNote := false, th.heldNote := false }

/-- A boot once its images are verified: with image 0 or 1 rejected nothing more starts, and image 0 keeps the main input off (R579,
R620); without a hub it waits in step 4; else start-up runs on. -/
def bootOn (s : State) (kind : Nat) (h0 h1 : Bool) : State :=
  let bad := rd s SEC_STATUS.image_fail
  let up0 := h0 && unitState s 304 < 3
  let up1 := h1 && unitState s 305 < 3
  if bitOn bad 0 || bitOn bad 1 then startFail { s with pw.offP3 := bitOn bad 0 } 2
  else if !up0 && !up1 then wr { s with hst.resetKind := some kind } PNL_START.step 0 4
  else bootNotes (startUnits (bootHubs s up0 up1) kind)

/-- A cold boot from step 1, or a warm one from step 3 (R617): images are verified, registers reset, and start-up runs on. -/
def bootFrom (s : State) (kind : Nat) (h0 h1 : Bool) : State := bootOn (bootIdentity (verifyImages (bootRegs s kind))) kind h0 h1

/-- Whether a reset request is ignored: one of the same or a broader kind is in progress (R615). -/
def resetBlocked (s : State) (kind : Nat) : Bool := match s.hst.resetKind with | some k => k ≤ kind | none => false

/-- A cold reset (Table 19.5). -/
def coldReset (s : State) (h0 h1 : Bool) : State :=
  if resetBlocked s 0 then setBit s PNL_STATUS.cfg_ignored else bootFrom s 0 h0 h1

/-- A warm reset. -/
def warmReset (s : State) (h0 h1 : Bool) : State :=
  if s.pw.offP3 then s
  else if resetBlocked s 1 then setBit s PNL_STATUS.cfg_ignored else bootFrom s 1 h0 h1

/-- Fields of the host ports, whose links a panel reset keeps. -/
def portFields : List Fld := [
  PNL_HOST_STATUS.link_downs, PNL_HOST_STATUS.width, PNL_HOST_STATUS.rate, PNL_HOST_STATUS.cache_en, PNL_HOST_STATUS.mem_en]

/-- A panel reset, or a CXL Reset (R616, Table 19.5). -/
def panelReset (s : State) (cxl : Bool) : State :=
  if s.pw.offP3 then s
  else if resetBlocked s 2 then setBit s PNL_STATUS.cfg_ignored
  else
    let s := bareState s (PNL_HUB_ROLE.takeovers :: portFields ++ porterFields ++ storedFields)
    startUnits { s with hst.cxlReset := cxl } 2

/-- COLD_RESET (R613, R615, R617): standby power-good, or op COLD over the management path. `flash` is what the management path has
written into the boot flash since the last boot, `h0` and `h1` tell which hubs reach step 4. -/
def execColdReset (flash : List FlashWrite) (h0 h1 : Bool) (s : State) : Res :=
  .next (coldReset { writeFlash s flash with pw.standby := true } h0 h1)

/-- WARM_RESET (R613, R615, R617): op WARM over the management path. -/
def execWarmReset (flash : List FlashWrite) (h0 h1 : Bool) (s : State) : Res := .next (warmReset (writeFlash s flash) h0 h1)

/-- PANEL_RESET (R613, R616): op PANEL, or CXL Reset on either port. -/
def execPanelReset (cxl : Bool) (s : State) : Res := .next (panelReset s cxl)

/-- Whether every condition of R618 that the panel's own state shows holds. -/
def readyNow (s : State) : Bool :=
  (rd s PNL_HOST_STATUS.rate 0 != 0 || rd s PNL_HOST_STATUS.rate 1 != 0) &&
  ((List.range 40).all fun d => !dieActive s d || (1 ≤ rd s DIE_STATUS.die_state d &&
    [2 * d, 2 * d + 1].all fun w => stackExcluded s w || rd s STK_STATUS.state w == 2 || rd s STK_STATUS.state w == 4)) &&
  (linkUnits.all fun u => !linkLive s (u - 120) || !unitInService s u || rd s TCN_STATUS.state (u - 120) == tcnUp) &&
  ((List.range 24).all fun n => !optRuns s n || rd s OPT_STATUS.state n != 1)

/-- PANEL_READY (R616, R618): start-up is at its end, `ms` milliseconds after t = 0; every far port has trained or failed. -/
def execPanelReady (ms : BitVec 16) (s : State) : Res :=
  if s.hst.resetKind.isNone || on s PNL_START.failed || !readyNow s then .next s
  else
    let s := wr (wr (setBit s PNL_START.ready) PNL_START.ready_ms 0 ms.toNat) PNL_START.step 0 10
    let s := if s.hst.cxlReset then emit s .cxlResetDone else s
    .next { s with hst.resetKind := none, hst.cxlReset := false }

/-- STARTUP_FAIL (R620): a step of start-up other than step 3 is incomplete at 10 s. -/
def execStartupFail (step : Fin 11) (s : State) : Res :=
  if s.hst.resetKind.isNone || step.val == 0 || step.val == 3 then .next s else .next (startFail s step.val)

/-- PERST_RELEASE (R617): PERST# of a port is released; the port trains to a rate (0 where it cannot, 1 for 32 GT/s, 2 for 64 GT/s) and
width, and the host enables what it enables. -/
def execPerstRelease (p : HostPortNo) (rate : Fin 3) (x8 cacheEn memEn : Bool) (s : State) : Res :=
  .next (portLinkUp { s with hst.perst := setIns s.hst.perst p.val } p rate (if x8 then 8 else 4) cacheEn memEn)

/-- HOST_LINK_UP (R609): a port's link comes back up. -/
def execHostLinkUp (p : HostPortNo) (rate : Fin 3) (x8 cacheEn memEn : Bool) (s : State) : Res :=
  if rd s PNL_HOST_STATUS.rate p != 0 then .next s else .next (portLinkUp s p rate (if x8 then 8 else 4) cacheEn memEn)

/-- HOST_LINK_DOWN (R607, R613, Table 18.11): a hot reset of a host port, or its link down. -/
def execHostLinkDown (p : HostPortNo) (s : State) : Res :=
  if rd s PNL_HOST_STATUS.rate p == 0 then .next s else .next (portLinkDown (incSat s PNL_HOST_STATUS.link_downs p) p true)

/-! ### The porter and panel transitions (R544 to R548) -/

/-- A wake from P3 is a cold boot (R548); the porter records and counts its source (R546). -/
def bootWake (s : State) (code : Nat) : State :=
  let s := bootFrom { s with th.wakeNext := none } 0 true true
  incSat (wr s THM_PORTER_CTL.last_source 0 code) THM_PORTER_CTL.wakes

/-- PSTATE_TRANSITION_END (R520, R521, R546): the transition in progress ends: a wake in P0, the way down in P2 or P3. A target written
meanwhile is taken; a watched source or a standby condition that has asserted starts a wake at once. -/
def execPstateTransitionEnd (s : State) : Res :=
  if !on s PWR_PSTATE.busy then .next s
  else
    let s := wr s PWR_PSTATE.busy 0 0
    if s.th.waking then
      let s := wr { s with th.waking := false } PWR_PSTATE.current 0 0
      .next (if rd s PWR_PSTATE.target == 0 then s else takeTarget s)
    -- drains come first, and every unit is down before P2 is reported (R39, R126)
    else if arraysBusy s then .next (wr s PWR_PSTATE.busy 0 1)
    else
      let s := if diesRetained s then s else unitsRetain s
      -- entry to P2 or P3 discards the nonce (R592)
      let s := dropNonce (wr s PWR_PSTATE.current 0 2)
      if rd s PWR_PSTATE.target == 3 then
        let s' := enterP3 s
        match s.th.wakeNext with
        | some c => .next (if 0x400 ≤ c then bootWake s' c else { s' with th.wakeNext := none })
        | none => .next s'
      else match s.th.wakeNext.orElse fun _ => watchedSource s with
        | some c => .next (startWake s (some c))
        | none => if rd s PWR_PSTATE.target == 2 then .next s else .next (takeTarget s)

/-- The porter wakes the panel, now or at the end of the transition in progress (R546). -/
def porterWake (s : State) (code : Nat) : State :=
  if bitOn (rd s SEC_STATUS.image_fail) 2 then s
  else if s.pw.offP3 then (if 0x400 ≤ code then bootWake s code else s)
  else if on s PWR_PSTATE.busy then (if s.th.waking || s.th.wakeNext.isSome then s else { s with th.wakeNext := some code })
  else if rd s PWR_PSTATE.current == 2 then startWake s (some code) else s

/-- PORTER_WAKE (R544 to R546, Table 16.8): a watched source asserts, or the SMBus wake command (0x400), or the main input is back in
range (0x402) after a loss. -/
def execPorterWake (code : Fin 1027) (s : State) : Res :=
  match code.val with
  | 0x400 => if on s THM_PORTER_CTL.smbus_wake_en then .next (porterWake s 0x400) else .next s
  | 0x401 => .next s
  | 0x402 => if on s PWR_PSTATE.auto_restart && s.th.lossNote then .next (porterWake s 0x402) else .next s
  | n =>
    let entries := (List.range 16).flatMap fun i => [rd s THM_PORTER_SRC.entry_0 i, rd s THM_PORTER_SRC.entry_1 i, rd s THM_PORTER_SRC.entry_2 i,
      rd s THM_PORTER_SRC.entry_3 i]
    if !s.pw.offP3 && entries.any (fun e => bitOn e 15 && e % 1024 == n) then .next (porterWake s n) else .next s

/-- PORTER_TIMER (R547): the porter timer expires. -/
def execPorterTimer (s : State) : Res :=
  if rd s THM_PORTER_CTL.timer_s == 0 then .next s else .next (porterWake s 0x401)

/-- MGMT_WAKE (R544, Table 16.8): a write of THM_PORTER_CTL.wake, over the management path or not. -/
def execMgmtWake (mgmt : Bool) (s : State) : Res :=
  if mgmt then .next (porterWake s 0x403) else .next (setBit s THM_STATUS.cfg_ignored)

end Sys2Proof.Machine
end

