-- ==== Sys2Proof/Machine/Thermal.lean ====
section
/-!
DEFINITION. Temperature: sensors, throttle, shutdown, trips and returns; the spread of a wake from P2; the die reset (file 16, R522 to R548,
R614).
-/

namespace Sys2Proof.Machine

/-! ### Sensors and thresholds (R522 to R526) -/

def snNormal : Nat := 0
def snWarn : Nat := 1
def snGrace : Nat := 2
def snEnforce : Nat := 3
def snShutdown : Nat := 4

/-- The number of a sensor: kind and index (Table 16.1). -/
def senIdx (kind i : Nat) : Nat := 1024 * kind + i

def senState (s : State) (k : Nat) : Nat := rd s THM_DATA.state k
def senReading (s : State) (k : Nat) : Nat := rd s THM_DATA.reading k
def senRec (s : State) (k : Nat) : Sensor := kget s.th.sensors k ⟨0, 0, []⟩

/-- Thresholds of a kind: warning, throttle, shutdown (Table 16.2). -/
def thWarn (s : State) (kind : Nat) : Nat := rd s (if kind == 1 then THM_STK_THR.warning else if kind == 2 then THM_OPT_THR.warning else THM_DIE_THR.warning)
def thThrottle (s : State) (kind : Nat) : Nat := rd s (if kind == 1 then THM_STK_THR.throttle else if kind == 2 then THM_OPT_THR.throttle else THM_DIE_THR.throttle)
def thShutdown (s : State) (kind : Nat) : Nat := rd s (if kind == 1 then THM_STK_THR.shutdown else if kind == 2 then THM_OPT_THR.shutdown else THM_DIE_THR.shutdown)
def hyst (s : State) : Nat := rd s THM_CTL.hyst

/-- Whether there is a sensor of a kind at an index (Table 16.1). -/
def senExists (s : State) (kind i : Nat) : Bool :=
  match kind with
  | 0 => i < 640 && dieActive s (i / 16)
  | 1 => i < 80 && dieActive s (i / 2)
  | 2 => i < 24
  | _ => i < 8

/-- Wings whose throttle ceiling a sensor lowers (Table 16.3). -/
def senWings (k : Nat) : List Nat :=
  let i := k % 1024
  let all (d : Nat) : List Nat := [4 * d, 4 * d + 1, 4 * d + 2, 4 * d + 3]
  match k / 1024 with
  | 0 => [4 * (i / 16) + i % 16 / 4]
  | 1 => all (i / 2)
  | 2 => ((List.range 40).filter fun d => (dieEngines d).contains i).flatMap all
  | _ => []

/-- Sensors in a state. -/
def sensorsIn (s : State) (st : Nat) : List Nat := (s.th.sensors.map (·.1)).filter fun k => senState s k == st

/-- THM_STATUS's summary bits. -/
def thmShow (s : State) : State :=
  let b (x : Bool) : Nat := if x then 1 else 0
  let s := wr s THM_STATUS.shut_any 0 (b (rd s THM_SHUT.dies != 0 || rd s THM_SHUT.engines != 0))
  wr (wr s THM_STATUS.enforcing 0 (b !(sensorsIn s snEnforce).isEmpty)) THM_STATUS.requested 0 (b !(sensorsIn s snGrace).isEmpty)

/-- A sensor enters a state. -/
def setSensor (s : State) (k st : Nat) : State := thmShow (wr s THM_DATA.state k st)

/-- WARN or NORMAL, by reading (Table 16.4). -/
def settleSensor (s : State) (k : Nat) : State :=
  setSensor s k (if senReading s k + hyst s < thWarn s (k / 1024) then snNormal else snWarn)

/-- Ticks of a grace (R528). -/
def graceTicks (s : State) : Nat := rd s THM_CTL.grace_ms * 100000

/-- THM_REQ.deadline of the latest request (R528). -/
def setDeadline (s : State) (k : Nat) : State := wr s THM_REQ.deadline 0 ((senRec s k).graceAt + graceTicks s)

/-- The throttle is reached: the request, and the start of the grace (R527, R528). -/
def requestThrottle (s : State) (k : Nat) : State :=
  let s := setSensor { s with th.sensors := kput s.th.sensors k { senRec s k with graceAt := hubTick s } } k snGrace
  let s := wr (wr (wr s THM_REQ.kind 0 (k / 1024)) THM_REQ.index 0 (k % 1024)) THM_REQ.reading 0 (senReading s k)
  raise (setDeadline (setBit s THM_REQ.valid) k) 0x009

/-- A sensor leaves GRACE: no ceiling was touched (R528, R530). -/
def endGrace (s : State) (k : Nat) : State := raise (settleSensor s k) 0x00A

/-- A sensor leaves ENFORCE; wings that no other sensor throttles lose their throttle ceiling. -/
def endThrottle (s : State) (k : Nat) : State :=
  let s := raise (settleSensor s k) 0x00A
  let others := (sensorsIn s snEnforce).flatMap senWings
  { s with pw.thrCeil := s.pw.thrCeil.filter fun e => !(senWings k).contains e.1 || others.contains e.1 }

/-- GRACE_END (R527, R528): the grace of a sensor ends. -/
def execGraceEnd (kind : Fin 4) (index : Fin 640) (s : State) : Res :=
  let k := senIdx kind index
  if senState s k != snGrace then .next s
  else
    let s := (senWings k).foldl (fun s w => { s with pw.thrCeil := kput s.pw.thrCeil w (max 550 (rd s WNG_STATUS.v_now w)) }) s
    let s := { s with th.sensors := kput s.th.sensors k { senRec s k with sinceRaise := 100 } }
    .next (setSensor (incSat s THM_EVENTS.enforced) k snEnforce)

/-! ### Telemetry (R503, R513, R514, R529 to R531) -/

/-- What one period's reading of an enforcing sensor calls for (R529). -/
def callsLower (s : State) (k : Nat) : Bool := thThrottle s (k / 1024) ≤ senReading s k + hyst s
def callsRaise (s : State) (k : Nat) : Bool := senReading s k + 2 * hyst s < thThrottle s (k / 1024)

/-- The throttle step of one 100 µs period (R529 to R531). -/
def throttleStep (s : State) : State :=
  let enf := sensorsIn s snEnforce
  let s := enf.foldl (fun s k => { s with th.sensors := kput s.th.sensors k { senRec s k with sinceRaise := min 100 ((senRec s k).sinceRaise + 1) } }) s
  let wings := (enf.flatMap senWings).foldl setIns []
  let waits := on s PWR_STATUS.sag || on s PWR_STATUS.brownout
  let gov (w : Nat) : List Nat := enf.filter fun k => (senWings k).contains w
  let lower := wings.filter fun w => (gov w).any (callsLower s)
  let raised := if waits then [] else wings.filter fun w => (gov w).all fun k => callsRaise s k && 100 ≤ (senRec s k).sinceRaise
  let vmax := rd s PWR_CTL.v_max
  let ceil := lower.foldl (fun m w => kput m w (max 550 (kget m w 900 - 5))) s.pw.thrCeil
  let ceil := raised.foldl (fun m w => kput m w (min vmax (kget m w 900 + 5))) ceil
  let again := enf.filter fun k => (senWings k).any raised.contains
  let sen := again.foldl (fun m k => kput m k { senRec s k with sinceRaise := 0 }) s.th.sensors
  { s with pw.thrCeil := ceil, th.sensors := sen }

/-- POWER_TELEMETRY (R503): a 100 µs period of the power manager, with the mean input power in W. -/
def execPowerTelemetry (power : BitVec 16) (s : State) : Res :=
  if !running s then .next s
  else
    let s := throttleStep (capStep (wr s PWR_INPUT.power 0 power.toNat))
    .next ((List.range 160).foldl (fun s w => if dieActive s (w / 4) then voltStep (floorStep s w) w else s) s)

/-! ### Shutdown (R532 to R541) -/

/-- Every share that a core or an engine of a die has begun stops with TIMEOUT at its latest restart point (R533, R534). -/
def haltShares (s : State) (d : Nat) : State :=
  let cores := (s.coreShares.filter fun e => e.1 / 256 == d && shareFirst s e.1 e.2.1 e.2.2).foldl (fun s (core, q, idx) =>
    match findCtx s q idx with
    | some c =>
      let pos := (c.cores.idxOf? core).getD 0
      let (r, p0) := restartOf c pos
      stopShare (endShare s core q idx) q idx pos ⟨stTimeout, 3, 0, 2 ^ 28 + core, r, p0, c.count, 0⟩
    | none => s) s
  (cores.copyShares.filter fun e => e.1 / 32 == d && engineFirst cores e.1 e.2.1 e.2.2).foldl (fun s (cl, q, idx) =>
    match findCtx s q idx with
    | some c =>
      let e := ((engineSet c.cores).idxOf? cl).getD 0
      let (r, p0) := cpFrom c e
      stopShare (endCopyShare s cl q idx) q idx e ⟨stTimeout, 3, 0, 2 * 2 ^ 28 + cl, r, p0, c.count, 0⟩
    | none => s) cores

/-- Step 2 of Table 16.5: shares run on to the points at which they are found, and stop. -/
def stopDie (s : State) (d : Nat) (pts : List DiePoint) : State :=
  haltShares ((pts.filter fun p => match findCtx s p.queue p.point.idx with
    | some c =>
      if descOpcode c.desc == opCopy then (engineSet c.cores).getD p.point.pos 0 / 32 == d else c.cores.getD p.point.pos 0 / 256 == d
    | none => false).foldl (fun s p => stopPoint s p.queue p.point) s) d

/-- A hub's shutdown ends in P3 once every die has stopped (R539). -/
def hubStopped (s : State) : State :=
  if s.th.hubStop && (List.range 40).all fun d => !dieActive s d || dieShut s d || dieTripped s d then enterP3 s else s

/-- Steps 3 and 4 of Table 16.5. -/
def dieShutNow (s : State) (d : Nat) : State :=
  let s := [4 * d, 4 * d + 1, 4 * d + 2, 4 * d + 3].foldl wingOffNow (selfRefresh s d)
  let s := { s with th.stopping := s.th.stopping.filter (· != d) }
  hubStopped (thmShow (wr (wr s DIE_STATUS.die_state d 2) THM_SHUT.dies 0 (bitSet (rd s THM_SHUT.dies) d)))

/-- A die is cut (R540): D3, stacks lost, links out of service; its shares stop with TIMEOUT, its entry is marked. -/
def dieTrip (s : State) (d : Nat) : State :=
  if dieTripped s d then s
  else
    let s := dieOffNow (haltShares s d) d
    let s := wr s THM_TRIP.dies 0 (bitSet (rd s THM_TRIP.dies) d)
    let s := wr { s with th.stopping := s.th.stopping.filter (· != d) } THM_SHUT.dies 0 (bitClr (rd s THM_SHUT.dies) d)
    hubStopped (thmShow (losePorts (retireMark (incSat (setBit s THM_STATUS.trip_seen) THM_EVENTS.trips) d)))

/-- Ticks of an hour. -/
def oneHour : Nat := 360000000000

/-- A die has been shut down once more (R537). -/
def countShut (s : State) (d : Nat) : State :=
  let now := hubTick s
  let l := now :: (kget s.th.shutTicks d []).filter fun t => since now t < oneHour
  let s := { s with th.shutTicks := kput s.th.shutTicks d l }
  let lim := rd s THM_CTL.shutdown_limit
  if lim != 0 && lim ≤ l.length then retireMark s d else s

/-- The shutdown of a die begins (Table 16.5 step 1); `skip` leaves out the orderly stop (R532). -/
def dieShutdown (s : State) (d : Nat) (skip : Bool) : State :=
  if dieHeld s d || dieTripped s d then s
  else
    let s := countShut { s with th.stopping := setIns s.th.stopping d } d
    if skip then dieShutNow (haltShares (incSat (setBit s THM_STATUS.skip_seen) THM_EVENTS.skips) d) d else s

/-- Whether a compute-die sensor's rise is predicted to reach 120 °C within predict_ms (R532): the slope over its last 10 readings, which
span 0.9 ms. -/
def predictsTrip (s : State) (k : Nat) : Bool :=
  let l := (senRec s k).last
  match l.head?, (l.drop 9).head? with
  | some a, some b => 1080 ≤ 9 * (a : Int) + 10 * ((a : Int) - b) * rd s THM_CTL.predict_ms
  | _, _ => false

/-- A sensor reaches shutdown (R533, R539). -/
def sensorShutdown (s : State) (k : Nat) : State :=
  let s := raise (setSensor (incSat s THM_EVENTS.shutdowns) k snShutdown) 0x000
  let i := k % 1024
  match k / 1024 with
  | 0 => dieShutdown s (i / 16) (predictsTrip s k)
  | 1 => dieShutdown s (i / 2) false
  | 2 => thmShow (optDark (wr s THM_SHUT.engines 0 (bitSet (rd s THM_SHUT.engines) i)) i)
  | _ =>
    hubStopped (((List.range 40).filter (dieActive s)).foldl (fun s d => dieShutdown s d false) { s with th.hubStop := true })

/-- The governed unit of a shut-down sensor has returned (Table 16.4). -/
def clearShut (s : State) (mine : Nat → Bool) : State :=
  (s.th.sensors.map (·.1)).foldl (fun s k => if mine k && senState s k == snShutdown then setSensor s k snNormal else s) s

/-- A compute-die sensor at 120 °C cuts its die, where the die has supply (R523, R540). -/
def comparator (kind i t : Nat) (s : State) : State :=
  if kind == 0 && 120 ≤ t && rd s DIE_STATUS.die_state (i / 16) != 3 then dieTrip s (i / 16) else s

/-- SENSOR_READ (R522, R525, R527, R532, R538, R540, R541): one sensor's reading in °C. -/
def execSensorRead (kind : Fin 4) (index : Fin 640) (reading : BitVec 8) (s : State) : Res :=
  let k := senIdx kind index
  if s.pw.offP3 || !senExists s kind index then .next s
  else
    let t := reading.toNat
    let s := wr (wr s THM_DATA.reading k t) THM_DATA.max k (max t (rd s THM_DATA.max k))
    let s := { s with th.sensors := kput s.th.sensors k { senRec s k with last := (t :: (senRec s k).last).take 10 } }
    let s := if kind.val == 1 then wr s STK_STATUS.temp index t else s
    -- a wing's refresh follows the hottest of its sensors (R120, R261)
    let s := if kind.val == 0 then followHeat s (index / 4) else s
    let shut := thShutdown s kind
    if rd s PWR_PSTATE.current == 2 && !s.th.waking then
      -- in P2 only the shutdown thresholds act (R541), beside the comparator, which needs no firmware (R522)
      if shut ≤ t then .next { enterP3 (comparator kind index t s) with th.heldNote := true } else .next s
    else
      let st := senState s k
      if st == snShutdown then
        -- self-refresh holds only up to shutdown; 5 K above, the die is cut (R538)
        if kind.val == 1 && dieShut s (index / 2) && shut + 5 ≤ t then .next (dieTrip s (index / 2)) else .next (comparator kind index t s)
      else if shut ≤ t then
        if kind.val == 1 && dieShut s (index / 2) && shut + 5 ≤ t then .next (dieTrip (setSensor s k snShutdown) (index / 2))
        else .next (comparator kind index t (sensorShutdown s k))
      else if st == snNormal || st == snWarn then
        if thThrottle s kind ≤ t then .next (requestThrottle s k)
        else if st == snNormal then
          if thWarn s kind ≤ t then .next (raise (setSensor (incSat s THM_EVENTS.warnings) k snWarn) 0x00B) else .next s
        else .next (settleSensor s k)
      else if st == snGrace then
        if t + hyst s < thThrottle s kind then .next (endGrace s k) else .next s
      else if (senWings k).all (fun w => rd s PWR_CTL.v_max ≤ kget s.pw.thrCeil w 900) && t + 2 * hyst s < thThrottle s kind then
        .next (endThrottle s k)
      else .next s

/-- ORDERLY_STOP_END (R533, R534, Table 16.5): the shares of a stopping die have come to restart points, or 5 ms are over; `pts` are the
points at which running shares are found. -/
def execOrderlyStopEnd (d : DieNo) (pts : List DiePoint) (s : State) : Res :=
  if s.th.stopping.contains d.val then .next (bumpFree (dieShutNow (stopDie s d pts) d)) else .next s

/-- Whether every sensor of a die and of its stacks reads below warning − hyst (R536). -/
def dieCool (s : State) (d : Nat) : Bool :=
  ((List.range 16).all fun i => senReading s (senIdx 0 (16 * d + i)) + hyst s < thWarn s 0) &&
  [2 * d, 2 * d + 1].all fun w => senReading s (senIdx 1 w) + hyst s < thWarn s 1

/-- A shut-down die returns (R536). -/
def dieBack (s : State) (d : Nat) : State :=
  let s := wr s THM_SHUT.dies 0 (bitClr (rd s THM_SHUT.dies) d)
  let s := clearShut s fun k => (k / 1024 == 0 && k % 1024 / 16 == d) || (k / 1024 == 1 && k % 1024 / 2 == d)
  let s := [4 * d, 4 * d + 1, 4 * d + 2, 4 * d + 3].foldl (fun s w => wakeWing s w 1) (wakeDie s d 1)
  raise (thmShow s) 0x00C

/-- THM_DIE_BACK (R536): a shut-down die's sensors have stayed cool for 1 s. -/
def execThmDieBack (d : DieNo) (s : State) : Res :=
  if dieShut s d && !dieTripped s d && on s THM_CTL.auto_return && dieCool s d then .next (dieBack s d) else .next s

/-- THM_RETURN_WRITE (R536): a write of THM_RETURN. -/
def execThmReturnWrite (mask : BitVec 40) (s : State) : Res :=
  .next ((List.range 40).foldl (fun s d =>
    if !mask.getLsbD d || !dieShut s d || dieTripped s d then s
    else if dieCool s d then dieBack s d else setBit s THM_STATUS.cfg_ignored) s)

/-- OPT_THERMAL_RETURN (R539): an engine dark by temperature has read below warning − hyst for 1 s. -/
def execOptThermalReturn (n : OptNo) (s : State) : Res :=
  if bitOn (rd s THM_SHUT.engines) n && senReading s (senIdx 2 n) + hyst s < thWarn s 2 then
    let s := wr s THM_SHUT.engines 0 (bitClr (rd s THM_SHUT.engines) n)
    .next (optBringUp (thmShow (clearShut s (· == senIdx 2 n))) n)
  else .next s

/-- HARDWARE_TRIP (R540): a sensor of a die reaches 120 °C. -/
def execHardwareTrip (d : DieNo) (s : State) : Res :=
  if s.pw.offP3 || !dieActive s d || rd s DIE_STATUS.die_state d == 3 then .next s else .next (dieTrip s d)

/-- THM_THRESHOLD_WRITE (R524, Table 16.2): a write of THM_DIE_THR (0), THM_STK_THR (1) or THM_OPT_THR (2). -/
def execThmThresholdWrite (kind : Fin 3) (warning throttle shutdown : BitVec 8) (s : State) : Res :=
  let w := warning.toNat
  let t := throttle.toNat
  let x := shutdown.toNat
  let (f, lim) : (Fld × Fld × Fld) × (Nat × Nat × Nat × Nat × Nat × Nat) :=
    if kind.val == 0 then ((THM_DIE_THR.warning, THM_DIE_THR.throttle, THM_DIE_THR.shutdown), (70, 105, 80, 110, 90, 115))
    else if kind.val == 1 then ((THM_STK_THR.warning, THM_STK_THR.throttle, THM_STK_THR.shutdown), (70, 95, 75, 100, 80, 105))
    else ((THM_OPT_THR.warning, THM_OPT_THR.throttle, THM_OPT_THR.shutdown), (60, 90, 65, 92, 70, 95))
  let (w0, w1, t0, t1, x0, x1) := lim
  -- expert fields (R53)
  if rd s PNL_PROFILE.thermal != 15 then .next (setBit s PNL_STATUS.profile_rejected)
  else if w < t && t < x && w0 ≤ w && w ≤ w1 && t0 ≤ t && t ≤ t1 && x0 ≤ x && x ≤ x1 then
    .next (wr (wr (wr s f.1 0 w) f.2.1 0 t) f.2.2 0 x)
  else .next (setBit s THM_STATUS.cfg_ignored)

/-- THM_CLEAR_MAX (R522): a write of THM_SEL.clear_max. -/
def execThmClearMax (s : State) : Res :=
  let kind := rd s THM_SEL.kind
  let i := rd s THM_SEL.index
  if senExists s kind i then .next (wr s THM_DATA.max (senIdx kind i) (senReading s (senIdx kind i))) else .next s

/-! ### Wake from P2, die reset -/

/-- The pending bit of every shared source whose latch is set and that is not active (R560). -/
def rescanAll (s : State) : State :=
  let active := (if on s EVT_HOST_ACTIVE.valid && !on s EVT_HOST_ACTIVE.priv then [rd s EVT_HOST_ACTIVE.source] else []) ++ s.gal.stewardActive.map (·.2)
  (List.range 16).foldl (fun s i =>
    let w := active.foldl (fun w a => if a / 64 == i then bitClr w (a % 64) else w) (rd s EVT_LEVEL.latched i)
    wr s EVT_PEND.pending i (rd s EVT_PEND.pending i ||| w)) s

/-- WAKE_FROM_P2 (R548, R562, R594, Table 16.9): steps 2 to 5 of a wake from P2; PSTATE_TRANSITION_END reports P0. -/
def execWakeFromP2 (s : State) : Res :=
  if !s.th.waking || rd s PWR_PSTATE.current != 2 then .next s
  else
    let s := rescanAll (sealDebug s)
    let s := ((List.range 40).filter (dieActive s)).foldl (fun s d =>
      let s := if rd s DIE_STATUS.die_state d == 2 then wakeDie s d 1 else s
      [4 * d, 4 * d + 1, 4 * d + 2, 4 * d + 3].foldl (fun s w => if rd s WNG_STATUS.state w == 2 then wakeWing s w 1 else s) s) s
    let s := (List.range 2).foldl (fun s site => if on s UCI_SITE_CTL.enable site && siteMayTrain s site then siteDark s site 1 else s) s
    .next ((List.range 24).foldl optBringUp s)

/-- A stack's controller is enabled again after a die reset: BRINGUP where bringup asks for it, else the normal start, its contents kept
(R299, R303). -/
def stackStarts (s : State) (w : Nat) : State :=
  if rd s STK_STATUS.state w == 2 || rd s STK_STATUS.state w == 3 || rd s STK_STATUS.state w == 5 then
    wr s STK_STATUS.state w (if on s STK_CTL.bringup w then 5 else if 2 ≤ rd s DIE_STATUS.die_state (w / 2) then 3 else 2)
  else s

/-- A die reset (R614): shares stop as in a shutdown, the logic and the wings are reset, the stacks keep their contents, the links train. -/
def dieReset (s : State) (d : Nat) (pts : List DiePoint) : State :=
  if s.pw.offP3 then s
  else if !dieActive s d || s.hst.resetKind.isSome then setBit s PNL_STATUS.cfg_ignored
  else if dieTripped s d || dieShut s d then s
  else
    let s := if rd s DIE_STATUS.die_state d == 3 then wakeDie s d 1 else s
    let s := stopDie { s with th.stopping := setIns s.th.stopping d } d pts
    let s := [4 * d, 4 * d + 1, 4 * d + 2, 4 * d + 3].foldl wingOffNow (selfRefresh s d)
    let s := wakeDie (wr { s with th.stopping := s.th.stopping.filter (· != d) } DIE_STATUS.die_state d 2) d 1
    let s := [2 * d, 2 * d + 1].foldl stackStarts s
    let s := [4 * d, 4 * d + 1, 4 * d + 2, 4 * d + 3].foldl (fun s w => wakeWing s w 1) s
    [4 * d, 4 * d + 1, 4 * d + 2, 4 * d + 3].foldl (fun s n => startTraining s n false) s

/-- DIE_RESET (R614, R615): op DIE; `pts` are the points at which running shares of the die are found. -/
def execDieReset (d : DieNo) (pts : List DiePoint) (s : State) : Res := .next (bumpFree (dieReset s d pts))

end Sys2Proof.Machine
end

