-- ==== Sys2Proof/Machine/Events.lean ====
section
/-!
DEFINITION. The event controller, the Galleries and the timers (file 17, R549 to R576).
-/

namespace Sys2Proof.Machine

/-! ### Sources, delivery, EOI (R549 to R562) -/

/-- Whether Table 17.1 or 17.2 names an event for a shared source; software sources are EVT_SW_SET's alone (R550). -/
def srcNamed (n : Nat) : Bool :=
  n < 0x020 || (0x040 ≤ n && n < 0x100 && n % 8 != 7) || (0x100 ≤ n && n < 0x100 + 16 * 40 && n % 16 < 14)

/-- EVENT_LATCH (R551, R552): a block raises an event. -/
def execEventLatch (src : Fin 1024) (s : State) : Res := if s.pw.offP3 || !srcNamed src then .next s else .next (raise s src)

/-- EVT_SW_SET (R550): a write of EVT_SW_SET. -/
def execEvtSwSet (n : Fin 128) (s : State) : Res := .next (raise s (0x380 + n.val))

/-- EVT_ACK (R551): a write of EVT_ACK clears the latch of a source. -/
def execEvtAck (src : Fin 1024) (s : State) : Res :=
  .next (wr s EVT_LEVEL.latched (src / 64) (bitClr (rd s EVT_LEVEL.latched (src / 64)) (src % 64)))

/-- The pending enabled shared source of a target with the lowest number (R553). -/
def nextShared (s : State) (target : Nat) : Option Nat :=
  (List.range 1024).find? fun n => bitOn (rd s EVT_PEND.pending (n / 64)) (n % 64) && on s EVT_SRC_CFG.enable n &&
    !bitOn (rd s EVT_MASK.mask (n / 64)) (n % 64) && rd s EVT_SRC_CFG.target n == target

/-- The pending unmasked private source of the host with the lowest number. -/
def nextPrivate (s : State) : Option Nat :=
  (List.range 64).find? fun p => bitOn (rd s EVT_HOST_PRIV.pending) p && !bitOn (rd s EVT_HOST_PRIV_MASK.mask) p

/-- A shared source's pending bit clears. -/
def unpend (s : State) (n : Nat) : State := wr s EVT_PEND.pending (n / 64) (bitClr (rd s EVT_PEND.pending (n / 64)) (n % 64))

/-- A shared source whose handling has ended is pending again if its latch is still set (R552). -/
def repend (s : State) (n : Nat) : State := if bitOn (rd s EVT_LEVEL.latched (n / 64)) (n % 64) then pendSource s n else s

/-- The host takes a source as active, and its message is sent (R555). -/
def hostActive (s : State) (priv : Bool) (n : Nat) : State :=
  let s := wr (wr (setBit s EVT_HOST_ACTIVE.valid) EVT_HOST_ACTIVE.priv 0 (if priv then 1 else 0)) EVT_HOST_ACTIVE.source 0 n
  sendMsix s (if priv then rd s EVT_CTL.priv_vector else rd s EVT_SRC_CFG.vector n)

/-- SOURCE_ACTIVATE (R553 to R555, R562): a target with no active source takes the next one; `eoi` tells that a steward core has written
EOI for the source it held, in a register outside BAR0. -/
def execSourceActivate (target : Fin 5) (eoi : Bool) (s : State) : Res :=
  if !running s then .next s
  else if target.val == 4 then
    if on s EVT_HOST_ACTIVE.valid then .next s
    else match nextShared s 4 with
      | some n => .next (hostActive (unpend s n) false n)
      | none => match nextPrivate s with
        | some p => .next (hostActive (wr s EVT_HOST_PRIV.pending 0 (bitClr (rd s EVT_HOST_PRIV.pending) p)) true p)
        | none => .next s
  else
    let held := kfind s.gal.stewardActive target
    let s := match held with
      | some n => if eoi then { repend s n with gal.stewardActive := kdel s.gal.stewardActive target } else s
      | none => s
    if held.isSome && !eoi then .next s
    else match nextShared s target with
      | some n => .next { unpend s n with gal.stewardActive := kput s.gal.stewardActive target n }
      | none => .next s

/-- EVT_HOST_EOI (R552, R556): a write of EVT_HOST_EOI. -/
def execEvtHostEoi (priv : Bool) (src : BitVec 10) (s : State) : Res :=
  if on s EVT_HOST_ACTIVE.valid && on s EVT_HOST_ACTIVE.priv == priv && rd s EVT_HOST_ACTIVE.source == src.toNat then
    let s := wr (wr (wr s EVT_HOST_ACTIVE.valid 0 0) EVT_HOST_ACTIVE.priv 0 0) EVT_HOST_ACTIVE.source 0 0
    .next (if priv then s else repend s src.toNat)
  else .next (setBit s EVT_STATUS.eoi_mismatch)

/-- EVT_PEND_WRITE (R559, R561): a write of a word of EVT_PEND, or with word 16 of EVT_HOST_PRIV. -/
def execEvtPendWrite (word : Fin 17) (bits : W64) (s : State) : Res :=
  .next (if word.val == 16 then wr s EVT_HOST_PRIV.pending 0 bits.toNat else wr s EVT_PEND.pending word bits.toNat)

/-- RESCAN (R560): a write of EVT_CTL.rescan. -/
def execRescan (s : State) : Res := .next (rescanAll s)

/-- PERIODIC_RESCAN (R560): rescan_ms is over. -/
def execPeriodicRescan (s : State) : Res := if rd s EVT_CTL.rescan_ms == 0 || !running s then .next s else .next (rescanAll s)

/-! ### The Galleries (R564 to R571) -/

/-- Quantity code of a record of a Gallery: 0–39 of dies, 40 and 41 of hubs; none where unassigned (Table 17.4). -/
def galQuantity (g r : Nat) : Option Nat :=
  if g < 40 then
    if r < 16 then some 1 else if r < 20 then some 2 else if r < 24 then some 3 else if r < 28 then some 4 else if r < 30 then some 1
    else if r < 36 then some 4 else if r < 100 then some 5 else none
  else
    if r < 28 then some 1 else if r < 52 then some 6 else if r < 76 then some 7 else if r == 76 then some 8 else if r == 77 then some 9
    else if r < 83 then some 10 else if r < 344 then some 5 else none

/-- Default lo and shift of a quantity (Table 17.5). -/
def galDefault (code : Nat) : Int × Nat :=
  match code with
  | 1 => (40, 2) | 2 => (550, 5) | 3 => (500, 6) | 4 => (0, 0) | 5 => (0, 4) | 6 => (-40, 2) | 7 => (30, 1) | 8 => (380, 4) | 9 => (0, 5) | 10 => (0, 6)
  | _ => (0, 0)

/-- Whether a Gallery keeps a record: assigned, its die active or its hub up; records 4 and up of a hub are the primary's (R564). -/
def galKeeps (s : State) (g r : Nat) : Bool :=
  (galQuantity g r).isSome &&
  (if g < 40 then dieActive s g else s.hst.hubsUp.contains (g - 40) && (r < 4 || g - 40 == primaryHub s))

/-- A record with its bins and extremes at their values before a first sample. -/
def galFresh (lo : Int) (shift : Nat) : GalRec := ⟨List.replicate 16 0, none, none, shift, lo, 0, 0, false⟩

/-- The key of a record. -/
def galKey (g r : Nat) : Nat := 1024 * g + r

/-- The working copy of a record. -/
def galGet (s : State) (g r : Nat) : GalRec :=
  let d := galDefault ((galQuantity g r).getD 0)
  kget s.gal.galWork (galKey g r) (galFresh d.1 d.2)

/-- The bin of a sample (R566). -/
def galBin (x : GalRec) (v : Int) : Nat :=
  let b := (v - x.lo) / (2 ^ x.shift : Nat)
  if b < 0 then 0 else min 15 b.toNat

/-- Take a sample (R566). -/
def galAdd (x : GalRec) (v : Int) (tick : Nat) : GalRec :=
  let b := galBin x v
  let full := x.bins.getD b 0 == 65535
  let bins := if full then x.bins.map (· / 2) else x.bins
  { x with
    bins := bins.set b (bins.getD b 0 + 1)
    halvings := if full then min 63 (x.halvings + 1) else x.halvings
    low := match x.low with | some (w, t) => if v < w then some (v, tick) else some (w, t) | none => some (v, tick)
    high := match x.high with | some (w, t) => if w < v then some (v, tick) else some (w, t) | none => some (v, tick) }

/-- Whether a record's quantity is sampled now: nothing in a die without power (R519), and beat rates in W0 only (Table 17.5). -/
def galSamples (s : State) (g r : Nat) : Bool :=
  galKeeps s g r && (40 ≤ g || (rd s DIE_STATUS.die_state g != 3 && (r / 4 != 5 || rd s WNG_STATUS.state (4 * g + r % 4) == 0)))

/-- GALLERY_SAMPLE (R565, R566): a sample of a record's quantity. -/
def execGallerySample (g : Fin 42) (r : Fin 1024) (v : BitVec 32) (s : State) : Res :=
  if !galSamples s g r then .next s
  else .next { s with gal.galWork := kput s.gal.galWork (galKey g r) (galAdd (galGet s g r) v.toInt (kget s.ticks g 0)) }

/-- Publish one record (R568, R571). -/
def galPublish (s : State) (g r : Nat) : State :=
  let k := galKey g r
  let w := galGet s g r
  let w := match kfind s.gal.galBins k with
    | some (lo, sh) => { w with bins := List.replicate 16 0, halvings := 0, lo := lo, shift := sh }
    | none => w
  let seq := match kfind s.gal.galSeen k with | some x => x.seq | none => 0
  { s with
    gal.galWork := kput s.gal.galWork k w
    gal.galBins := kdel s.gal.galBins k
    gal.galSeen := kput s.gal.galSeen k { w with seq := (seq + 1) % 2 ^ 31, valid := true } }

/-- GALLERY_PUBLISH (R565, R568, R570): publish_us is over in a Gallery: every record but a held one is published. -/
def execGalleryPublish (g : Fin 42) (s : State) : Res :=
  let rs := (List.range 1024).filter fun r => galKeeps s g r && !(s.gal.galHold.any fun e => e.2 == galKey g r)
  .next (rs.foldl (fun s r => galPublish s g r) s)

/-- The record that a GAL block's cursor selects: block 0–39 of a die, 40 of the panel. -/
def galSelected (s : State) (b : Nat) : Nat × Nat :=
  (if b < 40 then b else 40 + rd s GAL_CURSOR.hub b, rd s GAL_CURSOR.record b)

/-- GAL_CURSOR_WRITE (R570, R571): a write of GAL_CURSOR of a block. -/
def execGalCursorWrite (b : Fin 41) (record : BitVec 10) (hub clear : Bool) (s : State) : Res :=
  let s := wr (wr s GAL_CURSOR.record b record.toNat) GAL_CURSOR.hub b (if b.val == 40 && hub then 1 else 0)
  let (g, r) := galSelected s b
  let s := { s with gal.galHold := if rd s GAL_CTL.hold_us b == 0 then kdel s.gal.galHold b else kput s.gal.galHold b (galKey g r) }
  let w := galGet s g r
  .next (if clear && (galQuantity g r).isSome then { s with gal.galWork := kput s.gal.galWork (galKey g r) (galFresh w.lo w.shift) } else s)

/-- GAL_BINS_WRITE (R571): a write of GAL_BINS for the selected record. -/
def execGalBinsWrite (b : Fin 41) (lo : BitVec 16) (shift : BitVec 4) (s : State) : Res :=
  let (g, r) := galSelected s b
  if (galQuantity g r).isNone then .next s
  else .next { s with gal.galBins := kput s.gal.galBins (galKey g r) (lo.toInt, shift.toNat) }

/-- HOLD_END (R570): the hold of a block's cursor ends, and the held samples are published. -/
def execHoldEnd (b : Fin 41) (s : State) : Res :=
  match kfind s.gal.galHold b with
  | none => .next s
  | some k =>
    let s := { s with gal.galHold := kdel s.gal.galHold b }
    if galKeeps s (k / 1024) (k % 1024) then .next (galPublish s (k / 1024) (k % 1024)) else .next s

/-- A visible record as 64 bytes (Table 17.6). -/
def galBytes (g r : Nat) (x : GalRec) : List Byte :=
  let int (n : Nat) (v : Int) : List Byte := leBytes n (v % (2 ^ (8 * n) : Nat)).toNat
  x.bins.flatMap (leBytes 2) ++
  (match x.low with | some (v, _) => int 4 v | none => leBytes 4 0x7FFFFFFF) ++
  (match x.high with | some (v, _) => int 4 v | none => leBytes 4 0x80000000) ++
  leBytes 8 ((x.low.map (·.2)).getD 0) ++ leBytes 8 ((x.high.map (·.2)).getD 0) ++
  leBytes 2 ((galQuantity g r).getD 0 + x.shift * 2 ^ 6 + x.halvings * 2 ^ 10) ++ int 2 x.lo ++
  leBytes 4 (x.seq + if x.valid then 2 ^ 31 else 0)

/-- The record that a block's window shows; one never published, or not kept here, reads with valid 0. -/
def galWindow (s : State) (b : Nat) : List Byte :=
  let (g, r) := galSelected s b
  match (if galKeeps s g r then kfind s.gal.galSeen (galKey g r) else none) with
  | some x => galBytes g r x
  | none => List.replicate 64 0

/-! ### Timers (R572 to R575) -/

/-- One period of 10 ns (R572): every hub whose main domain runs and every active die not in D3 counts it. -/
def clockTick (s : State) : State :=
  if s.pw.offP3 then s
  else
    let up := (s.hst.hubsUp.map (40 + ·)) ++ (List.range 40).filter fun d => dieActive s d && rd s DIE_STATUS.die_state d != 3
    let s := { s with ticks := up.foldl (fun m u => kput m u ((kget m u 0 + 1) % 2 ^ 64)) s.ticks }
    -- TIMERs count with the primary hub's tick (R211)
    let s := if s.hst.hubsUp.contains (primaryHub s) then countTimers s else s
    -- a load's request and barrier numbers that waited go out (R354), and packets that waited on the panel's network go on (R330)
    tcnDrain false (tellBarriers (askLoad s))

/-- TMR_CORR (R574): a write of TMR_CORR.go samples every tick at one instant. -/
def execTmrCorr (s : State) : Res :=
  let s := wr s TMR_CORR_HUB.tick 0 (hubTick s)
  .next ((List.range 40).foldl (fun s d => wr s TMR_CORR_DIE.tick d (if dieActive s d then kget s.ticks d 0 else 0)) s)

/-- ALARM (R575): alarm k is due when the primary hub's tick has reached its compare value, as a signed difference. -/
def execAlarm (k : Fin 16) (s : State) : Res :=
  let diff := (hubTick s + 2 ^ 64 - rd s TMR_ALARM_CMP.compare k) % 2 ^ 64
  if on s TMR_ALARM_CTL.enable k && diff < 2 ^ 63 then
    let s := wr s EVT_HOST_PRIV.pending 0 (bitSet (rd s EVT_HOST_PRIV.pending) k)
    if rd s TMR_ALARM_CTL.period k == 0 then .next (wr s TMR_ALARM_CTL.enable k 0)
    else .next (wr s TMR_ALARM_CMP.compare k ((rd s TMR_ALARM_CMP.compare k + rd s TMR_ALARM_CTL.period k) % 2 ^ 64))
  else .next s

end Sys2Proof.Machine
end

