-- ==== Sys2Proof/Machine/Security.lean ====
section
/-!
DEFINITION. The security mailbox, attestation and IDE keys (file 18, R577 to R597).
-/

namespace Sys2Proof.Machine

/-! ### The mailbox (R596, R597, Table 18.12) -/

def mbOk : Nat := 0
def mbRefused : Nat := 1
def mbBadToken : Nat := 2
def mbBusy : Nat := 3
def mbPath : Nat := 4
def mbFuseFail : Nat := 5

/-- Bytes of the mailbox buffer. -/
def mbBuf (s : State) : List Byte := (List.range 16).flatMap fun i => leBytes 8 (rd s SEC_MBOX_BUF.data i)

/-- A command completes with a result; the buffer is cleared after it. -/
def mbDone (s : State) (result : Nat) : State :=
  let s := (List.range 16).foldl (fun s i => wr s SEC_MBOX_BUF.data i 0) (wr s SEC_MBOX_CMD.result 0 result)
  if result == mbPath then setBit s SEC_STATUS.path_rejected else s

/-- Run a mailbox command of a code that arrives over a path: with no power it is not heard, during a panel transition it is BUSY, over
a path that Table 18.12 does not allow it is PATH. -/
def mbRun (s : State) (code : Nat) (anyPath : Bool) (path : SecPath) (f : State → State × Nat) : State :=
  if s.pw.offP3 then s
  else
    let s := wr s SEC_MBOX_CMD.cmd 0 code
    -- BUSY changes nothing, not even the buffer (R596)
    if on s PWR_PSTATE.busy then wr s SEC_MBOX_CMD.result 0 mbBusy
    else if !anyPath && path != .management then mbDone s mbPath
    else let (s, r) := f s; mbDone s r

/-- The lifecycle in force: 0 MANUFACTURE, 1 PROVISION, 2 FIELD, 3 RETURN (Table 18.6). -/
def lifecycle (s : State) : Nat := rd s SEC_STATUS.lifecycle

/-- Enter OPEN (R593). -/
def openDebug (s : State) (duration : Nat) : State :=
  let s := setBit (eraseIde (eraseIde s 0) 1) SEC_STATUS.open_seen
  { wr (wr s SEC_STATUS.debug 0 2) DBG_STATUS.open_left_s 0 duration with sec.openTimed := duration != 0, sec.openAt := hubTick s }

/-- GET_NONCE (R592). -/
def execGetNonce (path : SecPath) (s : State) : Res :=
  .next (mbRun s 0x01 true path fun s =>
    ({ wr s SEC_NONCE.nonce 0 (Config.nonce s.sec.nonceCount).toNat with sec.nonceLive := true, sec.nonceCount := s.sec.nonceCount + 1 }, mbOk))

/-- Whether an unlock token is accepted (R591, Table 18.8). -/
def tokenOk (s : State) (b : List Byte) : Bool :=
  let key := (b.drop 0x18).take 32
  leAt b 0 4 == 0x51544B31 && leAt b 4 2 == 1 && (leAt b 6 1 == 2 || leAt b 6 1 == 3) &&
  leAt b 8 4 == rd s PNL_ID.serial && s.sec.nonceLive && leAt b 0x10 8 == rd s SEC_NONCE.nonce &&
  Config.sha512 key == s.sec.authDigest.getD Config.rootDigest &&
  Config.ed25519Valid (BitVec.ofNat 256 (leNat key)) (b.take 0x38) (BitVec.ofNat 512 (leAt b 0x38 64))

/-- UNLOCK (R586, R590 to R593): the token in the buffer; `blown` tells that the fuses of a transition to RETURN blow in both hubs. -/
def execUnlock (path : SecPath) (blown : Bool) (s : State) : Res :=
  .next (mbRun s 0x02 true path fun s =>
    let b := mbBuf s
    if lifecycle s == 0 || lifecycle s == 3 then (s, mbRefused)
    else if !tokenOk s b then (setBit (dropNonce s) SEC_STATUS.token_rejected, mbBadToken)
    else
      let s := dropNonce s
      if leAt b 6 1 == 2 then (openDebug s (leAt b 0x0C 4), mbOk)
      else (wr s SEC_STATUS.lifecycle_next 0 3, if blown then mbOk else mbFuseFail))

/-- SET_DEBUG (R590): arg [1:0]. -/
def execSetDebug (path : SecPath) (s : State) : Res :=
  .next (mbRun s 0x03 true path fun s =>
    match rd s SEC_MBOX_ARG.arg % 4 with
    | 0 => (sealDebug s, mbOk)
    | 1 => (wr (sealDebug s) SEC_STATUS.debug 0 1, mbOk)
    | 2 => if lifecycle s == 0 || lifecycle s == 3 then (openDebug s 0, mbOk) else (s, mbRefused)
    | _ => (s, mbRefused))

/-- ADVANCE_ARB (R580): `blown0` and `blown1` tell in which hubs the fuses blow. -/
def execAdvanceArb (path : SecPath) (blown0 blown1 : Bool) (s : State) : Res :=
  .next (mbRun s 0x04 false path fun s =>
    let arg := rd s SEC_MBOX_ARG.arg
    let i := arg / 256 % 4
    let v := arg % 128
    if 64 < v || v < arbCount s i || rd s SEC_ARB.running_ver / 2 ^ (8 * i) % 256 < v then (s, mbRefused)
    else
      let blow (m : KMap Nat) (h : Nat) : KMap Nat := kput m (4 * h + i) (max v (kget m (4 * h + i) 0))
      let m := s.sec.arbFuses
      let m := if blown0 then blow m 0 else m
      let m := if blown1 then blow m 1 else m
      (showArb { s with sec.arbFuses := m }, if blown0 && blown1 then mbOk else mbFuseFail))

/-- LIFECYCLE (R586): arg [1:0]: PROVISION from MANUFACTURE, FIELD from PROVISION; in force at the next cold or warm reset. -/
def execLifecycle (path : SecPath) (blown : Bool) (s : State) : Res :=
  .next (mbRun s 0x05 false path fun s =>
    let dest := rd s SEC_MBOX_ARG.arg % 4
    if (dest == 1 || dest == 2) && lifecycle s + 1 == dest && rd s SEC_STATUS.lifecycle_next == lifecycle s then
      (wr s SEC_STATUS.lifecycle_next 0 dest, if blown then mbOk else mbFuseFail)
    else (s, mbRefused))

/-- FUSE_AUTH (R577): the digest in buffer bytes 0–63; in PROVISION, once. -/
def execFuseAuth (path : SecPath) (blown : Bool) (s : State) : Res :=
  .next (mbRun s 0x06 false path fun s =>
    if lifecycle s != 1 || s.sec.authDigest.isSome then (s, mbRefused)
    else ({ s with sec.authDigest := some (BitVec.ofNat 512 (leAt (mbBuf s) 0 64)) }, if blown then mbOk else mbFuseFail))

/-- NONCE_EXPIRY (R592): 600 s after it was made. -/
def execNonceExpiry (s : State) : Res := .next (dropNonce s)

/-- OPEN_EXPIRY (R594): open_left_s reaches 0. -/
def execOpenExpiry (s : State) : Res := if rd s SEC_STATUS.debug == 2 && s.sec.openTimed then .next (sealDebug s) else .next s

/-- DBG_SEAL (R590): a write of DBG_CTL.seal. -/
def execDbgSeal (s : State) : Res := .next (sealDebug s)

/-! ### Attestation (R581 to R583, Tables 18.4, 18.5, 18.10) -/

/-- Whether the responder has the full code S (Table 18.10): PROVISION or FIELD. -/
def attests (s : State) : Bool := lifecycle s == 1 || lifecycle s == 2

/-- The private seed of the identity key (R581). -/
def identitySeed : BitVec 256 :=
  let label : List Byte := [0x51, 0x58, 0x39, 0x20, 0x49, 0x44, 0x45, 0x4E, 0x54, 0x49, 0x54, 0x59]
  (Config.sha512 (label ++ leBytes 32 Config.deviceSeed.toNat)).truncate 256

/-- A signature with the identity key over the requester's nonce (R583). -/
def signNonce (nonce : BitVec 256) : BitVec 512 := Config.ed25519Sign identitySeed (leBytes 32 nonce.toNat)

/-- A certificate slot's contents: slot 0 holds the maker's chain from PROVISION on (R582). -/
def certSlot (s : State) (slot : Nat) : List Byte :=
  if slot == 0 then (if lifecycle s == 0 then [] else Config.factoryChain) else kget s.sec.certs slot []

/-- Answer a request on a port: nothing without power (code N), ERROR where the exchange has not come to its step or the attestation code
does not allow it. -/
def spdmAnswer (s : State) (port step : Nat) (full : Bool) (f : State → State × SpdmAns) : State :=
  if s.pw.offP3 || rd s PNL_HOST_STATUS.rate port == 0 then s
  else if full && !attests s then emit s (.spdm port (.error true))
  else if kget s.sec.spdmStep port 0 < step then emit s (.spdm port (.error false))
  else let (s, a) := f s; emit s (.spdm port a)

/-- The exchange on a port has come to a step. -/
def spdmAt (s : State) (port step : Nat) : State := { s with sec.spdmStep := kput s.sec.spdmStep port step }

/-- GET_VERSION: 1.2 alone. -/
def execGetVersion (port : HostPortNo) (s : State) : Res := .next (spdmAnswer s port 0 false fun s => (spdmAt s port 1, .version [0x12]))

/-- GET_CAPABILITIES. -/
def execGetCapabilities (port : HostPortNo) (s : State) : Res := .next (spdmAnswer s port 1 false fun s => (spdmAt s port 2, .capabilities))

/-- NEGOTIATE_ALGORITHMS: `common` tells that the requester offers the algorithms of Table 18.4. -/
def execNegotiateAlgorithms (port : HostPortNo) (common : Bool) (s : State) : Res :=
  .next (spdmAnswer s port 2 false fun s => if common then (spdmAt s port 3, .algorithms) else (s, .error false))

/-- GET_DIGESTS: digests of the filled slots. -/
def execGetDigests (port : HostPortNo) (s : State) : Res :=
  .next (spdmAnswer s port 3 true fun s =>
    (s, .digests (([0, 1].filter fun i => !(certSlot s i).isEmpty).map fun i => (i, Config.sha512 (certSlot s i)))))

/-- GET_CERTIFICATE (R582): a part of a slot's chain. -/
def execGetCertificate (port : HostPortNo) (slot : Fin 8) (offset length : BitVec 16) (s : State) : Res :=
  .next (spdmAnswer s port 3 true fun s =>
    let c := if slot.val < 2 then certSlot s slot else []
    if c.isEmpty then (s, .error false) else (s, .certificate slot ((c.drop offset.toNat).take length.toNat)))

/-- CHALLENGE (R583): signed over the requester's nonce. -/
def execChallenge (port : HostPortNo) (slot : Fin 8) (nonce : BitVec 256) (s : State) : Res :=
  .next (spdmAnswer s port 3 true fun s =>
    if 2 ≤ slot.val || (certSlot s slot).isEmpty then (s, .error false) else (s, .challengeAuth (signNonce nonce)))

/-- A measurement block (Table 18.5). -/
def measurement (s : State) (i : Nat) : List Byte :=
  if i ≤ 4 then kget s.sec.imgDigest (i - 1) (List.replicate 64 0)
  else
    let flags := rd s SEC_STATUS.open_seen + (if rd s SEC_STATUS.copy_b != 0 then 2 else 0) + (if s.sec.authDigest.isSome then 4 else 0)
    [lifecycle s, rd s SEC_STATUS.debug, flags, arbCount s 0, arbCount s 1, arbCount s 2, arbCount s 3, 0, 0, 0, 0, 0, 0, 0, 0, 0].map fun v =>
      (BitVec.ofNat 8 v : Byte)

/-- GET_MEASUREMENTS (R583): one block, or every block with index 0xFF; signed or not. -/
def execGetMeasurements (port : HostPortNo) (index : BitVec 8) (signed : Bool) (nonce : BitVec 256) (s : State) : Res :=
  .next (spdmAnswer s port 3 signed fun s =>
    let i := index.toNat
    let blocks := if i == 0xFF then [1, 2, 3, 4, 5] else if 1 ≤ i && i ≤ 5 then [i] else []
    if blocks.isEmpty then (s, .error false)
    else (s, .measurements (blocks.map fun i => (i, measurement s i)) (if signed then some (signNonce nonce) else none)))

/-- KEY_EXCHANGE (R593, Table 18.4): refused while OPEN; at most 2 sessions on a port. -/
def execKeyExchange (port : HostPortNo) (s : State) : Res :=
  .next (spdmAnswer s port 3 true fun s =>
    let mine := s.sec.sessions.filter (·.port == port.val)
    if rd s SEC_STATUS.debug == 2 || 2 ≤ mine.length then (s, .error false)
    else
      let id := if mine.any (·.id == 0) then 1 else 0
      ({ s with sec.sessions := s.sec.sessions ++ [⟨port, id, false⟩] }, .keyExchange id))

/-- FINISH: `valid` tells that the requester's check value is right. -/
def execFinish (port : HostPortNo) (id : Fin 2) (valid : Bool) (s : State) : Res :=
  .next (spdmAnswer s port 3 true fun s =>
    let mine (x : SpdmSession) : Bool := x.port == port.val && x.id == id.val
    if valid && s.sec.sessions.any (fun x => mine x && !x.done) then
      ({ s with sec.sessions := s.sec.sessions.map fun x => if mine x then { x with done := true } else x }, .finish id)
    else (s, .error false))

/-- END_SESSION. -/
def execEndSession (port : HostPortNo) (id : Fin 2) (s : State) : Res :=
  .next (spdmAnswer s port 3 true fun s =>
    let mine (x : SpdmSession) : Bool := x.port == port.val && x.id == id.val && x.done
    if s.sec.sessions.any mine then ({ s with sec.sessions := s.sec.sessions.filter fun x => !mine x }, .endSession id) else (s, .error false))

/-- GET_CSR: in PROVISION only; the request is signed with IK. -/
def execGetCsr (port : HostPortNo) (nonce : BitVec 256) (s : State) : Res :=
  .next (spdmAnswer s port 3 true fun s => if lifecycle s == 1 then (s, .csr (signNonce nonce)) else (s, .error true))

/-- SET_CERTIFICATE (R582): slot 1, in PROVISION only, at most 4 KiB. -/
def execSetCertificate (port : HostPortNo) (slot : Fin 8) (chain : List Byte) (s : State) : Res :=
  .next (spdmAnswer s port 3 true fun s =>
    if lifecycle s != 1 then (s, .error true)
    else if slot.val != 1 || 4096 < chain.length then (s, .error false)
    else ({ s with sec.certs := kput s.sec.certs 1 chain }, .setCertificate 1))

/-- Whether a port's streams are in the secure state: every programmed key started. -/
def ideShow (s : State) (port : Nat) : State :=
  let mine := s.sec.ideKeys.filter (·.port == port)
  let b (x : Bool) : Nat := if x then 1 else 0
  wr (wr s (if port == 0 then SEC_STATUS.ide_a else SEC_STATUS.ide_b) 0 (b !mine.isEmpty)) PNL_HOST_STATUS.ide port (b (mine.any (·.active)))

/-- CXL_IDE_KM (R584): key management in an established session of a port; no key can be programmed while OPEN (R593). -/
def execCxlIdeKm (port : HostPortNo) (id : Fin 2) (op : IdeKmOp) (s : State) : Res :=
  .next (spdmAnswer s port 3 true fun s =>
    if !(s.sec.sessions.any fun x => x.port == port.val && x.id == id.val && x.done) || rd s SEC_STATUS.debug == 2 then (s, .error false)
    else
      let mine (n : Nat) (k : IdeKey) : Bool := k.port == port.val && k.slot == n
      let setActive (n : Nat) (v : Bool) : State :=
        { s with sec.ideKeys := s.sec.ideKeys.map fun k => if mine n k then { k with active := v } else k }
      let s := match op with
        | .program n key => { s with sec.ideKeys := s.sec.ideKeys.filter (fun k => !mine n.toNat k) ++ [⟨port, n.toNat, key, false⟩] }
        | .setGo n => setActive n.toNat true
        | .setStop n => setActive n.toNat false
      (ideShow s port, .ideKm))

end Sys2Proof.Machine
end

