-- ==== Sys2Proof/Machine/HostPort.lean ====
section
/-!
DEFINITION. The host ports: port modes and MSI-X (R601, R603), the CXL.mem window (R604 to R607), hub takeover (R608 to R610), and the
PMBus commands (R612).
-/

namespace Sys2Proof.Machine

/-! ### Port modes and MSI-X -/

/-- HOST_MODE_WRITE (R601): a write of PNL_HOST_CTL.mode: 0 ACTIVE_STANDBY, 1 DUAL. -/
def execHostModeWrite (dual : Bool) (s : State) : Res := .next (setRoles (wr s PNL_HOST_CTL.mode 0 (if dual then 1 else 0)))

/-- Send every message that waits in a port's pending-bit array and can go (R603). -/
def msixFlush (s : State) (p : Nat) : State :=
  let m := kget s.msix p ⟨false, [], []⟩
  if !m.enabled || rd s PNL_HOST_STATUS.rate p == 0 then s
  else
    let go := m.pba.filter fun v => m.unmasked.contains v
    let s := { s with msix := kput s.msix p { m with pba := m.pba.filter fun v => !m.unmasked.contains v } }
    go.foldl (fun s v => emit s (.msix v)) s

/-- MSIX_UNMASK (R603): the host writes a port's MSI-X enable or a vector's mask; a message that may now go is sent. -/
def execMsixUnmask (p : HostPortNo) (op : MsixOp) (s : State) : Res :=
  let m := kget s.msix p ⟨false, [], []⟩
  let m := match op with
    | .enable v => { m with enabled := v }
    | .vector n u => { m with unmasked := if u then setIns m.unmasked n else m.unmasked.filter (· != n.val) }
  if s.pw.offP3 then .next s else .next (msixFlush { s with msix := kput s.msix p m } p)

/-! ### The CXL.mem window -/

/-- Lines that the snoop filter tracks (R607). -/
def snoopCap : Nat := 1048576

/-- The device physical address of a window offset; none for a hole access (R604, R605). -/
def winAddr (s : State) (h : Nat) : Option Nat :=
  let g := h / 2 ^ 34
  let w := rd s PNL_MEM_SEG.window g
  let a := w * 2 ^ 36 + rd s PNL_MEM_SEG.part g * 2 ^ 34 + h % 2 ^ 34
  if !on s PNL_MEM_SEG.valid g || 80 ≤ w then none
  else match placeOf s a with
    | .stack _ => some a
    | _ => none

/-- Sixty-four bytes that the spec leaves open: the data of a poisoned read whose stack answers nothing. -/
def freeLine (s : State) : List Byte := (List.range 64).map fun i => BitVec.ofNat 8 (Config.pick s.free i)

/-- The host takes a line into its caches, or no longer keeps it. -/
def snoopSet (s : State) (a : Nat) (hold : Bool) : State :=
  let rest := s.hst.snoop.filter fun l => l.1 != a
  { s with hst.snoop := if hold then (if rest.length == s.hst.snoop.length then s.hst.snoop ++ [(a, false)] else s.hst.snoop) else rest }

/-- Back-invalidate the line that entered the full filter earliest (R607). -/
def snoopEvict (s : State) : State :=
  match s.hst.snoop with
  | (l, false) :: rest => { emit s (.bisnp l) with hst.snoop := (l, true) :: rest }
  | _ => s

/-- An access of a line of the window that has come to its device physical address. -/
def winDo (s : State) (p a : Nat) (op : WinOp) : State :=
  -- the host's own copies are no hindrance to its own access
  let open_ : State := { s with hst.snoop := [] }
  let back (t : State) : State := { t with hst.snoop := s.hst.snoop }
  match op with
  | .read hold =>
    let g := readFlat open_ a 64
    if g.status == stWait then s
    else
      let data := if g.data.isEmpty then freeLine s else g.data
      let t := emit (back g.s) (.winData p data (g.status != stOk))
      if g.data.isEmpty then bumpFree t else snoopSet t a hold
  | .write data hold =>
    let (t, st) := writeFlat open_ 0 0 a (leBytes 64 data.toNat)
    if st == stWait then s else snoopSet (emit (back t) (.winDone p)) a (hold && st == stOk)

/-- WINDOW_ACCESS (R604 to R607): a host access of the 64-byte line at window offset 64·line, through the home port with its HDM decoder
committed and within the segments in force. An access whose stack cannot answer yet, or that finds the snoop filter full, waits: the
command then changes nothing but a back-invalidate. -/
def execWindowAccess (p : HostPortNo) (line : BitVec 36) (op : WinOp) (s : State) : Res :=
  let h := 64 * line.toNat
  if s.pw.offP3 || p.val != homePort s || !on s PNL_HOST_STATUS.mem_en p || rd s PNL_HOST_STATUS.rate p == 0 ||
     inForce s PNL_MEM_WIN.segments ≤ h / 2 ^ 34 then .next s
  else match winAddr s h with
    | none =>
      let s := incWrap s PNL_WIN_HOLES.holes
      .next (match op with
        | .read _ => emit s (.winData p (List.replicate 64 0) false)
        | .write _ _ => emit s (.winDone p))
    | some a =>
      let hold := match op with | .read b => b | .write _ b => b
      if hold && !(s.hst.snoop.any fun l => l.1 == a) && snoopCap ≤ s.hst.snoop.length then .next (snoopEvict s)
      else .next (winDo s p a op)

/-- BISNP (R607): a recalled line comes back from the host, with data where the host had changed it; or the host gives a line up. -/
def execBisnp (line : BitVec 46) (data : Option Line) (s : State) : Res :=
  let a := 64 * line.toNat
  if !(s.hst.snoop.any fun l => l.1 == a) then .next s
  else
    let s := snoopSet s a false
    match data with
    | some d => .next (writeFlat s 0 0 a (leBytes 64 d.toNat)).1
    | none => .next s

/-- PNL_MEM_SEG_WRITE (R605): a write of a segment entry. -/
def execPnlMemSegWrite (seg : Fin 256) (v : W64) (s : State) : Res :=
  let n := v.toNat
  .next (wr (wr (wr s PNL_MEM_SEG.valid seg (n / 2 ^ 15)) PNL_MEM_SEG.window seg (n / 4)) PNL_MEM_SEG.part seg n)

/-! ### Hub takeover -/

/-- Step 1 of Table 19.2, where a takeover may be made: the former primary's port is disabled and credits freeze (R504, R608 to R610). -/
def startTakeover (s : State) : State :=
  let p := homePort s
  setFrozen { portLinkDown s p true with hst.takingOver := true, hst.portHeld := setIns s.hst.portHeld p }

/-- Whether a takeover can be asked for: the main domains run, no reset and no takeover is in progress (R608). -/
def mayTake (s : State) : Bool := !s.pw.offP3 && s.hst.resetKind.isNone && !s.hst.takingOver && !s.hst.hubLost

/-- The primary hub has failed (R609): its standby takes over, or stops dispatch and reports HUB_LOST. -/
def hubFails (s : State) : State :=
  if !mayTake s then s
  else if on s PNL_HUB_ROLE.peer_synced then startTakeover s
  else emit { s with hst.hubLost := true } .hubLost

/-- A hub is taken out of service (Table 1.9): the primary fails over to its standby; a standby stops. Its links, far ports and third-party site go
down with it. -/
def retireHub (s : State) (h : Nat) : State :=
  let s := if h == primaryHub s then hubFails s
    else portLinkDown { wr s PNL_HUB_ROLE.peer_synced 0 0 with hst.hubsUp := s.hst.hubsUp.filter (· != h), hst.portHeld := setIns s.hst.portHeld h } h true
  let s := (linkUnits.map (· - 120)).foldl (fun s n => if linkOther n == .hub h then showLink s n tcnDown 0 else s) s
  let s := [2 * h, 2 * h + 1].foldl (fun s f =>
    if on s FAR_PORT_STATUS.link_up f then
      let s := wr (wr (wr s FAR_PORT_STATUS.link_up f 0) FAR_PORT_STATUS.rate f 0) FAR_PORT_STATUS.width f 0
      raise (farFailAll (incSat s FAR_PORT_ERR.link_downs f) f false) (0x01C + f)
    else s) s
  if rd s UCI_SITE_STATUS.state h == 3 then siteFalls s h 4 else s

/-- TAKEOVER (R608, R609): a write of PNL_HOST_CTL.takeover. -/
def execTakeover (mgmt : Bool) (s : State) : Res :=
  if !mgmt then .next (setBit s PNL_STATUS.cfg_ignored)
  else if mayTake s && on s PNL_HUB_ROLE.peer_synced then .next (startTakeover s) else .next s

/-- HEARTBEAT_MISS (R608, R609): the primary's steward firmware misses its heartbeat for 10 ms. -/
def execHeartbeatMiss (s : State) : Res := .next (hubFails s)

/-- HUB_DOMAIN_FAULT (R608, R609): the primary hub's main domain faults. -/
def execHubDomainFault (s : State) : Res := .next (hubFails s)

/-- HOME_PORT_DOWN (R608, R609): the home port has been down for host_down_ms while the standby's port is up. -/
def execHomePortDown (s : State) : Res :=
  if mayTake s && on s PNL_HUB_ROLE.peer_synced && rd s PNL_HOST_STATUS.rate (homePort s) == 0 && rd s PNL_HOST_STATUS.rate (1 - homePort s) != 0
  then .next (startTakeover s) else .next s

/-- A tick of the former primary as a tick of the new one: a hub timer keeps its remaining time (R573). -/
def rebase (old new t : Nat) : Nat := (t + new + 2 ^ 64 - old % 2 ^ 64) % 2 ^ 64

/-- Hub timers continue on the new primary with their remaining time (R573). -/
def rebaseTimers (s : State) (old new : Nat) : State :=
  let f := rebase old new
  { wr s THM_REQ.deadline 0 (f (rd s THM_REQ.deadline)) with
    th.sensors := s.th.sensors.map fun x => (x.1, { x.2 with graceAt := f x.2.graceAt })
    th.shutTicks := s.th.shutTicks.map fun x => (x.1, x.2.map f)
    relockTicks := s.relockTicks.map fun x => (x.1, x.2.map f)
    berTick := s.berTick.map fun x => (x.1, f x.2)
    pw.credHist := s.pw.credHist.map fun x => (x.1, f x.2)
    sec.openAt := f s.sec.openAt }

/-- HUB_TAKEOVER (R610, Table 19.2): steps 2 to 4 of a takeover in progress: the primary flips and the former one is reset; doorbell
lines are read again, events rescanned, the host's active message sent again; dispatch and credits resume. -/
def execHubTakeover (s : State) : Res :=
  if !s.hst.takingOver then .next s
  else
    let old := primaryHub s
    let new := 1 - old
    let s := rebaseTimers s (kget s.ticks (40 + old) 0) (kget s.ticks (40 + new) 0)
    let s := incSat (wr s PNL_HUB_ROLE.primary 0 new) PNL_HUB_ROLE.takeovers
    let s := { wr s PNL_HUB_ROLE.peer_synced 0 0 with hst.hubsUp := s.hst.hubsUp.filter (· != old), hst.takingOver := false }
    -- Table 18.11, R592, R594
    let s := dropNonce (sealDebug (eraseIde s old))
    -- the new primary starts the hub Gallery's records from clear, and the former one is reset (R564, R610)
    let mine (k : Nat) : Bool := k / 1024 == 40 + old || (k / 1024 == 40 + new && 4 ≤ k % 1024)
    let s := { s with
      gal.galWork := s.gal.galWork.filter fun e => !mine e.1
      gal.galSeen := s.gal.galSeen.filter fun e => !mine e.1
      gal.galBins := s.gal.galBins.filter fun e => !mine e.1 }
    let s := rescanAll (dbRestart s)
    let s := if on s EVT_HOST_ACTIVE.valid then
        sendMsix s (if on s EVT_HOST_ACTIVE.priv then rd s EVT_CTL.priv_vector else rd s EVT_SRC_CFG.vector (rd s EVT_HOST_ACTIVE.source))
      else s
    .next (setFrozen (setRoles s))

/-- HUB_SYNC (R44, R610): the standby hub runs (again, after a takeover) and holds a current copy of hub state: from then on a change is
acknowledged only once the standby holds it. Its port is no longer held. -/
def execHubSync (s : State) : Res :=
  if s.pw.offP3 || s.hst.resetKind.isSome || s.hst.takingOver || s.hst.hubLost || unitState s (305 - primaryHub s) == 4 then .next s
  else
    let standby := 1 - primaryHub s
    .next { setBit s PNL_HUB_ROLE.peer_synced with
      hst.hubsUp := setIns s.hst.hubsUp standby, hst.portHeld := s.hst.portHeld.filter (· != standby) }

/-! ### PMBus (R612) -/

/-- Mantissa of a value num / den at exponent e − 16, rounded down, and whether the rounding is exact. -/
def linMant (num den e : Nat) : Nat × Bool :=
  if e < 16 then (num * 2 ^ (16 - e) / den, num * 2 ^ (16 - e) % den == 0)
  else (num / (den * 2 ^ (e - 16)), num % (den * 2 ^ (e - 16)) == 0)

/-- A value num / den in LINEAR11: Y · 2^N with Y an 11-bit and N a 5-bit two's complement number. PMBus 1.3 fixes neither which of the
exponents that fit is used nor how an inexact mantissa is rounded: both are free. -/
def linear11 (s : State) (num den : Nat) : Nat :=
  let fits := (List.range 32).filter fun e => (linMant num den e).1 < 1023
  let e := fits.getD (choose s 0 fits.length) 31
  let (y, exact) := linMant num den e
  let y := if exact then y else y + choose s 1 2
  (e + 16) % 32 * 2 ^ 11 + y

/-- Answer a PMBus command: PMBus is fed by the standby input and, while it is present, by main power (R502). -/
def pmbusAnswer (s : State) (code value : Nat) : State :=
  if s.pw.offP3 && !s.pw.standby then s else bumpFree (emit s (.pmbus code value))

/-- READ_VIN: the main input voltage. -/
def execReadVin (s : State) : Res := .next (pmbusAnswer s 0x88 (linear11 s (rd s PWR_INPUT.voltage) 100))

/-- READ_IIN: the main input current. -/
def execReadIin (s : State) : Res := .next (pmbusAnswer s 0x89 (linear11 s (rd s PWR_INPUT.current) 10))

/-- READ_TEMPERATURE_1: the hottest sensor. -/
def execReadTemperature1 (s : State) : Res :=
  .next (pmbusAnswer s 0x8D (linear11 s ((s.th.sensors.map fun x => senReading s x.1).foldl max 0) 1))

/-- READ_PIN: the main input power. -/
def execReadPin (s : State) : Res := .next (pmbusAnswer s 0x97 (linear11 s (rd s PWR_INPUT.power) 1))

/-- STATUS_WORD: a word whose bits the spec does not give. -/
def execStatusWord (s : State) : Res := .next (pmbusAnswer s 0x79 (Config.statusWord s.free).toNat)

end Sys2Proof.Machine
end

