-- ==== Sys2Proof/Machine/Bus.lean ====
section
/-!
DEFINITION. Register accesses (R8 to R22, R35, R36, R42, R619): where an offset lies, what a register reads, what a write does; unit
states (R47 to R50), profiles (R51 to R55), the management path (R611, R612) and the debug access port (R587 to R589).
-/

namespace Sys2Proof.Machine

/-! ### Where an offset lies (Tables 1.5, 1.6) -/

/-- A place in BAR0: the space its registers count from, the unit within that space, the offset from the unit's base. -/
structure Spot where
  space : Space
  unit : Nat
  off : Nat
  deriving DecidableEq, Repr

/-- The die window that an offset lies in. -/
def dieWindow (off : Nat) : Option Nat := if 0x1000000 ≤ off && off < 0x3800000 then some ((off - 0x1000000) / 0x100000) else none

/-- The place of an offset; none where Tables 1.5 and 1.6 mark it reserved (R36). Gallery blocks: 0–39 of dies, 40 of the panel. -/
def spotOf (off : Nat) : Option Spot :=
  match dieWindow off with
  | some d =>
    let o := off % 0x100000
    if o < 0x10000 then some ⟨.die, d, o⟩
    else if o < 0x30000 then some ⟨.stk, 2 * d + (o / 0x10000 - 1), o % 0x10000⟩
    else if o < 0x40000 then some ⟨.tcn, 4 * d + (o - 0x30000) / 0x4000, o % 0x4000⟩
    else if o < 0x44000 then some ⟨.wng, 4 * d + (o - 0x40000) / 0x1000, o % 0x1000⟩
    else if 0x50000 ≤ o && o < 0x60000 then some ⟨.gal, d, o - 0x50000⟩
    else none
  | none =>
    if 0x40000 ≤ off && off < 0x50000 then some ⟨.gal, 40, off - 0x40000⟩
    else if off < 0x100000 then some ⟨.bar, 0, off⟩
    else if off < 0x1C0000 then some ⟨.opt, (off - 0x100000) / 0x8000, off % 0x8000⟩
    else none

/-- Whether an offset lies in an absent window: that of an inactive die (R35), or a link site without a link (R42). -/
def absentAt (s : State) (off : Nat) : Bool :=
  match dieWindow off with
  | some d => !dieActive s d || (match spotOf off with | some p => p.space == .tcn && !linkExists p.unit | none => false)
  | none => false

/-- Whether an offset lies in a block other than PNL that does not answer yet (R619). -/
def earlyAt (s : State) (off : Nat) : Bool := !on s PNL_START.ready && 0x10000 ≤ off && (spotOf off).isSome

/-- The register at a place, with its number before selectors. -/
def regAt (p : Spot) : Option (RegRow × Nat) :=
  regTable.findSome? fun r =>
    if r.space != p.space || p.off < r.off then none
    else
      let k := if r.stride == 0 then 0 else (p.off - r.off) / r.stride
      if p.off == r.off + k * r.stride && k < r.count then some (r, p.unit * r.mul + k) else none

/-- The number of the register that its selectors choose. -/
def selected (s : State) (p : Spot) (r : RegRow) (i : Nat) : Nat := r.sels.foldl (fun i x => i + rd s x.1 p.unit * x.2) i

/-- The cfg_ignored and cfg_pending fields of the block that a place belongs to (R14). -/
def blockStatus (p : Spot) : Fld × Fld :=
  match p.space with
  | .die => (DIE_STATUS.cfg_ignored, DIE_STATUS.cfg_pending)
  | .stk => (STK_STATUS.cfg_ignored, STK_STATUS.cfg_pending)
  | .tcn => (TCN_STATUS.cfg_ignored, TCN_STATUS.cfg_pending)
  | .wng => (WNG_STATUS.cfg_ignored, WNG_STATUS.cfg_pending)
  | .gal => (GAL_STATUS.cfg_ignored, GAL_STATUS.cfg_pending)
  | .opt => (OPT_STATUS.cfg_ignored, OPT_STATUS.cfg_pending)
  | .bar => match p.off / 0x10000 with
    | 1 => (QUE_STATUS.cfg_ignored, QUE_STATUS.cfg_pending)
    | 2 => (XLT_STATUS.cfg_ignored, XLT_STATUS.cfg_pending)
    | 3 => (EVT_STATUS.cfg_ignored, EVT_STATUS.cfg_pending)
    | 5 => (TMR_STATUS.cfg_ignored, TMR_STATUS.cfg_pending)
    | 6 => (PWR_STATUS.cfg_ignored, PWR_STATUS.cfg_pending)
    | 7 => (THM_STATUS.cfg_ignored, THM_STATUS.cfg_pending)
    | 8 => (SEC_STATUS.cfg_ignored, SEC_STATUS.cfg_pending)
    | 9 => (FAB_STATUS.cfg_ignored, FAB_STATUS.cfg_pending)
    | 10 => (RMT_STATUS.cfg_ignored, RMT_STATUS.cfg_pending)
    | 11 => (GRP_STATUS.cfg_ignored, GRP_STATUS.cfg_pending)
    | 12 => (MIR_STATUS.cfg_ignored, MIR_STATUS.cfg_pending)
    | 13 => (FAR_STATUS.cfg_ignored, FAR_STATUS.cfg_pending)
    | 14 => (UCI_STATUS.cfg_ignored, UCI_STATUS.cfg_pending)
    | 15 => (DBG_STATUS.cfg_ignored, DBG_STATUS.cfg_pending)
    | _ => (PNL_STATUS.cfg_ignored, PNL_STATUS.cfg_pending)

/-! ### Reads -/

/-- A number from bits, bit i where `f i` holds. -/
def bitsWhere (n : Nat) (f : Nat → Bool) : Nat := ((List.range n).filter f).foldl (fun m i => m + 2 ^ i) 0

/-- The number of a Bool. -/
def b01 (b : Bool) : Nat := if b then 1 else 0

/-- Packets that the panel holds under an epoch (R376). -/
def epochCount (s : State) (bank : Nat) : Nat :=
  (s.fabWaits.filter fun w => w.pkt.epoch == bank).length + (s.fabSent.filter fun e => e.2.2 == bank).length

/-- Eight routing entries (FAB_RT_DATA). -/
def rtEntries (s : State) : Nat :=
  let b := rd s FAB_RT_SEL.bank
  if bankState s b != 2 then 0
  else leNat ((List.range 8).map fun i => BitVec.ofNat 8 (kget s.fabBanks (b * 16384 + 8 * rd s FAB_RT_SEL.group + i) 0))

/-- Fields that the panel works out when they are read. -/
def shownTable : List (Fld × (State → Nat → Nat)) := [
  (PNL_ID.active_dies, fun s _ => popCount 40 (dieMask s)),
  (PNL_DIE_ACTIVE.mask, fun s _ => dieMask s),
  (PNL_STATUS.below_minimum, fun s _ => b01 (popCount 40 (dieMask s) < 36)),
  (DIE_STATUS.busy_cores, fun s d => ((List.range 256).filter fun c => coreBusy s (256 * d + c)).length),
  (DIE_CORE_BUSY.busy, fun s w => bitsWhere 64 fun c => coreBusy s (64 * w + c)),
  (DIE_BEAT_RATE.rate, fun s w => if rd s WNG_STATUS.state w == 0 then rd s DIE_BEAT_RATE.rate w else 0),
  (DIE_COPY_STATUS.busy, fun s d => bitsWhere 32 fun c => clusBusy s (32 * d + c)),
  (QUE_STATUS.lines_polled, fun s _ => b01 (cacheOn s && 4096 < s.dbLines.length)),
  (QUE_STATUS.cache_active, fun s _ => b01 (cacheOn s && s.dbLines.any (·.copy))),
  (QUE_STATUS.poll_stretched, fun s _ => b01 (1000 * rd s QUE_CTL.poll_interval < 64 * (polledLines s).length)),
  (QUE_C_STATE.full, fun s c => b01 (ringFull s (.cr c))),
  (QUE_F_STATE.full, fun s f => b01 (ringFull s (.fr f))),
  (UCI_SITE_STATUS.inflight, fun s n => siteInflight s n)]

/-- More of them. -/
def shownTable2 : List (Fld × (State → Nat → Nat)) := [
  (FAB_STATUS.port_up, fun s _ => bitsWhere 5 fun p => on s FAB_PORT_STATUS.up p),
  (FAB_EPOCH_COUNT.count_a, fun s _ => epochCount s 0),
  (FAB_EPOCH_COUNT.count_b, fun s _ => epochCount s 1),
  (FAB_RT_DATA.entries, fun s _ => rtEntries s),
  (TMR_TICK.tick, fun s _ => hubTick s),
  (DBG_STATUS.state, fun s _ => rd s SEC_STATUS.debug),
  (DBG_STATUS.open_left_s, fun s _ => if s.sec.openTimed then rd s DBG_STATUS.open_left_s - since (hubTick s) s.sec.openAt / 100000000 else 0),
  (GAL_BINS.lo, fun s b =>
    let (g, r) := galSelected s b
    let lo : Int := match kfind s.gal.galBins (galKey g r) with | some x => x.1 | none => (galGet s g r).lo
    (lo % 65536).toNat),
  (GAL_BINS.shift, fun s b =>
    let (g, r) := galSelected s b
    match kfind s.gal.galBins (galKey g r) with | some x => x.2 | none => (galGet s g r).shift)]

/-- What a field reads: WO fields read zero (Table 0.6). -/
def readFld (s : State) (i : Nat) (x : FldRow) : Nat :=
  if x.acc == .wo then 0
  else match (shownTable ++ shownTable2).find? fun e => e.1.id == x.f.id with
    | some e => e.2 s i % 2 ^ x.f.w
    | none => rd s x.f i

/-- Whether a register has a field. -/
def has (r : RegRow) (f : Fld) : Bool := r.fields.any fun x => x.f.id == f.id

/-- Whether a selector chooses nothing: the register then reads as zero (PNL_UNIT_SEL, THM_SEL). -/
def selectsNone (s : State) (r : RegRow) : Bool :=
  (has r PNL_UNIT_DATA.state && 308 ≤ rd s PNL_UNIT_SEL.index) ||
  (has r THM_DATA.state && !senExists s (rd s THM_SEL.kind) (rd s THM_SEL.index))

/-- The 64-bit value of a register; reserved bits read zero (R10). -/
def readReg (s : State) (p : Spot) : Nat :=
  if p.space == .gal && 0x40 ≤ p.off && p.off < 0x80 then leAt (galWindow s p.unit) (p.off - 0x40) 8
  else match regAt p with
    | none => 0
    | some (r, i) =>
      if selectsNone s r then 0
      else r.fields.foldl (fun v x => v + readFld s (selected s p r i) x * 2 ^ x.f.lo) 0

/-- The registers that answer over the standby-powered management path while main power is off: the porter's, and after a failure of image 0
those that report it, PNL_START and SEC_STATUS (R579). -/
def standbyAnswers (s : State) (off : Nat) : Bool :=
  (0x70100 ≤ off && off < 0x70280) || (bitOn (rd s SEC_STATUS.image_fail) 0 && (off / 8 == 0x310 / 8 || off / 8 == 0x80000 / 8))

/-- Whether main power is off and a register does not answer. -/
def barOff (s : State) (mgmt : Bool) (off : Nat) : Bool := s.pw.offP3 && !(mgmt && standbyAnswers s off)

/-- The bits of a register that an access reaches (R8): all 64, or the half that a 32-bit access addresses; none for any other access. -/
def accessMask (off bytes : Nat) : Option Nat :=
  if bytes == 8 && off % 8 == 0 then some (2 ^ 64 - 1)
  else if bytes == 4 && off % 4 == 0 then some (if off % 8 == 4 then (2 ^ 32 - 1) * 2 ^ 32 else 2 ^ 32 - 1)
  else none

/-- Whether no register answers at an offset: a block that does not answer yet (R619), or an absent window (R35, R42). -/
def missed (s : State) (off : Nat) : Bool := !s.pw.offP3 && earlyAt s off || absentAt s off

/-- Mark an access that no register answers: as early, as absent, or as both where both hold. -/
def noteMiss (s : State) (off : Nat) : State :=
  let t := if !s.pw.offP3 && earlyAt s off then setBit s PNL_START.early_access else s
  if absentAt s off then setBit t PNL_STATUS.absent_access else t

/-- A read of BAR0 of `bytes` bytes: reserved offsets read zero and set nothing (R36), and so does an access of another size or alignment (R8). -/
def barRead (s : State) (mgmt : Bool) (off bytes : Nat) : State × Nat :=
  if (accessMask off bytes).isNone || barOff s mgmt off then (s, 0)
  else if missed s off then (noteMiss s off, 0)
  else match spotOf (off / 8 * 8) with
    | some p => (s, readReg s p / 2 ^ (8 * (off % 8)) % 2 ^ (8 * bytes))
    | none => (s, 0)

/-! ### Unit states (R47 to R50) -/

/-- A unit is taken out of service by the management path (Table 1.9). -/
def retireUnit (s : State) (u : Nat) : State :=
  if u < 40 then
    let s := dieOffNow (haltShares s u) u
    recordRetired (retireDie { s with th.stopping := s.th.stopping.filter (· != u) } u 2) u
  else
    let s := setUnit s u 4 2
    if u < 120 then (if rd s STK_STATUS.state (u - 40) == 4 then s else wr s STK_STATUS.state (u - 40) 0)
    else if u < 280 then showLink s (u - 120) tcnDown 0
    else if u < 304 then optDark s (u - 280)
    else if u < 306 then retireHub s (u - 304)
    else if rd s UCI_SITE_STATUS.state (u - 306) == 3 then siteFalls s (u - 306) 0 else siteDark (failSite s (u - 306)) (u - 306) 0

/-- A write of the bits `mask` of PNL_UNIT_DATA for the selected entry (R47 to R49). -/
def unitWrite (s : State) (mgmt : Bool) (mask v : Nat) : State :=
  let u := rd s PNL_UNIT_SEL.index
  let bad := setBit s PNL_STATUS.unit_write_rejected
  -- the upper half alone changes nothing
  if mask % 16 == 0 then s
  else if !mgmt || mask / 2 ^ 32 == 0 || 308 ≤ u || v / 2 ^ 32 % 2 ^ 16 != rd s PNL_UNIT_DATA.generation u then bad
  else match unitState s u, v % 16 with
    | 1, 3 => setUnit s u 3 2
    | 1, 4 => retireUnit s u
    | 3, 1 => setUnit s u 1 2
    | 3, 4 => retireUnit s u
    | _, _ => bad

/-- UNIT_STATE_WRITE (R47 to R50): a write of PNL_UNIT_DATA, 64 bits wide or of one 32-bit half (0 both, 1 lower, 2 upper). -/
def execUnitStateWrite (mgmt : Bool) (half : Fin 3) (v : W64) (s : State) : Res :=
  .next (unitWrite s mgmt (if half.val == 0 then 2 ^ 64 - 1 else if half.val == 1 then 2 ^ 32 - 1 else (2 ^ 32 - 1) * 2 ^ 32) v.toNat)

/-! ### Profiles (R51 to R55) -/

/-- The expert fields of each profile field (the register sections of files 05 and 08 to 17). -/
def expertTable : List (Fld × List Fld) := [
  (PNL_PROFILE.queues, [QUE_CTL.db_force_poll, QUE_CTL.poll_interval, QUE_CTL.max_inflight]),
  (PNL_PROFILE.far, [FAR_CTL.interleave, FAR_CTL.timeout_us, STK_CTL.patrol_hours, STK_CTL.ce_remap_threshold, STK_CTL.remap_en]),
  (PNL_PROFILE.links, [TCN_CTL.lane_test_errors, TCN_CTL.margin_min, TCN_CTL.proactive_spare, UCI_CTL.rate_max, UCI_CTL.cmd_timeout_ms]),
  (PNL_PROFILE.fabric, [FAB_CTL.req_win_en, FAB_CTL.req_window, FAB_CTL.col_win_en, FAB_CTL.col_window, FAB_CTL.mgt_window, FAB_CTL.residence_us,
    FAB_CTL.epoch_hold_ms, FAB_PARTNER_DATA.pin, FAB_PARTNER_DATA.cls, FAB_PARTNER_DATA.node, FAB_PARTNER_DATA.window]),
  (PNL_PROFILE.remote, [RMT_CTL.lifetime_ms, RMT_CTL.timeout_ms, RMT_CTL.retry_100us]),
  (PNL_PROFILE.collectives, [GRP_CTL.watchdog_ms, GRP_CTL.rereq_us]),
  (PNL_PROFILE.optics, [OPT_CTL.fade_warn, OPT_CTL.fade_spare, OPT_CTL.fade_retire, OPT_CTL.ff_en, OPT_CTL.ff_gain, OPT_CTL.relock_limit,
    OPT_CTL.ucw_limit]),
  (PNL_PROFILE.mirror, [MIR_CTL.landing_timeout_ms, MIR_CTL.admit_timeout_s, MIR_CTL.slots, MIR_CTL.load_stall]),
  (PNL_PROFILE.power, [PWR_CTL.vopt_en, PWR_CTL.target_rate, PWR_CTL.v_min, PWR_CTL.v_max, PWR_CTL.panel_ramp, PWR_CTL.credit_interval,
    PWR_CTL.credit_hold, PWR_IDLE.u2_idle_us, PWR_IDLE.d2_idle_ms]),
  (PNL_PROFILE.thermal, [THM_CTL.hyst, THM_CTL.grace_ms, THM_CTL.predict_ms, THM_CTL.auto_return, THM_CTL.shutdown_limit, THM_DIE_THR.warning,
    THM_DIE_THR.throttle, THM_DIE_THR.shutdown, THM_STK_THR.warning, THM_STK_THR.throttle, THM_STK_THR.shutdown, THM_OPT_THR.warning,
    THM_OPT_THR.throttle, THM_OPT_THR.shutdown]),
  (PNL_PROFILE.events, [EVT_CTL.rescan_ms, GAL_CTL.publish_us, GAL_CTL.hold_us])]

/-- Whether a write of a field is turned away because its function's profile is not EXPERT (R53). -/
def expertHeld (s : State) (f : Fld) : Bool :=
  expertTable.any fun e => (e.2.any fun g => g.id == f.id) && rd s e.1 != 15

/-- The default thresholds of Table 16.2, which every thermal preset gives. -/
def thermalDefaults : List (Fld × Nat × Nat) :=
  [THM_DIE_THR.warning, THM_DIE_THR.throttle, THM_DIE_THR.shutdown, THM_STK_THR.warning, THM_STK_THR.throttle, THM_STK_THR.shutdown,
   THM_OPT_THR.warning, THM_OPT_THR.throttle, THM_OPT_THR.shutdown].map fun f => (f, 1, f.rst)

/-- What a preset of a profile field gives: field, number of units, value (Tables 5.18, 8.11, 9.5, 10.14, 11.9, 12.8, 13.13, 14.6, 15.8,
16.10, 17.8). None where the function defines no such preset. -/
def preset (p : Fld) (v : Nat) : Option (List (Fld × Nat × Nat)) :=
  let row (fs : List (Fld × Nat)) (vals : List Nat) : Option (List (Fld × Nat × Nat)) := some (fs.zipWith (fun f x => (f.1, f.2, x)) vals)
  let one (fs : List Fld) : List (Fld × Nat) := fs.map fun f => (f, 1)
  let que := one [QUE_CTL.db_force_poll, QUE_CTL.poll_interval, QUE_CTL.max_inflight]
  let far := one [FAR_CTL.interleave, FAR_CTL.timeout_us] ++ [(STK_CTL.patrol_hours, 80), (STK_CTL.ce_remap_threshold, 80), (STK_CTL.remap_en, 80)]
  let lnk := [(TCN_CTL.lane_test_errors, 160), (TCN_CTL.margin_min, 160), (TCN_CTL.proactive_spare, 160)] ++ one [UCI_CTL.rate_max, UCI_CTL.cmd_timeout_ms]
  let fab := one [FAB_CTL.req_win_en, FAB_CTL.req_window, FAB_CTL.col_win_en, FAB_CTL.col_window, FAB_CTL.mgt_window, FAB_CTL.residence_us,
    FAB_CTL.epoch_hold_ms]
  let rmt := one [RMT_CTL.lifetime_ms, RMT_CTL.timeout_ms, RMT_CTL.retry_100us]
  let grp := one [GRP_CTL.watchdog_ms, GRP_CTL.rereq_us]
  let opt := [OPT_CTL.fade_warn, OPT_CTL.fade_spare, OPT_CTL.fade_retire, OPT_CTL.ff_en, OPT_CTL.ff_gain, OPT_CTL.relock_limit,
    OPT_CTL.ucw_limit].map fun f => (f, 24)
  let mir := one [MIR_CTL.landing_timeout_ms, MIR_CTL.admit_timeout_s, MIR_CTL.slots, MIR_CTL.load_stall]
  let pwr := one [PWR_CTL.vopt_en, PWR_CTL.target_rate, PWR_CTL.v_min, PWR_CTL.v_max, PWR_CTL.panel_ramp, PWR_CTL.credit_interval,
    PWR_CTL.credit_hold, PWR_IDLE.u2_idle_us, PWR_IDLE.d2_idle_ms]
  let thm (vals : List Nat) : Option (List (Fld × Nat × Nat)) :=
    (row (one [THM_CTL.hyst, THM_CTL.grace_ms, THM_CTL.predict_ms, THM_CTL.auto_return, THM_CTL.shutdown_limit]) vals).map (· ++ thermalDefaults)
  let evt := [(EVT_CTL.rescan_ms, 1), (GAL_CTL.publish_us, 41), (GAL_CTL.hold_us, 41)]
  if p.id == PNL_PROFILE.queues.id then
    match v with | 0 => row que [0, 2, 64] | 1 => row que [1, 2, 64] | 2 => row que [1, 20, 64] | 3 => row que [0, 2, 1] | _ => none
  else if p.id == PNL_PROFILE.far.id then
    match v with
    | 0 => row far [0, 2000, 24, 4, 1] | 1 => row far [1, 2000, 24, 4, 1] | 2 => row far [2, 2000, 24, 4, 1] | 3 => row far [0, 2000, 24, 4, 0] | _ => none
  else if p.id == PNL_PROFILE.links.id then
    match v with | 0 => row lnk [4, 8, 1, 3, 1000] | 1 => row lnk [2, 12, 1, 3, 1000] | 2 => row lnk [4, 8, 1, 1, 5000] | _ => none
  else if p.id == PNL_PROFILE.fabric.id then
    match v with | 0 => row fab [0, 32, 1, 16, 4, 1000, 100] | 1 => row fab [1, 32, 1, 16, 4, 1000, 100] | _ => none
  else if p.id == PNL_PROFILE.remote.id then match v with | 0 => row rmt [50, 20, 20] | 1 => row rmt [200, 50, 50] | _ => none
  else if p.id == PNL_PROFILE.collectives.id then
    match v with | 0 => row grp [2000, 2000] | 1 => row grp [5000, 5000] | 2 => row grp [200, 1000] | _ => none
  else if p.id == PNL_PROFILE.optics.id then
    match v with
    | 0 => row opt [10, 20, 30, 1, 128, 3, 4] | 1 => row opt [5, 15, 30, 1, 128, 3, 4] | 2 => row opt [10, 20, 30, 0, 128, 3, 4] | _ => none
  else if p.id == PNL_PROFILE.mirror.id then match v with | 0 => row mir [10000, 30, 24, 20] | 1 => row mir [30000, 60, 64, 50] | _ => none
  else if p.id == PNL_PROFILE.power.id then
    match v with
    | 0 => row pwr [1, 1000, 550, 900, 32, 5, 10, 100, 10] | 1 => row pwr [1, 800, 550, 900, 32, 5, 10, 20, 1]
    | 2 => row pwr [1, 1180, 550, 900, 32, 5, 50, 1000, 0] | 3 => row pwr [1, 1000, 550, 900, 8, 20, 10, 100, 10] | _ => none
  else if p.id == PNL_PROFILE.thermal.id then
    match v with
    | 0 => thm [4, 250, 20, 1, 3] | 1 => thm [4, 10, 20, 1, 3] | 2 => thm [4, 2000, 20, 1, 3] | 3 => thm [4, 250, 20, 0, 1] | _ => none
  else if p.id == PNL_PROFILE.events.id then
    match v with | 0 => row evt [10, 10, 0] | 1 => row evt [10, 100, 0] | 2 => row evt [10, 10, 20] | 3 => row evt [0, 10, 0] | _ => none
  else none

/-- The cfg_pending field of an S-class expert field (R13, R15). -/
def pendingOf (f : Fld) : Option Fld :=
  if f.id == QUE_CTL.db_force_poll.id then some QUE_STATUS.cfg_pending
  else if f.id == UCI_CTL.rate_max.id then some UCI_STATUS.cfg_pending
  else if f.id == FAB_CTL.req_win_en.id || f.id == FAB_CTL.col_win_en.id then some FAB_STATUS.cfg_pending
  else if f.id == MIR_CTL.slots.id then some MIR_STATUS.cfg_pending
  else none

/-- What the panel works out again when a field in force changes: the refresh interval (R261), a throttle deadline (R528), frozen credits
(R510), a port's rate limit (R362). -/
def afterWrite (s : State) (f : Fld) (i : Nat) : State :=
  if f.id == DIE_MEM_CTL.refresh_cap.id then [4 * i, 4 * i + 1, 4 * i + 2, 4 * i + 3].foldl setRefresh s
  else if f.id == THM_CTL.grace_ms.id then
    let k := senIdx (rd s THM_REQ.kind) (rd s THM_REQ.index)
    if on s THM_REQ.valid && senState s k == snGrace then setDeadline s k else s
  else if f.id == PWR_LIMIT.curr_limit.id then setFrozen s
  else if f.id == FAB_PORT_BUF.size_mib.id then showRate s i
  else s

/-- A preset's value for one expert field of one unit, under the field's change class (R52). -/
def presetPut (s : State) (f : Fld) (i v : Nat) : State :=
  match pendingOf f with
  | some pend => if inForce s f i == v && rd s f i == v then s else setBit (wr s f i v) pend
  | none =>
    if f.id == FAR_CTL.interleave.id then
      if rd s f i == v then s else if on s FAR_CTL.enable then setBit s FAR_STATUS.cfg_ignored else wr s f i v
    else afterWrite (wr s f i v) f i

/-- Write one profile field (R51, R52, R54). Partner entries that were pinned under EXPERT have no value in a preset table, and stay in force when
a preset is written over EXPERT (DESIGN CHOICE, log 133; R55). -/
def profilePut (s : State) (p : Fld) (v : Nat) : State :=
  if v == 15 then wr s p 0 15
  else match preset p v with
    | none => setBit s PNL_STATUS.profile_rejected
    | some l => l.foldl (fun s (f, n, x) => (List.range n).foldl (fun s i => presetPut s f i x) s) (wr s p 0 v)

/-- Write the profile fields that lie in `mask`. -/
def profileWrite (s : State) (mask v : Nat) : State :=
  (expertTable.map (·.1)).foldl (fun s p => if mask / 2 ^ p.lo % 16 == 0 then s else profilePut s p (v / 2 ^ p.lo % 16)) s

/-- PROFILE_WRITE (R51 to R55): a write of PNL_PROFILE, 64 bits wide or of one 32-bit half (0 both, 1 lower, 2 upper). -/
def execProfileWrite (half : Fin 3) (v : W64) (s : State) : Res :=
  .next (profileWrite s (if half.val == 0 then 2 ^ 64 - 1 else if half.val == 1 then 2 ^ 32 - 1 else (2 ^ 32 - 1) * 2 ^ 32) v.toNat)

/-! ### Writes (R8 to R22) -/

/-- The state after a meaning that goes on. -/
def after (r : Res) (s : State) : State := match r with | .next t => t | _ => s

/-- Clear the bits `b` of a w-bit value. -/
def clearBits (w v b : Nat) : Nat := v &&& (2 ^ w - 1 - (b &&& (2 ^ w - 1)))

/-- What a field holds for a written value (its description in the register table). -/
def normed (n : Option Norm) (v : Nat) : Nat :=
  match n with
  | none => v
  | some (.clamp lo hi) => max lo (min hi v)
  | some (.above lim x) => if lim < v then x else v

/-- The value that a write of the bits `mask` leaves in a field that held `old` (R9). -/
def merged (f : Fld) (old mask v : Nat) : Nat := clearBits f.w old (mask / 2 ^ f.lo) ||| (v &&& mask) / 2 ^ f.lo % 2 ^ f.w

/-- Whether a write covers any bit of a field. -/
def writes (f : Fld) (mask : Nat) : Bool := mask / 2 ^ f.lo % 2 ^ f.w != 0

/-- Blocks with an enable: their L-class fields and the enable; whether the enable is one for all units (R13, R213, R254). -/
def lockTable : List (List Fld × Fld × Bool) := [
  ([QUE_Q_RING.base, QUE_Q_RING.size_log2, QUE_Q_DB.line, QUE_Q_DB.slot, QUE_Q_BIND.priority, QUE_Q_BIND.fring, QUE_Q_BIND.cring, QUE_Q_BIND.space,
    QUE_Q_BIND.cset], QUE_Q_CTL.enable, false),
  ([QUE_C_RING.base, QUE_C_RING.size_log2, QUE_C_DB.line, QUE_C_DB.slot], QUE_C_RING.enable, false),
  ([QUE_F_RING.base, QUE_F_RING.size_log2, QUE_F_DB.line, QUE_F_DB.slot], QUE_F_RING.enable, false),
  ([QUE_X_RING.base, QUE_X_RING.size_log2, QUE_X_DB.line, QUE_X_DB.slot, QUE_X_RRING.base, QUE_X_RDB.line, QUE_X_RDB.slot], QUE_X_RING.enable, false),
  ([XLT_JOB_ROOT.root, XLT_JOB_ROOT.root_loc], XLT_JOB_ROOT.enable, false),
  ([FAR_CTL.interleave], FAR_CTL.enable, true),
  ([UCI_SITE_CTL.modules_max], UCI_SITE_CTL.enable, false),
  ([FAB_COORD.wrap_y, FAB_COORD.wrap_x, FAB_COORD.dim_z, FAB_COORD.dim_y, FAB_COORD.dim_x, FAB_COORD.node, FAB_PORT_BUF.size_mib, FAB_PORT_BUF.base],
    FAB_CTL.enable, true),
  ([RMT_STATE.base], RMT_CTL.enable, true),
  ([GRP_STAGE.size_mib, GRP_STAGE.base], GRP_CTL.enable, true),
  ([GRP_ENT_CTL.key, GRP_ENT_CTL.job, GRP_ENT_CTL.chunk_log2_max, GRP_ENT_CTL.slots, GRP_ENT_CTL.depth, GRP_ENT_CTL.kind, GRP_ENT_SHAPE.zmask,
    GRP_ENT_SHAPE.ny, GRP_ENT_SHAPE.y0, GRP_ENT_SHAPE.nx, GRP_ENT_SHAPE.x0, GRP_ENT_LIST.count, GRP_ENT_LIST.first, GRP_ENT_SEQ.next],
    GRP_ENT_CTL.enable, false),
  ([MIR_CTL.feed, MIR_CTL.host_job], MIR_CTL.enable, true),
  ([MIR_RANGE_BASE.va, MIR_RANGE_CTL.size_64k, MIR_RANGE_CTL.job], MIR_RANGE_CTL.enable, false),
  ([MIR_HOST_BASE.size_gib, MIR_HOST_BASE.va, MIR_HOST_CTL.key, MIR_HOST_CTL.source], MIR_HOST_CTL.enable, false),
  ([EVT_SRC_CFG.vector, EVT_SRC_CFG.target], EVT_SRC_CFG.enable, false)]

/-- Whether an L-class field is locked: its block is enabled (R13); a stack controller is disabled only in D3 and in BRINGUP (R303). -/
def locked (s : State) (f : Fld) (i : Nat) : Bool :=
  if f.id == STK_CTL.bringup.id then !(rd s DIE_STATUS.die_state (i / 2) == 3 || rd s STK_STATUS.state i == 5)
  else lockTable.any fun e => (e.1.any fun g => g.id == f.id) && on s e.2.1 (if e.2.2 then 0 else i)

/-- Fields that only the management path writes (R47, R484, R491, Table 14.5); a host write is told in mgmt_rejected. -/
def mgmtFields : List Fld := [MIR_CTL.feed, MIR_ADMIT.landing, MIR_ADMIT_CMD.job, MIR_ADMIT_CMD.op, MGMT_VIEW.view_gen, MGMT_VIEW.panel_state, MIR_FENCE_DATA.fenced]

/-- A write of one field under its access and change class. -/
def putFld (s : State) (p : Spot) (i : Nat) (mgmt : Bool) (x : FldRow) (mask v : Nat) : State :=
  let f := x.f
  let old := rd s f i
  if !writes f mask then s
  else match x.acc with
    | .ro => s
    | .wo => s
    | .w1c => wr s f i (clearBits f.w old ((v &&& mask) / 2 ^ f.lo))
    | .w1s => wr s f i (old ||| (v &&& mask) / 2 ^ f.lo % 2 ^ f.w)
    | .rw =>
      let new := normed x.norm (merged f old mask v)
      if expertHeld s f then setBit s PNL_STATUS.profile_rejected
      else if !mgmt && mgmtFields.any (fun g => g.id == f.id) then setBit s MIR_STATUS.mgmt_rejected
      else match x.chg with
        | .lock => if locked s f i then setBit s (blockStatus p).1 p.unit else afterWrite (wr s f i new) f i
        | .stat => setBit (wr s f i new) (blockStatus p).2 p.unit
        | _ => afterWrite (wr s f i new) f i

/-- A ring is disabled: its line is no longer used. -/
def ringDisable (s : State) (en : Fld) (i : Nat) (rs : List RingId) : State :=
  if on s en i then rs.foldl dbRemove (wr s en i 0) else s

/-- Enables with an action of their own. -/
def enableTable : List (Fld × (Nat → Bool → Outside → State → State)) := [
  (QUE_CTL.engine_en, fun _ v _ s => after (execQueueEngineEnable v s) s),
  (QUE_Q_CTL.enable, fun i v x s => after (if v then execQueueEnable (Fin.ofNat 4096 i) x.tail s else execQueueDisable (Fin.ofNat 4096 i) s) s),
  (QUE_C_RING.enable, fun i v _ s =>
    if v then after (execCompletionRingEnable 0 (Fin.ofNat 4096 i) s) s else ringDisable s QUE_C_RING.enable i [.cr i]),
  (QUE_F_RING.enable, fun i v _ s =>
    if v then after (execCompletionRingEnable 1 (Fin.ofNat 4096 i) s) s else ringDisable s QUE_F_RING.enable i [.fr i]),
  (QUE_X_RING.enable, fun i v x s =>
    if v then after (execControlRingEnable (Fin.ofNat 16 i) x.tail s) s else ringDisable s QUE_X_RING.enable i [.xq i, .xr i]),
  (XLT_JOB_ROOT.enable, fun i v _ s => wr s XLT_JOB_ROOT.enable i (b01 v)),
  (FAR_CTL.enable, fun _ v _ s => after (execFarEnable v s) s),
  (UCI_SITE_CTL.enable, fun i v _ s => after (execUciSiteEnable (Fin.ofNat 2 i) v s) s),
  (FAB_CTL.enable, fun _ v _ s => after (execFabEnable v s) s),
  (RMT_CTL.enable, fun _ v _ s => after (execRmtEnable v s) s),
  (GRP_CTL.enable, fun _ v _ s => after (execGrpEnable v s) s),
  (GRP_ENT_CTL.enable, fun i v _ s => after (execGroupEntryEnable (Fin.ofNat 1024 i) v s) s),
  (OPT_CTL.enable, fun i v _ s => after (execOptEnable (Fin.ofNat 24 i) v s) s),
  (MIR_CTL.enable, fun _ v _ s => after (execMirEnable v s) s),
  (MIR_RANGE_CTL.enable, fun i v _ s => after (execMirRangeEnable (Fin.ofNat 64 i) v s) s),
  (MIR_HOST_CTL.enable, fun i v _ s => after (execMirHostEnable (Fin.ofNat 8 i) v s) s),
  (EVT_SRC_CFG.enable, fun i v _ s => wr s EVT_SRC_CFG.enable i (b01 v))]

/-- The command that a write of SEC_MBOX_CMD.go starts (R597); a code that Table 18.12 does not have is REFUSED. -/
def mailbox (s : State) (path : SecPath) (x : Outside) : State :=
  let both := x.blown0 && x.blown1
  after (match rd s SEC_MBOX_CMD.cmd with
    | 1 => execGetNonce path s
    | 2 => execUnlock path both s
    | 3 => execSetDebug path s
    | 4 => execAdvanceArb path x.blown0 x.blown1 s
    | 5 => execLifecycle path both s
    | 6 => execFuseAuth path both s
    | c => .next (mbRun s c true path fun s => (s, mbRefused))) s

/-- A write of MIR_ADMIT_CMD.go (Table 14.5). -/
def admitGo (s : State) (mgmt : Bool) : State :=
  after (match rd s MIR_ADMIT_CMD.op with
    | 1 => execSelfTest mgmt s
    | 2 => execAdmitLoad mgmt (Fin.ofNat 256 (rd s MIR_ADMIT_CMD.job)) (BitVec.ofNat 48 (rd s MIR_ADMIT.landing)) s
    | 3 => execAbortLoad mgmt s
    | _ => .next s) s

/-- One-bit WO fields and what writing 1 does. -/
def goTable : List (Fld × (Nat → SecPath → Outside → State → State)) := [
  (DIE_ARR_CTL.clear_counts, fun i _ _ s => after (execArrayClearCounts (Fin.ofNat 40 i) s) s),
  (DIE_BEAT_RATE.clear_ext, fun i _ _ s => after (execBeatClearExt (Fin.ofNat 40 (i / 4)) (Fin.ofNat 4 i) s) s),
  (DIE_WRAP_COUNT.clear, fun i _ _ s => after (execDieWrapClear (Fin.ofNat 40 i) s) s),
  (DIE_MEM_CTL.clear_counts, fun i _ _ s => after (execMemClearCounts (Fin.ofNat 40 i) s) s),
  (QUE_Q_CTL.resume, fun i _ x s => after (execQueueResume (Fin.ofNat 4096 i) x.tail s) s),
  (XLT_INV.go, fun _ _ _ s =>
    after (execXltInvalidate (Fin.ofNat 256 (rd s XLT_INV.job)) (Fin.ofNat 64 (rd s XLT_INV.size_log2)) (Fin.ofNat 4 (rd s XLT_INV.kind)) s) s),
  (STK_CTL.clear_counts, fun i _ _ s => after (execStkClearCounts (Fin.ofNat 80 i) s) s),
  (STK_PPR_CMD.go, fun i _ _ s =>
    after (execStkPprGo (Fin.ofNat 80 i) (on s STK_PPR_CMD.kind i) (BitVec.ofNat 16 (rd s STK_PPR_CMD.row i)) s) s),
  (FAR_PORT_CTL.retrain, fun i _ x s => after (execFarPortRetrain (Fin.ofNat 4 i) x.rate x.width x.device s) s),
  (TCN_CTL.retrain, fun i _ _ s => after (execTcnRetrain (Fin.ofNat 40 (i / 4)) (Fin.ofNat 4 i) s) s),
  (TCN_CTL.margin_go, fun i _ _ s => wr s TCN_CTL.margin_go i 1),
  (UCI_SITE_CTL.retrain, fun i _ _ s => after (execUciRetrain (Fin.ofNat 2 i) s) s),
  (FAB_BANK_CTL.go, fun _ _ _ s =>
    let b := Fin.ofNat 2 (rd s FAB_BANK_CTL.bank)
    match rd s FAB_BANK_CTL.op with | 1 => after (execBankLoad b s) s | 2 => after (execBankFree b s) s | _ => s),
  (FAB_DROPS_CLR.clear, fun _ _ _ s => after (execFabDropsClear s) s),
  (RMT_CLR.clear, fun _ _ _ s => after (execRmtClear s) s),
  (GRP_CLR.clear, fun _ _ _ s => after (execGrpClear s) s)]

/-- More of them. -/
def goTable2 : List (Fld × (Nat → SecPath → Outside → State → State)) := [
  (OPT_COMMISSION.go, fun i p x s => after (execOptCommission (Fin.ofNat 24 i) (p == .management) x.coefs s) s),
  (OPT_CLR.clear, fun i _ _ s => after (execOptClear (Fin.ofNat 24 i) s) s),
  (MIR_ADMIT_CMD.go, fun _ p _ s => admitGo s (p == .management)),
  (PWR_DIE_OFF.clear_events, fun _ _ _ s => after (execPwrClearEvents s) s),
  (THM_SEL.clear_max, fun _ _ _ s => after (execThmClearMax s) s),
  (THM_PORTER_CTL.wake, fun _ p _ s => after (execMgmtWake (p == .management) s) s),
  (EVT_CTL.rescan, fun _ _ _ s => after (execRescan s) s),
  (TMR_CORR.go, fun _ _ _ s => after (execTmrCorr s) s),
  (SEC_MBOX_CMD.go, fun _ p x s => mailbox s p x),
  (DBG_CTL.seal, fun _ _ _ s => after (execDbgSeal s) s),
  (PNL_HOST_CTL.takeover, fun _ p _ s => after (execTakeover (p == .management) s) s)]

/-- A write of PNL_RESET (R613 to R615); op COLD and WARM belong to the management path. -/
def resetWrite (s : State) (mgmt : Bool) (mask v : Nat) (x : Outside) : State :=
  let s := wr s PNL_RESET.die 0 (merged PNL_RESET.die (rd s PNL_RESET.die) mask v)
  if !writes PNL_RESET.op mask then s
  else match v % 8 with
    | 1 => if mgmt then coldReset s true true else setBit s PNL_STATUS.cfg_ignored
    | 2 => if mgmt then warmReset s true true else setBit s PNL_STATUS.cfg_ignored
    | 3 => panelReset s false
    | 4 => bumpFree (dieReset s (rd s PNL_RESET.die) x.pts)
    | _ => s

/-- Registers that a write takes as a whole, or whose fields act when written: what the write does; none for any other register. -/
def wholeWrite (s : State) (p : Spot) (r : RegRow) (i : Nat) (path : SecPath) (mask v : Nat) (x : Outside) : Option State :=
  let mgmt := path == .management
  let new (f : Fld) (old : Nat) : Nat := merged f old mask v
  let cur (f : Fld) : Nat := new f (rd s f i)
  let covers (fs : List Fld) : Bool := fs.any fun f => writes f mask
  if has r PNL_UNIT_DATA.state then some (unitWrite s mgmt mask v)
  else if has r PNL_PROFILE.power then some (profileWrite s mask v)
  else if has r PNL_RESET.op then some (resetWrite s mgmt mask v x)
  else if has r MIR_JOB.partner then
    some (after (execMirJobWrite (Fin.ofNat 256 i) (BitVec.ofNat 14 (cur MIR_JOB.partner)) (BitVec.ofNat 10 (cur MIR_JOB.barrier_group))
      (cur MIR_JOB.residency_bound == 1) (cur MIR_JOB.enable == 1) s) s)
  else if has r FAB_PARTNER_DATA.pin then
    some (after (execPartnerPin (Fin.ofNat 4096 i) (cur FAB_PARTNER_DATA.pin == 1) (Fin.ofNat 4 (cur FAB_PARTNER_DATA.cls))
      (BitVec.ofNat 14 (cur FAB_PARTNER_DATA.node)) (BitVec.ofNat 8 (cur FAB_PARTNER_DATA.window)) s) s)
  else if has r THM_DIE_THR.warning then
    some (if covers [THM_DIE_THR.warning] then after (execThmThresholdWrite 0 (BitVec.ofNat 8 (cur THM_DIE_THR.warning))
      (BitVec.ofNat 8 (cur THM_DIE_THR.throttle)) (BitVec.ofNat 8 (cur THM_DIE_THR.shutdown)) s) s else s)
  else if has r THM_STK_THR.warning then
    some (if covers [THM_STK_THR.warning] then after (execThmThresholdWrite 1 (BitVec.ofNat 8 (cur THM_STK_THR.warning))
      (BitVec.ofNat 8 (cur THM_STK_THR.throttle)) (BitVec.ofNat 8 (cur THM_STK_THR.shutdown)) s) s else s)
  else if has r THM_OPT_THR.warning then
    some (if covers [THM_OPT_THR.warning] then after (execThmThresholdWrite 2 (BitVec.ofNat 8 (cur THM_OPT_THR.warning))
      (BitVec.ofNat 8 (cur THM_OPT_THR.throttle)) (BitVec.ofNat 8 (cur THM_OPT_THR.shutdown)) s) s else s)
  else if has r THM_RETURN.dies then
    some (if covers [THM_RETURN.dies] then after (execThmReturnWrite (BitVec.ofNat 40 (v &&& mask)) s) s else s)
  else if has r GAL_CURSOR.record then
    some (if covers [GAL_CURSOR.record] then after (execGalCursorWrite (Fin.ofNat 41 i) (BitVec.ofNat 10 (cur GAL_CURSOR.record))
      (cur GAL_CURSOR.hub == 1) (bitOn v 11) s) s else s)
  else if has r GAL_BINS.lo then
    some (if covers [GAL_BINS.lo] then after (execGalBinsWrite (Fin.ofNat 41 i) (BitVec.ofNat 16 v) (BitVec.ofNat 4 (v / 2 ^ 16)) s) s else s)
  else if has r EVT_ACK.source then some (if covers [EVT_ACK.source] then after (execEvtAck (Fin.ofNat 1024 v) s) s else s)
  else if has r EVT_SW_SET.n then some (if covers [EVT_SW_SET.n] then after (execEvtSwSet (Fin.ofNat 128 v) s) s else s)
  else if has r EVT_HOST_EOI.source then
    some (if covers [EVT_HOST_EOI.source] then
      after (execEvtHostEoi (v / 2 ^ EVT_HOST_EOI.priv.lo % 2 == 1) (BitVec.ofNat 10 v) s) s else s)
  else if has r FAB_EPOCH.current then
    some (if covers [FAB_EPOCH.current] then after (execFabEpochWrite (Fin.ofNat 2 v) s) s else s)
  else if has r PWR_PSTATE.target then
    let s := wr s PWR_PSTATE.auto_restart 0 (cur PWR_PSTATE.auto_restart)
    some (if covers [PWR_PSTATE.target] then after (execPstateTarget (Fin.ofNat 4 v) s) s else s)
  else if has r PWR_DIE_OFF.off then
    let s := after (execPwrDieOffWrite (BitVec.ofNat 40 (cur PWR_DIE_OFF.off)) s) s
    some (if writes PWR_DIE_OFF.clear_events mask && bitOn v PWR_DIE_OFF.clear_events.lo then after (execPwrClearEvents s) s else s)
  else if has r WNG_CTL.wing_off then
    let s := wr s WNG_CTL.v_manual i (max 550 (min 900 (cur WNG_CTL.v_manual)))
    some (after (execWingOffWrite (Fin.ofNat 40 (p.unit / 4)) (Fin.ofNat 4 p.unit) false (BitVec.ofNat 64 (cur WNG_CTL.wing_off)) s) s)
  else if has r WNG_CORE_OFF.off then
    some (after (execWingOffWrite (Fin.ofNat 40 (p.unit / 4)) (Fin.ofNat 4 p.unit) true (BitVec.ofNat 64 (cur WNG_CORE_OFF.off)) s) s)
  else none

/-- The fields of OPT_CTL but enable are taken as a whole (R475). -/
def optFields (s : State) (i mask v : Nat) : State :=
  let cur (f : Fld) : Nat := merged f (rd s f i) mask v
  after (execOptCtlWrite (Fin.ofNat 24 i) (BitVec.ofNat 8 (cur OPT_CTL.fade_retire)) (BitVec.ofNat 8 (cur OPT_CTL.fade_spare))
    (BitVec.ofNat 8 (cur OPT_CTL.fade_warn)) (BitVec.ofNat 8 (cur OPT_CTL.ff_gain)) (BitVec.ofNat 4 (cur OPT_CTL.relock_limit))
    (BitVec.ofNat 4 (cur OPT_CTL.ucw_limit)) (cur OPT_CTL.ff_en == 1) s) s

/-- A write of the bits `mask` of a register. A write that clears an enable acts first and stores the other fields then; one that sets it
stores them first (R22). One-bit WO fields act last. -/
def writeReg (s : State) (p : Spot) (path : SecPath) (mask v : Nat) (x : Outside) : State :=
  match regAt p with
  | none => s
  | some (r, k) =>
    let i := selected s p r k
    match wholeWrite s p r i path mask v x with
    | some t => t
    | none =>
      let en := enableTable.find? fun e => has r e.1 && writes e.1 mask
      let rest := r.fields.filter fun y => !(en.any fun e => e.1.id == y.f.id)
      let plain (s : State) : State :=
        if has r OPT_CTL.enable then optFields s i mask v
        else rest.foldl (fun s y => putFld s p i (path == .management) y mask v) s
      let s := match en with
        | none => plain s
        | some e => if bitOn v e.1.lo then e.2 i true x (plain s) else plain (e.2 i false x s)
      let s := if has r PNL_HOST_CTL.mode then setRoles s else s
      (goTable ++ goTable2).foldl (fun s e => if has r e.1 && writes e.1 mask && bitOn v e.1.lo then e.2 i path x s else s) s

/-- A write of BAR0. -/
def barWrite (s : State) (path : SecPath) (off bytes v : Nat) (x : Outside) : State :=
  match accessMask off bytes with
  | none => s
  | some mask =>
    if barOff s (path == .management) off then s
    else if missed s off then noteMiss s off
    else match spotOf (off / 8 * 8) with
      | some p => writeReg s p path mask (if off % 8 == 4 then v % 2 ^ 32 * 2 ^ 32 else v) x
      | none => s

/-- REGISTER_WRITE (R8 to R22, R36, R53): a write of a register over BAR0, by the host or over the management path, of `bytes` bytes. -/
def execRegisterWrite (mgmt : Bool) (off : BitVec 28) (bytes : Fin 65) (v : W64) (x : Outside) (s : State) : Res :=
  .next (barWrite s (if mgmt then .management else .host) off.toNat bytes v.toNat x)

/-- A host access that no register answers: a write is ignored and a read gives zero; a size or alignment that R8 does not take marks nothing. -/
def missAccess (s : State) (off bytes : Nat) (write : Bool) : State :=
  let s := if (accessMask off bytes).isNone then s else noteMiss s off
  if write then s else emit s (.regData 0)

/-- ABSENT_ACCESS (R35, R42): a host access of an absent window. -/
def execAbsentAccess (a : BusAccess) (write : Bool) (s : State) : Res :=
  .next (if barOff s false a.off.toNat || !absentAt s a.off.toNat then s else missAccess s a.off.toNat a.bytes write)

/-- EARLY_ACCESS (R619): a host access of a block other than PNL before PANEL_READY. -/
def execEarlyAccess (a : BusAccess) (write : Bool) (s : State) : Res :=
  .next (if barOff s false a.off.toNat || !earlyAt s a.off.toNat then s else missAccess s a.off.toNat a.bytes write)

/-! ### The management path (R611, R612) -/

/-- Whether a message names words of BAR0: aligned, 1 to 128 words, none beyond the end. -/
def mgmtOk (off count : Nat) : Bool := off % 8 == 0 && 1 ≤ count && count ≤ 128 && off + 8 * count ≤ 2 ^ 28

/-- Send a reply and keep it among the last 64. -/
def mgmtSend (s : State) (r : MgmtReply) : State := { emit s (.mgmtReply r) with hst.mgmtKept := (r :: s.hst.mgmtKept).take 64 }

/-- Answer a message: from a kept reply where its seq and source match one, else by performing it. -/
def mgmtAnswer (s : State) (src seq : Nat) (f : State → State × MgmtReply) : State :=
  if s.pw.offP3 && !s.pw.standby then s
  else match s.hst.mgmtKept.find? fun r => r.src == src && r.seq == seq with
    | some r => emit s (.mgmtReply r)
    | none => let (s, r) := f s; mgmtSend s r

/-- MGMT_READ (R611, R612): a READ message of `count` words from an offset on. -/
def execMgmtRead (src : W64) (seq : BitVec 16) (off : BitVec 32) (count : BitVec 16) (s : State) : Res :=
  .next (mgmtAnswer s src.toNat seq.toNat fun s =>
    if !mgmtOk off.toNat count.toNat then (s, ⟨src.toNat, seq.toNat, 0x81, 1, off.toNat, []⟩)
    else
      let (s, l) := (List.range count.toNat).foldl (fun (s, l) i =>
        let (s, v) := barRead s true (off.toNat + 8 * i) 8
        (s, l ++ [BitVec.ofNat 64 v])) (s, ([] : List W64))
      (s, ⟨src.toNat, seq.toNat, 0x81, 0, off.toNat, l⟩))

/-- MGMT_WRITE (R611, R612): a WRITE message of words in ascending offset. -/
def execMgmtWrite (src : W64) (seq : BitVec 16) (off : BitVec 32) (words : List RegWord) (s : State) : Res :=
  .next (mgmtAnswer s src.toNat seq.toNat fun s =>
    if !mgmtOk off.toNat words.length then (s, ⟨src.toNat, seq.toNat, 0x82, 1, off.toNat, []⟩)
    else
      let s := ((List.range words.length).zip words).foldl (fun s (i, w) => barWrite s .management (off.toNat + 8 * i) 8 w.v.toNat w.x) s
      (s, ⟨src.toNat, seq.toNat, 0x82, 0, off.toNat, []⟩))

/-! ### The debug access port (R587 to R589) -/

/-- A unit's number among those that can be halted. -/
def dapUnit : DapUnit → Nat
  | .core d c => 256 * d.val + c.val
  | .steward h c => 16384 + 2 * h.val + c.val

/-- Flat address of the aligned word of 8 bytes that a memory request names. -/
def dapFlat : DapMem → Nat
  | .tile d c o => tileFlat (256 * d.val + c.val) (o.toNat / 8 * 8)
  | .wing d a o => wingFlat (4 * d.val + a.val) (o.toNat / 8 * 8)
  | .device a => a.toNat / 8 * 8

/-- Registers that count work and events: the performance counters that OBSERVE reaches. -/
def perfCounters : List Fld := [DIE_STALL_STATUS.stalls, DIE_BEAT_RATE.rate, DIE_BEAT_BUSY.busy_beats, DIE_BEAT_WAIT.wait_beats, DIE_WRAP_COUNT.wraps,
  DIE_SHARES.shares, DIE_MEM_ECC.tile_ce, DIE_COPY_STATUS.copy_stalls, XLT_MISSES.misses, STK_ECC.ce, FAR_PORT_ERR.timeouts, TCN_ERR.crc_errors,
  UCI_SITE_ERR.timeouts, FAB_PORT_WAIT.credit_wait_us, FAB_DROPS.residence, FAB_DROPS2.bad_node, FAB_PARTNER_WAITS.waits, RMT_REQ_STATS.retries,
  RMT_RC_STATS.in_use, GRP_STATS.rereqs, GRP_DROPS.stale, OPT_ERR.crc_errors, OPT_FEC.corrected, MIR_STATS.commits, PWR_EVENTS.sags,
  WNG_PACE_HELD.held_beats, THM_EVENTS.warnings]

/-- Whether a register is a performance counter. -/
def isCounter (off : Nat) : Bool :=
  match (spotOf off).bind regAt with
  | some (r, _) => perfCounters.any (has r)
  | none => false

/-- Whether an offset belongs to hub logic: neither a die window nor an optical engine. -/
def hubOffset (off : Nat) : Bool := off < 0x100000

/-- A register of the security mailbox, which the port reaches in every state. -/
def mailboxOffset (off : Nat) : Bool := 0x80100 ≤ off && off < 0x80280

/-- The debug state that a request needs, 0 SEALED to 2 OPEN (Table 18.7), and whether it stays within hub logic (R588). -/
def dapNeeds : DapReq → Nat × Bool
  | .halt u => (2, 16384 ≤ dapUnit u)
  | .step u => (2, 16384 ≤ dapUnit u)
  | .resume u => (2, 16384 ≤ dapUnit u)
  | .readReg o _ => (if mailboxOffset o.toNat then 0 else if isCounter o.toNat then 1 else 2, hubOffset o.toNat)
  | .writeReg o _ _ _ => (if mailboxOffset o.toNat then 0 else 2, hubOffset o.toNat)
  | .readMem _ => (2, false)
  | .writeMem _ _ => (2, false)
  | .gallery g _ => (1, 40 ≤ g.val)
  | .scan hub => (2, hub)

/-- What a request of the debug access port does, and what it answers. -/
def dapDo (s : State) : DapReq → State × Nat
  | .halt u => ({ s with sec.halted := setIns s.sec.halted (dapUnit u) }, 0)
  -- a unit that is stepped stays halted after its step
  | .step _ => (s, 0)
  | .resume u => ({ s with sec.halted := s.sec.halted.filter (· != dapUnit u) }, 0)
  | .readReg o n => barRead s false o.toNat n
  | .writeReg o n v x => (barWrite s .debugPort o.toNat n v.toNat x, 0)
  | .readMem m =>
    let g := readFlat s (dapFlat m) 8
    (g.s, leNat g.data)
  | .writeMem m v => ((writeFlat s 0 0 (dapFlat m) (leBytes 8 v.toNat)).1, 0)
  | .gallery g r =>
    (s, leNat (match (if galKeeps s g r then kfind s.gal.galSeen (galKey g r) else none) with
      | some x => galBytes g r x
      | none => List.replicate 64 0))
  -- what a scan shifts out is left open
  | .scan _ => (bumpFree s, Config.pick s.free 0)

/-- DEBUG_ACCESS_PORT_REQUEST (R587 to R589, Table 18.7): a request that the debug state, or P2, does not allow completes without effect
and reads zero. -/
def execDebugAccessPortRequest (req : DapReq) (s : State) : Res :=
  if s.pw.offP3 then .next s
  else
    let (need, hub) := dapNeeds req
    if rd s SEC_STATUS.debug < need || (rd s PWR_PSTATE.current == 2 && !hub) then .next (emit s (.dap 0))
    else
      let (s, v) := dapDo s req
      .next (emit s (.dap v))

end Sys2Proof.Machine
end

