-- ==== Sys2Proof/Machine/Dispatch.lean ====
section
/-!
DEFINITION. One arm per command: its meaning.
-/

namespace Sys2Proof.Machine

def exec (i : Instr) (s : State) : Host.Outcome State Fault Refusal :=
  match i with
  | .nop q idx => Sys2Proof.Machine.execNop q idx s
  | .matmul q idx => Sys2Proof.Machine.execMatmul q idx s
  | .cvt q idx => Sys2Proof.Machine.execCvt q idx s
  | .vectorAdd q idx => Sys2Proof.Machine.execVectorAdd q idx s
  | .vecSub q idx => Sys2Proof.Machine.execVecSub q idx s
  | .vecMul q idx => Sys2Proof.Machine.execVecMul q idx s
  | .vectorMax q idx => Sys2Proof.Machine.execVectorMax q idx s
  | .vectorMin q idx => Sys2Proof.Machine.execVectorMin q idx s
  | .addRow q idx => Sys2Proof.Machine.execAddRow q idx s
  | .mulRow q idx => Sys2Proof.Machine.execMulRow q idx s
  | .axpb q idx => Sys2Proof.Machine.execAxpb q idx s
  | .vecExp q idx => Sys2Proof.Machine.execVecExp q idx s
  | .vecLog q idx => Sys2Proof.Machine.execVecLog q idx s
  | .rcp q idx => Sys2Proof.Machine.execRcp q idx s
  | .rsqrt q idx => Sys2Proof.Machine.execRsqrt q idx s
  | .silu q idx => Sys2Proof.Machine.execSilu q idx s
  | .rsum q idx => Sys2Proof.Machine.execRsum q idx s
  | .rsumsq q idx => Sys2Proof.Machine.execRsumsq q idx s
  | .rmax q idx => Sys2Proof.Machine.execRmax q idx s
  | .rsumX q idx => Sys2Proof.Machine.execRsumX q idx s
  | .softmax q idx => Sys2Proof.Machine.execSoftmax q idx s
  | .copyMove q idx => Sys2Proof.Machine.execCopyMove q idx s
  | .accumulate q idx => Sys2Proof.Machine.execAccumulate q idx s
  | .reducePlanes q idx => Sys2Proof.Machine.execReducePlanes q idx s
  | .reduceScatter q idx => Sys2Proof.Machine.execReduceScatter q idx s
  | .allGather q idx => Sys2Proof.Machine.execAllGather q idx s
  | .exchange q idx => Sys2Proof.Machine.execExchange q idx s
  | .remote q idx => Sys2Proof.Machine.execRemote q idx s
  | .waitSem q idx => Sys2Proof.Machine.execWaitSem q idx s
  | .signalSem q idx => Sys2Proof.Machine.execSignalSem q idx s
  | .fence q idx => Sys2Proof.Machine.execFence q idx s
  | .landing q idx => Sys2Proof.Machine.execLanding q idx s
  | .timer q idx => Sys2Proof.Machine.execTimer q idx s
  | .commandDispatch => Sys2Proof.Machine.execCommandDispatch s
  | .descriptorRead q ds => Sys2Proof.Machine.execDescriptorRead q ds s
  | .commandComplete q idx => Sys2Proof.Machine.execCommandComplete q idx s
  | .heldRecordWrite kind ring => Sys2Proof.Machine.execHeldRecordWrite kind ring s
  | .queueFault q => Sys2Proof.Machine.execQueueFault q s
  | .queueEnable q tail => Sys2Proof.Machine.execQueueEnable q tail s
  | .queueDisable q => Sys2Proof.Machine.execQueueDisable q s
  | .queueDrained q => Sys2Proof.Machine.execQueueDrained q s
  | .queueResume q tail => Sys2Proof.Machine.execQueueResume q tail s
  | .completionRingEnable kind ring => Sys2Proof.Machine.execCompletionRingEnable kind ring s
  | .controlRingEnable x tail => Sys2Proof.Machine.execControlRingEnable x tail s
  | .queueEngineEnable v => Sys2Proof.Machine.execQueueEngineEnable v s
  | .doorbellSnoop line => Sys2Proof.Machine.execDoorbellSnoop line s
  | .doorbellLineLost line => Sys2Proof.Machine.execDoorbellLineLost line s
  | .doorbellLineData line data => Sys2Proof.Machine.execDoorbellLineData line data s
  | .doorbellPoll => Sys2Proof.Machine.execDoorbellPoll s
  | .doorbellRereadAll => Sys2Proof.Machine.execDoorbellRereadAll s
  | .preempt x req pts => Sys2Proof.Machine.execPreempt x req pts s
  | .restore x req => Sys2Proof.Machine.execRestore x req s
  | .xltInvalidate job size kind => Sys2Proof.Machine.execXltInvalidate job size kind s
  | .invalidationComplete => Sys2Proof.Machine.execInvalidationComplete s
  | .arrayDrainEnd d c array => Sys2Proof.Machine.execArrayDrainEnd d c array s
  | .arrayStall d c stage => Sys2Proof.Machine.execArrayStall d c stage s
  | .arrayAbort d c block => Sys2Proof.Machine.execArrayAbort d c block s
  | .arrayClearCounts d => Sys2Proof.Machine.execArrayClearCounts d s
  | .beatMeterInterval d a mean => Sys2Proof.Machine.execBeatMeterInterval d a mean s
  | .beatClearExt d a => Sys2Proof.Machine.execBeatClearExt d a s
  | .dieWrapClear d => Sys2Proof.Machine.execDieWrapClear d s
  | .wingRefresh d a bank row => Sys2Proof.Machine.execWingRefresh d a bank row s
  | .refreshIntervalChange d a hottest => Sys2Proof.Machine.execRefreshIntervalChange d a hottest s
  | .copyStall d cl => Sys2Proof.Machine.execCopyStall d cl s
  | .memClearCounts d => Sys2Proof.Machine.execMemClearCounts d s
  | .stkPatrol w => Sys2Proof.Machine.execStkPatrol w s
  | .rowRemap w => Sys2Proof.Machine.execRowRemap w s
  | .stkRefreshChange w temp => Sys2Proof.Machine.execStkRefreshChange w temp s
  | .selfRefreshExit w => Sys2Proof.Machine.execSelfRefreshExit w s
  | .stkFailed w => Sys2Proof.Machine.execStkFailed w s
  | .stkInit w => Sys2Proof.Machine.execStkInit w s
  | .stkClearCounts w => Sys2Proof.Machine.execStkClearCounts w s
  | .stkPprGo w kind row => Sys2Proof.Machine.execStkPprGo w kind row s
  | .pprDone w fails => Sys2Proof.Machine.execPprDone w fails s
  | .farEnable v => Sys2Proof.Machine.execFarEnable v s
  | .farAccessTimeout f => Sys2Proof.Machine.execFarAccessTimeout f s
  | .farLinkDown f => Sys2Proof.Machine.execFarLinkDown f s
  | .farWriteComplete f => Sys2Proof.Machine.execFarWriteComplete f s
  | .farPortRetrain f rate width device => Sys2Proof.Machine.execFarPortRetrain f rate width device s
  | .tcnReplay d f => Sys2Proof.Machine.execTcnReplay d f s
  | .tcnLaneTest d r g t => Sys2Proof.Machine.execTcnLaneTest d r g t s
  | .tcnTraining d e mine theirs got gave => Sys2Proof.Machine.execTcnTraining d e mine theirs got gave s
  | .tcnRetrain d e => Sys2Proof.Machine.execTcnRetrain d e s
  | .tcnMarginMeasure d r ms => Sys2Proof.Machine.execTcnMarginMeasure d r ms s
  | .routeTableChange => Sys2Proof.Machine.execRouteTableChange s
  | .uciSiteEnable site v => Sys2Proof.Machine.execUciSiteEnable site v s
  | .uciIdentity site rate lanes modules msg => Sys2Proof.Machine.execUciIdentity site rate lanes modules msg s
  | .uciRetrain site => Sys2Proof.Machine.execUciRetrain site s
  | .uciAnswer site q idx status low high result0 => Sys2Proof.Machine.execUciAnswer site q idx status low high result0 s
  | .uciDieRequest site q idx write va n data => Sys2Proof.Machine.execUciDieRequest site q idx write va n data s
  | .uciCommandTimeout site q idx => Sys2Proof.Machine.execUciCommandTimeout site q idx s
  | .uciSiteDown site => Sys2Proof.Machine.execUciSiteDown site s
  | .uciL1Entry site => Sys2Proof.Machine.execUciL1Entry site s
  | .packetInject => Sys2Proof.Machine.execPacketInject s
  | .packetRoute port p ue space => Sys2Proof.Machine.execPacketRoute port p ue space s
  | .creditReturn port vc units => Sys2Proof.Machine.execCreditReturn port vc units s
  | .windowAck node cls => Sys2Proof.Machine.execWindowAck node cls s
  | .windowSlotRelease entry => Sys2Proof.Machine.execWindowSlotRelease entry s
  | .partnerEntryWait => Sys2Proof.Machine.execPartnerEntryWait s
  | .residenceDrop n => Sys2Proof.Machine.execResidenceDrop n s
  | .portDown port lost => Sys2Proof.Machine.execPortDown port lost s
  | .portTrain port => Sys2Proof.Machine.execPortTrain port s
  | .fabEnable v => Sys2Proof.Machine.execFabEnable v s
  | .fabEpochWrite bank => Sys2Proof.Machine.execFabEpochWrite bank s
  | .bankLoad bank => Sys2Proof.Machine.execBankLoad bank s
  | .bankLoadDone bank => Sys2Proof.Machine.execBankLoadDone bank s
  | .bankFree bank => Sys2Proof.Machine.execBankFree bank s
  | .epochHoldExpiry bank => Sys2Proof.Machine.execEpochHoldExpiry bank s
  | .fabDropsClear => Sys2Proof.Machine.execFabDropsClear s
  | .partnerPin entry pin cls node window => Sys2Proof.Machine.execPartnerPin entry pin cls node window s
  | .remoteLoad => Sys2Proof.Machine.execRemoteLoad s
  | .remoteStore => Sys2Proof.Machine.execRemoteStore s
  | .remoteAdd => Sys2Proof.Machine.execRemoteAdd s
  | .minS => Sys2Proof.Machine.execMinS s
  | .minU => Sys2Proof.Machine.execMinU s
  | .maxS => Sys2Proof.Machine.execMaxS s
  | .maxU => Sys2Proof.Machine.execMaxU s
  | .swap => Sys2Proof.Machine.execSwap s
  | .cas => Sys2Proof.Machine.execCas s
  | .addX128 => Sys2Proof.Machine.execAddX128 s
  | .remoteIssue => Sys2Proof.Machine.execRemoteIssue s
  | .flaggedIssue => Sys2Proof.Machine.execFlaggedIssue s
  | .remoteReply => Sys2Proof.Machine.execRemoteReply s
  | .remoteRetry rid => Sys2Proof.Machine.execRemoteRetry rid s
  | .remoteTimeout rid => Sys2Proof.Machine.execRemoteTimeout rid s
  | .replyCacheExpiry => Sys2Proof.Machine.execReplyCacheExpiry s
  | .rmtStateLost => Sys2Proof.Machine.execRmtStateLost s
  | .rmtEnable v => Sys2Proof.Machine.execRmtEnable v s
  | .rmtWinWrite window v => Sys2Proof.Machine.execRmtWinWrite window v s
  | .rmtClear => Sys2Proof.Machine.execRmtClear s
  | .collectiveStart => Sys2Proof.Machine.execCollectiveStart s
  | .grantPkt => Sys2Proof.Machine.execGrantPkt s
  | .dataPkt => Sys2Proof.Machine.execDataPkt s
  | .sealChunk => Sys2Proof.Machine.execSealChunk s
  | .ackPkt => Sys2Proof.Machine.execAckPkt s
  | .rereqPkt => Sys2Proof.Machine.execRereqPkt s
  | .rereqTimer q idx src index => Sys2Proof.Machine.execRereqTimer q idx src index s
  | .chunkFailed q idx => Sys2Proof.Machine.execChunkFailed q idx s
  | .collectiveWatchdog q idx => Sys2Proof.Machine.execCollectiveWatchdog q idx s
  | .grpEnable v => Sys2Proof.Machine.execGrpEnable v s
  | .groupEntryEnable g v => Sys2Proof.Machine.execGroupEntryEnable g v s
  | .grpClear => Sys2Proof.Machine.execGrpClear s
  | .flitNak n f lane mine ucw seq => Sys2Proof.Machine.execFlitNak n f lane mine ucw seq s
  | .flitAckTimeout n f lane seq => Sys2Proof.Machine.execFlitAckTimeout n f lane seq s
  | .ringTune n dir f lane heater err held => Sys2Proof.Machine.execRingTune n dir f lane heater err held s
  | .feedForwardNotice n unit kind amount => Sys2Proof.Machine.execFeedForwardNotice n unit kind amount s
  | .ffStale n => Sys2Proof.Machine.execFfStale n s
  | .wrongLock n f lane test lost => Sys2Proof.Machine.execWrongLock n f lane test lost s
  | .walkComplete n f lane => Sys2Proof.Machine.execWalkComplete n f lane s
  | .laserSample n b lane power fade => Sys2Proof.Machine.execLaserSample n b lane power fade s
  | .spareSwitchover n lane stage => Sys2Proof.Machine.execSpareSwitchover n lane stage s
  | .suddenLoss n lane lost => Sys2Proof.Machine.execSuddenLoss n lane lost s
  | .berInterval n f lane db high corrected ucws lost => Sys2Proof.Machine.execBerInterval n f lane db high corrected ucws lost s
  | .laneLocked n f lane node engine => Sys2Proof.Machine.execLaneLocked n f lane node engine s
  | .laneLockTimeout n f lane => Sys2Proof.Machine.execLaneLockTimeout n f lane s
  | .laneTrained n f lane rtt => Sys2Proof.Machine.execLaneTrained n f lane rtt s
  | .optEnable n v => Sys2Proof.Machine.execOptEnable n v s
  | .optCtlWrite n retire spare warn gain relocks ucws ff => Sys2Proof.Machine.execOptCtlWrite n retire spare warn gain relocks ucws ff s
  | .optCommission n mgmt coefs => Sys2Proof.Machine.execOptCommission n mgmt coefs s
  | .optClear n => Sys2Proof.Machine.execOptClear n s
  | .arrival job => Sys2Proof.Machine.execArrival job s
  | .arrivalBarrier job low => Sys2Proof.Machine.execArrivalBarrier job low s
  | .commit job => Sys2Proof.Machine.execCommit job s
  | .landingSeal job refused => Sys2Proof.Machine.execLandingSeal job refused s
  | .commitBarrier job low => Sys2Proof.Machine.execCommitBarrier job low s
  | .landingTimeout job => Sys2Proof.Machine.execLandingTimeout job s
  | .partnerCommit e src key feed keep n size offset data last => Sys2Proof.Machine.execPartnerCommit e src key feed keep n size offset data last s
  | .commitAbandon e => Sys2Proof.Machine.execCommitAbandon e s
  | .mirBufUe e b => Sys2Proof.Machine.execMirBufUe e b s
  | .mirEnable v => Sys2Proof.Machine.execMirEnable v s
  | .mirJobWrite job partner group bound enable => Sys2Proof.Machine.execMirJobWrite job partner group bound enable s
  | .mirRangeEnable r v => Sys2Proof.Machine.execMirRangeEnable r v s
  | .mirHostEnable e v => Sys2Proof.Machine.execMirHostEnable e v s
  | .selfTest mgmt => Sys2Proof.Machine.execSelfTest mgmt s
  | .selfTestDone failed => Sys2Proof.Machine.execSelfTestDone failed s
  | .admitLoad mgmt job n => Sys2Proof.Machine.execAdmitLoad mgmt job n s
  | .loadComplete image => Sys2Proof.Machine.execLoadComplete image s
  | .loadRefused => Sys2Proof.Machine.execLoadRefused s
  | .orphaned => Sys2Proof.Machine.execOrphaned s
  | .abortLoad mgmt => Sys2Proof.Machine.execAbortLoad mgmt s
  | .rejoinComplete => Sys2Proof.Machine.execRejoinComplete s
  | .mirAdmitTimeout => Sys2Proof.Machine.execMirAdmitTimeout s
  | .mgmtViewWrite mgmt w => Sys2Proof.Machine.execMgmtViewWrite mgmt w s
  | .inputSample volts amps bank => Sys2Proof.Machine.execInputSample volts amps bank s
  | .brownoutCut draw => Sys2Proof.Machine.execBrownoutCut draw s
  | .powerLost => Sys2Proof.Machine.execPowerLost s
  | .sagEnd => Sys2Proof.Machine.execSagEnd s
  | .holdupCharged => Sys2Proof.Machine.execHoldupCharged s
  | .standbyLost => Sys2Proof.Machine.execStandbyLost s
  | .powerTelemetry power => Sys2Proof.Machine.execPowerTelemetry power s
  | .optimiserStep d a mean => Sys2Proof.Machine.execOptimiserStep d a mean s
  | .clampEpisodeEnd => Sys2Proof.Machine.execClampEpisodeEnd s
  | .paceWindow d a arrays wanted => Sys2Proof.Machine.execPaceWindow d a arrays wanted s
  | .creditGrant => Sys2Proof.Machine.execCreditGrant s
  | .creditEffect d a => Sys2Proof.Machine.execCreditEffect d a s
  | .allowanceFall d a => Sys2Proof.Machine.execAllowanceFall d a s
  | .unitIdleDown u n => Sys2Proof.Machine.execUnitIdleDown u n s
  | .u2IdleExpiry d c => Sys2Proof.Machine.execU2IdleExpiry d c s
  | .d2IdleExpiry d => Sys2Proof.Machine.execD2IdleExpiry d s
  | .unitWake u => Sys2Proof.Machine.execUnitWake u s
  | .pstateTarget target => Sys2Proof.Machine.execPstateTarget target s
  | .pstateTransitionEnd => Sys2Proof.Machine.execPstateTransitionEnd s
  | .pwrDieOffWrite mask => Sys2Proof.Machine.execPwrDieOffWrite mask s
  | .pwrClearEvents => Sys2Proof.Machine.execPwrClearEvents s
  | .wingOffWrite d a cores v => Sys2Proof.Machine.execWingOffWrite d a cores v s
  | .sensorRead kind index reading => Sys2Proof.Machine.execSensorRead kind index reading s
  | .graceEnd kind index => Sys2Proof.Machine.execGraceEnd kind index s
  | .orderlyStopEnd d pts => Sys2Proof.Machine.execOrderlyStopEnd d pts s
  | .thmDieBack d => Sys2Proof.Machine.execThmDieBack d s
  | .thmReturnWrite mask => Sys2Proof.Machine.execThmReturnWrite mask s
  | .optThermalReturn n => Sys2Proof.Machine.execOptThermalReturn n s
  | .hardwareTrip d => Sys2Proof.Machine.execHardwareTrip d s
  | .thmThresholdWrite kind warning throttle shutdown => Sys2Proof.Machine.execThmThresholdWrite kind warning throttle shutdown s
  | .thmClearMax => Sys2Proof.Machine.execThmClearMax s
  | .porterWake code => Sys2Proof.Machine.execPorterWake code s
  | .porterTimer => Sys2Proof.Machine.execPorterTimer s
  | .wakeFromP2 => Sys2Proof.Machine.execWakeFromP2 s
  | .mgmtWake mgmt => Sys2Proof.Machine.execMgmtWake mgmt s
  | .eventLatch src => Sys2Proof.Machine.execEventLatch src s
  | .sourceActivate target eoi => Sys2Proof.Machine.execSourceActivate target eoi s
  | .evtHostEoi priv src => Sys2Proof.Machine.execEvtHostEoi priv src s
  | .evtAck src => Sys2Proof.Machine.execEvtAck src s
  | .evtPendWrite word bits => Sys2Proof.Machine.execEvtPendWrite word bits s
  | .rescan => Sys2Proof.Machine.execRescan s
  | .periodicRescan => Sys2Proof.Machine.execPeriodicRescan s
  | .evtSwSet n => Sys2Proof.Machine.execEvtSwSet n s
  | .gallerySample g r v => Sys2Proof.Machine.execGallerySample g r v s
  | .galleryPublish g => Sys2Proof.Machine.execGalleryPublish g s
  | .galCursorWrite b record hub clear => Sys2Proof.Machine.execGalCursorWrite b record hub clear s
  | .galBinsWrite b lo shift => Sys2Proof.Machine.execGalBinsWrite b lo shift s
  | .holdEnd b => Sys2Proof.Machine.execHoldEnd b s
  | .tmrCorr => Sys2Proof.Machine.execTmrCorr s
  | .alarm k => Sys2Proof.Machine.execAlarm k s
  | .getNonce path => Sys2Proof.Machine.execGetNonce path s
  | .unlock path blown => Sys2Proof.Machine.execUnlock path blown s
  | .setDebug path => Sys2Proof.Machine.execSetDebug path s
  | .advanceArb path blown0 blown1 => Sys2Proof.Machine.execAdvanceArb path blown0 blown1 s
  | .lifecycle path blown => Sys2Proof.Machine.execLifecycle path blown s
  | .fuseAuth path blown => Sys2Proof.Machine.execFuseAuth path blown s
  | .nonceExpiry => Sys2Proof.Machine.execNonceExpiry s
  | .openExpiry => Sys2Proof.Machine.execOpenExpiry s
  | .dbgSeal => Sys2Proof.Machine.execDbgSeal s
  | .getVersion port => Sys2Proof.Machine.execGetVersion port s
  | .getCapabilities port => Sys2Proof.Machine.execGetCapabilities port s
  | .negotiateAlgorithms port common => Sys2Proof.Machine.execNegotiateAlgorithms port common s
  | .getDigests port => Sys2Proof.Machine.execGetDigests port s
  | .getCertificate port slot offset length => Sys2Proof.Machine.execGetCertificate port slot offset length s
  | .challenge port slot nonce => Sys2Proof.Machine.execChallenge port slot nonce s
  | .getMeasurements port index signed nonce => Sys2Proof.Machine.execGetMeasurements port index signed nonce s
  | .keyExchange port => Sys2Proof.Machine.execKeyExchange port s
  | .finish port id valid => Sys2Proof.Machine.execFinish port id valid s
  | .endSession port id => Sys2Proof.Machine.execEndSession port id s
  | .getCsr port nonce => Sys2Proof.Machine.execGetCsr port nonce s
  | .setCertificate port slot chain => Sys2Proof.Machine.execSetCertificate port slot chain s
  | .cxlIdeKm port id op => Sys2Proof.Machine.execCxlIdeKm port id op s
  | .mgmtRead src seq off count => Sys2Proof.Machine.execMgmtRead src seq off count s
  | .mgmtWrite src seq off words => Sys2Proof.Machine.execMgmtWrite src seq off words s
  | .readVin => Sys2Proof.Machine.execReadVin s
  | .readIin => Sys2Proof.Machine.execReadIin s
  | .readTemperature1 => Sys2Proof.Machine.execReadTemperature1 s
  | .readPin => Sys2Proof.Machine.execReadPin s
  | .statusWord => Sys2Proof.Machine.execStatusWord s
  | .unitStateWrite mgmt half v => Sys2Proof.Machine.execUnitStateWrite mgmt half v s
  | .profileWrite half v => Sys2Proof.Machine.execProfileWrite half v s
  | .hubSync => Sys2Proof.Machine.execHubSync s
  | .absentAccess a write => Sys2Proof.Machine.execAbsentAccess a write s
  | .earlyAccess a write => Sys2Proof.Machine.execEarlyAccess a write s
  | .registerWrite mgmt off bytes v x => Sys2Proof.Machine.execRegisterWrite mgmt off bytes v x s
  | .windowAccess p line op => Sys2Proof.Machine.execWindowAccess p line op s
  | .pnlMemSegWrite seg v => Sys2Proof.Machine.execPnlMemSegWrite seg v s
  | .bisnp line data => Sys2Proof.Machine.execBisnp line data s
  | .hostModeWrite dual => Sys2Proof.Machine.execHostModeWrite dual s
  | .takeover mgmt => Sys2Proof.Machine.execTakeover mgmt s
  | .heartbeatMiss => Sys2Proof.Machine.execHeartbeatMiss s
  | .homePortDown => Sys2Proof.Machine.execHomePortDown s
  | .hubDomainFault => Sys2Proof.Machine.execHubDomainFault s
  | .hubTakeover => Sys2Proof.Machine.execHubTakeover s
  | .hostLinkDown p => Sys2Proof.Machine.execHostLinkDown p s
  | .coldReset flash h0 h1 => Sys2Proof.Machine.execColdReset flash h0 h1 s
  | .warmReset flash h0 h1 => Sys2Proof.Machine.execWarmReset flash h0 h1 s
  | .panelReset cxl => Sys2Proof.Machine.execPanelReset cxl s
  | .dieReset d pts => Sys2Proof.Machine.execDieReset d pts s
  | .panelReady ms => Sys2Proof.Machine.execPanelReady ms s
  | .startupFail step => Sys2Proof.Machine.execStartupFail step s
  | .perstRelease p rate x8 cacheEn memEn => Sys2Proof.Machine.execPerstRelease p rate x8 cacheEn memEn s
  | .semaphoreWatch q idx => Sys2Proof.Machine.execSemaphoreWatch q idx s
  | .waitRetest => Sys2Proof.Machine.execWaitRetest s
  | .waitTimeout q idx => Sys2Proof.Machine.execWaitTimeout q idx s
  | .timerExpiry q idx => Sys2Proof.Machine.execTimerExpiry q idx s
  | .partnerLoad e src key n size => Sys2Proof.Machine.execPartnerLoad e src key n size s
  | .farLinkUp f rate width => Sys2Proof.Machine.execFarLinkUp f rate width s
  | .hostLinkUp p rate x8 cacheEn memEn => Sys2Proof.Machine.execHostLinkUp p rate x8 cacheEn memEn s
  | .msixUnmask p op => Sys2Proof.Machine.execMsixUnmask p op s
  | .debugAccessPortRequest req => Sys2Proof.Machine.execDebugAccessPortRequest req s

end Sys2Proof.Machine
end

