-- ==== Sys2Proof/Machine/Step.lean ====
section
/-!
DEFINITION. The step: the command at the front of the queue takes its effect; on an empty queue 10 ns pass.
-/

namespace Sys2Proof.Machine

/-- One step (DESIGN CHOICE, notes/assumptions/2.md: time passes only on an empty queue). -/
def step (s : State) : Host.Outcome State Fault Refusal :=
  match s.pending with
  | [] => .next (clockTick s)
  | c :: rest => exec c { s with pending := rest }

/-- `s` with the command that a table word spells at the front of its queue: the table gives no row bits, so a word spells none. -/
def State.withFetchWord (s : State) (nbits w : Nat) : State :=
  match Sys2Proof.decodeTableWord nbits w with
  | some c => { s with pending := c :: s.pending }
  | none => s

end Sys2Proof.Machine
end

