-- ==== Sys2Proof/Safety.lean ====
section
/-!
DEFINITION. What counts as a safe run: every step answers a next state, and every byte of memory stays listed in the canonical form.
-/

namespace Sys2Proof.Machine

/-- A step answers a next state: the panel reports every condition in its own records, registers and events. -/
def Goes (s : State) : Prop := ∃ t, step s = .next t

/-- The first `n` steps from a state all answer a next state. -/
def RunsFor : Nat → State → Prop
  | 0, _ => True
  | n + 1, s => ∃ t, step s = .next t ∧ RunsFor n t

/-- A state whose memory is in canonical form. -/
def Canonical (s : State) : Prop := Memory.wf s.mem = true

/-- A command completes: `exec` answers a next state, of which `P` holds. -/
def Does (i : Instr) (s : State) (P : State → Prop) : Prop := ∃ t, exec i s = .next t ∧ P t

/-- Between `s` and `t` no register field differs but the ones listed, each with its unit. -/
def FieldsBut (l : List (Fld × Nat)) (s t : State) : Prop := ∀ k, (∀ p ∈ l, k ≠ fkey p.1 p.2) → kfind t.fields k = kfind s.fields k

/-- From `s` to `t` nothing of the machine has changed but register fields, and of these only the ones listed. -/
def OnlyFields (l : List (Fld × Nat)) (s t : State) : Prop := t = { s with fields := t.fields } ∧ FieldsBut l s t

/-- The origin latch of an event source is set (R551). -/
def Latched (s : State) (src : Nat) : Prop := bitOn (rd s EVT_LEVEL.latched (src / 64)) (src % 64) = true

/-- The two words of an event source that raising it writes (R551, R552). -/
def evtWords (src : Nat) : List (Fld × Nat) := [(EVT_LEVEL.latched, src / 64), (EVT_PEND.pending, src / 64)]

end Sys2Proof.Machine
end

