-- ==== Sys2Proof/WellFormed.lean ====
section
/-!
DEFINITION. Well-formed commands: what the operand types do not say of the lists that come with a command.
-/

namespace Sys2Proof

/-- A chunk of a commit: 1 MiB (R483). -/
def chunkBytes : Nat := 2 ^ 20

/-- Whether a command's lists have the lengths that the spec gives them: a read of 1 to 8 descriptors (Table 5.1), 16 lane groups of a link
(R313), the bytes of a request (R338), a chunk of a commit (R483), 1 to 128 words of a message (Table 19.4), units of Table 1.7. -/
def Instr.wf : Instr → Bool
  | .nop .. => true
  | .matmul .. => true
  | .cvt .. => true
  | .vectorAdd .. => true
  | .vecSub .. => true
  | .vecMul .. => true
  | .vectorMax .. => true
  | .vectorMin .. => true
  | .addRow .. => true
  | .mulRow .. => true
  | .axpb .. => true
  | .vecExp .. => true
  | .vecLog .. => true
  | .rcp .. => true
  | .rsqrt .. => true
  | .silu .. => true
  | .rsum .. => true
  | .rsumsq .. => true
  | .rmax .. => true
  | .rsumX .. => true
  | .softmax .. => true
  | .copyMove .. => true
  | .accumulate .. => true
  | .reducePlanes .. => true
  | .reduceScatter .. => true
  | .allGather .. => true
  | .exchange .. => true
  | .remote .. => true
  | .waitSem .. => true
  | .signalSem .. => true
  | .fence .. => true
  | .landing .. => true
  | .timer .. => true
  | .commandDispatch .. => true
  | .descriptorRead _ ds => 1 ≤ ds.length && ds.length ≤ 8
  | .commandComplete .. => true
  | .heldRecordWrite .. => true
  | .queueFault .. => true
  | .queueEnable .. => true
  | .queueDisable .. => true
  | .queueDrained .. => true
  | .queueResume .. => true
  | .completionRingEnable .. => true
  | .controlRingEnable .. => true
  | .queueEngineEnable .. => true
  | .doorbellSnoop .. => true
  | .doorbellLineLost .. => true
  | .doorbellLineData .. => true
  | .doorbellPoll .. => true
  | .doorbellRereadAll .. => true
  | .preempt .. => true
  | .restore .. => true
  | .xltInvalidate .. => true
  | .invalidationComplete .. => true
  | .arrayDrainEnd .. => true
  | .arrayStall .. => true
  | .arrayAbort .. => true
  | .arrayClearCounts .. => true
  | .beatMeterInterval .. => true
  | .beatClearExt .. => true
  | .dieWrapClear .. => true
  | .wingRefresh .. => true
  | .refreshIntervalChange .. => true
  | .copyStall .. => true
  | .memClearCounts .. => true
  | .stkPatrol .. => true
  | .rowRemap .. => true
  | .stkRefreshChange .. => true
  | .selfRefreshExit .. => true
  | .stkFailed .. => true
  | .stkInit .. => true
  | .stkClearCounts .. => true
  | .stkPprGo .. => true
  | .pprDone .. => true
  | .farEnable .. => true
  | .farAccessTimeout .. => true
  | .farLinkDown .. => true
  | .farWriteComplete .. => true
  | .farPortRetrain .. => true
  | .tcnReplay .. => true
  | .tcnLaneTest .. => true
  | .tcnTraining _ _ mine theirs _ _ => mine.length == 16 && theirs.length == 16
  | .tcnRetrain .. => true
  | .tcnMarginMeasure .. => true
  | .routeTableChange .. => true
  | .uciSiteEnable .. => true
  | .uciIdentity .. => true
  | .uciRetrain .. => true
  | .uciAnswer .. => true
  | .uciDieRequest _ _ _ write _ n data => if write then data.length == n.toNat && 1 ≤ n.toNat else data.isEmpty && 1 ≤ n.toNat
  | .uciCommandTimeout .. => true
  | .uciSiteDown .. => true
  | .uciL1Entry .. => true
  | .packetInject .. => true
  | .packetRoute .. => true
  | .creditReturn .. => true
  | .windowAck .. => true
  | .windowSlotRelease .. => true
  | .partnerEntryWait .. => true
  | .residenceDrop .. => true
  | .portDown .. => true
  | .portTrain .. => true
  | .fabEnable .. => true
  | .fabEpochWrite .. => true
  | .bankLoad .. => true
  | .bankLoadDone .. => true
  | .bankFree .. => true
  | .epochHoldExpiry .. => true
  | .fabDropsClear .. => true
  | .partnerPin .. => true
  | .remoteLoad .. => true
  | .remoteStore .. => true
  | .remoteAdd .. => true
  | .minS .. => true
  | .minU .. => true
  | .maxS .. => true
  | .maxU .. => true
  | .swap .. => true
  | .cas .. => true
  | .addX128 .. => true
  | .remoteIssue .. => true
  | .flaggedIssue .. => true
  | .remoteReply .. => true
  | .remoteRetry .. => true
  | .remoteTimeout .. => true
  | .replyCacheExpiry .. => true
  | .rmtStateLost .. => true
  | .rmtEnable .. => true
  | .rmtWinWrite .. => true
  | .rmtClear .. => true
  | .collectiveStart .. => true
  | .grantPkt .. => true
  | .dataPkt .. => true
  | .sealChunk .. => true
  | .ackPkt .. => true
  | .rereqPkt .. => true
  | .rereqTimer .. => true
  | .chunkFailed .. => true
  | .collectiveWatchdog .. => true
  | .grpEnable .. => true
  | .groupEntryEnable .. => true
  | .grpClear .. => true
  | .flitNak .. => true
  | .flitAckTimeout .. => true
  | .ringTune .. => true
  | .feedForwardNotice .. => true
  | .ffStale .. => true
  | .wrongLock .. => true
  | .walkComplete .. => true
  | .laserSample .. => true
  | .spareSwitchover .. => true
  | .suddenLoss .. => true
  | .berInterval .. => true
  | .laneLocked .. => true
  | .laneLockTimeout .. => true
  | .laneTrained .. => true
  | .optEnable .. => true
  | .optCtlWrite .. => true
  | .optCommission .. => true
  | .optClear .. => true
  | .arrival .. => true
  | .arrivalBarrier .. => true
  | .commit .. => true
  | .landingSeal .. => true
  | .commitBarrier .. => true
  | .landingTimeout .. => true
  | .partnerCommit _ _ _ _ _ _ size offset data _ => offset.toNat % chunkBytes == 0 && data.length == min chunkBytes (size.toNat - offset.toNat)
  | .commitAbandon .. => true
  | .mirBufUe .. => true
  | .mirEnable .. => true
  | .mirJobWrite .. => true
  | .mirRangeEnable .. => true
  | .mirHostEnable .. => true
  | .selfTest .. => true
  | .selfTestDone failed => failed.all fun u => u.toNat < 308
  | .admitLoad .. => true
  | .loadComplete .. => true
  | .loadRefused .. => true
  | .orphaned .. => true
  | .abortLoad .. => true
  | .rejoinComplete .. => true
  | .mirAdmitTimeout .. => true
  | .mgmtViewWrite .. => true
  | .inputSample .. => true
  | .brownoutCut .. => true
  | .powerLost .. => true
  | .sagEnd .. => true
  | .holdupCharged .. => true
  | .standbyLost .. => true
  | .powerTelemetry .. => true
  | .optimiserStep .. => true
  | .clampEpisodeEnd .. => true
  | .paceWindow .. => true
  | .creditGrant .. => true
  | .creditEffect .. => true
  | .allowanceFall .. => true
  | .unitIdleDown .. => true
  | .u2IdleExpiry .. => true
  | .d2IdleExpiry .. => true
  | .unitWake .. => true
  | .pstateTarget .. => true
  | .pstateTransitionEnd .. => true
  | .pwrDieOffWrite .. => true
  | .pwrClearEvents .. => true
  | .wingOffWrite .. => true
  | .sensorRead .. => true
  | .graceEnd .. => true
  | .orderlyStopEnd .. => true
  | .thmDieBack .. => true
  | .thmReturnWrite .. => true
  | .optThermalReturn .. => true
  | .hardwareTrip .. => true
  | .thmThresholdWrite .. => true
  | .thmClearMax .. => true
  | .porterWake .. => true
  | .porterTimer .. => true
  | .wakeFromP2 .. => true
  | .mgmtWake .. => true
  | .eventLatch .. => true
  | .sourceActivate .. => true
  | .evtHostEoi .. => true
  | .evtAck .. => true
  | .evtPendWrite .. => true
  | .rescan .. => true
  | .periodicRescan .. => true
  | .evtSwSet .. => true
  | .gallerySample .. => true
  | .galleryPublish .. => true
  | .galCursorWrite .. => true
  | .galBinsWrite .. => true
  | .holdEnd .. => true
  | .tmrCorr .. => true
  | .alarm .. => true
  | .getNonce .. => true
  | .unlock .. => true
  | .setDebug .. => true
  | .advanceArb .. => true
  | .lifecycle .. => true
  | .fuseAuth .. => true
  | .nonceExpiry .. => true
  | .openExpiry .. => true
  | .dbgSeal .. => true
  | .getVersion .. => true
  | .getCapabilities .. => true
  | .negotiateAlgorithms .. => true
  | .getDigests .. => true
  | .getCertificate .. => true
  | .challenge .. => true
  | .getMeasurements .. => true
  | .keyExchange .. => true
  | .finish .. => true
  | .endSession .. => true
  | .getCsr .. => true
  | .setCertificate .. => true
  | .cxlIdeKm .. => true
  | .mgmtRead _ _ _ count => 1 ≤ count.toNat && count.toNat ≤ 128
  | .mgmtWrite _ _ _ words => 1 ≤ words.length && words.length ≤ 128
  | .readVin .. => true
  | .readIin .. => true
  | .readTemperature1 .. => true
  | .readPin .. => true
  | .statusWord .. => true
  | .unitStateWrite .. => true
  | .profileWrite .. => true
  | .hubSync .. => true
  | .absentAccess .. => true
  | .earlyAccess .. => true
  | .registerWrite .. => true
  | .windowAccess .. => true
  | .pnlMemSegWrite .. => true
  | .bisnp .. => true
  | .hostModeWrite .. => true
  | .takeover .. => true
  | .heartbeatMiss .. => true
  | .homePortDown .. => true
  | .hubDomainFault .. => true
  | .hubTakeover .. => true
  | .hostLinkDown .. => true
  | .coldReset .. => true
  | .warmReset .. => true
  | .panelReset .. => true
  | .dieReset .. => true
  | .panelReady .. => true
  | .startupFail .. => true
  | .perstRelease .. => true
  | .semaphoreWatch .. => true
  | .waitRetest .. => true
  | .waitTimeout .. => true
  | .timerExpiry .. => true
  | .partnerLoad .. => true
  | .farLinkUp .. => true
  | .hostLinkUp .. => true
  | .msixUnmask .. => true
  | .debugAccessPortRequest .. => true

end Sys2Proof
end

