-- ==== Sys2Proof/Certificates/Slice0/Obligations.lean ====
section
/-!
DEFINITION. The statements for the provers. `Does i s P` says that `exec i s` answers a next state with `P`; `OnlyFields l s t` that
nothing but the listed register fields differs.
-/

open Sys2Proof Sys2Proof.Machine

/-! ### The machine -/

/-- The invariant of the machine: memory in canonical form, and at most eight fuse records (R32). -/
def MachineInv (s : State) : Prop := Memory.wf s.mem = true ∧ s.fuseRecs.length ≤ 8

/-- The machine after reset satisfies the invariant. -/
def Obligations.ResetSatisfiesInvariant : Prop := MachineInv State.reset

/-- Every step keeps the invariant, from every state. -/
def Obligations.StepKeepsInvariant : Prop := ∀ s t, MachineInv s → step s = .next t → MachineInv t

/-- A step with a command at the front of the queue is the command's effect on the state with the queue's rest. -/
def Obligations.StepRunsFrontCommand : Prop := ∀ (c : Instr) (rest : List Instr) (s : State),
  step { s with pending := c :: rest } = exec c { s with pending := rest }

/-- On an empty queue 10 ns pass (the model's choice, log entry 2): nothing changes in P3. Else the tick of a running hub is one more modulo
2^64 (R572); and while neither a packet waits on the panel's network nor a load's request or a landing's number, nothing but ticks and TIMERs changes: with the
primary hub running, every TIMER that counts has one tick less (R211). -/
def Obligations.IdleStepCountsTicks : Prop := ∀ s : State, s.pending = [] →
  ∃ t, step s = .next t ∧ (s.pw.offP3 = true → t = s) ∧
    (s.pw.offP3 = false → s.tcn = [] → (∀ l, s.mirLoad = some l → l.asked = true) → (∀ e ∈ s.landings, e.2.told = true) →
      (∀ h, h ∈ s.hst.hubsUp → h < 2 → s.hst.hubsUp.Nodup → kget t.ticks (40 + h) 0 = (kget s.ticks (40 + h) 0 + 1) % 2 ^ 64) ∧
      t = { s with ticks := t.ticks, queues := t.queues } ∧
      ∀ q, getQ t q = { getQ s q with ctxs := (getQ s q).ctxs.map fun c =>
        if (primaryHub s ∈ s.hst.hubsUp) ∧ descOpcode c.desc = opTimer ∧ c.started = true then { c with tick := c.tick - 1 } else c })

/-- Every command whose lists have the lengths that the spec gives them completes: no command stops the machine. -/
def WellFormedCommandsComplete : Prop := ∀ (i : Instr) (s : State), i.wf = true → ∃ t, exec i s = .next t

/-- No command changes the queue of waiting commands, and none takes back what has left the panel. -/
def Obligations.CommandsLeaveQueueAlone : Prop := ∀ (i : Instr) (s t : State), exec i s = .next t → t.pending = s.pending ∧ s.outbox <:+ t.outbox

/-- A read of no descriptor or of more than eight (Table 5.1), and a link training whose two ends do not report 16 lane groups (R313), are no
commands of this panel: they stop with the fault illFormed. -/
def IllFormedCommandsStop : Prop :=
  (∀ q ds s, (ds = [] ∨ 8 < ds.length) → exec (.descriptorRead q ds) s = .fault .illFormed) ∧
  (∀ die edge mine theirs a b s, (mine.length ≠ 16 ∨ theirs.length ≠ 16) → exec (.tcnTraining die edge mine theirs a b) s = .fault .illFormed)

/-- Every well-formed command completes, and the ill-formed ones stop with illFormed. -/
def Obligations.CommandsCompleteOrAreIllFormed : Prop := WellFormedCommandsComplete ∧ IllFormedCommandsStop


/-! ### Queues and the commands of the command processor (file 05) -/

/-- At `t` the work of the command with context `c` is at its end: its context is done, `st` is merged into its status by R25, `r` is its
result0; nothing of the machine but the queue's contexts differs from `s`. -/
def Ended (s t : State) (q : Nat) (c : Ctx) (st r : Nat) : Prop :=
  findCtx t q c.idx = some { c with phase := .done, status := stWorse c.status st, result0 := r } ∧
  t = { s with queues := t.queues } ∧ (∀ p : Nat, p ≠ q → getQ t p = getQ s p) ∧ getQ t q = { getQ s q with ctxs := (getQ t q).ctxs }

/-- NOP (R195), FENCE with no write of its own queue outstanding at its scope (R208, R209), and TIMER, TIMER_EXPIRY once every tick of the
duration has been counted (R211) bring the command to its end; a FENCE that waits, and a TIMER before its end, leave it at work. Nothing
else changes; a TIMER with nothing of its queue before it counts from then on. -/
def Obligations.NopFenceTimerComplete : Prop :=
  (∀ (q : QueueNo) (idx : BitVec 32) s c, runningCtx s q idx.toNat opNop = some c → Does (.nop q idx) s fun t => Ended s t q c stOk 0) ∧
  (∀ (q : QueueNo) (idx : BitVec 32) s c, runningCtx s q idx.toNat opFence = some c →
    (lineBits c.desc 0x08 0 3 < 4 ∨ ∀ w ∈ s.farWrites, w.queue ≠ q.val) →
    (lineBits c.desc 0x08 0 3 < 5 ∨ ∀ o ∈ s.rmtOps, o.origin.queue = q.val → o.code = rcLoad) →
    Does (.fence q idx) s fun t => Ended s t q c stOk 0) ∧
  (∀ (q : QueueNo) (idx : BitVec 32) s c, runningCtx s q idx.toNat opFence = some c →
    (4 ≤ lineBits c.desc 0x08 0 3 ∧ ∃ w ∈ s.farWrites, w.queue = q.val) ∨
      (5 ≤ lineBits c.desc 0x08 0 3 ∧ ∃ o ∈ s.rmtOps, o.origin.queue = q.val ∧ o.code ≠ rcLoad) →
    exec (.fence q idx) s = .next s) ∧
  (∀ (q : QueueNo) (idx : BitVec 32) s c, runningCtx s q idx.toNat opTimer = some c →
    Does (.timer q idx) s fun t =>
      let c' := if (getQ s q).ctxs.head? = some c then { c with started := true } else c
      if c'.started = true ∧ c'.tick = 0 then Ended s t q c' stOk (hubTick s % 2 ^ 64)
      else findCtx t q c.idx = some c' ∧ t = { s with queues := t.queues } ∧ ∀ p : Nat, p ≠ q → getQ t p = getQ s p) ∧
  (∀ (q : QueueNo) (idx : BitVec 32) s c, runningCtx s q idx.toNat opTimer = some c →
    (c.started = true → c.tick = 0 → Does (.timerExpiry q idx) s fun t => Ended s t q c stOk (hubTick s % 2 ^ 64)) ∧
    (c.started = false ∨ c.tick ≠ 0 → exec (.timerExpiry q idx) s = .next s))

/-- What a WAIT of job `job` reads of its semaphore (R205): the translation of its address, in stacked memory, and the eight bytes there. -/
def SemRead (s : State) (job va : Nat) (x : Xl) (g : Got) : Prop :=
  translate s 1280 job va accRead = x ∧ x.status = stOk ∧ x.flat < 2 ^ 52 ∧ (∃ w, placeOf x.s x.flat = .stack w) ∧
  readFlat x.s x.flat 8 = g ∧ g.status = stOk

/-- The state after the watch entries of a WAIT have gone. -/
def unwatch (s : State) (q idx : Nat) : State :=
  { s with watch := s.watch.filter (·.2 != (q, idx)), unwatched := s.unwatched.filter (· != (q, idx)) }

/-- WAIT (R205) and SEMAPHORE_WATCH (R206): a semaphore at or above the threshold ends the command with the value as its result; below it, the
WAIT is put on watch while the table has room. WAIT_TIMEOUT (R201) stops the command with TIMEOUT, its watch gone. -/
def WaitTestsItsSemaphore : Prop :=
  (∀ (q : QueueNo) (idx : BitVec 32) s c x g, runningCtx s q idx.toNat opWait = some c → SemRead s (rd s QUE_Q_BIND.space q) (sigAddr c.desc) x g →
    lineBits c.desc 0x10 0 64 ≤ leNat g.data →
    Does (.waitSem q idx) s (fun t => Ended (unwatch g.s q c.idx) t q c stOk (leNat g.data)) ∧
    (s.watch.any (·.2 == (q.val, c.idx)) = true →
      Does (.semaphoreWatch q idx) s fun t => Ended (unwatch g.s q c.idx) t q c stOk (leNat g.data))) ∧
  (∀ (q : QueueNo) (idx : BitVec 32) s c x g, runningCtx s q idx.toNat opWait = some c → SemRead s (rd s QUE_Q_BIND.space q) (sigAddr c.desc) x g →
    leNat g.data < lineBits c.desc 0x10 0 64 → g.s.watch.any (·.2 == (q.val, c.idx)) = false → watchLines g.s < 1024 →
    Does (.waitSem q idx) s fun t => (x.flat / 64, q.val, c.idx) ∈ t.watch ∧ (q.val, c.idx) ∉ t.unwatched ∧
      t = { g.s with watch := t.watch, unwatched := t.unwatched }) ∧
  (∀ (q : QueueNo) (idx : BitVec 32) s c, runningCtx s q idx.toNat opWait = some c → lineBits c.desc 0x18 0 32 ≠ 0 →
    Does (.waitTimeout q idx) s fun t => (findCtx t q c.idx).map (·.phase) = some .stopped ∧ (∀ e ∈ t.watch, e.2 ≠ (q.val, c.idx)) ∧
      (q.val, c.idx) ∉ t.unwatched ∧
      (getQ t q).stops = (getQ s q).stops ++ [⟨c.idx, descTag c.desc, opWait, stopPlain stTimeout 3 0⟩] ∧
      t = { s with queues := t.queues, watch := t.watch, unwatched := t.unwatched })

/-- SIGNAL (R207, R601): the local form adds its value to the eight bytes of the semaphore, with wrap, in one update, and ends with the old value
as its result0; in host memory it waits while the home port's link is down, and stops with DESC_INVALID where the host has not enabled CXL.cache; the remote form (R411) goes to remote memory once, as a flagged ADD. -/
def SignalAddsToSemaphore : Prop :=
  (∀ (q : QueueNo) (idx : BitVec 32) s c x g w, runningCtx s q idx.toNat opSignal = some c → sigRemote c.desc = false →
    translate s 1280 (rd s QUE_Q_BIND.space q) (sigAddr c.desc) accAtomic = x → x.status = stOk →
    (x.flat < 2 ^ 64 ∨ (homeUp x.s = true ∧ on x.s PNL_HOST_STATUS.cache_en (rd x.s PNL_HUB_ROLE.primary) = true)) →
    readFlat x.s x.flat 8 = g → g.status = stOk → writeFlat g.s q c.idx x.flat (leBytes 8 (leNat g.data + sigValue c.desc)) = (w, stOk) →
    Does (.signalSem q idx) s fun t => Ended w t q c stOk (leNat g.data)) ∧
  (∀ (q : QueueNo) (idx : BitVec 32) s c x, runningCtx s q idx.toNat opSignal = some c → sigRemote c.desc = false →
    translate s 1280 (rd s QUE_Q_BIND.space q) (sigAddr c.desc) accAtomic = x → x.status = stOk → 2 ^ 64 ≤ x.flat →
    (homeUp x.s = false → exec (.signalSem q idx) s = .next x.s) ∧
    (homeUp x.s = true → on x.s PNL_HOST_STATUS.cache_en (rd x.s PNL_HUB_ROLE.primary) = false →
      exec (.signalSem q idx) s = .next (stopShare x.s q c.idx 0 (stopPlain stDescInvalid 3 0)))) ∧
  (∀ (q : QueueNo) (idx : BitVec 32) s c, runningCtx s q idx.toNat opSignal = some c → sigRemote c.desc = true →
    (c.started = true → exec (.signalSem q idx) s = .next s) ∧
    (c.started = false → Does (.signalSem q idx) s fun t =>
      t = rmtSubmit (modCtx s q c.idx fun c => { c with started := true }) (.signal q c.idx) rcAdd 8 (sigNode c.desc) (sigAddr c.desc / 2 ^ 40)
        (sigAddr c.desc % 2 ^ 40) (leBytes 8 (sigValue c.desc)) (rd s QUE_Q_BIND.space q) true))

/-- WAIT tests its semaphore and SIGNAL adds to it. -/
def Obligations.SemaphoresAreTestedAndSignalled : Prop := WaitTestsItsSemaphore ∧ SignalAddsToSemaphore

/-- The queue that arbitration picks, with the descriptor that it has next, and the state once the descriptor has been taken (R187). -/
def NextUp (s : State) (q idx : Nat) (d : Line) (rest : List (Nat × Line)) : Prop :=
  pickQueue s = some q ∧ (getQ s q).fetched = (idx, d) :: rest ∧ findCtx s q idx = none

def taken (s : State) (q : Nat) (rest : List (Nat × Line)) : State :=
  putQ { s with rrLast := kput s.rrLast (rd s QUE_Q_BIND.priority q) q } q { getQ s q with fetched := rest }

/-- COMMAND_DISPATCH (R183, R187, R191): with no queue to serve nothing changes; else the first fetched descriptor of the queue that
arbitration picks leaves the fetched list. If it passes its checks it is in flight in a fresh context (a TIMER with nothing of its queue before
it already counts), with its core set sampled and, one share for each core (MATMUL, VECTOR) or engine (COPY) at the end of their work; one of a
third-party die goes to it with bytes 0x08-0x3F unchanged (R336). A command whose units lie on a tripped die or beyond a partition fails with
TIMEOUT (R331, R540); one that fails its checks stops with DESC_INVALID, and nothing else comes of it. -/
def Obligations.DispatchTakesNextDescriptor : Prop :=
  (∀ s, pickQueue s = none → exec .commandDispatch s = .next s) ∧
  (∀ s q idx d rest, NextUp s q idx d rest → descOpcode d ∉ [opMatmul, opVector, opCopy] → headerOk d = true →
    bodyOk (taken s q rest) q (coreSet s q) d = true →
    Does .commandDispatch s fun t => (getQ t q).fetched = rest ∧
      (findCtx t q idx = some (ctxNew idx d []) ∨ (descOpcode d = opTimer ∧ (getQ s q).ctxs = [] ∧
        findCtx t q idx = some { ctxNew idx d [] with started := true })) ∧
      (∀ p : Nat, p ≠ q → getQ t p = getQ s p) ∧ t.mem = s.mem ∧ t.coreShares = s.coreShares ∧ t.copyShares = s.copyShares) ∧
  (∀ s q idx d rest cores, NextUp s q idx d rest → descOpcode d ∈ [opMatmul, opVector, opCopy] → headerOk d = true →
    coreSet s q = some cores → bodyOk (taken s q rest) q (some cores) d = true → (∀ n ∈ coreDies cores, dieTripped s n = false ∧ isCut s n = false) →
    (∀ n, siteOf cores = some n → isCut s (40 + n) = false) →
    Does .commandDispatch s fun t => (getQ t q).fetched = rest ∧ findCtx t q idx = some (ctxNew idx d cores) ∧
      (∀ e, cores = [e] → 2 ^ 15 ≤ e → .uciCommand e q idx (leBytes 56 (d.toNat / 2 ^ 64)) ∈ t.outbox) ∧
      (∀ p : Nat, p ≠ q → getQ t p = getQ s p) ∧
      (descOpcode d ≠ opCopy → t.copyShares = s.copyShares ∧ t.coreShares = s.coreShares ++ (cores.filter (· < 2 ^ 15)).map fun e => (e, q, idx)) ∧
      (descOpcode d = opCopy → t.coreShares = s.coreShares ∧ t.copyShares = s.copyShares ++ (engineSet cores).map fun e => (e, q, idx))) ∧
  (∀ s q idx d rest cores, NextUp s q idx d rest → descOpcode d ∈ [opMatmul, opVector, opCopy] → headerOk d = true →
    coreSet s q = some cores → bodyOk (taken s q rest) q (some cores) d = true →
    ((∃ n ∈ coreDies cores, dieTripped s n = true ∨ isCut s n = true) ∨ ∃ n, siteOf cores = some n ∧ isCut s (40 + n) = true) →
    Does .commandDispatch s fun t => (getQ t q).fetched = rest ∧
      findCtx t q idx = some { ctxNew idx d cores with phase := .done, status := stTimeout } ∧ t.coreShares = s.coreShares ∧
      t.copyShares = s.copyShares ∧ t.mem = s.mem ∧ t.outbox = s.outbox) ∧
  (∀ s q idx d rest, NextUp s q idx d rest → (headerOk d = false ∨ bodyOk (taken s q rest) q (coreSet s q) d = false) →
    Does .commandDispatch s fun t => (getQ t q).fetched = rest ∧
      (getQ t q).stops = (getQ s q).stops ++ [⟨idx, descTag d, descOpcode d, stopPlain stDescInvalid 3 0⟩] ∧
      (findCtx t q idx).map (·.phase) = some .stopped ∧ (∀ p : Nat, p ≠ q → getQ t p = getQ s p) ∧ t.mem = s.mem ∧ t.outbox = s.outbox)

/-- DESCRIPTOR_READ (R170, R173): of the descriptors read in ring order from the head, those below the tail are queued and the head moves past
them; entry i lies at the ring's base plus 64 (i mod size) in host memory. While the home port's link is down nothing is read (R601). -/
def Obligations.DescriptorsAreReadBelowTail : Prop :=
  (∀ (q : QueueNo) ds s, 1 ≤ ds.length → ds.length ≤ 8 → homeUp s = false → exec (.descriptorRead q ds) s = .next s) ∧
  ∀ (q : QueueNo) ds s, 1 ≤ ds.length → ds.length ≤ 8 → homeUp s = true → (qState s q = qsRunning ∨ qState s q = qsFaulted) →
    (getQ s q).preempting = false → (getQ s q).tailFault = false →
    let head := rd s QUE_Q_STATE.head q
    let n := min ds.length (((getQ s q).tail + 2 ^ 32 - head) % 2 ^ 32)
    Does (.descriptorRead q ds) s fun t => rd t QUE_Q_STATE.head q = (head + n) % 2 ^ 32 ∧
      (getQ t q).fetched = (getQ s q).fetched ++ (List.range n).zipWith (fun i d => ((head + i) % 2 ^ 32, d)) ds ∧
      t = { ringArrive s (.sq q) head (ds.take n) with queues := t.queues, fields := t.fields } ∧
      (∀ a, (∀ i < n, a < hostFlat (ringEntry s (.sq q) (head + i)) ∨ hostFlat (ringEntry s (.sq q) (head + i)) + 64 ≤ a) →
        memByte t.mem a = memByte s.mem a) ∧
      FieldsBut [(QUE_Q_STATE.head, q.val)] s t ∧ ∀ p : Nat, p ≠ q → getQ t p = getQ s p

/-- Where the record that a ring writes next lies, and its bytes (R170, R197). -/
def recordAt (s : State) (r : RingId) : Nat := hostFlat (ringBase s r + ringWindex s r % ringSize s r * ringRecLen r)
def recordOf (s : State) (r : RingId) (body : List Byte) : List Byte :=
  recordBytes (hubTick s) (ringPhase (ringSize s r) (ringWindex s r)) body

/-- COMMAND_COMPLETE (R196 to R199): a command that is done leaves the queue's contexts; with comp_mode NONE and status OK no record is
written; else its record goes to the slot at the ring's write index in one write, or, while the ring cannot take it, the ring holds it and the context waits; the
first record that a full or disabled ring holds sets ring_full and latches CRING_FULL, once. -/
def CompletionWritesOneRecord : Prop :=
  ∀ (q : QueueNo) (idx : BitVec 32) s c, findCtx s q idx.toNat = some c → c.phase = .done → (∀ w ∈ s.farWrites, w.queue ≠ q ∨ w.idx ≠ c.idx) →
    let ring := RingId.cr (rd s QUE_Q_BIND.cring q)
    let body := recordHead (descTag c.desc) c.idx q (descOpcode c.desc) (ctxStatus c) ⟨c.low, c.high⟩ c.result0
    (descCompMode c.desc = 0 ∧ ctxStatus c = stOk → Does (.commandComplete q idx) s fun t => findCtx t q idx.toNat = none ∧ t.mem = s.mem ∧ t.crings = s.crings) ∧
    (¬(descCompMode c.desc = 0 ∧ ctxStatus c = stOk) → ringReady s ring = true → Does (.commandComplete q idx) s fun t =>
      findCtx t q idx.toNat = none ∧ t.mem = memPutList s.mem (recordAt s ring) (recordOf s ring body) ∧ ringWindex t ring = (ringWindex s ring + 1) % 2 ^ 32) ∧
    (¬(descCompMode c.desc = 0 ∧ ctxStatus c = stOk) → ringReady s ring = false → Does (.commandComplete q idx) s fun t =>
      (findCtx t q idx.toNat).map (·.phase) = some .held ∧ t.mem = s.mem ∧
      (getRing t ring).held.length = (getRing s ring).held.length + 1 ∧ ((ringEnabled s ring = false ∨ ringFull s ring = true) →
        (getRing t ring).episode = true ∧ ((getRing s ring).episode = false → rd t QUE_STATUS.ring_full = 1 ∧ Latched t 0x00F) ∧
        ((getRing s ring).episode = true → t.fields = s.fields)))

/-- HELD_RECORD_WRITE (R198, R602): once the ring can take it and the home port's link is up, the oldest held record is written at the write index; the response of a PREEMPT waits
for its save area (R244, R309). QUEUE_FAULT (R188, R200, R625): once the stopped command's units have stopped, its fault record is written;
a RUNNING queue enters FAULTED, and a DRAINING one discards the command's progress. -/
def HeldAndFaultRecordsAreWritten : Prop :=
  (∀ (kind : Fin 3) (ring : Fin 4096) s h rest, let r := ringOf kind ring; (getRing s r).held = h :: rest → h.queue < 4096 →
    (homeUp s = false → exec (.heldRecordWrite kind ring) s = .next s) ∧
    (homeUp s = true → ringEnabled s r = true → ringFull s r = false →
    (∀ x, r = .xr x → h.irq = true → saveOpen s x h.idx = false) →
    Does (.heldRecordWrite kind ring) s fun t => t.mem = memPutList s.mem (recordAt s r) (recordOf s r h.body) ∧ (getRing t r).held = rest ∧
      ringWindex t r = (ringWindex s r + 1) % 2 ^ 32)) ∧
  (∀ (q : QueueNo) s r rest, (getQ s q).stops = r :: rest → qState s q = qsRunning → unitsStopped s q r.idx = true → (getQ s q).frecHeld = false →
    let ring := RingId.fr (rd s QUE_Q_BIND.fring q)
    ringReady s ring = true →
    Does (.queueFault q) s fun t => qState t q = qsFaulted ∧ (getQ t q).stops = rest ∧
      t.mem = memPutList s.mem (recordAt s ring) (recordOf s ring (faultHead q (rd s QUE_Q_BIND.space q) r)) ∧
      ringWindex t ring = (ringWindex s ring + 1) % 2 ^ 32) ∧
  (∀ (q : QueueNo) s r rest, (getQ s q).stops = r :: rest → qState s q = qsDraining → unitsStopped s q r.idx = true → (getQ s q).frecHeld = false →
    let ring := RingId.fr (rd s QUE_Q_BIND.fring q)
    ringReady s ring = true →
    Does (.queueFault q) s fun t => qState t q = qsDraining ∧ findCtx t q r.idx = none ∧ (∀ c ∈ t.colls, c.queue ≠ q.val ∨ c.idx ≠ r.idx) ∧
      (∀ c ∈ t.rmtCmds, c.queue ≠ q.val ∨ c.idx ≠ r.idx) ∧
      t.mem = memPutList s.mem (recordAt s ring) (recordOf s ring (faultHead q (rd s QUE_Q_BIND.space q) r)))

/-- Completion records, held records and fault records. -/
def Obligations.RecordsAreWrittenOnce : Prop := CompletionWritesOneRecord ∧ HeldAndFaultRecordsAreWritten

/-- QUEUE_ENABLE, QUEUE_DISABLE, QUEUE_DRAINED, QUEUE_RESUME and QUEUE_ENGINE_ENABLE (Table 5.2, R189, R213, R625): the queue's state follows
Table 5.2; an enable with a size outside 6 to 16, or a resume of a queue that is not FAULTED, is ignored and sets cfg_ignored. -/
def QueueStatesFollowTable : Prop :=
  (∀ (q : QueueNo) (tail : BitVec 32) s, qState s q = qsDisabled → sizeOk (rd s QUE_Q_RING.size_log2 q) = true →
    Does (.queueEnable q tail) s fun t => qState t q = qsRunning ∧ rd t QUE_Q_STATE.head q = tail.toNat ∧ on t QUE_Q_CTL.enable q = true ∧
      getQ t q = { queueEmpty with tail := tail.toNat } ∧ (∃ l ∈ t.dbLines, l.addr = (ringSlot s (.sq q)).1 ∧ RingId.sq q ∈ l.users) ∧
      t = { s with queues := t.queues, fields := t.fields, dbLines := t.dbLines } ∧
      FieldsBut [(QUE_Q_STATE.head, q), (QUE_Q_STATE.state, q), (QUE_Q_CTL.enable, q)] s t) ∧
  (∀ (q : QueueNo) (tail : BitVec 32) s, qState s q = qsDisabled → sizeOk (rd s QUE_Q_RING.size_log2 q) = false →
    exec (.queueEnable q tail) s = .next (setBit s QUE_STATUS.cfg_ignored)) ∧
  (∀ (q : QueueNo) s, (qState s q = qsRunning ∨ qState s q = qsFaulted) →
    Does (.queueDisable q) s fun t => qState t q = qsDraining ∧ on t QUE_Q_CTL.enable q = false ∧ (getQ t q).fetched = [] ∧ t.mem = s.mem) ∧
  (∀ (q : QueueNo) s, qState s q = qsDraining → (getQ s q).ctxs = [] → (getQ s q).stops = [] → (getQ s q).frecHeld = false →
    Does (.queueDrained q) s fun t => qState t q = qsDisabled ∧ rd t QUE_Q_STATE.inflight q = 0 ∧ getQ t q = queueEmpty ∧
      (∀ l ∈ t.dbLines, RingId.sq q ∉ l.users) ∧ t.mem = s.mem) ∧
  (∀ (q : QueueNo) s, qState s q = qsStopped → Does (.queueDisable q) s fun t => qState t q = qsDisabled ∧ getQ t q = queueEmpty ∧ t.mem = s.mem) ∧
  (∀ (q : QueueNo) (tail : BitVec 32) s, qState s q ≠ qsFaulted → exec (.queueResume q tail) s = .next (setBit s QUE_STATUS.cfg_ignored)) ∧
  (∀ (q : QueueNo) (tail : BitVec 32) s, qState s q = qsFaulted → (getQ s q).tailFault = false →
    Does (.queueResume q tail) s fun t => qState t q = qsRunning ∧ (getQ t q).tail = (getQ s q).tail ∧
      (getQ t q).fetched = ((getQ s q).ctxs.filter fun c => c.phase == .reported && c.recheck).map (fun c => (c.idx, c.desc)) ++ (getQ s q).fetched) ∧
  (∀ v s, Does (.queueEngineEnable v) s fun t => on t QUE_CTL.engine_en = v ∧
    (v = true → on s QUE_CTL.engine_en = false → inForce t QUE_CTL.db_force_poll = rd s QUE_CTL.db_force_poll ∧ rd t QUE_STATUS.cfg_pending = 0) ∧
    (v = false → OnlyFields [(QUE_CTL.engine_en, 0)] s t))

/-- COMPLETION_RING_ENABLE (R197, R198) and CONTROL_RING_ENABLE (R240, R254): enabled with a size of 6 to 16, the ring begins at index 0 (a
control ring's requests at the tail in its slot); another size is ignored and sets cfg_ignored. -/
def RingsStartEmpty : Prop :=
  (∀ (kind : Fin 2) (ring : Fin 4096) s, let r := ringOf kind ring; let i := if kind = 0 then ring.val else ring.val % 256
    let sz := if kind = 0 then QUE_C_RING.size_log2 else QUE_F_RING.size_log2
    ringEnabled s r = false →
    (sizeOk (rd s sz i) = true → Does (.completionRingEnable kind ring) s fun t => ringEnabled t r = true ∧ ringWindex t r = 0 ∧
      (getRing t r).head = 0 ∧ (getRing t r).held = (getRing s r).held ∧ t.mem = s.mem) ∧
    (sizeOk (rd s sz i) = false → exec (.completionRingEnable kind ring) s = .next (setBit s QUE_STATUS.cfg_ignored))) ∧
  (∀ (x : Fin 16) (tail : BitVec 32) s, on s QUE_X_RING.enable x = false →
    (sizeOk (rd s QUE_X_RING.size_log2 x) = true → Does (.controlRingEnable x tail) s fun t => on t QUE_X_RING.enable x = true ∧
      kfind t.xrings x = some ⟨tail.toNat, tail.toNat, 0⟩ ∧ (getRing t (.xr x)).head = 0 ∧ t.mem = s.mem) ∧
    (sizeOk (rd s QUE_X_RING.size_log2 x) = false → exec (.controlRingEnable x tail) s = .next (setBit s QUE_STATUS.cfg_ignored)))

/-- Queues follow Table 5.2 and rings begin empty. -/
def Obligations.QueuesAndRingsFollowTheirTables : Prop := QueueStatesFollowTable ∧ RingsStartEmpty

/-- Doorbell lines (R174, R177 to R180, R206): a snooped or lost line is to be read again, its copy gone; a poll marks the polled lines; after a
change every line is read again before the next dispatch; a line that arrives is no longer to be read, and a queue's slot in it becomes its
tail. WAIT_RETEST tests a WAIT without a watch entry as WAIT does. -/
def Obligations.DoorbellLinesAreReadAgain : Prop :=
  (∀ (line : W64) s, exec (.doorbellLineLost line) s = exec (.doorbellSnoop line) s ∧
    Does (.doorbellSnoop line) s fun t => t = { s with dbLines := t.dbLines } ∧ (∀ l ∈ t.dbLines, l.addr = line.toNat / 64 * 64 → l.copy = false) ∧
      t.dbLines.map (·.users) = s.dbLines.map (·.users) ∧
      (∀ l ∈ s.dbLines, l.addr = line.toNat / 64 * 64 → l.copy = true → { l with copy := false, reread := true } ∈ t.dbLines) ∧
      ∀ l ∈ s.dbLines, l.addr ≠ line.toNat / 64 * 64 → l ∈ t.dbLines) ∧
  (∀ s, Does .doorbellPoll s fun t => t = { s with dbLines := t.dbLines } ∧ ∀ l ∈ t.dbLines, l.addr ∈ (polledLines s).map (·.addr) → l.reread = true) ∧
  (∀ s, Does .doorbellRereadAll s fun t => t = { s with dbLines := t.dbLines, dbHold := !t.dbLines.isEmpty } ∧ (∀ l ∈ t.dbLines, l.reread = true) ∧
    t.dbLines.map (·.users) = s.dbLines.map (·.users)) ∧
  (∀ (line : W64) data s, (∀ l ∈ s.dbLines, l.addr = line.toNat / 64 * 64 → l.reread = false) ∨ homeUp s = false → exec (.doorbellLineData line data) s = .next s) ∧
  (∀ (line : W64) data s (q : Nat) l, s.dbLines = [l] → l.addr = line.toNat / 64 * 64 → l.users = [.sq q] → l.reread = true → qState s q = qsRunning →
    (getQ s q).tailFault = false → homeUp s = true →
    let v := lineBits data (4 * (ringSlot s (.sq q)).2) 0 32
    (v + 2 ^ 32 - rd s QUE_Q_STATE.head q) % 2 ^ 32 ≤ 2 ^ rd s QUE_Q_RING.size_log2 q →
    Does (.doorbellLineData line data) s fun t => (getQ t q).tail = v ∧ t.dbHold = false ∧ (∀ l ∈ t.dbLines, l.reread = false) ∧
      t = { s with dbLines := t.dbLines, dbHold := t.dbHold, queues := t.queues }) ∧
  (∀ (q : QueueNo) (idx : BitVec 32) s c, s.unwatched = [(q.val, idx.toNat)] → runningCtx s q idx.toNat opWait = some c →
    exec .waitRetest s = exec (.waitSem q idx) s)

/-! ### Number formats and the arrays (files 02 to 04) -/

/-- The integer that a finite value adds to a cell as a term (R71, R75): aligned to the anchor by round-to-nearest-even, limited to 2^134 − 1. -/
def termOf (anchor : Int) : Val → Int
  | .fin neg m e => let k := min (roundMag .rne m e anchor).1 (2 ^ 134 - 1); if neg then -(k : Int) else (k : Int)
  | _ => 0

/-- A byte of the tile memory of one of the cores. -/
def InTile (cores : List Nat) (a : Nat) : Prop := ∃ c ∈ cores, tileFlat c 0 ≤ a ∧ a < tileFlat c 0 + 2 ^ 20

def isFin : Val → Bool
  | .fin .. => true
  | _ => false

/-- A cell's integer is the sum of its terms modulo 2^136; a true sum from −2^135 up to 2^135 is held exactly, whatever the partial sums did (R73). -/
def CellHoldsSumOfTerms : Prop := ∀ (anchor : Int) (ts : List Val), ts.all isFin = true →
  let c := ts.foldl (cellAdd anchor) cellZero
  let sum := (ts.map (termOf anchor)).foldl (· + ·) 0
  c.v = toBits 136 sum ∧ c.n = ts.length ∧ c.tag = 0 ∧ (-(2 : Int) ^ 135 ≤ sum → sum < (2 : Int) ^ 135 → signed 136 c.v = sum)

/-- What a cell holds, its flags and its guard do not depend on the order of its terms, special terms among them (R74, R76, R81). -/
def CellIgnoresOrderOfTerms : Prop := ∀ (anchor : Int) (ts us : List Val) (c : Cell), ts.Perm us →
  ts.foldl (cellAdd anchor) c = us.foldl (cellAdd anchor) c

/-- A cell holds the sum of its terms, in any order of them. -/
def Obligations.CellSumsExactlyInAnyOrder : Prop := CellHoldsSumOfTerms ∧ CellIgnoresOrderOfTerms

/-- `k` is the integer nearest to m·2^e in units of 2^q, a tie going to the even one. -/
def NearestEven (m : Nat) (e q : Int) (k : Nat) : Prop :=
  let x := m * 2 ^ (e - q).toNat
  let d := 2 ^ (q - e).toNat
  2 * (k * d) ≤ 2 * x + d ∧ 2 * x ≤ 2 * (k * d) + d ∧ (2 * (k * d) = 2 * x + d ∨ 2 * x = 2 * (k * d) + d → k % 2 = 0)

/-- Elements and terms (R63, R66, R72, R75): INT8 and INT4 are two's-complement integers; an E8M0 scale X multiplies by 2^(X − 127) and 0xFF
reads as NaN; a finite term is aligned to the anchor by round-to-nearest-even, sets INEXACT_LOW if that discards a fraction, and one of at
least 2^134 becomes 2^134 − 1 with its sign and sets INEXACT_HIGH. -/
def Obligations.TermsAlignToNearestEven : Prop :=
  (∀ a n : Nat, n < 256 → elemVal .int8 a n = intVal (if n < 128 then (n : Int) else (n : Int) - 256) 0) ∧
  (∀ a n : Nat, n < 16 → elemVal .int4 a n = intVal (if n < 8 then (n : Int) else (n : Int) - 16) 0) ∧
  (∀ x neg m e, x < 255 → scaledVal x (.fin neg m e) = .fin neg m (e + (x : Int) - 127)) ∧ (∀ v, scaledVal 255 v = .nan) ∧
  (∀ anchor c neg m e, ∃ k, NearestEven m e anchor k ∧
    let held : Nat := if 2 ^ 134 ≤ k then 2 ^ 134 - 1 else k
    cellAdd anchor c (.fin neg m e) = { c with
      v := toBits 136 (c.v + if neg then -(held : Int) else (held : Int)), b := max c.b (bitLen held), n := c.n + 1,
      low := c.low || decide (k * 2 ^ (anchor - e).toNat ≠ m * 2 ^ (e - anchor).toNat), high := c.high || decide (2 ^ 134 ≤ k) })

/-- Of several conditions the code with the highest class, in it the lowest, is reported, in whatever order they are met (R25); the code
reported is one of them, and OK is reported where there is none. -/
def Obligations.WorstStatusIgnoresOrder : Prop :=
  (∀ a b, stWorse a b = stWorse b a) ∧ (∀ a b c, stWorse (stWorse a b) c = stWorse a (stWorse b c)) ∧
  (∀ a b, stWorse a b = a ∨ stWorse a b = b) ∧ (∀ a b, stClass a < stClass b → stWorse a b = b) ∧
  (∀ a b, stClass a = stClass b → a ≠ stOk → b ≠ stOk → stWorse a b = min a b) ∧ (∀ a, stWorse stOk a = a)

/-- Two finite X128 values are added exactly if the sum is in range, and otherwise saturated to ±(2^127 − 2) with INEXACT_HIGH (R83, R86); a
NaN operand, or the two infinities, give NaN, and an infinity with anything else that infinity (R76). -/
def Obligations.X128AddIsExactOrSaturates : Prop := (∀ a b : Nat, a < 2 ^ 128 → b < 2 ^ 128 →
  isFin (elemVal .x128 0 a) = true → isFin (elemVal .x128 0 b) = true →
  let sum := signed 128 a + signed 128 b
  ((sum.natAbs ≤ 2 ^ 127 - 2 → x128Add a b = (toBits 128 sum, false) ∧ signed 128 (x128Add a b).1 = sum) ∧
   (2 ^ 127 - 2 < sum.natAbs → (x128Add a b).2 = true ∧ signed 128 (x128Add a b).1 = if sum < 0 then -(2 ^ 127 - 2) else 2 ^ 127 - 2))) ∧
  (∀ a, x128Add x128Nan a = (x128Nan, false) ∧ x128Add a x128Nan = (x128Nan, false)) ∧
  x128Add x128PosInf x128NegInf = (x128Nan, false) ∧ x128Add x128NegInf x128PosInf = (x128Nan, false) ∧
  (∀ i a, (i = x128PosInf ∨ i = x128NegInf) → a = i ∨ isFin (elemVal .x128 0 a) = true → x128Add i a = (i, false) ∧ x128Add a i = (i, false))

/-- A MATMUL whose shares may run and whose records have been read (R138): the state then, and the plan that descriptor and records give. -/
def MatmulAt (s : State) (q idx : Nat) (s' : State) (pl : MmPlan) : Prop :=
  ∃ c lay shape, findCtx s q idx = some c ∧ descOpcode c.desc = opMatmul ∧ sharesRun s q c = true ∧
    readRecords s q c (mmBody c.desc).layoutVa (mmShapeSrc (mmBody c.desc)) = .ready s' lay shape ∧ mmPlan c.desc c.cores lay shape = some pl

/-- A VECTOR with op code `op` whose shares may run and whose records have been read. -/
def VectorAt (op : Nat) (s : State) (q idx : Nat) (s' : State) (pl : VecPlan) : Prop :=
  ∃ c lay shape, findCtx s q idx = some c ∧ descOpcode c.desc = opVector ∧ sharesRun s q c = true ∧ (vecBody c.desc).op = op ∧
    readRecords s q c (vecBody c.desc).layoutVa (vecBody c.desc).shapeSrc = .ready s' lay shape ∧
    vecPlan c.desc c.cores lay shape = some pl

/-- MATMUL (R141): the shares that their cores hold first run, and the command ends if none is left; no byte of memory outside the tiles of
the command's cores changes. -/
def Obligations.MatmulWritesOnlyItsTiles : Prop := ∀ (q : QueueNo) (idx : BitVec 32) s s' pl, MatmulAt s q idx.toNat s' pl →
  Does (.matmul q idx) s fun t => t = bumpFree (settle (runMatmulShares pl q idx.toNat s') q idx.toNat) ∧
    ∀ a, ¬InTile pl.cores a → memByte t.mem a = memByte s'.mem a

/-- What a VECTOR with row function `fn` does with its rows once its records are read. -/
def RunsRows (i : Instr) (s : State) (q idx : Nat) (s' : State) (pl : VecPlan) (fn : RowFn) : Prop :=
  Does i s fun t => t = bumpFree (settle (runVecShares fn pl q idx s') q idx) ∧ ∀ a, ¬InTile pl.cores a → memByte t.mem a = memByte s'.mem a

/-- Element-wise VECTOR operations (Table 4.5, R161 to R163): x alone, x with y, x with Y(r, 0), and x with the scalars; the rows of the shares
that their cores hold first run with the operation's function, and no byte outside the tiles of the command's cores changes. -/
def Obligations.ElementwiseVectorsRunTheirRows : Prop := ∀ (q : QueueNo) (idx : BitVec 32) s s' pl,
  (VectorAt 0x00 s q idx.toNat s' pl → RunsRows (.cvt q idx) s q idx.toNat s' pl fun v => (v.xs, {})) ∧
  (VectorAt 0x01 s q idx.toNat s' pl → RunsRows (.vectorAdd q idx) s q idx.toNat s' pl fun v => (v.xs.zipWith add32 v.ys, {})) ∧
  (VectorAt 0x02 s q idx.toNat s' pl → RunsRows (.vecSub q idx) s q idx.toNat s' pl fun v => (v.xs.zipWith sub32 v.ys, {})) ∧
  (VectorAt 0x03 s q idx.toNat s' pl → RunsRows (.vecMul q idx) s q idx.toNat s' pl fun v => (v.xs.zipWith mul32 v.ys, {})) ∧
  (VectorAt 0x04 s q idx.toNat s' pl → RunsRows (.vectorMax q idx) s q idx.toNat s' pl fun v => (v.xs.zipWith max32 v.ys, {})) ∧
  (VectorAt 0x05 s q idx.toNat s' pl → RunsRows (.vectorMin q idx) s q idx.toNat s' pl fun v => (v.xs.zipWith min32 v.ys, {})) ∧
  (VectorAt 0x06 s q idx.toNat s' pl → RunsRows (.addRow q idx) s q idx.toNat s' pl fun v => (v.xs.map fun x => add32 x v.y0, {})) ∧
  (VectorAt 0x07 s q idx.toNat s' pl → RunsRows (.mulRow q idx) s q idx.toNat s' pl fun v => (v.xs.map fun x => mul32 x v.y0, {})) ∧
  (VectorAt 0x08 s q idx.toNat s' pl → RunsRows (.axpb q idx) s q idx.toNat s' pl fun v => (v.xs.map fun x => add32 (mul32 x v.sc) v.tc, {})) ∧
  (VectorAt 0x09 s q idx.toNat s' pl → RunsRows (.vecExp q idx) s q idx.toNat s' pl fun v => (v.xs.map exp32, {})) ∧
  (VectorAt 0x0A s q idx.toNat s' pl → RunsRows (.vecLog q idx) s q idx.toNat s' pl fun v => (v.xs.map log32, {})) ∧
  (VectorAt 0x0B s q idx.toNat s' pl → RunsRows (.rcp q idx) s q idx.toNat s' pl fun v => (v.xs.map rcp32, {})) ∧
  (VectorAt 0x0C s q idx.toNat s' pl → RunsRows (.rsqrt q idx) s q idx.toNat s' pl fun v =>
    (v.xs.map fun x => exp32 (mul32 (.fin true 1 (-1)) (log32 x)), {})) ∧
  (VectorAt 0x0D s q idx.toNat s' pl → RunsRows (.silu q idx) s q idx.toNat s' pl fun v =>
    (v.xs.map fun x => mul32 x (rcp32 (add32 (.fin false 1 0) (exp32 x.neg))), {}))

/-- VECTOR operations over a whole row (Table 4.5, R164 to R166): the fixed reductions, RSUM_X and SOFTMAX in three passes. -/
def Obligations.RowVectorsRunTheirRows : Prop := ∀ (q : QueueNo) (idx : BitVec 32) s s' pl,
  (VectorAt 0x0E s q idx.toNat s' pl → RunsRows (.rsum q idx) s q idx.toNat s' pl fun v => ([rowReduce add32 (.fin false 0 0) v.xs], {})) ∧
  (VectorAt 0x0F s q idx.toNat s' pl → RunsRows (.rsumsq q idx) s q idx.toNat s' pl fun v =>
    ([rowReduce add32 (.fin false 0 0) (v.xs.map fun x => mul32 x x)], {})) ∧
  (VectorAt 0x10 s q idx.toNat s' pl → RunsRows (.rmax q idx) s q idx.toNat s' pl fun v => ([rowReduce max32 (.inf true) v.xs], {})) ∧
  (VectorAt 0x11 s q idx.toNat s' pl → RunsRows (.rsumX q idx) s q idx.toNat s' pl rsumX) ∧
  (VectorAt 0x12 s q idx.toNat s' pl → RunsRows (.softmax q idx) s q idx.toNat s' pl fun v =>
    (let m := rowReduce max32 (.inf true) v.firsts
     let sum := rowReduce add32 (.fin false 0 0) (v.seconds.map fun x => exp32 (sub32 x m))
     v.xs.map fun x => mul32 (exp32 (sub32 x m)) (rcp32 sum), {}))

/-- A COPY with op code `op` whose shares may run, with its context and its plan. -/
def CopyAt (op : Nat) (s : State) (q idx : Nat) (c : Ctx) (pl : CpPlan) : Prop :=
  findCtx s q idx = some c ∧ descOpcode c.desc = opCopy ∧ sharesRun s q c = true ∧ (cpBody c.desc).op = op ∧ cpPlan c.desc c.cores = some pl

/-- COPY with op MOVE, ACCUMULATE and REDUCE_PLANES (R271, R277, R278, R280): the shares that their engines hold first run, and the command ends
if none is left; a share with a remote side first asks for the pieces it must load, once its engine holds it first. -/
def Obligations.CopiesRunTheirShares : Prop := ∀ (q : QueueNo) (idx : BitVec 32) s c pl op (i : Instr),
  (op, i) ∈ [(cpMove, Instr.copyMove q idx), (cpAccumulate, Instr.accumulate q idx), (cpReduce, Instr.reducePlanes q idx)] →
  CopyAt op s q idx.toNat c pl →
  Does i s (fun t => t = bumpFree (settleCopy (runCopyShares pl q idx.toNat s) q idx.toNat)) ∧
  (∀ cl, (pl.src.kind = 3 ∨ pl.dst.kind = 3) → engineSet pl.cores = [cl] → engineFirst s cl q idx.toNat = true → dieHeld s (cl / 32) = false →
    c.ran = [] → c.stops = [] → getCopyRemote s q idx.toNat 0 = none →
    runCopyShares pl q idx.toNat s = cpLoads ⟨pl, q, idx.toNat, cl, rd s QUE_Q_BIND.space q, s.mem, [], [], 0⟩
      (engineGroups pl 0 (cpFrom c 0).1 (cpFrom c 0).2) { s with copyRemotes := s.copyRemotes ++ [⟨q, idx.toNat, 0, 1, [], [], stOk⟩] })

/-! ### Collectives (file 12) -/

/-- The command of a collective is at work at its queue, and the engine holds it. -/
def CollAt (op : Nat) (s : State) (q idx : Nat) (c : CollCmd) (x : Ctx) : Prop :=
  runningCtx s q idx op = some x ∧ getColl s q idx = some c

/-- REDUCE_SCATTER, ALL_GATHER, EXCHANGE (R418, R420): a started command of count 0 ends at once with status OK, leaves the engine and does
nothing else; any other is carried on by the engine as far as grants and data allow. COLLECTIVE_START starts the first held command whose
number has entered the window. -/
def Obligations.CollectivesStartAndRun : Prop :=
  (∀ (q : QueueNo) (idx : BitVec 32) s op (i : Instr) c x,
    (op, i) ∈ [(opReduceScatter, Instr.reduceScatter q idx), (opAllGather, Instr.allGather q idx), (opExchange, Instr.exchange q idx)] →
    CollAt op s q idx.toNat c x → c.queue = q → c.idx = idx.toNat →
    (c.started = true → (collBody c.desc).count = 0 → c.counts = [] → c.failed = [] → c.lost = false → Does i s fun t =>
      findCtx t q idx.toNat = some { x with phase := .done, status := stWorse x.status stOk, result0 := 0 } ∧ getColl t q idx.toNat = none ∧
      t.mem = s.mem ∧ t.injQ = s.injQ) ∧
    ((collBody c.desc).count ≠ 0 → exec i s = .next (collPump s q idx.toNat))) ∧
  (∀ s c, (s.colls.find? fun c => !c.started && on s GRP_CTL.enable && collDist s c.group c.seq < rd s GRP_ENT_CTL.depth c.group &&
      (runningCtx s c.queue c.idx (descOpcode c.desc)).isSome) = some c →
    exec .collectiveStart s = .next (collBegin (modColl s c.queue c.idx fun x => { x with started := true }) c.queue c.idx))

/-- The first delivered packet of a type, for a command in flight of an enabled group whose key it carries, from member `m` (R434). -/
def ColPacketFor (s : State) (ty : Nat) (p : Packet) (c : CollCmd) (m : Nat) : Prop :=
  (s.collIn.find? fun p => colType p == ty) = some p ∧ on s GRP_ENT_CTL.enable (colGroup p) = true ∧ on s GRP_CTL.enable = true ∧
  colKey p = rd s GRP_ENT_CTL.key (colGroup p) ∧ (colSeq p + 2 ^ 32 - rd s GRP_ENT_SEQ.next (colGroup p)) % 2 ^ 32 < 2 ^ 31 ∧
  (s.colls.find? fun c => c.group == colGroup p && c.seq == colSeq p) = some c ∧ (kget s.groups (colGroup p) []).idxOf? p.src = some m ∧
  (ty ≠ 0 → paramOk (collBody c.desc) p = true)

/-- The state once a delivered packet has been taken. -/
def colTaken (s : State) (p : Packet) : State := { s with collIn := s.collIn.erase p }

/-- GRANT, DATA, SEAL, ACK and REREQ (R431 to R433): the packet is taken; a grant opens the sender's next chunks for the granting member, a
data packet fills its place in the slot of its chunk, a seal closes it, an acknowledgement is recorded and the chunk released with the last
one, and a re-request has the chunk sent again; then the engine goes on with the command. -/
def OwnPacketsArrive : Prop := ∀ s p c m,
  (ColPacketFor s 2 p c m → Does .grantPkt s fun t =>
    let v := collEnv (colTaken s p) c
    let is := ((List.range v.plan.length).zip v.plan).filterMap fun (i, sp) =>
      if colIndex p ≤ i && sp.tos.contains m && sp.stream == p.owner / 2 ^ 13 % 8 then some i else none
    let new := (is.take (leAt p.payload 0x0E 2)).filter fun i => c.next ≤ i && !c.grants.contains (m, i)
    t = collPump (modColl (colTaken s p) c.queue c.idx fun x => { x with grants := x.grants ++ new.map fun i => (m, i) }) c.queue c.idx) ∧
  (ColPacketFor s 0 p c m → c.rxs.any (fun r => r.src == m && r.index == colIndex p && !r.used) = true → Does .dataPkt s fun t =>
    t = collPump (modColl (colTaken s p) c.queue c.idx fun x => { x with
      rxs := x.rxs.map fun r => if r.src == m && r.index == colIndex p then { r with packets := kput r.packets (colPacket p) (p.payload.drop 8) } else r })
      c.queue c.idx) ∧
  (ColPacketFor s 1 p c m → c.rxs.any (fun r => r.src == m && r.index == colIndex p && !r.used) = true → Does .sealChunk s fun t =>
    t = collPump (modColl (colTaken s p) c.queue c.idx fun x => { x with
      rxs := x.rxs.map fun r => if r.src == m && r.index == colIndex p then { r with cseal := some (colSeal p) } else r }) c.queue c.idx) ∧
  (ColPacketFor s 3 p c m → Does .ackPkt s fun t =>
    let txs := c.txs.map fun y => if y.index == colIndex p then { y with acks := setIns y.acks m } else y
    let tos := ((collEnv (colTaken s p) c).plan[colIndex p]?.map (·.tos)).getD []
    let done := txs.any fun y => y.index == colIndex p && tos.all y.acks.contains
    t = collPump (modColl (colTaken s p) c.queue c.idx fun x => { x with
      txs := if done then txs.filter (·.index != colIndex p) else txs, acked := if done then setIns x.acked (colIndex p) else x.acked }) c.queue c.idx) ∧
  (∀ y sp, ColPacketFor s 4 p c m → c.txs.find? (·.index == colIndex p) = some y → (collEnv (colTaken s p) c).plan[colIndex p]? = some sp →
    (runningCtx s c.queue c.idx (descOpcode c.desc)).isSome = true → Does .rereqPkt s fun t =>
      t = sendChunk (colTaken s p) (collEnv (colTaken s p) c) c sp y)

/-- A delivered COL packet of a group that is not enabled, or with another key than the group's, is taken and counted, and nothing else
happens (R434), whichever of the five types it has. -/
def ForeignPacketsAreDropped : Prop := ∀ s p ty (i : Instr),
  (ty, i) ∈ [(0, Instr.dataPkt), (1, Instr.sealChunk), (2, Instr.grantPkt), (3, Instr.ackPkt), (4, Instr.rereqPkt)] →
  (s.collIn.find? fun p => colType p == ty) = some p →
  ((on s GRP_ENT_CTL.enable (colGroup p) = false ∨ on s GRP_CTL.enable = false) → exec i s = .next (incSat (colTaken s p) GRP_DROPS.no_group)) ∧
  (on s GRP_ENT_CTL.enable (colGroup p) = true → on s GRP_CTL.enable = true → colKey p ≠ rd s GRP_ENT_CTL.key (colGroup p) →
    exec i s = .next (incSat (colTaken s p) GRP_DROPS.key_mismatch))

/-- Packets of collectives: one that belongs to a command here reaches it, and one that does not is dropped and counted (R438 to R440). -/
def Obligations.CollectivePacketsReachTheirCommand : Prop := OwnPacketsArrive ∧ ForeignPacketsAreDropped

/-- REREQ_TIMER asks the sender of a chunk that is not complete for it again and counts that (R433); CHUNK_FAILED has the next chunk sent as
failed (R440); COLLECTIVE_WATCHDOG ends a started command that makes no progress with TIMEOUT and counts it (R443). -/
def CollectiveTimersAct : Prop :=
  (∀ (q : QueueNo) (idx : BitVec 32) (src : BitVec 14) (index : BitVec 32) s c r, getColl s q idx.toNat = some c →
    (c.rxs.find? fun r => r.src == src.toNat && r.index == index.toNat && !r.used) = some r →
    (runningCtx s q c.idx (descOpcode c.desc)).isSome = true →
    Does (.rereqTimer q idx src index) s fun t => t.injQ.length = s.injQ.length + 1 ∧
      rd t GRP_STATS.rereqs = min (rd s GRP_STATS.rereqs + 1) (2 ^ GRP_STATS.rereqs.w - 1) ∧
      t = { s with injQ := t.injQ, fields := t.fields } ∧ FieldsBut [(GRP_STATS.rereqs, 0)] s t) ∧
  (∀ (q : QueueNo) (idx : BitVec 32) s c, getColl s q idx.toNat = some c →
    exec (.chunkFailed q idx) s = .next (collPump (modColl s q c.idx fun x => { x with failNext := true }) q c.idx)) ∧
  (∀ (q : QueueNo) (idx : BitVec 32) s c x, getColl s q idx.toNat = some c → c.group < 1024 → c.started = true →
    runningCtx s q c.idx (descOpcode c.desc) = some x → qState s q ≠ qsFaulted → qState s q ≠ qsStopped →
    Does (.collectiveWatchdog q idx) s fun t => (findCtx t q idx.toNat).map (·.phase) = some .done ∧ getColl t q idx.toNat = none ∧
      rd t GRP_STATS.timeouts = min (rd s GRP_STATS.timeouts + 1) (2 ^ GRP_STATS.timeouts.w - 1) ∧ t.mem = s.mem)

/-- GRP_ENABLE, GROUP_ENTRY_ENABLE (R415, R417, R445) and GRP_CLEAR (R434): without a staging buffer, or with an entry that breaks R417, an
enable is ignored and sets cfg_ignored; an enabled entry shows its members' number and this panel's place among them; disabled it shows
none; GRP_CLEAR zeroes the counters and nothing else. -/
def GroupsAreEnabledAndCleared : Prop :=
  (∀ s, on s GRP_CTL.enable = false → rd s GRP_STAGE.size_mib = 0 → exec (.grpEnable true) s = .next (setBit s GRP_STATUS.cfg_ignored)) ∧
  (∀ s, on s GRP_CTL.enable = false → rd s GRP_STAGE.size_mib ≠ 0 → Does (.grpEnable true) s fun t => on t GRP_CTL.enable = true ∧
    rd t GRP_STATUS.cfg_pending = 0 ∧ OnlyFields [(GRP_CTL.enable, 0), (GRP_STATUS.cfg_pending, 0)] s t) ∧
  (∀ s, s.colls = [] → Does (.grpEnable false) s fun t => on t GRP_CTL.enable = false ∧ OnlyFields [(GRP_CTL.enable, 0)] s t) ∧
  (∀ (g : Fin 1024) s, on s GRP_ENT_CTL.enable g = false → grpOk s g = false →
    exec (.groupEntryEnable g true) s = .next (setBit s GRP_STATUS.cfg_ignored)) ∧
  (∀ (g : Fin 1024) s, on s GRP_ENT_CTL.enable g = false → grpOk s g = true → Does (.groupEntryEnable g true) s fun t =>
    on t GRP_ENT_CTL.enable g = true ∧ kfind t.groups g = some (grpMembers s g) ∧
    rd t GRP_ENT_SEQ.member g = (grpMembers s g).idxOf (rd s FAB_COORD.node) % 2 ^ GRP_ENT_SEQ.member.w ∧
    rd t GRP_ENT_SEQ.size g = (grpMembers s g).length % 2 ^ GRP_ENT_SEQ.size.w ∧
    t = { s with groups := t.groups, fields := t.fields } ∧
    FieldsBut [(GRP_ENT_CTL.enable, g), (GRP_ENT_SEQ.member, g), (GRP_ENT_SEQ.size, g), (GRP_STATUS.stage_used, 0)] s t) ∧
  (∀ (g : Fin 1024) s, on s GRP_ENT_CTL.enable g = true → (∀ c ∈ s.colls, c.group ≠ g) → Does (.groupEntryEnable g false) s fun t =>
    on t GRP_ENT_CTL.enable g = false ∧ kfind t.groups g = none ∧ kfind t.collDone g = none ∧ rd t GRP_ENT_SEQ.size g = 0 ∧
    t = { s with groups := t.groups, collDone := t.collDone, fields := t.fields }) ∧
  (∀ s, Does .grpClear s fun t =>
    (∀ f ∈ [GRP_STATS.crc_errors, GRP_STATS.rereqs, GRP_STATS.timeouts, GRP_DROPS.key_mismatch, GRP_DROPS.no_group, GRP_DROPS.stale,
      GRP_DROPS.param_mismatch], rd t f = 0) ∧
    OnlyFields [(GRP_STATS.crc_errors, 0), (GRP_STATS.rereqs, 0), (GRP_STATS.timeouts, 0), (GRP_DROPS.key_mismatch, 0), (GRP_DROPS.no_group, 0),
      (GRP_DROPS.stale, 0), (GRP_DROPS.param_mismatch, 0)] s t)

/-- Timers of collectives, and group entries. -/
def Obligations.CollectiveTimersAndGroups : Prop := CollectiveTimersAct ∧ GroupsAreEnabledAndCleared

/-! ### Remote memory (file 11) -/

/-- Atomic results (Table 11.1, R383): of the `8·n`-bit old value and operand, ADD wraps, MIN and MAX compare signed or unsigned, SWAP takes the
operand, CAS takes its second operand where the first equals the old value. -/
def Obligations.AtomicResultsFollowTable : Prop := ∀ (n old : Nat) (arg : List Byte), n ∈ [4, 8, 16] → old < 2 ^ (8 * n) →
  let a := BitVec.ofNat (8 * n) old
  let x := BitVec.ofNat (8 * n) (leAt arg 0 n)
  atomicNew rcAdd n old arg = ((a + x).toNat, false) ∧
  atomicNew rcMinS n old arg = ((if x.slt a then x else a).toNat, false) ∧
  atomicNew rcMinU n old arg = ((if x.ult a then x else a).toNat, false) ∧
  atomicNew rcMaxS n old arg = ((if a.slt x then x else a).toNat, false) ∧
  atomicNew rcMaxU n old arg = ((if a.ult x then x else a).toNat, false) ∧
  atomicNew rcSwap n old arg = (x.toNat, false) ∧
  atomicNew rcCas n old arg = ((if a = x then BitVec.ofNat (8 * n) (leAt arg n n) else a).toNat, false) ∧
  atomicNew rcAddX128 n old arg = x128Add old (leAt arg 0 n)

/-- LOAD, STORE (R395, R396, R402) and the eight atomics (R404): the first held request of the code that no earlier request to its line
precedes is taken. A LOAD or STORE that a check of R393 refuses is answered REFUSED with the reason, recorded, and performs nothing; one
that passes is performed and answered with its status. An atomic is handled once. A request whose access must wait stays held, and nothing is
answered; a repeat of a processed atomic never waits, since it reads the reply cache alone (R397). -/
def Obligations.RequestsAreCheckedPerformedAnswered : Prop := ∀ s p rest,
  (takeHeld s rcLoad [] s.rmtHeld = some (p, rest) →
    let k := checkRequest s p
    let g := readRuns k.runs k.s
    (k.wait = true → exec .remoteLoad s = .next k.s) ∧
    (k.wait = false → k.reason ≠ 0 → Does .remoteLoad s fun t =>
      t = answerRequest (recordRefusal (heldDone k.s rest) p k.reason) p stRefused false k.reason []) ∧
    (k.wait = false → k.reason = 0 → g.status = stOk → Does .remoteLoad s fun t => t = answerRequest (heldDone g.s rest) p stOk false 0 g.data) ∧
    (k.wait = false → k.reason = 0 → g.status ≠ stOk → g.status ≠ stWait → Does .remoteLoad s fun t =>
      t = answerRequest (heldDone g.s rest) p g.status false 0 [])) ∧
  (takeHeld s rcStore [] s.rmtHeld = some (p, rest) →
    let k := checkRequest s p
    let w := writeRuns noQueue (reqTag p) k.runs (padTo (rqSize p) (rqData p)) k.s
    (k.wait = true → exec .remoteStore s = .next k.s) ∧
    (k.wait = false → k.reason ≠ 0 → Does .remoteStore s fun t =>
      t = answerRequest (recordRefusal (heldDone k.s rest) p k.reason) p stRefused false k.reason []) ∧
    (k.wait = false → k.reason = 0 → w.2 ≠ stWait → Does .remoteStore s fun t =>
      t.mem = w.1.mem ∧ t = answerRequest (heldDone w.1 rest) p w.2 false 0 [])) ∧
  (∀ code (i : Instr), (code, i) ∈ [(rcAdd, Instr.remoteAdd), (rcMinS, Instr.minS), (rcMinU, Instr.minU), (rcMaxS, Instr.maxS), (rcMaxU, Instr.maxU),
      (rcSwap, Instr.swap), (rcCas, Instr.cas), (rcAddX128, Instr.addX128)] → takeHeld s code [] s.rmtHeld = some (p, rest) →
    ((performAtomic s p).status ≠ stWait ∨ atomicDue s p = false → Does i s fun t => t = handleAtomic (heldDone s rest) p) ∧
    ((performAtomic s p).status = stWait → atomicDue s p = true → exec i s = .next (performAtomic s p).s))

/-- An atomic of the record's incarnation whose number is new is performed: with its checks passed and its bytes readable, the bytes take
the new value and the old value is kept (R393 to R396, Table 11.7); performing writes memory only through that one write. -/
def NewAtomicsUpdate : Prop := ∀ s p g w,
  let k := checkRequest s p
  k.wait = false → k.reason = 0 → readRuns k.runs k.s = g → g.status = stOk →
  writeRuns noQueue (reqTag p) k.runs (leBytes (rqSize p) (atomicNew (rqCode p) (rqSize p) (leNat g.data) (rqData p)).1) g.s = (w, stOk) →
  (performAtomic s p).s = w ∧ (performAtomic s p).old = leNat g.data ∧ (performAtomic s p).reason = 0 ∧
  ((performAtomic s p).status = if (atomicNew (rqCode p) (rqSize p) (leNat g.data) (rqData p)).2 then stInexactHigh else stOk)

/-- An atomic that has been processed is not done again: with its entry in the reply cache it is answered from it, without it it is answered
STALE; memory does not change (R404, R405, Table 11.7). The records are good: their region reaches no hole (R408, R621). -/
def RepeatedAtomicsDoNot : Prop := ∀ s p r, rmtHole s = false → kfind s.rmtRecs p.src = some r → rqInc p = r.inc →
  (let d := (rqSeq p + 2 ^ 32 - r.next) % 2 ^ 32; (d < 64 ∧ bitOn r.done d = true) ∨ 2 ^ 31 ≤ d) →
  (handleAtomic s p).mem = s.mem ∧ (handleAtomic s p).rmtRecs = s.rmtRecs ∧ (handleAtomic s p).farWrites.length = s.farWrites.length ∧
  ((∀ e ∈ s.rmtCache, ¬(e.src = p.src ∧ e.seq = rqSeq p)) → rd (handleAtomic s p) RMT_STATUS.stale_sent = 1)

/-- Atomics act exactly once: a new one updates its bytes, a repeated one changes nothing (R402 to R409). -/
def Obligations.AtomicsActOnce : Prop := NewAtomicsUpdate ∧ RepeatedAtomicsDoNot

/-- An operation as it is first sent, with the key then in force (R390, R392, R400, R403). -/
def issuedOp (s : State) (o : RmtOp) : RmtOp :=
  let n := kget s.rmtSeq o.node 0
  { o with
    issued := true, key := rd s RMT_JOB_KEY.key o.job, rid := s.rmtNextRid, seq := if rcIsAtomic o.code then n else 0, floor := if rcIsAtomic o.code then rmtFloor s o.node else 0,
    sends := 1, retry := rd s RMT_CTL.retry_100us, timeout := rd s RMT_CTL.timeout_ms }

/-- What issuing an operation to another panel leaves: the operation issued under the next rid, its request waiting for injection. -/
def Issues (i : Instr) (s : State) (o : RmtOp) : Prop := o.node ≠ rd s FAB_COORD.node →
  Does i s fun t => t.rmtOps = s.rmtOps.map (fun x => if x.id == o.id then issuedOp s o else x) ∧ t.rmtNextRid = (s.rmtNextRid + 1) % 2 ^ 28 ∧
    (∃ p, t.injQ = s.injQ ++ [(.remote o.id, p)] ∧ p.dst = o.node ∧ p.cls = 0) ∧
    (rcIsAtomic o.code = true → kget t.rmtSeq o.node 0 = (kget s.rmtSeq o.node 0 + 1) % 2 ^ 32) ∧ t.mem = s.mem

/-- REMOTE_ISSUE and FLAGGED_ISSUE (R398, R403): an operation without flag is issued while fewer than 8192 are outstanding and its number is
within 64 of the oldest unanswered; a flagged one only once no STORE or atomic of the panel is unanswered, and until then nothing happens. -/
def Obligations.OperationsAreIssuedInOrder : Prop :=
  (∀ s o, rmtOutstanding s < 8192 → (s.rmtOps.find? fun o => !o.issued && !o.flag && (!rcIsAtomic o.code || seqFree s o.node)) = some o →
    Issues .remoteIssue s o) ∧
  (∀ s o, (s.rmtOps.find? fun o => !o.issued && o.flag) = some o → (∀ x ∈ s.rmtOps, x.issued = true → x.code = rcLoad) →
    (∀ x ∈ s.rmtOps, x.issued = true ∨ o.id ≤ x.id) → o.doomed = false → rmtOutstanding s < 8192 →
    (rcIsAtomic o.code = true → seqFree s o.node = true) → Issues .flaggedIssue s o) ∧
  (∀ s o, (s.rmtOps.find? fun o => !o.issued && o.flag) = some o → (∃ x ∈ s.rmtOps, x.issued = true ∧ x.code ≠ rcLoad) →
    exec .flaggedIssue s = .next s)

/-- REMOTE (R409), REMOTE_REPLY (R390), REMOTE_RETRY and REMOTE_TIMEOUT (R400, R401): an empty REMOTE ends at once with result0 0xFFFF0000; a
reply is matched by source and rid, and an unmatched one is counted; a retry sends the request again and counts; at its timeout the request
fails. -/
def RemoteCommandsFollowTheirRequests : Prop :=
  (∀ (q : QueueNo) (idx : BitVec 32) s c, findCtx s q idx.toNat = some c → descOpcode c.desc = opRemote → c.phase = .running →
    (rmCount c.desc = 0 → Does (.remote q idx) s fun t => Ended s t q c stOk 0xFFFF0000) ∧
    (rmCount c.desc ≠ 0 → (getRmtCmd s q c.idx).isSome = true → exec (.remote q idx) s = .next (rmtAdvance s q c.idx)) ∧
    (rmCount c.desc ≠ 0 → getRmtCmd s q c.idx = none →
      exec (.remote q idx) s = .next (rmtAdvance { s with rmtCmds := s.rmtCmds ++ [⟨q, c.idx, 0, [], [], none, none, stOk⟩] } q c.idx))) ∧
  (∀ s p rest, s.rmtReplies = p :: rest → (∀ o ∈ s.rmtOps, ¬(o.issued = true ∧ o.rid = rpRid p ∧ o.node = p.src)) →
    exec .remoteReply s = .next (incSat { s with rmtReplies := rest } RMT_REQ_STATS.unmatched)) ∧
  (∀ s p rest o q idx, s.rmtReplies = p :: rest → (s.rmtOps.find? fun o => o.issued && o.rid == rpRid p && o.node == p.src) = some o →
    o.origin = .signal q idx → (∀ x ∈ s.rmtOps, x.id ≠ o.id → x.origin ≠ o.origin) → rpStatus p = stOk → o.part = none → rcIsAtomic o.code = true →
    Does .remoteReply s fun t => t.rmtOps = s.rmtOps.filter (·.id != o.id) ∧ t.rmtReplies = rest ∧
      findCtx t q idx = (findCtx s q idx).map fun c => { c with phase := .done, status := stWorse c.status stOk, result0 := leNat p.payload }) ∧
  (∀ (rid : BitVec 28) s o, (s.rmtOps.find? fun o => o.issued && o.rid == rid.toNat) = some o → o.retry < o.timeout * 10 →
    o.node ≠ rd s FAB_COORD.node → Does (.remoteRetry rid) s fun t =>
      t.rmtOps = s.rmtOps.map (fun x => if x.id == o.id then { x with sends := x.sends + 1 } else x) ∧
      rd t RMT_REQ_STATS.retries = min (rd s RMT_REQ_STATS.retries + 1) (2 ^ RMT_REQ_STATS.retries.w - 1) ∧
      (∃ p, t.injQ = s.injQ ++ [(.remote o.id, p)] ∧ p.dst = o.node) ∧
      t = { s with rmtOps := t.rmtOps, injQ := t.injQ, fields := t.fields } ∧ FieldsBut [(RMT_REQ_STATS.retries, 0)] s t) ∧
  (∀ (rid : BitVec 28) s o q idx, (s.rmtOps.find? fun o => o.issued && o.rid == rid.toNat) = some o → o.origin = .signal q idx →
    (∀ x ∈ s.rmtOps, x.id ≠ o.id → x.origin ≠ o.origin) → o.part = none → Does (.remoteTimeout rid) s fun t =>
      (∀ x ∈ t.rmtOps, x.id ≠ o.id) ∧ rd t RMT_REQ_STATS.timeouts = min (rd s RMT_REQ_STATS.timeouts + 1) (2 ^ RMT_REQ_STATS.timeouts.w - 1) ∧
      findCtx t q idx = (findCtx s q idx).map fun c => { c with phase := .done, status := stWorse c.status stTimeout, result0 := 0 })

/-- RMT_ENABLE, RMT_WIN_WRITE (R392, R412), RMT_CLEAR, REPLY_CACHE_EXPIRY (R405) and RMT_STATE_LOST (R408): an enable without a state region is
ignored and sets cfg_ignored; a window write stores every field at once; the clear zeroes the counters; the earliest cache entry expires; a
lost region empties records and cache and latches RMT_STATE_LOST, once. -/
def RemoteEngineIsSetAndCleared : Prop :=
  (∀ s, rd s RMT_STATE.base = 0 → exec (.rmtEnable true) s = .next (setBit s RMT_STATUS.cfg_ignored)) ∧
  (∀ s, rd s RMT_STATE.base ≠ 0 → Does (.rmtEnable true) s fun t => on t RMT_CTL.enable = true ∧ OnlyFields [(RMT_CTL.enable, 0)] s t) ∧
  (∀ s, Does (.rmtEnable false) s fun t => on t RMT_CTL.enable = false ∧ OnlyFields [(RMT_CTL.enable, 0)] s t) ∧
  (∀ (w : BitVec 12) (v : W64) s, Does (.rmtWinWrite w v) s fun t =>
    (∀ f ∈ [RMT_WIN_CTL.size_pages, RMT_WIN_CTL.key, RMT_WIN_CTL.job, RMT_WIN_CTL.atomic, RMT_WIN_CTL.write, RMT_WIN_CTL.read, RMT_WIN_CTL.enable],
      rd t f w.toNat = v.toNat / 2 ^ f.lo % 2 ^ f.w) ∧
    OnlyFields ([RMT_WIN_CTL.size_pages, RMT_WIN_CTL.key, RMT_WIN_CTL.job, RMT_WIN_CTL.atomic, RMT_WIN_CTL.write, RMT_WIN_CTL.read,
      RMT_WIN_CTL.enable].map fun f => (f, w.toNat)) s t) ∧
  (∀ s, Does .rmtClear s fun t =>
    let fs := [RMT_REQ_STATS.unmatched, RMT_REQ_STATS.retries, RMT_REQ_STATS.timeouts, RMT_RC_STATS.evictions, RMT_RC_STATS.stale,
      RMT_RC_STATS.skipped, RMT_REFUSE_LAST.refused, RMT_REFUSE_LAST.reason, RMT_REFUSE_LAST.src, RMT_REFUSE_LAST.window]
    (∀ f ∈ fs, rd t f = 0) ∧ OnlyFields (fs.map fun f => (f, 0)) s t) ∧
  (∀ s, Does .replyCacheExpiry s fun t => t.rmtCache = s.rmtCache.tail ∧
    rd t RMT_RC_STATS.in_use = s.rmtCache.tail.length % 2 ^ RMT_RC_STATS.in_use.w ∧ t = { s with rmtCache := t.rmtCache, fields := t.fields } ∧
    FieldsBut [(RMT_RC_STATS.in_use, 0)] s t) ∧
  (∀ s, Does .rmtStateLost s fun t => t.rmtRecs = [] ∧ t.rmtCache = [] ∧ t.rmtLost = true ∧ (s.rmtLost = false → Latched t 0x013) ∧ rd t RMT_RC_STATS.in_use = 0 ∧
    t = { s with rmtRecs := t.rmtRecs, rmtCache := t.rmtCache, rmtLost := t.rmtLost, fields := t.fields } ∧
    FieldsBut ((RMT_RC_STATS.in_use, 0) :: evtWords 0x013) s t)

/-- Remote commands follow their requests, and the remote engine is set and cleared. -/
def Obligations.RemoteCommandsAndTheirEngine : Prop := RemoteCommandsFollowTheirRequests ∧ RemoteEngineIsSetAndCleared

/-! ### Mirrors, landings and admission (file 14) -/

/-- A context of a queue in the set of landing `l` once that landing has ended with `st`. -/
def landed (l : Landing) (st : Nat) (c : Ctx) : Ctx :=
  if descOpcode c.desc = opLanding ∧ landNo c.desc = l.n ∧ c.phase = .running then { c with phase := .done, status := stWorse c.status st, result0 := l.n } else c

/-- From `s` to `t` landing `l` of job `j` ends with a status and a reason in every queue of the job that is not disabled (R477, R481). -/
def LandingEnds (s t : State) (j : JobNo) (l : Landing) (st reason : Nat) : Prop :=
  kfind t.landings j = none ∧ rd t MIR_JOB_STATE.phase j = 0 ∧ rd t MIR_JOB_STATE.reason j = reason ∧ t.mem = s.mem ∧
  (∀ q, (rd s QUE_Q_BIND.space q ≠ j ∨ qState s q = qsDisabled) → getQ t q = getQ s q) ∧
  ((s.queues.map (·.1)).Nodup → ∀ q x, (q, x) ∈ s.queues → rd s QUE_Q_BIND.space q = j → qState s q ≠ qsDisabled →
    getQ t q = { x with ctxs := x.ctxs.map (landed l st), saved := x.saved.map (landed l st) })

/-- Landing `l` of job `j` goes to a step, shown as a phase; nothing else changes. -/
def LandingGoes (s t : State) (j : JobNo) (l : Landing) (phase : Nat) : Prop :=
  kfind t.landings j = some l ∧ rd t MIR_JOB_STATE.phase j = phase ∧ t = { s with landings := t.landings, fields := t.fields } ∧
  (∀ i, i ≠ j.val → kfind t.landings i = kfind s.landings i) ∧ FieldsBut [(MIR_JOB_STATE.phase, j)] s t

/-- A landing of job `j` completes: full landings count a commit and leave a job that is not residency-bound protected, unless its partner has changed
since the arrival (R490). -/
def LandingCompletes (s t : State) (j : JobNo) (l : Landing) : Prop :=
  LandingEnds s t j l stOk 0 ∧ rd t MIR_JOB_STATE.last_landing j = l.n % 2 ^ 48 ∧
  (l.rejoin = true → rd t MIR_STATS.commits = rd s MIR_STATS.commits ∧ j.val ∉ t.mirWaiting) ∧
  (l.rejoin = false → rd t MIR_STATS.commits = (rd s MIR_STATS.commits + 1) % 2 ^ 32 ∧ j.val ∉ t.mirLoaded ∧
    (on s MIR_JOB.residency_bound j = false → rd s MIR_JOB.partner j = l.partner → on t MIR_JOB_STATE.isProtected j = true) ∧
    (rd s MIR_JOB.partner j ≠ l.partner → on t MIR_JOB_STATE.isProtected j = on s MIR_JOB_STATE.isProtected j))

/-- Landing `l` of job `j` comes to a barrier: this panel's number goes out now if the collective engine carries it, else at a later tick. -/
def LandingAtBarrier (s t : State) (j : JobNo) (l : Landing) (phase stage : Nat) : Prop :=
  t.outbox = (if barrierOpen s j then [.mirBarrier (rd s MIR_JOB.barrier_group j) l.n stage] else []) ++ s.outbox ∧
  LandingGoes { s with outbox := t.outbox } t j { l with told := barrierOpen s j } phase

/-- The steps of a landing (Table 14.1, R479 to R482): LANDING starts or joins it; ARRIVAL needs every queue of the set and no open remote
write, and sends the panel's number to the group's barrier; the barrier passes at its own number or a higher; a full landing commits, is sealed and passes a second barrier; a refusal, a fence, a
partner that the routing table does not reach (R354) and the time-out end it. Where the fabric injects nothing (R380) a commit waits. -/
def Obligations.LandingsFollowTheirSteps : Prop :=
  (∀ (q : QueueNo) (idx : BitVec 32) s c, runningCtx s q idx.toNat opLanding = some c →
    let j := rd s QUE_Q_BIND.space q
    Does (.landing q idx) s fun t => findCtx t q c.idx = some { c with started := true } ∧ t.mem = s.mem ∧ (∀ p : Nat, p ≠ q → getQ t p = getQ s p) ∧
      ((kfind s.landings j).isSome = true → t = { s with queues := t.queues }) ∧
      (kfind s.landings j = none → kfind t.landings j = some ⟨landNo c.desc, landNo c.desc == rd s MIR_JOB_STATE.last_landing j, 1, 0, [], false⟩ ∧
        rd t MIR_JOB_STATE.phase j = 1 ∧ rd t MIR_JOB_STATE.reason j = 0 ∧ FieldsBut [(MIR_JOB_STATE.phase, j), (MIR_JOB_STATE.reason, j)] s t)) ∧
  (∀ (j : JobNo) s l, kfind s.landings j = some l → l.step = 1 →
    (∀ x ∈ landingSet s j, (landingCtx l.n x.2.ctxs).isSome = true ∨ (landingCtx l.n x.2.saved).isSome = true) →
    (∀ o ∈ s.rmtOps, o.job = j.val → o.code = rcLoad) → Does (.arrival j) s fun t =>
      if fencedNode s (rd s MIR_JOB.partner j) = true ∧ on s MIR_JOB.residency_bound j = false then LandingEnds s t j l stTimeout 3
      else LandingAtBarrier s t j { l with step := 2, partner := rd s MIR_JOB.partner j, ranges := (jobRanges s j).map (rangeOf s) } 2 0) ∧
  (∀ (j : JobNo) (low : BitVec 48) s l, kfind s.landings j = some l → l.step = 2 → l.told = true → on s DATA_VIEW.panel_state = false →
    (low.toNat < l.n → exec (.arrivalBarrier j low) s = .next s) ∧
    (l.n ≤ low.toNat → Does (.arrivalBarrier j low) s fun t =>
      if l.rejoin = true ∨ on s MIR_JOB.residency_bound j = true then LandingCompletes s t j l else LandingGoes s t j { l with step := 3 } 3)) ∧
  (∀ (j : JobNo) s l w, kfind s.landings j = some l → l.step = 3 → on s MIR_CTL.enable = true →
    (fencedNode s l.partner = true → Does (.commit j) s fun t => LandingEnds s t j l stTimeout 3) ∧
    (fencedNode s l.partner = false → (mirPath s l.partner = .waits → exec (.commit j) s = .next s) ∧
      (∀ u, mirPath s l.partner = .fails u → Does (.commit j) s fun t => LandingEnds u t j l stTimeout 2)) ∧
    (fencedNode s l.partner = false → mirPath s l.partner = .go → ∀ image, readRanges j l.ranges s = (w, .inl image) → Does (.commit j) s fun t =>
      t.outbox = .mirCommit l.partner l.n (rd w RMT_JOB_KEY.key j) image :: w.outbox ∧ LandingGoes { w with outbox := t.outbox } t j { l with step := 4 } 3) ∧
    (fencedNode s l.partner = false → mirPath s l.partner = .go → ∀ st r, readRanges j l.ranges s = (w, .inr (st, r)) → r < 16 →
      (st = stWait → exec (.commit j) s = .next w) ∧ (st ≠ stWait → Does (.commit j) s fun t => LandingEnds w t j l st r))) ∧
  (∀ (j : JobNo) s l, kfind s.landings j = some l → on s DATA_VIEW.panel_state = false →
    (l.step = 4 → Does (.landingSeal j false) s fun t => LandingAtBarrier s t j { l with step := 5 } 4 1) ∧
    (l.step = 3 ∨ l.step = 4 → Does (.landingSeal j true) s fun t => LandingEnds s t j l stRefused 4 ∧
      rd t MIR_STATS.refusals = min (rd s MIR_STATS.refusals + 1) 65535)) ∧
  (∀ (j : JobNo) (low : BitVec 48) s l, kfind s.landings j = some l → l.step = 5 → l.told = true → on s DATA_VIEW.panel_state = false →
    (low.toNat < l.n → exec (.commitBarrier j low) s = .next s) ∧ (l.n ≤ low.toNat → Does (.commitBarrier j low) s fun t => LandingCompletes s t j l)) ∧
  (∀ (j : JobNo) low refused s l, kfind s.landings j = some l → on s DATA_VIEW.panel_state = true →
    exec (.arrivalBarrier j low) s = .next (incSat s MIR_VIEW_DROPS.fenced_src) ∧ exec (.commitBarrier j low) s = .next (incSat s MIR_VIEW_DROPS.fenced_src) ∧
    exec (.landingSeal j refused) s = .next (incSat s MIR_VIEW_DROPS.fenced_src)) ∧
  (∀ (j : JobNo) s l, kfind s.landings j = some l → 2 ≤ l.step → Does (.landingTimeout j) s fun t =>
    LandingEnds s t j l stTimeout (if l.step = 3 ∨ l.step = 4 then 2 else 1))

/-- A commit from `src` that entry `e` accepts (R484, R487). -/
def CommitAccepted (s : State) (e : Fin 8) (src : BitVec 14) (key : BitVec 16) (feed : BitVec 8) (size : W64) : Prop :=
  on s MIR_CTL.enable = true ∧ on s MIR_HOST_CTL.enable e = true ∧ rd s MIR_HOST_CTL.key e = key.toNat ∧ rd s MIR_HOST_CTL.source e = src.toNat ∧
  sameRack s src.toNat = false ∧ rd s MIR_CTL.feed ≠ feed.toNat ∧ size.toNat ≤ bufSize s e

/-- A panel's refusal, counted and sent if the fabric takes the answer. -/
def Refused (s t : State) (node : Nat) : Prop := mirPath (incSat s MIR_STATS.refusals) node = .go →
  t.outbox = .mirRefuse node :: s.outbox ∧ rd t MIR_STATS.refusals = min (rd s MIR_STATS.refusals + 1) 65535 ∧
  t = { s with outbox := t.outbox, fields := t.fields } ∧ FieldsBut [(MIR_STATS.refusals, 0)] s t

/-- The partner (R484, R486, R487): chunks go into the chosen buffer at their offsets, and the COMMIT message after the last one makes it
COMMITTED; what it does not accept is refused and counted; what a fenced source sends, or comes to a FENCED panel, is
dropped and counted; an abandoned stream and a buffer with a lost byte
are EMPTY; a load is answered from the COMMITTED buffer of its number. -/
def Obligations.PartnerKeepsCommittedBuffers : Prop :=
  (∀ (e : Fin 8) (src : BitVec 14) key feed (keep n : BitVec 48) (size offset : W64) (data : List Byte) last s, on s DATA_VIEW.panel_state = false → fencedNode s src.toNat = false →
    (¬CommitAccepted s e src key feed size → Does (.partnerCommit e src key feed keep n size offset data last) s fun t => Refused s t src.toNat) ∧
    (CommitAccepted s e src key feed size → data.length = min mirChunk (size.toNat - offset.toNat) → offset.toNat % mirChunk = 0 →
      let b := chooseBuf s e keep.toNat n.toNat
      let k := bufIdx e b
      let u := if bufState s e b = 1 ∧ bufLanding s e b = n.toNat then s
        else putBuf { s with mirSize := kput s.mirSize k size.toNat, mirPlaced := kput s.mirPlaced k [] } e b 1 n.toNat
      let w := writeVa u 1281 (rd u MIR_CTL.host_job) 0 (2 ^ 32) (bufVa u e b + offset.toNat) data
      w.2.1 = stOk →
      let placed := setIns (kget w.1.mirPlaced k []) (offset.toNat / mirChunk)
      Does (.partnerCommit e src key feed keep n size offset data last) s fun t => t.mem = w.1.mem ∧ kget t.mirPlaced k [] = placed ∧
        (last = true ∧ placed.length = cdiv (kget w.1.mirSize k 0) mirChunk →
          (mirPath (putBuf { w.1 with mirPlaced := kput w.1.mirPlaced k placed } e b 2 n.toNat) src.toNat = .go → bufState t e b = 2 ∧
            bufLanding t e b = n.toNat ∧ t.outbox = .mirSealed src.toNat n.toNat :: w.1.outbox) ∧
          (mirPath (putBuf { w.1 with mirPlaced := kput w.1.mirPlaced k placed } e b 2 n.toNat) src.toNat = .waits → t.outbox = w.1.outbox ∧
            bufState t e b = bufState w.1 e b)) ∧
        (last = false ∨ placed.length ≠ cdiv (kget w.1.mirSize k 0) mirChunk → t = { w.1 with mirPlaced := t.mirPlaced }))) ∧
  (∀ (e : Fin 8) (src : BitVec 14) key feed keep n size offset data last s, on s DATA_VIEW.panel_state = true ∨ fencedNode s src.toNat = true →
    exec (.partnerCommit e src key feed keep n size offset data last) s = .next (incSat s MIR_VIEW_DROPS.fenced_src) ∧
    exec (.partnerLoad e src key n size) s = .next (incSat s MIR_VIEW_DROPS.fenced_src)) ∧
  (∀ (e : Fin 8) s, Does (.commitAbandon e) s fun t =>
    (∀ b < 2, bufState s e b = 1 → bufState t e b = 0 ∧ bufLanding t e b = 0) ∧
    (∀ b < 2, bufState s e b ≠ 1 → bufState t e b = bufState s e b ∧ bufLanding t e b = bufLanding s e b) ∧
    t = { s with mirSize := t.mirSize, mirPlaced := t.mirPlaced, fields := t.fields } ∧
    FieldsBut [(MIR_HOST_BUF.state, bufIdx e 0), (MIR_HOST_BUF.landing, bufIdx e 0), (MIR_HOST_BUF.state, bufIdx e 1), (MIR_HOST_BUF.landing, bufIdx e 1)] s t) ∧
  (∀ (e : Fin 8) (b : Fin 2) s, Does (.mirBufUe e b) s fun t => bufState t e b = 0 ∧ bufLanding t e b = 0 ∧ Latched t 0x014 ∧
    t = { s with mirSize := t.mirSize, mirPlaced := t.mirPlaced, fields := t.fields } ∧
    FieldsBut ([(MIR_HOST_BUF.state, bufIdx e b), (MIR_HOST_BUF.landing, bufIdx e b)] ++ evtWords 0x014) s t) ∧
  (∀ (e : Fin 8) (src : BitVec 14) key (n : BitVec 48) (size : W64) s, on s DATA_VIEW.panel_state = false → fencedNode s src.toNat = false →
    (∀ b g, ((List.range 2).find? fun b => bufState s e b == 2 && bufLanding s e b == n.toNat) = some b → on s MIR_CTL.enable = true →
      on s MIR_HOST_CTL.enable e = true → rd s MIR_HOST_CTL.key e = key.toNat → rd s MIR_HOST_CTL.loader e = src.toNat →
      kget s.mirSize (bufIdx e b) 0 = size.toNat → readVa s 1281 (rd s MIR_CTL.host_job) (bufVa s e b) size.toNat = g → g.status = stOk →
      mirPath g.s src.toNat = .go → Does (.partnerLoad e src key n size) s fun t => t = { g.s with outbox := .mirStream src.toNat n.toNat g.data :: g.s.outbox }) ∧
    ((∀ b < 2, ¬(bufState s e b = 2 ∧ bufLanding s e b = n.toNat)) ∨ on s MIR_HOST_CTL.enable e = false ∨ rd s MIR_HOST_CTL.key e ≠ key.toNat ∨
      rd s MIR_HOST_CTL.loader e ≠ src.toNat → Does (.partnerLoad e src key n size) s fun t => Refused s t src.toNat))

/-- The mirror's registers (R22, R477, R486, R489, R490, R491): enabling brings the slots into force; the locked fields of an enabled job stay
and set cfg_ignored, and a new partner ends the job's protection; an empty range, a range of a residency-bound job and a host area beyond a
quarter of the stacked memory are not enabled; only the management path writes its view, and a change of epoch brings it into the data view. -/
def MirrorRegistersAreSet : Prop :=
  (∀ s, Does (.mirEnable false) s fun t => on t MIR_CTL.enable = false ∧ OnlyFields [(MIR_CTL.enable, 0)] s t) ∧
  (∀ s, on s MIR_CTL.enable = false → Does (.mirEnable true) s fun t => on t MIR_CTL.enable = true ∧ on t MIR_STATUS.cfg_pending = false ∧
    inForce t MIR_CTL.slots = rd s MIR_CTL.slots ∧ t = { s with force := t.force, fields := t.fields } ∧
    FieldsBut [(MIR_CTL.enable, 0), (MIR_STATUS.cfg_pending, 0)] s t) ∧
  (∀ (j : JobNo) (p : BitVec 14) (g : BitVec 10) bound enable s, Does (.mirJobWrite j p g bound enable) s fun t =>
    rd t MIR_JOB.partner j = p.toNat ∧ on t MIR_JOB.enable j = enable ∧
    (rd s MIR_JOB.partner j ≠ p.toNat → on t MIR_JOB_STATE.isProtected j = false) ∧
    (on s MIR_JOB.enable j = true ∧ enable = true → rd t MIR_JOB.barrier_group j = rd s MIR_JOB.barrier_group j ∧
      rd t MIR_JOB.residency_bound j = rd s MIR_JOB.residency_bound j ∧ on t MIR_STATUS.cfg_ignored = true) ∧
    (¬(on s MIR_JOB.enable j = true ∧ enable = true) → rd t MIR_JOB.barrier_group j = g.toNat ∧ on t MIR_JOB.residency_bound j = bound ∧
      rd t MIR_STATUS.cfg_ignored = rd s MIR_STATUS.cfg_ignored) ∧
    OnlyFields [(MIR_JOB.partner, j), (MIR_JOB_STATE.isProtected, j), (MIR_STATUS.cfg_ignored, 0), (MIR_JOB.barrier_group, j),
      (MIR_JOB.residency_bound, j), (MIR_JOB.enable, j)] s t) ∧
  (∀ (r : Fin 64) s, Does (.mirRangeEnable r false) s fun t => on t MIR_RANGE_CTL.enable r = false ∧ OnlyFields [(MIR_RANGE_CTL.enable, r)] s t) ∧
  (∀ (r : Fin 64) s, on s MIR_RANGE_CTL.enable r = false →
    (rd s MIR_RANGE_CTL.size_64k r = 0 ∨ on s MIR_JOB.residency_bound (rd s MIR_RANGE_CTL.job r) = true →
      exec (.mirRangeEnable r true) s = .next (setBit s MIR_STATUS.cfg_ignored)) ∧
    (rd s MIR_RANGE_CTL.size_64k r ≠ 0 ∧ on s MIR_JOB.residency_bound (rd s MIR_RANGE_CTL.job r) = false →
      Does (.mirRangeEnable r true) s fun t => on t MIR_RANGE_CTL.enable r = true ∧ OnlyFields [(MIR_RANGE_CTL.enable, r)] s t)) ∧
  (∀ (e : Fin 8) s, Does (.mirHostEnable e false) s fun t => on t MIR_HOST_CTL.enable e = false ∧
    (∀ b < 2, bufState t e b = 0 ∧ bufLanding t e b = 0) ∧ t = { s with mirSize := t.mirSize, mirPlaced := t.mirPlaced, fields := t.fields }) ∧
  (∀ (e : Fin 8) s, on s MIR_HOST_CTL.enable e = false →
    let total := ((List.range 8).filter fun i => on s MIR_HOST_CTL.enable i).foldl (fun n i => n + 2 * bufSize s i) (2 * bufSize s e)
    (usableStacked s < 4 * total → exec (.mirHostEnable e true) s = .next (setBit s MIR_STATUS.cfg_ignored)) ∧
    (4 * total ≤ usableStacked s → Does (.mirHostEnable e true) s fun t => on t MIR_HOST_CTL.enable e = true ∧ OnlyFields [(MIR_HOST_CTL.enable, e)] s t)) ∧
  (∀ w s, exec (.mgmtViewWrite false w) s = .next (setBit s MIR_STATUS.mgmt_rejected)) ∧
  (∀ (g : BitVec 16) f s, Does (.mgmtViewWrite true (.view g f)) s fun t => rd t MGMT_VIEW.view_gen = g.toNat ∧ on t MGMT_VIEW.panel_state = f ∧
    OnlyFields [(MGMT_VIEW.view_gen, 0), (MGMT_VIEW.panel_state, 0)] s t) ∧
  (∀ (w : BitVec 8) (bits : W64) s, Does (.mgmtViewWrite true (.fence w bits)) s fun t => rd t MIR_FENCE_DATA.fenced w.toNat = bits.toNat ∧
    OnlyFields [(MIR_FENCE_DATA.fenced, w.toNat)] s t) ∧
  (∀ (b : Fin 2) s, (bankState s b ≠ 2 → exec (.fabEpochWrite b) s = .next (setBit s FAB_STATUS.cfg_ignored)) ∧
    (bankState s b = 2 → rd s FAB_EPOCH.current = b → exec (.fabEpochWrite b) s = .next s) ∧
    (bankState s b = 2 → rd s FAB_EPOCH.current ≠ b → Does (.fabEpochWrite b) s fun t => rd t FAB_EPOCH.current = b ∧
      rd t FAB_EPOCH.flips = (rd s FAB_EPOCH.flips + 1) % 2 ^ 32 ∧ rd t DATA_VIEW.view_gen = rd s MGMT_VIEW.view_gen ∧
      rd t DATA_VIEW.panel_state = rd s MGMT_VIEW.panel_state ∧ rd t DATA_VIEW.epoch = b ∧ (s.mirLoad = none → t.mem = s.mem) ∧
      (∀ l, s.mirLoad = some l → l.partner < 16384 →
        if bitOn (rd s MIR_FENCE_DATA.fenced (l.partner / 64)) (l.partner % 64) = true
        then t.mirLoad = none ∧ rd t MIR_STATUS.admission = 6 else t.mirLoad = some l ∧ t.mem = s.mem) ∧
      ∀ w < 256, kget t.dataFence w 0 = rd s MIR_FENCE_DATA.fenced w))

/-- From `s` to `t` the load in progress of job `j` ends ORPHANED (R494). -/
def LoadOrphaned (s t : State) (j : Nat) : Prop :=
  t.mirLoad = none ∧ rd t MIR_STATUS.admission = 6 ∧ on t MIR_STATUS.orphaned = true ∧ rd t MIR_STATUS.orphaned_job = j % 256 ∧
  rd t MIR_JOB_STATE.phase j = 0 ∧ Latched t 0x006 ∧ t.queues = s.queues ∧ t.landings = s.landings

/-- A transition of the admission machine, with the rest of the machine as it was. -/
def Admits (s t : State) (a : Nat) : Prop := rd t MIR_STATUS.admission = a ∧ OnlyFields [(MIR_STATUS.admission, 0)] s t

/-- Admission (Table 14.5, R489, R493, R494): in a state with no row for it a command of the management path sets cfg_ignored, and any command
of the host sets mgmt_rejected; otherwise each row's transition is made, a load puts its image into the ranges that the job had as it began, and a load that
fails, or whose partner the routing table does not reach, ends ORPHANED. -/
def AdmissionFollowsTable : Prop :=
  (∀ s, (∀ x ∈ s.queues, qState s x.1 = qsDisabled) → rd s MIR_STATUS.admission = 0 → Does (.selfTest true) s fun t => rd t MIR_STATUS.admission = 1 ∧
    (∀ a, (a < 80 * 2 ^ 36 ∨ (2 ^ 52 ≤ a ∧ a < 2 ^ 64)) → memByte t.mem a = memDefault a) ∧
    (∀ a, ¬(a < 80 * 2 ^ 36 ∨ (2 ^ 52 ≤ a ∧ a < 2 ^ 64)) → memByte t.mem a = memByte s.mem a) ∧ t.queues = s.queues) ∧
  (∀ s, (∃ x ∈ s.queues, qState s x.1 ≠ qsDisabled) ∨ rd s MIR_STATUS.admission ≠ 0 → exec (.selfTest true) s = .next (setBit s MIR_STATUS.cfg_ignored)) ∧
  (∀ (j : JobNo) (n : BitVec 48) s, exec (.selfTest false) s = .next (setBit s MIR_STATUS.mgmt_rejected) ∧
    exec (.admitLoad false j n) s = .next (setBit s MIR_STATUS.mgmt_rejected) ∧ exec (.abortLoad false) s = .next (setBit s MIR_STATUS.mgmt_rejected)) ∧
  (∀ s, rd s MIR_STATUS.admission = 1 → Does (.selfTestDone []) s (fun t => Admits s t 2) ∧
    ∀ u us, Does (.selfTestDone (u :: us)) s fun t => rd t MIR_STATUS.admission = 0 ∧ Latched t 0x015 ∧ t = { s with fields := t.fields } ∧
      (unitState s u.toNat = 1 → unitState t u.toNat = 3)) ∧
  (∀ (j : JobNo) (n : BitVec 48) s, rd s MIR_STATUS.admission ∈ [2, 4, 5] → on s MIR_JOB.residency_bound j = false →
    let p := rd s MIR_JOB.partner j
    let l : MirLoad := ⟨j, n.toNat, rd s MIR_STATUS.admission, p, (jobRanges s j).map (rangeOf s), false⟩
    let u := putPhase (wr { s with mirLoad := some { l with asked := true } } MIR_STATUS.admission 0 3) j 5
    (fencedNode s p = false → on s MIR_CTL.enable = true → mirPath u p = .go → Does (.admitLoad true j n) s fun t => rd t MIR_STATUS.admission = 3 ∧ rd t MIR_JOB_STATE.phase j = 5 ∧
      t.mirLoad = some { l with asked := true } ∧
      t.outbox = .mirLoadReq p n.toNat (rd s RMT_JOB_KEY.key j) (rangesSize l.ranges) :: s.outbox ∧
      t = { s with mirLoad := t.mirLoad, outbox := t.outbox, fields := t.fields } ∧ FieldsBut [(MIR_STATUS.admission, 0), (MIR_JOB_STATE.phase, j)] s t) ∧
    (fencedNode s p = false → (on s MIR_CTL.enable = false ∨ mirPath u p = .waits) → Does (.admitLoad true j n) s fun t => rd t MIR_STATUS.admission = 3 ∧
      rd t MIR_JOB_STATE.phase j = 5 ∧ t.mirLoad = some l ∧ t = { s with mirLoad := t.mirLoad, fields := t.fields } ∧
      FieldsBut [(MIR_STATUS.admission, 0), (MIR_JOB_STATE.phase, j)] s t) ∧
    (∀ v, fencedNode s p = false → on s MIR_CTL.enable = true → (mirPath u p = .fails v ∨ mirPath u p = .lost v) → Does (.admitLoad true j n) s fun t => LoadOrphaned s t j) ∧
    (fencedNode s (rd s MIR_JOB.partner j) = true → Does (.admitLoad true j n) s fun t => LoadOrphaned s t j)) ∧
  (∀ (j : JobNo) (n : BitVec 48) s, rd s MIR_STATUS.admission ∉ [2, 4, 5] ∨ on s MIR_JOB.residency_bound j = true →
    exec (.admitLoad true j n) s = .next (setBit s MIR_STATUS.cfg_ignored)) ∧
  (∀ image s l w st, s.mirLoad = some l → l.job < 256 → on s DATA_VIEW.panel_state = false →
    (image.length ≠ rangesSize l.ranges → exec (.loadComplete image) s = .next s) ∧
    (image.length = rangesSize l.ranges → writeRanges l.job l.ranges image s = (w, st) →
      (st = stOk → Does (.loadComplete image) s fun t => rd t MIR_STATUS.admission = 4 ∧ rd t MIR_JOB_STATE.last_landing l.job = l.n % 2 ^ 48 ∧
        on t MIR_JOB_STATE.isProtected l.job = (rd s MIR_JOB.partner l.job == l.partner) ∧ rd t MIR_JOB_STATE.phase l.job = 0 ∧ t.mirLoad = none ∧ l.job ∈ t.mirLoaded ∧
        l.job ∈ t.mirWaiting ∧ t.mem = w.mem) ∧
      (st = stWait → exec (.loadComplete image) s = .next s) ∧
      (st ≠ stOk → st ≠ stWait → Does (.loadComplete image) s fun t => LoadOrphaned s t l.job))) ∧
  (∀ s l, s.mirLoad = some l → l.job < 256 → l.before < 8 → on s DATA_VIEW.panel_state = false → Does .loadRefused s fun t => t.mirLoad = none ∧ rd t MIR_STATUS.admission = l.before ∧
    rd t MIR_STATS.refusals = min (rd s MIR_STATS.refusals + 1) 65535 ∧ rd t MIR_JOB_STATE.phase l.job = 0 ∧ Latched t 0x016 ∧
    t = { s with mirLoad := none, fields := t.fields } ∧
    FieldsBut ([(MIR_STATUS.admission, 0), (MIR_STATS.refusals, 0), (MIR_JOB_STATE.phase, l.job)] ++ evtWords 0x016) s t) ∧
  (∀ s l, s.mirLoad = some l → l.job < 256 → Does .orphaned s fun t => LoadOrphaned s t l.job) ∧
  (∀ s, rd s MIR_STATUS.admission = 3 ∨ rd s MIR_STATUS.admission = 6 →
    (s.mirLoad = none → Does (.abortLoad true) s fun t => Admits s t 2) ∧
    (∀ l, s.mirLoad = some l → l.job < 256 → Does (.abortLoad true) s fun t => rd t MIR_STATUS.admission = 2 ∧ t.mirLoad = none ∧
      rd t MIR_JOB_STATE.phase l.job = 0 ∧ t.queues = s.queues)) ∧
  (∀ s, rd s MIR_STATUS.admission ≠ 3 → rd s MIR_STATUS.admission ≠ 6 → exec (.abortLoad true) s = .next (setBit s MIR_STATUS.cfg_ignored)) ∧
  (∀ s, rd s MIR_STATUS.admission = 4 → s.mirWaiting = [] → Does .rejoinComplete s fun t => Admits s t 5) ∧
  (∀ s, rd s MIR_STATUS.admission = 4 → Does .mirAdmitTimeout s fun t => rd t MIR_STATUS.admission = 2 ∧ t.mirWaiting = [] ∧ Latched t 0x017 ∧
    t = { s with mirWaiting := [], fields := t.fields } ∧ FieldsBut ((MIR_STATUS.admission, 0) :: evtWords 0x017) s t)

/-- The mirror registers are set, and admission follows Table 14.5. -/
def Obligations.MirrorSettingsAndAdmission : Prop := MirrorRegistersAreSet ∧ AdmissionFollowsTable

/-! ### Pre-emption and translation (file 06), compute dies (files 03, 04, 07) -/

/-- What a RESTORE reads of its save area after the header (Table 6.6): the contexts, then of each position with an unfinished share its cells
and its tile image, if the header names images. The state, the statuses of the three groups, and the worst of them. -/
def restoreReads (s : State) (q : Nat) (req : Line) : State × List Nat × Nat :=
  let g := saveRead s req 0 0x100
  let hd := g.data
  let cores := (coreSet s q).getD []
  let c := saveReads req ((List.range (leAt hd 0x14 4)).map fun i => (0x100 + 0x100 * i, 0x100)) g.s
  let ctxs := c.2.2.map (restoreCtx q (getQ g.s q).saved cores)
  let open_ := (ctxs.flatMap openPos).foldl setIns []
  let a := saveReads req (open_.map fun pos => (0x10000 + 0x40000 * pos, 0x30000)) c.1
  let images := open_.map fun pos => (0x10000 + 0x40000 * leAt hd 0x18 4 + 0x100000 * pos, 2 ^ 20)
  let i := saveReads req (if leAt hd 0x1C 4 % 2 == 1 then images else []) a.1
  (i.1, [c.2.1, a.2.1, i.2.1], stWorse c.2.1 (stWorse a.2.1 i.2.1))

/-- A control request is read from its ring, which goes on to the next (R240). -/
def requestTaken (s : State) (x idx : Nat) (req : Line) : State := nextDone (ringArrive s (.xq x) idx [req]) x

/-- PREEMPT and RESTORE (R240 to R252): a malformed request, a queue in a wrong state and a bad save area are answered DESC_INVALID, too
small a one with the size needed. A queue whose commands all stand at restart points is saved, with nothing of it left in flight, and is STOPPED
with its response (R244), which waits for far writes of the save area (R309); a request whose save area has a line that the host holds waits. A
save area that reads wholly gives a restored queue its commands back, and it runs, or is FAULTED as it was; one that does not read gives the
response its status (the model's choice, log entry 32). -/
def Obligations.QueuesArePreemptedAndRestored : Prop :=
  (∀ (x : Fin 16) req pts s idx, nextRequest s x = some idx → rqOp req ≠ 0x02 →
    let q := rqQueue req
    let need := saveSize (flightCores s q).length (rqTile req)
    (saving s q = true → exec (.preempt x req pts) s = .next s) ∧
    (saving s q = false → (rqOk req = false ∨ (qState s q ≠ qsRunning ∧ qState s q ≠ qsFaulted)) →
      exec (.preempt x req pts) s = .next (respond (requestTaken s x idx req) x idx req stDescInvalid 0)) ∧
    (saving s q = false → rqOk req = true → (qState s q = qsRunning ∨ qState s q = qsFaulted) → (rqSaveSize req < need ∨ areaOk s req need = false) →
      exec (.preempt x req pts) s = .next (respond (requestTaken s x idx req) x idx req stDescInvalid need)) ∧
    (saving s q = false → rqOk req = true → need ≤ rqSaveSize req → areaOk s req need = true →
      let u := stopQueue s q pts
      let v := (saveSpans u q req).foldl (spanWaits req) (u, false)
      let w := requestTaken v.1 x idx req
      (getQ u q).frecHeld = false → (∀ c ∈ (getQ u q).ctxs, mustEnd u q c = false) →
      (qState s q = qsFaulted ∨ (qState s q = qsRunning ∧ (getQ u q).stops = [] ∧ (getQ u q).tailFault = false)) →
      (v.2 = true → exec (.preempt x req pts) s = .next v.1) ∧
      (v.2 = false → Does (.preempt x req pts) s fun t => (getQ t q).ctxs = [] ∧ (getQ t q).fetched = [] ∧
        (getQ t q).saved.map (fun c => (c.idx, c.desc)) = (getQ u q).ctxs.map (fun c => (c.idx, c.desc)) ∧
        rd t QUE_Q_STATE.head q = (match (getQ u q).fetched with | (i, _) :: _ => i | [] => rd u QUE_Q_STATE.head q) % 2 ^ 32 ∧
        (∀ e ∈ t.coreShares, e.2.1 ≠ q) ∧ (∀ e ∈ t.copyShares, e.2.1 ≠ q) ∧ (∀ e ∈ t.watch, e.2.1 ≠ q) ∧
        (kget t.xrings x xringEmpty).next = ((kget u.xrings x xringEmpty).next + 1) % 2 ^ 32 ∧
        ((getRing w (.xr x)).held = [] → ringEnabled w (.xr x) = true → ringFull w (.xr x) = false → homeUp w = true →
          (saveOpen t x idx = false → qState t q = qsStopped ∧ (getQ t q).preempting = false) ∧
          (saveOpen t x idx = true → qState t q = qState u q ∧ (getQ t q).preempting = true))))) ∧
  (∀ (x : Fin 16) req s idx, nextRequest s x = some idx → rqOp req = 0x02 →
    let q := rqQueue req
    let g := saveRead s req 0 0x100
    let hd := g.data
    let r := restoreReads s q req
    (rqOk req = false ∨ qState s q ≠ qsStopped ∨ areaOk s req 0x100 = false →
      exec (.restore x req) s = .next (respond (requestTaken s x idx req) x idx req stDescInvalid 0)) ∧
    (rqOk req = true → qState s q = qsStopped → areaOk s req 0x100 = true →
      (g.status = stWait → exec (.restore x req) s = .next g.s) ∧
      (g.status ≠ stWait → g.status ≠ stOk →
        exec (.restore x req) s = .next (respond (requestTaken g.s x idx req) x idx req g.status 0)) ∧
      (g.status = stOk → headerFits s q req hd = false →
        exec (.restore x req) s = .next (respond (requestTaken g.s x idx req) x idx req stDescInvalid 0)) ∧
      (g.status = stOk → headerFits s q req hd = true →
        (stWait ∈ r.2.1 → exec (.restore x req) s = .next r.1) ∧
        (stWait ∉ r.2.1 → r.2.2 ≠ stOk →
          exec (.restore x req) s = .next (respond (requestTaken r.1 x idx req) x idx req r.2.2 0)) ∧
        ((∀ st ∈ r.2.1, st = stOk) → Does (.restore x req) s fun t => qState t q = (if leAt hd 0x0C 4 = 2 then qsFaulted else qsRunning) ∧
          (getQ t q).ctxs.length = leAt hd 0x14 4 ∧ (getQ t q).saved = [] ∧ rd t QUE_Q_STATE.head q = leAt hd 0x10 4 ∧
          rd t QUE_Q_STATE.inflight q = leAt hd 0x14 4)))) ∧
  (∀ (x : Fin 16) req s, nextRequest s x = none → exec (.preempt x req []) s = .next s ∧ exec (.restore x req) s = .next s)

/-- Invalidation (R226, R227): with one in progress a new one is ignored and sets cfg_ignored; the reserved kind does nothing; otherwise busy
is 1 until no cache entry of the extent is left, which counts as done. -/
def Obligations.InvalidationsEmptyTheirExtent : Prop :=
  (∀ (j : JobNo) (z : Fin 64) (k : Fin 4) s, on s XLT_INV_STATUS.busy = true → exec (.xltInvalidate j z k) s = .next (setBit s XLT_STATUS.cfg_ignored)) ∧
  (∀ (j : JobNo) (z : Fin 64) (k : Fin 4) s, on s XLT_INV_STATUS.busy = false → Does (.xltInvalidate j z k) s fun t =>
    let sz := min 52 (max 12 z.val)
    rd t XLT_INV.job = j ∧ rd t XLT_INV.size_log2 = sz ∧ rd t XLT_INV.kind = k ∧ t = { s with inv := t.inv, fields := t.fields } ∧
    FieldsBut [(XLT_INV.job, 0), (XLT_INV.size_log2, 0), (XLT_INV.kind, 0), (XLT_INV_STATUS.busy, 0)] s t ∧
    (k.val = 3 → t.inv = s.inv ∧ on t XLT_INV_STATUS.busy = false) ∧
    (k.val ≠ 3 → t.inv = some (k.val, j.val, rd s XLT_INV_VA.va / 2 ^ sz * 2 ^ sz, 2 ^ sz) ∧ on t XLT_INV_STATUS.busy = true)) ∧
  (∀ s k j va n, s.inv = some (k, j, va, n) → s.farWrites = [] → Does .invalidationComplete s fun t =>
    (∀ e ∈ t.tcs, invCovers k j va n e = false) ∧ (∀ e ∈ s.tcs, invCovers k j va n e = false → e ∈ t.tcs) ∧ t.inv = none ∧
    on t XLT_INV_STATUS.busy = false ∧ rd t XLT_INV_STATUS.done = (rd s XLT_INV_STATUS.done + 1) % 2 ^ 32 ∧
    t = { s with tcs := t.tcs, inv := none, fields := t.fields } ∧ FieldsBut [(XLT_INV_STATUS.busy, 0), (XLT_INV_STATUS.done, 0)] s t)

/-- The state once the blocks before `block` of a share are written (R130). -/
def beforeBlock (s : State) (cx : Ctx) (q idx pos block : Nat) : State :=
  match readRecords s q cx (mmBody cx.desc).layoutVa (mmShapeSrc (mmBody cx.desc)) with
  | .ended u => u
  | .ready u lay shape =>
    match mmPlan cx.desc cx.cores lay shape with
    | some pl => if block < (shareBlocks pl pos).length then mmUpTo u pl q idx pos block 0 else u
    | none => u

/-- Events and counters of a die: arrays that drain, stall and abort (R125 to R132), beat meters (R127, R133), wing-memory refresh (R261 to
R264), copy-engine stalls (R282), and the commands that clear counters, which zero exactly what they name. -/
def Obligations.DieEventsUpdateTheirMeters : Prop :=
  (∀ (d : DieNo) (c : CoreNo) (a : Fin 8) s, kget s.arrays (8 * coreOf d c + a) 0 ≠ 1 ∨ joined s (coreOf d c) = true →
    exec (.arrayDrainEnd d c a) s = .next s) ∧
  (∀ (d : DieNo) (c : CoreNo) (a : Fin 8) s, kget s.arrays (8 * coreOf d c + a) 0 = 1 → joined s (coreOf d c) = false →
    Does (.arrayDrainEnd d c a) s fun t =>
      let w := coreOf d c / 64
      kfind t.arrays (8 * coreOf d c + a) = none ∧ kfind t.arrayJoin (coreOf d c) = none ∧
      t = { s with
        arrays := t.arrays, arrayJoin := t.arrayJoin, arrayWait := t.arrayWait, stalled := t.stalled, fields := t.fields } ∧
      (∀ k, k ≠ 8 * coreOf d c + a.val → kfind t.arrays k = kfind s.arrays k) ∧ (∀ e ∈ s.stalled, e.1 ≠ coreOf d c → e ∈ t.stalled) ∧
      FieldsBut [(WNG_STATUS.active, w), (DIE_STALL_STATUS.stalled_now, d), (DIE_BEAT_BUSY.busy_beats, w), (DIE_BEAT_WAIT.wait_beats, w)] s t ∧
      rd t WNG_STATUS.active w = rd s WNG_STATUS.active w - 1) ∧
  (∀ (d : DieNo) (c : CoreNo) (g : Fin 5) s, stallable s (coreOf d c) = false → exec (.arrayStall d c g) s = .next s) ∧
  (∀ (d : DieNo) (c : CoreNo) (g : Fin 5) s, stallable s (coreOf d c) = true → Does (.arrayStall d c g) s fun t =>
    (coreOf d c, g.val) ∈ t.stalled ∧ (∀ e ∈ s.stalled, e ∈ t.stalled) ∧
    rd t DIE_STALL_STATUS.stalls d = min (rd s DIE_STALL_STATUS.stalls d + 1) 65535 ∧ rd t DIE_STALL_STATUS.last_core d = c ∧
    rd t DIE_STALL_STATUS.last_stage d = g ∧ on t DIE_STALL_STATUS.stalled_now d = true ∧
    (on s DIE_ARR_CTL.stall_event_en d = true → Latched t (srcDie d 1)) ∧
    t = { s with stalled := t.stalled, fields := t.fields } ∧
    FieldsBut ([(DIE_STALL_STATUS.stalls, d), (DIE_STALL_STATUS.last_core, d), (DIE_STALL_STATUS.last_stage, d),
      (DIE_STALL_STATUS.stalled_now, d)].map (fun p => (p.1, p.2.val)) ++ (if on s DIE_ARR_CTL.stall_event_en d then evtWords (srcDie d 1) else [])) s t) ∧
  (∀ (d : DieNo) (c : CoreNo) (b : BitVec 32) s, rd s DIE_ARR_CTL.stall_abort d = 0 ∨ coreOf d c ∈ s.sec.halted → exec (.arrayAbort d c b) s = .next s) ∧
  (∀ (d : DieNo) (c : CoreNo) (b : BitVec 32) s n q idx cx cx', rd s DIE_ARR_CTL.stall_abort d ≠ 0 → coreOf d c ∉ s.sec.halted →
    (s.coreShares.find? fun e => e.1 == coreOf d c) = some (n, q, idx) → findCtx s q idx = some cx → descOpcode cx.desc = opMatmul → sharesRun s q cx = true →
    let pos := (cx.cores.idxOf? (coreOf d c)).getD 0
    let u := beforeBlock s cx q idx pos b.toNat
    findCtx u q idx = some cx' → (cx'.phase = .running ∨ cx'.phase = .stopped) → (coreOf d c, q, idx) ∈ u.coreShares →
    arraysActive u (coreOf d c) = true →
    Does (.arrayAbort d c b) s fun t => Latched t (srcDie d 0) ∧ (coreOf d c, q, idx) ∉ t.coreShares ∧
      rd t DIE_STALL_STATUS.aborts d = min (rd u DIE_STALL_STATUS.aborts d + 1) 65535 ∧ (∀ e ∈ t.stalled, e.1 ≠ coreOf d c) ∧
      (∀ i < 8, kfind t.arrays (8 * coreOf d c + i) = none) ∧ t.mem = u.mem ∧
      (findCtx t q idx).map (fun x => (x.phase, (kfind x.stops pos).map (·.status))) = some (.stopped, some stTimeout)) ∧
  (∀ (d : DieNo) s, Does (.arrayClearCounts d) s fun t => rd t DIE_STALL_STATUS.stalls d = 0 ∧ rd t DIE_STALL_STATUS.aborts d = 0 ∧
    OnlyFields [(DIE_STALL_STATUS.stalls, d), (DIE_STALL_STATUS.aborts, d)] s t) ∧
  (∀ (d : DieNo) (a : WingNo) (m : BitVec 16) s,
    let w := wingOf d a
    (rd s WNG_STATUS.state w ≠ 0 → Does (.beatMeterInterval d a m) s fun t => rd t DIE_BEAT_RATE.rate w = 0 ∧ w ∉ t.beatLeft ∧
      t = { s with beatLeft := t.beatLeft, fields := t.fields } ∧ FieldsBut [(DIE_BEAT_RATE.rate, w)] s t) ∧
    (rd s WNG_STATUS.state w = 0 → w ∈ s.beatLeft → Does (.beatMeterInterval d a m) s fun t => w ∉ t.beatLeft ∧
      (∀ x ≠ w, x ∈ s.beatLeft → x ∈ t.beatLeft) ∧ t = { s with beatLeft := t.beatLeft }) ∧
    (rd s WNG_STATUS.state w = 0 → w ∉ s.beatLeft → Does (.beatMeterInterval d a m) s fun t => rd t DIE_BEAT_RATE.rate w = m.toNat ∧
      rd t DIE_BEAT_RATE.rate_max w = max m.toNat (rd s DIE_BEAT_RATE.rate_max w) ∧
      rd t DIE_BEAT_RATE.rate_min w = (if rd s DIE_BEAT_RATE.rate_max w = 0 then m.toNat else min m.toNat (rd s DIE_BEAT_RATE.rate_min w)) ∧
      OnlyFields [(DIE_BEAT_RATE.rate, w), (DIE_BEAT_RATE.rate_max, w), (DIE_BEAT_RATE.rate_min, w)] s t)) ∧
  (∀ (d : DieNo) (a : WingNo) s, Does (.beatClearExt d a) s fun t =>
    rd t DIE_BEAT_RATE.rate_min (wingOf d a) = 0 ∧ rd t DIE_BEAT_RATE.rate_max (wingOf d a) = 0 ∧
    OnlyFields [(DIE_BEAT_RATE.rate_min, wingOf d a), (DIE_BEAT_RATE.rate_max, wingOf d a)] s t) ∧
  (∀ (d : DieNo) s, Does (.dieWrapClear d) s fun t => rd t DIE_WRAP_COUNT.wraps d = 0 ∧ rd t DIE_WRAP_COUNT.last_core d = 0 ∧
    OnlyFields [(DIE_WRAP_COUNT.wraps, d), (DIE_WRAP_COUNT.last_core, d)] s t) ∧
  (∀ (d : DieNo) (a : WingNo) (b : Fin 32) (r : Fin 1024) s,
    let w := wingOf d a
    let k := w * 2 ^ 15 + b.val * 2 ^ 10 + r.val
    let n := (kget s.wingRefs k 0 + 1) % 256
    (rd s WNG_STATUS.state w = 3 → exec (.wingRefresh d a b r) s = .next s) ∧
    (rd s WNG_STATUS.state w ≠ 3 → Does (.wingRefresh d a b r) s fun t => kget t.wingRefs k 0 = n ∧ t.mem = s.mem ∧
      (n ≠ 0 ∨ on s DIE_MEM_CTL.scrub_en d = false → t = { s with wingRefs := t.wingRefs }))) ∧
  (∀ (d : DieNo) (a : WingNo) (h : BitVec 8) s, h.toNat ≠ wingHottest s (wingOf d a) → exec (.refreshIntervalChange d a h) s = .next s) ∧
  (∀ (d : DieNo) (a : WingNo) (h : BitVec 8) s, h.toNat = wingHottest s (wingOf d a) → Does (.refreshIntervalChange d a h) s fun t =>
    let w := wingOf d a
    let auto := autoRefresh (kget s.wingAuto w 100) h.toNat
    kget t.wingAuto w 100 = auto ∧ t = { s with wingAuto := t.wingAuto, fields := t.fields } ∧ FieldsBut [(DIE_REFRESH.interval, d)] s t ∧
    rd t DIE_REFRESH.interval d / 2 ^ (8 * a.val) % 256 = (if rd s WNG_STATUS.state w = 3 then 0 else min auto (rd s DIE_MEM_CTL.refresh_cap d)) ∧
    (∀ b < 4, b ≠ a.val → rd t DIE_REFRESH.interval d / 2 ^ (8 * b) % 256 = rd s DIE_REFRESH.interval d / 2 ^ (8 * b) % 256)) ∧
  (∀ (d : DieNo) (cl : ClusterNo) s n q idx, (s.copyShares.find? fun e => e.1 == 32 * d.val + cl.val) = some (n, q, idx) →
    let halted := ∃ i < 8, 8 * (32 * d.val + cl.val) + i ∈ s.sec.halted
    (qState s q = qsFaulted ∨ halted → exec (.copyStall d cl) s = .next s) ∧
    (qState s q ≠ qsFaulted → ¬halted → Does (.copyStall d cl) s fun t => rd t DIE_COPY_STATUS.copy_stalls d = min (rd s DIE_COPY_STATUS.copy_stalls d + 1) 65535 ∧
      Latched t (srcDie d 11) ∧ OnlyFields ((DIE_COPY_STATUS.copy_stalls, d.val) :: evtWords (srcDie d 11)) s t)) ∧
  (∀ (d : DieNo) s, Does (.memClearCounts d) s fun t =>
    let fs := [DIE_MEM_ECC.wing_ue, DIE_MEM_ECC.wing_ce, DIE_MEM_ECC.tile_ue, DIE_MEM_ECC.tile_ce, DIE_COPY_STATUS.copy_stalls,
      DIE_MEM_LAST_UE.valid, DIE_MEM_LAST_UE.memory, DIE_MEM_LAST_UE.unit, DIE_MEM_LAST_UE.offset]
    (∀ f ∈ fs, rd t f d = 0) ∧ OnlyFields (fs.map fun f => (f, d.val)) s t)

/-! ### Stacked memory and the far tier (file 08) -/

/-- Stacks: patrol and its counts (R293, R295), remaps of due rows (R296 to R298), temperature (R300), self-refresh exit (R301), failure (R302),
initialisation with zeroed contents (R299), and repairs asked for in BRINGUP (R303). -/
def Obligations.StacksKeepAndRepairTheirRows : Prop :=
  (∀ (w : StackNo) s, (rd s STK_CTL.patrol_hours w = 0 ∨ rd s STK_STATUS.state w ≠ 2 → exec (.stkPatrol w) s = .next s) ∧
    (rd s STK_CTL.patrol_hours w ≠ 0 → rd s STK_STATUS.state w = 2 → Does (.stkPatrol w) s fun t => t.mem = s.mem ∧ t.ue = s.ue ∧
      t.ce = s.ce.filter (fun u => u / 2 ^ 36 != w.val) ∧
      rd t STK_ECC.ce w = min (rd s STK_ECC.ce w + (s.ce.filter fun u => u / 2 ^ 36 == w.val).length) (2 ^ 32 - 1) ∧
      rd t STK_ECC.ue w = min (rd s STK_ECC.ue w + (s.ue.filter fun u => u / 2 ^ 36 == w.val).length) 65535 ∧
      ((∃ u ∈ s.ue, u / 2 ^ 36 = w) → on t STK_LAST_UE.valid w = true ∧ on t STK_LAST_UE.source w = true))) ∧
  (∀ (w : StackNo) s row cause, (s.remapDue.find? fun r => r.1 / 2 ^ 27 == w.val) = some (row, cause) →
    let ch := rowChan row % 32
    let held := sparesHeld s w ch (row / 2 ^ 21 % 2) (row / 2 ^ 16 % 32)
    let free := (List.range 64).find? fun e => !(spareTaken s w ch).contains e
    (∀ e, free = some e → held.length < (spareRows s w).2 → Does (.rowRemap w) s fun t =>
      let i := spareIdx w ch e
      on t STK_SPARE_DATA.valid i = true ∧ rd t STK_SPARE_DATA.row i = row % 2 ^ 16 ∧ rd t STK_SPARE_DATA.bank i = row / 2 ^ 16 % 32 ∧
      rd t STK_SPARE_DATA.pc i = row / 2 ^ 21 % 2 ∧ rd t STK_SPARE_DATA.cause i = cause % 2 ∧
      (rd s STK_INFO.height w ≤ 32 → rd t STK_SPARE_DATA.spare i ∉ held ∧
        (spareRows s w).1 ≤ rd t STK_SPARE_DATA.spare i ∧ rd t STK_SPARE_DATA.spare i < rd s STK_INFO.height w * 2048) ∧
      (∀ x ∈ spareUsed s w ch, row / 2 ^ 27 = w → redirects s row x = true → on t STK_SPARE_DATA.valid (spareIdx w ch x) = false ∧
        spareIdx w ch x ∈ t.spareDead) ∧
      (∀ r ∈ t.remapDue, r.1 ≠ row) ∧ (∀ u ∈ t.ce, u < 80 * 2 ^ 36 → rowOf u ≠ row) ∧ t.ue = s.ue ∧
      t = { s with
        ce := t.ce, spareDead := t.spareDead, remapDue := t.remapDue, rowWatch := t.rowWatch, free := t.free, fields := t.fields }) ∧
    (free = none ∨ (spareRows s w).2 ≤ held.length → s.spareOut.contains (rowChan row) = false →
      Does (.rowRemap w) s fun t => Latched t (srcDie (w.val / 2) 5) ∧ rowChan row ∈ t.spareOut ∧ (∀ r ∈ t.remapDue, r.1 ≠ row) ∧ t.mem = s.mem ∧
        FieldsBut (evtWords (srcDie (w.val / 2) 5)) s t) ∧
    (free = none ∨ (spareRows s w).2 ≤ held.length → s.spareOut.contains (rowChan row) = true →
      Does (.rowRemap w) s fun t => (∀ r ∈ t.remapDue, r.1 ≠ row) ∧ t = { s with remapDue := t.remapDue, rowWatch := t.rowWatch })) ∧
  (∀ (w : StackNo) (c : BitVec 8) s, Does (.stkRefreshChange w c) s fun t => rd t STK_STATUS.temp w = c.toNat ∧
    on t STK_STATUS.hot w = (if 85 < c.toNat then true else if c.toNat ≤ 81 then false else on s STK_STATUS.hot w) ∧
    OnlyFields [(STK_STATUS.temp, w), (STK_STATUS.hot, w)] s t) ∧
  (∀ (w : StackNo) s,
    (rd s STK_STATUS.state w ≠ 3 ∨ dieHeld s (w.val / 2) = true ∨ dieTripped s (w.val / 2) = true → exec (.selfRefreshExit w) s = .next s) ∧
    (rd s STK_STATUS.state w = 3 → dieHeld s (w.val / 2) = false → dieTripped s (w.val / 2) = false → 2 ≤ dieFloor s →
      exec (.selfRefreshExit w) s = .next s) ∧
    (rd s STK_STATUS.state w = 3 → dieHeld s (w.val / 2) = false → dieTripped s (w.val / 2) = false → dieActive s (w.val / 2) = true →
      dieFloor s < 2 → rd s DIE_STATUS.die_state (w.val / 2) = 2 →
      Does (.selfRefreshExit w) s fun t => rd t DIE_STATUS.die_state (w.val / 2) = 1 ∧ rd t STK_STATUS.state w = 2 ∧
        OnlyFields [(DIE_STATUS.die_state, w.val / 2), (STK_STATUS.state, 2 * (w.val / 2)), (STK_STATUS.state, 2 * (w.val / 2) + 1)] s t)) ∧
  (∀ (w : StackNo) s, Does (.stkFailed w) s fun t => rd t STK_STATUS.state w = 4 ∧ Latched t (srcDie (w.val / 2) 3) ∧
    (s.hst.resetKind = none → (unitState s (40 + w) = 1 → unitState t (40 + w) = 3) ∧ (unitState s (w.val / 2) = 1 → unitState t (w.val / 2) = 3) ∧
      t.mem = s.mem ∧ ((∀ p < 5, portUp s p = false) → t = { s with fields := t.fields })) ∧
    (s.hst.resetKind.isSome = true → unitState s (w.val / 2) = 1 ∨ unitState s (w.val / 2) = 3 →
      unitState t (w.val / 2) = 4 ∧ rd t PNL_UNIT_DATA.origin (w.val / 2) = 1 ∧ rd t DIE_STATUS.die_state (w.val / 2) = 3 ∧
      (w.val / 2 ∈ t.fuseRecs ∨ w.val / 2 ∈ t.storeRecs))) ∧
  (∀ (w : StackNo) s, (rd s STK_STATUS.state w ≠ 1 ∨ stackExcluded s w = true → exec (.stkInit w) s = .next s) ∧
    (rd s STK_STATUS.state w = 1 → stackExcluded s w = false → Does (.stkInit w) s fun t => (∀ r ∈ t.rowWatch, r.1 / 2 ^ 27 ≠ w) ∧ (∀ r ∈ t.remapDue, r.1 / 2 ^ 27 ≠ w) ∧
      (∀ r ∈ t.spareOut, r / 32 ≠ w) ∧
      (on s STK_CTL.bringup w = true → rd t STK_STATUS.state w = 5 ∧ t.mem = s.mem) ∧
      (on s STK_CTL.bringup w = false → rd t STK_STATUS.state w = 2 ∧
        ∀ a, memByte t.mem a = if w * 2 ^ 36 ≤ a ∧ a < (w + 1) * 2 ^ 36 then 0 else memByte s.mem a))) ∧
  (∀ (w : StackNo) s, Does (.stkClearCounts w) s fun t =>
    let fs := [STK_ECC.ce, STK_ECC.ue, STK_LAST_UE.valid, STK_LAST_UE.source, STK_LAST_UE.offset]
    (∀ f ∈ fs, rd t f w = 0) ∧ OnlyFields (fs.map fun f => (f, w.val)) s t) ∧
  (∀ (w : StackNo) k (r : BitVec 16) s, Does (.stkPprGo w k r) s fun t => on t STK_PPR_CMD.kind w = k ∧ rd t STK_PPR_CMD.row w = r.toNat ∧
    (rd s STK_STATUS.state w = 5 ∧ on s STK_PPR_CMD.busy w = false → on t STK_PPR_CMD.busy w = true ∧
      OnlyFields [(STK_PPR_CMD.kind, w), (STK_PPR_CMD.row, w), (STK_PPR_CMD.busy, w)] s t) ∧
    (rd s STK_STATUS.state w ≠ 5 ∨ on s STK_PPR_CMD.busy w = true → on t STK_STATUS.cfg_ignored w = true ∧
      OnlyFields [(STK_PPR_CMD.kind, w), (STK_PPR_CMD.row, w), (STK_STATUS.cfg_ignored, w)] s t)) ∧
  (∀ (w : StackNo) fails s, on s STK_PPR_CMD.busy w = true → Does (.pprDone w fails) s fun t =>
    let i := w * 2048 + rd s STK_PPR_SEL.channel w * 64 + rd s STK_PPR_SEL.bank w
    let left := if on s STK_PPR_CMD.kind w then rd s STK_PPR_DATA.hard_left i else rd s STK_PPR_DATA.soft_free i
    on t STK_PPR_CMD.busy w = false ∧ rd t STK_PPR_CMD.result w = (if left = 0 then 1 else if fails then 2 else 0) ∧
    (if on s STK_PPR_CMD.kind w then rd t STK_PPR_DATA.hard_left i else rd t STK_PPR_DATA.soft_free i) = (if left = 0 ∨ fails = true then left else left - 1) ∧
    OnlyFields [(STK_PPR_CMD.busy, w), (STK_PPR_CMD.result, w), (STK_PPR_DATA.hard_left, i), (STK_PPR_DATA.soft_free, i)] s t)

/-- The outstanding posted writes of a far port lie in the far tier. -/
def FarWritesAreFar (s : State) (f : Nat) : Prop := ∀ w ∈ s.farWrites, w.port = f → 2 ^ 51 ≤ w.addr ∧ w.addr + w.data.length ≤ 2 ^ 52

/-- The same posted writes, up to the replies of remote requests that wait for them (R396); the very same where none of the lost writes is a
remote request's. -/
def WritesLeft (lost left found : List FarWrite) : Prop :=
  found.map (fun w => { w with replies := [] }) = left.map (fun w => { w with replies := [] }) ∧ ((∀ w ∈ lost, w.queue ≠ noQueue) → found = left)

/-- The far tier (R305, R306, R308, R309): enabling brings the ports' pending enables into force; a posted write is performed when its completion
comes, and a write with no answer fails with TIMEOUT, applied or not; a port whose link goes down fails all of its writes. -/
def Obligations.FarPortsFollowTheirLinks : Prop :=
  (∀ s, Does (.farEnable false) s fun t => on t FAR_CTL.enable = false ∧ OnlyFields [(FAR_CTL.enable, 0)] s t) ∧
  (∀ s, on s FAR_CTL.enable = false → Does (.farEnable true) s fun t => on t FAR_CTL.enable = true ∧ on t FAR_STATUS.cfg_pending = false ∧
    (∀ f < 4, inForce t FAR_PORT_CTL.port_en f = rd s FAR_PORT_CTL.port_en f) ∧ t = { s with force := t.force, fields := t.fields } ∧
    FieldsBut [(FAR_CTL.enable, 0), (FAR_STATUS.cfg_pending, 0)] s t) ∧
  (∀ (f : FarPort) s w ws, s.farWrites.filter (·.port == f.val) = w :: ws → Does (.farAccessTimeout f) s fun t =>
    WritesLeft [w] (s.farWrites.filter (· != w)) t.farWrites ∧ rd t FAR_PORT_ERR.timeouts f = min (rd s FAR_PORT_ERR.timeouts f + 1) 65535 ∧
    (t.mem = s.mem ∨ t.mem = memPutList s.mem w.addr w.data) ∧
    (w.queue < 4096 → findCtx t w.queue w.idx = (findCtx s w.queue w.idx).map (fun c => { c with status := stWorse c.status stTimeout }))) ∧
  (∀ (f : FarPort) s, (∀ w ∈ s.farWrites, w.port ≠ f.val) → Does (.farAccessTimeout f) s fun t => f.val ∈ t.farMute ∧ t = { s with farMute := t.farMute }) ∧
  (∀ (f : FarPort) s, (on s FAR_PORT_STATUS.link_up f = false → exec (.farLinkDown f) s = .next s) ∧
    (on s FAR_PORT_STATUS.link_up f = true → Does (.farLinkDown f) s fun t => on t FAR_PORT_STATUS.link_up f = false ∧
      rd t FAR_PORT_STATUS.rate f = 0 ∧ rd t FAR_PORT_STATUS.width f = 0 ∧ Latched t (0x01C + f) ∧
      rd t FAR_PORT_ERR.link_downs f = min (rd s FAR_PORT_ERR.link_downs f + 1) 65535 ∧
      WritesLeft (s.farWrites.filter (·.port == f.val)) (s.farWrites.filter (·.port != f.val)) t.farWrites ∧
      (FarWritesAreFar s f → FieldsBut ([(FAR_PORT_STATUS.link_up, f.val), (FAR_PORT_STATUS.rate, f.val), (FAR_PORT_STATUS.width, f.val), (FAR_PORT_ERR.link_downs, f.val),
        (FAR_PORT_ERR.timeouts, f.val)] ++ evtWords (0x01C + f)) s t))) ∧
  (∀ (f : FarPort) (r : Fin 4) (w : BitVec 5) s, r.val = 0 ∨ 2 ≤ dieFloor s ∨ inForce s FAR_PORT_CTL.port_en f = 0 →
    exec (.farLinkUp f r w) s = .next s) ∧
  (∀ (f : FarPort) (r : Fin 4) (w : BitVec 5) s, r.val ≠ 0 → dieFloor s < 2 → inForce s FAR_PORT_CTL.port_en f ≠ 0 → Does (.farLinkUp f r w) s fun t =>
    on t FAR_PORT_STATUS.link_up f = true ∧ rd t FAR_PORT_STATUS.rate f = r ∧ rd t FAR_PORT_STATUS.width f = w.toNat ∧
    OnlyFields [(FAR_PORT_STATUS.link_up, f), (FAR_PORT_STATUS.rate, f), (FAR_PORT_STATUS.width, f)] s t) ∧
  (∀ (f : FarPort) s w, s.farWrites.find? (·.port == f.val) = some w → Does (.farWriteComplete f) s fun t =>
    t.mem = memPutList s.mem w.addr w.data ∧ WritesLeft [w] (s.farWrites.erase w) t.farWrites ∧ t.queues = s.queues ∧
    (FarWritesAreFar s f → t.fields = s.fields) ∧ (FarWritesAreFar s f → w.replies = [] → t = { s with mem := t.mem, ue := t.ue, ce := t.ce, farWrites := t.farWrites })) ∧
  (∀ (f : FarPort) s, (∀ w ∈ s.farWrites, w.port ≠ f.val) → exec (.farWriteComplete f) s = .next s) ∧
  (∀ (f : FarPort) (r : Fin 4) (w : BitVec 5) (dev : W64) s, 2 ≤ dieFloor s → exec (.farPortRetrain f r w dev) s = .next s) ∧
  (∀ (f : FarPort) (r : Fin 4) (w : BitVec 5) (dev : W64) s, dieFloor s < 2 → Does (.farPortRetrain f r w dev) s fun t =>
    let up := r.val ≠ 0 ∧ inForce s FAR_PORT_CTL.port_en f = 1
    (up → on t FAR_PORT_STATUS.link_up f = true ∧ rd t FAR_PORT_STATUS.rate f = r ∧ rd t FAR_PORT_STATUS.width f = w.toNat ∧
      (on t FAR_PORT_STATUS.device f = true ↔ dev ≠ 0) ∧ rd t FAR_PORT_STATUS.capacity f = min dev.toNat (4 * 10 ^ 12) / 2 ^ 28) ∧
    (¬up → on t FAR_PORT_STATUS.link_up f = false ∧ rd t FAR_PORT_STATUS.rate f = 0 ∧ rd t FAR_PORT_STATUS.width f = 0 ∧
      on t FAR_PORT_STATUS.device f = false ∧ rd t FAR_PORT_STATUS.capacity f = 0 ∧
      (on s FAR_PORT_STATUS.link_up f = true → Latched t (0x01C + f) ∧
        rd t FAR_PORT_ERR.link_downs f = min (rd s FAR_PORT_ERR.link_downs f + 1) 65535)) ∧
    WritesLeft (s.farWrites.filter (·.port == f.val)) (s.farWrites.filter (·.port != f.val)) t.farWrites)

/-! ### Tecen links and the UCIe sites (file 09) -/

/-- Both ends of a link show a state, a mask of lane groups and its width. -/
def LinkShows (t : State) (n st mask : Nat) : Prop :=
  ∀ m ∈ linkSites n, rd t TCN_STATUS.state m = st ∧ rd t TCN_STATUS.active_mask m = mask ∧ rd t TCN_STATUS.width m = popCount 16 mask

/-- A lane test of a group, with the lanes that the receiver has measured as low counted as failed (R317, R326). -/
def lowCounted (s : State) (r g : Nat) (x : LaneTest) : LaneTest := { x with failed := x.failed ||| lowSet s r g }

/-- The lane groups of a receiver that pass a training's test of fresh groups (R317, Table 9.2 step 3). -/
def passMask (s : State) (r : Nat) (ts : List LaneTest) : Nat :=
  ((List.range 16).filter fun g =>
    match ts[g]? with | some x => (repairGroup groupFresh (lowCounted s r g x)).works | none => false).foldl (fun m g => m + 2 ^ g) 0

/-- Tecen links (R314 to R326): a flit that fails is answered with the last good one and sent again with the later ones, and after
lane_test_errors failures running its group's test is due; a lane test gives failed lanes to spares or retires the group at both ends, and below 8
groups the link goes OUT; a retrain starts both ends afresh; a training that both ends report to each other ends with the groups that pass at
both, one that they do not with the stored mask and TCN_DISAGREE; margins are recorded with their tick, and a low lane's group is tested. -/
def Obligations.LinksRepairAndTrain : Prop :=
  (∀ (d : DieNo) (e : EdgeNo) hub (g : Fin 16) (seq : BitVec 16) (later : Fin 64) s,
    let n := 4 * d.val + e.val
    let r := receiverOf n hub
    let run := match kfind s.tcnFails (16 * r + g) with | some (q, k) => if q == seq.toNat then k + 1 else 1 | none => 1
    (rd s TCN_STATUS.state n ≠ tcnUp ∨ bitOn (rd s TCN_STATUS.active_mask n) g = false → exec (.tcnReplay d ⟨⟨e, hub⟩, g, seq, later⟩) s = .next s) ∧
    (rd s TCN_STATUS.state n = tcnUp → bitOn (rd s TCN_STATUS.active_mask n) g = true → Does (.tcnReplay d ⟨⟨e, hub⟩, g, seq, later⟩) s fun t =>
      rd t TCN_ERR.crc_errors r = min (rd s TCN_ERR.crc_errors r + 1) (2 ^ 32 - 1) ∧
      t.outbox = .tcnReplay r g seq.toNat (later.val + 1) :: .tcnNak r g ((seq.toNat + 2 ^ 16 - 1) % 2 ^ 16) :: s.outbox ∧
      kfind t.tcnFails (16 * r + g) = some (seq.toNat, run) ∧
      (rd s TCN_CTL.lane_test_errors n ≤ run → 16 * r + g.val ∈ t.tcnTests) ∧ (run < rd s TCN_CTL.lane_test_errors n → t.tcnTests = s.tcnTests) ∧
      t = { s with
        outbox := t.outbox, tcnFails := t.tcnFails, tcnTests := t.tcnTests, fields := t.fields } ∧ FieldsBut [(TCN_ERR.crc_errors, r)] s t)) ∧
  (∀ (d : DieNo) (e : EdgeNo) hub (g : Fin 16) x s,
    let n := 4 * d.val + e.val
    let i := receiverOf n hub
    let r := repairGroup (getRepair s i g) (if on s TCN_CTL.proactive_spare n then lowCounted s i g x else x)
    let mask := bitClr (rd s TCN_STATUS.active_mask n) g
    let due := rd s TCN_STATUS.state n = tcnUp ∧ bitOn (rd s TCN_STATUS.active_mask n) g = true ∧ 16 * i + g.val ∈ s.tcnTests
    (¬due → exec (.tcnLaneTest d ⟨e, hub⟩ g x) s = .next s) ∧
    (due → r.works = true → Does (.tcnLaneTest d ⟨e, hub⟩ g x) s fun t => getRepair t i g = { r with works := true, spared := 0 } ∧
      16 * i + g.val ∉ t.tcnTests ∧ kfind t.tcnFails (16 * i + g) = none ∧
      t = { s with
        tcnTests := t.tcnTests, tcnFails := t.tcnFails, fields := t.fields } ∧
      (r.spared = 0 → rd t TCN_ERR.lanes_spared i = rd s TCN_ERR.lanes_spared i) ∧
      (r.spared ≠ 0 → rd t TCN_ERR.lanes_spared i = min (rd s TCN_ERR.lanes_spared i + r.spared) 255 ∧ Latched t (srcDie d 9)) ∧
      ∀ m, rd t TCN_STATUS.state m = rd s TCN_STATUS.state m ∧ rd t TCN_STATUS.active_mask m = rd s TCN_STATUS.active_mask m) ∧
    (due → r.works = false → Does (.tcnLaneTest d ⟨e, hub⟩ g x) s fun t => Latched t (srcDie d 7) ∧ t.mem = s.mem ∧ t.queues = s.queues ∧
      16 * i + g.val ∉ t.tcnTests ∧ bitOn (kget t.tcnLost i 0) g = true ∧
      (∀ m ∈ linkEnds n, on t TCN_REPAIR.retired (grpIdx m g) = true) ∧ (∀ m ∈ linkSites n, rd t TCN_STORED.mask m = mask) ∧
      (8 ≤ popCount 16 mask → LinkShows t n tcnUp mask) ∧ (popCount 16 mask < 8 → LinkShows t n tcnOut 0 ∧ Latched t (srcDie d 6)))) ∧
  (∀ (d : DieNo) (e : EdgeNo) s,
    let n := 4 * d.val + e.val
    (linkExists n = false → exec (.tcnRetrain d e) s = .next s) ∧
    (linkExists n = true → linkLive s n = true → unitInService s (linkUnit n) = true → Does (.tcnRetrain d e) s fun t => LinkShows t n tcnTraining 0 ∧
      (∀ m ∈ linkEnds n, ∀ g < 16, getRepair t m g = groupFresh ∧ on t TCN_REPAIR.retired (grpIdx m g) = false) ∧ t.mem = s.mem) ∧
    (linkExists n = true → linkLive s n = false ∨ unitInService s (linkUnit n) = false → Does (.tcnRetrain d e) s fun t =>
      ∀ m ∈ linkSites n, dieActive s (m / 4) = true → rd t TCN_STATUS.state m = tcnDown ∧ rd t TCN_STATUS.active_mask m = 0)) ∧
  (∀ (d : DieNo) (e : EdgeNo) mine theirs got gave s, mine.length = 16 → theirs.length = 16 →
    let n := 4 * d.val + e.val
    rd s TCN_STATUS.state n = tcnTraining →
    let full := s.tcnFull.contains (linkUnit n)
    let a := passMask s n mine
    let b := passMask s ((linkEnds n).getD 1 n) theirs
    let ra := if got then a &&& b else a
    let rb := if gave then a &&& b else b
    let agree := (got && gave && ra == rb)
    let mask := if agree then ra else if full then ra &&& rb else rd s TCN_STORED.mask n
    Does (.tcnTraining d e mine theirs got gave) s fun t =>
      (∀ m ∈ linkSites n, rd t TCN_STORED.mask m = mask) ∧ linkUnit n ∉ t.tcnFull ∧ (full = false ∨ 8 ≤ popCount 16 mask → t.mem = s.mem) ∧
      (∀ g x, mine[g]? = some x → g < 16 →
        let r := repairGroup groupFresh (lowCounted s n g x)
        r.works = true → r.spared ≠ 0 → Latched t (srcDie d 9)) ∧
      (8 ≤ popCount 16 mask → LinkShows t n tcnUp mask) ∧
      (popCount 16 mask < 8 → full = false → LinkShows t n tcnOut 0) ∧
      (popCount 16 mask < 8 → full = true → ∃ k ∈ (linkSites n).map (· / 4), unitState t k = 4) ∧
      (agree = false → full = false → ∀ m ∈ linkSites n, on t TCN_STATUS.disagree m = true ∧ Latched t (srcDie (m / 4) 8))) ∧
  (∀ (d : DieNo) (e : EdgeNo) hub ms (m : Margin) s,
    let n := 4 * d.val + e.val
    let x := receiverOf n hub
    let i := 2048 * x + 128 * m.group.val + m.lane.val
    rd s TCN_STATUS.state n = tcnUp ∨ rd s TCN_STATUS.state n = tcnTraining → Does (.tcnMarginMeasure d ⟨e, hub⟩ (ms ++ [m])) s fun t =>
      rd t TCN_MARGIN_DATA.timing i = m.timing.toNat ∧ rd t TCN_MARGIN_DATA.voltage i = m.voltage.toNat ∧
      rd t TCN_MARGIN_DATA.tick i = kget s.ticks d 0 % 2 ^ 32 ∧ on t TCN_CTL.margin_go n = false ∧
      (rd s TCN_STATUS.state n = tcnTraining → m.timing.toNat < rd s TCN_CTL.margin_min n → i ∈ t.lowLanes) ∧
      (rd s TCN_STATUS.state n = tcnUp → m.timing.toNat < rd s TCN_CTL.margin_min n → laneInService s x m.group m.lane = true → i ∈ t.lowLanes ∧
        (on s TCN_CTL.proactive_spare n = true → 16 * x + m.group.val ∈ t.tcnTests) ∧ (i ∉ s.lowLanes → Latched t (srcDie d 10))) ∧
      t = { s with
        lowLanes := t.lowLanes, tcnTests := t.tcnTests, fields := t.fields })

/-- A path over links from one node of the panel to another. -/
inductive OverLinks (links : List Nat) : Nat → Nat → Prop
  | here (v : Nat) : OverLinks links v v
  | hop {u v w : Nat} (h : (u, v) ∈ linkPairs links) (r : OverLinks links v w) : OverLinks links u w

/-- Routes (R328, R330, R331): over any links of the panel the distances reach exactly the nodes with a path, and an adaptive hop is over a
link and comes one hop nearer; ROUTE_TABLE_CHANGE lets the escape channels drain while new packets are held out of them, brings the links in service into the tables, marks
exactly the pairs with no path, and lets what waits go on by the new tables. -/
def Obligations.RoutesFollowLinksInService : Prop :=
  (∀ links dst v, (∀ u ∈ links, u ∈ linkUnits) → dst < 42 → ((kfind (hopsTo links dst) v).isSome = true ↔ OverLinks links v dst)) ∧
  (∀ links src dst w, adaptiveHop links src dst = some w → (src, w) ∈ linkPairs links ∧
    ∃ k, kfind (hopsTo links dst) src = some (k + 1) ∧ kfind (hopsTo links dst) w = some k) ∧
  (∀ s,
    let u := tcnDrain true s
    ∃ t, exec .routeTableChange s = .next (tcnDrain false t) ∧ t.routeLinks = linksUp u ∧
      (∀ v w, (w, v) ∈ t.cut ↔ v < 42 ∧ w < 42 ∧ (v < 40 → dieActive u v = true) ∧ (w < 40 → dieActive u w = true) ∧ ¬OverLinks (linksUp u) w v) ∧
      (t.cut ≠ [] → Latched t 0x007) ∧ t = { u with routeLinks := t.routeLinks, cut := t.cut, fields := t.fields } ∧ FieldsBut (evtWords 0x007) u t) ∧
  (∀ s hold, s.tcn = [] → tcnDrain hold s = s)

/-- Whether a command is outstanding at a site: sent to its die and neither answered nor failed, one stopped on a fault of the die's among them. -/
def OutstandingAt (c : Ctx) (site : SiteNo) : Prop :=
  siteOf c.cores = some site.val ∧ c.recheck = false ∧ (c.phase = .running ∨ c.phase = .stopped ∨ c.phase = .reported)

/-- From `s` to `t` every command of a site has failed with TIMEOUT, and the site has no link: its state is `st`. -/
def SiteFails (s t : State) (site : SiteNo) (st : Nat) : Prop :=
  (∀ q i c, findCtx s q i = some c → OutstandingAt c site →
    findCtx t q i = some { c with phase := .done, status := stWorse c.status stTimeout, result0 := 0 }) ∧
  rd t UCI_SITE_ERR.timeouts site = min (rd s UCI_SITE_ERR.timeouts site + (siteCmds s site).length) 65535 ∧
  rd t UCI_SITE_STATUS.state site = st ∧ rd t UCI_SITE_STATUS.rate site = 0 ∧ rd t UCI_SITE_STATUS.lanes site = 0 ∧ rd t UCI_SITE_STATUS.modules site = 0 ∧
  t = { s with uciL1 := s.uciL1.filter (· != site.val), queues := t.queues, fields := t.fields }

/-- The UCIe sites (R334, R337 to R340, Table 9.4): enabling trains the link, and disabling, retraining and a link that goes down fail the
site's commands; the identity message is recorded and makes the site READY or UNSUPPORTED; an answer ends its command, a command with none
times out; a requester die's reads and writes go through the command's address space, and other requests are refused and counted. -/
def Obligations.UciSitesServeTheirCommands : Prop :=
  (∀ (k : SiteNo) s, on s UCI_SITE_CTL.enable k = false → siteMayTrain s k = true → Does (.uciSiteEnable k true) s fun t => on t UCI_SITE_CTL.enable k = true ∧
    rd t UCI_SITE_STATUS.state k = 1 ∧ inForce t UCI_CTL.rate_max = rd s UCI_CTL.rate_max ∧ on t UCI_STATUS.cfg_pending = false ∧
    rd t UCI_SITE_STATUS.rate k = 0 ∧ t = { s with force := t.force, uciL1 := t.uciL1, fields := t.fields }) ∧
  (∀ (k : SiteNo) s, on s UCI_SITE_CTL.enable k = false → siteMayTrain s k = false → Does (.uciSiteEnable k true) s fun t =>
    on t UCI_SITE_CTL.enable k = true ∧ rd t UCI_SITE_STATUS.state k = rd s UCI_SITE_STATUS.state k) ∧
  (∀ (k : SiteNo) s, on s UCI_SITE_CTL.enable k = true → Does (.uciSiteEnable k false) s fun t => SiteFails s t k 0 ∧ on t UCI_SITE_CTL.enable k = false ∧
    (rd s UCI_SITE_STATUS.state k = 3 → Latched t (0x018 + k) ∧ rd t UCI_SITE_ERR.link_downs k = min (rd s UCI_SITE_ERR.link_downs k + 1) 65535)) ∧
  (∀ (k : SiteNo) s, on s UCI_SITE_CTL.enable k = true → siteMayTrain s k = true → Does (.uciRetrain k) s fun t => SiteFails s t k 1 ∧ Latched t (0x018 + k) ∧
      rd t UCI_SITE_ERR.link_downs k = min (rd s UCI_SITE_ERR.link_downs k + 1) 65535) ∧
  (∀ (k : SiteNo) s, on s UCI_SITE_CTL.enable k = false → exec (.uciSiteEnable k false) s = .next (wr s UCI_SITE_CTL.enable k 0)) ∧
  (∀ (k : SiteNo) s, on s UCI_SITE_CTL.enable k = false ∨ siteMayTrain s k = false → exec (.uciRetrain k) s = .next s) ∧
  (∀ (k : SiteNo) s, (rd s UCI_SITE_STATUS.state k ≠ 3 → exec (.uciSiteDown k) s = .next s) ∧
    (rd s UCI_SITE_STATUS.state k = 3 → Does (.uciSiteDown k) s fun t => SiteFails s t k 4 ∧ Latched t (0x018 + k) ∧
      rd t UCI_SITE_ERR.link_downs k = min (rd s UCI_SITE_ERR.link_downs k + 1) 65535)) ∧
  (∀ (k : SiteNo) (r : Fin 4) (l : Fin 65) (m : Fin 5) msg s, rd s UCI_SITE_STATUS.state k = 1 ∨ rd s UCI_SITE_STATUS.state k = 2 →
    Does (.uciIdentity k r l m msg) s fun t => rd t UCI_SITE_STATUS.rate k = min r.val (inForce s UCI_CTL.rate_max) ∧
      rd t UCI_SITE_STATUS.lanes k = l ∧ rd t UCI_SITE_STATUS.modules k = min m.val (2 ^ rd s UCI_SITE_CTL.modules_max k) ∧
      rd t UCI_SITE_INFO.vendor k = msg.vendor.toNat ∧ rd t UCI_SITE_INFO.device k = msg.device.toNat ∧ rd t UCI_SITE_INFO.engines k = msg.engines.toNat ∧
      rd t UCI_SITE_INFO.max_inflight k = msg.maxInflight.toNat ∧ on t UCI_SITE_INFO.requester k = msg.requester ∧
      rd t UCI_SITE_INFO.protocol k = msg.protocol.toNat ∧ t = { s with fields := t.fields } ∧
      (msg.protocol ≠ 1 ∨ msg.engines = 0 ∨ msg.maxInflight = 0 → rd t UCI_SITE_STATUS.state k = 5) ∧
      (msg.protocol = 1 → msg.engines ≠ 0 → msg.maxInflight ≠ 0 → rd t UCI_SITE_STATUS.state k = 3 ∧ Latched t (0x01A + k))) ∧
  (∀ (k : SiteNo) s, (rd s UCI_SITE_STATUS.state k = 3 ∧ siteInflight s k = 0 → Does (.uciL1Entry k) s fun t => k.val ∈ t.uciL1 ∧ t = { s with uciL1 := t.uciL1 }) ∧
    (rd s UCI_SITE_STATUS.state k ≠ 3 ∨ siteInflight s k ≠ 0 → exec (.uciL1Entry k) s = .next s)) ∧
  (∀ (k : SiteNo) (q : QueueNo) (i : BitVec 32) (st : BitVec 8) lo hi (r : W64) s c, siteCtx s k q i.toNat = some c → Does (.uciAnswer k q i st lo hi r) s fun t =>
    findCtx t q c.idx = some { c with phase := .done, status := st.toNat, low := lo, high := hi, result0 := r.toNat } ∧ t = { s with queues := t.queues } ∧
    ∀ p : Nat, p ≠ q → getQ t p = getQ s p) ∧
  (∀ (k : SiteNo) (q : QueueNo) (i : BitVec 32) w va n data s, on s UCI_SITE_INFO.requester k = false ∨ siteCtx s k q i.toNat = none →
    Does (.uciDieRequest k q i w va n data) s fun t => t.outbox = .uciReply k stRefused [] :: s.outbox ∧
      rd t UCI_SITE_ERR.refused k = min (rd s UCI_SITE_ERR.refused k + 1) 65535 ∧ t = { s with outbox := t.outbox, fields := t.fields } ∧
      FieldsBut [(UCI_SITE_ERR.refused, k)] s t) ∧
  (∀ (k : SiteNo) (q : QueueNo) (i : BitVec 32) (va : W64) (n : BitVec 12) data s c, on s UCI_SITE_INFO.requester k = true → siteCtx s k q i.toNat = some c →
    let asSite : State := { s with srcAt := some (40 + k.val) }
    (let g := readVa asSite 1280 (rd s QUE_Q_BIND.space q) va.toNat n.toNat
     (g.status = stOk → Does (.uciDieRequest k q i false va n data) s fun t => t = emit { g.s with srcAt := none } (.uciReply k stOk g.data)) ∧
     (g.status = stFaultPage ∨ g.status = stFaultPerm → Does (.uciDieRequest k q i false va n data) s fun t =>
       (findCtx t q c.idx).map (fun x => (x.phase, (kfind x.stops 0).map fun p => (p.status, p.va))) = some (.stopped, some (g.status, g.va)))) ∧
    (let w := writeVa asSite 1280 (rd s QUE_Q_BIND.space q) q c.idx va.toNat data
     w.2.1 = stOk → Does (.uciDieRequest k q i true va n data) s fun t => t = emit { w.1 with srcAt := none } (.uciReply k stOk []))) ∧
  (∀ (k : SiteNo) (q : QueueNo) (i : BitVec 32) s c, findCtx s q i.toNat = some c → OutstandingAt c k →
    Does (.uciCommandTimeout k q i) s fun t => findCtx t q c.idx = some { c with phase := .done, status := stWorse c.status stTimeout, result0 := 0 } ∧
      rd t UCI_SITE_ERR.timeouts k = min (rd s UCI_SITE_ERR.timeouts k + 1) 65535 ∧ t = { s with queues := t.queues, fields := t.fields } ∧
      FieldsBut [(UCI_SITE_ERR.timeouts, k)] s t)

/-! ### The Vikel fabric (file 10) -/

/-- From `s` to `t` a packet of a port's receive buffer is dropped: counted in `f`, and its credits are back at the sender (Table 10.12). -/
def Drops (s t : State) (f : Fld) (port : Nat) (p : Packet) : Prop :=
  rd t f = min (rd s f + 1) 65535 ∧ on t FAB_STATUS.drops_seen = true ∧ t.outbox = .fabCredit port (pktVc p) (pktUnits p) :: s.outbox ∧
  t = { s with outbox := t.outbox, fields := t.fields } ∧ FieldsBut [(f, 0), (FAB_STATUS.drops_seen, 0)] s t

/-- Whether a packet of a class crosses the panel now from one node to another (R327 to R330). -/
def Crosses (s : State) (cls a b : Nat) : Prop := (tcnWalk s false cls b maxHops ⟨a, none, false⟩).node = b

/-- From `s` to `t` a packet has gone out in flits of a lane in service of an engine of a port, and they stay in its retry
buffer of at most 768 flits (R454 to R456, R458). -/
def InLane (s t : State) (port n : Nat) (p : Packet) : Prop :=
  ∃ f i, f < 8 ∧ i < 16 ∧ laneState s n f i = lnUp ∧
    let k := pairIdx n f i
    let flits := dataFlits 2 (kget s.laneSeq k 0) (packPacket p)
    (∃ l, kget t.laneFlits k [] = l ++ cutFlits true 2 (kget s.laneSeq k 0) (packPacket p)) ∧ (kget t.laneFlits k []).length ≤ 768 ∧
    kget t.laneSeq k 0 = (kget s.laneSeq k 0 + flits.length) % 4096 ∧ (∀ j, j ≠ k → kfind t.laneSeq j = kfind s.laneSeq j) ∧
    t.outbox = .lane n f i (codewords (laneWord i (kget s.laneAck k 4095) 0 f) (idleFlit (rd s FAB_COORD.node) n f i) flits) ::
      .fabSend port (pktVc p) p :: s.outbox

/-- From `s` to `t` a packet leaves by a port from a node of the panel: its credits are spent until they return (R360, R376), and it crosses the
panel to an engine of the port, or waits on the panel's network (R330). -/
def GoesOut (s t : State) (src port : Nat) (p : Packet) : Prop :=
  let k := 16 * port + pktVc p
  let n := portEngine s port
  kget t.fabCredits k 0 + pktUnits p = kget s.fabCredits k 0 ∧
  (∀ j, j ≠ k → kfind t.fabCredits j = kfind s.fabCredits j) ∧ t.fabSent = s.fabSent ++ [(k, pktUnits p, p.epoch)] ∧
  t.fabTurn = servedTurn s.fabTurn port p ∧
  (Crosses s p.cls src (engineNode n) → t.tcn = s.tcn ∧
    ((∃ f i, f < 8 ∧ i < 16 ∧ laneState s n f i = lnUp) → InLane s t port n p) ∧
    ((∀ f i, f < 8 → i < 16 → laneState s n f i ≠ lnUp) → t.outbox = .fabSend port (pktVc p) p :: s.outbox)) ∧
  (¬Crosses s p.cls src (engineNode n) → t.outbox = s.outbox ∧
    ∃ w : TcnPkt, t.tcn = s.tcn ++ [w] ∧ w.pkt = p ∧ w.dst = engineNode n ∧ w.out = some (port, n)) ∧
  t = { s with
    outbox := t.outbox, fabCredits := t.fabCredits, fabSent := t.fabSent, fabTurn := t.fabTurn, tcn := t.tcn, laneSeq := t.laneSeq, laneFlits := t.laneFlits, free := t.free }

/-- Packets (R327, R350, R354, R360, R364 to R379): a route ends exactly at its destination; outputs serve MGT before RSP before the rest, and the
soonest packet first; an injected packet goes out by its route on credit, waits without it, and is dropped where the table has no route; a
received packet is dropped for a stated reason, forwarded or delivered to every unit it names and acknowledged; credits and acknowledgements free
what they name. -/
def Obligations.PacketsAreRoutedOnCredit : Prop :=
  (∀ s input (p : Packet), p.dirX ≤ 1 → p.dirY ≤ 1 → ((routePacket s input p).1 = 5 ↔
    nodeX p.dst = myX s ∧ nodeY p.dst = myY s ∧ nodeZ p.dst = myZ s)) ∧
  (∀ s port (p q : Packet), (p.cls = 3 ∧ q.cls ≠ 3) ∨ (p.cls = 1 ∧ q.cls ≠ 1 ∧ q.cls ≠ 3) → service s port p < service s port q) ∧
  (∀ s l, (inOrder s l).Perm l ∧ (inOrder s l).Pairwise fun a b => injRank s a.2 ≤ injRank s b.2) ∧
  (∀ s port l w, soonest s port l = some w → w ∈ l ∧ ∀ v ∈ l, service s port w.pkt ≤ service s port v.pkt) ∧
  (∀ s own p rest, inOrder s s.injQ = (own, p) :: rest → (∀ w ∈ s.fabWaits, w.output ≠ 5) →
    let u := { s with injQ := s.injQ.erase (own, p) }
    let p' := { p with epoch := rd s FAB_EPOCH.current, dl := 0 }
    let mode := bankEntry s p'.epoch p.dst / 4 % 4
    let r := routePacket u 5 { p' with set := mode }
    (p.mc ≠ 1 → nodeValid s p.dst = false → exec .packetInject s = .next (injFail (dropCount u FAB_DROPS2.bad_node) own)) ∧
    (on s FAB_CTL.enable = true → on s DATA_VIEW.panel_state = false → p.mc ≠ 1 → nodeValid s p.dst = true →
      (2 ≤ mode → exec .packetInject s = .next (injFail (dropCount u FAB_DROPS.unreachable) own)) ∧
      (mode < 2 → r.1 ≠ 5 → windowed u r.2 = false → portUp s r.1 = true → creditOk u r.1 r.2 = true →
        Does .packetInject s fun t => GoesOut u t (40 + primaryHub s) r.1 r.2) ∧
      (mode < 2 → r.1 ≠ 5 → windowed u r.2 = false → portUp s r.1 = true → creditOk u r.1 r.2 = false → rest = [] → exec .packetInject s = .next s)) ∧
    (on s FAB_CTL.enable = false → p.mc = 1 ∨ nodeValid s p.dst = true → rest = [] → exec .packetInject s = .next s)) ∧
  (∀ s own p rest, s.partnerWaits = (own, p) :: rest →
    (takeSlot s p ≠ .noEntry → exec .partnerEntryWait s = .next { s with partnerWaits := rest, injQ := (own, p) :: s.injQ }) ∧
    (takeSlot s p = .noEntry → exec .partnerEntryWait s = .next s)) ∧
  (∀ (i : Fin 5) p ue sp s,
    (on s FAB_CTL.enable = false → Does (.packetRoute i p ue sp) s fun t => Drops s t FAB_DROPS2.disabled i p) ∧
    (on s FAB_CTL.enable = true → portUp s i = false → exec (.packetRoute i p ue sp) s = .next (dropCount s FAB_DROPS.port_down)) ∧
    (on s FAB_CTL.enable = true → portUp s i = true →
      (ue = true → Does (.packetRoute i p ue sp) s fun t => Drops s t FAB_DROPS2.buf_ue i p) ∧
      (ue = false → bankState s p.epoch ≠ 2 → Does (.packetRoute i p ue sp) s fun t => Drops s t FAB_DROPS.epoch i p) ∧
      (ue = false → bankState s p.epoch = 2 → p.mc ≠ 1 →
        let r := routePacket s i p
        let here := engineNode (portEngine s i)
        let copies := (unitsNamed s r.2).map fun d => { r.2 with unit := d }
        let takesReq := s.rmtHeld.length < 1024 ∧ repliesOut s = true
        let u := { s with outbox := .fabCredit i (pktVc p) (pktUnits r.2) :: s.outbox }
        (r.1 ≠ 5 → portUp s r.1 = false → Does (.packetRoute i p ue sp) s fun t => rd t FAB_DROPS.port_down = min (rd s FAB_DROPS.port_down + 1) 65535) ∧
        (r.1 ≠ 5 → portUp s r.1 = true → creditOk s r.1 r.2 = true → Does (.packetRoute i p ue sp) s fun t => GoesOut u t here r.1 r.2) ∧
        (r.1 ≠ 5 → portUp s r.1 = true → creditOk s r.1 r.2 = false → Does (.packetRoute i p ue sp) s fun t =>
          t = { s with fabWaits := s.fabWaits ++ [⟨i, r.1, pktVc p, r.2⟩] }) ∧
        (r.1 = 5 → r.2.cls = 0 → ¬takesReq → Does (.packetRoute i p ue sp) s fun t =>
          t = { s with fabWaits := s.fabWaits ++ [⟨i, 5, pktVc p, r.2⟩] }) ∧
        (r.1 = 5 → viewDrop s r.2 = none → (r.2.cls = 0 → takesReq) →
          Does (.packetRoute i p ue sp) s fun t => t.mem = s.mem ∧
            (r.2.cls ≠ 1 → r.2.mc = 0 → r.2.src ≠ rd s FAB_COORD.node → (.none, ackPacket s r.2) ∈ t.injQ) ∧
            ((∀ d ∈ unitsNamed s r.2, Crosses s r.2.cls here d) →
              (r.2.cls = 0 → t.rmtHeld = s.rmtHeld ++ copies) ∧
              (r.2.cls = 1 → t = { u with rmtReplies := s.rmtReplies ++ copies }) ∧
              (r.2.cls = 2 → colType r.2 < 5 → t.collIn = s.collIn ++ copies))) ∧
        (∀ f, r.1 = 5 → r.2.cls ≠ 0 → viewDrop s r.2 = some f → Does (.packetRoute i p ue sp) s fun t => t = incSat u f)) ∧
      (ue = false → bankState s p.epoch = 2 → p.mc = 1 →
        let u := if sp then deliver s i p else dropCount s FAB_DROPS2.mcast_local
        (p.mcSpan ≤ 1 → Does (.packetRoute i p ue sp) s fun t => t = { u with outbox := .fabCredit i (pktVc p) (pktUnits p) :: u.outbox }) ∧
        (1 < p.mcSpan → Does (.packetRoute i p ue sp) s fun t =>
          t = forward u i (pktVc p) (mcHop u false p).1 { (mcHop u false p).2 with mcSpan := p.mcSpan - 1 })))) ∧
  (∀ (i : Fin 5) (vc : Fin 16) (n : BitVec 20) s,
    let k := 16 * i.val + vc.val
    (portUp s i = false → exec (.creditReturn i vc n) s = .next s) ∧
    (portUp s i = true → (∀ w ∈ s.fabWaits, w.output ≠ i.val) → Does (.creditReturn i vc n) s fun t =>
      kget t.fabCredits k 0 = kget s.fabCredits k 0 + n.toNat ∧ (∀ j, j ≠ k → kfind t.fabCredits j = kfind s.fabCredits j) ∧
      t = { s with fabCredits := t.fabCredits, fabSent := t.fabSent }) ∧
    (portUp s i = true → ∀ w, s.fabWaits = [w] → w.output = i.val → 16 * i.val + pktVc w.pkt = k → pktUnits w.pkt ≤ kget s.fabCredits k 0 + n.toNat →
      let u := { s with
        fabWaits := [], fabCredits := kput s.fabCredits k (kget s.fabCredits k 0 + n.toNat), fabSent := retireSent k n.toNat s.fabSent
        outbox := .fabCredit w.input w.vc (pktUnits w.pkt) :: s.outbox }
      (bufHole s w.input = true → exec (.creditReturn i vc n) s = .next (dropCount u FAB_DROPS2.buf_ue)) ∧
      (bufHole s w.input = false → Does (.creditReturn i vc n) s fun t => GoesOut u t (engineNode (portEngine s w.input)) i w.pkt))) ∧
  (∀ (n : BitVec 14) (c : Fin 4) s, (partnerOf s n.toNat c = none → exec (.windowAck n c) s = .next s) ∧
    ∀ i, partnerOf s n.toNat c = some i → Does (.windowAck n c) s fun t =>
      rd t FAB_PARTNER_DATA.outstanding i = rd s FAB_PARTNER_DATA.outstanding i - 1 ∧ OnlyFields [(FAB_PARTNER_DATA.outstanding, i)] s t) ∧
  (∀ (i : Fin 4096) s, Does (.windowSlotRelease i) s fun t =>
    rd t FAB_PARTNER_DATA.outstanding i = rd s FAB_PARTNER_DATA.outstanding i - 1 ∧ OnlyFields [(FAB_PARTNER_DATA.outstanding, i)] s t) ∧
  (∀ (n : BitVec 32) s w, s.fabWaits[n.toNat]? = some w → Does (.residenceDrop n) s fun t => t.fabWaits = s.fabWaits.eraseIdx n.toNat ∧
    t.outbox = .fabCredit w.input w.vc (pktUnits w.pkt) :: s.outbox ∧ rd t FAB_DROPS.residence = min (rd s FAB_DROPS.residence + 1) 65535 ∧
    t = { s with fabWaits := t.fabWaits, outbox := t.outbox, fields := t.fields } ∧ FieldsBut [(FAB_DROPS.residence, 0), (FAB_STATUS.drops_seen, 0)] s t)

/-- Ports, banks and the fabric's registers (R346, R347, R361, R373 to R380, R367): a port trains only with the neighbour expected of it and
starts with its credits; one that goes down drops and counts what it holds; a bank is loaded, freed and held; the fabric is enabled only with
a loaded bank, a valid position and its buffers; the clear zeroes the drops; pinned entries are an expert's and at most 1024. -/
def Obligations.FabricIsConfigured : Prop :=
  (∀ (i : Fin 5) (lost : BitVec 16) s, (portUp s i = false → lost = 0 → exec (.portDown i lost) s = .next s) ∧
    (portUp s i = false → lost ≠ 0 → Does (.portDown i lost) s fun t =>
      rd t FAB_DROPS.port_down = min (rd s FAB_DROPS.port_down + lost.toNat) 65535 ∧
      OnlyFields [(FAB_DROPS.port_down, 0), (FAB_STATUS.drops_seen, 0)] s t) ∧
    (portUp s i = true → Does (.portDown i lost) s fun t => portUp t i = false ∧ rd t FAB_PORT_STATUS.rtt_ns i = 0 ∧ on t FAB_PORT_STATUS.rate_limited i = false ∧
      t.fabWaits = s.fabWaits.filter (fun w => w.output != i.val && w.input != i.val) ∧ (∀ v < 16, kfind t.fabCredits (16 * i.val + v) = none) ∧
      (∀ e ∈ t.fabSent, e.1 / 16 ≠ i.val) ∧ (regionOk s i = false → Latched t 0x010) ∧
      rd t FAB_DROPS.port_down = min (rd s FAB_DROPS.port_down +
        ((s.fabWaits.filter fun w => w.output == i.val || w.input == i.val).length + lost.toNat)) 65535 ∧
      t = { s with fabWaits := t.fabWaits, fabCredits := t.fabCredits, fabSent := t.fabSent, outbox := t.outbox, fields := t.fields })) ∧
  (∀ (i : Fin 5) s n es, (portEngines i).filter (engineUp s) = n :: es → portUp s i = false →
    let rtt := (n :: es).foldl (fun m n => max m (rd s OPT_PARTNER.rtt_ns n)) 0
    (i.val < 4 → expectedNode s i ≠ some (rd s OPT_PARTNER.node n) → Does (.portTrain i) s fun t => Latched t 0x011 ∧ OnlyFields (evtWords 0x011) s t) ∧
    (i.val = 4 ∨ expectedNode s i = some (rd s OPT_PARTNER.node n) → Does (.portTrain i) s fun t => portUp t i = true ∧
      rd t FAB_PORT_STATUS.rtt_ns i = rtt ∧ (∀ v < 16, kget t.fabCredits (16 * i.val + v) 0 = 256) ∧
      (on t FAB_PORT_STATUS.rate_limited i = true ↔ rd s FAB_PORT_BUF.size_mib i * 2 ^ 20 < rd s FAB_PORT_STATUS.engines i * 1024 * (rtt + 2000)) ∧
      (∃ lent : List (Nat × Nat), t.outbox = lent.map (fun e => .fabCredit i e.1 e.2) ++ s.outbox ∧ (∀ e ∈ lent, e.1 < 16) ∧
        (lent.map (·.2)).sum = rd s FAB_PORT_BUF.size_mib i * 2 ^ 14 - 16 * 256) ∧
      t = { s with
        fabCredits := t.fabCredits, outbox := t.outbox, free := t.free, fields := t.fields } ∧
      FieldsBut [(FAB_PORT_STATUS.up, i.val), (FAB_PORT_STATUS.rtt_ns, i.val), (FAB_PORT_STATUS.rate_limited, i.val)] s t)) ∧
  (∀ s, Does (.fabEnable false) s fun t => on t FAB_CTL.enable = false ∧ OnlyFields [(FAB_CTL.enable, 0)] s t) ∧
  (∀ s, on s FAB_CTL.enable = false →
    let ready := bankState s (rd s FAB_EPOCH.current) = 2 ∧ coordOk s = true ∧ ∀ p ∈ portsUsed s, rd s FAB_PORT_BUF.size_mib p ≠ 0
    (¬ready → exec (.fabEnable true) s = .next (setBit s FAB_STATUS.cfg_ignored)) ∧
    (ready → Does (.fabEnable true) s fun t => on t FAB_CTL.enable = true ∧ on t FAB_STATUS.cfg_pending = false ∧
      inForce t FAB_CTL.req_win_en = rd s FAB_CTL.req_win_en ∧ inForce t FAB_CTL.col_win_en = rd s FAB_CTL.col_win_en ∧
      t = { s with force := t.force, fields := t.fields } ∧ FieldsBut [(FAB_CTL.enable, 0), (FAB_STATUS.cfg_pending, 0)] s t)) ∧
  (∀ (b : Fin 2) s, (bankState s b = 0 ∧ bankHold s b = 0 → Does (.bankLoad b) s fun t => bankState t b = 1 ∧
      kget t.bankLoads b 0 = rd s FAB_BANK_IMG.dpa / 64 * 64 ∧ t = { s with bankLoads := t.bankLoads, fields := t.fields }) ∧
    (¬(bankState s b = 0 ∧ bankHold s b = 0) → exec (.bankLoad b) s = .next (setBit s FAB_STATUS.cfg_ignored))) ∧
  (∀ (b : Fin 2) s u r, bankState s b = 1 → readImage (kget s.bankLoads b 0) 256 s = (u, r) →
    (∀ bs, r = .inl bs → Does (.bankLoadDone b) s fun t => bankState t b = 2 ∧ t.mem = u.mem ∧ kfind t.bankLoads b = none ∧
      (∀ i (h : i < bs.length), kget t.fabBanks (b.val * 16384 + i) 0 = bs[i].toNat) ∧
      (bs.length ≤ 16384 → ∀ i < 16384, kget t.fabBanks ((1 - b.val) * 16384 + i) 0 = kget s.fabBanks ((1 - b.val) * 16384 + i) 0)) ∧
    (r = .inr stUncorrectable → Does (.bankLoadDone b) s fun t => bankState t b = 0 ∧ Latched t 0x012 ∧ t.fabBanks = s.fabBanks) ∧
    (∀ st, r = .inr st → st ≠ stUncorrectable → exec (.bankLoadDone b) s = .next u)) ∧
  (∀ (b : Fin 2) s, (bankState s b ≠ 2 → exec (.bankFree b) s = .next s) ∧
    (bankState s b = 2 → rd s FAB_EPOCH.current = b → exec (.bankFree b) s = .next (setBit s FAB_STATUS.cfg_ignored)) ∧
    (bankState s b = 2 → rd s FAB_EPOCH.current ≠ b → Does (.bankFree b) s fun t => bankState t b = 0 ∧ bankHold t b = epochHold s ∧
      (∀ n < 16384, bankEntry t b n = 0 ∧ bankEntry t (1 - b.val) n = bankEntry s (1 - b.val) n) ∧
      t.fabWaits = s.fabWaits.filter (fun w => w.pkt.epoch != b.val) ∧
      rd t FAB_DROPS.epoch = min (rd s FAB_DROPS.epoch + (s.fabWaits.filter fun w => w.pkt.epoch == b.val).length) 65535)) ∧
  (∀ (b : Fin 2) s, Does (.epochHoldExpiry b) s fun t => bankHold t b = 0 ∧
    OnlyFields [(if b.val = 0 then FAB_BANK_STATUS.hold_a else FAB_BANK_STATUS.hold_b, 0)] s t) ∧
  (∀ s, Does .fabDropsClear s fun t =>
    let fs := [FAB_DROPS.unreachable, FAB_DROPS.residence, FAB_DROPS.port_down, FAB_DROPS.epoch, FAB_DROPS2.buf_ue, FAB_DROPS2.disabled,
      FAB_DROPS2.mcast_local, FAB_DROPS2.bad_node]
    (∀ f ∈ fs, rd t f = 0) ∧ OnlyFields (fs.map fun f => (f, 0)) s t) ∧
  (∀ (i : Fin 4096) pin (c : Fin 4) (n : BitVec 14) (w : BitVec 8) s,
    (rd s PNL_PROFILE.fabric ≠ 15 → exec (.partnerPin i pin c n w) s = .next (setBit s PNL_STATUS.profile_rejected)) ∧
    (rd s PNL_PROFILE.fabric = 15 → pin = true →
      (c.val = 1 ∨ (on s FAB_PARTNER_DATA.pin i = false ∧ 1024 ≤ pinCount s) → exec (.partnerPin i pin c n w) s = .next (setBit s FAB_STATUS.cfg_ignored)) ∧
      (c.val ≠ 1 ∧ (on s FAB_PARTNER_DATA.pin i = true ∨ pinCount s < 1024) → Does (.partnerPin i pin c n w) s fun t =>
        on t FAB_PARTNER_DATA.valid i = true ∧ on t FAB_PARTNER_DATA.pin i = true ∧ rd t FAB_PARTNER_DATA.cls i = c ∧
        rd t FAB_PARTNER_DATA.node i = n.toNat ∧ rd t FAB_PARTNER_DATA.window i = max 1 w.toNat ∧ t.partnerUse = s.partnerUse.filter (· != i.val) ++ [i.val] ∧
        t = { s with partnerUse := t.partnerUse, fields := t.fields })) ∧
    (rd s PNL_PROFILE.fabric = 15 → pin = false → on s FAB_PARTNER_DATA.pin i = true → Does (.partnerPin i pin c n w) s fun t =>
      on t FAB_PARTNER_DATA.pin i = false ∧ (rd s FAB_PARTNER_DATA.outstanding i = 0 → on t FAB_PARTNER_DATA.valid i = false ∧ i.val ∉ t.partnerUse) ∧
      (rd s FAB_PARTNER_DATA.outstanding i ≠ 0 → t.partnerUse = s.partnerUse ∧ rd t FAB_PARTNER_DATA.outstanding i = rd s FAB_PARTNER_DATA.outstanding i)))

/-! ### Optical engines (file 13) -/

/-- From `s` to `t` one lane pair of an engine goes to a state: the engine's other pairs keep theirs, and OPT_STATUS counts those that are UP. -/
def LaneBecomes (s t : State) (n : OptNo) (f : FibreNo) (i : LaneNo) (st : Nat) : Prop :=
  laneState t n f i = st ∧ (∀ g < 8, ∀ j < 16, (g, j) ≠ (f.val, i.val) → laneState t n g j = laneState s n g j) ∧
  rd t OPT_STATUS.lanes_up n = (allPairs.filter fun p => laneState t n p.1 p.2 == lnUp).length ∧ t.mem = s.mem ∧ t.queues = s.queues

/-- A lane pair is locked again, or RETIRED once relock_limit is reached within 10 s (R470, R472). -/
def LaneRelocks (s t : State) (n : OptNo) (f : FibreNo) (i : LaneNo) : Prop :=
  let past := (kget s.relockTicks (pairIdx n f i) []).filter fun k => since (hubTick s) k < tenSeconds
  rd t OPT_ERR.relocks n = min (rd s OPT_ERR.relocks n + 1) 255 ∧ kget t.relockTicks (pairIdx n f i) [] = past ++ [hubTick s] ∧
  (past.length + 1 < rd s OPT_CTL.relock_limit n → LaneBecomes s t n f i lnLocking) ∧
  (rd s OPT_CTL.relock_limit n ≤ past.length + 1 → LaneBecomes s t n f i lnRetired ∧ Latched t (srcOpt n 5) ∧
    rd t OPT_ERR.lanes_retired n = min (rd s OPT_ERR.lanes_retired n + 1) 255)

/-- Lane pairs (R452, R457 to R460, R463, R464, R470, R472): flits are asked for again and replayed; a lane locks, meets its partner, trains and
joins its port; a lost lock, a wrong lock and a bad interval take it out of service by their rules. -/
def Obligations.LanesLockTrainAndRetire : Prop :=
  (∀ (n : OptNo) (f : FibreNo) (i : LaneNo) ucw (q : BitVec 12) s, laneState s n f i = lnUp ∨ laneState s n f i = lnPaused →
    (Does (.flitNak n f i true ucw q) s fun t => t.outbox = .flitNak n f i (laneWord i q.toNat 1 f) :: s.outbox ∧ kget t.laneAck (pairIdx n f i) 4095 = q.toNat ∧
      rd t OPT_ERR.crc_errors n = min (rd s OPT_ERR.crc_errors n + 1) (2 ^ 32 - 1) ∧
      rd t OPT_FEC.uncorrectable n = (if ucw then min (rd s OPT_FEC.uncorrectable n + 1) (2 ^ 32 - 1) else rd s OPT_FEC.uncorrectable n) ∧
      (∀ k, k ≠ pairIdx n f i → kfind t.laneAck k = kfind s.laneAck k) ∧
      t = { s with
        outbox := t.outbox, laneAck := t.laneAck, fields := t.fields } ∧ FieldsBut [(OPT_ERR.crc_errors, n.val), (OPT_FEC.uncorrectable, n.val)] s t) ∧
    (Does (.flitNak n f i false ucw q) s fun t =>
      let l := kget t.laneFlits (pairIdx n f i) []
      l = flitsAfter q.toNat (kget s.laneFlits (pairIdx n f i) []) ∧ (∀ k, k ≠ pairIdx n f i → kfind t.laneFlits k = kfind s.laneFlits k) ∧
      t = { s with outbox := .flitReplay n f i ((q.toNat + 1) % 4096) (l.map LaneFlit.bytes) :: s.outbox, laneFlits := t.laneFlits }) ∧
    (Does (.flitAckTimeout n f i q) s fun t =>
      t = { s with outbox := .flitReplay n f i q.toNat (((kget s.laneFlits (pairIdx n f i) []).dropWhile (·.seq != q.toNat)).map LaneFlit.bytes) :: s.outbox })) ∧
  (∀ (n : OptNo) (d : Fin 2) (f : FibreNo) (i : LaneNo) (h : BitVec 16) (e : BitVec 8) held s, (optRuns s n = false → exec (.ringTune n d f i h e held) s = .next s) ∧
    (optRuns s n = true →
      let k := laneIdx n d f i
      let bad := held = true ∧ (e.toInt < -8 ∨ 8 < e.toInt) ∧ (laneState s n f i = lnUp ∨ laneState s n f i = lnPaused)
      (¬bad → Does (.ringTune n d f i h e held) s fun t => rd t OPT_LANE_DATA.heater k = h.toNat ∧ rd t OPT_LANE_DATA.lock_err k = e.toNat ∧
        OnlyFields [(OPT_LANE_DATA.heater, k), (OPT_LANE_DATA.lock_err, k)] s t) ∧
      (bad → Does (.ringTune n d f i h e held) s fun t => LaneRelocks s t n f i ∧ rd t OPT_LANE_DATA.heater k = h.toNat ∧
        rd t OPT_LANE_DATA.lock_err k = e.toNat))) ∧
  (∀ (n : OptNo) (f : FibreNo) (i : LaneNo) test lost s, laneState s n f i = lnUp ∨ laneState s n f i = lnPaused → Does (.wrongLock n f i test lost) s fun t =>
    LaneBecomes s t n f i (if laneFails s n f i test then lnWalking else lnLocking) ∧ kget t.laneFlits (pairIdx n f i) [] = [] ∧ Latched t (srcOpt n 1) ∧
    rd t OPT_ERR.wrong_locks n = min (rd s OPT_ERR.wrong_locks n + 1) 255) ∧
  (∀ (n : OptNo) (f : FibreNo) (i : LaneNo) s, laneState s n f i = lnWalking → Does (.walkComplete n f i) s fun t => LaneBecomes s t n f i lnTraining) ∧
  (∀ (n : OptNo) (f : FibreNo) (i : LaneNo) (db : BitVec 8) high (c u : BitVec 32) lost s, laneState s n f i = lnUp → Does (.berInterval n f i db high c u lost) s fun t =>
    rd t OPT_LANE_DATA.ber_db (laneIdx n 1 f i) = db.toNat ∧ rd t OPT_FEC.corrected n = min (rd s OPT_FEC.corrected n + c.toNat) (2 ^ 32 - 1) ∧
    rd t OPT_FEC.uncorrectable n = min (rd s OPT_FEC.uncorrectable n + u.toNat) (2 ^ 32 - 1) ∧
    (berHigh db.toNat high = true → (∀ k, kfind s.berTick (pairIdx n f i) = some k → oneSecond ≤ since (hubTick s) k) → Latched t (srcOpt n 4)) ∧
    (u.toNat < rd s OPT_CTL.ucw_limit n → laneState t n f i = lnUp ∧ t = { s with berTick := t.berTick, fields := t.fields }) ∧
    (rd s OPT_CTL.ucw_limit n ≤ u.toNat → LaneRelocks s t n f i)) ∧
  (∀ (n : OptNo) (f : FibreNo) (i : LaneNo) (node : BitVec 14) (e : Fin 32) s, laneState s n f i = lnLocking →
    let other := rd s OPT_PARTNER.fibres_matched n ≠ 0 ∧ (rd s OPT_PARTNER.node n ≠ node.toNat ∨ rd s OPT_PARTNER.engine n ≠ e)
    (other → Does (.laneLocked n f i node e) s fun t => on t OPT_STATUS.miswired n = true ∧ Latched t (srcOpt n 0) ∧
      OnlyFields ((OPT_STATUS.miswired, n.val) :: evtWords (srcOpt n 0)) s t) ∧
    (¬other → Does (.laneLocked n f i node e) s fun t => LaneBecomes s t n f i lnTraining ∧ rd t OPT_PARTNER.node n = node.toNat ∧
      rd t OPT_PARTNER.engine n = e ∧ bitOn (rd t OPT_PARTNER.fibres_matched n) f = true)) ∧
  (∀ (n : OptNo) (f : FibreNo) (i : LaneNo) s, laneState s n f i = lnLocking → Does (.laneLockTimeout n f i) s fun t => LaneRelocks s t n f i) ∧
  (∀ (n : OptNo) (f : FibreNo) (i : LaneNo) (rtt : BitVec 16) s, laneState s n f i = lnTraining → Does (.laneTrained n f i rtt) s fun t => LaneBecomes s t n f i lnUp ∧
    rd t OPT_PARTNER.rtt_ns n = max (rd s OPT_PARTNER.rtt_ns n) rtt.toNat) ∧
  (∀ (n : OptNo) (f : FibreNo) (i : LaneNo) rtt s, (laneState s n f i ≠ lnTraining → exec (.laneTrained n f i rtt) s = .next s) ∧
    (laneState s n f i ≠ lnLocking → exec (.laneLockTimeout n f i) s = .next s) ∧ (laneState s n f i ≠ lnWalking → exec (.walkComplete n f i) s = .next s))

/-- Lasers and engines (R461, R462, R466 to R469, R474 to R476): notices move the heaters by their coefficients; fades warn, call the spare and
retire the wavelength; a switch to the spare pauses the lanes it carries; engines are enabled, dark, commissioned and cleared; the thresholds
are an expert's, and are taken in order or not at all. -/
def Obligations.LasersAreSparedAndEnginesSet : Prop :=
  (∀ (n : OptNo) (u k : Fin 2) (a : BitVec 16) s, Does (.feedForwardNotice n u k a) s fun t => on t OPT_STATUS.ff_stale n = false ∧
    (on s OPT_CTL.ff_en n = false ∨ optRuns s n = false → OnlyFields [(OPT_STATUS.ff_stale, n)] s t) ∧
    (on s OPT_CTL.ff_en n = true → optRuns s n = true →
      (∀ r < 256, rd t OPT_LANE_DATA.heater (256 * n.val + r) =
        (let c := kget s.ffCoef (4 * (256 * n.val + r) + 2 * u.val + k.val) 0
         if c = 0 then rd s OPT_LANE_DATA.heater (256 * n.val + r)
         else heaterCut ((rd s OPT_LANE_DATA.heater (256 * n.val + r) : Int) + (rd s OPT_CTL.ff_gain n : Int) * c * a.toInt / 128))) ∧
      OnlyFields ((OPT_STATUS.ff_stale, n.val) :: (List.range 256).map fun r => (OPT_LANE_DATA.heater, 256 * n.val + r)) s t)) ∧
  (∀ (n : OptNo) s, Does (.ffStale n) s fun t => on t OPT_STATUS.ff_stale n = true ∧ OnlyFields [(OPT_STATUS.ff_stale, n)] s t) ∧
  (∀ (n : OptNo) (b : Fin 2) (i : LaneNo) (pw : BitVec 16) (fd : BitVec 8) s,
    let db := fadeOf pw.toNat (rd s OPT_LASER_DATA.commissioned_uw (laserIdx n b i)) fd.toInt
    Does (.laserSample n b i pw fd) s fun t =>
    rd t OPT_LASER_DATA.power_uw (laserIdx n b i) = pw.toNat ∧ rd t OPT_LASER_DATA.fade (laserIdx n b i) = (BitVec.ofInt 8 db).toNat ∧
    (laserState s n b i = lzWarming → bankOf s n i = none → optRuns s n = true → (∀ f < 8, laneState s n f i = lnDark) →
      laserState t n b i = lzInService ∧ ∀ f < 8, laneState t n f i = lnLocking) ∧
    (laserState s n b i = lzInService →
      let crosses (f : Fld) (bit : Nat) := (rd s f n : Int) ≤ -db ∧ bitOn (kget s.fadeDone (laserIdx n b i) 0) bit = false
      (crosses OPT_CTL.fade_warn 0 → Latched t (srcOpt n 2)) ∧
      (crosses OPT_CTL.fade_spare 1 → laserState s n (1 - b.val) i = lzOff → laserState t n (1 - b.val) i = lzWarming) ∧
      (crosses OPT_CTL.fade_spare 1 → laserState s n (1 - b.val) i = lzFailed → on t OPT_STATUS.no_spare n = true ∧ Latched t (srcOpt n 3)) ∧
      (crosses OPT_CTL.fade_retire 2 → laserState s n (1 - b.val) i = lzFailed →
        laserState t n b i = lzFailed ∧ ∀ f < 8, laneState t n f i = lnRetired))) ∧
  (∀ (n : OptNo) (i : LaneNo) s b, ((List.range 2).find? fun b => laserState s n b i == lzWarming || laserState s n b i == lzLocked) = some b →
    (bankOf s n i ≠ none ∨ ∃ f < 8, laneState s n f i ≠ lnDark ∧ laneState s n f i ≠ lnRetired) →
    (Does (.spareSwitchover n i 0) s fun t => laserState t n b i = lzLocked ∧ OnlyFields [(OPT_LASER_DATA.state, laserIdx n b i)] s t) ∧
    (laserState s n b i = lzLocked → Does (.spareSwitchover n i 1) s fun t => laserState t n b i = lzInService ∧ laserState t n (1 - b) i = lzFailed ∧
      (∀ f < 8, laneState t n f i = if laneState s n f i = lnUp then lnPaused else laneState s n f i) ∧
      rd t OPT_ERR.switchovers n = min (rd s OPT_ERR.switchovers n + 1) 255)) ∧
  (∀ (n : OptNo) (i : LaneNo) s, (∀ b < 2, laserState s n b i ≠ lzWarming ∧ laserState s n b i ≠ lzLocked) → Does (.spareSwitchover n i 2) s fun t =>
    ∀ f < 8, laneState t n f i = if laneState s n f i = lnPaused then lnUp else laneState s n f i) ∧
  (∀ (n : OptNo) (i : LaneNo) lost s b, (bankOf s n i = none → exec (.suddenLoss n i lost) s = .next s) ∧
    (bankOf s n i = some b → Does (.suddenLoss n i lost) s fun t => laserState t n b i = lzFailed ∧
      ∀ f < 8, laneState t n f i = if laneState s n f i = lnRetired ∨ laserState s n (1 - b) i = lzFailed then lnRetired else lnLocking)) ∧
  (∀ (n : OptNo) s, on s OPT_CTL.enable n = true → Does (.optEnable n false) s fun t => on t OPT_CTL.enable n = false ∧ rd t OPT_STATUS.state n = 0 ∧
    rd t OPT_STATUS.lanes_up n = 0 ∧ (∀ f < 8, ∀ i < 16, laneState t n f i = lnDark) ∧
    ∀ b < 2, ∀ i < 16, laserState t n b i = if laserState s n b i = lzFailed then lzFailed else lzOff) ∧
  (∀ (n : OptNo) s, on s OPT_CTL.enable n = false → Does (.optEnable n true) s fun t => on t OPT_CTL.enable n = true ∧ on t OPT_STATUS.cfg_pending n = false ∧
    (optRuns (wr s OPT_CTL.enable n 1) n = true → ∀ i < 16,
      let failed (b : Nat) := laserState s n b i = lzFailed
      let faded := (rd s OPT_CTL.fade_spare n : Int) ≤ -(signed 8 (rd s OPT_LASER_DATA.fade (laserIdx n 0 i)))
      (failed 0 ∧ failed 1 → ∀ f < 8, laneState t n f i = lnRetired) ∧
      (¬failed 0 ∧ (failed 1 ∨ ¬faded) → laserState t n 0 i = lzWarming) ∧ (¬failed 1 ∧ (failed 0 ∨ faded) → laserState t n 1 i = lzWarming))) ∧
  (∀ (n : OptNo) r p w g (rl ul : BitVec 4) ff s,
    let ok := w.toNat ≤ p.toNat ∧ p.toNat ≤ r.toNat ∧ 10 ≤ r.toNat ∧ r.toNat ≤ 60 ∧ 5 ≤ p.toNat ∧ p.toNat ≤ 50 ∧ 5 ≤ w.toNat ∧ w.toNat ≤ 50
    (rd s PNL_PROFILE.optics ≠ 15 → exec (.optCtlWrite n r p w g rl ul ff) s = .next (setBit s PNL_STATUS.profile_rejected)) ∧
    (rd s PNL_PROFILE.optics = 15 → ¬ok → exec (.optCtlWrite n r p w g rl ul ff) s = .next (setBit s OPT_STATUS.cfg_ignored n)) ∧
    (rd s PNL_PROFILE.optics = 15 → ok → Does (.optCtlWrite n r p w g rl ul ff) s fun t => rd t OPT_CTL.fade_retire n = r.toNat ∧
      rd t OPT_CTL.fade_spare n = p.toNat ∧ rd t OPT_CTL.fade_warn n = w.toNat ∧ rd t OPT_CTL.ff_gain n = g.toNat ∧
      rd t OPT_CTL.relock_limit n = max 1 rl.toNat ∧ rd t OPT_CTL.ucw_limit n = max 1 ul.toNat ∧ on t OPT_CTL.ff_en n = ff ∧
      OnlyFields ([OPT_CTL.fade_retire, OPT_CTL.fade_spare, OPT_CTL.fade_warn, OPT_CTL.ff_gain, OPT_CTL.relock_limit, OPT_CTL.ucw_limit,
        OPT_CTL.ff_en].map fun f => (f, n.val)) s t)) ∧
  (∀ (n : OptNo) m cs s,
    let may := m = true ∧ (rd s SEC_STATUS.lifecycle = 0 ∨ rd s SEC_STATUS.lifecycle = 3)
    (¬may → exec (.optCommission n m cs) s = .next (setBit s OPT_STATUS.cfg_ignored n)) ∧
    (may → Does (.optCommission n m cs) s fun t =>
      (∀ k < 32, rd t OPT_LASER_DATA.commissioned_uw (32 * n.val + k) = rd s OPT_LASER_DATA.power_uw (32 * n.val + k)) ∧
      (∀ r < 256, kfind t.commHeater (256 * n.val + r) = some (rd s OPT_LANE_DATA.heater (256 * n.val + r))) ∧
      (∀ c pre, cs = pre ++ [c] → kget t.ffCoef (4 * (256 * n.val + c.ring.toNat) + 2 * c.unit.val + c.kind.val) 0 = c.value.toInt) ∧
      t = { s with commHeater := t.commHeater, ffCoef := t.ffCoef, fields := t.fields })) ∧
  (∀ (n : OptNo) s, Does (.optClear n) s fun t =>
    let fs := [OPT_ERR.crc_errors, OPT_ERR.wrong_locks, OPT_ERR.switchovers, OPT_ERR.lanes_retired, OPT_ERR.relocks, OPT_FEC.uncorrectable, OPT_FEC.corrected]
    (∀ f ∈ fs, rd t f n = 0) ∧ (∀ r < 256, rd t OPT_LANE_DATA.relocks (256 * n.val + r) = 0) ∧
    OnlyFields (fs.map (fun f => (f, n.val)) ++ (List.range 256).map fun r => (OPT_LANE_DATA.relocks, 256 * n.val + r)) s t)

/-! ### Power (file 15) -/

/-- The pace cap of every wing is what the input, a brownout's cut and the current limit allow (R497, R498, R511). -/
def PaceInForce (t : State) : Prop := ∀ w < 160, rd t WNG_STATUS.pace w = min (inputCap t) t.pw.limitCap

/-- Credits are frozen in a sag, a brownout, a takeover, with the bank not charged and close to the current limit (R510). -/
def CreditsFrozenRight (t : State) : Prop := on t PWR_STATUS.credits_frozen = true ↔
  (on t PWR_STATUS.sag = true ∨ on t PWR_STATUS.brownout = true ∨ t.hst.takingOver = true ∨ t.pw.bankReady = false ∨ currentHigh t = true)

/-- Main power is gone (R496, R499, Tables 16.7, 18.11): no queue, and none of the panel's memory. -/
def PowerGone (s t : State) : Prop :=
  t.pw.offP3 = true ∧ t.th.lossNote = true ∧ t.queues = [] ∧ rd t PWR_EVENTS.power_losses = min (rd s PWR_EVENTS.power_losses + 1) 255 ∧
  on t SEC_STATUS.identity = false ∧ (∀ a, outsideMem a = false → memByte t.mem a = memDefault a) ∧
  (s.farWrites = [] → ∀ a, outsideMem a = true → memByte t.mem a = memByte s.mem a)

/-- The supply input and the credits (R495 to R502, R506 to R511, R516): a sample that is too high opens the protection and main power is
lost; any other is recorded, starts and ends a brownout, starts a sag, and leaves the pace caps and the freeze as the rules say; a granted
credit raises its wing's allowance, and arrays that wait become active while the allowance holds. -/
def Obligations.InputSetsPaceAndCredits : Prop :=
  (∀ (v i b : BitVec 16) s, s.pw.offP3 = true → exec (.inputSample v i b) s = .next s) ∧
  (∀ (v i b : BitVec 16) s, s.pw.offP3 = false →
    let past := 8000 < v.toNat ∨ (6000 < v.toNat ∧ 10000 ≤ s.pw.overUs) ∨ (7200 < v.toNat ∧ 100 ≤ s.pw.overHiUs)
    (past → Does (.inputSample v i b) s fun t => PowerGone s t ∧ on t PWR_STATUS.ovp_open = true ∧
      rd t PWR_EVENTS.ovp_trips = min (rd s PWR_EVENTS.ovp_trips + 1) 255) ∧
    (¬past → Does (.inputSample v i b) s fun t => rd t PWR_INPUT.voltage = v.toNat ∧ rd t PWR_INPUT.current = i.toNat ∧ rd t PWR_INPUT.holdup = b.toNat ∧
      (6000 < v.toNat → s.pw.overUs = 0 → Latched t 0x005) ∧
      (on t PWR_STATUS.sag = true ↔ on s PWR_STATUS.sag = true ∨ v.toNat < 4200) ∧
      (v.toNat < 4200 → on s PWR_STATUS.sag = false → Latched t 0x002 ∧ rd t PWR_EVENTS.sags = min (rd s PWR_EVENTS.sags + 1) 65535) ∧
      (on t PWR_STATUS.brownout = true ↔ v.toNat < 3800 ∨ (v.toNat < 4000 ∧ on s PWR_STATUS.brownout = true)) ∧
      (v.toNat < 3800 → on s PWR_STATUS.brownout = false → Latched t 0x001 ∧
        rd t PWR_EVENTS.brownouts = min (rd s PWR_EVENTS.brownouts + 1) 65535) ∧
      (10 * rd s PWR_LIMIT.curr_limit < i.toNat → on t PWR_STATUS.at_limit = true ∧ t.pw.limitCap = min s.pw.limitCap (inputCap t) - 1) ∧
      PaceInForce t ∧ (t.pw.bankReady = true ↔ 5200 ≤ b.toNat) ∧ CreditsFrozenRight t ∧ t = { s with pw := t.pw, fields := t.fields })) ∧
  (∀ (p : BitVec 16) s, on s PWR_STATUS.brownout = true → 25 * (50 * rd s PWR_LIMIT.curr_limit) < 100 * p.toNat →
    Does (.brownoutCut p) s fun t => t.pw.brCut = true ∧ PaceInForce t ∧ ∀ w < 160, rd t WNG_STATUS.pace w = 0) ∧
  (∀ s, (on s PWR_STATUS.brownout = true → Does .powerLost s fun t => PowerGone s t) ∧ (on s PWR_STATUS.brownout = false → exec .powerLost s = .next s)) ∧
  (∀ s, on s PWR_STATUS.sag = true → on s PWR_STATUS.brownout = false → 4400 ≤ rd s PWR_INPUT.voltage → Does .sagEnd s fun t =>
    on t PWR_STATUS.sag = false ∧ PaceInForce t ∧ CreditsFrozenRight t ∧ (∀ w < 160, rd t WNG_STATUS.pace w = min 16 s.pw.limitCap)) ∧
  (∀ s, s.pw.offP3 = false → Does .holdupCharged s fun t => t.pw.bankReady = true ∧ CreditsFrozenRight t ∧
    t = { s with pw := t.pw, fields := t.fields } ∧ FieldsBut [(PWR_STATUS.credits_frozen, 0)] s t) ∧
  (∀ s, Does .standbyLost s fun t => t.pw.standby = false ∧ t = { s with pw := { s.pw with standby := false }, fields := t.fields } ∧
    (s.pw.offP3 = false → on t PWR_STATUS.standby_lost = true ∧ Latched t 0x004) ∧ FieldsBut ((PWR_STATUS.standby_lost, 0) :: evtWords 0x004) s t) ∧
  (∀ (d : DieNo) (a : WingNo) (n : Fin 513) (b : BitVec 16) s, Does (.paceWindow d a n b) s fun t =>
    let w := 4 * d.val + a.val
    let cap := rd s WNG_STATUS.pace w * (if rd s WNG_STATUS.state w = 0 then rd s DIE_BEAT_RATE.rate w else 0) / 16
    rd t WNG_PACE_HELD.held_beats w = (rd s WNG_PACE_HELD.held_beats w + n.val * (b.toNat - cap)) % 2 ^ 64 ∧
    OnlyFields [(WNG_PACE_HELD.held_beats, w)] s t) ∧
  (∀ s,
    let now := hubTick s
    let recent := (s.pw.credHist.filter fun e => since now e.2 < 1000).length
    let wings := (creditWings s).filter (creditFree s now)
    let may := on s PWR_STATUS.credits_frozen = false ∧ s.pw.bankReady = true ∧ running s = true ∧ 64 * (recent + 1) ≤ rd s PWR_CTL.panel_ramp * 256
    (¬may → exec .creditGrant s = .next s) ∧
    (∀ d w, may → roundRobin ((wings.map (· / 4)).foldl setIns []) s.pw.credDie = some d →
      roundRobin (wings.filter (· / 4 == d)) (kget s.pw.credWing d (4 * d + 3)) = some w → Does .creditGrant s fun t =>
        t.pw.credPend = s.pw.credPend ++ [(w, now)] ∧ t.pw.credDie = d ∧ kget t.pw.credWing d 0 = w ∧ (w, now) ∈ t.pw.credHist ∧
        t.outbox = (dieEngines d).reverse.map (fun n => .ffNotice n 0 0 64) ++ s.outbox ∧ t = { s with pw := t.pw, outbox := t.outbox })) ∧
  (∀ (d : DieNo) (a : WingNo) s e,
    let w := 4 * d.val + a.val
    ((s.pw.credPend.find? (·.1 == w)) = none → exec (.creditEffect d a) s = .next s) ∧
    (s.pw.credPend.find? (·.1 == w) = some e → Does (.creditEffect d a) s fun t =>
      rd t WNG_STATUS.allowance w = min 512 (rd s WNG_STATUS.allowance w + 64) ∧ t.pw = { s.pw with credPend := s.pw.credPend.erase e } ∧
      rd t WNG_STATUS.active w = max (rd s WNG_STATUS.active w) (min (rd t WNG_STATUS.allowance w)
        (rd s WNG_STATUS.active w + (s.arrays.filter fun e => e.2 == 2 && e.1 / 512 == w).length)) ∧
      t = { s with
        pw := t.pw, arrays := t.arrays, arrayWait := t.arrayWait, fields := t.fields } ∧
      FieldsBut [(WNG_STATUS.allowance, w), (WNG_STATUS.active, w), (DIE_BEAT_WAIT.wait_beats, w)] s t)) ∧
  (∀ (d : DieNo) (a : WingNo) s, Does (.allowanceFall d a) s fun t =>
    let w := 4 * d.val + a.val
    rd t WNG_STATUS.allowance w = min (rd s WNG_STATUS.allowance w) ((rd s WNG_STATUS.active w + 63) / 64 * 64) ∧ OnlyFields [(WNG_STATUS.allowance, w)] s t) ∧
  (∀ s, (s.pw.clamped = [] → Does .clampEpisodeEnd s fun t => t = { s with pw := { s.pw with clampOn := false } }) ∧
    (s.pw.clamped ≠ [] → exec .clampEpisodeEnd s = .next s)) ∧
  (∀ s, Does .pwrClearEvents s fun t => rd t PWR_EVENTS.sags = 0 ∧ rd t PWR_EVENTS.brownouts = 0 ∧ rd t PWR_EVENTS.clamps = 0 ∧
    OnlyFields [(PWR_EVENTS.sags, 0), (PWR_EVENTS.brownouts, 0), (PWR_EVENTS.clamps, 0)] s t)

/-- No off bit of a wing, its cores or its die is set. -/
def NoOffBits (s : State) (w : Nat) : Prop :=
  rd s WNG_CORE_OFF.off w = 0 ∧ on s WNG_CTL.wing_off w = false ∧ bitOn (rd s PWR_DIE_OFF.off) (w / 4) = false

/-- Voltages and power states (R505, R513, R515, R518 to R521, Table 15.7): the optimiser moves a request by 5 mV and the wing by at most
25 mV; units go down when they and what they hold are idle, go off on request with their memory zeroed, and wake with what they need; a panel
state is entered, or refused while queues or engines are at work. -/
def Obligations.UnitsFollowPowerStates : Prop :=
  (∀ (d : DieNo) (a : WingNo) (m : BitVec 16) s,
    let w := 4 * d.val + a.val
    on s PWR_CTL.vopt_en = true → rd s WNG_STATUS.state w = 0 → running s = true → on s PWR_STATUS.sag = false → on s PWR_STATUS.brownout = false →
    s.hst.takingOver = false → Does (.optimiserStep d a m) s fun t =>
      let target := max (rd s PWR_CTL.target_rate) (rd s PWR_LIMIT.floor)
      let old := kget s.pw.wingReq w 750
      let req := if m.toNat < target then old + 5 else if 101 * target < 100 * m.toNat then old - 5 else old
      let req := min (rd s PWR_CTL.v_max) (max (rd s PWR_CTL.v_min) req)
      let want := min (wingCeil s w) req / 5 * 5
      let now := rd s WNG_STATUS.v_now w
      kget t.pw.wingReq w 750 = req ∧ rd t WNG_STATUS.v_ceiling w = wingCeil s w ∧
      rd t WNG_STATUS.v_now w = (if now < want then min want (now + 25) else max want (now - 25)) ∧ t.mem = s.mem ∧ t.queues = s.queues) ∧
  (∀ u s, running s = false → (∀ n, exec (.unitIdleDown u n) s = .next s) ∧ exec (.unitWake u) s = .next s) ∧
  (∀ (d : DieNo) (c : CoreNo) (n : Fin 3) s, running s = true → n.val ≠ 0 →
    let k := 256 * d.val + c.val
    (coreBusy s k = true → exec (.unitIdleDown (.core d c) n) s = .next s) ∧
    (coreBusy s k = false → NoOffBits s (k / 64) → Does (.unitIdleDown (.core d c) n) s fun t =>
      corePowOf t k = max 1 (corePowOf s k) ∧ t = { s with corePow := t.corePow })) ∧
  (∀ (d : DieNo) (l : ClusterNo) (n : Fin 3) s, running s = true → n.val ≠ 0 →
    let k := 32 * d.val + l.val
    clusPowOf s k < n.val → clusBusy s k = false → (∀ i < 8, n.val ≤ corePowOf s (8 * k + i)) → NoOffBits s (k / 8) →
    Does (.unitIdleDown (.cluster d l) n) s fun t => clusPowOf t k = n ∧ t = { s with clusPow := t.clusPow }) ∧
  (∀ (d : DieNo) (a : WingNo) (n : Fin 3) s, running s = true → n.val ≠ 0 →
    let w := 4 * d.val + a.val
    rd s WNG_STATUS.state w < n.val → (∀ i < 8, n.val ≤ clusPowOf s (8 * w + i)) → NoOffBits s w →
    Does (.unitIdleDown (.wing d a) n) s fun t => rd t WNG_STATUS.state w = n ∧
      (rd s WNG_STATUS.state w = 0 → rd t DIE_BEAT_RATE.rate w = 0 ∧ w ∈ t.beatLeft) ∧
      t = { s with beatLeft := t.beatLeft, fields := t.fields } ∧ FieldsBut [(WNG_STATUS.state, w), (DIE_BEAT_RATE.rate, w)] s t) ∧
  (∀ (d : DieNo) s, running s = true → rd s DIE_STATUS.die_state d = 0 → (∀ a < 4, 1 ≤ rd s WNG_STATUS.state (4 * d.val + a)) → NoOffBits s (4 * d.val) →
    Does (.unitIdleDown (.die d) 1) s fun t => rd t DIE_STATUS.die_state d = 1 ∧ OnlyFields [(DIE_STATUS.die_state, d), (PWR_PSTATE.current, 0)] s t) ∧
  (∀ (d : DieNo) (c : CoreNo) s,
    let k := 256 * d.val + c.val
    (corePowOf s k = 1 → coreBusy s k = false → Does (.u2IdleExpiry d c) s fun t => corePowOf t k = 2 ∧ t = { s with corePow := t.corePow }) ∧
    (corePowOf s k ≠ 1 ∨ coreBusy s k = true → exec (.u2IdleExpiry d c) s = .next s)) ∧
  (∀ (d : DieNo) s, rd s PWR_IDLE.d2_idle_ms ≠ 0 → rd s DIE_STATUS.die_state d = 1 → running s = true →
    (∀ a < 4, 2 ≤ rd s WNG_STATUS.state (4 * d.val + a)) → Does (.d2IdleExpiry d) s fun t => rd t DIE_STATUS.die_state d = 2 ∧
      (∀ k < 2, rd t STK_STATUS.state (2 * d.val + k) = if rd s STK_STATUS.state (2 * d.val + k) = 2 then 3 else rd s STK_STATUS.state (2 * d.val + k)) ∧
      OnlyFields [(DIE_STATUS.die_state, d), (STK_STATUS.state, 2 * d.val), (STK_STATUS.state, 2 * d.val + 1)] s t) ∧
  (∀ (d : DieNo) s, running s = true → dieActive s d = true → dieTripped s d = false → dieShut s d = false → dieFloor s = 0 →
    (∀ c : CoreNo, (∃ e ∈ s.coreShares, e.1 = 256 * d.val + c.val) → Does (.unitWake (.core d c)) s fun t =>
      corePowOf t (256 * d.val + c.val) = 0 ∧ (corePowOf s (256 * d.val + c.val) ≠ 0 → clusPowOf t (32 * d.val + c.val / 8) = 0)) ∧
    (∀ l : ClusterNo, (∃ i < 8, corePowOf s (8 * (32 * d.val + l.val) + i) = 0) → Does (.unitWake (.cluster d l)) s fun t =>
      clusPowOf t (32 * d.val + l.val) = 0) ∧
    (∀ a : WingNo, Does (.unitWake (.wing d a)) s fun t => rd t WNG_STATUS.state (4 * d.val + a.val) ≤ 1 ∧
      ((∃ i < 8, clusPowOf s (8 * (4 * d.val + a.val) + i) = 0) → rd t WNG_STATUS.state (4 * d.val + a.val) = 0)) ∧
    (Does (.unitWake (.die d)) s fun t => rd t DIE_STATUS.die_state d ≤ 1 ∧
      ((∃ a < 4, rd s WNG_STATUS.state (4 * d.val + a) = 0) → rd t DIE_STATUS.die_state d = 0))) ∧
  (∀ (m : BitVec 40) s, Does (.pwrDieOffWrite m) s fun t => rd t PWR_DIE_OFF.off = m.toNat ∧ ∀ d < 40, dieActive s d = true →
    (m.getLsbD d = true → dieBusy s d = false → rd t DIE_STATUS.die_state d = 3) ∧
    (m.getLsbD d = false → dieFloor s < 2 → bitOn (rd s PWR_DIE_OFF.off) d = true → rd s DIE_STATUS.die_state d = 3 → dieTripped s d = false → dieShut s d = false →
      rd t DIE_STATUS.die_state d = 1)) ∧
  (∀ (d : DieNo) (a : WingNo) (v : BitVec 64) s,
    let w := 4 * d.val + a.val
    NoOffBits s w →
    (v.toNat % 2 = 1 → wingBusy s w = false → Does (.wingOffWrite d a false v) s fun t => on t WNG_CTL.wing_off w = true ∧ rd t WNG_STATUS.state w = 3 ∧
      (rd s WNG_STATUS.state w ≠ 3 → (∀ n < 2 ^ 26, memByte t.mem (wingFlat w n) = 0) ∧ ∀ n < 64 * 2 ^ 20, memByte t.mem (tileFlat (64 * w) n) = 0)) ∧
    (v.toNat % 2 = 0 → Does (.wingOffWrite d a false v) s fun t => on t WNG_CTL.wing_off w = false ∧ OnlyFields [(WNG_CTL.wing_off, w)] s t) ∧
    (Does (.wingOffWrite d a true v) s fun t => rd t WNG_CORE_OFF.off w = v.toNat ∧ ∀ i < 64, v.getLsbD i = true →
      coreBusy s (64 * w + i) = false → corePowOf t (64 * w + i) = 3)) ∧
  (∀ (p : Fin 4) s, s.pw.offP3 = false →
    (on s PWR_PSTATE.busy = true → Does (.pstateTarget p) s fun t => rd t PWR_PSTATE.target = p ∧ OnlyFields [(PWR_PSTATE.target, 0)] s t) ∧
    (on s PWR_PSTATE.busy = false → 2 ≤ p.val → p.val ≠ rd s PWR_PSTATE.current →
      (mayRetain s = false → Does (.pstateTarget p) s fun t => on t PWR_STATUS.pstate_refused = true ∧ rd t PWR_PSTATE.target = rd s PWR_PSTATE.current ∧
        OnlyFields [(PWR_PSTATE.target, 0), (PWR_STATUS.pstate_refused, 0)] s t) ∧
      (mayRetain s = true → Does (.pstateTarget p) s fun t => on t PWR_PSTATE.busy = true ∧ rd t PWR_PSTATE.target = p ∧
        (rd s PWR_PSTATE.current ≠ 2 → arraysBusy s = true → OnlyFields [(PWR_PSTATE.target, 0), (PWR_PSTATE.busy, 0)] s t) ∧
        (rd s PWR_PSTATE.current ≠ 2 → arraysBusy s = false → (∀ w < 160, 2 ≤ rd t WNG_STATUS.state w) ∧ (∀ d < 40, 2 ≤ rd t DIE_STATUS.die_state d) ∧
          ∀ f < 4, on t FAR_PORT_STATUS.link_up f = false))) ∧
    (on s PWR_PSTATE.busy = false → p.val = 1 → rd s PWR_PSTATE.current = 0 → Does (.pstateTarget p) s fun t => rd t PWR_PSTATE.target = 1 ∧
      ((∀ d < 40, dieActive s d = true → 1 ≤ rd s DIE_STATUS.die_state d) ↔ rd t PWR_PSTATE.current = 1) ∧
      OnlyFields [(PWR_PSTATE.target, 0), (PWR_PSTATE.current, 0)] s t) ∧
    (on s PWR_PSTATE.busy = false → p.val = 0 → rd s PWR_PSTATE.current ≠ 2 → Does (.pstateTarget p) s fun t => rd t PWR_PSTATE.target = 0 ∧
      rd t PWR_PSTATE.current = 0 ∧ OnlyFields [(PWR_PSTATE.target, 0), (PWR_PSTATE.current, 0)] s t))

/-! ### Temperature, wakes and die resets (file 16) -/

/-- A reading of a sensor is taken: the reading, the largest so far, and what a stack shows (R522, R525). -/
def SensorTaken (s t : State) (kind : Fin 4) (i : Fin 640) (c : BitVec 8) : Prop :=
  rd t THM_DATA.reading (senIdx kind i) = c.toNat ∧ rd t THM_DATA.max (senIdx kind i) = max c.toNat (rd s THM_DATA.max (senIdx kind i)) ∧
  (kind.val = 1 → rd t STK_STATUS.temp i = c.toNat)

/-- Sensors (Tables 16.2 to 16.4, R503, R522 to R532, R541): a reading moves its sensor between NORMAL, WARN, GRACE and SHUTDOWN by its kind's
thresholds with the event each move raises; a compute-die sensor at 120 °C cuts its die at once; the end of a grace starts ENFORCE with every governed wing's ceiling at its voltage; each 100 µs an
enforcing sensor that is still hot lowers those ceilings by 5 mV; thresholds are an expert's and are taken in order or not at all. -/
def Obligations.SensorsMoveByTheirThresholds : Prop :=
  (∀ (kind : Fin 4) (i : Fin 640) c s, s.pw.offP3 = true ∨ senExists s kind i = false → exec (.sensorRead kind i c) s = .next s) ∧
  (∀ (kind : Fin 4) (i : Fin 640) (c : BitVec 8) s, s.pw.offP3 = false → senExists s kind i = true → (rd s PWR_PSTATE.current ≠ 2 ∨ s.th.waking = true) →
    let k := senIdx kind i
    let warm := thThrottle s kind ≤ c.toNat
    (c.toNat < thShutdown s kind →
      (senState s k ≤ snWarn → warm → Does (.sensorRead kind i c) s fun t => SensorTaken s t kind i c ∧ senState t k = snGrace ∧ Latched t 0x009 ∧
        on t THM_REQ.valid = true ∧ rd t THM_REQ.kind = kind ∧ rd t THM_REQ.index = i ∧ rd t THM_REQ.reading = c.toNat ∧
        rd t THM_REQ.deadline = (hubTick s + graceTicks s) % 2 ^ 32 ∧ on t THM_STATUS.requested = true) ∧
      (senState s k = snNormal → ¬warm → thWarn s kind ≤ c.toNat → Does (.sensorRead kind i c) s fun t => SensorTaken s t kind i c ∧
        senState t k = snWarn ∧ Latched t 0x00B ∧ rd t THM_EVENTS.warnings = min (rd s THM_EVENTS.warnings + 1) 65535) ∧
      (senState s k = snNormal → ¬warm → c.toNat < thWarn s kind → Does (.sensorRead kind i c) s fun t => SensorTaken s t kind i c ∧ senState t k = snNormal) ∧
      (senState s k = snWarn → ¬warm → Does (.sensorRead kind i c) s fun t => SensorTaken s t kind i c ∧
        senState t k = (if c.toNat + hyst s < thWarn s kind then snNormal else snWarn)) ∧
      (senState s k = snGrace → Does (.sensorRead kind i c) s fun t => SensorTaken s t kind i c ∧
        (c.toNat + hyst s < thThrottle s kind → senState t k = (if c.toNat + hyst s < thWarn s kind then snNormal else snWarn) ∧ Latched t 0x00A) ∧
        (thThrottle s kind ≤ c.toNat + hyst s → senState t k = snGrace))) ∧
    (thShutdown s kind ≤ c.toNat → senState s k < snShutdown → s.th.hubStop = false →
      (kind.val = 0 → 120 ≤ c.toNat → dieTripped s (i / 16) = false → rd s DIE_STATUS.die_state (i / 16) < 2 → Does (.sensorRead kind i c) s fun t =>
        senState t k = snShutdown ∧ Latched t 0x000 ∧ dieTripped t (i / 16) = true ∧ rd t DIE_STATUS.die_state (i / 16) = 3) ∧
      (kind.val = 0 → c.toNat < 120 → dieTripped s (i / 16) = false → Does (.sensorRead kind i c) s fun t => senState t k = snShutdown ∧ Latched t 0x000 ∧
        dieHeld t (i / 16) = true ∧ rd t THM_EVENTS.shutdowns = min (rd s THM_EVENTS.shutdowns + 1) 65535) ∧
      (kind.val = 2 → Does (.sensorRead kind i c) s fun t => senState t k = snShutdown ∧ Latched t 0x000 ∧ bitOn (rd t THM_SHUT.engines) i = true ∧
        ∀ f < 8, ∀ l < 16, laneState t i f l = lnDark))) ∧
  (∀ (kind : Fin 4) (i : Fin 640) (c : BitVec 8) s, s.pw.offP3 = false → senExists s kind i = true → rd s PWR_PSTATE.current = 2 → s.th.waking = false →
    (c.toNat < thShutdown s kind → Does (.sensorRead kind i c) s fun t => SensorTaken s t kind i c ∧ senState t (senIdx kind i) = senState s (senIdx kind i)) ∧
    (thShutdown s kind ≤ c.toNat → Does (.sensorRead kind i c) s fun t => t.pw.offP3 = true ∧ t.th.heldNote = true ∧ t.queues = [])) ∧
  (∀ (kind : Fin 4) (i : Fin 640) s,
    let k := senIdx kind i
    (senState s k ≠ snGrace → exec (.graceEnd kind i) s = .next s) ∧
    (senState s k = snGrace → Does (.graceEnd kind i) s fun t => senState t k = snEnforce ∧
      rd t THM_EVENTS.enforced = min (rd s THM_EVENTS.enforced + 1) 65535 ∧
      (∀ w ∈ senWings k, kget t.pw.thrCeil w 900 = max 550 (rd s WNG_STATUS.v_now w)) ∧ (∀ w, w ∉ senWings k → kfind t.pw.thrCeil w = kfind s.pw.thrCeil w))) ∧
  (∀ (p : BitVec 16) s, (running s = false → exec (.powerTelemetry p) s = .next s) ∧
    (running s = true → Does (.powerTelemetry p) s fun t => rd t PWR_INPUT.power = p.toNat ∧
      (∀ k ∈ sensorsIn s snEnforce, callsLower s k = true → ∀ w ∈ senWings k, kget t.pw.thrCeil w 900 = max 550 (kget s.pw.thrCeil w 900 - 5)) ∧
      (s.hst.takingOver = false → ∀ w < 160, dieActive s (w / 4) = true → rd s WNG_STATUS.state w ≠ 3 → rd t WNG_STATUS.v_ceiling w = wingCeil t w) ∧
      t.mem = s.mem ∧ t.queues = s.queues)) ∧
  (∀ (kind : Fin 3) (w h x : BitVec 8) s,
    let f : Fld × Fld × Fld := if kind.val = 0 then (THM_DIE_THR.warning, THM_DIE_THR.throttle, THM_DIE_THR.shutdown)
      else if kind.val = 1 then (THM_STK_THR.warning, THM_STK_THR.throttle, THM_STK_THR.shutdown) else (THM_OPT_THR.warning, THM_OPT_THR.throttle, THM_OPT_THR.shutdown)
    let ok := w.toNat < h.toNat ∧ h.toNat < x.toNat ∧
      (if kind.val = 0 then 70 ≤ w.toNat ∧ w.toNat ≤ 105 ∧ 80 ≤ h.toNat ∧ h.toNat ≤ 110 ∧ 90 ≤ x.toNat ∧ x.toNat ≤ 115
       else if kind.val = 1 then 70 ≤ w.toNat ∧ w.toNat ≤ 95 ∧ 75 ≤ h.toNat ∧ h.toNat ≤ 100 ∧ 80 ≤ x.toNat ∧ x.toNat ≤ 105
       else 60 ≤ w.toNat ∧ w.toNat ≤ 90 ∧ 65 ≤ h.toNat ∧ h.toNat ≤ 92 ∧ 70 ≤ x.toNat ∧ x.toNat ≤ 95)
    (rd s PNL_PROFILE.thermal ≠ 15 → exec (.thmThresholdWrite kind w h x) s = .next (setBit s PNL_STATUS.profile_rejected)) ∧
    (rd s PNL_PROFILE.thermal = 15 → ¬ok → exec (.thmThresholdWrite kind w h x) s = .next (setBit s THM_STATUS.cfg_ignored)) ∧
    (rd s PNL_PROFILE.thermal = 15 → ok → Does (.thmThresholdWrite kind w h x) s fun t => rd t f.1 = w.toNat ∧ rd t f.2.1 = h.toNat ∧ rd t f.2.2 = x.toNat ∧
      OnlyFields [(f.1, 0), (f.2.1, 0), (f.2.2, 0)] s t)) ∧
  (∀ s,
    let k := senIdx (rd s THM_SEL.kind) (rd s THM_SEL.index)
    (senExists s (rd s THM_SEL.kind) (rd s THM_SEL.index) = true → Does .thmClearMax s fun t => rd t THM_DATA.max k = senReading s k ∧
      OnlyFields [(THM_DATA.max, k)] s t) ∧
    (senExists s (rd s THM_SEL.kind) (rd s THM_SEL.index) = false → exec .thmClearMax s = .next s))

/-- From `s` to `t` a shut-down die is back: its sensors govern it no more; if it is active, and the panel's state allows it, it and its wings are
awake (R38, R536). -/
def DieReturns (s t : State) (d : Nat) : Prop :=
  dieShut t d = false ∧ Latched t 0x00C ∧ (dieActive s d = true → dieFloor s < 2 →
    rd t DIE_STATUS.die_state d ≤ 1 ∧ ∀ a < 4, rd t WNG_STATUS.state (4 * d + a) ≤ 1)

/-- Shutdowns, trips, returns, the wake from P2 and the die reset (R533 to R541, R548, R614, Tables 16.5, 16.9): a stopped die is shut down
with its wings off; a die at 120 °C is cut, loses its stacks' contents and is marked; cool dies and engines come back. -/
def Obligations.DiesShutDownAndReturn : Prop :=
  (∀ (d : DieNo) pts s, (s.th.stopping.contains d.val = false → exec (.orderlyStopEnd d pts) s = .next s) ∧
    (s.th.stopping.contains d.val = true → (stopDie s d pts).th.hubStop = false → Does (.orderlyStopEnd d pts) s fun t => dieShut t d = true ∧
      rd t DIE_STATUS.die_state d = 2 ∧ on t THM_STATUS.shut_any = true ∧ d.val ∉ t.th.stopping ∧
      (∀ a < 4, rd t WNG_STATUS.state (4 * d.val + a) = 3 ∧ ∀ n < 2 ^ 26, memByte t.mem (wingFlat (4 * d.val + a) n) = 0))) ∧
  (∀ (d : DieNo) s,
    let may := dieShut s d = true ∧ dieTripped s d = false ∧ on s THM_CTL.auto_return = true ∧ dieCool s d = true
    (¬may → exec (.thmDieBack d) s = .next s) ∧ (may → Does (.thmDieBack d) s fun t => DieReturns s t d)) ∧
  (∀ (m : BitVec 40) s, Does (.thmReturnWrite m) s fun t => ∀ d < 40, m.getLsbD d = true → dieShut s d = true → dieTripped s d = false →
    (dieCool s d = true → DieReturns s t d) ∧ (dieCool s d = false → dieShut t d = true ∧ on t THM_STATUS.cfg_ignored = true)) ∧
  (∀ (n : OptNo) s,
    let cool := bitOn (rd s THM_SHUT.engines) n = true ∧ senReading s (senIdx 2 n) + hyst s < thWarn s 2
    (¬cool → exec (.optThermalReturn n) s = .next s) ∧
    (cool → Does (.optThermalReturn n) s fun t => bitOn (rd t THM_SHUT.engines) n = false ∧ rd t THM_SHUT.dies = rd s THM_SHUT.dies)) ∧
  -- the last die of a hub's shutdown ends it in P3 (R539)
  (∀ (d : DieNo) s, (s.pw.offP3 = true ∨ dieActive s d = false ∨ rd s DIE_STATUS.die_state d = 3 ∨ dieTripped s d = true → exec (.hardwareTrip d) s = .next s) ∧
    let last := s.th.hubStop = true ∧ ∀ n < 40, n ≠ d.val → dieActive s n = true → dieShut s n = true ∨ dieTripped s n = true
    (s.pw.offP3 = false → dieActive s d = true → rd s DIE_STATUS.die_state d ≠ 3 → dieTripped s d = false → last → Does (.hardwareTrip d) s fun t =>
      t.pw.offP3 = true ∧ dieTripped t d = true) ∧
    (s.pw.offP3 = false → dieActive s d = true → rd s DIE_STATUS.die_state d ≠ 3 → dieTripped s d = false → ¬last → Does (.hardwareTrip d) s fun t =>
      dieTripped t d = true ∧ dieShut t d = false ∧ rd t DIE_STATUS.die_state d = 3 ∧ on t THM_STATUS.trip_seen = true ∧
      (∀ p < 5, portUp t p = true → regionOk t p = true) ∧ rd t THM_EVENTS.trips = min (rd s THM_EVENTS.trips + 1) 255 ∧ unitState t d = 3 ∧
      (∀ a, 2 * d.val * 2 ^ 36 ≤ a → a < (2 * d.val + 2) * 2 ^ 36 → memByte t.mem a = 0))) ∧
  (∀ s, (s.th.waking = false ∨ rd s PWR_PSTATE.current ≠ 2 → exec .wakeFromP2 s = .next s) ∧
    (s.th.waking = true → rd s PWR_PSTATE.current = 2 → s.pw.offP3 = false → Does .wakeFromP2 s fun t => rd t SEC_STATUS.debug = 0 ∧
      ∀ d < 40, dieActive s d = true → dieTripped s d = false → dieShut s d = false →
        (rd s DIE_STATUS.die_state d = 2 → rd t DIE_STATUS.die_state d = 1) ∧
        ∀ a < 4, rd s WNG_STATUS.state (4 * d + a) = 2 → rd t WNG_STATUS.state (4 * d + a) = 1)) ∧
  (∀ (d : DieNo) pts s, s.pw.offP3 = false →
    (dieActive s d = false ∨ s.hst.resetKind.isSome = true → Does (.dieReset d pts) s fun t => on t PNL_STATUS.cfg_ignored = true ∧ t.queues = s.queues) ∧
    (dieActive s d = true → s.hst.resetKind = none → dieTripped s d = false → dieShut s d = false →
      let v := if rd s DIE_STATUS.die_state d = 3 then wakeDie s d 1 else s
      let u := stopDie { v with th := { v.th with stopping := setIns v.th.stopping d } } d pts
      dieTripped u d = false → dieShut u d = false → dieFloor s < 2 → Does (.dieReset d pts) s fun t => rd t DIE_STATUS.die_state d = 1 ∧
        (∀ a < 4, rd t WNG_STATUS.state (4 * d.val + a) = 1 ∧ ∀ n < 2 ^ 26, memByte t.mem (wingFlat (4 * d.val + a) n) = 0) ∧
        (∀ w, w = 2 * d.val ∨ w = 2 * d.val + 1 → rd u STK_STATUS.state w = 2 ∨ rd u STK_STATUS.state w = 3 ∨ rd u STK_STATUS.state w = 5 →
          rd t STK_STATUS.state w = if on u STK_CTL.bringup w then 5 else 2) ∧
        (∀ a < 80 * 2 ^ 36, memByte t.mem a = memByte u.mem a)))

/-! ### Resets, start-up and transitions (files 16 and 19) -/

/-- A hub reaches step 4 and is in service: `h0` and `h1` tell which do, and a retired or marked hub takes no part (R49, R620). -/
def hubComesUp (s : State) (h0 h1 : Bool) : Prop := (h0 = true ∧ unitState s 304 < 3) ∨ (h1 = true ∧ unitState s 305 < 3)

/-- Images 0 and 1 have a copy that the verifier accepts (R578, R579). -/
def imagesRun (s : State) : Prop := (runningCopy s 0).isSome = true ∧ (runningCopy s 1).isSome = true

/-- Start-up of a kind runs from step 5 on a machine with empty queues, its own memories empty, every active die in D1, and one more
incarnation (Tables 19.5, 19.6). -/
def StartsUp (s t : State) (kind : Nat) : Prop :=
  t.pw.offP3 = false ∧ t.hst.resetKind = some kind ∧ rd t PNL_START.step = 5 ∧ rd t PNL_START.last_kind = kind ∧ on t PNL_START.ready = false ∧
  t.queues = [] ∧ t.rmtOps = [] ∧ t.colls = [] ∧ t.landings = [] ∧ t.tcs = [] ∧
  rd t RMT_STATUS.incarnation = (rd s RMT_STATUS.incarnation + 1) % 2 ^ 16 ∧
  (∀ d < 40, dieActive t d = true → rd t DIE_STATUS.die_state d = 1) ∧ (∀ a, outsideMem a = false → memByte t.mem a = memDefault a) ∧
  t.pending = s.pending

/-- A port's link is up, as trained and as the host has enabled it. -/
def PortUp (t : State) (p : HostPortNo) (rate : Fin 3) (x8 cacheEn memEn : Bool) : Prop :=
  rd t PNL_HOST_STATUS.rate p = rate ∧ rd t PNL_HOST_STATUS.width p = (if x8 then 8 else 4) ∧ on t PNL_HOST_STATUS.cache_en p = cacheEn ∧
  on t PNL_HOST_STATUS.mem_en p = memEn ∧ rd t PNL_HOST_STATUS.role p = (if p.val = homePort t then 3 else if on t PNL_HOST_CTL.mode then 2 else 1)

/-- From `s` to `t` a wake from P2 starts with a source code (R544 to R546). -/
def WakeStarts (s t : State) (code : Nat) : Prop :=
  t.th.waking = true ∧ rd t PWR_PSTATE.busy = 1 ∧ rd t PWR_PSTATE.target = 0 ∧ rd t THM_PORTER_CTL.last_source = code ∧
  rd t THM_PORTER_CTL.wakes = min (rd s THM_PORTER_CTL.wakes + 1) 255 ∧ t.mem = s.mem ∧ t.queues = s.queues

/-- Resets, start-up, host links and transitions (R520, R521, R544 to R548, R579, R609, R613 to R620): a reset whose kind is not blocked
runs start-up, or fails at step 2 with image 0 or 1 rejected; PANEL_READY and STARTUP_FAIL end it; host ports come up and go down; a
transition ends in the state asked for; a watched source, the timer and the management path wake the panel. -/
def Obligations.ResetsAndWakesRunStartUp : Prop :=
  (∀ flash h0 h1 s,
    let u := { writeFlash s flash with pw := { s.pw with standby := true } }
    (s.hst.resetKind = some 0 → exec (.coldReset flash h0 h1) s = .next (setBit u PNL_STATUS.cfg_ignored)) ∧
    (s.hst.resetKind ≠ some 0 → Does (.coldReset flash h0 h1) s fun t =>
      (imagesRun u → hubComesUp s h0 h1 → StartsUp s t 0 ∧
        rd t SEC_STATUS.lifecycle = rd s SEC_STATUS.lifecycle_next ∧ on t SEC_STATUS.open_seen = false ∧ on t PWR_STATUS.ovp_open = false ∧
        rd t THM_PORTER_CTL.wakes = 0 ∧ (h0 = false ∨ 3 ≤ unitState s 304 → rd t PNL_HUB_ROLE.primary = 1 ∧ on t PNL_START.one_hub = true) ∧
        (s.th.lossNote = true → Latched t 0x003)) ∧
      (¬imagesRun u → on t PNL_START.failed = true ∧ rd t PNL_START.fail_step = 2 ∧
        t.hst.resetKind = none ∧ (t.pw.offP3 = true ↔ runningCopy u 0 = none)))) ∧
  (∀ flash h0 h1 s, s.pw.offP3 = false →
    let u := writeFlash s flash
    let blocked := s.hst.resetKind = some 0 ∨ s.hst.resetKind = some 1
    (blocked → exec (.warmReset flash h0 h1) s = .next (setBit u PNL_STATUS.cfg_ignored)) ∧
    (¬blocked → Does (.warmReset flash h0 h1) s fun t => imagesRun u → hubComesUp s h0 h1 → StartsUp s t 1 ∧
      rd t THM_PORTER_CTL.wakes = rd s THM_PORTER_CTL.wakes ∧ rd t SEC_STATUS.open_seen = rd s SEC_STATUS.open_seen)) ∧
  (∀ cxl s, s.pw.offP3 = false → (∀ k, s.hst.resetKind = some k → 2 < k) → Does (.panelReset cxl) s fun t => StartsUp s t 2 ∧ t.hst.cxlReset = cxl ∧
    (∀ p < 2, rd t PNL_HOST_STATUS.rate p = rd s PNL_HOST_STATUS.rate p) ∧ rd t SEC_STATUS.lifecycle = rd s SEC_STATUS.lifecycle) ∧
  (∀ cxl s k, s.pw.offP3 = false → s.hst.resetKind = some k → k ≤ 2 → exec (.panelReset cxl) s = .next (setBit s PNL_STATUS.cfg_ignored)) ∧
  (∀ (ms : BitVec 16) s,
    let may := s.hst.resetKind.isSome = true ∧ on s PNL_START.failed = false ∧ readyNow s = true
    (¬may → exec (.panelReady ms) s = .next s) ∧
    (may → Does (.panelReady ms) s fun t => on t PNL_START.ready = true ∧ rd t PNL_START.ready_ms = ms.toNat ∧ rd t PNL_START.step = 10 ∧
      t.hst = { s.hst with resetKind := none, cxlReset := false } ∧ t.outbox = (if s.hst.cxlReset then [.cxlResetDone] else []) ++ s.outbox ∧
      t = { s with hst := t.hst, outbox := t.outbox, fields := t.fields } ∧
      FieldsBut [(PNL_START.ready, 0), (PNL_START.ready_ms, 0), (PNL_START.step, 0)] s t)) ∧
  (∀ (k : Fin 11) s, (s.hst.resetKind = none ∨ k.val = 0 ∨ k.val = 3 → exec (.startupFail k) s = .next s) ∧
    (s.hst.resetKind.isSome = true → k.val ≠ 0 → k.val ≠ 3 → Does (.startupFail k) s fun t => on t PNL_START.failed = true ∧ rd t PNL_START.fail_step = k ∧
      t.hst = { s.hst with resetKind := none, cxlReset := false } ∧ t = { s with hst := t.hst, fields := t.fields } ∧
      FieldsBut [(PNL_START.failed, 0), (PNL_START.fail_step, 0)] s t)) ∧
  (∀ (p : HostPortNo) (r : Fin 3) x8 ce me s, s.pw.offP3 = false → p.val ∉ s.hst.portHeld → p.val ∈ s.hst.hubsUp → r.val ≠ 0 →
    (Does (.perstRelease p r x8 ce me) s fun t => PortUp t p r x8 ce me ∧ p.val ∈ t.hst.perst ∧ t.mem = s.mem) ∧
    (rd s PNL_HOST_STATUS.rate p = 0 → p.val ∈ s.hst.perst → Does (.hostLinkUp p r x8 ce me) s fun t => PortUp t p r x8 ce me ∧
      (cacheOn t = cacheOn s → t = { s with fields := t.fields }) ∧
      (cacheOn t ≠ cacheOn s → t.dbHold = (!s.dbLines.isEmpty) ∧ t.mem = s.mem ∧ t.queues = s.queues))) ∧
  (∀ (p : HostPortNo) s, (rd s PNL_HOST_STATUS.rate p = 0 → exec (.hostLinkDown p) s = .next s) ∧
    (rd s PNL_HOST_STATUS.rate p ≠ 0 → Does (.hostLinkDown p) s fun t => rd t PNL_HOST_STATUS.rate p = 0 ∧ rd t PNL_HOST_STATUS.role p = 0 ∧
      on t PNL_HOST_STATUS.mem_en p = false ∧ rd t PNL_HOST_STATUS.link_downs p = min (rd s PNL_HOST_STATUS.link_downs p + 1) 65535 ∧
      kfind t.msix p = none ∧ (∀ x ∈ t.sec.sessions, x.port ≠ p.val) ∧ (p.val = homePort s → t.hst.snoop = []) ∧ t.mem = s.mem ∧ t.queues = s.queues)) ∧
  (∀ s, (on s PWR_PSTATE.busy = false → exec .pstateTransitionEnd s = .next s) ∧
    (on s PWR_PSTATE.busy = true → s.th.waking = true → rd s PWR_PSTATE.target = 0 → Does .pstateTransitionEnd s fun t =>
      on t PWR_PSTATE.busy = false ∧ rd t PWR_PSTATE.current = 0 ∧ t.th.waking = false ∧ t = { s with th := t.th, fields := t.fields }) ∧
    (on s PWR_PSTATE.busy = true → s.th.waking = false → arraysBusy s = true → Does .pstateTransitionEnd s fun t => on t PWR_PSTATE.busy = true ∧
      OnlyFields [(PWR_PSTATE.busy, 0)] s t) ∧
    (on s PWR_PSTATE.busy = true → s.th.waking = false → arraysBusy s = false → s.th.wakeNext = none →
      let u := if diesRetained s then s else unitsRetain (wr s PWR_PSTATE.busy 0 0)
      (rd s PWR_PSTATE.target = 2 → watchedSource u = none → Does .pstateTransitionEnd s fun t => on t PWR_PSTATE.busy = false ∧
        rd t PWR_PSTATE.current = 2 ∧ (∀ d < 40, 2 ≤ rd t DIE_STATUS.die_state d) ∧ t.sec.nonceLive = false ∧ t.mem = u.mem ∧ t.queues = u.queues) ∧
      (rd s PWR_PSTATE.target = 2 → ∀ c, watchedSource u = some c → Does .pstateTransitionEnd s fun t => WakeStarts u t c ∧ rd t PWR_PSTATE.current = 2) ∧
      (rd s PWR_PSTATE.target = 3 → Does .pstateTransitionEnd s fun t => t.pw.offP3 = true ∧ t.queues = [] ∧
        ∀ a, outsideMem a = false → memByte t.mem a = memDefault a))) ∧
  (∀ s, s.pw.offP3 = false → rd s PWR_PSTATE.current = 2 → on s PWR_PSTATE.busy = false → bitOn (rd s SEC_STATUS.image_fail) 2 = false →
    (∀ n : Fin 1027, n.val < 0x400 → (∃ i < 16, ∃ e ∈ [rd s THM_PORTER_SRC.entry_0 i, rd s THM_PORTER_SRC.entry_1 i, rd s THM_PORTER_SRC.entry_2 i,
        rd s THM_PORTER_SRC.entry_3 i], bitOn e 15 = true ∧ e % 1024 = n) → Does (.porterWake n) s fun t => WakeStarts s t n) ∧
    (on s THM_PORTER_CTL.smbus_wake_en = true → Does (.porterWake 0x400) s fun t => WakeStarts s t 0x400) ∧
    (rd s THM_PORTER_CTL.timer_s ≠ 0 → Does .porterTimer s fun t => WakeStarts s t 0x401) ∧
    (Does (.mgmtWake true) s fun t => WakeStarts s t 0x403)) ∧
  (∀ s, s.pw.offP3 = true → bitOn (rd s SEC_STATUS.image_fail) 2 = false → Does (.mgmtWake true) s fun t => imagesRun s → hubComesUp s true true → StartsUp s t 0 ∧
    rd t THM_PORTER_CTL.last_source = 0x403 ∧ rd t THM_PORTER_CTL.wakes = 1) ∧
  (∀ s, exec (.mgmtWake false) s = .next (setBit s THM_STATUS.cfg_ignored) ∧ (rd s THM_PORTER_CTL.timer_s = 0 → exec .porterTimer s = .next s))

/-! ### Events, Galleries and timers (file 17) -/

/-- A source raised at `t` (R551, R552): its latch is set, it is pending if the latch was not set before, and nothing else differs. -/
def SourceRaised (s t : State) (src : Nat) : Prop :=
  Latched t src ∧ (Latched s src → t = s) ∧ (¬Latched s src → bitOn (rd t EVT_PEND.pending (src / 64)) (src % 64) = true) ∧ OnlyFields (evtWords src) s t

/-- The message of a vector is sent through the home port, or waits in that port's pending-bit array (R555, R603). -/
def MessageSent (s t : State) (v : Nat) : Prop :=
  let m := kget s.msix (rd s PNL_HUB_ROLE.primary) ⟨false, [], []⟩
  (m.enabled = true ∧ m.unmasked.contains v = true → t.outbox = .msix v :: s.outbox ∧ t.msix = s.msix) ∧
  (¬(m.enabled = true ∧ m.unmasked.contains v = true) → t.outbox = s.outbox ∧ v ∈ (kget t.msix (rd s PNL_HUB_ROLE.primary) ⟨false, [], []⟩).pba)

/-- A rescan (R560): the pending bits are those before and those of every latched shared source that is not active. -/
def Rescanned (s t : State) : Prop :=
  OnlyFields ((List.range 16).map fun w => (EVT_PEND.pending, w)) s t ∧ ∀ n < 1024,
    (bitOn (rd t EVT_PEND.pending (n / 64)) (n % 64) = true ↔ bitOn (rd s EVT_PEND.pending (n / 64)) (n % 64) = true ∨
      (Latched s n ∧ ¬(on s EVT_HOST_ACTIVE.valid = true ∧ on s EVT_HOST_ACTIVE.priv = false ∧ rd s EVT_HOST_ACTIVE.source = n) ∧
        ∀ e ∈ s.gal.stewardActive, e.2 ≠ n))

/-- The event controller (R550 to R556, R559, R560): named events and software sources are raised once until acknowledged; the target of a
source takes its lowest pending enabled one, shared before private, and the host is sent its message; an EOI that matches ends it, and it is
pending again if its latch is still set; any other EOI only sets eoi_mismatch; a rescan brings back what is latched. -/
def Obligations.EventsAreLatchedAndDelivered : Prop :=
  (∀ (k : Fin 1024) s, (s.pw.offP3 = false → srcNamed k = true → Does (.eventLatch k) s fun t => SourceRaised s t k) ∧
    (s.pw.offP3 = true ∨ srcNamed k = false → exec (.eventLatch k) s = .next s)) ∧
  (∀ (n : Fin 128) s, Does (.evtSwSet n) s fun t => SourceRaised s t (0x380 + n)) ∧
  (∀ (k : Fin 1024) s, Does (.evtAck k) s fun t => ¬Latched t k ∧ (∀ n < 1024, n ≠ k.val → (Latched t n ↔ Latched s n)) ∧
    OnlyFields [(EVT_LEVEL.latched, k / 64)] s t) ∧
  (∀ n s, nextShared s 4 = some n → running s = true → on s EVT_HOST_ACTIVE.valid = false → Does (.sourceActivate 4 false) s fun t =>
    on t EVT_HOST_ACTIVE.valid = true ∧ on t EVT_HOST_ACTIVE.priv = false ∧ rd t EVT_HOST_ACTIVE.source = n ∧
    bitOn (rd t EVT_PEND.pending (n / 64)) (n % 64) = false ∧ MessageSent s t (rd s EVT_SRC_CFG.vector n) ∧
    t = { s with fields := t.fields, outbox := t.outbox, msix := t.msix } ∧
    FieldsBut [(EVT_HOST_ACTIVE.valid, 0), (EVT_HOST_ACTIVE.priv, 0), (EVT_HOST_ACTIVE.source, 0), (EVT_PEND.pending, n / 64)] s t) ∧
  (∀ p s, nextShared s 4 = none → nextPrivate s = some p → running s = true → on s EVT_HOST_ACTIVE.valid = false → Does (.sourceActivate 4 false) s fun t =>
    on t EVT_HOST_ACTIVE.valid = true ∧ on t EVT_HOST_ACTIVE.priv = true ∧ rd t EVT_HOST_ACTIVE.source = p ∧
    bitOn (rd t EVT_HOST_PRIV.pending) p = false ∧ MessageSent s t (rd s EVT_CTL.priv_vector)) ∧
  (∀ eoi s, running s = false ∨ on s EVT_HOST_ACTIVE.valid = true ∨ (nextShared s 4 = none ∧ nextPrivate s = none) →
    exec (.sourceActivate 4 eoi) s = .next s) ∧
  (∀ (g : Fin 5) s n, running s = true → g.val < 4 → (kfind s.gal.stewardActive g = none → nextShared s g = some n → Does (.sourceActivate g false) s fun t =>
      kfind t.gal.stewardActive g = some n ∧ bitOn (rd t EVT_PEND.pending (n / 64)) (n % 64) = false) ∧
    ((kfind s.gal.stewardActive g).isSome = true → exec (.sourceActivate g false) s = .next s) ∧
    (kfind s.gal.stewardActive g = some n → nextShared (repend s n) g = none → Does (.sourceActivate g true) s fun t =>
      kfind t.gal.stewardActive g = none ∧ t.fields = (repend s n).fields)) ∧
  (∀ priv (k : BitVec 10) s,
    let it := on s EVT_HOST_ACTIVE.valid = true ∧ on s EVT_HOST_ACTIVE.priv = priv ∧ rd s EVT_HOST_ACTIVE.source = k.toNat
    (¬it → exec (.evtHostEoi priv k) s = .next (setBit s EVT_STATUS.eoi_mismatch)) ∧
    (it → Does (.evtHostEoi priv k) s fun t => on t EVT_HOST_ACTIVE.valid = false ∧
      (priv = false → Latched s k.toNat → bitOn (rd t EVT_PEND.pending (k.toNat / 64)) (k.toNat % 64) = true) ∧
      (priv = true ∨ ¬Latched s k.toNat → rd t EVT_PEND.pending (k.toNat / 64) = rd s EVT_PEND.pending (k.toNat / 64)) ∧
      OnlyFields [(EVT_HOST_ACTIVE.valid, 0), (EVT_HOST_ACTIVE.priv, 0), (EVT_HOST_ACTIVE.source, 0), (EVT_PEND.pending, k.toNat / 64)] s t)) ∧
  (∀ (w : Fin 17) (b : W64) s, Does (.evtPendWrite w b) s fun t =>
    (w.val < 16 → rd t EVT_PEND.pending w = b.toNat ∧ OnlyFields [(EVT_PEND.pending, w)] s t) ∧
    (w.val = 16 → rd t EVT_HOST_PRIV.pending = b.toNat ∧ OnlyFields [(EVT_HOST_PRIV.pending, 0)] s t)) ∧
  (∀ s, Does .rescan s fun t => Rescanned s t) ∧
  (∀ s, (rd s EVT_CTL.rescan_ms ≠ 0 → running s = true → Does .periodicRescan s fun t => Rescanned s t) ∧
    (rd s EVT_CTL.rescan_ms = 0 ∨ running s = false → exec .periodicRescan s = .next s))

/-- An alarm (R575): it is due when the primary hub's tick minus its comparison value, as a signed 64-bit value, is at least 0. -/
def Obligations.AlarmsComeDueAsSigned : Prop := ∀ (k : Fin 16) s,
  let due := 0 ≤ (BitVec.ofNat 64 (hubTick s) - BitVec.ofNat 64 (rd s TMR_ALARM_CMP.compare k)).toInt
  (on s TMR_ALARM_CTL.enable k = true → due → Does (.alarm k) s fun t => bitOn (rd t EVT_HOST_PRIV.pending) k = true ∧
    (∀ j < 64, j ≠ k.val → bitOn (rd t EVT_HOST_PRIV.pending) j = bitOn (rd s EVT_HOST_PRIV.pending) j) ∧
    (rd s TMR_ALARM_CTL.period k ≠ 0 → on t TMR_ALARM_CTL.enable k = true ∧
      rd t TMR_ALARM_CMP.compare k = (rd s TMR_ALARM_CMP.compare k + rd s TMR_ALARM_CTL.period k) % 2 ^ 64) ∧
    (rd s TMR_ALARM_CTL.period k = 0 → on t TMR_ALARM_CTL.enable k = false) ∧
    OnlyFields [(EVT_HOST_PRIV.pending, 0), (TMR_ALARM_CTL.enable, k), (TMR_ALARM_CMP.compare, k)] s t) ∧
  (on s TMR_ALARM_CTL.enable k = false ∨ ¬due → exec (.alarm k) s = .next s)

/-- Galleries and the correlation of ticks (R564 to R571, R574): a sample counts in its bin, halving all of them first if its bin is full, and
keeps the extremes with the tick of the first sample that reached them; a publish shows every record but a held one, with a new seq; the
cursor's write holds its record, and clears it; new bins wait for the next publish. -/
def Obligations.GalleriesSampleAndPublish : Prop :=
  (∀ (x : GalRec) v tick,
    let b := galBin x v
    x.bins.length = 16 → b < 16 ∧ (((v - x.lo) / 2 ^ x.shift : Int) < 0 → b = 0) ∧
      (0 ≤ ((v - x.lo) / 2 ^ x.shift : Int) → (b : Int) = min 15 ((v - x.lo) / 2 ^ x.shift)) ∧
      (x.bins.getD b 0 < 65535 → (galAdd x v tick).bins = x.bins.set b (x.bins.getD b 0 + 1) ∧ (galAdd x v tick).halvings = x.halvings) ∧
      (x.bins.getD b 0 = 65535 → (galAdd x v tick).bins.getD b 0 = 32768 ∧ (galAdd x v tick).halvings = min 63 (x.halvings + 1) ∧
        ∀ j < 16, j ≠ b → (galAdd x v tick).bins.getD j 0 = x.bins.getD j 0 / 2) ∧
      (∀ w k, x.low = some (w, k) → (galAdd x v tick).low = if v < w then some (v, tick) else some (w, k)) ∧
      (∀ w k, x.high = some (w, k) → (galAdd x v tick).high = if w < v then some (v, tick) else some (w, k)) ∧
      (x.low = none → (galAdd x v tick).low = some (v, tick)) ∧ (x.high = none → (galAdd x v tick).high = some (v, tick))) ∧
  (∀ (g : Fin 42) (r : Fin 1024) (v : BitVec 32) s, (galSamples s g r = false → exec (.gallerySample g r v) s = .next s) ∧
    (galSamples s g r = true → Does (.gallerySample g r v) s fun t => galGet t g r = galAdd (galGet s g r) v.toInt (kget s.ticks g 0) ∧
      t = { s with gal := { s.gal with galWork := t.gal.galWork } } ∧ ∀ k, k ≠ galKey g r → kfind t.gal.galWork k = kfind s.gal.galWork k)) ∧
  (∀ (g : Fin 42) s, Does (.galleryPublish g) s fun t => t = { s with gal := t.gal } ∧ ∀ r < 1024,
    let free := galKeeps s g r = true ∧ ∀ e ∈ s.gal.galHold, e.2 ≠ galKey g r
    (¬free → kfind t.gal.galSeen (galKey g r) = kfind s.gal.galSeen (galKey g r)) ∧
    (free → kfind t.gal.galBins (galKey g r) = none ∧ ∃ x, kfind t.gal.galSeen (galKey g r) = some x ∧ x.valid = true ∧
      x.seq = (match kfind s.gal.galSeen (galKey g r) with | some y => (y.seq + 1) % 2 ^ 31 | none => 1) ∧
      x.low = (galGet s g r).low ∧ x.high = (galGet s g r).high ∧
      (kfind s.gal.galBins (galKey g r) = none → x.bins = (galGet s g r).bins ∧ x.lo = (galGet s g r).lo ∧ x.shift = (galGet s g r).shift) ∧
      (∀ lo sh, kfind s.gal.galBins (galKey g r) = some (lo, sh) → x.bins = List.replicate 16 0 ∧ x.lo = lo ∧ x.shift = sh))) ∧
  (∀ (b : Fin 41) (r : BitVec 10) hub clear s, Does (.galCursorWrite b r hub clear) s fun t => rd t GAL_CURSOR.record b = r.toNat ∧
    on t GAL_CURSOR.hub b = (b.val == 40 && hub) ∧
    (rd s GAL_CTL.hold_us b = 0 → kfind t.gal.galHold b = none) ∧
    (rd s GAL_CTL.hold_us b ≠ 0 → kfind t.gal.galHold b = some (galKey (galSelected t b).1 (galSelected t b).2)) ∧
    (clear = false → t.gal.galWork = s.gal.galWork) ∧
    (clear = true → (galQuantity (galSelected t b).1 (galSelected t b).2).isSome = true →
      let w := galGet s (galSelected t b).1 (galSelected t b).2
      kfind t.gal.galWork (galKey (galSelected t b).1 (galSelected t b).2) = some (galFresh w.lo w.shift)) ∧
    t = { s with gal := t.gal, fields := t.fields } ∧ FieldsBut [(GAL_CURSOR.record, b), (GAL_CURSOR.hub, b)] s t) ∧
  (∀ (b : Fin 41) (lo : BitVec 16) (sh : BitVec 4) s, Does (.galBinsWrite b lo sh) s fun t => t = { s with gal := { s.gal with galBins := t.gal.galBins } } ∧
    ((galQuantity (galSelected s b).1 (galSelected s b).2).isSome = true →
      kfind t.gal.galBins (galKey (galSelected s b).1 (galSelected s b).2) = some (lo.toInt, sh.toNat))) ∧
  (∀ (b : Fin 41) s, (kfind s.gal.galHold b = none → exec (.holdEnd b) s = .next s) ∧
    (∀ g r, kfind s.gal.galHold b = some (galKey g r) → r < 1024 → Does (.holdEnd b) s fun t => kfind t.gal.galHold b = none ∧ t = { s with gal := t.gal } ∧
      (galKeeps s g r = true → ∃ x, kfind t.gal.galSeen (galKey g r) = some x ∧ x.valid = true))) ∧
  (∀ s, Does .tmrCorr s fun t => rd t TMR_CORR_HUB.tick = hubTick s % 2 ^ 64 ∧
    (∀ d < 40, rd t TMR_CORR_DIE.tick d = if dieActive s d = true then kget s.ticks d 0 % 2 ^ 64 else 0) ∧
    OnlyFields ((TMR_CORR_HUB.tick, 0) :: (List.range 40).map fun d => (TMR_CORR_DIE.tick, d)) s t)

/-! ### The security mailbox (file 18) -/

/-- The code of a mailbox command and the path it arrives over (Table 18.12). -/
def mailboxCommand : Instr → Option (Nat × SecPath)
  | .getNonce p => some (1, p)
  | .unlock p _ => some (2, p)
  | .setDebug p => some (3, p)
  | .advanceArb p _ _ => some (4, p)
  | .lifecycle p _ => some (5, p)
  | .fuseAuth p _ => some (6, p)
  | _ => none

/-- A mailbox command of a code has completed with a result: the buffer is clear, and no field differs but the mailbox's own and `l`. -/
def Mailed (s t : State) (code result : Nat) (l : List (Fld × Nat)) : Prop :=
  rd t SEC_MBOX_CMD.cmd = code ∧ rd t SEC_MBOX_CMD.result = result ∧ (∀ i < 16, rd t SEC_MBOX_BUF.data i = 0) ∧
  FieldsBut ((SEC_MBOX_CMD.cmd, 0) :: (SEC_MBOX_CMD.result, 0) :: (List.range 16).map (fun i => (SEC_MBOX_BUF.data, i)) ++ l) s t ∧
  t = { s with fields := t.fields, sec := t.sec }

/-- The debug state is SEALED, with no time to run. -/
def IsSealed (t : State) : Prop := rd t SEC_STATUS.debug = 0 ∧ rd t DBG_STATUS.open_left_s = 0 ∧ t.sec.openTimed = false

/-- The two fields of the debug state. -/
def debugFields : List (Fld × Nat) := [(SEC_STATUS.debug, 0), (DBG_STATUS.open_left_s, 0)]

/-- The fields that entry to OPEN writes. -/
def openFields : List (Fld × Nat) := debugFields ++
  [(SEC_STATUS.open_seen, 0), (SEC_STATUS.ide_a, 0), (SEC_STATUS.ide_b, 0), (PNL_HOST_STATUS.ide, 0), (PNL_HOST_STATUS.ide, 1)]

/-- OPEN has been entered for a number of seconds, 0 for no limit (R593): both ports' IDE keys are gone and their streams not secure. -/
def Opened (s t : State) (duration : Nat) : Prop :=
  rd t SEC_STATUS.debug = 2 ∧ on t SEC_STATUS.open_seen = true ∧ rd t DBG_STATUS.open_left_s = duration ∧ t.sec.openTimed = (duration != 0) ∧
  t.sec.openAt = hubTick s ∧ (∀ k ∈ t.sec.ideKeys, k.port ≠ 0 ∧ k.port ≠ 1) ∧ rd t SEC_STATUS.ide_a = 0 ∧ rd t SEC_STATUS.ide_b = 0 ∧
  rd t PNL_HOST_STATUS.ide 0 = 0 ∧ rd t PNL_HOST_STATUS.ide 1 = 0

/-- The mailbox, lifecycle and debug state (R580, R586, R590 to R594, R596, R597, Table 18.12): BUSY during a panel transition, PATH over a
path that the table does not allow; each command's conditions and effect; a nonce and a timed OPEN come to their end. -/
def Obligations.MailboxFollowsItsTable : Prop :=
  (∀ c s code path, mailboxCommand c = some (code, path) →
    (s.pw.offP3 = true → exec c s = .next s) ∧
    (s.pw.offP3 = false → on s PWR_PSTATE.busy = true → Does c s fun t => rd t SEC_MBOX_CMD.cmd = code ∧
      rd t SEC_MBOX_CMD.result = 3 ∧ OnlyFields [(SEC_MBOX_CMD.cmd, 0), (SEC_MBOX_CMD.result, 0)] s t) ∧
    (s.pw.offP3 = false → on s PWR_PSTATE.busy = false → 4 ≤ code → path ≠ .management → Does c s fun t =>
      Mailed s t code 4 [(SEC_STATUS.path_rejected, 0)] ∧ t.sec = s.sec ∧ on t SEC_STATUS.path_rejected = true)) ∧
  (∀ s, s.pw.offP3 = false → on s PWR_PSTATE.busy = false →
    (∀ path, Does (.getNonce path) s fun t => Mailed s t 1 0 [(SEC_NONCE.nonce, 0)] ∧ rd t SEC_NONCE.nonce = (Config.nonce s.sec.nonceCount).toNat ∧
      t.sec = { s.sec with nonceLive := true, nonceCount := s.sec.nonceCount + 1 }) ∧
    (∀ path blown,
      (lifecycle s = 0 ∨ lifecycle s = 3 → Does (.unlock path blown) s fun t => Mailed s t 2 1 [] ∧ t.sec = s.sec) ∧
      (lifecycle s ≠ 0 → lifecycle s ≠ 3 → Does (.unlock path blown) s fun t => rd t SEC_NONCE.nonce = 0 ∧ t.sec.nonceLive = false ∧
        (tokenOk s (mbBuf s) = false → Mailed s t 2 2 [(SEC_STATUS.token_rejected, 0), (SEC_NONCE.nonce, 0)] ∧ on t SEC_STATUS.token_rejected = true ∧
          t.sec = { s.sec with nonceLive := false }) ∧
        (tokenOk s (mbBuf s) = true → leAt (mbBuf s) 6 1 = 2 → Mailed s t 2 0 ((SEC_NONCE.nonce, 0) :: openFields) ∧ Opened s t (leAt (mbBuf s) 0x0C 4)) ∧
        (tokenOk s (mbBuf s) = true → leAt (mbBuf s) 6 1 = 3 → Mailed s t 2 (if blown then 0 else 5) [(SEC_NONCE.nonce, 0), (SEC_STATUS.lifecycle_next, 0)] ∧
          rd t SEC_STATUS.lifecycle_next = 3 ∧ t.sec = { s.sec with nonceLive := false }))) ∧
    (∀ path,
      let arg := rd s SEC_MBOX_ARG.arg % 4
      let may := lifecycle s = 0 ∨ lifecycle s = 3
      (arg = 0 → Does (.setDebug path) s fun t => Mailed s t 3 0 debugFields ∧ IsSealed t) ∧
      (arg = 1 → Does (.setDebug path) s fun t => Mailed s t 3 0 debugFields ∧ rd t SEC_STATUS.debug = 1 ∧ t.sec.openTimed = false) ∧
      (arg = 2 → may → Does (.setDebug path) s fun t => Mailed s t 3 0 openFields ∧ Opened s t 0) ∧
      (arg = 3 ∨ (arg = 2 ∧ ¬may) → Does (.setDebug path) s fun t => Mailed s t 3 1 [] ∧ t.sec = s.sec)) ∧
    (∀ b0 b1,
      let i := rd s SEC_MBOX_ARG.arg / 256 % 4
      let v := rd s SEC_MBOX_ARG.arg % 128
      let may := v ≤ 64 ∧ arbCount s i ≤ v ∧ v ≤ rd s SEC_ARB.running_ver / 2 ^ (8 * i) % 256
      (may → Does (.advanceArb .management b0 b1) s fun t => Mailed s t 4 (if b0 && b1 then 0 else 5) [(SEC_ARB.arb, 0)] ∧
        arbCount t i = (if b0 || b1 then v else arbCount s i) ∧ (∀ j < 4, j ≠ i → arbCount t j = arbCount s j) ∧
        (∀ j < 4, rd t SEC_ARB.arb / 2 ^ (8 * j) % 256 = arbCount t j % 256) ∧ t.sec = { s.sec with arbFuses := t.sec.arbFuses }) ∧
      (¬may → Does (.advanceArb .management b0 b1) s fun t => Mailed s t 4 1 [] ∧ t.sec = s.sec)) ∧
    (∀ blown,
      let want := rd s SEC_MBOX_ARG.arg % 4
      let may := (want = 1 ∨ want = 2) ∧ lifecycle s + 1 = want ∧ rd s SEC_STATUS.lifecycle_next = lifecycle s
      (may → Does (.lifecycle .management blown) s fun t => Mailed s t 5 (if blown then 0 else 5) [(SEC_STATUS.lifecycle_next, 0)] ∧
        rd t SEC_STATUS.lifecycle_next = want ∧ t.sec = s.sec) ∧
      (¬may → Does (.lifecycle .management blown) s fun t => Mailed s t 5 1 [] ∧ t.sec = s.sec)) ∧
    (∀ blown,
      (lifecycle s = 1 → s.sec.authDigest = none → Does (.fuseAuth .management blown) s fun t => Mailed s t 6 (if blown then 0 else 5) [] ∧
        t.sec = { s.sec with authDigest := some (BitVec.ofNat 512 (leNat ((mbBuf s).take 64))) }) ∧
      (lifecycle s ≠ 1 ∨ s.sec.authDigest.isSome = true → Does (.fuseAuth .management blown) s fun t => Mailed s t 6 1 [] ∧ t.sec = s.sec))) ∧
  (∀ s, Does .nonceExpiry s fun t => rd t SEC_NONCE.nonce = 0 ∧ t.sec = { s.sec with nonceLive := false } ∧
    t = { s with fields := t.fields, sec := t.sec } ∧ FieldsBut [(SEC_NONCE.nonce, 0)] s t) ∧
  (∀ s, (rd s SEC_STATUS.debug = 2 → s.sec.openTimed = true → Does .openExpiry s fun t => IsSealed t ∧
      t = { s with fields := t.fields, sec := t.sec } ∧ FieldsBut debugFields s t) ∧
    (rd s SEC_STATUS.debug ≠ 2 ∨ s.sec.openTimed = false → exec .openExpiry s = .next s)) ∧
  (∀ s, Does .dbgSeal s fun t => IsSealed t ∧ t = { s with fields := t.fields, sec := t.sec } ∧ FieldsBut debugFields s t)

/-! ### Attestation and IDE keys (file 18) -/

/-- The port of an SPDM request, the step that the exchange must have come to, and whether it needs attestation code S (Table 18.9). -/
def spdmRequest : Instr → Option (Nat × Nat × Bool)
  | .getVersion p => some (p, 0, false)
  | .getCapabilities p => some (p, 1, false)
  | .negotiateAlgorithms p _ => some (p, 2, false)
  | .getDigests p => some (p, 3, true)
  | .getCertificate p _ _ _ => some (p, 3, true)
  | .challenge p _ _ => some (p, 3, true)
  | .getMeasurements p _ signed _ => some (p, 3, signed)
  | .keyExchange p => some (p, 3, true)
  | .finish p _ _ => some (p, 3, true)
  | .endSession p _ => some (p, 3, true)
  | .getCsr p _ => some (p, 3, true)
  | .setCertificate p _ _ => some (p, 3, true)
  | .cxlIdeKm p _ _ => some (p, 3, true)
  | _ => none

/-- The request is answered by its own rule. -/
def Answerable (s : State) (port step : Nat) (full : Bool) : Prop :=
  s.pw.offP3 = false ∧ rd s PNL_HOST_STATUS.rate port ≠ 0 ∧ (full = true → lifecycle s = 1 ∨ lifecycle s = 2) ∧ step ≤ kget s.sec.spdmStep port 0

/-- An SPDM answer leaves a port; of the rest only what attestation and the IDE keys hold may differ. -/
def Told (s t : State) (port : Nat) (a : SpdmAns) : Prop := t.outbox = .spdm port a :: s.outbox ∧ t = { s with sec := t.sec, fields := t.fields, outbox := t.outbox }

/-- The five measurement blocks (Table 18.5): four image digests of 64 bytes, and the lifecycle, the debug state, the flags and the four
counters in force. -/
def measurementBlock (s : State) (i : Nat) : List Byte :=
  if i ≤ 4 then kget s.sec.imgDigest (i - 1) (List.replicate 64 0)
  else (leBytes 1 (rd s SEC_STATUS.lifecycle) ++ leBytes 1 (rd s SEC_STATUS.debug) ++
    leBytes 1 (rd s SEC_STATUS.open_seen + (if rd s SEC_STATUS.copy_b = 0 then 0 else 2) + (if s.sec.authDigest = none then 0 else 4)) ++
    leBytes 1 (arbCount s 0) ++ leBytes 1 (arbCount s 1) ++ leBytes 1 (arbCount s 2) ++ leBytes 1 (arbCount s 3) ++ List.replicate 9 0)

/-- Attestation and IDE key management (R582 to R584, R593, Tables 18.4, 18.5, 18.10): a port without power is silent; a request that the
attestation code does not allow is answered with UnsupportedRequest, one out of its step with another error (the step order is that of DMTF
SPDM 1.2, the model's presumption); each other answer and what it changes. -/
def Obligations.RespondersAnswerByTheirState : Prop :=
  (∀ c s port step full, spdmRequest c = some (port, step, full) →
    (s.pw.offP3 = true ∨ rd s PNL_HOST_STATUS.rate port = 0 → exec c s = .next s) ∧
    (s.pw.offP3 = false → rd s PNL_HOST_STATUS.rate port ≠ 0 → full = true → lifecycle s ≠ 1 → lifecycle s ≠ 2 →
      exec c s = .next (emit s (.spdm port (.error true)))) ∧
    (s.pw.offP3 = false → rd s PNL_HOST_STATUS.rate port ≠ 0 → (full = true → lifecycle s = 1 ∨ lifecycle s = 2) →
      kget s.sec.spdmStep port 0 < step → exec c s = .next (emit s (.spdm port (.error false))))) ∧
  (∀ (p : HostPortNo) s,
    (Answerable s p 0 false → Does (.getVersion p) s fun t => Told s t p (.version [0x12]) ∧ t.fields = s.fields ∧ kget t.sec.spdmStep p 0 = 1) ∧
    (Answerable s p 1 false → Does (.getCapabilities p) s fun t => Told s t p .capabilities ∧ t.fields = s.fields ∧ kget t.sec.spdmStep p 0 = 2) ∧
    (Answerable s p 2 false → Does (.negotiateAlgorithms p true) s fun t => Told s t p .algorithms ∧ t.fields = s.fields ∧ kget t.sec.spdmStep p 0 = 3) ∧
    (Answerable s p 2 false → exec (.negotiateAlgorithms p false) s = .next (emit s (.spdm p (.error false))))) ∧
  (∀ (p : HostPortNo) s, Answerable s p 3 true →
    let filled (i : Nat) : Prop := i < 2 ∧ certSlot s i ≠ []
    certSlot s 0 = Config.factoryChain ∧ certSlot s 1 = kget s.sec.certs 1 [] ∧
    (∃ l, exec (.getDigests p) s = .next (emit s (.spdm p (.digests l))) ∧ ∀ i d, (i, d) ∈ l ↔ filled i ∧ d = Config.sha512 (certSlot s i)) ∧
    (∀ (i : Fin 8) (o n : BitVec 16), exec (.getCertificate p i o n) s = .next (emit s (.spdm p
      (if 2 ≤ i.val ∨ certSlot s i = [] then .error false else .certificate i (((certSlot s i).drop o.toNat).take n.toNat))))) ∧
    (∀ (i : Fin 8) nonce, exec (.challenge p i nonce) s = .next (emit s (.spdm p
      (if 2 ≤ i.val ∨ certSlot s i = [] then .error false else .challengeAuth (Config.ed25519Sign identitySeed (leBytes 32 nonce.toNat)))))) ∧
    (∀ nonce, exec (.getCsr p nonce) s = .next (emit s (.spdm p
      (if lifecycle s = 1 then .csr (Config.ed25519Sign identitySeed (leBytes 32 nonce.toNat)) else .error true)))) ∧
    (∀ (i : Fin 8) chain,
      (lifecycle s = 2 → exec (.setCertificate p i chain) s = .next (emit s (.spdm p (.error true)))) ∧
      (lifecycle s = 1 → i.val ≠ 1 ∨ 4096 < chain.length → exec (.setCertificate p i chain) s = .next (emit s (.spdm p (.error false)))) ∧
      (lifecycle s = 1 → i.val = 1 → chain.length ≤ 4096 → Does (.setCertificate p i chain) s fun t => Told s t p (.setCertificate 1) ∧
        t.fields = s.fields ∧ certSlot t 1 = chain ∧ certSlot t 0 = certSlot s 0))) ∧
  (∀ (p : HostPortNo) (i : BitVec 8) signed nonce s, Answerable s p 3 signed →
    let sig := if signed then some (Config.ed25519Sign identitySeed (leBytes 32 nonce.toNat)) else none
    (i = 0xFF → exec (.getMeasurements p i signed nonce) s =
      .next (emit s (.spdm p (.measurements ([1, 2, 3, 4, 5].map fun k => (k, measurementBlock s k)) sig)))) ∧
    (1 ≤ i.toNat → i.toNat ≤ 5 → exec (.getMeasurements p i signed nonce) s =
      .next (emit s (.spdm p (.measurements [(i.toNat, measurementBlock s i.toNat)] sig)))) ∧
    (i = 0 ∨ (5 < i.toNat ∧ i ≠ 0xFF) → exec (.getMeasurements p i signed nonce) s = .next (emit s (.spdm p (.error false))))) ∧
  (∀ (p : HostPortNo) s, Answerable s p 3 true →
    let mine := s.sec.sessions.filter (·.port == p.val)
    let has (id : Nat) (done : Bool) : Prop := ⟨p.val, id, done⟩ ∈ s.sec.sessions
    (rd s SEC_STATUS.debug = 2 ∨ 2 ≤ mine.length → exec (.keyExchange p) s = .next (emit s (.spdm p (.error false)))) ∧
    (rd s SEC_STATUS.debug ≠ 2 → mine.length < 2 → ∃ id, id < 2 ∧ Does (.keyExchange p) s fun t => Told s t p (.keyExchange id) ∧ t.fields = s.fields ∧
      (∀ x ∈ mine, x.id ≠ id) ∧ t.sec = { s.sec with sessions := s.sec.sessions ++ [⟨p.val, id, false⟩] }) ∧
    (∀ (id : Fin 2) valid,
      (valid = true → has id false → Does (.finish p id valid) s fun t => Told s t p (.finish id) ∧ t.fields = s.fields ∧
        ⟨p.val, id.val, true⟩ ∈ t.sec.sessions ∧ t.sec.sessions.length = s.sec.sessions.length) ∧
      (valid = false ∨ ¬has id false → exec (.finish p id valid) s = .next (emit s (.spdm p (.error false))))) ∧
    (∀ (id : Fin 2),
      (has id true → Does (.endSession p id) s fun t => Told s t p (.endSession id) ∧ t.fields = s.fields ∧
        t.sec = { s.sec with sessions := t.sec.sessions } ∧ ∀ x, x ∈ t.sec.sessions ↔ x ∈ s.sec.sessions ∧ x ≠ ⟨p.val, id.val, true⟩) ∧
      (¬has id true → exec (.endSession p id) s = .next (emit s (.spdm p (.error false))))) ∧
    (∀ (id : Fin 2) op,
      (¬has id true ∨ rd s SEC_STATUS.debug = 2 → exec (.cxlIdeKm p id op) s = .next (emit s (.spdm p (.error false)))) ∧
      (has id true → rd s SEC_STATUS.debug ≠ 2 → Does (.cxlIdeKm p id op) s fun t => Told s t p .ideKm ∧
        (∀ k, k.port ≠ p.val → (k ∈ t.sec.ideKeys ↔ k ∈ s.sec.ideKeys)) ∧
        (∀ n key, op = .program n key → ⟨p.val, n.toNat, key, false⟩ ∈ t.sec.ideKeys ∧ ∀ k ∈ t.sec.ideKeys, k.port = p.val → k.slot = n.toNat →
          k = ⟨p.val, n.toNat, key, false⟩) ∧
        (∀ n, op = .setGo n → ∀ k ∈ t.sec.ideKeys, k.port = p.val → k.slot = n.toNat → k.active = true) ∧
        (∀ n, op = .setStop n → ∀ k ∈ t.sec.ideKeys, k.port = p.val → k.slot = n.toNat → k.active = false) ∧
        (rd t PNL_HOST_STATUS.ide p = 1 ↔ ∃ k ∈ t.sec.ideKeys, k.port = p.val ∧ k.active = true) ∧
        FieldsBut [(if p.val = 0 then SEC_STATUS.ide_a else SEC_STATUS.ide_b, 0), (PNL_HOST_STATUS.ide, p)] s t)))

/-! ### The host ports and the window (file 19) -/

/-- A port takes window accesses of a line: it is the home port, up, with its decoder committed, and the line lies in the segments in force. -/
def WindowOpen (s : State) (p : HostPortNo) (line : BitVec 36) : Prop :=
  s.pw.offP3 = false ∧ p.val = rd s PNL_HUB_ROLE.primary ∧ on s PNL_HOST_STATUS.mem_en p = true ∧ rd s PNL_HOST_STATUS.rate p ≠ 0 ∧
  64 * line.toNat / 2 ^ 34 < inForce s PNL_MEM_WIN.segments

/-- The device physical address of a window offset by its segment entry (R604). -/
def windowAddress (s : State) (h : Nat) : Nat :=
  rd s PNL_MEM_SEG.window (h / 2 ^ 34) * 2 ^ 36 + rd s PNL_MEM_SEG.part (h / 2 ^ 34) * 2 ^ 34 + h % 2 ^ 34

/-- A hole access (R605): the segment is not valid, there is no such stack, or the address is a hole or in an excluded stack. -/
def WindowHole (s : State) (h : Nat) : Prop :=
  on s PNL_MEM_SEG.valid (h / 2 ^ 34) = false ∨ 80 ≤ rd s PNL_MEM_SEG.window (h / 2 ^ 34) ∨ ∀ w, placeOf s (windowAddress s h) ≠ .stack w

/-- A takeover has begun (Table 19.2 step 1): the former primary's port is down and held, and no credit is given. -/
def TakingOver (s t : State) : Prop :=
  let p := rd s PNL_HUB_ROLE.primary
  t.hst.takingOver = true ∧ p ∈ t.hst.portHeld ∧ rd t PNL_HOST_STATUS.rate p = 0 ∧ rd t PNL_HUB_ROLE.primary = p ∧
  on t PWR_STATUS.credits_frozen = true ∧ t.mem = s.mem ∧ t.queues = s.queues

/-- Window accesses (R604 to R607): a hole reads zero and takes no write, and is counted; a stack that answers gives its bytes, with poison
where the line is uncorrectable, or takes the bytes before its completion (its die not in D3, whose stacks hold nothing); a full snoop
filter first sends the oldest line's recall; what the host gives back is written; a segment entry changes alone. -/
def Obligations.WindowLinesReachTheirStacks : Prop :=
  (∀ (p : HostPortNo) line op s, ¬WindowOpen s p line → exec (.windowAccess p line op) s = .next s) ∧
  (∀ (p : HostPortNo) line op s, WindowOpen s p line → WindowHole s (64 * line.toNat) → Does (.windowAccess p line op) s fun t =>
    rd t PNL_WIN_HOLES.holes = (rd s PNL_WIN_HOLES.holes + 1) % 2 ^ 64 ∧ t = { s with fields := t.fields, outbox := t.outbox } ∧
    FieldsBut [(PNL_WIN_HOLES.holes, 0)] s t ∧ (∀ hold, op = .read hold → t.outbox = .winData p (List.replicate 64 0) false :: s.outbox) ∧
    (∀ d hold, op = .write d hold → t.outbox = .winDone p :: s.outbox)) ∧
  (∀ (p : HostPortNo) line s, WindowOpen s p line → ¬WindowHole s (64 * line.toNat) →
    let a := windowAddress s (64 * line.toNat)
    let held := ∃ l ∈ s.hst.snoop, l.1 = a
    let full := 2 ^ 20 ≤ s.hst.snoop.length
    (∀ l rest, s.hst.snoop = (l, false) :: rest → full → ¬held → ∀ op, op = .read true ∨ (∃ d, op = .write d true) →
      exec (.windowAccess p line op) s = .next { s with outbox := .bisnp l :: s.outbox, hst := { s.hst with snoop := (l, true) :: rest } }) ∧
    (reachStatus s a = stOk → rd s DIE_STATUS.die_state (a / 2 ^ 37) ≠ 3 → ∀ hold, (hold = true → ¬full ∨ held) →
      (Does (.windowAccess p line (.read hold)) s fun t => t.mem = s.mem ∧ t.outbox = .winData p (memBytes s.mem a 64) (s.ue.contains a) :: s.outbox ∧
        t.queues = s.queues ∧ t.ue = s.ue ∧ (hold = true ↔ ∃ l ∈ t.hst.snoop, l.1 = a) ∧ (∀ l, l.1 ≠ a → (l ∈ t.hst.snoop ↔ l ∈ s.hst.snoop))) ∧
      (∀ d, Does (.windowAccess p line (.write d hold)) s fun t => t.outbox = .winDone p :: s.outbox ∧ t.queues = s.queues ∧ a ∉ t.ue ∧
        (∀ b, memByte t.mem b = if a ≤ b ∧ b < a + 64 then BitVec.ofNat 8 (d.toNat / 256 ^ (b - a)) else memByte s.mem b) ∧
        (hold = true ↔ ∃ l ∈ t.hst.snoop, l.1 = a)))) ∧
  (∀ (line : BitVec 46) s,
    let a := 64 * line.toNat
    ((∀ l ∈ s.hst.snoop, l.1 ≠ a) → ∀ data, exec (.bisnp line data) s = .next s) ∧
    ((∃ l ∈ s.hst.snoop, l.1 = a) →
      exec (.bisnp line none) s = .next { s with hst := { s.hst with snoop := s.hst.snoop.filter fun l => l.1 != a } }) ∧
    ((∃ l ∈ s.hst.snoop, l.1 = a) → (∀ l ∈ s.hst.snoop, l.1 % 64 = 0) → a < 80 * 2 ^ 36 → reachStatus s a = stOk →
      rd s DIE_STATUS.die_state (a / 2 ^ 37) ≠ 3 → ∀ d, Does (.bisnp line (some d)) s fun t =>
      t.hst = { s.hst with snoop := s.hst.snoop.filter fun l => l.1 != a } ∧
      ∀ b, memByte t.mem b = if a ≤ b ∧ b < a + 64 then BitVec.ofNat 8 (d.toNat / 256 ^ (b - a)) else memByte s.mem b)) ∧
  (∀ (g : Fin 256) (v : W64) s, Does (.pnlMemSegWrite g v) s fun t =>
    (on t PNL_MEM_SEG.valid g = true ↔ v.toNat / 2 ^ 15 % 2 = 1) ∧ rd t PNL_MEM_SEG.window g = v.toNat / 4 % 128 ∧ rd t PNL_MEM_SEG.part g = v.toNat % 4 ∧
    OnlyFields [(PNL_MEM_SEG.valid, g), (PNL_MEM_SEG.window, g), (PNL_MEM_SEG.part, g)] s t)

/-- Host ports and hub takeover (R44, R573, R601, R603, R608 to R610): roles by mode; waiting messages leave when their vector and port allow
it; a takeover begins on each of its triggers when the standby holds the state, and a failed primary without one stops dispatch; the takeover
flips the primary, drops the nonce, seals the debug state and resumes. -/
def Obligations.HubsTakeOverAndPortsFollow : Prop :=
  (∀ dual s, Does (.hostModeWrite dual) s fun t => on t PNL_HOST_CTL.mode = dual ∧
    (∀ p < 2, rd t PNL_HOST_STATUS.role p = if rd s PNL_HOST_STATUS.rate p = 0 then 0 else if p = rd s PNL_HUB_ROLE.primary then 3 else if dual then 2 else 1) ∧
    OnlyFields [(PNL_HOST_CTL.mode, 0), (PNL_HOST_STATUS.role, 0), (PNL_HOST_STATUS.role, 1)] s t) ∧
  (∀ (p : HostPortNo) op s, s.pw.offP3 = false → Does (.msixUnmask p op) s fun t =>
    let m := kget s.msix p ⟨false, [], []⟩
    let m' := kget t.msix p ⟨false, [], []⟩
    let goes (v : Nat) : Prop := m'.enabled = true ∧ rd s PNL_HOST_STATUS.rate p ≠ 0 ∧ v ∈ m'.unmasked
    (∀ e, op = .enable e → m'.enabled = e ∧ m'.unmasked = m.unmasked) ∧
    (∀ n u, op = .vector n u → m'.enabled = m.enabled ∧ ∀ v, v ∈ m'.unmasked ↔ (if v = n.val then u = true else v ∈ m.unmasked)) ∧
    (∀ v, v ∈ m'.pba ↔ v ∈ m.pba ∧ ¬goes v) ∧ (∀ v, v ∈ m.pba → goes v → .msix v ∈ t.outbox) ∧
    t.outbox.length = s.outbox.length + (m.pba.length - m'.pba.length) ∧ t = { s with msix := t.msix, outbox := t.outbox }) ∧
  (∀ (p : HostPortNo) op s, s.pw.offP3 = true → exec (.msixUnmask p op) s = .next s) ∧
  (∀ s, exec (.takeover false) s = .next (setBit s PNL_STATUS.cfg_ignored)) ∧
  (∀ s, s.pw.offP3 = false → s.hst.resetKind = none → s.hst.takingOver = false → s.hst.hubLost = false →
    (∀ c ∈ [Instr.takeover true, .heartbeatMiss, .hubDomainFault], on s PNL_HUB_ROLE.peer_synced = true → Does c s (TakingOver s)) ∧
    (∀ c ∈ [Instr.heartbeatMiss, .hubDomainFault], on s PNL_HUB_ROLE.peer_synced = false → Does c s fun t =>
      t = { s with outbox := .hubLost :: s.outbox, hst := { s.hst with hubLost := true } }) ∧
    (on s PNL_HUB_ROLE.peer_synced = false → exec (.takeover true) s = .next s ∧ exec .homePortDown s = .next s) ∧
    (on s PNL_HUB_ROLE.peer_synced = true → rd s PNL_HOST_STATUS.rate (rd s PNL_HUB_ROLE.primary) = 0 →
      rd s PNL_HOST_STATUS.rate (1 - rd s PNL_HUB_ROLE.primary) ≠ 0 → Does .homePortDown s (TakingOver s))) ∧
  (∀ s, s.pw.offP3 = true ∨ s.hst.resetKind.isSome = true ∨ s.hst.takingOver = true ∨ s.hst.hubLost = true →
    ∀ c ∈ [Instr.takeover true, .heartbeatMiss, .hubDomainFault, .homePortDown], exec c s = .next s) ∧
  (∀ s, s.hst.takingOver = false → exec .hubTakeover s = .next s) ∧
  (∀ s, s.hst.takingOver = true → Does .hubTakeover s fun t =>
    let old := rd s PNL_HUB_ROLE.primary
    rd t PNL_HUB_ROLE.primary = 1 - old ∧ rd t PNL_HUB_ROLE.takeovers = min (rd s PNL_HUB_ROLE.takeovers + 1) (2 ^ PNL_HUB_ROLE.takeovers.w - 1) ∧
    on t PNL_HUB_ROLE.peer_synced = false ∧ old ∉ t.hst.hubsUp ∧ t.hst.takingOver = false ∧ t.mem = s.mem ∧
    rd t SEC_NONCE.nonce = 0 ∧ t.sec.nonceLive = false ∧ rd t SEC_STATUS.debug = 0 ∧ (∀ k ∈ t.sec.ideKeys, k.port ≠ old) ∧
    (∀ k ∈ s.sec.ideKeys, k.port ≠ old → k ∈ t.sec.ideKeys) ∧
    (∀ n < 1024, Latched s n ↔ Latched t n)) ∧
  (∀ s, s.pw.offP3 = true ∨ s.hst.resetKind.isSome = true ∨ s.hst.takingOver = true ∨ s.hst.hubLost = true ∨ unitState s (305 - rd s PNL_HUB_ROLE.primary) = 4 →
    exec .hubSync s = .next s) ∧
  (∀ s, s.pw.offP3 = false → s.hst.resetKind = none → s.hst.takingOver = false → s.hst.hubLost = false →
    unitState s (305 - rd s PNL_HUB_ROLE.primary) ≠ 4 → Does .hubSync s fun t =>
    on t PNL_HUB_ROLE.peer_synced = true ∧ 1 - rd s PNL_HUB_ROLE.primary ∈ t.hst.hubsUp ∧ 1 - rd s PNL_HUB_ROLE.primary ∉ t.hst.portHeld ∧
    t = { s with hst := t.hst, fields := t.fields } ∧ FieldsBut [(PNL_HUB_ROLE.peer_synced, 0)] s t)

/-! ### Registers, the management path and the debug access port (files 00, 01, 18, 19) -/

/-- A register that only holds what is written: no field with an action, a lock, a mark, a limit or a profile (Table 0.6). -/
def PlainReg (r : RegRow) : Prop :=
  (∀ x ∈ r.fields, x.acc = .rw ∧ x.chg = .imm ∧ x.norm = none ∧ (∀ e ∈ expertTable, ∀ g ∈ e.2, g.id ≠ x.f.id) ∧ (∀ g ∈ mgmtFields, g.id ≠ x.f.id) ∧
    (∀ e ∈ enableTable, e.1.id ≠ x.f.id) ∧ (∀ e ∈ goTable ++ goTable2, e.1.id ≠ x.f.id) ∧
    ∀ g ∈ [DIE_MEM_CTL.refresh_cap, THM_CTL.grace_ms, PWR_LIMIT.curr_limit, PNL_HOST_CTL.mode, OPT_CTL.enable, FAB_PORT_BUF.size_mib], g.id ≠ x.f.id) ∧
  ∀ s p i path mask v x, wholeWrite s p r i path mask v x = none

/-- An access takes a whole register or a half of one (R8). -/
def Sized (off bytes : Nat) : Prop := (bytes = 8 ∧ off % 8 = 0) ∨ (bytes = 4 ∧ off % 4 = 0)

/-- From `s` to `t` an access that no register answers is marked as early, as absent, or as both, by what holds (R35, R42, R619). -/
def MissNoted (s t : State) (off : Nat) : Prop :=
  (on t PNL_START.early_access = true ↔ on s PNL_START.early_access = true ∨ earlyAt s off = true) ∧
  (on t PNL_STATUS.absent_access = true ↔ on s PNL_STATUS.absent_access = true ∨ absentAt s off = true) ∧
  FieldsBut [(PNL_START.early_access, 0), (PNL_STATUS.absent_access, 0)] s t

/-- An access of BAR0 is answered by the block that it names: power, start-up and an existing unit (R35, R42, R619). -/
def Answered (s : State) (off : Nat) : Prop := s.pw.offP3 = false ∧ earlyAt s off = false ∧ absentAt s off = false

/-- Register accesses (R8 to R10, R35, R36, R42, R619): an access of another size or alignment has no effect and reads zero, nor has one of a
reserved offset an effect; before PANEL_READY or in an absent window it only sets its flag; a 32-bit read gives its half; a write of a
register that only holds values stores exactly the bits of the half it addresses; a register's unused bits read zero. -/
def Obligations.RegisterWritesStoreAddressedBits : Prop :=
  (∀ mgmt (off : BitVec 28) (n : Fin 65) v x s,
    let o := off.toNat
    let sized := Sized o n
    (¬sized → exec (.registerWrite mgmt off n v x) s = .next s) ∧
    (sized → s.pw.offP3 = false → earlyAt s o = true ∨ absentAt s o = true → Does (.registerWrite mgmt off n v x) s fun t => MissNoted s t o ∧
      t = { s with fields := t.fields }) ∧
    (sized → Answered s o → (spotOf (o / 8 * 8)).bind regAt = none → exec (.registerWrite mgmt off n v x) s = .next s) ∧
    (∀ p r k, sized → Answered s o → spotOf (o / 8 * 8) = some p → regAt p = some (r, k) → PlainReg r → Does (.registerWrite mgmt off n v x) s fun t =>
      let i := selected s p r k
      (∀ y ∈ r.fields, ∀ b < y.f.w, (rd t y.f i).testBit b =
        (if n.val = 8 then v.toNat.testBit (y.f.lo + b)
         else if (y.f.lo + b) / 32 = o % 8 / 4 then v.toNat.testBit ((y.f.lo + b) % 32) else (rd s y.f i).testBit b)) ∧
      OnlyFields (r.fields.map fun y => (y.f, i)) s t)) ∧
  (∀ s p r k b, regAt p = some (r, k) → p.space ≠ .gal → (∀ y ∈ r.fields, b < y.f.lo ∨ y.f.lo + y.f.w ≤ b) → (readReg s p).testBit b = false) ∧
  (∀ mgmt off n s, ¬Sized off n → barRead s mgmt off n = (s, 0)) ∧
  (∀ mgmt off s, off % 4 = 0 → missed s off = false → missed s (off / 8 * 8) = false → s.pw.offP3 = false →
    barRead s mgmt off 4 = (s, (barRead s mgmt (off / 8 * 8) 8).2 / 2 ^ (8 * (off % 8)) % 2 ^ 32)) ∧
  (∀ (off : BitVec 28) (n : Fin 65) w s,
    let o := off.toNat
    let misses (c : Instr) : Prop := Does c s fun t => t.outbox = (if w then [] else [.regData 0]) ++ s.outbox ∧
      t = { s with fields := t.fields, outbox := t.outbox } ∧ (Sized o n → MissNoted s t o) ∧ (¬Sized o n → t.fields = s.fields)
    (s.pw.offP3 = false → absentAt s o = true → misses (.absentAccess ⟨off, n⟩ w)) ∧
    (s.pw.offP3 = false → earlyAt s o = true → misses (.earlyAccess ⟨off, n⟩ w)) ∧
    (s.pw.offP3 = true ∨ absentAt s o = false → exec (.absentAccess ⟨off, n⟩ w) s = .next s) ∧
    (s.pw.offP3 = true ∨ earlyAt s o = false → exec (.earlyAccess ⟨off, n⟩ w) s = .next s))

/-- Unit states and profiles (R47 to R55): a unit's state is written whole, over the management path, with its generation and as Table 1.9
allows; a retired die takes its stacks and links with it; a preset gives its values to the expert fields of its function but for a locked
one, and EXPERT or an undefined value leaves them. -/
def Obligations.UnitsAndProfilesAreWritten : Prop :=
  (∀ mgmt (v : W64) s, exec (.unitStateWrite mgmt 2 v) s = .next s) ∧
  (∀ mgmt (half : Fin 3) (v : W64) s, half.val ≠ 2 →
    let u := rd s PNL_UNIT_SEL.index
    let ok := mgmt = true ∧ half.val = 0 ∧ u < 308 ∧ v.toNat / 2 ^ 32 % 2 ^ 16 = rd s PNL_UNIT_DATA.generation u
    let st := unitState s u
    let want := v.toNat % 16
    let move := (st = 1 ∧ want = 3) ∨ (st = 3 ∧ want = 1)
    let retire := (st = 1 ∨ st = 3) ∧ want = 4
    (¬ok ∨ ¬(move ∨ retire) → exec (.unitStateWrite mgmt half v) s = .next (setBit s PNL_STATUS.unit_write_rejected)) ∧
    (ok → move → Does (.unitStateWrite mgmt half v) s fun t => unitState t u = want ∧ rd t PNL_UNIT_DATA.origin u = 2 ∧
      rd t PNL_UNIT_DATA.generation u = (rd s PNL_UNIT_DATA.generation u + 1) % 2 ^ 16 ∧
      OnlyFields [(PNL_UNIT_DATA.state, u), (PNL_UNIT_DATA.origin, u), (PNL_UNIT_DATA.generation, u), (MGMT_VIEW.unit_gen, 0), (DATA_VIEW.unit_gen, 0)] s t) ∧
    (ok → retire → Does (.unitStateWrite mgmt half v) s fun t => unitState t u = 4 ∧ rd t PNL_UNIT_DATA.origin u = 2 ∧
      (u < 40 → (u ∈ t.fuseRecs ∨ u ∈ t.storeRecs) ∧ Latched t 0x008 ∧
        ∀ w ∈ [40 + 2 * u, 41 + 2 * u] ++ (((List.range 4).map (4 * u + ·)).filter linkExists).map linkUnit, unitInService t w = false ∧
          (unitInService s w = true → unitState t w = 4 ∧ rd t PNL_UNIT_DATA.origin w = 2)) ∧
      (40 ≤ u → (u ≠ 304 → u ≠ 305 → t.mem = s.mem) ∧ ∀ w < 308, w ≠ u → unitState t w = unitState s w))) ∧
  (∀ (half : Fin 3) (v : W64) s, Does (.profileWrite half v) s fun t =>
    ∀ e ∈ expertTable,
      let n := v.toNat / 2 ^ e.1.lo % 16
      let covered := half.val = 0 ∨ (half.val = 1 ∧ e.1.lo < 32) ∨ (half.val = 2 ∧ 32 ≤ e.1.lo)
      (covered → n = 15 → rd t e.1 = 15 ∧ ∀ f ∈ e.2, ∀ i, rd t f i = rd s f i) ∧
      (covered → n ≠ 15 → preset e.1 n = none → rd t e.1 = rd s e.1 ∧ on t PNL_STATUS.profile_rejected = true ∧ ∀ f ∈ e.2, ∀ i, rd t f i = rd s f i) ∧
      (∀ l, covered → n ≠ 15 → preset e.1 n = some l → rd t e.1 = n ∧ ∀ q ∈ l, ∀ i < q.2.1,
        (q.1.id = FAR_CTL.interleave.id → on s FAR_CTL.enable = true → rd t q.1 i = rd s q.1 i ∧ (rd s q.1 i ≠ q.2.2 → on t FAR_STATUS.cfg_ignored = true)) ∧
        (q.1.id ≠ FAR_CTL.interleave.id ∨ on s FAR_CTL.enable = false → rd t q.1 i = q.2.2)) ∧
      (¬covered → rd t e.1 = rd s e.1))

/-- Words read in turn over the management path. -/
def wordsRead (s : State) (off : Nat) : Nat → State × List W64
  | 0 => (s, [])
  | n + 1 =>
    let (t, l) := wordsRead s off n
    ((barRead t true (off + 8 * n) 8).1, l ++ [BitVec.ofNat 64 (barRead t true (off + 8 * n) 8).2])

/-- Words written in turn over the management path. -/
def wordsWritten (s : State) : Nat → List RegWord → State
  | _, [] => s
  | off, w :: l => wordsWritten (barWrite s .management off 8 w.v.toNat w.x) (off + 8) l

/-- A reply leaves the panel and is kept among the last 64 (R612). -/
def Replied (s t : State) (r : MgmtReply) : Prop :=
  t = { s with outbox := .mgmtReply r :: s.outbox, hst := { s.hst with mgmtKept := (r :: s.hst.mgmtKept).take 64 } }

/-- A number in LINEAR11 for num / den: an exponent and a mantissa less than one unit in its last place from the value, and equal to it where
the exponent gives it exactly (which of the exponents, and which way it rounds, are free: log entry 39). -/
def IsLinear11 (num den word : Nat) : Prop := ∃ e y, e < 32 ∧ y < 1024 ∧ word = (e + 16) % 32 * 2 ^ 11 + y ∧
  y * den * 2 ^ e ≤ num * 2 ^ 16 + den * 2 ^ e - 1 ∧ num * 2 ^ 16 < (y + 1) * den * 2 ^ e ∧ (num * 2 ^ 16 % (den * 2 ^ e) = 0 → y * den * 2 ^ e = num * 2 ^ 16)

/-- The management path and PMBus (R611, R612): silent without any power; a kept reply answers again; a message outside BAR0 is answered with
BAD_OFFSET; a READ or WRITE acts word by word in rising offset and its reply is kept; PMBus gives its values in LINEAR11. -/
def Obligations.ManagementMessagesAreAnswered : Prop :=
  (∀ s, s.pw.offP3 = true → s.pw.standby = false → (∀ src seq off n, exec (.mgmtRead src seq off n) s = .next s) ∧
    (∀ src seq off ws, exec (.mgmtWrite src seq off ws) s = .next s) ∧
    ∀ c ∈ [Instr.readVin, .readIin, .readTemperature1, .readPin, .statusWord], exec c s = .next s) ∧
  (∀ s (src : W64) (seq : BitVec 16) (off : BitVec 32), s.pw.offP3 = false ∨ s.pw.standby = true →
    let kept := s.hst.mgmtKept.find? fun r => r.src == src.toNat && r.seq == seq.toNat
    (∀ r, kept = some r → (∀ n, exec (.mgmtRead src seq off n) s = .next (emit s (.mgmtReply r))) ∧
      ∀ ws, exec (.mgmtWrite src seq off ws) s = .next (emit s (.mgmtReply r))) ∧
    (kept = none →
      let fits (n : Nat) : Prop := off.toNat % 8 = 0 ∧ 1 ≤ n ∧ n ≤ 128 ∧ off.toNat + 8 * n ≤ 2 ^ 28
      (∀ n : BitVec 16, (¬fits n.toNat → Does (.mgmtRead src seq off n) s fun t => Replied s t ⟨src.toNat, seq.toNat, 0x81, 1, off.toNat, []⟩) ∧
        (fits n.toNat → Does (.mgmtRead src seq off n) s fun t =>
          Replied (wordsRead s off.toNat n.toNat).1 t ⟨src.toNat, seq.toNat, 0x81, 0, off.toNat, (wordsRead s off.toNat n.toNat).2⟩ ∧
          (wordsRead s off.toNat n.toNat).2.length = n.toNat)) ∧
      (∀ ws : List RegWord, (¬fits ws.length → Does (.mgmtWrite src seq off ws) s fun t => Replied s t ⟨src.toNat, seq.toNat, 0x82, 1, off.toNat, []⟩) ∧
        (fits ws.length → Does (.mgmtWrite src seq off ws) s fun t =>
          Replied (wordsWritten s off.toNat ws) t ⟨src.toNat, seq.toNat, 0x82, 0, off.toNat, []⟩)))) ∧
  (∀ s, s.pw.offP3 = false ∨ s.pw.standby = true →
    let answers (c : Instr) (code : Nat) (p : Nat → Prop) : Prop := Does c s fun t =>
      ∃ w, t = { s with outbox := .pmbus code w :: s.outbox, free := t.free } ∧ p w
    answers .readVin 0x88 (IsLinear11 (rd s PWR_INPUT.voltage) 100) ∧ answers .readIin 0x89 (IsLinear11 (rd s PWR_INPUT.current) 10) ∧
    answers .readPin 0x97 (IsLinear11 (rd s PWR_INPUT.power) 1) ∧ answers .statusWord 0x79 (fun _ => True) ∧
    answers .readTemperature1 0x8D (fun w => ∃ c, IsLinear11 c 1 w ∧ (∀ x ∈ s.th.sensors, rd s THM_DATA.reading x.1 ≤ c) ∧
      (s.th.sensors ≠ [] → ∃ x ∈ s.th.sensors, rd s THM_DATA.reading x.1 = c)))

/-- The debug access port (R587 to R589, Table 18.7): what a request reaches by the debug state and, in P2, by where it lies; any other
completes without effect and reads zero. -/
def Obligations.DebugPortReachesByState : Prop := ∀ s,
  let opened := rd s SEC_STATUS.debug = 2
  let awake := rd s PWR_PSTATE.current ≠ 2
  (s.pw.offP3 = true → ∀ r, exec (.debugAccessPortRequest r) s = .next s) ∧
  (s.pw.offP3 = false →
    (∀ r, (rd s SEC_STATUS.debug < (dapNeeds r).1 ∨ (¬awake ∧ (dapNeeds r).2 = false)) → exec (.debugAccessPortRequest r) s = .next (emit s (.dap 0))) ∧
    (rd s SEC_STATUS.debug = 0 → (∀ u, exec (.debugAccessPortRequest (.halt u)) s = .next (emit s (.dap 0))) ∧
      (∀ m, exec (.debugAccessPortRequest (.readMem m)) s = .next (emit s (.dap 0))) ∧ (∀ h, exec (.debugAccessPortRequest (.scan h)) s = .next (emit s (.dap 0)))) ∧
    (opened → ∀ u, (awake ∨ 16384 ≤ dapUnit u) →
      (Does (.debugAccessPortRequest (.halt u)) s fun t => dapUnit u ∈ t.sec.halted ∧ (∀ v ≠ dapUnit u, v ∈ t.sec.halted ↔ v ∈ s.sec.halted) ∧
        t = { s with outbox := .dap 0 :: s.outbox, sec := { s.sec with halted := t.sec.halted } }) ∧
      (Does (.debugAccessPortRequest (.resume u)) s fun t => dapUnit u ∉ t.sec.halted ∧ (∀ v ≠ dapUnit u, v ∈ t.sec.halted ↔ v ∈ s.sec.halted) ∧
        t = { s with outbox := .dap 0 :: s.outbox, sec := { s.sec with halted := t.sec.halted } }) ∧
      exec (.debugAccessPortRequest (.step u)) s = .next (emit s (.dap 0))) ∧
    (opened → awake → ∀ (o : BitVec 28) (n : Fin 65),
      exec (.debugAccessPortRequest (.readReg o n)) s = .next (emit (barRead s false o.toNat n).1 (.dap (barRead s false o.toNat n).2)) ∧
      ∀ v x, exec (.debugAccessPortRequest (.writeReg o n v x)) s = .next (emit (barWrite s .debugPort o.toNat n v.toNat x) (.dap 0))) ∧
    (∀ (o : BitVec 28) (n : Fin 65), 0x80100 ≤ o.toNat → o.toNat < 0x80280 → ∀ v x,
      exec (.debugAccessPortRequest (.writeReg o n v x)) s = .next (emit (barWrite s .debugPort o.toNat n v.toNat x) (.dap 0))) ∧
    (opened → awake → ∀ (m : DapMem) v₀, reachStatus s (dapFlat m) = stOk → (∀ l ∈ s.hst.snoop, l.1 + 64 ≤ dapFlat m ∨ dapFlat m + 8 ≤ l.1) →
      Does (.debugAccessPortRequest (.writeMem m v₀)) s fun t => t.outbox = .dap 0 :: s.outbox ∧ t.queues = s.queues ∧
        (2 ^ 52 ≤ dapFlat m → ∀ b, dapFlat m ≤ b → b < dapFlat m + 8 → memByte t.mem b = BitVec.ofNat 8 (v₀.toNat / 256 ^ (b - dapFlat m)))) ∧
    (1 ≤ rd s SEC_STATUS.debug → awake → ∀ g r, Does (.debugAccessPortRequest (.gallery g r)) s fun t => t = { s with outbox := t.outbox } ∧
      ∃ w, t.outbox = .dap w :: s.outbox) ∧
    (opened → ∀ h, (awake ∨ h = true) → Does (.debugAccessPortRequest (.scan h)) s fun t => t = { s with outbox := t.outbox, free := t.free }))
end

