-- ==== Sys2Proof/Laws/State.lean ====
section
/-!
SUPPORT. The small laws of the state's containers and updates: keyed maps, register fields, and what the named updates leave alone.
-/

namespace Sys2Proof.Machine

/-! ### Keyed maps -/

@[simp] theorem kfind_nil {α : Type} (k : Nat) : kfind ([] : KMap α) k = none := rfl

/-- What was listed last under a key is found under it. -/
@[simp] theorem kfind_kput_same {α : Type} (m : KMap α) (k : Nat) (v : α) : kfind (kput m k v) k = some v := by
  induction m with
  | nil => simp [kput, kfind]
  | cons c m ih =>
    obtain ⟨j, w⟩ := c
    simp only [kput]
    split
    · simp [kfind]
    · split
      · simp [kfind]
      · rename_i h _
        simp [kfind, Ne.symm h, ih]

/-- Listing a key leaves every other key as it was. -/
theorem kfind_kput_other {α : Type} (m : KMap α) {k j : Nat} (v : α) (h : j ≠ k) : kfind (kput m k v) j = kfind m j := by
  induction m with
  | nil => simp [kput, kfind, Ne.symm h]
  | cons c m ih =>
    obtain ⟨i, w⟩ := c
    simp only [kput]
    split
    · rename_i e; subst e; simp [kfind, Ne.symm h]
    · split
      · simp [kfind, Ne.symm h]
      · simp [kfind, ih]

/-- A key taken away is not found. -/
@[simp] theorem kfind_kdel_same {α : Type} (m : KMap α) (k : Nat) : kfind (kdel m k) k = none := by
  induction m with
  | nil => rfl
  | cons c m ih =>
    obtain ⟨i, w⟩ := c
    simp only [kdel]
    split
    · exact ih
    · rename_i e; simp [kfind, Ne.symm e, ih]

/-- Taking a key away leaves every other key as it was. -/
theorem kfind_kdel_other {α : Type} (m : KMap α) {k j : Nat} (h : j ≠ k) : kfind (kdel m k) j = kfind m j := by
  induction m with
  | nil => rfl
  | cons c m ih =>
    obtain ⟨i, w⟩ := c
    simp only [kdel]
    split
    · rename_i e; subst e; simp [kfind, Ne.symm h, ih]
    · simp [kfind, ih]

@[simp] theorem kget_kput_same {α : Type} (m : KMap α) (k : Nat) (v d : α) : kget (kput m k v) k d = v := by simp [kget]

theorem kget_kput_other {α : Type} (m : KMap α) {k j : Nat} (v d : α) (h : j ≠ k) : kget (kput m k v) j d = kget m j d := by
  simp [kget, kfind_kput_other m v h]

/-! ### Register fields -/

/-- A field written reads back cut to its width. -/
@[simp] theorem rd_wr_same (s : State) (f : Fld) (i v : Nat) : rd (wr s f i v) f i = v % 2 ^ f.w := by simp [rd, wr]

/-- A write leaves every field under another key as it was. -/
theorem rd_wr_other (s : State) {f g : Fld} {i j : Nat} (v : Nat) (h : fkey g j ≠ fkey f i) : rd (wr s f i v) g j = rd s g j := by
  simp [rd, wr, kget_kput_other _ _ _ h]

/-- Fields of different registers, or the same field at different units below 2^20, lie under different keys. -/
theorem fkey_ne {f g : Fld} {i j : Nat} (hi : i < 2 ^ 20) (hj : j < 2 ^ 20) (h : g.id ≠ f.id ∨ j ≠ i) : fkey g j ≠ fkey f i := by
  simp only [fkey]; omega

/-- A field reads less than its width allows. -/
theorem rd_lt (s : State) (f : Fld) (i : Nat) : rd s f i < 2 ^ f.w := Nat.mod_lt _ (Nat.two_pow_pos _)

/-- A field brought back reads its reset value. -/
@[simp] theorem rd_unset_same (s : State) (f : Fld) (i : Nat) : rd (unset s f i) f i = f.rst % 2 ^ f.w := by simp [rd, unset, kget]

@[simp] theorem rd_setBit_same (s : State) (f : Fld) (i : Nat) : rd (setBit s f i) f i = 1 % 2 ^ f.w := by simp [setBit]

/-- Other state leaves the reading of fields alone. -/
theorem rd_congr {s t : State} (h : t.fields = s.fields) (f : Fld) (i : Nat) : rd t f i = rd s f i := by simp [rd, h]

/-- A field read as its reset value plus what is listed. -/
theorem rd_of_find {s : State} {f : Fld} {i v : Nat} (h : kfind s.fields (fkey f i) = some v) : rd s f i = v % 2 ^ f.w := by simp [rd, kget, h]

/-! ### Field by field: what a register write and an emission leave alone -/

@[simp] theorem wr_pending (s : State) (f : Fld) (i v : Nat) : (wr s f i v).pending = s.pending := rfl
@[simp] theorem wr_force (s : State) (f : Fld) (i v : Nat) : (wr s f i v).force = s.force := rfl
@[simp] theorem wr_mem (s : State) (f : Fld) (i v : Nat) : (wr s f i v).mem = s.mem := rfl
@[simp] theorem wr_ue (s : State) (f : Fld) (i v : Nat) : (wr s f i v).ue = s.ue := rfl
@[simp] theorem wr_ce (s : State) (f : Fld) (i v : Nat) : (wr s f i v).ce = s.ce := rfl
@[simp] theorem wr_outbox (s : State) (f : Fld) (i v : Nat) : (wr s f i v).outbox = s.outbox := rfl
@[simp] theorem wr_free (s : State) (f : Fld) (i v : Nat) : (wr s f i v).free = s.free := rfl
@[simp] theorem wr_ticks (s : State) (f : Fld) (i v : Nat) : (wr s f i v).ticks = s.ticks := rfl
@[simp] theorem wr_queues (s : State) (f : Fld) (i v : Nat) : (wr s f i v).queues = s.queues := rfl
@[simp] theorem wr_crings (s : State) (f : Fld) (i v : Nat) : (wr s f i v).crings = s.crings := rfl
@[simp] theorem wr_frings (s : State) (f : Fld) (i v : Nat) : (wr s f i v).frings = s.frings := rfl
@[simp] theorem wr_xrings (s : State) (f : Fld) (i v : Nat) : (wr s f i v).xrings = s.xrings := rfl
@[simp] theorem wr_rrings (s : State) (f : Fld) (i v : Nat) : (wr s f i v).rrings = s.rrings := rfl
@[simp] theorem wr_dbLines (s : State) (f : Fld) (i v : Nat) : (wr s f i v).dbLines = s.dbLines := rfl
@[simp] theorem wr_rrLast (s : State) (f : Fld) (i v : Nat) : (wr s f i v).rrLast = s.rrLast := rfl
@[simp] theorem wr_dbHold (s : State) (f : Fld) (i v : Nat) : (wr s f i v).dbHold = s.dbHold := rfl
@[simp] theorem wr_watch (s : State) (f : Fld) (i v : Nat) : (wr s f i v).watch = s.watch := rfl
@[simp] theorem wr_unwatched (s : State) (f : Fld) (i v : Nat) : (wr s f i v).unwatched = s.unwatched := rfl
@[simp] theorem wr_tcs (s : State) (f : Fld) (i v : Nat) : (wr s f i v).tcs = s.tcs := rfl
@[simp] theorem wr_inv (s : State) (f : Fld) (i v : Nat) : (wr s f i v).inv = s.inv := rfl
@[simp] theorem wr_farWrites (s : State) (f : Fld) (i v : Nat) : (wr s f i v).farWrites = s.farWrites := rfl
@[simp] theorem wr_msix (s : State) (f : Fld) (i v : Nat) : (wr s f i v).msix = s.msix := rfl
@[simp] theorem wr_corePow (s : State) (f : Fld) (i v : Nat) : (wr s f i v).corePow = s.corePow := rfl
@[simp] theorem wr_clusPow (s : State) (f : Fld) (i v : Nat) : (wr s f i v).clusPow = s.clusPow := rfl
@[simp] theorem wr_arrays (s : State) (f : Fld) (i v : Nat) : (wr s f i v).arrays = s.arrays := rfl
@[simp] theorem wr_arrayJoin (s : State) (f : Fld) (i v : Nat) : (wr s f i v).arrayJoin = s.arrayJoin := rfl
@[simp] theorem wr_arrayWait (s : State) (f : Fld) (i v : Nat) : (wr s f i v).arrayWait = s.arrayWait := rfl
@[simp] theorem wr_stalled (s : State) (f : Fld) (i v : Nat) : (wr s f i v).stalled = s.stalled := rfl
@[simp] theorem wr_beatLeft (s : State) (f : Fld) (i v : Nat) : (wr s f i v).beatLeft = s.beatLeft := rfl
@[simp] theorem wr_coreShares (s : State) (f : Fld) (i v : Nat) : (wr s f i v).coreShares = s.coreShares := rfl
@[simp] theorem wr_copyShares (s : State) (f : Fld) (i v : Nat) : (wr s f i v).copyShares = s.copyShares := rfl
@[simp] theorem wr_wingAuto (s : State) (f : Fld) (i v : Nat) : (wr s f i v).wingAuto = s.wingAuto := rfl
@[simp] theorem wr_rmtOps (s : State) (f : Fld) (i v : Nat) : (wr s f i v).rmtOps = s.rmtOps := rfl
@[simp] theorem wr_rmtCmds (s : State) (f : Fld) (i v : Nat) : (wr s f i v).rmtCmds = s.rmtCmds := rfl
@[simp] theorem wr_copyRemotes (s : State) (f : Fld) (i v : Nat) : (wr s f i v).copyRemotes = s.copyRemotes := rfl
@[simp] theorem wr_rmtNextId (s : State) (f : Fld) (i v : Nat) : (wr s f i v).rmtNextId = s.rmtNextId := rfl
@[simp] theorem wr_rmtNextRid (s : State) (f : Fld) (i v : Nat) : (wr s f i v).rmtNextRid = s.rmtNextRid := rfl
@[simp] theorem wr_rmtSeq (s : State) (f : Fld) (i v : Nat) : (wr s f i v).rmtSeq = s.rmtSeq := rfl
@[simp] theorem wr_rmtHeld (s : State) (f : Fld) (i v : Nat) : (wr s f i v).rmtHeld = s.rmtHeld := rfl
@[simp] theorem wr_rmtReplies (s : State) (f : Fld) (i v : Nat) : (wr s f i v).rmtReplies = s.rmtReplies := rfl
@[simp] theorem wr_rmtRecs (s : State) (f : Fld) (i v : Nat) : (wr s f i v).rmtRecs = s.rmtRecs := rfl
@[simp] theorem wr_rmtCache (s : State) (f : Fld) (i v : Nat) : (wr s f i v).rmtCache = s.rmtCache := rfl
@[simp] theorem wr_rmtLost (s : State) (f : Fld) (i v : Nat) : (wr s f i v).rmtLost = s.rmtLost := rfl
@[simp] theorem wr_injQ (s : State) (f : Fld) (i v : Nat) : (wr s f i v).injQ = s.injQ := rfl
@[simp] theorem wr_fabWaits (s : State) (f : Fld) (i v : Nat) : (wr s f i v).fabWaits = s.fabWaits := rfl
@[simp] theorem wr_fabCredits (s : State) (f : Fld) (i v : Nat) : (wr s f i v).fabCredits = s.fabCredits := rfl
@[simp] theorem wr_fabSent (s : State) (f : Fld) (i v : Nat) : (wr s f i v).fabSent = s.fabSent := rfl
@[simp] theorem wr_fabBanks (s : State) (f : Fld) (i v : Nat) : (wr s f i v).fabBanks = s.fabBanks := rfl
@[simp] theorem wr_partnerUse (s : State) (f : Fld) (i v : Nat) : (wr s f i v).partnerUse = s.partnerUse := rfl
@[simp] theorem wr_partnerWaits (s : State) (f : Fld) (i v : Nat) : (wr s f i v).partnerWaits = s.partnerWaits := rfl
@[simp] theorem wr_bankLoads (s : State) (f : Fld) (i v : Nat) : (wr s f i v).bankLoads = s.bankLoads := rfl
@[simp] theorem wr_groups (s : State) (f : Fld) (i v : Nat) : (wr s f i v).groups = s.groups := rfl
@[simp] theorem wr_colls (s : State) (f : Fld) (i v : Nat) : (wr s f i v).colls = s.colls := rfl
@[simp] theorem wr_collDone (s : State) (f : Fld) (i v : Nat) : (wr s f i v).collDone = s.collDone := rfl
@[simp] theorem wr_collIn (s : State) (f : Fld) (i v : Nat) : (wr s f i v).collIn = s.collIn := rfl
@[simp] theorem wr_mirLoaded (s : State) (f : Fld) (i v : Nat) : (wr s f i v).mirLoaded = s.mirLoaded := rfl
@[simp] theorem wr_farMute (s : State) (f : Fld) (i v : Nat) : (wr s f i v).farMute = s.farMute := rfl
@[simp] theorem wr_rowWatch (s : State) (f : Fld) (i v : Nat) : (wr s f i v).rowWatch = s.rowWatch := rfl
@[simp] theorem wr_remapDue (s : State) (f : Fld) (i v : Nat) : (wr s f i v).remapDue = s.remapDue := rfl
@[simp] theorem wr_spareOut (s : State) (f : Fld) (i v : Nat) : (wr s f i v).spareOut = s.spareOut := rfl
@[simp] theorem wr_softRows (s : State) (f : Fld) (i v : Nat) : (wr s f i v).softRows = s.softRows := rfl
@[simp] theorem wr_spareDead (s : State) (f : Fld) (i v : Nat) : (wr s f i v).spareDead = s.spareDead := rfl
@[simp] theorem wr_wingRefs (s : State) (f : Fld) (i v : Nat) : (wr s f i v).wingRefs = s.wingRefs := rfl
@[simp] theorem wr_tcnLost (s : State) (f : Fld) (i v : Nat) : (wr s f i v).tcnLost = s.tcnLost := rfl
@[simp] theorem wr_tcnFull (s : State) (f : Fld) (i v : Nat) : (wr s f i v).tcnFull = s.tcnFull := rfl
@[simp] theorem wr_lowLanes (s : State) (f : Fld) (i v : Nat) : (wr s f i v).lowLanes = s.lowLanes := rfl
@[simp] theorem wr_laneSeq (s : State) (f : Fld) (i v : Nat) : (wr s f i v).laneSeq = s.laneSeq := rfl
@[simp] theorem wr_laneAck (s : State) (f : Fld) (i v : Nat) : (wr s f i v).laneAck = s.laneAck := rfl
@[simp] theorem wr_laneFlits (s : State) (f : Fld) (i v : Nat) : (wr s f i v).laneFlits = s.laneFlits := rfl
@[simp] theorem wr_fabTurn (s : State) (f : Fld) (i v : Nat) : (wr s f i v).fabTurn = s.fabTurn := rfl
@[simp] theorem wr_tcnFails (s : State) (f : Fld) (i v : Nat) : (wr s f i v).tcnFails = s.tcnFails := rfl
@[simp] theorem wr_tcnTests (s : State) (f : Fld) (i v : Nat) : (wr s f i v).tcnTests = s.tcnTests := rfl
@[simp] theorem wr_tcn (s : State) (f : Fld) (i v : Nat) : (wr s f i v).tcn = s.tcn := rfl
@[simp] theorem wr_routeLinks (s : State) (f : Fld) (i v : Nat) : (wr s f i v).routeLinks = s.routeLinks := rfl
@[simp] theorem wr_cut (s : State) (f : Fld) (i v : Nat) : (wr s f i v).cut = s.cut := rfl
@[simp] theorem wr_srcAt (s : State) (f : Fld) (i v : Nat) : (wr s f i v).srcAt = s.srcAt := rfl
@[simp] theorem wr_uciL1 (s : State) (f : Fld) (i v : Nat) : (wr s f i v).uciL1 = s.uciL1 := rfl
@[simp] theorem wr_fuseRecs (s : State) (f : Fld) (i v : Nat) : (wr s f i v).fuseRecs = s.fuseRecs := rfl
@[simp] theorem wr_storeRecs (s : State) (f : Fld) (i v : Nat) : (wr s f i v).storeRecs = s.storeRecs := rfl
@[simp] theorem wr_fadeDone (s : State) (f : Fld) (i v : Nat) : (wr s f i v).fadeDone = s.fadeDone := rfl
@[simp] theorem wr_relockTicks (s : State) (f : Fld) (i v : Nat) : (wr s f i v).relockTicks = s.relockTicks := rfl
@[simp] theorem wr_berTick (s : State) (f : Fld) (i v : Nat) : (wr s f i v).berTick = s.berTick := rfl
@[simp] theorem wr_commHeater (s : State) (f : Fld) (i v : Nat) : (wr s f i v).commHeater = s.commHeater := rfl
@[simp] theorem wr_ffCoef (s : State) (f : Fld) (i v : Nat) : (wr s f i v).ffCoef = s.ffCoef := rfl
@[simp] theorem wr_landings (s : State) (f : Fld) (i v : Nat) : (wr s f i v).landings = s.landings := rfl
@[simp] theorem wr_mirWaiting (s : State) (f : Fld) (i v : Nat) : (wr s f i v).mirWaiting = s.mirWaiting := rfl
@[simp] theorem wr_mirLoad (s : State) (f : Fld) (i v : Nat) : (wr s f i v).mirLoad = s.mirLoad := rfl
@[simp] theorem wr_mirSize (s : State) (f : Fld) (i v : Nat) : (wr s f i v).mirSize = s.mirSize := rfl
@[simp] theorem wr_mirPlaced (s : State) (f : Fld) (i v : Nat) : (wr s f i v).mirPlaced = s.mirPlaced := rfl
@[simp] theorem wr_dataFence (s : State) (f : Fld) (i v : Nat) : (wr s f i v).dataFence = s.dataFence := rfl
@[simp] theorem wr_pw (s : State) (f : Fld) (i v : Nat) : (wr s f i v).pw = s.pw := rfl
@[simp] theorem wr_th (s : State) (f : Fld) (i v : Nat) : (wr s f i v).th = s.th := rfl
@[simp] theorem wr_gal (s : State) (f : Fld) (i v : Nat) : (wr s f i v).gal = s.gal := rfl
@[simp] theorem wr_sec (s : State) (f : Fld) (i v : Nat) : (wr s f i v).sec = s.sec := rfl
@[simp] theorem wr_hst (s : State) (f : Fld) (i v : Nat) : (wr s f i v).hst = s.hst := rfl

@[simp] theorem emit_pending (s : State) (o : Out) : (emit s o).pending = s.pending := rfl
@[simp] theorem emit_fields (s : State) (o : Out) : (emit s o).fields = s.fields := rfl
@[simp] theorem emit_force (s : State) (o : Out) : (emit s o).force = s.force := rfl
@[simp] theorem emit_mem (s : State) (o : Out) : (emit s o).mem = s.mem := rfl
@[simp] theorem emit_ue (s : State) (o : Out) : (emit s o).ue = s.ue := rfl
@[simp] theorem emit_ce (s : State) (o : Out) : (emit s o).ce = s.ce := rfl
@[simp] theorem emit_free (s : State) (o : Out) : (emit s o).free = s.free := rfl
@[simp] theorem emit_ticks (s : State) (o : Out) : (emit s o).ticks = s.ticks := rfl
@[simp] theorem emit_queues (s : State) (o : Out) : (emit s o).queues = s.queues := rfl
@[simp] theorem emit_crings (s : State) (o : Out) : (emit s o).crings = s.crings := rfl
@[simp] theorem emit_frings (s : State) (o : Out) : (emit s o).frings = s.frings := rfl
@[simp] theorem emit_xrings (s : State) (o : Out) : (emit s o).xrings = s.xrings := rfl
@[simp] theorem emit_rrings (s : State) (o : Out) : (emit s o).rrings = s.rrings := rfl
@[simp] theorem emit_dbLines (s : State) (o : Out) : (emit s o).dbLines = s.dbLines := rfl
@[simp] theorem emit_rrLast (s : State) (o : Out) : (emit s o).rrLast = s.rrLast := rfl
@[simp] theorem emit_dbHold (s : State) (o : Out) : (emit s o).dbHold = s.dbHold := rfl
@[simp] theorem emit_watch (s : State) (o : Out) : (emit s o).watch = s.watch := rfl
@[simp] theorem emit_unwatched (s : State) (o : Out) : (emit s o).unwatched = s.unwatched := rfl
@[simp] theorem emit_tcs (s : State) (o : Out) : (emit s o).tcs = s.tcs := rfl
@[simp] theorem emit_inv (s : State) (o : Out) : (emit s o).inv = s.inv := rfl
@[simp] theorem emit_farWrites (s : State) (o : Out) : (emit s o).farWrites = s.farWrites := rfl
@[simp] theorem emit_msix (s : State) (o : Out) : (emit s o).msix = s.msix := rfl
@[simp] theorem emit_corePow (s : State) (o : Out) : (emit s o).corePow = s.corePow := rfl
@[simp] theorem emit_clusPow (s : State) (o : Out) : (emit s o).clusPow = s.clusPow := rfl
@[simp] theorem emit_arrays (s : State) (o : Out) : (emit s o).arrays = s.arrays := rfl
@[simp] theorem emit_arrayJoin (s : State) (o : Out) : (emit s o).arrayJoin = s.arrayJoin := rfl
@[simp] theorem emit_arrayWait (s : State) (o : Out) : (emit s o).arrayWait = s.arrayWait := rfl
@[simp] theorem emit_stalled (s : State) (o : Out) : (emit s o).stalled = s.stalled := rfl
@[simp] theorem emit_beatLeft (s : State) (o : Out) : (emit s o).beatLeft = s.beatLeft := rfl
@[simp] theorem emit_coreShares (s : State) (o : Out) : (emit s o).coreShares = s.coreShares := rfl
@[simp] theorem emit_copyShares (s : State) (o : Out) : (emit s o).copyShares = s.copyShares := rfl
@[simp] theorem emit_wingAuto (s : State) (o : Out) : (emit s o).wingAuto = s.wingAuto := rfl
@[simp] theorem emit_rmtOps (s : State) (o : Out) : (emit s o).rmtOps = s.rmtOps := rfl
@[simp] theorem emit_rmtCmds (s : State) (o : Out) : (emit s o).rmtCmds = s.rmtCmds := rfl
@[simp] theorem emit_copyRemotes (s : State) (o : Out) : (emit s o).copyRemotes = s.copyRemotes := rfl
@[simp] theorem emit_rmtNextId (s : State) (o : Out) : (emit s o).rmtNextId = s.rmtNextId := rfl
@[simp] theorem emit_rmtNextRid (s : State) (o : Out) : (emit s o).rmtNextRid = s.rmtNextRid := rfl
@[simp] theorem emit_rmtSeq (s : State) (o : Out) : (emit s o).rmtSeq = s.rmtSeq := rfl
@[simp] theorem emit_rmtHeld (s : State) (o : Out) : (emit s o).rmtHeld = s.rmtHeld := rfl
@[simp] theorem emit_rmtReplies (s : State) (o : Out) : (emit s o).rmtReplies = s.rmtReplies := rfl
@[simp] theorem emit_rmtRecs (s : State) (o : Out) : (emit s o).rmtRecs = s.rmtRecs := rfl
@[simp] theorem emit_rmtCache (s : State) (o : Out) : (emit s o).rmtCache = s.rmtCache := rfl
@[simp] theorem emit_rmtLost (s : State) (o : Out) : (emit s o).rmtLost = s.rmtLost := rfl
@[simp] theorem emit_injQ (s : State) (o : Out) : (emit s o).injQ = s.injQ := rfl
@[simp] theorem emit_fabWaits (s : State) (o : Out) : (emit s o).fabWaits = s.fabWaits := rfl
@[simp] theorem emit_fabCredits (s : State) (o : Out) : (emit s o).fabCredits = s.fabCredits := rfl
@[simp] theorem emit_fabSent (s : State) (o : Out) : (emit s o).fabSent = s.fabSent := rfl
@[simp] theorem emit_fabBanks (s : State) (o : Out) : (emit s o).fabBanks = s.fabBanks := rfl
@[simp] theorem emit_partnerUse (s : State) (o : Out) : (emit s o).partnerUse = s.partnerUse := rfl
@[simp] theorem emit_partnerWaits (s : State) (o : Out) : (emit s o).partnerWaits = s.partnerWaits := rfl
@[simp] theorem emit_bankLoads (s : State) (o : Out) : (emit s o).bankLoads = s.bankLoads := rfl
@[simp] theorem emit_groups (s : State) (o : Out) : (emit s o).groups = s.groups := rfl
@[simp] theorem emit_colls (s : State) (o : Out) : (emit s o).colls = s.colls := rfl
@[simp] theorem emit_collDone (s : State) (o : Out) : (emit s o).collDone = s.collDone := rfl
@[simp] theorem emit_collIn (s : State) (o : Out) : (emit s o).collIn = s.collIn := rfl
@[simp] theorem emit_mirLoaded (s : State) (o : Out) : (emit s o).mirLoaded = s.mirLoaded := rfl
@[simp] theorem emit_farMute (s : State) (o : Out) : (emit s o).farMute = s.farMute := rfl
@[simp] theorem emit_rowWatch (s : State) (o : Out) : (emit s o).rowWatch = s.rowWatch := rfl
@[simp] theorem emit_remapDue (s : State) (o : Out) : (emit s o).remapDue = s.remapDue := rfl
@[simp] theorem emit_spareOut (s : State) (o : Out) : (emit s o).spareOut = s.spareOut := rfl
@[simp] theorem emit_softRows (s : State) (o : Out) : (emit s o).softRows = s.softRows := rfl
@[simp] theorem emit_spareDead (s : State) (o : Out) : (emit s o).spareDead = s.spareDead := rfl
@[simp] theorem emit_wingRefs (s : State) (o : Out) : (emit s o).wingRefs = s.wingRefs := rfl
@[simp] theorem emit_tcnLost (s : State) (o : Out) : (emit s o).tcnLost = s.tcnLost := rfl
@[simp] theorem emit_tcnFull (s : State) (o : Out) : (emit s o).tcnFull = s.tcnFull := rfl
@[simp] theorem emit_lowLanes (s : State) (o : Out) : (emit s o).lowLanes = s.lowLanes := rfl
@[simp] theorem emit_laneSeq (s : State) (o : Out) : (emit s o).laneSeq = s.laneSeq := rfl
@[simp] theorem emit_laneAck (s : State) (o : Out) : (emit s o).laneAck = s.laneAck := rfl
@[simp] theorem emit_laneFlits (s : State) (o : Out) : (emit s o).laneFlits = s.laneFlits := rfl
@[simp] theorem emit_fabTurn (s : State) (o : Out) : (emit s o).fabTurn = s.fabTurn := rfl
@[simp] theorem emit_tcnFails (s : State) (o : Out) : (emit s o).tcnFails = s.tcnFails := rfl
@[simp] theorem emit_tcnTests (s : State) (o : Out) : (emit s o).tcnTests = s.tcnTests := rfl
@[simp] theorem emit_tcn (s : State) (o : Out) : (emit s o).tcn = s.tcn := rfl
@[simp] theorem emit_routeLinks (s : State) (o : Out) : (emit s o).routeLinks = s.routeLinks := rfl
@[simp] theorem emit_cut (s : State) (o : Out) : (emit s o).cut = s.cut := rfl
@[simp] theorem emit_srcAt (s : State) (o : Out) : (emit s o).srcAt = s.srcAt := rfl
@[simp] theorem emit_uciL1 (s : State) (o : Out) : (emit s o).uciL1 = s.uciL1 := rfl
@[simp] theorem emit_fuseRecs (s : State) (o : Out) : (emit s o).fuseRecs = s.fuseRecs := rfl
@[simp] theorem emit_storeRecs (s : State) (o : Out) : (emit s o).storeRecs = s.storeRecs := rfl
@[simp] theorem emit_fadeDone (s : State) (o : Out) : (emit s o).fadeDone = s.fadeDone := rfl
@[simp] theorem emit_relockTicks (s : State) (o : Out) : (emit s o).relockTicks = s.relockTicks := rfl
@[simp] theorem emit_berTick (s : State) (o : Out) : (emit s o).berTick = s.berTick := rfl
@[simp] theorem emit_commHeater (s : State) (o : Out) : (emit s o).commHeater = s.commHeater := rfl
@[simp] theorem emit_ffCoef (s : State) (o : Out) : (emit s o).ffCoef = s.ffCoef := rfl
@[simp] theorem emit_landings (s : State) (o : Out) : (emit s o).landings = s.landings := rfl
@[simp] theorem emit_mirWaiting (s : State) (o : Out) : (emit s o).mirWaiting = s.mirWaiting := rfl
@[simp] theorem emit_mirLoad (s : State) (o : Out) : (emit s o).mirLoad = s.mirLoad := rfl
@[simp] theorem emit_mirSize (s : State) (o : Out) : (emit s o).mirSize = s.mirSize := rfl
@[simp] theorem emit_mirPlaced (s : State) (o : Out) : (emit s o).mirPlaced = s.mirPlaced := rfl
@[simp] theorem emit_dataFence (s : State) (o : Out) : (emit s o).dataFence = s.dataFence := rfl
@[simp] theorem emit_pw (s : State) (o : Out) : (emit s o).pw = s.pw := rfl
@[simp] theorem emit_th (s : State) (o : Out) : (emit s o).th = s.th := rfl
@[simp] theorem emit_gal (s : State) (o : Out) : (emit s o).gal = s.gal := rfl
@[simp] theorem emit_sec (s : State) (o : Out) : (emit s o).sec = s.sec := rfl
@[simp] theorem emit_hst (s : State) (o : Out) : (emit s o).hst = s.hst := rfl

@[simp] theorem emit_outbox (s : State) (o : Out) : (emit s o).outbox = o :: s.outbox := rfl

/-- An emission changes no register field. -/
@[simp] theorem rd_emit (s : State) (o : Out) (f : Fld) (i : Nat) : rd (emit s o) f i = rd s f i := rfl

/-- Bytes stored change no register field. -/
@[simp] theorem rd_memStore (s : State) (a : Nat) (bs : List Byte) (f : Fld) (i : Nat) : rd (memStore s a bs) f i = rd s f i := rfl

@[simp] theorem rd_zeroRange (s : State) (lo n : Nat) (f : Fld) (i : Nat) : rd (zeroRange s lo n) f i = rd s f i := rfl

/-! ### Memory -/

/-- A byte stored reads back. -/
@[simp] theorem memByte_memPut_same (m : List Host.Cell) (a : Nat) (b : Byte) : memByte (memPut m a b) a = b := by
  unfold memPut memByte
  split
  · rename_i h
    simp only [Bool.and_eq_true, beq_iff_eq] at h
    simp [memDefault, h.1, h.2]
  · simp

/-- Storing a byte leaves every other byte as it was. -/
theorem memByte_memPut_other (m : List Host.Cell) {a a' : Nat} (b : Byte) (h : a' ≠ a) : memByte (memPut m a b) a' = memByte m a' := by
  unfold memPut memByte
  split
  · rw [kfind_kdel_other m h]
  · rw [kfind_kput_other m b h]

/-- Bytes stored leave every byte outside their run as it was. -/
theorem memByte_memPutList_outside (bs : List Byte) (m : List Host.Cell) (a a' : Nat) (h : a' < a ∨ a + bs.length ≤ a') :
    memByte (memPutList m a bs) a' = memByte m a' := by
  induction bs generalizing m a with
  | nil => rfl
  | cons b bs ih =>
    simp only [List.length_cons] at h
    rw [memPutList, ih (memPut m a b) (a + 1) (by omega), memByte_memPut_other m b (by omega)]

/-- Bytes stored read back, each at its place. -/
theorem memByte_memPutList_inside (bs : List Byte) (m : List Host.Cell) (a k : Nat) (h : k < bs.length) :
    memByte (memPutList m a bs) (a + k) = bs[k] := by
  induction bs generalizing m a k with
  | nil => simp at h
  | cons b bs ih =>
    rw [memPutList]
    cases k with
    | zero => rw [memByte_memPutList_outside bs _ _ _ (by omega)]; simp
    | succ k =>
      have := ih (memPut m a b) (a + 1) k (by simpa using h)
      rw [show a + (k + 1) = a + 1 + k by omega, this]
      rfl

/-- A run of bytes written reads back. -/
theorem memBytes_memPutList (bs : List Byte) (m : List Host.Cell) (a : Nat) : memBytes (memPutList m a bs) a bs.length = bs := by
  suffices h : ∀ (l : List Byte) (m : List Host.Cell) (a : Nat), (∀ k (hk : k < l.length), memByte m (a + k) = l[k]) → memBytes m a l.length = l from
    h bs _ a fun k hk => memByte_memPutList_inside bs m a k hk
  intro l
  induction l with
  | nil => intros; rfl
  | cons b l ih =>
    intro m a h
    rw [List.length_cons, memBytes, ih m (a + 1) fun k hk => ?_]
    · have := h 0 (by simp); simp only [Nat.add_zero, List.getElem_cons_zero] at this; rw [this]
    · have := h (k + 1) (by simpa using hk)
      rw [show a + (k + 1) = a + 1 + k by omega] at this
      simpa using this

/-! ### The canonical form of memory -/

/-- The first address of memory in canonical form lies above a bound. -/
def headAbove (a : Nat) : List Host.Cell → Prop
  | [] => True
  | c :: _ => a < c.1

/-- The canonical form, cell by cell. -/
theorem Memory.wf_cons (c : Host.Cell) (m : List Host.Cell) :
    Memory.wf (c :: m) = true ↔ headAbove c.1 m ∧ (zeroAt c.1 && c.2 == 0) = false ∧ Memory.wf m = true := by
  obtain ⟨a, b⟩ := c
  cases m with
  | nil => cases h : zeroAt a <;> simp [Memory.wf, headAbove, h]
  | cons c' m => obtain ⟨a', b'⟩ := c'; cases h : zeroAt a <;> simp [Memory.wf, headAbove, h, and_assoc]

theorem headAbove_kdel {a : Nat} {m : List Host.Cell} (k : Nat) (h : headAbove a m) (hw : Memory.wf m = true) : headAbove a (kdel m k) := by
  induction m generalizing a with
  | nil => trivial
  | cons c m ih =>
    obtain ⟨j, w⟩ := c
    obtain ⟨h1, _, h3⟩ := (Memory.wf_cons _ _).1 hw
    simp only [kdel]
    split
    · refine ih ?_ h3
      cases m with
      | nil => trivial
      | cons c' m => exact Nat.lt_trans h h1
    · exact h

/-- Taking a byte's listing away keeps the canonical form. -/
theorem wf_kdel {m : List Host.Cell} (k : Nat) (hw : Memory.wf m = true) : Memory.wf (kdel m k) = true := by
  induction m with
  | nil => rfl
  | cons c m ih =>
    obtain ⟨j, w⟩ := c
    obtain ⟨h1, h2, h3⟩ := (Memory.wf_cons _ _).1 hw
    simp only [kdel]
    split
    · exact ih h3
    · exact (Memory.wf_cons _ _).2 ⟨headAbove_kdel k h1 h3, h2, ih h3⟩

theorem headAbove_kput {a k : Nat} {m : List Host.Cell} (v : Byte) (h : headAbove a m) (hk : a < k) : headAbove a (kput m k v) := by
  cases m with
  | nil => exact hk
  | cons c m =>
    obtain ⟨j, w⟩ := c
    simp only [kput]
    split
    · exact hk
    · split
      · exact hk
      · exact h

/-- Listing a byte that an unlisted one does not read as keeps the canonical form. -/
theorem wf_kput {m : List Host.Cell} {k : Nat} {v : Byte} (hv : (zeroAt k && v == 0) = false) (hw : Memory.wf m = true) :
    Memory.wf (kput m k v) = true := by
  induction m with
  | nil => exact (Memory.wf_cons _ _).2 ⟨trivial, hv, rfl⟩
  | cons c m ih =>
    obtain ⟨j, w⟩ := c
    obtain ⟨h1, h2, h3⟩ := (Memory.wf_cons _ _).1 hw
    simp only [kput]
    split
    · rename_i e; subst e
      exact (Memory.wf_cons _ _).2 ⟨h1, hv, h3⟩
    · split
      · rename_i e
        exact (Memory.wf_cons _ _).2 ⟨e, hv, hw⟩
      · exact (Memory.wf_cons _ _).2 ⟨headAbove_kput v h1 (by simp only; omega), h2, ih h3⟩

/-- Every store of a byte keeps the canonical form. -/
theorem wf_memPut {m : List Host.Cell} (a : Nat) (b : Byte) (hw : Memory.wf m = true) : Memory.wf (memPut m a b) = true := by
  unfold memPut
  split
  · exact wf_kdel a hw
  · rename_i h; exact wf_kput (by simpa using h) hw

/-- Every store of bytes keeps the canonical form. -/
theorem wf_memPutList (bs : List Byte) {m : List Host.Cell} (a : Nat) (hw : Memory.wf m = true) : Memory.wf (memPutList m a bs) = true := by
  induction bs generalizing m a with
  | nil => exact hw
  | cons b bs ih => exact ih (a + 1) (wf_memPut a b hw)

theorem headAbove_filter {a : Nat} {m : List Host.Cell} (p : Host.Cell → Bool) (h : headAbove a m) (hw : Memory.wf m = true) :
    headAbove a (m.filter p) := by
  induction m generalizing a with
  | nil => trivial
  | cons c m ih =>
    obtain ⟨h1, _, h3⟩ := (Memory.wf_cons _ _).1 hw
    simp only [List.filter_cons]
    split
    · exact h
    · refine ih ?_ h3
      cases m with
      | nil => trivial
      | cons c' m => exact Nat.lt_trans h h1

/-- Keeping some of the listed bytes keeps the canonical form. -/
theorem wf_filter {m : List Host.Cell} (p : Host.Cell → Bool) (hw : Memory.wf m = true) : Memory.wf (m.filter p) = true := by
  induction m with
  | nil => rfl
  | cons c m ih =>
    obtain ⟨h1, h2, h3⟩ := (Memory.wf_cons _ _).1 hw
    simp only [List.filter_cons]
    split
    · exact (Memory.wf_cons _ _).2 ⟨headAbove_filter p h1 h3, h2, ih h3⟩
    · exact ih h3

end Sys2Proof.Machine
end

