-- ==== Sys2Proof/Laws/Aside.lean ====
section
/-!
SUPPORT. What an access to memory leaves alone. `Aside s t` says that `t` differs from `s` at most in what an access may touch: registers,
memory and its error units, the translation caches, power states, posted far writes, the host's snooped lines, and what leaves the panel.
Queues, rings, remote memory, collectives, landings, security and the rest are the same.
-/

namespace Sys2Proof.Machine

/-- The machine with all that an access may touch blanked out. -/
def State.rest (s : State) : State :=
  { s with
    fields := [], force := [], mem := [], ue := [], ce := [], outbox := [], free := 0, ticks := [], corePow := [], clusPow := [], tcs := [], farWrites := [],
    tcnLost := [], lowLanes := [], tcnFull := [], tcnFails := [], tcnTests := [], beatLeft := [], farMute := [], rowWatch := [], remapDue := [], wingAuto := [], hst.snoop := [] }

/-- An access apart, the machine is the same. -/
structure Aside (s t : State) : Prop where
  rest : t.rest = s.rest

namespace Aside

variable {s₀ s t x : State}

theorem refl (s : State) : Aside s s := ⟨rfl⟩
theorem trans (h : Aside s₀ s) (g : Aside s t) : Aside s₀ t := ⟨g.rest.trans h.rest⟩

/-- An update of what an access may touch. -/
theorem other (h : Aside s₀ s) (_h1 : t.queues = s.queues) (h2 : t.rest = s.rest) : Aside s₀ t := ⟨h2.trans h.rest⟩

theorem queues (h : Aside s t) : t.queues = s.queues := by have := congrArg State.queues h.rest; exact this
theorem watch (h : Aside s t) : t.watch = s.watch := by have := congrArg State.watch h.rest; exact this
theorem unwatched (h : Aside s t) : t.unwatched = s.unwatched := by have := congrArg State.unwatched h.rest; exact this
theorem coreShares (h : Aside s t) : t.coreShares = s.coreShares := by have := congrArg State.coreShares h.rest; exact this
theorem copyShares (h : Aside s t) : t.copyShares = s.copyShares := by have := congrArg State.copyShares h.rest; exact this
theorem rmtOps (h : Aside s t) : t.rmtOps = s.rmtOps := by have := congrArg State.rmtOps h.rest; exact this
theorem colls (h : Aside s t) : t.colls = s.colls := by have := congrArg State.colls h.rest; exact this
theorem pending (h : Aside s t) : t.pending = s.pending := by have := congrArg State.pending h.rest; exact this

theorem ite {c : Prop} [Decidable c] {a b : State} (ha : Aside s₀ a) (hb : Aside s₀ b) : Aside s₀ (if c then a else b) := by
  split <;> assumption

/-- Prove it of an intermediate state once, then go on from any such state. -/
theorem cut {G : Prop} (x : State) (hx : Aside s₀ x) (k : Aside s₀ x → G) : G := k hx

/-- The same for a local operation. -/
theorem cutFn {G : Prop} (g : State → State) (hx : ∀ s, Aside s₀ s → Aside s₀ (g s)) (k : (∀ s, Aside s₀ s → Aside s₀ (g s)) → G) : G := k hx
theorem cutFn2 {α : Type} {G : Prop} (g : State → α → State) (hx : ∀ s a, Aside s₀ s → Aside s₀ (g s a))
    (k : (∀ s a, Aside s₀ s → Aside s₀ (g s a)) → G) : G := k hx
theorem app {g : State → State} (h : ∀ s, Aside s₀ s → Aside s₀ (g s)) (hs : Aside s₀ s) : Aside s₀ (g s) := h s hs
theorem app2 {α : Type} {g : State → α → State} {a : α} (h : ∀ s a, Aside s₀ s → Aside s₀ (g s a)) (hs : Aside s₀ s) : Aside s₀ (g s a) := h s a hs

theorem foldl {α : Type} {f : State → α → State} (l : List α) (hx : Aside s₀ x) (hf : ∀ s a, Aside s₀ s → Aside s₀ (f s a)) :
    Aside s₀ (l.foldl f x) := by
  induction l generalizing x with
  | nil => exact hx
  | cons a l ih => exact ih (hf x a hx)

theorem foldlMem {α : Type} {f : State → α → State} (l : List α) (hx : Aside s₀ x) (hf : ∀ s a, a ∈ l → Aside s₀ s → Aside s₀ (f s a)) :
    Aside s₀ (l.foldl f x) := by
  induction l generalizing x with
  | nil => exact hx
  | cons a l ih => exact ih (hf x a List.mem_cons_self hx) fun s b hb => hf s b (List.mem_cons_of_mem a hb)

end Aside

/-- The state beside other results of an operation. -/
abbrev AsideVia {β : Type} (π : β → State) (s₀ : State) (r : β) : Prop := Aside s₀ (π r)

namespace Aside

variable {s₀ s t : State}

theorem fst {α : Type} {p : State × α} {a : α} (e : p = (s, a)) (h : AsideVia Prod.fst s₀ p) : Aside s₀ s := by subst e; exact h
theorem cutVia {β : Type} (π : β → State) {G : Prop} (x : β) (hx : AsideVia π s₀ x) (k : AsideVia π s₀ x → G) : G := k hx
theorem got {p : Got} {a : Nat} {l : List Byte} (e : p = ⟨s, a, l⟩) (h : AsideVia Got.s s₀ p) : Aside s₀ s := by subst e; exact h

theorem foldlVia {α β : Type} (π : β → State) {f : β → α → β} (l : List α) {x : β} (hx : AsideVia π s₀ x)
    (hf : ∀ b a, AsideVia π s₀ b → AsideVia π s₀ (f b a)) : AsideVia π s₀ (l.foldl f x) := by
  induction l generalizing x with
  | nil => exact hx
  | cons a l ih => exact ih (hf x a hx)

theorem cutFnVia {α β : Type} {G : Prop} (π : β → State) (g : State → α → β) (hx : ∀ s a, Aside s₀ s → AsideVia π s₀ (g s a))
    (k : (∀ s a, Aside s₀ s → AsideVia π s₀ (g s a)) → G) : G := k hx

theorem foldlFst {α β : Type} {f : State × β → α → State × β} (l : List α) {x : State × β} (hx : AsideVia Prod.fst s₀ x)
    (hf : ∀ s b a, Aside s₀ s → AsideVia Prod.fst s₀ (f (s, b) a)) : AsideVia Prod.fst s₀ (l.foldl f x) := by
  induction l generalizing x with
  | nil => exact hx
  | cons a l ih => exact ih (hf x.1 x.2 a hx)

end Aside

theorem wr_aside {f : Fld} {i : Nat} {v : Nat} {s₀ s : State} (hk : Aside s₀ s) : Aside s₀ (wr s f i v) := by
  unfold wr
  repeat' first | (apply Aside.other; (case _h1 => dsimp only); (any_goals exact rfl); first | with_reducible assumption | with_reducible apply Aside.ite | with_reducible apply Aside.foldl | split)

theorem unset_aside {f : Fld} {i : Nat} {s₀ s : State} (hk : Aside s₀ s) : Aside s₀ (unset s f i) := by
  unfold unset
  repeat' first | (apply Aside.other; (case _h1 => dsimp only); (any_goals exact rfl); first | with_reducible assumption | with_reducible apply Aside.ite | with_reducible apply Aside.foldl | split)

theorem setBit_aside {f : Fld} {i : optParam Nat 0} {s₀ s : State} (hk : Aside s₀ s) : Aside s₀ (setBit s f i) := by
  unfold setBit
  repeat' first
    | with_reducible assumption
    | with_reducible apply wr_aside

theorem incSat_aside {f : Fld} {i : optParam Nat 0} {n : optParam Nat 1} {s₀ s : State} (hk : Aside s₀ s) : Aside s₀ (incSat s f i n) := by
  unfold incSat
  repeat' first
    | with_reducible assumption
    | with_reducible apply wr_aside

theorem incWrap_aside {f : Fld} {i : optParam Nat 0} {n : optParam Nat 1} {s₀ s : State} (hk : Aside s₀ s) : Aside s₀ (incWrap s f i n) := by
  unfold incWrap
  repeat' first
    | with_reducible assumption
    | with_reducible apply wr_aside

theorem bringIn_aside {f : Fld} {i : optParam Nat 0} {s₀ s : State} (hk : Aside s₀ s) : Aside s₀ (bringIn s f i) := by
  unfold bringIn
  repeat' first | (apply Aside.other; (case _h1 => dsimp only); (any_goals exact rfl); first | with_reducible assumption | with_reducible apply Aside.ite | with_reducible apply Aside.foldl | split)

theorem bumpFree_aside {s₀ s : State} (h : Aside s₀ s) : Aside s₀ (bumpFree s) :=
  ⟨h.rest⟩

theorem emit_aside {o : Out} {s₀ s : State} (h : Aside s₀ s) : Aside s₀ (emit s o) :=
  ⟨h.rest⟩

theorem memStore_aside {a : Nat} {bs : List Byte} {s₀ s : State} (h : Aside s₀ s) : Aside s₀ (memStore s a bs) :=
  ⟨h.rest⟩

theorem zeroRange_aside {lo n : Nat} {s₀ s : State} (h : Aside s₀ s) : Aside s₀ (zeroRange s lo n) :=
  ⟨h.rest⟩

theorem pendSource_aside {src : Nat} {s₀ s : State} (hk : Aside s₀ s) : Aside s₀ (pendSource s src) := by
  unfold pendSource
  repeat' first
    | with_reducible assumption
    | with_reducible apply wr_aside

theorem raise_aside {src : Nat} {s₀ s : State} (hk : Aside s₀ s) : Aside s₀ (raise s src) := by
  unfold raise
  repeat' first
    | with_reducible assumption
    | with_reducible apply Aside.ite
    | with_reducible apply pendSource_aside
    | with_reducible apply wr_aside

theorem raiseIf_aside {c : Bool} {src : Nat} {s₀ s : State} (hk : Aside s₀ s) : Aside s₀ (raiseIf c s src) := by
  unfold raiseIf
  repeat' first
    | with_reducible assumption
    | with_reducible apply Aside.ite
    | with_reducible apply raise_aside

theorem bumpUnit_aside {u : Nat} {s₀ s : State} (hk : Aside s₀ s) : Aside s₀ (bumpUnit s u) := by
  unfold bumpUnit
  repeat' first
    | with_reducible assumption
    | with_reducible apply incWrap_aside

theorem setUnit_aside {u : Nat} {state : Nat} {origin : Nat} {s₀ s : State} (hk : Aside s₀ s) : Aside s₀ (setUnit s u state origin) := by
  unfold setUnit
  repeat' first
    | with_reducible assumption
    | with_reducible apply bumpUnit_aside
    | with_reducible apply wr_aside

theorem retireMark_aside {u : Nat} {s₀ s : State} (hk : Aside s₀ s) : Aside s₀ (retireMark s u) := by
  unfold retireMark
  repeat' first
    | with_reducible assumption
    | with_reducible apply Aside.ite
    | with_reducible apply setUnit_aside

theorem putRepair_aside {n : Nat} {g : Nat} {r : GroupRepair} {ctrl : Bool} {s₀ s : State} (hk : Aside s₀ s) : Aside s₀ (putRepair s n g r ctrl) := by
  unfold putRepair
  repeat' first
    | with_reducible assumption
    | with_reducible apply Aside.ite
    | with_reducible apply wr_aside

theorem showLink_aside {n : Nat} {state : Nat} {mask : Nat} {s₀ s : State} (hk : Aside s₀ s) : Aside s₀ (showLink s n state mask) := by
  unfold showLink
  repeat' first
    | with_reducible assumption
    | intro _
    | with_reducible apply wr_aside
    | with_reducible apply Aside.foldl

theorem startTraining_aside {n : Nat} {full : Bool} {s₀ s : State} (hk : Aside s₀ s) : Aside s₀ (startTraining s n full) := by
  unfold startTraining
  repeat' first
    | (intro s1; refine Aside.cut (s₀ := s₀) s1 ?_ fun h1 => ?_; rotate_left; clear_value s1; rotate_left; unfold s1; clear s1)
    | intro _
    | lift_lets
    | with_reducible apply Aside.foldl
    | (apply Aside.other; (case _h1 => dsimp only); (any_goals exact rfl); first | with_reducible assumption | with_reducible apply Aside.ite | with_reducible apply wr_aside | with_reducible apply showLink_aside | with_reducible apply putRepair_aside | with_reducible apply Aside.foldl | split)

theorem dieLeaveOff_aside {d : Nat} {s₀ s : State} (hk : Aside s₀ s) : Aside s₀ (dieLeaveOff s d) := by
  unfold dieLeaveOff
  repeat' first
    | intro _
    | (apply Aside.other; (case _h1 => dsimp only); (any_goals exact rfl); first | with_reducible assumption | with_reducible apply Aside.ite | with_reducible apply startTraining_aside | with_reducible apply wr_aside | with_reducible apply zeroRange_aside | with_reducible apply Aside.foldl | split)

theorem wakeDie_aside {d : Nat} {n : Nat} {s₀ s : State} (hk : Aside s₀ s) : Aside s₀ (wakeDie s d n) := by
  unfold wakeDie
  repeat' first
    | with_reducible assumption
    | intro _
    | with_reducible apply Aside.ite
    | with_reducible apply dieLeaveOff_aside
    | with_reducible apply wr_aside
    | with_reducible apply Aside.foldl

theorem putRefresh_aside {wing : Nat} {v : Nat} {s₀ s : State} (hk : Aside s₀ s) : Aside s₀ (putRefresh s wing v) := by
  unfold putRefresh
  repeat' first
    | with_reducible assumption
    | with_reducible apply wr_aside

theorem setRefresh_aside {wing : Nat} {s₀ s : State} (hk : Aside s₀ s) : Aside s₀ (setRefresh s wing) := by
  unfold setRefresh
  repeat' first
    | with_reducible assumption
    | with_reducible apply Aside.ite
    | with_reducible apply putRefresh_aside

theorem setWing_aside {wing : Nat} {st : Nat} {s₀ s : State} (hk : Aside s₀ s) : Aside s₀ (setWing s wing st) := by
  unfold setWing
  dsimp only
  split
  · exact wr_aside (wr_aside (Aside.other hk rfl rfl))
  · exact wr_aside hk

theorem wakeWing_aside {wing : Nat} {n : Nat} {s₀ s : State} (hk : Aside s₀ s) : Aside s₀ (wakeWing s wing n) := by
  unfold wakeWing
  repeat' first
    | with_reducible assumption
    | with_reducible apply Aside.ite
    | with_reducible apply wakeDie_aside
    | with_reducible apply wr_aside
    | with_reducible apply zeroRange_aside
    | with_reducible apply setRefresh_aside
    | with_reducible apply setWing_aside

theorem wakeCluster_aside {cl : Nat} {n : Nat} {s₀ s : State} (hk : Aside s₀ s) : Aside s₀ (wakeCluster s cl n) := by
  unfold wakeCluster
  repeat' first | (apply Aside.other; (case _h1 => dsimp only); (any_goals exact rfl); first | with_reducible assumption | with_reducible apply Aside.ite | with_reducible apply wakeWing_aside | with_reducible apply Aside.foldl | split)

theorem wakePanel_aside {s₀ s : State} (hk : Aside s₀ s) : Aside s₀ (wakePanel s) := by
  unfold wakePanel
  repeat' first
    | with_reducible assumption
    | with_reducible apply Aside.ite
    | with_reducible apply wr_aside

theorem wakeCore_aside {core : Nat} {s₀ s : State} (hk : Aside s₀ s) : Aside s₀ (wakeCore s core) := by
  unfold wakeCore
  repeat' first | (apply Aside.other; (case _h1 => dsimp only); (any_goals exact rfl); first | with_reducible assumption | with_reducible apply Aside.ite | with_reducible apply wakeCluster_aside | with_reducible apply wakePanel_aside | with_reducible apply zeroRange_aside | with_reducible apply Aside.foldl | split)

theorem wakeTile_aside {core : Nat} {s₀ s : State} (hk : Aside s₀ s) : Aside s₀ (wakeTile s core) := by
  unfold wakeTile
  repeat' first | (apply Aside.other; (case _h1 => dsimp only); (any_goals exact rfl); first | with_reducible assumption | with_reducible apply Aside.ite | with_reducible apply wakeCluster_aside | with_reducible apply zeroRange_aside | with_reducible apply Aside.foldl | split)

theorem touch_aside {a : Nat} {s₀ s : State} (hk : Aside s₀ s) : Aside s₀ (touch s a) := by
  unfold touch
  repeat' first | (apply Aside.other; (case _h1 => dsimp only); (any_goals exact rfl); first | with_reducible assumption | with_reducible apply Aside.ite | with_reducible apply wakeWing_aside | with_reducible apply wakeTile_aside | with_reducible apply wakeDie_aside | with_reducible apply incSat_aside | with_reducible apply Aside.foldl | split)

theorem dueRow_aside {row : Nat} {cause : Nat} {s₀ s : State} (hk : Aside s₀ s) : Aside s₀ (dueRow s row cause) := by
  unfold dueRow
  repeat' first | (apply Aside.other; (case _h1 => dsimp only); (any_goals exact rfl); first | with_reducible assumption | with_reducible apply Aside.ite | with_reducible apply Aside.foldl | split)

theorem rowErr_aside {row : Nat} {s₀ s : State} (hk : Aside s₀ s) : Aside s₀ (rowErr s row) := by
  unfold rowErr
  repeat' first | (apply Aside.other; (case _h1 => dsimp only); (any_goals exact rfl); first | with_reducible assumption | with_reducible apply Aside.ite | with_reducible apply dueRow_aside | with_reducible apply Aside.foldl | split)

theorem countCe_aside {u : Nat} {s₀ s : State} (hk : Aside s₀ s) : Aside s₀ (countCe s u) := by
  unfold countCe
  repeat' first | (apply Aside.other; (case _h1 => dsimp only); (any_goals exact rfl); first | with_reducible assumption | with_reducible apply Aside.ite | with_reducible apply raiseIf_aside | with_reducible apply incSat_aside | with_reducible apply rowErr_aside | with_reducible apply Aside.foldl | split)

theorem mergeUnit_aside {u : Nat} {s₀ s : State} (hk : Aside s₀ s) : Aside s₀ (mergeUnit s u) := by
  unfold mergeUnit
  repeat' first
    | with_reducible assumption
    | with_reducible apply Aside.ite
    | with_reducible apply dueRow_aside
    | with_reducible apply countCe_aside

theorem memWrite_aside {a : Nat} {bs : List Byte} {s₀ s : State} (h : Aside s₀ s) : Aside s₀ (memWrite s a bs) :=
  memStore_aside (Aside.foldl _ h fun _ _ h => mergeUnit_aside h)

theorem countUe_aside {u : Nat} {patrol : optParam Bool Bool.false} {s₀ s : State} (hk : Aside s₀ s) : Aside s₀ (countUe s u patrol) := by
  unfold countUe
  repeat' first
    | with_reducible assumption
    | with_reducible apply Aside.ite
    | with_reducible apply incSat_aside
    | with_reducible apply wr_aside
    | with_reducible apply raiseIf_aside
    | with_reducible apply dueRow_aside

theorem eccRead_aside {a : Nat} {n : Nat} {s₀ s : State} (hk : Aside s₀ s) : AsideVia Prod.fst s₀ (eccRead s a n) := by
  unfold eccRead
  repeat' first
    | with_reducible assumption
    | intro _
    | with_reducible apply countUe_aside
    | with_reducible apply countCe_aside
    | with_reducible apply Aside.foldlFst
    | refine Aside.fst (by assumption) ?_
    | split

theorem callBack_aside {a : Nat} {n : Nat} {s₀ s : State} (hk : Aside s₀ s) : Aside s₀ (callBack s a n) := by
  unfold callBack
  repeat' first
    | intro _
    | (apply Aside.other; (case _h1 => dsimp only); (any_goals exact rfl); first | with_reducible assumption | with_reducible apply Aside.ite | with_reducible apply emit_aside | with_reducible apply Aside.foldl | split)

theorem readFlat_aside {a : Nat} {n : Nat} {s₀ s : State} (hk : Aside s₀ s) : AsideVia Got.s s₀ (readFlat s a n) := by
  unfold readFlat
  repeat' first
    | with_reducible assumption
    | (intro s1; refine Aside.cut (s₀ := s₀) s1 ?_ fun h1 => ?_; rotate_left; clear_value s1; rotate_left; unfold s1; clear s1)
    | (intro x1; clear_value x1)
    | lift_lets
    | with_reducible apply callBack_aside
    | with_reducible apply touch_aside
    | with_reducible apply eccRead_aside
    | split

theorem writeFlat_aside {q : Nat} {idx : Nat} {a : Nat} {bs : List Byte} {s₀ s : State} (hk : Aside s₀ s) : AsideVia Prod.fst s₀ (writeFlat s q idx a bs) := by
  unfold writeFlat
  repeat' first | (apply Aside.other; (case _h1 => dsimp only); (any_goals exact rfl); first | with_reducible assumption | with_reducible apply Aside.ite | with_reducible apply callBack_aside | with_reducible apply touch_aside | with_reducible apply memWrite_aside | with_reducible apply Aside.foldl | split)


theorem tcHold_aside {e : TcEntry} {s₀ s : State} (hk : Aside s₀ s) : Aside s₀ (tcHold s e) := by
  unfold tcHold
  repeat' first | (apply Aside.other; (case _h1 => dsimp only); (any_goals exact rfl); first | with_reducible assumption | with_reducible apply Aside.ite | with_reducible apply Aside.foldl | split)

theorem readPte_aside {loc : Bool} {a : Nat} {s₀ s : State} (hk : Aside s₀ s) : AsideVia Prod.fst s₀ (readPte s loc a) := by
  unfold readPte
  split
  · exact hk
  · exact readFlat_aside hk

theorem walk_aside {cache job va kind l : Nat} {loc : Bool} {table : Nat} {s₀ s : State} (h : Aside s₀ s) :
    AsideVia Xl.s s₀ (walk cache job va kind l loc table s) := by
  induction l generalizing loc table s with
  | zero =>
    unfold walk
    repeat' first
      | with_reducible assumption
      | (intro x1; refine Aside.cutVia (s₀ := s₀) Prod.fst x1 ?_ fun h1 => ?_; rotate_left; clear_value x1; rotate_left; unfold x1; clear x1)
      | (intro x1; clear_value x1)
      | lift_lets
      | with_reducible apply Aside.ite
      | with_reducible apply readPte_aside
      | with_reducible apply tcHold_aside
      | split

  | succ l ih =>
    unfold walk
    repeat' first
      | with_reducible assumption
      | (intro x1; refine Aside.cutVia (s₀ := s₀) Prod.fst x1 ?_ fun h1 => ?_; rotate_left; clear_value x1; rotate_left; unfold x1; clear x1)
      | (intro x1; clear_value x1)
      | lift_lets
      | with_reducible apply Aside.ite
      | with_reducible apply ih
      | with_reducible apply readPte_aside
      | with_reducible apply tcHold_aside
      | split


theorem translate_aside {cache job va kind : Nat} {s₀ s : State} (h : Aside s₀ s) : AsideVia Xl.s s₀ (translate s cache job va kind) := by
  unfold translate
  have go : ∀ s : State, Aside s₀ s → Aside s₀ (walk cache job va kind 3 (on (if on s XLT_CTL.tc_en then incWrap s XLT_MISSES.misses else s) XLT_JOB_ROOT.root_loc job)
      (rd (if on s XLT_CTL.tc_en then incWrap s XLT_MISSES.misses else s) XLT_JOB_ROOT.root job * 2 ^ 16) (if on s XLT_CTL.tc_en then incWrap s XLT_MISSES.misses else s)).s :=
    fun s h => walk_aside (Aside.ite (incWrap_aside h) h)
  split
  · exact h
  · refine bumpFree_aside ?_
    split
    · exact h
    · exact go s h

theorem xlRuns_aside {cache job kind fuel va n : Nat} {s₀ s : State} (h : Aside s₀ s) :
    AsideVia Runs.s s₀ (xlRuns cache job kind fuel va n s) := by
  induction fuel generalizing va n s with
  | zero => exact h
  | succ fuel ih =>
    unfold xlRuns
    repeat' first
      | with_reducible assumption
      | (intro x1; refine Aside.cutVia (s₀ := s₀) Xl.s x1 ?_ fun h1 => ?_; rotate_left; clear_value x1; rotate_left; unfold x1; clear x1)
      | lift_lets
      | with_reducible apply ih
      | with_reducible apply translate_aside
      | split


theorem xlRange_aside {cache : Nat} {job : Nat} {kind : Nat} {va : Nat} {n : Nat} {s₀ s : State} (hk : Aside s₀ s) : AsideVia Runs.s s₀ (xlRange s cache job kind va n) := by
  unfold xlRange
  repeat' first
    | with_reducible assumption
    | with_reducible apply xlRuns_aside

theorem readRuns_aside {l : List (Nat × Nat)} {s₀ s : State} (h : Aside s₀ s) : AsideVia Got.s s₀ (readRuns l s) := by
  induction l generalizing s with
  | nil => exact h
  | cons c l ih =>
    obtain ⟨a, n⟩ := c
    unfold readRuns
    repeat' first
      | with_reducible assumption
      | (intro x1; refine Aside.cutVia (s₀ := s₀) Got.s x1 ?_ fun h1 => ?_; rotate_left; clear_value x1; rotate_left; unfold x1; clear x1)
      | lift_lets
      | with_reducible apply ih
      | with_reducible apply readFlat_aside
      | split


theorem writeRuns_aside {q idx : Nat} {l : List (Nat × Nat)} {bs : List Byte} {s₀ s : State} (h : Aside s₀ s) :
    AsideVia Prod.fst s₀ (writeRuns q idx l bs s) := by
  induction l generalizing bs s with
  | nil => exact h
  | cons c l ih =>
    obtain ⟨a, n⟩ := c
    unfold writeRuns
    repeat' first
      | with_reducible assumption
      | with_reducible apply ih
      | with_reducible apply writeFlat_aside
      | refine Aside.fst (by assumption) ?_
      | split


theorem readVa_aside {cache : Nat} {job : Nat} {va : Nat} {n : Nat} {s₀ s : State} (hk : Aside s₀ s) : AsideVia VGot.s s₀ (readVa s cache job va n) := by
  unfold readVa
  repeat' first
    | with_reducible assumption
    | (intro x1; refine Aside.cutVia (s₀ := s₀) Runs.s x1 ?_ fun h1 => ?_; rotate_left; clear_value x1; rotate_left; unfold x1; clear x1)
    | lift_lets
    | with_reducible apply xlRange_aside
    | with_reducible apply readRuns_aside
    | split

theorem writeVa_aside {cache : Nat} {job : Nat} {q : Nat} {idx : Nat} {va : Nat} {bs : List Byte} {s₀ s : State} (hk : Aside s₀ s) : AsideVia Prod.fst s₀ (writeVa s cache job q idx va bs) := by
  unfold writeVa
  repeat' first
    | with_reducible assumption
    | (intro x1; refine Aside.cutVia (s₀ := s₀) Runs.s x1 ?_ fun h1 => ?_; rotate_left; clear_value x1; rotate_left; unfold x1; clear x1)
    | lift_lets
    | with_reducible apply xlRange_aside
    | with_reducible apply writeRuns_aside
    | split

end Sys2Proof.Machine
end

