-- ==== Sys2Proof/Laws/Frames.lean ====
section
/-!
SUPPORT. Frame lemmas: which register fields the shared operations write, and what raising an event leaves.
-/

namespace Sys2Proof.Machine

theorem FieldsBut.refl (l : List (Fld × Nat)) (s : State) : FieldsBut l s s := fun _ _ => rfl

theorem FieldsBut.trans {l : List (Fld × Nat)} {s t u : State} (h : FieldsBut l s t) (h' : FieldsBut l t u) : FieldsBut l s u :=
  fun k hk => (h' k hk).trans (h k hk)

theorem FieldsBut.mono {l m : List (Fld × Nat)} {s t : State} (h : FieldsBut l s t) (hlm : ∀ p ∈ l, p ∈ m) : FieldsBut m s t :=
  fun k hk => h k fun p hp => hk p (hlm p hp)

/-- A register write changes the field that it names. -/
theorem FieldsBut.wr {l : List (Fld × Nat)} {s t : State} {f : Fld} {i v : Nat} (h : FieldsBut l s t) (hf : (f, i) ∈ l) :
    FieldsBut l s (wr t f i v) := fun k hk => by
  simp only [Machine.wr]; rw [kfind_kput_other _ _ (hk _ hf)]; exact h k hk

theorem FieldsBut.unset {l : List (Fld × Nat)} {s t : State} {f : Fld} {i : Nat} (h : FieldsBut l s t) (hf : (f, i) ∈ l) :
    FieldsBut l s (unset t f i) := fun k hk => by
  simp only [Machine.unset]; rw [kfind_kdel_other _ (hk _ hf)]; exact h k hk

/-- A state with the same register fields. -/
theorem FieldsBut.of_eq {l : List (Fld × Nat)} {s t u : State} (h : FieldsBut l s t) (e : u.fields = t.fields) : FieldsBut l s u :=
  fun k hk => by rw [e]; exact h k hk

/-- A field outside the list reads as before. -/
theorem FieldsBut.rd {l : List (Fld × Nat)} {s t : State} (h : FieldsBut l s t) {f : Fld} {i : Nat} (hf : ∀ p ∈ l, fkey f i ≠ fkey p.1 p.2) :
    rd t f i = rd s f i := by simp [Machine.rd, kget, h _ hf]

theorem OnlyFields.refl (l : List (Fld × Nat)) (s : State) : OnlyFields l s s := ⟨rfl, .refl l s⟩

theorem OnlyFields.trans {l : List (Fld × Nat)} {s t u : State} (h : OnlyFields l s t) (h' : OnlyFields l t u) : OnlyFields l s u :=
  ⟨by rw [h'.1, h.1], h.2.trans h'.2⟩

theorem OnlyFields.mono {l m : List (Fld × Nat)} {s t : State} (h : OnlyFields l s t) (hlm : ∀ p ∈ l, p ∈ m) : OnlyFields m s t :=
  ⟨h.1, h.2.mono hlm⟩

theorem OnlyFields.wr {l : List (Fld × Nat)} {s t : State} {f : Fld} {i v : Nat} (h : OnlyFields l s t) (hf : (f, i) ∈ l) :
    OnlyFields l s (wr t f i v) := ⟨by unfold Machine.wr; rw [h.1], h.2.wr hf⟩

theorem OnlyFields.ite {l : List (Fld × Nat)} {s t u : State} {c : Prop} [Decidable c] (ht : OnlyFields l s t) (hu : OnlyFields l s u) :
    OnlyFields l s (if c then t else u) := by split <;> assumption

/-- Raising an event writes the two words of its source. -/
theorem OnlyFields.raise {l : List (Fld × Nat)} {s t : State} {src : Nat} (h : OnlyFields l s t) (hl : (EVT_LEVEL.latched, src / 64) ∈ l)
    (hp : (EVT_PEND.pending, src / 64) ∈ l) : OnlyFields l s (raise t src) := by
  unfold Machine.raise pendSource; dsimp only; split
  · exact h
  · exact (h.wr hl).wr hp

/-- Bit j is set once it has been set. -/
theorem bitOn_bitSet (w j : Nat) : bitOn (bitSet w j) j = true := by
  unfold bitSet
  split
  · assumption
  · rename_i h
    simp only [bitOn, beq_iff_eq] at h ⊢
    rw [Nat.add_div_right _ (Nat.pow_pos (by decide))]
    omega

/-- A bit below the width survives the cut to it. -/
theorem bitOn_mod {w j n : Nat} (h : j < n) : bitOn (w % 2 ^ n) j = bitOn w j := by
  simp only [bitOn]
  congr 1
  have : w % 2 ^ n / 2 ^ j % 2 = w / 2 ^ j % 2 := by
    obtain ⟨k, rfl⟩ := Nat.exists_eq_add_of_lt h
    rw [show j + k + 1 = j + (k + 1) by omega, Nat.pow_add, Nat.mod_mul_right_div_self, Nat.pow_succ, Nat.mul_comm]
    exact Nat.mod_mul_right_mod _ _ _
  rw [this]

/-- A raised source is latched. -/
theorem latched_raise (s : State) (src : Nat) : Latched (raise s src) src := by
  unfold Latched Machine.raise pendSource
  dsimp only
  split
  · assumption
  · rw [rd_wr_other, rd_wr_same, show EVT_LEVEL.latched.w = 64 from rfl, bitOn_mod (Nat.mod_lt _ (by decide)), bitOn_bitSet]
    simp only [fkey, EVT_LEVEL.latched, EVT_PEND.pending]; omega

end Sys2Proof.Machine
end

