-- ==== Sys2Proof/Laws/Keeps.lean ====
section
/-!
SUPPORT. What every command keeps. `Keeps s t` is the one relation from which the machine-wide invariants follow: the queue of waiting
commands is left alone, what has left the panel stays as it left, the free choices only advance, memory stays in canonical form, and
the hub's fuse records stay at eight. It is reflexive and transitive; the files beside this one prove it of every operation once.
-/

namespace Sys2Proof.Machine

/-- What a command keeps of the machine. -/
structure Keeps (s t : State) : Prop where
  pending : t.pending = s.pending
  outbox : s.outbox <:+ t.outbox
  free : s.free ≤ t.free
  mem : Memory.wf s.mem = true → Memory.wf t.mem = true
  fuse : s.fuseRecs.length ≤ 8 → t.fuseRecs.length ≤ 8

namespace Keeps

variable {s₀ s t x : State}

theorem refl (s : State) : Keeps s s := ⟨rfl, List.suffix_refl _, Nat.le_refl _, id, id⟩

theorem trans (h : Keeps s₀ s) (g : Keeps s t) : Keeps s₀ t :=
  ⟨g.pending.trans h.pending, h.outbox.trans g.outbox, Nat.le_trans h.free g.free, fun w => g.mem (h.mem w), fun w => g.fuse (h.fuse w)⟩

/-- An update of other state keeps what `Keeps` speaks of. -/
theorem other (h : Keeps s₀ s) (h1 : t.pending = s.pending) (h2 : t.outbox = s.outbox) (h3 : t.free = s.free) (h4 : t.mem = s.mem)
    (h5 : t.fuseRecs = s.fuseRecs) : Keeps s₀ t :=
  ⟨h1.trans h.pending, h2 ▸ h.outbox, h3 ▸ h.free, fun w => h4 ▸ h.mem w, fun w => h5 ▸ h.fuse w⟩

/-- A stored byte run keeps it. -/
theorem ofMem (h : Keeps s₀ s) (h1 : t.pending = s.pending) (h2 : t.outbox = s.outbox) (h3 : t.free = s.free)
    (h4 : Memory.wf s.mem = true → Memory.wf t.mem = true) (h5 : t.fuseRecs = s.fuseRecs) : Keeps s₀ t :=
  ⟨h1.trans h.pending, h2 ▸ h.outbox, h3 ▸ h.free, fun w => h4 (h.mem w), fun w => h5 ▸ h.fuse w⟩

theorem ite {c : Prop} [Decidable c] {a b : State} (ha : Keeps s₀ a) (hb : Keeps s₀ b) : Keeps s₀ (if c then a else b) := by
  split <;> assumption

/-- Prove it of an intermediate state once, then go on from any such state. -/
theorem cut {G : Prop} (x : State) (hx : Keeps s₀ x) (k : Keeps s₀ x → G) : G := k hx

/-- The same for a local operation. -/
theorem cutFn {G : Prop} (g : State → State) (hx : ∀ s, Keeps s₀ s → Keeps s₀ (g s)) (k : (∀ s, Keeps s₀ s → Keeps s₀ (g s)) → G) : G := k hx
theorem cutFn2 {α : Type} {G : Prop} (g : State → α → State) (hx : ∀ s a, Keeps s₀ s → Keeps s₀ (g s a))
    (k : (∀ s a, Keeps s₀ s → Keeps s₀ (g s a)) → G) : G := k hx
theorem app {g : State → State} (h : ∀ s, Keeps s₀ s → Keeps s₀ (g s)) (hs : Keeps s₀ s) : Keeps s₀ (g s) := h s hs
theorem app2 {α : Type} {g : State → α → State} {a : α} (h : ∀ s a, Keeps s₀ s → Keeps s₀ (g s a)) (hs : Keeps s₀ s) : Keeps s₀ (g s a) := h s a hs

theorem foldl {α : Type} {f : State → α → State} (l : List α) (hx : Keeps s₀ x) (hf : ∀ s a, Keeps s₀ s → Keeps s₀ (f s a)) :
    Keeps s₀ (l.foldl f x) := by
  induction l generalizing x with
  | nil => exact hx
  | cons a l ih => exact ih (hf x a hx)

theorem foldlMem {α : Type} {f : State → α → State} (l : List α) (hx : Keeps s₀ x) (hf : ∀ s a, a ∈ l → Keeps s₀ s → Keeps s₀ (f s a)) :
    Keeps s₀ (l.foldl f x) := by
  induction l generalizing x with
  | nil => exact hx
  | cons a l ih => exact ih (hf x a List.mem_cons_self hx) fun s b hb => hf s b (List.mem_cons_of_mem a hb)

end Keeps

/-- What a meaning answers keeps it. -/
structure KeepsRes (s₀ : State) (r : Res) : Prop where
  go : ∀ t, r = .next t → Keeps s₀ t

/-- What an operation answers, if it answers a state, keeps it. -/
structure KeepsOpt (s₀ : State) (r : Option State) : Prop where
  go : ∀ t, r = some t → Keeps s₀ t

/-- The state beside other results of an operation keeps it. -/
abbrev KeepsVia {β : Type} (π : β → State) (s₀ : State) (r : β) : Prop := Keeps s₀ (π r)

namespace Keeps

variable {s₀ s t : State}

theorem next (h : Keeps s₀ t) : KeepsRes s₀ (.next t) := ⟨fun _ e => by cases e; exact h⟩
theorem fault (r : Fault) : KeepsRes s₀ (.fault r) := ⟨fun _ e => by cases e⟩
theorem refused (r : Refusal) : KeepsRes s₀ (.refused r) := ⟨fun _ e => by cases e⟩
theorem some (h : Keeps s₀ t) : KeepsOpt s₀ (.some t) := ⟨fun _ e => by cases e; exact h⟩
theorem none : KeepsOpt s₀ .none := ⟨fun _ e => by cases e⟩
theorem iteOpt {c : Prop} [Decidable c] {a b : Option State} (ha : KeepsOpt s₀ a) (hb : KeepsOpt s₀ b) :
    KeepsOpt s₀ (if c then a else b) := by split <;> assumption
theorem ofSome {r : Option State} (e : r = .some t) (h : KeepsOpt s₀ r) : Keeps s₀ t := h.go t e
theorem fst {α : Type} {p : State × α} {a : α} (e : p = (s, a)) (h : KeepsVia Prod.fst s₀ p) : Keeps s₀ s := by subst e; exact h
theorem cutVia {β : Type} (π : β → State) {G : Prop} (x : β) (hx : KeepsVia π s₀ x) (k : KeepsVia π s₀ x → G) : G := k hx
theorem got {p : Got} {a : Nat} {l : List Byte} (e : p = ⟨s, a, l⟩) (h : KeepsVia Got.s s₀ p) : Keeps s₀ s := by subst e; exact h

theorem foldlVia {α β : Type} (π : β → State) {f : β → α → β} (l : List α) {x : β} (hx : KeepsVia π s₀ x)
    (hf : ∀ b a, KeepsVia π s₀ b → KeepsVia π s₀ (f b a)) : KeepsVia π s₀ (l.foldl f x) := by
  induction l generalizing x with
  | nil => exact hx
  | cons a l ih => exact ih (hf x a hx)

theorem cutFnVia {α β : Type} {G : Prop} (π : β → State) (g : State → α → β) (hx : ∀ s a, Keeps s₀ s → KeepsVia π s₀ (g s a))
    (k : (∀ s a, Keeps s₀ s → KeepsVia π s₀ (g s a)) → G) : G := k hx

theorem foldlFst {α β : Type} {f : State × β → α → State × β} (l : List α) {x : State × β} (hx : KeepsVia Prod.fst s₀ x)
    (hf : ∀ s b a, Keeps s₀ s → KeepsVia Prod.fst s₀ (f (s, b) a)) : KeepsVia Prod.fst s₀ (l.foldl f x) := by
  induction l generalizing x with
  | nil => exact hx
  | cons a l ih => exact ih (hf x.1 x.2 a hx)

end Keeps

end Sys2Proof.Machine
end

