-- ==== Sys2Proof/Laws/KeepsOps.lean ====
section
/-! SUPPORT. Keeps lemmas for Machine/Ops.lean (the shared operations): each meaning and operation leaves the queue of waiting commands
alone, only adds to the outbox, and keeps the canonical memory and the eight fuse records. -/

namespace Sys2Proof.Machine

theorem wr_keeps {f : Fld} {i : Nat} {v : Nat} {s₀ s : State} (hk : Keeps s₀ s) : Keeps s₀ (wr s f i v) := by
  unfold wr
  repeat' first | (apply Keeps.other; (case h1 => dsimp only); (any_goals exact rfl); first | with_reducible assumption | with_reducible apply Keeps.ite | with_reducible apply Keeps.foldl | split)

theorem unset_keeps {f : Fld} {i : Nat} {s₀ s : State} (hk : Keeps s₀ s) : Keeps s₀ (unset s f i) := by
  unfold unset
  repeat' first | (apply Keeps.other; (case h1 => dsimp only); (any_goals exact rfl); first | with_reducible assumption | with_reducible apply Keeps.ite | with_reducible apply Keeps.foldl | split)

theorem setBit_keeps {f : Fld} {i : optParam Nat 0} {s₀ s : State} (hk : Keeps s₀ s) : Keeps s₀ (setBit s f i) := by
  unfold setBit
  repeat' first
    | with_reducible assumption
    | with_reducible apply wr_keeps

theorem incSat_keeps {f : Fld} {i : optParam Nat 0} {n : optParam Nat 1} {s₀ s : State} (hk : Keeps s₀ s) : Keeps s₀ (incSat s f i n) := by
  unfold incSat
  repeat' first
    | with_reducible assumption
    | with_reducible apply wr_keeps

theorem incWrap_keeps {f : Fld} {i : optParam Nat 0} {n : optParam Nat 1} {s₀ s : State} (hk : Keeps s₀ s) : Keeps s₀ (incWrap s f i n) := by
  unfold incWrap
  repeat' first
    | with_reducible assumption
    | with_reducible apply wr_keeps

theorem bringIn_keeps {f : Fld} {i : optParam Nat 0} {s₀ s : State} (hk : Keeps s₀ s) : Keeps s₀ (bringIn s f i) := by
  unfold bringIn
  repeat' first | (apply Keeps.other; (case h1 => dsimp only); (any_goals exact rfl); first | with_reducible assumption | with_reducible apply Keeps.ite | with_reducible apply Keeps.foldl | split)

theorem bumpFree_keeps {s₀ s : State} (h : Keeps s₀ s) : Keeps s₀ (bumpFree s) :=
  ⟨h.pending, h.outbox, Nat.le_trans h.free (Nat.le_succ _), h.mem, h.fuse⟩

theorem emit_keeps {o : Out} {s₀ s : State} (h : Keeps s₀ s) : Keeps s₀ (emit s o) :=
  ⟨h.pending, h.outbox.trans (List.suffix_cons _ _), h.free, h.mem, h.fuse⟩

theorem memStore_keeps {a : Nat} {bs : List Byte} {s₀ s : State} (h : Keeps s₀ s) : Keeps s₀ (memStore s a bs) :=
  Keeps.ofMem h rfl rfl rfl (fun w => wf_memPutList bs a w) rfl

theorem zeroRange_keeps {lo n : Nat} {s₀ s : State} (h : Keeps s₀ s) : Keeps s₀ (zeroRange s lo n) :=
  Keeps.ofMem h rfl rfl rfl (fun w => wf_filter _ w) rfl

theorem pendSource_keeps {src : Nat} {s₀ s : State} (hk : Keeps s₀ s) : Keeps s₀ (pendSource s src) := by
  unfold pendSource
  repeat' first
    | with_reducible assumption
    | with_reducible apply wr_keeps

theorem raise_keeps {src : Nat} {s₀ s : State} (hk : Keeps s₀ s) : Keeps s₀ (raise s src) := by
  unfold raise
  repeat' first
    | with_reducible assumption
    | with_reducible apply Keeps.ite
    | with_reducible apply pendSource_keeps
    | with_reducible apply wr_keeps

theorem raiseIf_keeps {c : Bool} {src : Nat} {s₀ s : State} (hk : Keeps s₀ s) : Keeps s₀ (raiseIf c s src) := by
  unfold raiseIf
  repeat' first
    | with_reducible assumption
    | with_reducible apply Keeps.ite
    | with_reducible apply raise_keeps

theorem sendMsix_keeps {v : Nat} {s₀ s : State} (hk : Keeps s₀ s) : Keeps s₀ (sendMsix s v) := by
  unfold sendMsix
  repeat' first | (apply Keeps.other; (case h1 => dsimp only); (any_goals exact rfl); first | with_reducible assumption | with_reducible apply Keeps.ite | with_reducible apply emit_keeps | with_reducible apply Keeps.foldl | split)

theorem bumpUnit_keeps {u : Nat} {s₀ s : State} (hk : Keeps s₀ s) : Keeps s₀ (bumpUnit s u) := by
  unfold bumpUnit
  repeat' first
    | with_reducible assumption
    | with_reducible apply incWrap_keeps

theorem setUnit_keeps {u : Nat} {state : Nat} {origin : Nat} {s₀ s : State} (hk : Keeps s₀ s) : Keeps s₀ (setUnit s u state origin) := by
  unfold setUnit
  repeat' first
    | with_reducible assumption
    | with_reducible apply bumpUnit_keeps
    | with_reducible apply wr_keeps

theorem retireMark_keeps {u : Nat} {s₀ s : State} (hk : Keeps s₀ s) : Keeps s₀ (retireMark s u) := by
  unfold retireMark
  repeat' first
    | with_reducible assumption
    | with_reducible apply Keeps.ite
    | with_reducible apply setUnit_keeps

theorem putRepair_keeps {n : Nat} {g : Nat} {r : GroupRepair} {ctrl : Bool} {s₀ s : State} (hk : Keeps s₀ s) : Keeps s₀ (putRepair s n g r ctrl) := by
  unfold putRepair
  repeat' first
    | with_reducible assumption
    | with_reducible apply Keeps.ite
    | with_reducible apply wr_keeps

theorem showLink_keeps {n : Nat} {state : Nat} {mask : Nat} {s₀ s : State} (hk : Keeps s₀ s) : Keeps s₀ (showLink s n state mask) := by
  unfold showLink
  repeat' first
    | with_reducible assumption
    | intro _
    | with_reducible apply wr_keeps
    | with_reducible apply Keeps.foldl

theorem startTraining_keeps {n : Nat} {full : Bool} {s₀ s : State} (hk : Keeps s₀ s) : Keeps s₀ (startTraining s n full) := by
  unfold startTraining
  repeat' first
    | (intro s1; refine Keeps.cut (s₀ := s₀) s1 ?_ fun h1 => ?_; rotate_left; clear_value s1; rotate_left; unfold s1; clear s1)
    | intro _
    | lift_lets
    | with_reducible apply Keeps.foldl
    | (apply Keeps.other; (case h1 => dsimp only); (any_goals exact rfl); first | with_reducible assumption | with_reducible apply Keeps.ite | with_reducible apply wr_keeps | with_reducible apply showLink_keeps | with_reducible apply putRepair_keeps | with_reducible apply Keeps.foldl | split)

theorem dieLeaveOff_keeps {d : Nat} {s₀ s : State} (hk : Keeps s₀ s) : Keeps s₀ (dieLeaveOff s d) := by
  unfold dieLeaveOff
  repeat' first
    | intro _
    | (apply Keeps.other; (case h1 => dsimp only); (any_goals exact rfl); first | with_reducible assumption | with_reducible apply Keeps.ite | with_reducible apply startTraining_keeps | with_reducible apply wr_keeps | with_reducible apply zeroRange_keeps | with_reducible apply Keeps.foldl | split)

theorem wakeDie_keeps {d : Nat} {n : Nat} {s₀ s : State} (hk : Keeps s₀ s) : Keeps s₀ (wakeDie s d n) := by
  unfold wakeDie
  repeat' first
    | with_reducible assumption
    | intro _
    | with_reducible apply Keeps.ite
    | with_reducible apply dieLeaveOff_keeps
    | with_reducible apply wr_keeps
    | with_reducible apply Keeps.foldl

theorem putRefresh_keeps {wing : Nat} {v : Nat} {s₀ s : State} (hk : Keeps s₀ s) : Keeps s₀ (putRefresh s wing v) := by
  unfold putRefresh
  repeat' first
    | with_reducible assumption
    | with_reducible apply wr_keeps

theorem setRefresh_keeps {wing : Nat} {s₀ s : State} (hk : Keeps s₀ s) : Keeps s₀ (setRefresh s wing) := by
  unfold setRefresh
  repeat' first
    | with_reducible assumption
    | with_reducible apply Keeps.ite
    | with_reducible apply putRefresh_keeps

theorem followHeat_keeps {wing : Nat} {s₀ s : State} (hk : Keeps s₀ s) : Keeps s₀ (followHeat s wing) := by
  unfold followHeat
  repeat' first | (apply Keeps.other; (case h1 => dsimp only); (any_goals exact rfl); first | with_reducible assumption | with_reducible apply Keeps.ite | with_reducible apply setRefresh_keeps | with_reducible apply Keeps.foldl | split)

theorem setWing_keeps {wing : Nat} {st : Nat} {s₀ s : State} (hk : Keeps s₀ s) : Keeps s₀ (setWing s wing st) := by
  unfold setWing
  repeat' first | (apply Keeps.other; (case h1 => dsimp only); (any_goals exact rfl); first | with_reducible assumption | with_reducible apply Keeps.ite | with_reducible apply wr_keeps | with_reducible apply Keeps.foldl | split)

theorem wakeWing_keeps {wing : Nat} {n : Nat} {s₀ s : State} (hk : Keeps s₀ s) : Keeps s₀ (wakeWing s wing n) := by
  unfold wakeWing
  repeat' first
    | with_reducible assumption
    | with_reducible apply Keeps.ite
    | with_reducible apply wakeDie_keeps
    | with_reducible apply wr_keeps
    | with_reducible apply zeroRange_keeps
    | with_reducible apply setRefresh_keeps
    | with_reducible apply setWing_keeps

theorem wakeCluster_keeps {cl : Nat} {n : Nat} {s₀ s : State} (hk : Keeps s₀ s) : Keeps s₀ (wakeCluster s cl n) := by
  unfold wakeCluster
  repeat' first | (apply Keeps.other; (case h1 => dsimp only); (any_goals exact rfl); first | with_reducible assumption | with_reducible apply Keeps.ite | with_reducible apply wakeWing_keeps | with_reducible apply Keeps.foldl | split)

theorem wakePanel_keeps {s₀ s : State} (hk : Keeps s₀ s) : Keeps s₀ (wakePanel s) := by
  unfold wakePanel
  repeat' first
    | with_reducible assumption
    | with_reducible apply Keeps.ite
    | with_reducible apply wr_keeps

theorem wakeCore_keeps {core : Nat} {s₀ s : State} (hk : Keeps s₀ s) : Keeps s₀ (wakeCore s core) := by
  unfold wakeCore
  repeat' first | (apply Keeps.other; (case h1 => dsimp only); (any_goals exact rfl); first | with_reducible assumption | with_reducible apply Keeps.ite | with_reducible apply wakeCluster_keeps | with_reducible apply wakePanel_keeps | with_reducible apply zeroRange_keeps | with_reducible apply Keeps.foldl | split)

theorem wakeTile_keeps {core : Nat} {s₀ s : State} (hk : Keeps s₀ s) : Keeps s₀ (wakeTile s core) := by
  unfold wakeTile
  repeat' first | (apply Keeps.other; (case h1 => dsimp only); (any_goals exact rfl); first | with_reducible assumption | with_reducible apply Keeps.ite | with_reducible apply wakeCluster_keeps | with_reducible apply zeroRange_keeps | with_reducible apply Keeps.foldl | split)

theorem touch_keeps {a : Nat} {s₀ s : State} (hk : Keeps s₀ s) : Keeps s₀ (touch s a) := by
  unfold touch
  repeat' first | (apply Keeps.other; (case h1 => dsimp only); (any_goals exact rfl); first | with_reducible assumption | with_reducible apply Keeps.ite | with_reducible apply wakeWing_keeps | with_reducible apply wakeTile_keeps | with_reducible apply wakeDie_keeps | with_reducible apply incSat_keeps | with_reducible apply Keeps.foldl | split)

theorem dueRow_keeps {row : Nat} {cause : Nat} {s₀ s : State} (hk : Keeps s₀ s) : Keeps s₀ (dueRow s row cause) := by
  unfold dueRow
  repeat' first | (apply Keeps.other; (case h1 => dsimp only); (any_goals exact rfl); first | with_reducible assumption | with_reducible apply Keeps.ite | with_reducible apply Keeps.foldl | split)

theorem rowErr_keeps {row : Nat} {s₀ s : State} (hk : Keeps s₀ s) : Keeps s₀ (rowErr s row) := by
  unfold rowErr
  repeat' first | (apply Keeps.other; (case h1 => dsimp only); (any_goals exact rfl); first | with_reducible assumption | with_reducible apply Keeps.ite | with_reducible apply dueRow_keeps | with_reducible apply Keeps.foldl | split)

theorem countCe_keeps {u : Nat} {s₀ s : State} (hk : Keeps s₀ s) : Keeps s₀ (countCe s u) := by
  unfold countCe
  repeat' first | (apply Keeps.other; (case h1 => dsimp only); (any_goals exact rfl); first | with_reducible assumption | with_reducible apply Keeps.ite | with_reducible apply raiseIf_keeps | with_reducible apply incSat_keeps | with_reducible apply rowErr_keeps | with_reducible apply Keeps.foldl | split)

theorem mergeUnit_keeps {u : Nat} {s₀ s : State} (hk : Keeps s₀ s) : Keeps s₀ (mergeUnit s u) := by
  unfold mergeUnit
  repeat' first
    | with_reducible assumption
    | with_reducible apply Keeps.ite
    | with_reducible apply dueRow_keeps
    | with_reducible apply countCe_keeps

theorem memWrite_keeps {a : Nat} {bs : List Byte} {s₀ s : State} (hk : Keeps s₀ s) : Keeps s₀ (memWrite s a bs) := by
  unfold memWrite
  repeat' first
    | with_reducible assumption
    | intro _
    | with_reducible apply memStore_keeps
    | with_reducible apply mergeUnit_keeps
    | with_reducible apply Keeps.foldl

theorem countUe_keeps {u : Nat} {patrol : optParam Bool Bool.false} {s₀ s : State} (hk : Keeps s₀ s) : Keeps s₀ (countUe s u patrol) := by
  unfold countUe
  repeat' first
    | with_reducible assumption
    | with_reducible apply Keeps.ite
    | with_reducible apply incSat_keeps
    | with_reducible apply wr_keeps
    | with_reducible apply raiseIf_keeps
    | with_reducible apply dueRow_keeps

theorem eccRead_keeps {a : Nat} {n : Nat} {s₀ s : State} (hk : Keeps s₀ s) : KeepsVia Prod.fst s₀ (eccRead s a n) := by
  unfold eccRead
  repeat' first
    | with_reducible assumption
    | intro _
    | with_reducible apply countUe_keeps
    | with_reducible apply countCe_keeps
    | with_reducible apply Keeps.foldlFst
    | refine Keeps.fst (by assumption) ?_
    | split

theorem callBack_keeps {a : Nat} {n : Nat} {s₀ s : State} (hk : Keeps s₀ s) : Keeps s₀ (callBack s a n) := by
  unfold callBack
  repeat' first
    | intro _
    | (apply Keeps.other; (case h1 => dsimp only); (any_goals exact rfl); first | with_reducible assumption | with_reducible apply Keeps.ite | with_reducible apply emit_keeps | with_reducible apply Keeps.foldl | split)

theorem readFlat_keeps {a : Nat} {n : Nat} {s₀ s : State} (hk : Keeps s₀ s) : KeepsVia Got.s s₀ (readFlat s a n) := by
  unfold readFlat
  repeat' first
    | with_reducible assumption
    | (intro s1; refine Keeps.cut (s₀ := s₀) s1 ?_ fun h1 => ?_; rotate_left; clear_value s1; rotate_left; unfold s1; clear s1)
    | (intro x1; clear_value x1)
    | lift_lets
    | with_reducible apply callBack_keeps
    | with_reducible apply touch_keeps
    | with_reducible apply eccRead_keeps
    | split

theorem writeFlat_keeps {q : Nat} {idx : Nat} {a : Nat} {bs : List Byte} {s₀ s : State} (hk : Keeps s₀ s) : KeepsVia Prod.fst s₀ (writeFlat s q idx a bs) := by
  unfold writeFlat
  repeat' first | (apply Keeps.other; (case h1 => dsimp only); (any_goals exact rfl); first | with_reducible assumption | with_reducible apply Keeps.ite | with_reducible apply callBack_keeps | with_reducible apply touch_keeps | with_reducible apply memWrite_keeps | with_reducible apply Keeps.foldl | refine Keeps.fst (by assumption) ?_ | split)

end Sys2Proof.Machine
end

