-- ==== Sys2Proof/Laws/KeepsXlate.lean ====
section
/-! SUPPORT. Keeps lemmas for Machine/Xlate.lean (translation): each meaning and operation leaves the queue of waiting commands
alone, only adds to the outbox, and keeps the canonical memory and the eight fuse records. -/

namespace Sys2Proof.Machine

theorem tcHold_keeps {e : TcEntry} {s₀ s : State} (hk : Keeps s₀ s) : Keeps s₀ (tcHold s e) := by
  unfold tcHold
  repeat' first | (apply Keeps.other; (case h1 => dsimp only); (any_goals exact rfl); first | with_reducible assumption | with_reducible apply Keeps.ite | with_reducible apply Keeps.foldl | split)

theorem readPte_keeps {loc : Bool} {a : Nat} {s₀ s : State} (hk : Keeps s₀ s) : KeepsVia Prod.fst s₀ (readPte s loc a) := by
  unfold readPte
  repeat' first
    | with_reducible assumption
    | with_reducible apply readFlat_keeps
    | split

theorem walk_keeps {cache job va kind l : Nat} {loc : Bool} {table : Nat} {s₀ s : State} (h : Keeps s₀ s) :
    KeepsVia Xl.s s₀ (walk cache job va kind l loc table s) := by
  induction l generalizing loc table s with
  | zero =>
    unfold walk
    repeat' first
      | with_reducible assumption
      | (intro x1; refine Keeps.cutVia (s₀ := s₀) Prod.fst x1 ?_ fun h1 => ?_; rotate_left; clear_value x1; rotate_left; unfold x1; clear x1)
      | (intro x1; clear_value x1)
      | lift_lets
      | with_reducible apply Keeps.ite
      | with_reducible apply readPte_keeps
      | with_reducible apply tcHold_keeps
      | split

  | succ l ih =>
    unfold walk
    repeat' first
      | with_reducible assumption
      | (intro x1; refine Keeps.cutVia (s₀ := s₀) Prod.fst x1 ?_ fun h1 => ?_; rotate_left; clear_value x1; rotate_left; unfold x1; clear x1)
      | (intro x1; clear_value x1)
      | lift_lets
      | with_reducible apply Keeps.ite
      | with_reducible apply ih
      | with_reducible apply readPte_keeps
      | with_reducible apply tcHold_keeps
      | split


theorem translate_keeps {cache job va kind : Nat} {s₀ s : State} (h : Keeps s₀ s) : KeepsVia Xl.s s₀ (translate s cache job va kind) := by
  unfold translate
  have go : ∀ s : State, Keeps s₀ s → Keeps s₀ (walk cache job va kind 3 (on (if on s XLT_CTL.tc_en then incWrap s XLT_MISSES.misses else s) XLT_JOB_ROOT.root_loc job)
      (rd (if on s XLT_CTL.tc_en then incWrap s XLT_MISSES.misses else s) XLT_JOB_ROOT.root job * 2 ^ 16) (if on s XLT_CTL.tc_en then incWrap s XLT_MISSES.misses else s)).s :=
    fun s h => walk_keeps (Keeps.ite (incWrap_keeps h) h)
  split
  · exact h
  · refine bumpFree_keeps ?_
    split
    · exact h
    · exact go s h

theorem xlRuns_keeps {cache job kind fuel va n : Nat} {s₀ s : State} (h : Keeps s₀ s) :
    KeepsVia Runs.s s₀ (xlRuns cache job kind fuel va n s) := by
  induction fuel generalizing va n s with
  | zero => exact h
  | succ fuel ih =>
    unfold xlRuns
    repeat' first
      | with_reducible assumption
      | (intro x1; refine Keeps.cutVia (s₀ := s₀) Xl.s x1 ?_ fun h1 => ?_; rotate_left; clear_value x1; rotate_left; unfold x1; clear x1)
      | lift_lets
      | with_reducible apply ih
      | with_reducible apply translate_keeps
      | split


theorem xlRange_keeps {cache : Nat} {job : Nat} {kind : Nat} {va : Nat} {n : Nat} {s₀ s : State} (hk : Keeps s₀ s) : KeepsVia Runs.s s₀ (xlRange s cache job kind va n) := by
  unfold xlRange
  repeat' first
    | with_reducible assumption
    | with_reducible apply xlRuns_keeps

theorem readRuns_keeps {l : List (Nat × Nat)} {s₀ s : State} (h : Keeps s₀ s) : KeepsVia Got.s s₀ (readRuns l s) := by
  induction l generalizing s with
  | nil => exact h
  | cons c l ih =>
    obtain ⟨a, n⟩ := c
    unfold readRuns
    repeat' first
      | with_reducible assumption
      | (intro x1; refine Keeps.cutVia (s₀ := s₀) Got.s x1 ?_ fun h1 => ?_; rotate_left; clear_value x1; rotate_left; unfold x1; clear x1)
      | lift_lets
      | with_reducible apply ih
      | with_reducible apply readFlat_keeps
      | split


theorem reachRuns_keeps {l : List (Nat × Nat)} {s₀ s : State} (h : Keeps s₀ s) : KeepsVia Prod.fst s₀ (reachRuns l s) := by
  induction l generalizing s with
  | nil => exact h
  | cons c l ih =>
    obtain ⟨a, n⟩ := c
    unfold reachRuns
    repeat' first
      | with_reducible assumption
      | (intro x1; clear_value x1)
      | lift_lets
      | with_reducible apply ih
      | with_reducible apply callBack_keeps
      | with_reducible apply touch_keeps
      | split


theorem writeRuns_keeps {q idx : Nat} {l : List (Nat × Nat)} {bs : List Byte} {s₀ s : State} (h : Keeps s₀ s) :
    KeepsVia Prod.fst s₀ (writeRuns q idx l bs s) := by
  induction l generalizing bs s with
  | nil => exact h
  | cons c l ih =>
    obtain ⟨a, n⟩ := c
    unfold writeRuns
    repeat' first
      | with_reducible assumption
      | with_reducible apply ih
      | with_reducible apply writeFlat_keeps
      | refine Keeps.fst (by assumption) ?_
      | split


theorem readVa_keeps {cache : Nat} {job : Nat} {va : Nat} {n : Nat} {s₀ s : State} (hk : Keeps s₀ s) : KeepsVia VGot.s s₀ (readVa s cache job va n) := by
  unfold readVa
  repeat' first
    | with_reducible assumption
    | (intro x1; refine Keeps.cutVia (s₀ := s₀) Runs.s x1 ?_ fun h1 => ?_; rotate_left; clear_value x1; rotate_left; unfold x1; clear x1)
    | lift_lets
    | with_reducible apply xlRange_keeps
    | with_reducible apply readRuns_keeps
    | split

theorem writeVa_keeps {cache : Nat} {job : Nat} {q : Nat} {idx : Nat} {va : Nat} {bs : List Byte} {s₀ s : State} (hk : Keeps s₀ s) : KeepsVia Prod.fst s₀ (writeVa s cache job q idx va bs) := by
  unfold writeVa
  repeat' first
    | with_reducible assumption
    | (intro x1; refine Keeps.cutVia (s₀ := s₀) Runs.s x1 ?_ fun h1 => ?_; rotate_left; clear_value x1; rotate_left; unfold x1; clear x1)
    | lift_lets
    | with_reducible apply xlRange_keeps
    | with_reducible apply writeRuns_keeps
    | split

theorem tcForget_keeps {job : Nat} {s₀ s : State} (hk : Keeps s₀ s) : Keeps s₀ (tcForget s job) := by
  unfold tcForget
  repeat' first | (apply Keeps.other; (case h1 => dsimp only); (any_goals exact rfl); first | with_reducible assumption | with_reducible apply Keeps.ite | with_reducible apply Keeps.foldl | split)

theorem doInvalidate_keeps {job : Nat} {size : Nat} {kind : Nat} {s₀ s : State} (hk : Keeps s₀ s) : Keeps s₀ (doInvalidate s job size kind) := by
  unfold doInvalidate
  repeat' first | (apply Keeps.other; (case h1 => dsimp only); (any_goals exact rfl); first | with_reducible assumption | with_reducible apply Keeps.ite | with_reducible apply setBit_keeps | with_reducible apply wr_keeps | with_reducible apply Keeps.foldl | split)

theorem execXltInvalidate_keeps {job : JobNo} {size : Fin 64} {kind : Fin 4} {s₀ s : State} (hk : Keeps s₀ s) : KeepsRes s₀ (execXltInvalidate job size kind s) := by
  unfold execXltInvalidate
  repeat' first
    | with_reducible assumption
    | with_reducible apply doInvalidate_keeps
    | with_reducible apply Keeps.next

theorem execInvalidationComplete_keeps {s₀ s : State} (hk : Keeps s₀ s) : KeepsRes s₀ (execInvalidationComplete s) := by
  unfold execInvalidationComplete
  repeat' first
    | with_reducible apply Keeps.next
    | split
    | (apply Keeps.other; (case h1 => dsimp only); (any_goals exact rfl); first | with_reducible assumption | with_reducible apply Keeps.ite | with_reducible apply incWrap_keeps | with_reducible apply wr_keeps | with_reducible apply Keeps.foldl | split)

end Sys2Proof.Machine
end

