-- ==== Sys2Proof/Laws/KeepsCtxs.lean ====
section
/-! SUPPORT. Keeps lemmas for Machine/Ctxs.lean (contexts and their scratchpads): each meaning and operation leaves the queue of waiting commands
alone, only adds to the outbox, and keeps the canonical memory and the eight fuse records. -/

namespace Sys2Proof.Machine

theorem putQ_keeps {q : Nat} {x : Queue} {s₀ s : State} (hk : Keeps s₀ s) : Keeps s₀ (putQ s q x) := by
  unfold putQ
  repeat' first | (apply Keeps.other; (case h1 => dsimp only); (any_goals exact rfl); first | with_reducible assumption | with_reducible apply Keeps.ite | with_reducible apply Keeps.foldl | split)

theorem modCtx_keeps {q : Nat} {idx : Nat} {f : Ctx → Ctx} {s₀ s : State} (hk : Keeps s₀ s) : Keeps s₀ (modCtx s q idx f) := by
  unfold modCtx
  repeat' first
    | with_reducible assumption
    | with_reducible apply putQ_keeps

theorem armTimers_keeps {q : Nat} {s₀ s : State} (hk : Keeps s₀ s) : Keeps s₀ (armTimers s q) := by
  unfold armTimers
  repeat' first
    | with_reducible assumption
    | (intro x1; clear_value x1)
    | lift_lets
    | with_reducible apply putQ_keeps
    | split

theorem countTimers_keeps {s₀ s : State} (hk : Keeps s₀ s) : Keeps s₀ (countTimers s) := by
  unfold countTimers
  repeat' first | (apply Keeps.other; (case h1 => dsimp only); (any_goals exact rfl); first | with_reducible assumption | with_reducible apply Keeps.ite | with_reducible apply Keeps.foldl | split)

theorem dropCtx_keeps {q : Nat} {idx : Nat} {s₀ s : State} (hk : Keeps s₀ s) : Keeps s₀ (dropCtx s q idx) := by
  unfold dropCtx
  repeat' first | (apply Keeps.other; (case h1 => dsimp only); (any_goals exact rfl); first | with_reducible assumption | with_reducible apply Keeps.ite | with_reducible apply putQ_keeps | with_reducible apply armTimers_keeps | with_reducible apply wr_keeps | with_reducible apply Keeps.foldl | split)

theorem abandon_keeps {q : Nat} {idx : Nat} {s₀ s : State} (hk : Keeps s₀ s) : Keeps s₀ (abandon s q idx) := by
  unfold abandon
  repeat' first | (apply Keeps.other; (case h1 => dsimp only); (any_goals exact rfl); first | with_reducible assumption | with_reducible apply Keeps.ite | with_reducible apply Keeps.foldl | split)

theorem finishCtx_keeps {q : Nat} {idx : Nat} {status : Nat} {result0 : Nat} {f : optParam Inexact { }} {s₀ s : State} (hk : Keeps s₀ s) : Keeps s₀ (finishCtx s q idx status result0 f) := by
  unfold finishCtx
  repeat' first
    | with_reducible assumption
    | with_reducible apply modCtx_keeps

theorem stopShare_keeps {q : Nat} {idx : Nat} {pos : Nat} {st : Stop} {s₀ s : State} (hk : Keeps s₀ s) : Keeps s₀ (stopShare s q idx pos st) := by
  unfold stopShare
  repeat' first
    | with_reducible assumption
    | with_reducible apply modCtx_keeps
    | with_reducible apply putQ_keeps
    | split

theorem putRing_keeps {r : RingId} {x : Ring} {s₀ s : State} (hk : Keeps s₀ s) : Keeps s₀ (putRing s r x) := by
  unfold putRing
  repeat' first | (apply Keeps.other; (case h1 => dsimp only); (any_goals exact rfl); first | with_reducible assumption | with_reducible apply Keeps.ite | with_reducible apply Keeps.foldl | split)

theorem putWindex_keeps {r : RingId} {w : Nat} {s₀ s : State} (hk : Keeps s₀ s) : Keeps s₀ (putWindex s r w) := by
  unfold putWindex
  repeat' first | (apply Keeps.other; (case h1 => dsimp only); (any_goals exact rfl); first | with_reducible assumption | with_reducible apply Keeps.ite | with_reducible apply wr_keeps | with_reducible apply Keeps.foldl | split)

theorem ringArrive_keeps {r : RingId} {i : Nat} {l : List Line} {s₀ s : State} (h : Keeps s₀ s) : Keeps s₀ (ringArrive s r i l) := by
  induction l generalizing i s with
  | nil => exact h
  | cons d l ih => exact ih (memStore_keeps h)

theorem noteRing_keeps {r : RingId} {s₀ s : State} (hk : Keeps s₀ s) : Keeps s₀ (noteRing s r) := by
  unfold noteRing
  repeat' first
    | with_reducible assumption
    | with_reducible apply Keeps.ite
    | with_reducible apply putRing_keeps
    | with_reducible apply raise_keeps
    | with_reducible apply setBit_keeps

theorem ringWrite_keeps {r : RingId} {h : HeldRec} {s₀ s : State} (hk : Keeps s₀ s) : Keeps s₀ (ringWrite s r h) := by
  unfold ringWrite
  repeat' first
    | with_reducible assumption
    | (intro s1; refine Keeps.cut (s₀ := s₀) s1 ?_ fun h1 => ?_; rotate_left; clear_value s1; rotate_left; unfold s1; clear s1)
    | (intro x1; clear_value x1)
    | lift_lets
    | with_reducible apply memStore_keeps
    | with_reducible apply noteRing_keeps
    | with_reducible apply putWindex_keeps
    | with_reducible apply sendMsix_keeps
    | split

theorem ringHold_keeps {r : RingId} {h : HeldRec} {s₀ s : State} (hk : Keeps s₀ s) : Keeps s₀ (ringHold s r h) := by
  unfold ringHold
  repeat' first
    | with_reducible assumption
    | with_reducible apply noteRing_keeps
    | with_reducible apply putRing_keeps

theorem releaseCtx_keeps {q : Nat} {c : Ctx} {s₀ s : State} (hk : Keeps s₀ s) : Keeps s₀ (releaseCtx s q c) := by
  unfold releaseCtx
  repeat' first
    | with_reducible assumption
    | with_reducible apply Keeps.ite
    | with_reducible apply dropCtx_keeps
    | with_reducible apply putQ_keeps

theorem completeCtx_keeps {q : Nat} {c : Ctx} {s₀ s : State} (hk : Keeps s₀ s) : Keeps s₀ (completeCtx s q c) := by
  unfold completeCtx
  repeat' first
    | with_reducible assumption
    | with_reducible apply Keeps.ite
    | with_reducible apply releaseCtx_keeps
    | with_reducible apply ringWrite_keeps
    | with_reducible apply modCtx_keeps
    | with_reducible apply ringHold_keeps

theorem faultReported_keeps {q : Nat} {idx : Nat} {s₀ s : State} (hk : Keeps s₀ s) : Keeps s₀ (faultReported s q idx) := by
  unfold faultReported
  repeat' first
    | with_reducible assumption
    | with_reducible apply Keeps.ite
    | with_reducible apply dropCtx_keeps
    | with_reducible apply abandon_keeps
    | with_reducible apply modCtx_keeps
    | with_reducible apply wr_keeps

theorem reportStop_keeps {q : Nat} {s₀ s : State} (hk : Keeps s₀ s) : Keeps s₀ (reportStop s q) := by
  unfold reportStop
  repeat' first
    | with_reducible assumption
    | with_reducible apply putQ_keeps
    | with_reducible apply faultReported_keeps
    | with_reducible apply ringWrite_keeps
    | with_reducible apply ringHold_keeps
    | split
    | dsimp only

theorem saveFailed_keeps {owner : Nat} {idx : Nat} {st : Nat} {s₀ s : State} (hk : Keeps s₀ s) : Keeps s₀ (saveFailed s owner idx st) := by
  unfold saveFailed
  repeat' first
    | with_reducible assumption
    | with_reducible apply putRing_keeps

theorem writeHeld_keeps {r : RingId} {s₀ s : State} (hk : Keeps s₀ s) : Keeps s₀ (writeHeld s r) := by
  unfold writeHeld
  repeat' first
    | with_reducible assumption
    | (intro s1; refine Keeps.cut (s₀ := s₀) s1 ?_ fun h1 => ?_; rotate_left; clear_value s1; rotate_left; unfold s1; clear s1)
    | (intro x1; clear_value x1)
    | lift_lets
    | with_reducible apply putRing_keeps
    | with_reducible apply ringWrite_keeps
    | with_reducible apply releaseCtx_keeps
    | with_reducible apply faultReported_keeps
    | with_reducible apply putQ_keeps
    | with_reducible apply wr_keeps
    | split

theorem dbAdd_keeps {r : RingId} {s₀ s : State} (hk : Keeps s₀ s) : Keeps s₀ (dbAdd s r) := by
  unfold dbAdd
  repeat' first | (apply Keeps.other; (case h1 => dsimp only); (any_goals exact rfl); first | with_reducible assumption | with_reducible apply Keeps.ite | with_reducible apply Keeps.foldl | split)

theorem dbRemove_keeps {r : RingId} {s₀ s : State} (hk : Keeps s₀ s) : Keeps s₀ (dbRemove s r) := by
  unfold dbRemove
  repeat' first | (apply Keeps.other; (case h1 => dsimp only); (any_goals exact rfl); first | with_reducible assumption | with_reducible apply Keeps.ite | with_reducible apply Keeps.foldl | split)

theorem dbRereadAll_keeps {s₀ s : State} (hk : Keeps s₀ s) : Keeps s₀ (dbRereadAll s) := by
  unfold dbRereadAll
  repeat' first | (apply Keeps.other; (case h1 => dsimp only); (any_goals exact rfl); first | with_reducible assumption | with_reducible apply Keeps.ite | with_reducible apply Keeps.foldl | split)

end Sys2Proof.Machine
end

