-- ==== Sys2Proof/Laws/KeepsMatmul.lean ====
section
/-! SUPPORT. Keeps lemmas for Machine/Matmul.lean (the matrix arrays): each meaning and operation leaves the queue of waiting commands
alone, only adds to the outbox, and keeps the canonical memory and the eight fuse records. -/

namespace Sys2Proof.Machine

theorem writeBits_keeps {a : Nat} {bit : Nat} {len : Nat} {v : Nat} {s₀ s : State} (hk : Keeps s₀ s) : Keeps s₀ (writeBits s a bit len v) := by
  unfold writeBits
  repeat' first
    | with_reducible assumption
    | with_reducible apply Keeps.ite
    | with_reducible apply memWrite_keeps

theorem tilePut_keeps {core fuel o bit len v : Nat} {s₀ s : State} (h : Keeps s₀ s) : Keeps s₀ (tilePut core fuel o bit len v s) := by
  induction fuel generalizing o bit len v s with
  | zero => exact h
  | succ n ih =>
    unfold tilePut
    exact Keeps.ite (writeBits_keeps h) (ih (writeBits_keeps h))

theorem tileWrite_keeps {core : Nat} {row : Nat} {bit : Nat} {w : Nat} {vals : List Nat} {s₀ s : State} (hk : Keeps s₀ s) : Keeps s₀ (tileWrite s core row bit w vals) := by
  unfold tileWrite
  repeat' first
    | with_reducible assumption
    | with_reducible apply tilePut_keeps

theorem tileEcc_keeps {core : Nat} {row : Nat} {bit : Nat} {len : Nat} {s₀ s : State} (hk : Keeps s₀ s) : KeepsVia Prod.fst s₀ (tileEcc s core row bit len) := by
  unfold tileEcc
  repeat' first
    | with_reducible assumption
    | intro _
    | with_reducible apply eccRead_keeps
    | with_reducible apply Keeps.foldlFst
    | split

theorem countWrap_keeps {core : Nat} {row : Nat} {bit : Nat} {len : Nat} {s₀ s : State} (hk : Keeps s₀ s) : Keeps s₀ (countWrap s core row bit len) := by
  unfold countWrap
  repeat' first
    | with_reducible assumption
    | with_reducible apply Keeps.ite
    | with_reducible apply wr_keeps
    | with_reducible apply incSat_keeps

theorem readRows_keeps {core : Nat} {l : List RowAcc} {s₀ s : State} (hk : Keeps s₀ s) : KeepsVia Prod.fst s₀ (readRows s core l) := by
  unfold readRows
  repeat' first
    | with_reducible assumption
    | intro _
    | with_reducible apply Keeps.ite
    | with_reducible apply countWrap_keeps
    | with_reducible apply tileEcc_keeps
    | with_reducible apply Keeps.foldlFst

theorem writeLine_keeps {pl : MmPlan} {core : Nat} {b : Block} {β : Nat} {r : Nat} {vals : List (Rnd × Val)} {s₀ s : State} (hk : Keeps s₀ s) : KeepsVia Prod.fst s₀ (writeLine pl core b β r vals s) := by
  unfold writeLine
  repeat' first
    | with_reducible assumption
    | with_reducible apply countWrap_keeps
    | with_reducible apply tileWrite_keeps
    | split

theorem runBlock_keeps {pl : MmPlan} {core u : Nat} {b : Block} {resume : Option (Nat × Nat)} {s₀ : State} {o : ShareOut} (hk : KeepsVia ShareOut.s s₀ o) :
    KeepsVia ShareOut.s s₀ (runBlock pl core u b resume o) := by
  unfold runBlock
  split
  · exact hk
  · lift_lets
    intro k0
    clear_value k0
    have hr := readRows_keeps (core := core) (l := blockReads pl b k0 pl.k) hk
    dsimp only
    split
    · exact hr
    · refine Keeps.foldlFst (β := Inexact) _ hr fun s f x h => ?_
      exact writeLine_keeps h

theorem runBlocks_keeps {pl : MmPlan} {core : Nat} {l : List Block} {u : Nat} {resume : Option (Nat × Nat)} {s₀ : State} {o : ShareOut}
    (hk : KeepsVia ShareOut.s s₀ o) : KeepsVia ShareOut.s s₀ (runBlocks pl core l u resume o) := by
  induction l generalizing u resume o with
  | nil => exact hk
  | cons b l ih => exact ih (runBlock_keeps hk)

theorem addBeats_keeps {core : Nat} {busy : Nat} {wait : Nat} {s₀ s : State} (hk : Keeps s₀ s) : Keeps s₀ (addBeats s core busy wait) := by
  unfold addBeats
  repeat' first
    | with_reducible assumption
    | with_reducible apply incWrap_keeps

theorem closeJoin_keeps {core : Nat} {s₀ s : State} (hk : Keeps s₀ s) : Keeps s₀ (closeJoin s core) := by
  unfold closeJoin
  repeat' first | (apply Keeps.other; (case h1 => dsimp only); (any_goals exact rfl); first | with_reducible assumption | with_reducible apply Keeps.ite | with_reducible apply addBeats_keeps | with_reducible apply Keeps.foldl | split)

theorem arrayOn_keeps {key : Nat} {s₀ s : State} (hk : Keeps s₀ s) : Keeps s₀ (arrayOn s key) := by
  unfold arrayOn
  repeat' first | (apply Keeps.other; (case h1 => dsimp only); (any_goals exact rfl); first | with_reducible assumption | with_reducible apply Keeps.ite | with_reducible apply incWrap_keeps | with_reducible apply incSat_keeps | with_reducible apply Keeps.foldl | split)

theorem activateArrays_keeps {core : Nat} {s₀ s : State} (hk : Keeps s₀ s) : Keeps s₀ (activateArrays s core) := by
  unfold activateArrays
  repeat' first
    | intro _
    | (apply Keeps.other; (case h1 => dsimp only); (any_goals exact rfl); first | with_reducible assumption | with_reducible apply Keeps.ite | with_reducible apply arrayOn_keeps | with_reducible apply Keeps.foldl | split)

theorem startShare_keeps {pl : MmPlan} {pos : Nat} {lo : Nat} {s₀ s : State} (hk : Keeps s₀ s) : KeepsVia Prod.fst s₀ (startShare s pl pos lo) := by
  unfold startShare
  repeat' first
    | with_reducible assumption
    | with_reducible apply activateArrays_keeps
    | split

theorem runShare_keeps {pl : MmPlan} {pos lo hi : Nat} {resume : Option (Nat × Nat)} {s₀ s : State} (hk : Keeps s₀ s) :
    KeepsVia ShareOut.s s₀ (runShare s pl pos lo hi resume) := by
  unfold runShare
  extract_lets core blocks o s1
  have ho : KeepsVia ShareOut.s s₀ o := runBlocks_keeps (Keeps.other hk rfl rfl rfl rfl rfl)
  clear_value o blocks core
  obtain ⟨t, st, fl, sn, n⟩ := o
  have h1 : Keeps s₀ { t with srcAt := none } := Keeps.other (s := t) ho rfl rfl rfl rfl rfl
  have h2 (a b : Nat) (j : KMap Join) : Keeps s₀ { addBeats { t with srcAt := none } core a b with arrayJoin := j } :=
    Keeps.other (s := addBeats { t with srcAt := none } core a b) (addBeats_keeps h1) rfl rfl rfl rfl rfl
  dsimp only [s1]
  split
  · exact Keeps.ite (closeJoin_keeps h1) h1
  · exact Keeps.ite (closeJoin_keeps (h2 _ _ _)) (h2 _ _ _)

theorem unstall_keeps {core : Nat} {s₀ s : State} (hk : Keeps s₀ s) : Keeps s₀ (unstall s core) := by
  unfold unstall
  repeat' first | (apply Keeps.other; (case h1 => dsimp only); (any_goals exact rfl); first | with_reducible assumption | with_reducible apply Keeps.ite | with_reducible apply wr_keeps | with_reducible apply Keeps.foldl | split)

theorem arrayIdle_keeps {core : Nat} {i : Nat} {s₀ s : State} (hk : Keeps s₀ s) : Keeps s₀ (arrayIdle s core i) := by
  unfold arrayIdle
  repeat' first | (apply Keeps.other; (case h1 => dsimp only); (any_goals exact rfl); first | with_reducible assumption | with_reducible apply Keeps.ite | with_reducible apply wr_keeps | with_reducible apply Keeps.foldl | split)

theorem resetArrays_keeps {core : Nat} {s₀ s : State} (hk : Keeps s₀ s) : Keeps s₀ (resetArrays s core) := by
  unfold resetArrays
  repeat' first
    | intro _
    | (apply Keeps.other; (case h1 => dsimp only); (any_goals exact rfl); first | with_reducible assumption | with_reducible apply Keeps.ite | with_reducible apply arrayIdle_keeps | with_reducible apply unstall_keeps | with_reducible apply Keeps.foldl | split)

theorem endShare_keeps {core : Nat} {q : Nat} {idx : Nat} {s₀ s : State} (hk : Keeps s₀ s) : Keeps s₀ (endShare s core q idx) := by
  unfold endShare
  repeat' first | (apply Keeps.other; (case h1 => dsimp only); (any_goals exact rfl); first | with_reducible assumption | with_reducible apply Keeps.ite | with_reducible apply unstall_keeps | with_reducible apply Keeps.foldl | split)

theorem dropShares_keeps {q : Nat} {idx : Nat} {s₀ s : State} (hk : Keeps s₀ s) : Keeps s₀ (dropShares s q idx) := by
  unfold dropShares
  repeat' first | (apply Keeps.other; (case h1 => dsimp only); (any_goals exact rfl); first | with_reducible assumption | with_reducible apply Keeps.ite | with_reducible apply Keeps.foldl | split)

theorem recordFail_keeps {q : Nat} {idx : Nat} {status : Nat} {va : Nat} {s₀ s : State} (hk : Keeps s₀ s) : Keeps s₀ (recordFail s q idx status va) := by
  unfold recordFail
  repeat' first
    | with_reducible assumption
    | with_reducible apply Keeps.ite
    | with_reducible apply dropShares_keeps
    | with_reducible apply stopShare_keeps
    | with_reducible apply finishCtx_keeps

/-- The state that reading the records of a command leaves. -/
def recsState : RecsOut → State
  | .ready s _ _ => s
  | .ended s => s

theorem readRecords_keeps {q : Nat} {c : Ctx} {layVa src : Nat} {s₀ s : State} (hk : Keeps s₀ s) :
    KeepsVia recsState s₀ (readRecords s q c layVa src) := by
  unfold readRecords
  split
  · exact hk
  · lift_lets
    intro job g
    have h1 : KeepsVia VGot.s s₀ g := readVa_keeps hk
    clear_value g
    intro shVa h
    have h2 : KeepsVia VGot.s s₀ h := readVa_keeps h1
    clear_value h
    split
    · exact recordFail_keeps h1
    · split
      · exact modCtx_keeps h1
      · split
        · exact recordFail_keeps h2
        · exact modCtx_keeps h2

theorem readRecords_ended {q : Nat} {c : Ctx} {layVa src : Nat} {s₀ s t : State} (e : readRecords s q c layVa src = .ended t) (hk : Keeps s₀ s) :
    Keeps s₀ t := by
  have h := readRecords_keeps (q := q) (c := c) (layVa := layVa) (src := src) hk
  rw [e] at h; exact h

theorem readRecords_ready {q : Nat} {c : Ctx} {layVa src : Nat} {s₀ s t : State} {l h : List Byte} (e : readRecords s q c layVa src = .ready t l h)
    (hk : Keeps s₀ s) : Keeps s₀ t := by
  have h := readRecords_keeps (q := q) (c := c) (layVa := layVa) (src := src) hk
  rw [e] at h; exact h

theorem settle_keeps {q : Nat} {idx : Nat} {s₀ s : State} (hk : Keeps s₀ s) : Keeps s₀ (settle s q idx) := by
  unfold settle
  repeat' first
    | with_reducible assumption
    | with_reducible apply finishCtx_keeps
    | split

theorem shareDone_keeps {q : Nat} {idx : Nat} {pos : Nat} {core : Nat} {status : Nat} {fl : Inexact} {s₀ s : State} (hk : Keeps s₀ s) : Keeps s₀ (shareDone s q idx pos core status fl) := by
  unfold shareDone
  repeat' first
    | with_reducible assumption
    | with_reducible apply Keeps.ite
    | with_reducible apply incWrap_keeps
    | with_reducible apply modCtx_keeps

theorem runMatmulShares_keeps {pl : MmPlan} {q : Nat} {idx : Nat} {s₀ s : State} (hk : Keeps s₀ s) : Keeps s₀ (runMatmulShares pl q idx s) := by
  unfold runMatmulShares
  repeat' first
    | with_reducible assumption
    | intro _
    | with_reducible apply Keeps.ite
    | with_reducible apply startShare_keeps
    | with_reducible apply runShare_keeps
    | with_reducible apply shareDone_keeps
    | with_reducible apply endShare_keeps
    | with_reducible apply Keeps.foldl
    | split

theorem recordInvalid_keeps {q : Nat} {idx : Nat} {s₀ s : State} (hk : Keeps s₀ s) : Keeps s₀ (recordInvalid s q idx) := by
  unfold recordInvalid
  repeat' first
    | with_reducible assumption
    | with_reducible apply modCtx_keeps
    | with_reducible apply dropShares_keeps
    | with_reducible apply stopShare_keeps

theorem execMatmul_keeps {q : QueueNo} {idx : BitVec 32} {s₀ s : State} (hk : Keeps s₀ s) : KeepsRes s₀ (execMatmul q idx s) := by
  unfold execMatmul
  repeat' first
    | with_reducible assumption
    | (intro x1; clear_value x1)
    | lift_lets
    | refine readRecords_ended (by assumption) ?_
    | refine readRecords_ready (by assumption) ?_
    | with_reducible apply recordInvalid_keeps
    | with_reducible apply bumpFree_keeps
    | with_reducible apply settle_keeps
    | with_reducible apply runMatmulShares_keeps
    | with_reducible apply Keeps.next
    | split

end Sys2Proof.Machine
end

