-- ==== Sys2Proof/Laws/KeepsVector.lean ====
section
/-! SUPPORT. Keeps lemmas for Machine/Vector.lean (the vector rows and the atomics): each meaning and operation leaves the queue of waiting commands
alone, only adds to the outbox, and keeps the canonical memory and the eight fuse records. -/

namespace Sys2Proof.Machine

theorem readUntil_keeps {core : Nat} {l : List RowAcc} {s₀ s : State} (hk : Keeps s₀ s) : Keeps s₀ (readUntil s core l) := by
  unfold readUntil
  refine Keeps.foldlFst (β := Nat) (x := (s, stOk)) _ hk fun s st a h => ?_
  dsimp only
  split
  · exact h
  · exact readRows_keeps h

theorem putElems_keeps {core : Nat} {row : Nat} {bit : Nat} {w : Nat} {es : List Nat} {s₀ s : State} (hk : Keeps s₀ s) : Keeps s₀ (putElems s core row bit w es) := by
  unfold putElems
  repeat' first
    | with_reducible assumption
    | with_reducible apply Keeps.ite
    | with_reducible apply tileWrite_keeps
    | with_reducible apply countWrap_keeps

theorem rowPass_keeps {fn : RowFn} {g : RowAt} {run : VecRun} {hi : Nat} {o : ShareOut} {s₀ : State} (hk : KeepsVia RowAt.s s₀ g) :
    KeepsVia (fun x : RowOut => x.o.s) s₀ (rowPass fn g run hi o) := by
  have hs (l : List RowAcc) : Keeps s₀ (readUntil g.s g.core l) := readUntil_keeps hk
  unfold rowPass
  dsimp only
  split
  · split
    · exact hs _
    · exact hs _
  · exact putElems_keeps (hs _)

theorem rowEnd_keeps {fn : RowFn} {g : RowAt} {run : VecRun} {o : ShareOut} {s₀ : State} (hk : KeepsVia ShareOut.s s₀ o) :
    KeepsVia ShareOut.s s₀ (rowEnd fn g run o) := by
  unfold rowEnd
  dsimp only
  split
  · exact Keeps.ite (putElems_keeps (putElems_keeps hk)) (putElems_keeps hk)
  · split
    · exact putElems_keeps hk
    · exact hk

theorem runRow_keeps {fn : RowFn} {pl : VecPlan} {core u r lrow : Nat} {stop : Option (Nat × Nat)} {passes : Nat} {run : VecRun} {o : ShareOut}
    {s₀ : State} (hk : KeepsVia ShareOut.s s₀ o) : KeepsVia (fun x : RowOut => x.o.s) s₀ (runRow fn pl core u r lrow stop passes run o) := by
  induction passes generalizing run o with
  | zero => exact rowEnd_keeps hk
  | succ n ih =>
    have hx (hi : Nat) : KeepsVia (fun x : RowOut => x.o.s) s₀ (rowPass fn ⟨o.s, { o.snaps with m1 := o.s.mem }, pl, core, u, r, lrow⟩ run hi o) :=
      rowPass_keeps hk
    unfold runRow
    cases stop with
    | none =>
      dsimp only
      split
      · exact hx _
      · exact ih (hx _)
    | some x =>
      dsimp only
      split
      · exact hx _
      · split
        · exact hx _
        · exact ih (hx _)

theorem vecRow_keeps {fn : RowFn} {pl : VecPlan} {core u r lrow : Nat} {run : VecRun} {s₀ : State} {o : ShareOut} (hk : KeepsVia ShareOut.s s₀ o) :
    KeepsVia ShareOut.s s₀ (vecRow fn pl core u r lrow run o) := by
  unfold vecRow
  split
  · exact hk
  · exact runRow_keeps hk

theorem vecRows_keeps {fn : RowFn} {pl : VecPlan} {core : Nat} {l : List (Nat × Nat)} {u : Nat} {run : VecRun} {s₀ : State} {o : ShareOut}
    (hk : KeepsVia ShareOut.s s₀ o) : KeepsVia ShareOut.s s₀ (vecRows fn pl core l u run o) := by
  induction l generalizing u run o with
  | nil => exact hk
  | cons x l ih => exact ih (vecRow_keeps hk)

theorem runVecShare_keeps {fn : RowFn} {pl : VecPlan} {pos lo hi : Nat} {run : VecRun} {s₀ s : State} (hk : Keeps s₀ s) :
    KeepsVia ShareOut.s s₀ (runVecShare fn s pl pos lo hi run) :=
  Keeps.other (vecRows_keeps (o := ⟨{ s with srcAt := some (pl.cores.getD pos 0 / 256) }, stOk, {}, ⟨s.mem, s.mem, s.mem⟩, 0⟩)
    (Keeps.other hk rfl rfl rfl rfl rfl)) rfl rfl rfl rfl rfl

theorem runVecShares_keeps {fn : RowFn} {pl : VecPlan} {q : Nat} {idx : Nat} {s₀ s : State} (hk : Keeps s₀ s) : Keeps s₀ (runVecShares fn pl q idx s) := by
  unfold runVecShares
  repeat' first
    | with_reducible assumption
    | intro _
    | lift_lets
    | with_reducible apply runVecShare_keeps
    | with_reducible apply shareDone_keeps
    | with_reducible apply endShare_keeps
    | with_reducible apply Keeps.foldl
    | split

theorem runVector_keeps {op : Nat} {q : Nat} {idx : Nat} {s₀ s : State} (hk : Keeps s₀ s) : Keeps s₀ (runVector op q idx s) := by
  unfold runVector
  repeat' first
    | with_reducible assumption
    | (intro x1; clear_value x1)
    | lift_lets
    | refine readRecords_ended (by assumption) ?_
    | refine readRecords_ready (by assumption) ?_
    | with_reducible apply recordInvalid_keeps
    | with_reducible apply bumpFree_keeps
    | with_reducible apply settle_keeps
    | with_reducible apply runVecShares_keeps
    | split

theorem execCvt_keeps {q : QueueNo} {idx : BitVec 32} {s₀ s : State} (hk : Keeps s₀ s) : KeepsRes s₀ (execCvt q idx s) := by
  unfold execCvt
  repeat' first
    | with_reducible assumption
    | with_reducible apply runVector_keeps
    | with_reducible apply Keeps.next

theorem execVectorAdd_keeps {q : QueueNo} {idx : BitVec 32} {s₀ s : State} (hk : Keeps s₀ s) : KeepsRes s₀ (execVectorAdd q idx s) := by
  unfold execVectorAdd
  repeat' first
    | with_reducible assumption
    | with_reducible apply runVector_keeps
    | with_reducible apply Keeps.next

theorem execVecSub_keeps {q : QueueNo} {idx : BitVec 32} {s₀ s : State} (hk : Keeps s₀ s) : KeepsRes s₀ (execVecSub q idx s) := by
  unfold execVecSub
  repeat' first
    | with_reducible assumption
    | with_reducible apply runVector_keeps
    | with_reducible apply Keeps.next

theorem execVecMul_keeps {q : QueueNo} {idx : BitVec 32} {s₀ s : State} (hk : Keeps s₀ s) : KeepsRes s₀ (execVecMul q idx s) := by
  unfold execVecMul
  repeat' first
    | with_reducible assumption
    | with_reducible apply runVector_keeps
    | with_reducible apply Keeps.next

theorem execVectorMax_keeps {q : QueueNo} {idx : BitVec 32} {s₀ s : State} (hk : Keeps s₀ s) : KeepsRes s₀ (execVectorMax q idx s) := by
  unfold execVectorMax
  repeat' first
    | with_reducible assumption
    | with_reducible apply runVector_keeps
    | with_reducible apply Keeps.next

theorem execVectorMin_keeps {q : QueueNo} {idx : BitVec 32} {s₀ s : State} (hk : Keeps s₀ s) : KeepsRes s₀ (execVectorMin q idx s) := by
  unfold execVectorMin
  repeat' first
    | with_reducible assumption
    | with_reducible apply runVector_keeps
    | with_reducible apply Keeps.next

theorem execAddRow_keeps {q : QueueNo} {idx : BitVec 32} {s₀ s : State} (hk : Keeps s₀ s) : KeepsRes s₀ (execAddRow q idx s) := by
  unfold execAddRow
  repeat' first
    | with_reducible assumption
    | with_reducible apply runVector_keeps
    | with_reducible apply Keeps.next

theorem execMulRow_keeps {q : QueueNo} {idx : BitVec 32} {s₀ s : State} (hk : Keeps s₀ s) : KeepsRes s₀ (execMulRow q idx s) := by
  unfold execMulRow
  repeat' first
    | with_reducible assumption
    | with_reducible apply runVector_keeps
    | with_reducible apply Keeps.next

theorem execAxpb_keeps {q : QueueNo} {idx : BitVec 32} {s₀ s : State} (hk : Keeps s₀ s) : KeepsRes s₀ (execAxpb q idx s) := by
  unfold execAxpb
  repeat' first
    | with_reducible assumption
    | with_reducible apply runVector_keeps
    | with_reducible apply Keeps.next

theorem execVecExp_keeps {q : QueueNo} {idx : BitVec 32} {s₀ s : State} (hk : Keeps s₀ s) : KeepsRes s₀ (execVecExp q idx s) := by
  unfold execVecExp
  repeat' first
    | with_reducible assumption
    | with_reducible apply runVector_keeps
    | with_reducible apply Keeps.next

theorem execVecLog_keeps {q : QueueNo} {idx : BitVec 32} {s₀ s : State} (hk : Keeps s₀ s) : KeepsRes s₀ (execVecLog q idx s) := by
  unfold execVecLog
  repeat' first
    | with_reducible assumption
    | with_reducible apply runVector_keeps
    | with_reducible apply Keeps.next

theorem execRcp_keeps {q : QueueNo} {idx : BitVec 32} {s₀ s : State} (hk : Keeps s₀ s) : KeepsRes s₀ (execRcp q idx s) := by
  unfold execRcp
  repeat' first
    | with_reducible assumption
    | with_reducible apply runVector_keeps
    | with_reducible apply Keeps.next

theorem execRsqrt_keeps {q : QueueNo} {idx : BitVec 32} {s₀ s : State} (hk : Keeps s₀ s) : KeepsRes s₀ (execRsqrt q idx s) := by
  unfold execRsqrt
  repeat' first
    | with_reducible assumption
    | with_reducible apply runVector_keeps
    | with_reducible apply Keeps.next

theorem execSilu_keeps {q : QueueNo} {idx : BitVec 32} {s₀ s : State} (hk : Keeps s₀ s) : KeepsRes s₀ (execSilu q idx s) := by
  unfold execSilu
  repeat' first
    | with_reducible assumption
    | with_reducible apply runVector_keeps
    | with_reducible apply Keeps.next

theorem execRsum_keeps {q : QueueNo} {idx : BitVec 32} {s₀ s : State} (hk : Keeps s₀ s) : KeepsRes s₀ (execRsum q idx s) := by
  unfold execRsum
  repeat' first
    | with_reducible assumption
    | with_reducible apply runVector_keeps
    | with_reducible apply Keeps.next

theorem execRsumsq_keeps {q : QueueNo} {idx : BitVec 32} {s₀ s : State} (hk : Keeps s₀ s) : KeepsRes s₀ (execRsumsq q idx s) := by
  unfold execRsumsq
  repeat' first
    | with_reducible assumption
    | with_reducible apply runVector_keeps
    | with_reducible apply Keeps.next

theorem execRmax_keeps {q : QueueNo} {idx : BitVec 32} {s₀ s : State} (hk : Keeps s₀ s) : KeepsRes s₀ (execRmax q idx s) := by
  unfold execRmax
  repeat' first
    | with_reducible assumption
    | with_reducible apply runVector_keeps
    | with_reducible apply Keeps.next

theorem execRsumX_keeps {q : QueueNo} {idx : BitVec 32} {s₀ s : State} (hk : Keeps s₀ s) : KeepsRes s₀ (execRsumX q idx s) := by
  unfold execRsumX
  repeat' first
    | with_reducible assumption
    | with_reducible apply runVector_keeps
    | with_reducible apply Keeps.next

theorem execSoftmax_keeps {q : QueueNo} {idx : BitVec 32} {s₀ s : State} (hk : Keeps s₀ s) : KeepsRes s₀ (execSoftmax q idx s) := by
  unfold execSoftmax
  repeat' first
    | with_reducible assumption
    | with_reducible apply runVector_keeps
    | with_reducible apply Keeps.next

end Sys2Proof.Machine
end

