-- ==== Sys2Proof/Laws/KeepsRemote.lean ====
section
/-! SUPPORT. Keeps lemmas for Machine/Remote.lean (remote memory): each meaning and operation leaves the queue of waiting commands
alone, only adds to the outbox, and keeps the canonical memory and the eight fuse records. -/

namespace Sys2Proof.Machine

theorem sendPacket_keeps {own : InjOwner} {p : Packet} {s₀ s : State} (hk : Keeps s₀ s) : Keeps s₀ (sendPacket s own p) := by
  unfold sendPacket
  repeat' first | (apply Keeps.other; (case h1 => dsimp only); (any_goals exact rfl); first | with_reducible assumption | with_reducible apply Keeps.ite | with_reducible apply Keeps.foldl | split)

theorem rmtCount_keeps {s₀ s : State} (hk : Keeps s₀ s) : Keeps s₀ (rmtCount s) := by
  unfold rmtCount
  repeat' first
    | with_reducible assumption
    | with_reducible apply wr_keeps

theorem pullReq_keeps {s₀ s : State} (hk : Keeps s₀ s) : Keeps s₀ (pullReq s) := by
  unfold pullReq
  repeat' first | (apply Keeps.other; (case h1 => dsimp only); (any_goals exact rfl); first | with_reducible assumption | with_reducible apply Keeps.ite | with_reducible apply emit_keeps | with_reducible apply setBit_keeps | with_reducible apply incSat_keeps | with_reducible apply sendPacket_keeps | with_reducible apply Keeps.foldl | split)

theorem rmtSubmit_keeps {origin : RmtOrigin} {code : Nat} {size : Nat} {node : Nat} {window : Nat} {offset : Nat} {data : List Byte} {job : Nat} {flag : Bool} {va : optParam Nat 0} {s₀ s : State} (hk : Keeps s₀ s) : Keeps s₀ (rmtSubmit s origin code size node window offset data job flag va) := by
  unfold rmtSubmit
  repeat' first | (apply Keeps.other; (case h1 => dsimp only); (any_goals exact rfl); first | with_reducible assumption | with_reducible apply Keeps.ite | with_reducible apply Keeps.foldl | split)

theorem modRmtCmd_keeps {q : Nat} {idx : Nat} {f : RmtCmd → RmtCmd} {s₀ s : State} (hk : Keeps s₀ s) : Keeps s₀ (modRmtCmd s q idx f) := by
  unfold modRmtCmd
  repeat' first | (apply Keeps.other; (case h1 => dsimp only); (any_goals exact rfl); first | with_reducible assumption | with_reducible apply Keeps.ite | with_reducible apply Keeps.foldl | split)

theorem rmtWithdraw_keeps {q : Nat} {idx : Nat} {s₀ s : State} (hk : Keeps s₀ s) : Keeps s₀ (rmtWithdraw s q idx) := by
  unfold rmtWithdraw
  repeat' first | (apply Keeps.other; (case h1 => dsimp only); (any_goals exact rfl); first | with_reducible assumption | with_reducible apply Keeps.ite | with_reducible apply modRmtCmd_keeps | with_reducible apply Keeps.foldl | split)

theorem rmtFault_keeps {q : Nat} {idx : Nat} {status : Nat} {access : Nat} {va : Nat} {s₀ s : State} (hk : Keeps s₀ s) : Keeps s₀ (rmtFault s q idx status access va) := by
  unfold rmtFault
  repeat' first
    | with_reducible assumption
    | with_reducible apply rmtWithdraw_keeps
    | with_reducible apply modRmtCmd_keeps

theorem rmtWriteResults_keeps {q : Nat} {c : Ctx} {s₀ s : State} (hk : Keeps s₀ s) : Keeps s₀ (rmtWriteResults s q c) := by
  unfold rmtWriteResults
  repeat' first
    | with_reducible assumption
    | intro _
    | with_reducible apply Keeps.ite
    | with_reducible apply writeVa_keeps
    | with_reducible apply rmtFault_keeps
    | with_reducible apply modRmtCmd_keeps
    | with_reducible apply Keeps.foldl
    | split

theorem rmtReach_keeps {q : Nat} {c : Ctx} {fuel : Nat} {s₀ s : State} (hk : Keeps s₀ s) : Keeps s₀ (rmtReach q c fuel s) := by
  induction fuel generalizing s with
  | zero => exact hk
  | succ fuel ih =>
    unfold rmtReach
    repeat' first
      | with_reducible assumption
      | (intro s1; refine Keeps.cut (s₀ := s₀) s1 ?_ fun h1 => ?_; rotate_left; clear_value s1; rotate_left; unfold s1; clear s1)
      | (intro x1; refine Keeps.cutVia (s₀ := s₀) Got.s x1 ?_ fun h1 => ?_; rotate_left; clear_value x1; rotate_left; unfold x1; clear x1)
      | (intro x1; refine Keeps.cutVia (s₀ := s₀) Runs.s x1 ?_ fun h1 => ?_; rotate_left; clear_value x1; rotate_left; unfold x1; clear x1)
      | (intro x1; refine Keeps.cutVia (s₀ := s₀) VGot.s x1 ?_ fun h1 => ?_; rotate_left; clear_value x1; rotate_left; unfold x1; clear x1)
      | (intro x1; clear_value x1)
      | lift_lets
      | with_reducible apply ih
      | with_reducible apply modRmtCmd_keeps
      | with_reducible apply readVa_keeps
      | with_reducible apply rmtFault_keeps
      | with_reducible apply xlRange_keeps
      | with_reducible apply readRuns_keeps
      | with_reducible apply rmtSubmit_keeps
      | split

theorem rmtEnd_keeps {q : Nat} {c : Ctx} {s₀ s : State} (hk : Keeps s₀ s) : Keeps s₀ (rmtEnd s q c) := by
  unfold rmtEnd
  repeat' first
    | with_reducible assumption
    | with_reducible apply modRmtCmd_keeps
    | split

theorem rmtSettle_keeps {q : Nat} {c : Ctx} {s₀ s : State} (hk : Keeps s₀ s) : Keeps s₀ (rmtSettle s q c) := by
  unfold rmtSettle
  repeat' first | (apply Keeps.other; (case h1 => dsimp only); (any_goals exact rfl); first | with_reducible assumption | with_reducible apply Keeps.ite | with_reducible apply modRmtCmd_keeps | with_reducible apply stopShare_keeps | with_reducible apply finishCtx_keeps | with_reducible apply Keeps.foldl | split)

theorem rmtAdvance_keeps {q : Nat} {idx : Nat} {s₀ s : State} (hk : Keeps s₀ s) : Keeps s₀ (rmtAdvance s q idx) := by
  unfold rmtAdvance
  repeat' first
    | with_reducible assumption
    | with_reducible apply rmtWriteResults_keeps
    | with_reducible apply rmtReach_keeps
    | with_reducible apply rmtEnd_keeps
    | with_reducible apply rmtCount_keeps
    | with_reducible apply rmtSettle_keeps
    | split

theorem execRemote_keeps {q : QueueNo} {idx : BitVec 32} {s₀ s : State} (hk : Keeps s₀ s) : KeepsRes s₀ (execRemote q idx s) := by
  unfold execRemote
  repeat' first
    | with_reducible apply Keeps.next
    | split
    | (apply Keeps.other; (case h1 => dsimp only); (any_goals exact rfl); first | with_reducible assumption | with_reducible apply Keeps.ite | with_reducible apply finishCtx_keeps | with_reducible apply rmtAdvance_keeps | with_reducible apply Keeps.foldl | split)

theorem rmtIssue_keeps {o : RmtOp} {s₀ s : State} (hk : Keeps s₀ s) : Keeps s₀ (rmtIssue s o) := by
  unfold rmtIssue
  repeat' first | (apply Keeps.other; (case h1 => dsimp only); (any_goals exact rfl); first | with_reducible assumption | with_reducible apply Keeps.ite | with_reducible apply rmtCount_keeps | with_reducible apply sendPacket_keeps | with_reducible apply Keeps.foldl | split)

theorem execRemoteIssue_keeps {s₀ s : State} (hk : Keeps s₀ s) : KeepsRes s₀ (execRemoteIssue s) := by
  unfold execRemoteIssue
  repeat' first
    | with_reducible assumption
    | with_reducible apply rmtIssue_keeps
    | with_reducible apply Keeps.next
    | split

theorem copyAnswer_keeps {q : Nat} {idx : Nat} {key : Nat} {a : RmtAns} {s₀ s : State} (hk : Keeps s₀ s) : Keeps s₀ (copyAnswer s q idx key a) := by
  unfold copyAnswer
  repeat' first | (apply Keeps.other; (case h1 => dsimp only); (any_goals exact rfl); first | with_reducible assumption | with_reducible apply Keeps.ite | with_reducible apply Keeps.foldl | split)

theorem rmtAnswer_keeps {o : RmtOp} {a : RmtAns} {s₀ s : State} (hk : Keeps s₀ s) : Keeps s₀ (rmtAnswer s o a) := by
  unfold rmtAnswer
  repeat' first | (apply Keeps.other; (case h1 => dsimp only); (any_goals exact rfl); first | with_reducible assumption | with_reducible apply Keeps.ite | with_reducible apply rmtCount_keeps | with_reducible apply modRmtCmd_keeps | with_reducible apply rmtAdvance_keeps | with_reducible apply finishCtx_keeps | with_reducible apply copyAnswer_keeps | with_reducible apply Keeps.foldl | split)

theorem rmtFail_keeps {o : RmtOp} {s₀ s : State} (hk : Keeps s₀ s) : Keeps s₀ (rmtFail s o) := by
  unfold rmtFail
  repeat' first | (apply Keeps.other; (case h1 => dsimp only); (any_goals exact rfl); first | with_reducible assumption | with_reducible apply Keeps.ite | with_reducible apply incSat_keeps | with_reducible apply rmtAnswer_keeps | with_reducible apply Keeps.foldl | split)

theorem execFlaggedIssue_keeps {s₀ s : State} (hk : Keeps s₀ s) : KeepsRes s₀ (execFlaggedIssue s) := by
  unfold execFlaggedIssue
  repeat' first
    | with_reducible assumption
    | with_reducible apply rmtFail_keeps
    | with_reducible apply rmtIssue_keeps
    | with_reducible apply Keeps.next
    | split

theorem execRemoteReply_keeps {s₀ s : State} (hk : Keeps s₀ s) : KeepsRes s₀ (execRemoteReply s) := by
  unfold execRemoteReply
  repeat' first
    | with_reducible apply Keeps.next
    | split
    | dsimp only
    | (apply Keeps.other; (case h1 => dsimp only); (any_goals exact rfl); first | with_reducible assumption | with_reducible apply Keeps.ite | with_reducible apply incSat_keeps | with_reducible apply rmtAnswer_keeps | with_reducible apply Keeps.foldl | split)

theorem execRemoteRetry_keeps {rid : BitVec 28} {s₀ s : State} (hk : Keeps s₀ s) : KeepsRes s₀ (execRemoteRetry rid s) := by
  unfold execRemoteRetry
  repeat' first
    | with_reducible apply Keeps.next
    | split
    | (apply Keeps.other; (case h1 => dsimp only); (any_goals exact rfl); first | with_reducible assumption | with_reducible apply Keeps.ite | with_reducible apply sendPacket_keeps | with_reducible apply incSat_keeps | with_reducible apply Keeps.foldl | split)

theorem execRemoteTimeout_keeps {rid : BitVec 28} {s₀ s : State} (hk : Keeps s₀ s) : KeepsRes s₀ (execRemoteTimeout rid s) := by
  unfold execRemoteTimeout
  repeat' first
    | with_reducible assumption
    | with_reducible apply rmtFail_keeps
    | with_reducible apply Keeps.next
    | split

theorem checkRequest_keeps {p : Packet} {s₀ s : State} (hk : Keeps s₀ s) : KeepsVia Checked.s s₀ (checkRequest s p) := by
  unfold checkRequest
  repeat' first
    | with_reducible assumption
    | (intro x1; refine Keeps.cutVia (s₀ := s₀) Runs.s x1 ?_ fun h1 => ?_; rotate_left; clear_value x1; rotate_left; unfold x1; clear x1)
    | (intro x1; clear_value x1)
    | lift_lets
    | with_reducible apply xlRange_keeps
    | split

theorem recordRefusal_keeps {p : Packet} {reason : Nat} {s₀ s : State} (hk : Keeps s₀ s) : Keeps s₀ (recordRefusal s p reason) := by
  unfold recordRefusal
  repeat' first
    | with_reducible assumption
    | with_reducible apply incSat_keeps
    | with_reducible apply wr_keeps

theorem sendReplies_keeps {tag : Nat} {rs : List Packet} {s₀ s : State} (hk : Keeps s₀ s) : Keeps s₀ (sendReplies s tag rs) := by
  unfold sendReplies
  split
  · apply Keeps.other hk <;> rfl
  · repeat' first
      | with_reducible assumption
      | intro _
      | with_reducible apply sendPacket_keeps
      | with_reducible apply Keeps.foldl

theorem answerRequest_keeps {p : Packet} {status : Nat} {high : Bool} {reason : Nat} {data : List Byte} {s₀ s : State} (hk : Keeps s₀ s) : Keeps s₀ (answerRequest s p status high reason data) :=
  sendReplies_keeps hk

theorem heldDone_keeps {rest : List Packet} {s₀ s : State} (hk : Keeps s₀ s) : Keeps s₀ (heldDone s rest) := by
  unfold heldDone
  repeat' first | (apply Keeps.other; (case h1 => dsimp only); (any_goals exact rfl); first | with_reducible assumption | with_reducible apply Keeps.ite | with_reducible apply rmtCount_keeps | with_reducible apply pullReq_keeps | with_reducible apply Keeps.foldl | split)

theorem execRemoteLoad_keeps {s₀ s : State} (hk : Keeps s₀ s) : KeepsRes s₀ (execRemoteLoad s) := by
  unfold execRemoteLoad
  repeat' first
    | with_reducible assumption
    | with_reducible apply checkRequest_keeps
    | with_reducible apply answerRequest_keeps
    | with_reducible apply recordRefusal_keeps
    | with_reducible apply heldDone_keeps
    | with_reducible apply readRuns_keeps
    | with_reducible apply Keeps.next
    | split
    | dsimp only

theorem execRemoteStore_keeps {s₀ s : State} (hk : Keeps s₀ s) : KeepsRes s₀ (execRemoteStore s) := by
  unfold execRemoteStore
  repeat' first
    | with_reducible assumption
    | with_reducible apply checkRequest_keeps
    | with_reducible apply answerRequest_keeps
    | with_reducible apply recordRefusal_keeps
    | with_reducible apply heldDone_keeps
    | with_reducible apply writeRuns_keeps
    | with_reducible apply Keeps.next
    | split
    | dsimp only

theorem performAtomic_keeps {p : Packet} {s₀ s : State} (hk : Keeps s₀ s) : KeepsVia Performed.s s₀ (performAtomic s p) := by
  unfold performAtomic
  repeat' first
    | with_reducible assumption
    | (intro x1; refine Keeps.cutVia (s₀ := s₀) Checked.s x1 ?_ fun h1 => ?_; rotate_left; clear_value x1; rotate_left; unfold x1; clear x1)
    | (intro x1; refine Keeps.cutVia (s₀ := s₀) Got.s x1 ?_ fun h1 => ?_; rotate_left; clear_value x1; rotate_left; unfold x1; clear x1)
    | lift_lets
    | with_reducible apply checkRequest_keeps
    | with_reducible apply recordRefusal_keeps
    | with_reducible apply readRuns_keeps
    | with_reducible apply writeRuns_keeps
    | split

theorem rcEnter_keeps {e : RcEntry} {s₀ s : State} (hk : Keeps s₀ s) : Keeps s₀ (rcEnter s e) := by
  unfold rcEnter
  repeat' first | (apply Keeps.other; (case h1 => dsimp only); (any_goals exact rfl); first | with_reducible assumption | with_reducible apply Keeps.ite | with_reducible apply setBit_keeps | with_reducible apply incSat_keeps | with_reducible apply wr_keeps | with_reducible apply Keeps.foldl | split)

theorem newAtomic_keeps {p : Packet} {r : AtomicRec} {s₀ s : State} (hk : Keeps s₀ s) : Keeps s₀ (newAtomic s p r) := by
  unfold newAtomic
  repeat' first | (apply Keeps.other; (case h1 => dsimp only); (any_goals exact rfl); first | with_reducible assumption | with_reducible apply Keeps.ite | with_reducible apply performAtomic_keeps | with_reducible apply rcEnter_keeps | with_reducible apply answerRequest_keeps | with_reducible apply Keeps.foldl | split)

theorem loseRmt_keeps {s₀ s : State} (hk : Keeps s₀ s) : Keeps s₀ (loseRmt s) := by
  unfold loseRmt
  repeat' first | (apply Keeps.other; (case h1 => dsimp only); (any_goals exact rfl); first | with_reducible assumption | with_reducible apply Keeps.ite | with_reducible apply raiseIf_keeps | with_reducible apply wr_keeps | with_reducible apply Keeps.foldl | split)

theorem rcKeep_keeps {ok : RcEntry → Bool} {s₀ s : State} (hk : Keeps s₀ s) : Keeps s₀ (rcKeep s ok) := by
  unfold rcKeep
  exact wr_keeps (by apply Keeps.other hk <;> rfl)

theorem freshAtomic_keeps {p : Packet} {s₀ s : State} (hk : Keeps s₀ s) : Keeps s₀ (freshAtomic s p) := newAtomic_keeps (rcKeep_keeps hk)

theorem placeAtomic_keeps {p : Packet} {s₀ s : State} (hk : Keeps s₀ s) : Keeps s₀ (placeAtomic s p) := by
  unfold placeAtomic
  repeat' first
    | with_reducible assumption
    | with_reducible apply freshAtomic_keeps
    | with_reducible apply newAtomic_keeps
    | with_reducible apply answerRequest_keeps
    | with_reducible apply incSat_keeps
    | with_reducible apply setBit_keeps
    | dsimp only
    | split

theorem handleAtomic_keeps {p : Packet} {s₀ s : State} (hk : Keeps s₀ s) : Keeps s₀ (handleAtomic s p) :=
  placeAtomic_keeps (rcKeep_keeps (Keeps.ite (loseRmt_keeps hk) hk))

theorem runAtomic_keeps {code : Nat} {s₀ s : State} (hk : Keeps s₀ s) : Keeps s₀ (runAtomic code s) := by
  unfold runAtomic
  repeat' first
    | with_reducible assumption
    | with_reducible apply performAtomic_keeps
    | with_reducible apply handleAtomic_keeps
    | with_reducible apply heldDone_keeps
    | split
    | dsimp only

theorem execRemoteAdd_keeps {s₀ s : State} (hk : Keeps s₀ s) : KeepsRes s₀ (execRemoteAdd s) := by
  unfold execRemoteAdd
  repeat' first
    | with_reducible assumption
    | with_reducible apply runAtomic_keeps
    | with_reducible apply Keeps.next

theorem execMinS_keeps {s₀ s : State} (hk : Keeps s₀ s) : KeepsRes s₀ (execMinS s) := by
  unfold execMinS
  repeat' first
    | with_reducible assumption
    | with_reducible apply runAtomic_keeps
    | with_reducible apply Keeps.next

theorem execMinU_keeps {s₀ s : State} (hk : Keeps s₀ s) : KeepsRes s₀ (execMinU s) := by
  unfold execMinU
  repeat' first
    | with_reducible assumption
    | with_reducible apply runAtomic_keeps
    | with_reducible apply Keeps.next

theorem execMaxS_keeps {s₀ s : State} (hk : Keeps s₀ s) : KeepsRes s₀ (execMaxS s) := by
  unfold execMaxS
  repeat' first
    | with_reducible assumption
    | with_reducible apply runAtomic_keeps
    | with_reducible apply Keeps.next

theorem execMaxU_keeps {s₀ s : State} (hk : Keeps s₀ s) : KeepsRes s₀ (execMaxU s) := by
  unfold execMaxU
  repeat' first
    | with_reducible assumption
    | with_reducible apply runAtomic_keeps
    | with_reducible apply Keeps.next

theorem execSwap_keeps {s₀ s : State} (hk : Keeps s₀ s) : KeepsRes s₀ (execSwap s) := by
  unfold execSwap
  repeat' first
    | with_reducible assumption
    | with_reducible apply runAtomic_keeps
    | with_reducible apply Keeps.next

theorem execCas_keeps {s₀ s : State} (hk : Keeps s₀ s) : KeepsRes s₀ (execCas s) := by
  unfold execCas
  repeat' first
    | with_reducible assumption
    | with_reducible apply runAtomic_keeps
    | with_reducible apply Keeps.next

theorem execAddX128_keeps {s₀ s : State} (hk : Keeps s₀ s) : KeepsRes s₀ (execAddX128 s) := by
  unfold execAddX128
  repeat' first
    | with_reducible assumption
    | with_reducible apply runAtomic_keeps
    | with_reducible apply Keeps.next

theorem execReplyCacheExpiry_keeps {s₀ s : State} (hk : Keeps s₀ s) : KeepsRes s₀ (execReplyCacheExpiry s) := by
  unfold execReplyCacheExpiry
  repeat' first
    | with_reducible apply Keeps.next
    | (apply Keeps.other; (case h1 => dsimp only); (any_goals exact rfl); first | with_reducible assumption | with_reducible apply Keeps.ite | with_reducible apply wr_keeps | with_reducible apply Keeps.foldl | split)

theorem execRmtStateLost_keeps {s₀ s : State} (hk : Keeps s₀ s) : KeepsRes s₀ (execRmtStateLost s) := by
  unfold execRmtStateLost
  repeat' first
    | with_reducible assumption
    | with_reducible apply loseRmt_keeps
    | with_reducible apply Keeps.next

theorem execRmtEnable_keeps {v : Bool} {s₀ s : State} (hk : Keeps s₀ s) : KeepsRes s₀ (execRmtEnable v s) := by
  unfold execRmtEnable
  repeat' first
    | with_reducible assumption
    | with_reducible apply setBit_keeps
    | with_reducible apply wr_keeps
    | with_reducible apply Keeps.next
    | split

theorem execRmtWinWrite_keeps {window : BitVec 12} {v : W64} {s₀ s : State} (hk : Keeps s₀ s) : KeepsRes s₀ (execRmtWinWrite window v s) := by
  unfold execRmtWinWrite
  repeat' first
    | with_reducible assumption
    | intro _
    | with_reducible apply wr_keeps
    | with_reducible apply Keeps.foldl
    | with_reducible apply Keeps.next

theorem execRmtClear_keeps {s₀ s : State} (hk : Keeps s₀ s) : KeepsRes s₀ (execRmtClear s) := by
  unfold execRmtClear
  repeat' first
    | with_reducible assumption
    | intro _
    | with_reducible apply wr_keeps
    | with_reducible apply Keeps.foldl
    | with_reducible apply Keeps.next

end Sys2Proof.Machine
end

