-- ==== Sys2Proof/Laws/KeepsCopy.lean ====
section
/-! SUPPORT. Keeps lemmas for Machine/Copy.lean (the copy engine): each meaning and operation leaves the queue of waiting commands
alone, only adds to the outbox, and keeps the canonical memory and the eight fuse records. -/

namespace Sys2Proof.Machine

theorem sideRuns_keeps {pl : CpPlan} {x : Side} {cache : Nat} {job : Nat} {kind : Nat} {p : Nat} {a : Int} {n : Nat} {s₀ s : State} (hk : Keeps s₀ s) : KeepsVia Runs.s s₀ (sideRuns s pl x cache job kind p a n) := by
  unfold sideRuns
  repeat' first
    | with_reducible assumption
    | with_reducible apply xlRange_keeps
    | split

theorem cpWrap_keeps {v : Env} {x : Side} {p : Nat} {ord : Nat} {a : Int} {n : Nat} {s₀ s : State} (hk : Keeps s₀ s) : Keeps s₀ (cpWrap s v x p ord a n) := by
  unfold cpWrap
  repeat' first
    | with_reducible assumption
    | with_reducible apply Keeps.ite
    | with_reducible apply modCtx_keeps
    | with_reducible apply incSat_keeps
    | with_reducible apply wr_keeps

theorem answerGot_keeps {v : Env} {key : Nat} {s₀ s : State} (hk : Keeps s₀ s) : KeepsVia GrpGot.s s₀ (answerGot s v key) := by
  unfold answerGot
  repeat' first
    | with_reducible assumption
    | split

theorem cpRead_keeps {v : Env} {x : Side} {kind : Nat} {p : Nat} {ord : Nat} {a : Int} {n : Nat} {s₀ s : State} (hk : Keeps s₀ s) : KeepsVia GrpGot.s s₀ (cpRead s v x kind p ord a n) := by
  unfold cpRead
  repeat' first
    | with_reducible assumption
    | (intro x1; refine Keeps.cutVia (s₀ := s₀) Got.s x1 ?_ fun h1 => ?_; rotate_left; clear_value x1; rotate_left; unfold x1; clear x1)
    | (intro x1; refine Keeps.cutVia (s₀ := s₀) Runs.s x1 ?_ fun h1 => ?_; rotate_left; clear_value x1; rotate_left; unfold x1; clear x1)
    | lift_lets
    | with_reducible apply sideRuns_keeps
    | with_reducible apply cpWrap_keeps
    | with_reducible apply readRuns_keeps
    | split

theorem cpReadElems_keeps {v : Env} {x : Side} {n0 p r ord c cn kind : Nat} {s₀ s : State} (hk : Keeps s₀ s) :
    KeepsVia (fun g : GrpGot × Nat => g.1.s) s₀ (cpReadElems s v x n0 p r ord c cn kind) := by
  unfold cpReadElems
  extract_lets bytes g h go sc
  have hg : KeepsVia GrpGot.s s₀ go := by
    dsimp only [go]
    split
    · split
      · exact answerGot_keeps hk
      · exact answerGot_keeps (v := v) (key := pieceKey v.pl p r c 1) hk
    · exact cpRead_keeps hk
  clear_value go
  split
  · exact hg
  · have hs : KeepsVia GrpGot.s s₀ sc := by
      dsimp only [sc]
      split
      · exact answerGot_keeps hg
      · exact cpRead_keeps hg
    exact hs

theorem cpPrep_keeps {v : Env} {p : Nat} {l : List (Int × Nat × Nat)} {s₀ s : State} (hk : Keeps s₀ s) : KeepsVia GrpPrep.s s₀ (cpPrep v p l s) := by
  induction l generalizing s with
  | nil => exact hk
  | cons c l ih =>
    obtain ⟨a, bits, val⟩ := c
    unfold cpPrep
    extract_lets +onlyGivenNames r
    have hr : KeepsVia Runs.s s₀ r := sideRuns_keeps hk
    clear_value r
    split
    · exact hr
    · split
      · exact hr
      · have hx := reachRuns_keeps (l := r.runs) hr
        dsimp only
        split
        · exact hx
        · exact ih hx

theorem cpStore_keeps {v : Env} {p : Nat} {ord : Nat} {w : CpPart} {s₀ s : State} (hk : Keeps s₀ s) : Keeps s₀ (cpStore v p ord s w) := by
  unfold cpStore
  repeat' first
    | with_reducible assumption
    | with_reducible apply cpWrap_keeps
    | with_reducible apply writeRuns_keeps
    | with_reducible apply writeFlat_keeps
    | split
    | dsimp only

theorem cpPut_keeps {v : Env} {p ord : Nat} {g : GrpPrep} {s₀ : State} (hk : KeepsVia GrpPrep.s s₀ g) : KeepsVia GrpPut.s s₀ (cpPut v p ord g) := by
  unfold cpPut
  split
  · exact hk
  · exact Keeps.foldl _ hk fun _ _ h => cpStore_keeps h

theorem modCopyRemote_keeps {q : Nat} {idx : Nat} {e : Nat} {f : CopyRemote → CopyRemote} {s₀ s : State} (hk : Keeps s₀ s) : Keeps s₀ (modCopyRemote s q idx e f) := by
  unfold modCopyRemote
  repeat' first | (apply Keeps.other; (case h1 => dsimp only); (any_goals exact rfl); first | with_reducible assumption | with_reducible apply Keeps.ite | with_reducible apply Keeps.foldl | split)

theorem cpRemoteReq_keeps {v : Env} {x : Side} {code : Nat} {key : Nat} {a : Int} {n : Nat} {bs : List Byte} {s₀ s : State} (hk : Keeps s₀ s) : Keeps s₀ (cpRemoteReq s v x code key a n bs) := by
  unfold cpRemoteReq
  repeat' first
    | with_reducible assumption
    | with_reducible apply Keeps.ite
    | with_reducible apply modCopyRemote_keeps
    | with_reducible apply copyAnswer_keeps
    | with_reducible apply rmtSubmit_keeps

theorem cpWriteElems_keeps {v : Env} {p r ord c n0 : Nat} {es : List Nat} {scale : Nat} {s₀ s : State} (hk : Keeps s₀ s) :
    KeepsVia GrpPut.s s₀ (cpWriteElems s v p r ord c n0 es scale) := by
  unfold cpWriteElems
  extract_lets +onlyGivenNames x w bits a sa
  split
  · extract_lets +onlyGivenNames val m lost
    clear_value lost m val
    split
    · exact hk
    · dsimp only
      repeat' first
        | with_reducible exact hk
        | with_reducible refine Keeps.ite ?_ ?_
        | with_reducible refine cpRemoteReq_keeps ?_
  · exact cpPut_keeps (cpPrep_keeps hk)

theorem GrpOut.stopped_keeps {g : Option GrpStop} {s₀ s : State} (hk : Keeps s₀ s) : KeepsVia GrpOut.s s₀ (GrpOut.stopped s g) := by
  unfold GrpOut.stopped
  repeat' first | with_reducible assumption

theorem grpPlain_keeps {v : Env} {g : Grp} {s₀ s : State} (hk : Keeps s₀ s) : KeepsVia GrpOut.s s₀ (grpPlain s v g) := by
  unfold grpPlain
  have hput (s : State) (es : List Nat) (sc : Nat) (fl : Inexact) (h : Keeps s₀ s) : KeepsVia GrpOut.s s₀
      (if (cpWriteElems s v g.p g.r g.ord g.c v.pl.n0 es sc).stop.isSome = true then
        GrpOut.stopped (cpWriteElems s v g.p g.r g.ord g.c v.pl.n0 es sc).s (cpWriteElems s v g.p g.r g.ord g.c v.pl.n0 es sc).stop
      else ⟨(cpWriteElems s v g.p g.r g.ord g.c v.pl.n0 es sc).s, none, fl, g.cn, (cpWriteElems s v g.p g.r g.ord g.c v.pl.n0 es sc).runs⟩) := by
    have hw := cpWriteElems_keeps (v := v) (p := g.p) (r := g.r) (ord := g.ord) (c := g.c) (n0 := v.pl.n0) (es := es) (scale := sc) h
    split <;> exact hw
  have hr := cpReadElems_keeps (v := v) (x := v.pl.src) (n0 := v.pl.n0) (p := g.p) (r := g.r) (ord := g.ord) (c := g.c) (cn := g.cn) (kind := accRead) hk
  dsimp only
  split
  · exact hr
  · split
    · exact hput _ _ _ _ hr
    · split
      · have hy := cpReadElems_keeps (v := v) (x := v.pl.dst) (n0 := v.pl.n0) (p := g.p) (r := g.r) (ord := g.ord) (c := g.c) (cn := g.cn) (kind := accWrite) hr
        split
        · exact hy
        · exact hput _ _ _ _ hy
      · exact hput _ _ _ _ hr

theorem grpTranspose_keeps {v : Env} {g : Grp} {s₀ s : State} (hk : Keeps s₀ s) : KeepsVia GrpOut.s s₀ (grpTranspose s v g) := by
  unfold grpTranspose
  extract_lets +onlyGivenNames pl n rd
  have h1 : KeepsVia (fun r : GrpGot × List (List Nat) => r.1.s) s₀ rd :=
    Keeps.foldlVia _ _ hk fun acc i h => by
      dsimp only
      split
      · exact h
      · exact cpReadElems_keeps h
  clear_value rd
  split
  · exact h1
  · extract_lets +onlyGivenNames prep
    have h2 : KeepsVia GrpPrep.s s₀ prep := cpPrep_keeps h1
    clear_value prep
    split
    · exact h2
    · extract_lets +onlyGivenNames chk one out
      have h3 : KeepsVia Prod.fst s₀ chk := by
        dsimp only [chk]
        split
        · refine Keeps.foldlVia Prod.fst _ h2 fun a w h => ?_
          split
          · exact h
          · exact readRuns_keeps h
        · exact h2
      clear_value chk
      split
      · exact h3
      · refine Keeps.foldlVia (Prod.fst : State × Inexact → State) _ h3 fun acc i h => Keeps.foldlVia Prod.fst _ h fun acc jw h => ?_
        exact cpStore_keeps (cpWrap_keeps h)

theorem grpReduce_keeps {v : Env} {g : Grp} {s₀ s : State} (hk : Keeps s₀ s) : KeepsVia GrpOut.s s₀ (grpReduce s v g) := by
  unfold grpReduce
  extract_lets +onlyGivenNames pl rd
  have h2 : KeepsVia (fun r : GrpGot × List (List (Rnd × Val)) => r.1.s) s₀ rd :=
    Keeps.foldlVia _ _ hk fun acc p h => by
      dsimp only
      split
      · exact h
      · exact cpReadElems_keeps h
  clear_value rd
  split
  · exact h2
  · dsimp only
    split <;> exact cpWriteElems_keeps h2

theorem runGrp_keeps {v : Env} {g : Grp} {s₀ s : State} (hk : Keeps s₀ s) : KeepsVia GrpOut.s s₀ (runGrp s v g) := by
  unfold runGrp
  repeat' first
    | with_reducible assumption
    | with_reducible apply grpReduce_keeps
    | with_reducible apply grpTranspose_keeps
    | with_reducible apply grpPlain_keeps
    | split

theorem runGrps_keeps {v : Env} {l : List Grp} {s₀ : State} {o : CpOut} (hk : KeepsVia CpOut.s s₀ o) : KeepsVia CpOut.s s₀ (runGrps v l o) := by
  induction l generalizing o with
  | nil => exact hk
  | cons g l ih =>
    unfold runGrps
    dsimp only
    split
    · exact runGrp_keeps hk
    · exact ih (runGrp_keeps hk)

theorem endCopyShare_keeps {cl : Nat} {q : Nat} {idx : Nat} {s₀ s : State} (hk : Keeps s₀ s) : Keeps s₀ (endCopyShare s cl q idx) := by
  unfold endCopyShare
  repeat' first | (apply Keeps.other; (case h1 => dsimp only); (any_goals exact rfl); first | with_reducible assumption | with_reducible apply Keeps.ite | with_reducible apply Keeps.foldl | split)

theorem copyShareDone_keeps {q : Nat} {idx : Nat} {e : Nat} {cl : Nat} {status : Nat} {s₀ s : State} (hk : Keeps s₀ s) : Keeps s₀ (copyShareDone s q idx e cl status) := by
  unfold copyShareDone
  repeat' first | (apply Keeps.other; (case h1 => dsimp only); (any_goals exact rfl); first | with_reducible assumption | with_reducible apply Keeps.ite | with_reducible apply modCtx_keeps | with_reducible apply endCopyShare_keeps | with_reducible apply Keeps.foldl | split)

theorem cpLoads_keeps {v : Env} {gs : List Grp} {s₀ s : State} (hk : Keeps s₀ s) : Keeps s₀ (cpLoads v gs s) := by
  unfold cpLoads
  repeat' first
    | with_reducible assumption
    | intro _
    | with_reducible apply Keeps.ite
    | with_reducible apply cpRemoteReq_keeps
    | with_reducible apply Keeps.foldl

theorem copyShareEnd_keeps {v : Env} {o : CpOut} {s₀ s : State} (hk : KeepsVia CpOut.s s₀ o) : Keeps s₀ (copyShareEnd s v o) := by
  unfold copyShareEnd
  extract_lets +onlyGivenNames s1 count done
  have h1 : Keeps s₀ s1 := modCtx_keeps hk
  clear_value s1
  have hd (st : Nat) : Keeps s₀ (done st) := by
    dsimp only [done]
    split
    · exact Keeps.ite (copyShareDone_keeps h1) (Keeps.other h1 rfl rfl rfl rfl rfl)
    · exact copyShareDone_keeps h1
  clear_value done
  split
  · exact hd _
  · exact stopShare_keeps (Keeps.other (s := endCopyShare s1 v.cache v.q v.idx) (endCopyShare_keeps h1) rfl rfl rfl rfl rfl)
  · exact Keeps.ite (modCtx_keeps h1) (hd _)

theorem runCopyShare_keeps {v : Env} {gs : List Grp} {s₀ s : State} (hk : Keeps s₀ s) : KeepsVia CpOut.s s₀ (runCopyShare s v gs) :=
  Keeps.other (runGrps_keeps (v := v) (l := gs) (o := ⟨{ s with srcAt := some (v.cache / 32) }, none, (0, 0), {}, 0, []⟩)
    (Keeps.other hk rfl rfl rfl rfl rfl)) rfl rfl rfl rfl rfl

theorem copyShare_keeps {v : Env} {c : Ctx} {s₀ s : State} (hk : Keeps s₀ s) : KeepsVia CpOut.s s₀ (copyShare v c s) := by
  unfold copyShare
  dsimp only
  split
  · exact copyShareEnd_keeps (s := s) (runCopyShare_keeps hk)
  · split
    · exact cpLoads_keeps (Keeps.other hk rfl rfl rfl rfl rfl)
    · split
      · exact Keeps.ite (copyShareDone_keeps hk) hk
      · split
        · exact cpLoads_keeps (Keeps.other hk rfl rfl rfl rfl rfl)
        · split
          · exact hk
          · exact copyShareEnd_keeps (s := s) (runCopyShare_keeps hk)

theorem runCopyShares_keeps {pl : CpPlan} {q idx : Nat} {s₀ s : State} (hk : Keeps s₀ s) : Keeps s₀ (runCopyShares pl q idx s) := by
  unfold runCopyShares
  refine Keeps.foldlFst (β := List (Nat × Nat)) _ hk fun s b e h => ?_
  dsimp only
  split
  · exact h
  · split
    · exact h
    · exact copyShare_keeps h

theorem settleCopy_keeps {q : Nat} {idx : Nat} {s₀ s : State} (hk : Keeps s₀ s) : Keeps s₀ (settleCopy s q idx) := by
  unfold settleCopy
  repeat' first
    | with_reducible assumption
    | with_reducible apply finishCtx_keeps
    | split

theorem runCopy_keeps {op : Nat} {q : Nat} {idx : Nat} {s₀ s : State} (hk : Keeps s₀ s) : Keeps s₀ (runCopy op q idx s) := by
  unfold runCopy
  repeat' first
    | with_reducible assumption
    | with_reducible apply bumpFree_keeps
    | with_reducible apply settleCopy_keeps
    | with_reducible apply runCopyShares_keeps
    | split

theorem execCopyMove_keeps {q : QueueNo} {idx : BitVec 32} {s₀ s : State} (hk : Keeps s₀ s) : KeepsRes s₀ (execCopyMove q idx s) := by
  unfold execCopyMove
  repeat' first
    | with_reducible assumption
    | with_reducible apply runCopy_keeps
    | with_reducible apply Keeps.next

theorem execAccumulate_keeps {q : QueueNo} {idx : BitVec 32} {s₀ s : State} (hk : Keeps s₀ s) : KeepsRes s₀ (execAccumulate q idx s) := by
  unfold execAccumulate
  repeat' first
    | with_reducible assumption
    | with_reducible apply runCopy_keeps
    | with_reducible apply Keeps.next

theorem execReducePlanes_keeps {q : QueueNo} {idx : BitVec 32} {s₀ s : State} (hk : Keeps s₀ s) : KeepsRes s₀ (execReducePlanes q idx s) := by
  unfold execReducePlanes
  repeat' first
    | with_reducible assumption
    | with_reducible apply runCopy_keeps
    | with_reducible apply Keeps.next

end Sys2Proof.Machine
end

