-- ==== Sys2Proof/Laws/KeepsQueues.lean ====
section
/-! SUPPORT. Keeps lemmas for Machine/Queues.lean (the queues): each meaning and operation leaves the queue of waiting commands
alone, only adds to the outbox, and keeps the canonical memory and the eight fuse records. -/

namespace Sys2Proof.Machine

theorem addCtx_keeps {q : Nat} {c : Ctx} {s₀ s : State} (hk : Keeps s₀ s) : Keeps s₀ (addCtx s q c) := by
  unfold addCtx
  repeat' first
    | with_reducible assumption
    | with_reducible apply putQ_keeps
    | with_reducible apply armTimers_keeps
    | with_reducible apply wr_keeps

theorem addShares_keeps {q : Nat} {c : Ctx} {s₀ s : State} (hk : Keeps s₀ s) : Keeps s₀ (addShares s q c) := by
  unfold addShares
  repeat' first | (apply Keeps.other; (case h1 => dsimp only); (any_goals exact rfl); first | with_reducible assumption | with_reducible apply Keeps.ite | with_reducible apply Keeps.foldl | split)

theorem sendSite_keeps {q : Nat} {c : Ctx} {s₀ s : State} (hk : Keeps s₀ s) : Keeps s₀ (sendSite s q c) := by
  unfold sendSite
  repeat' first
    | with_reducible assumption
    | with_reducible apply emit_keeps
    | split

theorem execCommandDispatch_keeps {s₀ s : State} (hk : Keeps s₀ s) : KeepsRes s₀ (execCommandDispatch s) := by
  unfold execCommandDispatch
  repeat' first
    | (intro s1; refine Keeps.cut (s₀ := s₀) s1 ?_ fun h1 => ?_; rotate_left; clear_value s1; rotate_left; unfold s1; clear s1)
    | intro _
    | lift_lets
    | with_reducible apply Keeps.next
    | split
    | dsimp only
    | (apply Keeps.other; (case h1 => dsimp only); (any_goals exact rfl); first | with_reducible assumption | with_reducible apply Keeps.ite | with_reducible apply putQ_keeps | with_reducible apply addCtx_keeps | with_reducible apply stopShare_keeps | with_reducible apply finishCtx_keeps | with_reducible apply addShares_keeps | with_reducible apply wakeCore_keeps | with_reducible apply wakeCluster_keeps | with_reducible apply wakePanel_keeps | with_reducible apply sendSite_keeps | with_reducible apply Keeps.foldl | split)

theorem execDescriptorRead_keeps {q : QueueNo} {ds : List Line} {s₀ s : State} (hk : Keeps s₀ s) : KeepsRes s₀ (execDescriptorRead q ds s) := by
  unfold execDescriptorRead
  repeat' first
    | with_reducible assumption
    | (intro s1; refine Keeps.cut (s₀ := s₀) s1 ?_ fun h1 => ?_; rotate_left; clear_value s1; rotate_left; unfold s1; clear s1)
    | (intro x1; clear_value x1)
    | lift_lets
    | with_reducible apply ringArrive_keeps
    | with_reducible apply wr_keeps
    | with_reducible apply putQ_keeps
    | with_reducible apply Keeps.next
    | with_reducible apply Keeps.fault
    | split

theorem execCommandComplete_keeps {q : QueueNo} {idx : BitVec 32} {s₀ s : State} (hk : Keeps s₀ s) : KeepsRes s₀ (execCommandComplete q idx s) := by
  unfold execCommandComplete
  repeat' first
    | with_reducible assumption
    | with_reducible apply completeCtx_keeps
    | with_reducible apply Keeps.next
    | split

theorem execHeldRecordWrite_keeps {kind : Fin 3} {ring : Fin 4096} {s₀ s : State} (hk : Keeps s₀ s) : KeepsRes s₀ (execHeldRecordWrite kind ring s) := by
  unfold execHeldRecordWrite
  repeat' first
    | with_reducible assumption
    | with_reducible apply writeHeld_keeps
    | with_reducible apply Keeps.next

theorem execQueueFault_keeps {q : QueueNo} {s₀ s : State} (hk : Keeps s₀ s) : KeepsRes s₀ (execQueueFault q s) := by
  unfold execQueueFault
  repeat' first
    | with_reducible assumption
    | with_reducible apply reportStop_keeps
    | with_reducible apply Keeps.next
    | split

theorem execQueueEnable_keeps {q : QueueNo} {tail : BitVec 32} {s₀ s : State} (hk : Keeps s₀ s) : KeepsRes s₀ (execQueueEnable q tail s) := by
  unfold execQueueEnable
  repeat' first
    | with_reducible assumption
    | (intro s1; refine Keeps.cut (s₀ := s₀) s1 ?_ fun h1 => ?_; rotate_left; clear_value s1; rotate_left; unfold s1; clear s1)
    | (intro x1; clear_value x1)
    | lift_lets
    | with_reducible apply putQ_keeps
    | with_reducible apply wr_keeps
    | with_reducible apply dbAdd_keeps
    | with_reducible apply setBit_keeps
    | with_reducible apply Keeps.next
    | split

theorem queueOff_keeps {q : Nat} {s₀ s : State} (hk : Keeps s₀ s) : Keeps s₀ (queueOff s q) := by
  unfold queueOff
  repeat' first
    | with_reducible assumption
    | with_reducible apply dbRemove_keeps
    | with_reducible apply wr_keeps
    | with_reducible apply putQ_keeps

theorem execQueueDisable_keeps {q : QueueNo} {s₀ s : State} (hk : Keeps s₀ s) : KeepsRes s₀ (execQueueDisable q s) := by
  unfold execQueueDisable
  repeat' first
    | with_reducible assumption
    | intro _
    | lift_lets
    | with_reducible apply wr_keeps
    | with_reducible apply putQ_keeps
    | with_reducible apply dropCtx_keeps
    | with_reducible apply abandon_keeps
    | with_reducible apply queueOff_keeps
    | with_reducible apply Keeps.foldl
    | with_reducible apply Keeps.next
    | split

theorem execQueueDrained_keeps {q : QueueNo} {s₀ s : State} (hk : Keeps s₀ s) : KeepsRes s₀ (execQueueDrained q s) := by
  unfold execQueueDrained
  repeat' first
    | with_reducible assumption
    | (intro x1; clear_value x1)
    | lift_lets
    | with_reducible apply queueOff_keeps
    | with_reducible apply Keeps.next
    | split

theorem tailCheck_keeps {q : Nat} {tail : Nat} {s₀ s : State} (hk : Keeps s₀ s) : Keeps s₀ (tailCheck s q tail) := by
  unfold tailCheck
  repeat' first
    | with_reducible assumption
    | with_reducible apply Keeps.ite
    | with_reducible apply putQ_keeps

theorem continueCtx_keeps {q : Nat} {c : Ctx} {s₀ s : State} (hk : Keeps s₀ s) : Keeps s₀ (continueCtx s q c) := by
  unfold continueCtx
  repeat' first
    | with_reducible assumption
    | with_reducible apply Keeps.ite
    | with_reducible apply modCtx_keeps
    | with_reducible apply sendSite_keeps
    | with_reducible apply addShares_keeps

theorem execQueueResume_keeps {q : QueueNo} {tail : BitVec 32} {s₀ s : State} (hk : Keeps s₀ s) : KeepsRes s₀ (execQueueResume q tail s) := by
  unfold execQueueResume
  repeat' first
    | with_reducible assumption
    | intro _
    | lift_lets
    | with_reducible apply setBit_keeps
    | with_reducible apply wr_keeps
    | with_reducible apply tailCheck_keeps
    | with_reducible apply putQ_keeps
    | with_reducible apply continueCtx_keeps
    | with_reducible apply Keeps.foldl
    | with_reducible apply Keeps.next
    | split

theorem execCompletionRingEnable_keeps {kind : Fin 2} {ring : Fin 4096} {s₀ s : State} (hk : Keeps s₀ s) : KeepsRes s₀ (execCompletionRingEnable kind ring s) := by
  unfold execCompletionRingEnable
  repeat' first
    | with_reducible assumption
    | (intro s1; refine Keeps.cut (s₀ := s₀) s1 ?_ fun h1 => ?_; rotate_left; clear_value s1; rotate_left; unfold s1; clear s1)
    | (intro x1; clear_value x1)
    | lift_lets
    | with_reducible apply putRing_keeps
    | with_reducible apply putWindex_keeps
    | with_reducible apply wr_keeps
    | with_reducible apply noteRing_keeps
    | with_reducible apply dbAdd_keeps
    | with_reducible apply setBit_keeps
    | with_reducible apply Keeps.next
    | split

theorem execControlRingEnable_keeps {x : Fin 16} {tail : BitVec 32} {s₀ s : State} (hk : Keeps s₀ s) : KeepsRes s₀ (execControlRingEnable x tail s) := by
  unfold execControlRingEnable
  repeat' first
    | with_reducible apply Keeps.next
    | split
    | (apply Keeps.other; (case h1 => dsimp only); (any_goals exact rfl); first | with_reducible assumption | with_reducible apply Keeps.ite | with_reducible apply wr_keeps | with_reducible apply noteRing_keeps | with_reducible apply dbAdd_keeps | with_reducible apply setBit_keeps | with_reducible apply Keeps.foldl | split)

theorem dbRestart_keeps {s₀ s : State} (hk : Keeps s₀ s) : Keeps s₀ (dbRestart s) := by
  unfold dbRestart
  repeat' first | (apply Keeps.other; (case h1 => dsimp only); (any_goals exact rfl); first | with_reducible assumption | with_reducible apply Keeps.ite | with_reducible apply dbRereadAll_keeps | with_reducible apply Keeps.foldl | split)

theorem execQueueEngineEnable_keeps {v : Bool} {s₀ s : State} (hk : Keeps s₀ s) : KeepsRes s₀ (execQueueEngineEnable v s) := by
  unfold execQueueEngineEnable
  repeat' first
    | with_reducible assumption
    | (intro s1; refine Keeps.cut (s₀ := s₀) s1 ?_ fun h1 => ?_; rotate_left; clear_value s1; rotate_left; unfold s1; clear s1)
    | (intro x1; clear_value x1)
    | lift_lets
    | with_reducible apply wr_keeps
    | with_reducible apply bringIn_keeps
    | with_reducible apply dbRestart_keeps
    | with_reducible apply Keeps.next
    | split

theorem dbLose_keeps {addr : Nat} {s₀ s : State} (hk : Keeps s₀ s) : Keeps s₀ (dbLose s addr) := by
  unfold dbLose
  repeat' first | (apply Keeps.other; (case h1 => dsimp only); (any_goals exact rfl); first | with_reducible assumption | with_reducible apply Keeps.ite | with_reducible apply Keeps.foldl | split)

theorem execDoorbellSnoop_keeps {line : W64} {s₀ s : State} (hk : Keeps s₀ s) : KeepsRes s₀ (execDoorbellSnoop line s) := by
  unfold execDoorbellSnoop
  repeat' first
    | with_reducible assumption
    | with_reducible apply dbLose_keeps
    | with_reducible apply Keeps.next

theorem execDoorbellLineLost_keeps {line : W64} {s₀ s : State} (hk : Keeps s₀ s) : KeepsRes s₀ (execDoorbellLineLost line s) := by
  unfold execDoorbellLineLost
  repeat' first
    | with_reducible assumption
    | with_reducible apply dbLose_keeps
    | with_reducible apply Keeps.next

theorem slotTake_keeps {data : Line} {r : RingId} {s₀ s : State} (hk : Keeps s₀ s) : Keeps s₀ (slotTake s data r) := by
  unfold slotTake
  repeat' first | (apply Keeps.other; (case h1 => dsimp only); (any_goals exact rfl); first | with_reducible assumption | with_reducible apply Keeps.ite | with_reducible apply tailCheck_keeps | with_reducible apply putQ_keeps | with_reducible apply noteRing_keeps | with_reducible apply putRing_keeps | with_reducible apply Keeps.foldl | split)

theorem execDoorbellLineData_keeps {line : W64} {data : Line} {s₀ s : State} (hk : Keeps s₀ s) : KeepsRes s₀ (execDoorbellLineData line data s) := by
  unfold execDoorbellLineData
  repeat' first
    | (intro s1; refine Keeps.cut (s₀ := s₀) s1 ?_ fun h1 => ?_; rotate_left; clear_value s1; rotate_left; unfold s1; clear s1)
    | intro _
    | lift_lets
    | with_reducible apply Keeps.next
    | split
    | (apply Keeps.other; (case h1 => dsimp only); (any_goals exact rfl); first | with_reducible assumption | with_reducible apply Keeps.ite | with_reducible apply slotTake_keeps | with_reducible apply Keeps.foldl | split)

theorem execDoorbellPoll_keeps {s₀ s : State} (hk : Keeps s₀ s) : KeepsRes s₀ (execDoorbellPoll s) := by
  unfold execDoorbellPoll
  repeat' first
    | with_reducible apply Keeps.next
    | (apply Keeps.other; (case h1 => dsimp only); (any_goals exact rfl); first | with_reducible assumption | with_reducible apply Keeps.ite | with_reducible apply Keeps.foldl | split)

theorem execDoorbellRereadAll_keeps {s₀ s : State} (hk : Keeps s₀ s) : KeepsRes s₀ (execDoorbellRereadAll s) := by
  unfold execDoorbellRereadAll
  repeat' first
    | with_reducible assumption
    | with_reducible apply dbRestart_keeps
    | with_reducible apply Keeps.next

theorem execNop_keeps {q : QueueNo} {idx : BitVec 32} {s₀ s : State} (hk : Keeps s₀ s) : KeepsRes s₀ (execNop q idx s) := by
  unfold execNop
  repeat' first
    | with_reducible assumption
    | with_reducible apply finishCtx_keeps
    | with_reducible apply Keeps.next
    | split

theorem testWait_keeps {q : Nat} {c : Ctx} {s₀ s : State} (hk : Keeps s₀ s) : Keeps s₀ (testWait s q c) := by
  unfold testWait
  repeat' first
    | with_reducible refine Keeps.app (by assumption) ?_
    | (apply Keeps.other; (case h1 => dsimp only); (any_goals exact rfl); first | with_reducible assumption | with_reducible apply Keeps.ite | with_reducible apply translate_keeps | with_reducible apply stopShare_keeps | with_reducible apply finishCtx_keeps | with_reducible apply readFlat_keeps | with_reducible apply Keeps.foldl | refine Keeps.got (by assumption) ?_ | split)

theorem execWaitSem_keeps {q : QueueNo} {idx : BitVec 32} {s₀ s : State} (hk : Keeps s₀ s) : KeepsRes s₀ (execWaitSem q idx s) := by
  unfold execWaitSem
  repeat' first
    | with_reducible assumption
    | with_reducible apply testWait_keeps
    | with_reducible apply Keeps.next
    | split

theorem execSemaphoreWatch_keeps {q : QueueNo} {idx : BitVec 32} {s₀ s : State} (hk : Keeps s₀ s) : KeepsRes s₀ (execSemaphoreWatch q idx s) := by
  unfold execSemaphoreWatch
  repeat' first
    | with_reducible assumption
    | with_reducible apply testWait_keeps
    | with_reducible apply Keeps.next
    | split

theorem execWaitRetest_keeps {s₀ s : State} (hk : Keeps s₀ s) : KeepsRes s₀ (execWaitRetest s) := by
  unfold execWaitRetest
  repeat' first
    | with_reducible assumption
    | intro _
    | with_reducible apply testWait_keeps
    | with_reducible apply Keeps.foldl
    | with_reducible apply Keeps.next
    | split

theorem execWaitTimeout_keeps {q : QueueNo} {idx : BitVec 32} {s₀ s : State} (hk : Keeps s₀ s) : KeepsRes s₀ (execWaitTimeout q idx s) := by
  unfold execWaitTimeout
  repeat' first
    | with_reducible apply Keeps.next
    | split
    | (apply Keeps.other; (case h1 => dsimp only); (any_goals exact rfl); first | with_reducible assumption | with_reducible apply Keeps.ite | with_reducible apply stopShare_keeps | with_reducible apply Keeps.foldl | split)

theorem execSignalSem_keeps {q : QueueNo} {idx : BitVec 32} {s₀ s : State} (hk : Keeps s₀ s) : KeepsRes s₀ (execSignalSem q idx s) := by
  unfold execSignalSem
  repeat' first
    | with_reducible assumption
    | (intro s1; refine Keeps.cut (s₀ := s₀) s1 ?_ fun h1 => ?_; rotate_left; clear_value s1; rotate_left; unfold s1; clear s1)
    | (intro x1; refine Keeps.cutVia (s₀ := s₀) Got.s x1 ?_ fun h1 => ?_; rotate_left; clear_value x1; rotate_left; unfold x1; clear x1)
    | (intro x1; refine Keeps.cutVia (s₀ := s₀) Xl.s x1 ?_ fun h1 => ?_; rotate_left; clear_value x1; rotate_left; unfold x1; clear x1)
    | (intro x1; clear_value x1)
    | lift_lets
    | with_reducible apply modCtx_keeps
    | with_reducible apply rmtSubmit_keeps
    | with_reducible apply translate_keeps
    | with_reducible apply stopShare_keeps
    | with_reducible apply finishCtx_keeps
    | with_reducible apply readFlat_keeps
    | with_reducible apply writeFlat_keeps
    | with_reducible apply Keeps.next
    | split

theorem execFence_keeps {q : QueueNo} {idx : BitVec 32} {s₀ s : State} (hk : Keeps s₀ s) : KeepsRes s₀ (execFence q idx s) := by
  unfold execFence
  repeat' first
    | with_reducible assumption
    | (intro x1; clear_value x1)
    | lift_lets
    | with_reducible apply finishCtx_keeps
    | with_reducible apply Keeps.next
    | split

theorem timerEnd_keeps {q : Nat} {c : Ctx} {s₀ s : State} (hk : Keeps s₀ s) : Keeps s₀ (timerEnd s q c) := by
  unfold timerEnd
  repeat' first
    | with_reducible assumption
    | with_reducible apply Keeps.ite
    | with_reducible apply finishCtx_keeps

theorem execTimer_keeps {q : QueueNo} {idx : BitVec 32} {s₀ s : State} (hk : Keeps s₀ s) : KeepsRes s₀ (execTimer q idx s) := by
  unfold execTimer
  repeat' first
    | with_reducible assumption
    | with_reducible apply armTimers_keeps
    | with_reducible apply timerEnd_keeps
    | with_reducible apply Keeps.next
    | split

theorem execTimerExpiry_keeps {q : QueueNo} {idx : BitVec 32} {s₀ s : State} (hk : Keeps s₀ s) : KeepsRes s₀ (execTimerExpiry q idx s) := by
  unfold execTimerExpiry
  repeat' first
    | with_reducible assumption
    | with_reducible apply timerEnd_keeps
    | with_reducible apply Keeps.next
    | split

end Sys2Proof.Machine
end

