-- ==== Sys2Proof/Laws/KeepsCollect.lean ====
section
/-! SUPPORT. Keeps lemmas for Machine/Collect.lean (collectives): each meaning and operation leaves the queue of waiting commands
alone, only adds to the outbox, and keeps the canonical memory and the eight fuse records. -/

namespace Sys2Proof.Machine

theorem grpUsed_keeps {s₀ s : State} (hk : Keeps s₀ s) : Keeps s₀ (grpUsed s) := by
  unfold grpUsed
  repeat' first
    | with_reducible assumption
    | with_reducible apply wr_keeps

theorem modColl_keeps {q : Nat} {idx : Nat} {f : CollCmd → CollCmd} {s₀ s : State} (hk : Keeps s₀ s) : Keeps s₀ (modColl s q idx f) := by
  unfold modColl
  repeat' first | (apply Keeps.other; (case h1 => dsimp only); (any_goals exact rfl); first | with_reducible assumption | with_reducible apply Keeps.ite | with_reducible apply Keeps.foldl | split)

theorem collFault_keeps {c : CollCmd} {status : Nat} {access : Nat} {va : Nat} {s₀ s : State} (hk : Keeps s₀ s) : Keeps s₀ (collFault s c status access va) := by
  unfold collFault
  repeat' first
    | with_reducible assumption
    | with_reducible apply stopShare_keeps
    | with_reducible apply modColl_keeps
    | split

theorem advanceSeq_keeps {g fuel : Nat} {s₀ s : State} (hk : Keeps s₀ s) : Keeps s₀ (advanceSeq s g fuel) := by
  induction fuel generalizing s with
  | zero => exact hk
  | succ fuel ih =>
    unfold advanceSeq
    repeat' first | (apply Keeps.other; (case h1 => dsimp only); (any_goals exact rfl); first | with_reducible assumption | with_reducible apply Keeps.ite | with_reducible apply ih | with_reducible apply wr_keeps | with_reducible apply Keeps.foldl | split)

theorem collEnd_keeps {c : CollCmd} {status : Nat} {s₀ s : State} (hk : Keeps s₀ s) : Keeps s₀ (collEnd s c status) := by
  unfold collEnd
  repeat' first | (apply Keeps.other; (case h1 => dsimp only); (any_goals exact rfl); first | with_reducible assumption | with_reducible apply Keeps.ite | with_reducible apply finishCtx_keeps | with_reducible apply advanceSeq_keeps | with_reducible apply Keeps.foldl | split)

theorem collMute_keeps {c : CollCmd} {s₀ s : State} (hk : Keeps s₀ s) : Keeps s₀ (collMute s c) := by apply Keeps.other hk <;> rfl

theorem collTimeout_keeps {q : Nat} {idx : Nat} {s₀ s : State} (hk : Keeps s₀ s) : Keeps s₀ (collTimeout s q idx) := by
  unfold collTimeout
  repeat' first
    | with_reducible assumption
    | with_reducible apply collEnd_keeps
    | with_reducible apply collMute_keeps
    | with_reducible apply incSat_keeps
    | split

theorem sendCol_keeps {v : CollEnv} {c : CollCmd} {sp : Option CollSpec} {dest : Nat} {ty : Nat} {stream : Nat} {packet : Nat} {payload : List Byte} {s₀ s : State} (hk : Keeps s₀ s) : Keeps s₀ (sendCol s v c sp dest ty stream packet payload) := by
  unfold sendCol
  repeat' first | (apply Keeps.other; (case h1 => dsimp only); (any_goals exact rfl); first | with_reducible assumption | with_reducible apply Keeps.ite | with_reducible apply Keeps.foldl | split)

theorem sendCtl_keeps {v : CollEnv} {c : CollCmd} {ty : Nat} {dest : Nat} {stream : Nat} {index : Nat} {s₀ s : State} (hk : Keeps s₀ s) : Keeps s₀ (sendCtl s v c ty dest stream index) := by
  unfold sendCtl
  repeat' first
    | with_reducible assumption
    | with_reducible apply sendCol_keeps

theorem sendRereq_keeps {v : CollEnv} {c : CollCmd} {r : CollRx} {s₀ s : State} (hk : Keeps s₀ s) : Keeps s₀ (sendRereq s v c r) := by
  unfold sendRereq
  repeat' first
    | with_reducible assumption
    | with_reducible apply incSat_keeps
    | with_reducible apply sendCtl_keeps

theorem sendChunk_keeps {v : CollEnv} {c : CollCmd} {sp : CollSpec} {t : CollTx} {s₀ s : State} (hk : Keeps s₀ s) : Keeps s₀ (sendChunk s v c sp t) := by
  unfold sendChunk
  repeat' first
    | with_reducible assumption
    | intro _
    | with_reducible apply sendCol_keeps
    | with_reducible apply Keeps.foldl

theorem noteFlags_keeps {c : CollCmd} {f : Inexact} {s₀ s : State} (hk : Keeps s₀ s) : Keeps s₀ (noteFlags s c f) := by
  unfold noteFlags
  repeat' first
    | with_reducible assumption
    | with_reducible apply modCtx_keeps

theorem readElems_keeps {v : CollEnv} {va : Nat} {n : Nat} {s₀ s : State} (hk : Keeps s₀ s) : KeepsVia Prod.fst s₀ (readElems s v va n) := by
  unfold readElems
  repeat' first
    | with_reducible assumption
    | (intro x1; refine Keeps.cutVia (s₀ := s₀) VGot.s x1 ?_ fun h1 => ?_; rotate_left; clear_value x1; rotate_left; unfold x1; clear x1)
    | lift_lets
    | with_reducible apply readVa_keeps
    | split

theorem contribution_keeps {v : CollEnv} {c : CollCmd} {st : Nat} {j : Nat} {lo : Nat} {n : Nat} {s₀ s : State} (hk : Keeps s₀ s) : KeepsVia Prod.fst s₀ (contribution s v c st j lo n) := by
  unfold contribution
  repeat' first
    | with_reducible assumption
    | with_reducible apply readElems_keeps
    | with_reducible apply noteFlags_keeps
    | refine Keeps.fst (by assumption) ?_
    | split
    | dsimp only

theorem specData_keeps {v : CollEnv} {c : CollCmd} {sp : CollSpec} {n : Nat} {s₀ s : State} (hk : Keeps s₀ s) : KeepsVia Prod.fst s₀ (specData s v c sp n) := by
  unfold specData
  repeat' first
    | with_reducible assumption
    | (intro x1; clear_value x1)
    | lift_lets
    | with_reducible apply contribution_keeps
    | with_reducible apply readElems_keeps
    | split

theorem collSend_keeps {q idx fuel : Nat} {s₀ s : State} (hk : Keeps s₀ s) : Keeps s₀ (collSend q idx fuel s) := by
  induction fuel generalizing s with
  | zero => exact hk
  | succ fuel ih =>
    unfold collSend
    repeat' first
      | with_reducible assumption
      | (intro g1; have hgo : ∀ s b l z, Keeps s₀ s → Keeps s₀ (g1 s b l z) := fun s b l z h => sendChunk_keeps (modColl_keeps h); clear_value g1)
      | (intro x1; clear_value x1)
      | lift_lets
      | with_reducible apply ih
      | with_reducible apply hgo
      | with_reducible apply modColl_keeps
      | with_reducible apply specData_keeps
      | with_reducible apply collFault_keeps
      | refine Keeps.fst (by assumption) ?_
      | split

theorem placeElems_keeps {v : CollEnv} {c : CollCmd} {va : Nat} {j : Nat} {lo : Nat} {codes : List Nat} {s₀ s : State} (hk : Keeps s₀ s) : KeepsVia Prod.fst s₀ (placeElems s v c va j lo codes) := by
  unfold placeElems
  repeat' first
    | with_reducible assumption
    | with_reducible apply writeVa_keeps
    | with_reducible apply collFault_keeps
    | with_reducible apply modColl_keeps
    | refine Keeps.fst (by assumption) ?_
    | split

theorem loseRange_keeps {c : CollCmd} {j : Nat} {lo : Nat} {n : Nat} {m : Nat} {s₀ s : State} (hk : Keeps s₀ s) : Keeps s₀ (loseRange s c j lo n m) := by
  unfold loseRange
  repeat' first
    | with_reducible assumption
    | with_reducible apply modColl_keeps

theorem ownResult_keeps {v : CollEnv} {c : CollCmd} {st : Nat} {j : Nat} {lo : Nat} {vals : List Nat} {n : Nat} {f : Inexact} {failed : Option Nat} {s₀ s : State} (hk : Keeps s₀ s) : KeepsVia Prod.fst s₀ (ownResult s v c st j lo vals n f failed) := by
  unfold ownResult
  repeat' first
    | with_reducible assumption
    | with_reducible apply Keeps.ite
    | with_reducible apply loseRange_keeps
    | with_reducible apply placeElems_keeps
    | with_reducible apply noteFlags_keeps
    | with_reducible apply modColl_keeps
    | split

theorem useRx_keeps {c : CollCmd} {r : CollRx} {s₀ s : State} (hk : Keeps s₀ s) : KeepsVia Prod.fst s₀ (useRx s c r) := by
  unfold useRx
  extract_lets v
  clear_value v
  split
  · split
    · exact hk
    · split
      · exact sendRereq_keeps (incSat_keeps (modColl_keeps hk))
      · extract_lets codes j n f
        clear_value codes j n f
        split
        rename_i s1 ok e
        have h1 : Keeps s₀ s1 := by
          refine Keeps.fst e ?_
          clear e
          repeat' first
            | with_reducible assumption
            | with_reducible apply modColl_keeps
            | with_reducible apply ownResult_keeps
            | with_reducible apply contribution_keeps
            | with_reducible apply collFault_keeps
            | with_reducible apply loseRange_keeps
            | with_reducible apply placeElems_keeps
            | refine Keeps.fst (by assumption) ?_
            | split
            | dsimp only

        split
        · exact h1
        · extract_lets slice s2
          exact sendCtl_keeps (modColl_keeps h1)
  · exact hk

theorem useAll_keeps {q idx fuel : Nat} {s₀ s : State} (hk : Keeps s₀ s) : Keeps s₀ (useAll q idx fuel s) := by
  induction fuel generalizing s with
  | zero => exact hk
  | succ fuel ih =>
    unfold useAll
    repeat' first
      | with_reducible assumption
      | intro _
      | with_reducible apply Keeps.ite
      | with_reducible apply ih
      | with_reducible apply useRx_keeps
      | with_reducible apply Keeps.foldlFst
      | split

theorem collGrant_keeps {q : Nat} {idx : Nat} {s₀ s : State} (hk : Keeps s₀ s) : Keeps s₀ (collGrant s q idx) := by
  unfold collGrant
  repeat' first
    | with_reducible assumption
    | intro _
    | with_reducible apply modColl_keeps
    | with_reducible apply sendCtl_keeps
    | with_reducible apply Keeps.foldl
    | split

theorem padSlice_keeps {v : CollEnv} {c : CollCmd} {j : Nat} {len : Nat} {s₀ s : State} (hk : Keeps s₀ s) : KeepsVia Prod.fst s₀ (padSlice s v c j len) := by
  unfold padSlice
  repeat' first
    | with_reducible assumption
    | with_reducible apply writeVa_keeps
    | split

theorem writesUntil_keeps {v : CollEnv} {c : CollCmd} {l : List (Nat × List Byte)} {s₀ s : State} (hk : Keeps s₀ s) :
    KeepsVia Prod.fst s₀ (writesUntil v c l s) := by
  induction l generalizing s with
  | nil => exact hk
  | cons x l ih =>
    obtain ⟨va, bs⟩ := x
    unfold writesUntil
    repeat' first
      | with_reducible assumption
      | with_reducible apply ih
      | with_reducible apply writeVa_keeps
      | refine Keeps.fst (by assumption) ?_
      | split

theorem collFinish_keeps {q : Nat} {idx : Nat} {s₀ s : State} (hk : Keeps s₀ s) : Keeps s₀ (collFinish s q idx) := by
  unfold collFinish
  repeat' first
    | with_reducible assumption
    | with_reducible apply writesUntil_keeps
    | with_reducible apply collFault_keeps
    | with_reducible apply collEnd_keeps
    | split
    | dsimp only

theorem collSetup_keeps {q : Nat} {idx : Nat} {s₀ s : State} (hk : Keeps s₀ s) : Keeps s₀ (collSetup s q idx) := by
  unfold collSetup
  repeat' first
    | with_reducible assumption
    | lift_lets
    | with_reducible apply Keeps.ite
    | with_reducible apply readVa_keeps
    | with_reducible apply collFault_keeps
    | with_reducible apply modColl_keeps
    | with_reducible apply contribution_keeps
    | with_reducible apply loseRange_keeps
    | with_reducible apply ownResult_keeps
    | with_reducible apply readElems_keeps
    | with_reducible apply placeElems_keeps
    | refine Keeps.fst (by assumption) ?_
    | with_reducible refine Keeps.app (by assumption) ?_
    | split

theorem collRestartSends_keeps {q : Nat} {idx : Nat} {s₀ s : State} (hk : Keeps s₀ s) : Keeps s₀ (collRestartSends s q idx) := by
  unfold collRestartSends
  repeat' first
    | with_reducible assumption
    | intro _
    | with_reducible apply modColl_keeps
    | with_reducible apply sendRereq_keeps
    | with_reducible apply sendChunk_keeps
    | with_reducible apply Keeps.foldl
    | split

theorem collPump_keeps {q : Nat} {idx : Nat} {s₀ s : State} (hk : Keeps s₀ s) : Keeps s₀ (collPump s q idx) := by
  unfold collPump
  repeat' first
    | with_reducible assumption
    | (intro s1; refine Keeps.cut (s₀ := s₀) s1 ?_ fun h1 => ?_; rotate_left; clear_value s1; rotate_left; unfold s1; clear s1)
    | (intro x1; clear_value x1)
    | lift_lets
    | with_reducible apply collRestartSends_keeps
    | with_reducible apply collSetup_keeps
    | with_reducible apply useAll_keeps
    | with_reducible apply collGrant_keeps
    | with_reducible apply collSend_keeps
    | with_reducible apply collFinish_keeps
    | split

theorem collBegin_keeps {q : Nat} {idx : Nat} {s₀ s : State} (hk : Keeps s₀ s) : Keeps s₀ (collBegin s q idx) := by
  unfold collBegin
  repeat' first
    | with_reducible assumption
    | with_reducible apply collEnd_keeps
    | with_reducible apply collPump_keeps
    | split

theorem runColl_keeps {op : Nat} {q : Nat} {idx : Nat} {s₀ s : State} (hk : Keeps s₀ s) : Keeps s₀ (runColl op q idx s) := by
  unfold runColl
  repeat' first
    | with_reducible assumption
    | with_reducible apply collBegin_keeps
    | split

theorem execReduceScatter_keeps {q : QueueNo} {idx : BitVec 32} {s₀ s : State} (hk : Keeps s₀ s) : KeepsRes s₀ (execReduceScatter q idx s) := by
  unfold execReduceScatter
  repeat' first
    | with_reducible assumption
    | with_reducible apply runColl_keeps
    | with_reducible apply Keeps.next

theorem execAllGather_keeps {q : QueueNo} {idx : BitVec 32} {s₀ s : State} (hk : Keeps s₀ s) : KeepsRes s₀ (execAllGather q idx s) := by
  unfold execAllGather
  repeat' first
    | with_reducible assumption
    | with_reducible apply runColl_keeps
    | with_reducible apply Keeps.next

theorem execExchange_keeps {q : QueueNo} {idx : BitVec 32} {s₀ s : State} (hk : Keeps s₀ s) : KeepsRes s₀ (execExchange q idx s) := by
  unfold execExchange
  repeat' first
    | with_reducible assumption
    | with_reducible apply runColl_keeps
    | with_reducible apply Keeps.next

theorem execCollectiveStart_keeps {s₀ s : State} (hk : Keeps s₀ s) : KeepsRes s₀ (execCollectiveStart s) := by
  unfold execCollectiveStart
  repeat' first
    | with_reducible assumption
    | with_reducible apply collBegin_keeps
    | with_reducible apply modColl_keeps
    | with_reducible apply Keeps.next
    | split

theorem takeCol_keeps {ty : Nat} {f : State → CollCmd → Nat → Packet → State} {s₀ s : State}
    (hf : ∀ s c m p, Keeps s₀ s → Keeps s₀ (f s c m p)) (hk : Keeps s₀ s) : Keeps s₀ (takeCol s ty f) := by
  unfold takeCol
  repeat' first
    | with_reducible refine Keeps.app (by assumption) ?_
    | (apply Keeps.other; (case h1 => dsimp only); (any_goals exact rfl); first | with_reducible assumption | with_reducible apply Keeps.ite | with_reducible apply hf | with_reducible apply incSat_keeps | with_reducible apply collEnd_keeps | with_reducible apply collMute_keeps | with_reducible apply Keeps.foldl | split)

theorem execGrantPkt_keeps {s₀ s : State} (hk : Keeps s₀ s) : KeepsRes s₀ (execGrantPkt s) := by
  unfold execGrantPkt
  repeat' first
    | with_reducible assumption
    | intro _
    | with_reducible apply takeCol_keeps
    | with_reducible apply collPump_keeps
    | with_reducible apply modColl_keeps
    | with_reducible apply Keeps.next

theorem execDataPkt_keeps {s₀ s : State} (hk : Keeps s₀ s) : KeepsRes s₀ (execDataPkt s) := by
  unfold execDataPkt
  repeat' first
    | with_reducible assumption
    | intro _
    | with_reducible apply Keeps.ite
    | with_reducible apply takeCol_keeps
    | with_reducible apply collPump_keeps
    | with_reducible apply modColl_keeps
    | with_reducible apply incSat_keeps
    | with_reducible apply Keeps.next

theorem execSealChunk_keeps {s₀ s : State} (hk : Keeps s₀ s) : KeepsRes s₀ (execSealChunk s) := by
  unfold execSealChunk
  repeat' first
    | with_reducible assumption
    | intro _
    | with_reducible apply Keeps.ite
    | with_reducible apply takeCol_keeps
    | with_reducible apply collPump_keeps
    | with_reducible apply modColl_keeps
    | with_reducible apply sendCtl_keeps
    | with_reducible apply incSat_keeps
    | with_reducible apply Keeps.next

theorem execAckPkt_keeps {s₀ s : State} (hk : Keeps s₀ s) : KeepsRes s₀ (execAckPkt s) := by
  unfold execAckPkt
  repeat' first
    | with_reducible assumption
    | intro _
    | with_reducible apply takeCol_keeps
    | with_reducible apply collPump_keeps
    | with_reducible apply modColl_keeps
    | with_reducible apply Keeps.next

theorem execRereqPkt_keeps {s₀ s : State} (hk : Keeps s₀ s) : KeepsRes s₀ (execRereqPkt s) := by
  unfold execRereqPkt
  repeat' first
    | with_reducible assumption
    | intro _
    | lift_lets
    | with_reducible apply takeCol_keeps
    | with_reducible apply sendChunk_keeps
    | with_reducible apply collPump_keeps
    | with_reducible apply modColl_keeps
    | with_reducible apply Keeps.next
    | split

theorem execRereqTimer_keeps {q : QueueNo} {idx : BitVec 32} {src : BitVec 14} {index : BitVec 32} {s₀ s : State} (hk : Keeps s₀ s) : KeepsRes s₀ (execRereqTimer q idx src index s) := by
  unfold execRereqTimer
  repeat' first
    | with_reducible assumption
    | with_reducible apply sendRereq_keeps
    | with_reducible apply Keeps.next
    | split

theorem execChunkFailed_keeps {q : QueueNo} {idx : BitVec 32} {s₀ s : State} (hk : Keeps s₀ s) : KeepsRes s₀ (execChunkFailed q idx s) := by
  unfold execChunkFailed
  repeat' first
    | with_reducible assumption
    | with_reducible apply collPump_keeps
    | with_reducible apply modColl_keeps
    | with_reducible apply Keeps.next
    | split

theorem execCollectiveWatchdog_keeps {q : QueueNo} {idx : BitVec 32} {s₀ s : State} (hk : Keeps s₀ s) : KeepsRes s₀ (execCollectiveWatchdog q idx s) := by
  unfold execCollectiveWatchdog
  repeat' first
    | with_reducible assumption
    | with_reducible apply collTimeout_keeps
    | with_reducible apply Keeps.next
    | split

theorem failGroups_keeps {pick : Nat → Bool} {s₀ s : State} (hk : Keeps s₀ s) : Keeps s₀ (failGroups s pick) := by
  unfold failGroups
  repeat' first
    | with_reducible assumption
    | intro _
    | with_reducible apply collTimeout_keeps
    | with_reducible apply Keeps.foldl

theorem execGrpEnable_keeps {v : Bool} {s₀ s : State} (hk : Keeps s₀ s) : KeepsRes s₀ (execGrpEnable v s) := by
  unfold execGrpEnable
  repeat' first
    | with_reducible assumption
    | with_reducible apply setBit_keeps
    | with_reducible apply wr_keeps
    | with_reducible apply failGroups_keeps
    | with_reducible apply Keeps.next
    | split

theorem execGroupEntryEnable_keeps {g : Fin 1024} {v : Bool} {s₀ s : State} (hk : Keeps s₀ s) : KeepsRes s₀ (execGroupEntryEnable g v s) := by
  unfold execGroupEntryEnable
  repeat' first
    | with_reducible apply Keeps.next
    | split
    | (apply Keeps.other; (case h1 => dsimp only); (any_goals exact rfl); first | with_reducible assumption | with_reducible apply Keeps.ite | with_reducible apply setBit_keeps | with_reducible apply wr_keeps | with_reducible apply grpUsed_keeps | with_reducible apply failGroups_keeps | with_reducible apply Keeps.foldl | split)

theorem execGrpClear_keeps {s₀ s : State} (hk : Keeps s₀ s) : KeepsRes s₀ (execGrpClear s) := by
  unfold execGrpClear
  repeat' first
    | with_reducible assumption
    | intro _
    | with_reducible apply wr_keeps
    | with_reducible apply Keeps.foldl
    | with_reducible apply Keeps.next

end Sys2Proof.Machine
end

