-- ==== Sys2Proof/Laws/KeepsPreempt.lean ====
section
/-! SUPPORT. Keeps lemmas for Machine/Preempt.lean (pre-emption): each meaning and operation leaves the queue of waiting commands
alone, only adds to the outbox, and keeps the canonical memory and the eight fuse records. -/

namespace Sys2Proof.Machine

theorem wf_foldl {α : Type} {f : List Host.Cell → α → List Host.Cell} (l : List α) {m : List Host.Cell} (hw : Memory.wf m = true)
    (hf : ∀ m a, Memory.wf m = true → Memory.wf (f m a) = true) : Memory.wf (l.foldl f m) = true := by
  induction l generalizing m with
  | nil => exact hw
  | cons a l ih => exact ih (hf m a hw)

/-- A saved cell keeps memory in canonical form. -/
theorem wf_saveCell {pl : MmPlan} {at_ i : Nat} {c : Cell} {m : List Host.Cell} (hw : Memory.wf m = true) : Memory.wf (saveCell pl m at_ i c) = true := by
  unfold saveCell
  split <;> exact wf_memPutList _ _ (wf_memPutList _ _ hw)

theorem respond_keeps {x : Nat} {idx : Nat} {d : Line} {status : Nat} {result0 : Nat} {stops : optParam Bool Bool.false} {s₀ s : State} (hk : Keeps s₀ s) : Keeps s₀ (respond s x idx d status result0 stops) := by
  unfold respond
  repeat' first
    | with_reducible assumption
    | with_reducible apply Keeps.ite
    | with_reducible apply putRing_keeps
    | with_reducible apply writeHeld_keeps
    | with_reducible apply noteRing_keeps
    | with_reducible apply ringHold_keeps

theorem saveBlock_keeps {pl : MmPlan} {core u : Nat} {b : Block} {from_ : Option Nat} {k0 k1 at_ : Nat} {s₀ s : State} (hk : Keeps s₀ s) :
    KeepsVia Prod.fst s₀ (saveBlock s pl core u b from_ k0 k1 at_) := by
  unfold saveBlock
  refine Keeps.ofMem hk rfl rfl rfl (fun hw => ?_) rfl
  have fold {α β : Type} (f : List Host.Cell × β → α → List Host.Cell × β) (hf : ∀ m a, Memory.wf m.1 = true → Memory.wf (f m a).1 = true) (l : List α)
      (m : List Host.Cell × β) (h : Memory.wf m.1 = true) : Memory.wf (l.foldl f m).1 = true := by
    induction l generalizing m with
    | nil => exact h
    | cons a l ih => exact ih _ (hf m a h)
  exact fold _ (fun m a h => fold _ (fun m j h => wf_saveCell h) _ _ h) _ _ hw

theorem mmUpTo_keeps {pl : MmPlan} {q idx pos u k : Nat} {s₀ s : State} (hk : Keeps s₀ s) : Keeps s₀ (mmUpTo s pl q idx pos u k) := by
  unfold mmUpTo
  split
  · exact hk
  · rename_i c _
    have h0 := startShare_keeps (pl := pl) (pos := pos) (lo := (shareFrom c pos).1) hk
    dsimp only
    generalize startShare s pl pos (shareFrom c pos).1 = p at h0
    obtain ⟨s1, go⟩ := p
    dsimp only
    split
    · exact h0
    · have ho := runShare_keeps (pl := pl) (pos := pos) (lo := (shareFrom c pos).1) (hi := max (shareFrom c pos).1 (min u (shareBlocks pl pos).length))
        (resume := (shareFrom c pos).2) (s := s1) h0
      generalize runShare s1 pl pos (shareFrom c pos).1 _ (shareFrom c pos).2 = o at ho
      repeat' first
        | with_reducible assumption
        | with_reducible apply shareDone_keeps
        | with_reducible apply endShare_keeps
        | with_reducible apply modCtx_keeps
        | with_reducible apply addBeats_keeps
        | with_reducible refine saveBlock_keeps ?_
        | with_reducible refine readRows_keeps ?_
        | split

theorem vecUpTo_keeps {fn : RowFn} {pl : VecPlan} {q idx pos u k : Nat} {s₀ s : State} (hk : Keeps s₀ s) : Keeps s₀ (vecUpTo fn s pl q idx pos u k) := by
  unfold vecUpTo
  split
  · exact hk
  · extract_lets +onlyGivenNames core lo rows u run o stand
    have ho : KeepsVia ShareOut.s s₀ o := runVecShare_keeps hk
    clear_value o
    have hs (s : State) (fl : Inexact) (run : VecRun) (h : Keeps s₀ s) : Keeps s₀ (stand s fl run) := modCtx_keeps h
    clear_value stand
    split
    · exact shareDone_keeps (endShare_keeps ho)
    · dsimp only
      refine Keeps.ite (hs _ _ _ ho) ?_
      split
      · exact hs _ _ _ (runRow_keeps ho)
      · exact shareDone_keeps (endShare_keeps (runRow_keeps (o := o) ho))

theorem cpUpTo_keeps {v : Env} {c : Ctx} {ord : Nat} {k : Nat} {s₀ s : State} (hk : Keeps s₀ s) : Keeps s₀ (cpUpTo s v c ord k) := by
  unfold cpUpTo
  repeat' first
    | with_reducible assumption
    | (intro x1; refine Keeps.cutVia (s₀ := s₀) CpOut.s x1 ?_ fun h1 => ?_; rotate_left; clear_value x1; rotate_left; unfold x1; clear x1)
    | (intro x1; clear_value x1)
    | lift_lets
    | with_reducible apply runCopyShare_keeps
    | with_reducible apply copyShareEnd_keeps
    | with_reducible apply modCtx_keeps
    | split

theorem stopPoint_keeps {q : Nat} {pt : PrePoint} {s₀ s : State} (hk : Keeps s₀ s) : Keeps s₀ (stopPoint s q pt) := by
  unfold stopPoint
  repeat' first
    | with_reducible assumption
    | (intro x1; clear_value x1)
    | lift_lets
    | with_reducible apply cpUpTo_keeps
    | refine readRecords_ended (by assumption) ?_
    | refine readRecords_ready (by assumption) ?_
    | with_reducible apply mmUpTo_keeps
    | with_reducible apply recordInvalid_keeps
    | with_reducible apply vecUpTo_keeps
    | split

theorem stopEnd_keeps {q : Nat} {c : Ctx} {s₀ s : State} (hk : Keeps s₀ s) : Keeps s₀ (stopEnd s q c) := by
  unfold stopEnd
  repeat' first
    | with_reducible assumption
    | intro _
    | with_reducible apply Keeps.ite
    | with_reducible apply settle_keeps
    | with_reducible apply settleCopy_keeps
    | with_reducible apply copyShareDone_keeps
    | with_reducible apply rmtWithdraw_keeps
    | with_reducible apply Keeps.foldl

theorem stopQueue_keeps {q : Nat} {pts : List PrePoint} {s₀ s : State} (hk : Keeps s₀ s) : Keeps s₀ (stopQueue s q pts) := by
  unfold stopQueue
  repeat' first
    | with_reducible assumption
    | intro _
    | with_reducible apply Keeps.ite
    | with_reducible apply bumpFree_keeps
    | with_reducible apply stopPoint_keeps
    | with_reducible apply stopEnd_keeps
    | with_reducible apply putQ_keeps
    | with_reducible apply Keeps.foldl

/-- What a tile image leaves is what reading the tile leaves. -/
theorem saveTile_fst (s : State) (p pos core : Nat) : (saveTile s p pos core).1 = (eccRead s (tileFlat core 0) (2 ^ 20)).1 := by
  have fst {α β : Type} (a : α) (b : β) : (a, b).1 = a := rfl
  have e : saveTile s p pos core = ((eccRead s (tileFlat core 0) (2 ^ 20)).1,
      (0x10000 + 0x40000 * p + 0x100000 * pos, memBytes (eccRead s (tileFlat core 0) (2 ^ 20)).1.mem (tileFlat core 0) (2 ^ 20)),
      (eccRead s (tileFlat core 0) (2 ^ 20)).2 != stOk) := rfl
  exact (congrArg Prod.fst e).trans (fst _ _)

theorem saveTile_keeps {p pos core : Nat} {s₀ s : State} (hk : Keeps s₀ s) : Keeps s₀ (saveTile s p pos core).1 := by
  rw [saveTile_fst]
  exact eccRead_keeps hk

theorem saveWrite_keeps {x idx : Nat} {d : Line} {l : List SavePart} {a : State × Nat} {s₀ : State} (hk : KeepsVia Prod.fst s₀ a) :
    KeepsVia Prod.fst s₀ (saveWrite x idx d l a) := by
  induction l generalizing a with
  | nil => exact hk
  | cons c l ih =>
    obtain ⟨o, bs⟩ := c
    obtain ⟨s, st⟩ := a
    unfold saveWrite
    exact ih (writeRuns_keeps hk)

theorem saveParts_keeps {q : Nat} {d : Line} {head state : Nat} {s₀ s : State} (hk : Keeps s₀ s) :
    KeepsVia Prod.fst s₀ (saveParts s q d head state) := by
  -- stated apart, so that the kernel does not evaluate a tile's reading
  have pair {β : Type} (a : State) (b : β) (h : Keeps s₀ a) : Keeps s₀ (a, b).1 := h
  unfold saveParts
  extract_lets +onlyGivenNames w p tile firsts tiles t
  have ht : KeepsVia Prod.fst s₀ t := by
    dsimp only [t]
    split
    · exact Keeps.foldlVia (Prod.fst : State × List SavePart × Bool → State) _ hk fun a e h => pair _ _ (saveTile_keeps h)
    · exact hk
  clear_value t
  exact ht

theorem spanWaits_keeps {d : Line} {span : Nat × Nat} {b : Bool} {s₀ s : State} (hk : Keeps s₀ s) :
    KeepsVia Prod.fst s₀ (spanWaits d (s, b) span) := by
  unfold spanWaits
  refine Keeps.foldlFst (β := Bool) _ hk fun s b r h => ?_
  dsimp only
  split
  · exact callBack_keeps h
  · exact h

theorem releaseUnits_keeps {q : Nat} {s₀ s : State} (hk : Keeps s₀ s) : Keeps s₀ (releaseUnits s q) := by
  unfold releaseUnits
  repeat' first
    | intro _
    | (apply Keeps.other; (case h1 => dsimp only); (any_goals exact rfl); first | with_reducible assumption | with_reducible apply Keeps.ite | with_reducible apply resetArrays_keeps | with_reducible apply Keeps.foldl | split)

theorem savePreempt_keeps {x idx q : Nat} {d : Line} {s₀ s : State} (hk : Keeps s₀ s) : Keeps s₀ (savePreempt s x idx q d) := by
  unfold savePreempt
  extract_lets +onlyGivenNames w head state size
  have hp := saveParts_keeps (q := q) (d := d) (head := head) (state := state) hk
  generalize saveParts s q d head state = p at hp
  obtain ⟨t, parts, bad⟩ := p
  dsimp only
  have hw := saveWrite_keeps (x := x) (idx := idx) (d := d) (l := parts) (a := (t, if bad = true then stUncorrectable else stPreempted)) hp
  generalize saveWrite x idx d parts (t, if bad = true then stUncorrectable else stPreempted) = p at hw
  obtain ⟨u, st⟩ := p
  exact respond_keeps (wr_keeps (putQ_keeps (tcForget_keeps (releaseUnits_keeps hw))))

theorem nextDone_keeps {x : Nat} {s₀ s : State} (hk : Keeps s₀ s) : Keeps s₀ (nextDone s x) := by
  unfold nextDone
  repeat' first | (apply Keeps.other; (case h1 => dsimp only); (any_goals exact rfl); first | with_reducible assumption | with_reducible apply Keeps.ite | with_reducible apply Keeps.foldl | split)

theorem execPreempt_keeps {x : Fin 16} {req : Line} {pts : List PrePoint} {s₀ s : State} (hk : Keeps s₀ s) :
    KeepsRes s₀ (execPreempt x req pts s) := by
  unfold execPreempt
  split
  · exact Keeps.next hk
  · rename_i idx _
    have ha := nextDone_keeps (x := x) (ringArrive_keeps (r := .xq x) (i := idx) (l := [req]) hk)
    extract_lets +onlyGivenNames q st need
    split
    · exact Keeps.next hk
    · split
      · exact Keeps.next (respond_keeps ha)
      · split
        · exact Keeps.next (respond_keeps ha)
        · extract_lets +onlyGivenNames t w
          have ht : Keeps s₀ t := stopQueue_keeps hk
          clear_value t
          split
          · exact Keeps.next ht
          · have hw : KeepsVia Prod.fst s₀ ((saveSpans t q req).foldl (spanWaits req) (t, false)) :=
              Keeps.foldlFst (β := Bool) _ ht fun s b a h => spanWaits_keeps h
            generalize (saveSpans t q req).foldl (spanWaits req) (t, false) = p at hw
            obtain ⟨u, b⟩ := p
            dsimp only
            split
            · exact Keeps.next hw
            · exact Keeps.next (bumpFree_keeps (savePreempt_keeps (nextDone_keeps (ringArrive_keeps hw))))

theorem saveRead_keeps {d : Line} {o : Nat} {n : Nat} {s₀ s : State} (hk : Keeps s₀ s) : KeepsVia Got.s s₀ (saveRead s d o n) := by
  unfold saveRead
  repeat' first
    | with_reducible assumption
    | with_reducible apply readRuns_keeps

theorem saveReads_keeps {d : Line} {l : List (Nat × Nat)} {s₀ s : State} (hk : Keeps s₀ s) : KeepsVia Prod.fst s₀ (saveReads d l s) := by
  induction l generalizing s with
  | nil => exact hk
  | cons a l ih =>
    obtain ⟨o, n⟩ := a
    unfold saveReads
    dsimp only
    split
    · exact saveRead_keeps hk
    · exact ih (saveRead_keeps hk)

theorem restoreRmt_keeps {q : Nat} {cb : Ctx × List Byte} {s₀ s : State} (hk : Keeps s₀ s) : Keeps s₀ (restoreRmt q s cb) := by
  unfold restoreRmt
  repeat' first | (apply Keeps.other; (case h1 => dsimp only); (any_goals exact rfl); first | with_reducible assumption | with_reducible apply Keeps.ite | with_reducible apply Keeps.foldl | split)

theorem restoreCore_keeps {q : Nat} {tile : Bool} {core : Nat} {cells image : List Byte} {s₀ s : State} (hk : Keeps s₀ s) :
    Keeps s₀ (restoreCore q tile core cells image s) := by
  unfold restoreCore
  dsimp only
  split
  · exact memWrite_keeps (memWrite_keeps (wakeCore_keeps hk))
  · exact memWrite_keeps (wakeCore_keeps hk)

theorem execRestore_keeps {x : Fin 16} {req : Line} {s₀ s : State} (hk : Keeps s₀ s) : KeepsRes s₀ (execRestore x req s) := by
  unfold execRestore
  split
  · exact Keeps.next hk
  · extract_lets +onlyGivenNames q answer
    have hans (s : State) (status used : Nat) (h : Keeps s₀ s) : KeepsRes s₀ (answer s status used) :=
      Keeps.next (respond_keeps (nextDone_keeps (ringArrive_keeps h)))
    clear_value answer
    split
    · exact Keeps.next hk
    · split
      · exact hans _ _ _ hk
      · extract_lets +onlyGivenNames g hd
        have hg : KeepsVia Got.s s₀ g := saveRead_keeps hk
        clear_value g
        split
        · exact Keeps.next hg
        · split
          · exact hans _ _ _ hg
          · split
            · exact hans _ _ _ hg
            · extract_lets +onlyGivenNames p n size tile cores w c ctxs open_ a i st
              have hc : KeepsVia Prod.fst s₀ c := saveReads_keeps hg
              have ha : KeepsVia Prod.fst s₀ a := saveReads_keeps hc
              have hi : KeepsVia Prod.fst s₀ i := saveReads_keeps ha
              clear_value st i a open_ ctxs c
              split
              · exact Keeps.next hi
              · split
                · exact hans _ _ _ hi
                · refine hans _ _ _ (tailCheck_keeps (wr_keeps (wr_keeps (wr_keeps (Keeps.foldl _ (putQ_keeps (Keeps.foldl _ (Keeps.foldl _ hi
                    fun s k h => restoreCore_keeps h) fun s k h => restoreRmt_keeps h)) fun s k h => ?_)))))
                  exact Keeps.ite (addShares_keeps h) h

end Sys2Proof.Machine
end

