-- ==== Sys2Proof/Laws/KeepsDies.lean ====
section
/-! SUPPORT. Keeps lemmas for Machine/Dies.lean (the compute dies): each meaning and operation leaves the queue of waiting commands
alone, only adds to the outbox, and keeps the canonical memory and the eight fuse records. -/

namespace Sys2Proof.Machine

theorem execArrayDrainEnd_keeps {d : DieNo} {c : CoreNo} {array : Fin 8} {s₀ s : State} (hk : Keeps s₀ s) : KeepsRes s₀ (execArrayDrainEnd d c array s) := by
  unfold execArrayDrainEnd
  repeat' first
    | with_reducible assumption
    | (intro s1; refine Keeps.cut (s₀ := s₀) s1 ?_ fun h1 => ?_; rotate_left; clear_value s1; rotate_left; unfold s1; clear s1)
    | (intro x1; clear_value x1)
    | lift_lets
    | with_reducible apply arrayIdle_keeps
    | with_reducible apply closeJoin_keeps
    | with_reducible apply unstall_keeps
    | with_reducible apply Keeps.next
    | split

theorem execArrayStall_keeps {d : DieNo} {c : CoreNo} {stage : Fin 5} {s₀ s : State} (hk : Keeps s₀ s) : KeepsRes s₀ (execArrayStall d c stage s) := by
  unfold execArrayStall
  repeat' first
    | (intro s1; refine Keeps.cut (s₀ := s₀) s1 ?_ fun h1 => ?_; rotate_left; clear_value s1; rotate_left; unfold s1; clear s1)
    | (intro x1; clear_value x1)
    | lift_lets
    | with_reducible apply Keeps.next
    | split
    | (apply Keeps.other; (case h1 => dsimp only); (any_goals exact rfl); first | with_reducible assumption | with_reducible apply Keeps.ite | with_reducible apply incSat_keeps | with_reducible apply wr_keeps | with_reducible apply raiseIf_keeps | with_reducible apply Keeps.foldl | split)

theorem execArrayAbort_keeps {d : DieNo} {c : CoreNo} {block : BitVec 32} {s₀ s : State} (hk : Keeps s₀ s) : KeepsRes s₀ (execArrayAbort d c block s) := by
  unfold execArrayAbort
  repeat' first
    | with_reducible assumption
    | (intro s1; refine Keeps.cut (s₀ := s₀) s1 ?_ fun h1 => ?_; rotate_left; clear_value s1; rotate_left; unfold s1; clear s1)
    | (intro x1; clear_value x1)
    | lift_lets
    | refine readRecords_ended (by assumption) ?_
    | refine readRecords_ready (by assumption) ?_
    | with_reducible apply mmUpTo_keeps
    | with_reducible apply incSat_keeps
    | with_reducible apply resetArrays_keeps
    | with_reducible apply endShare_keeps
    | with_reducible apply modCtx_keeps
    | with_reducible apply raise_keeps
    | with_reducible apply stopShare_keeps
    | with_reducible apply Keeps.next
    | split

theorem execArrayClearCounts_keeps {d : DieNo} {s₀ s : State} (hk : Keeps s₀ s) : KeepsRes s₀ (execArrayClearCounts d s) := by
  unfold execArrayClearCounts
  repeat' first
    | with_reducible assumption
    | with_reducible apply wr_keeps
    | with_reducible apply Keeps.next

theorem execBeatMeterInterval_keeps {d : DieNo} {a : WingNo} {mean : BitVec 16} {s₀ s : State} (hk : Keeps s₀ s) : KeepsRes s₀ (execBeatMeterInterval d a mean s) := by
  unfold execBeatMeterInterval
  repeat' first
    | (intro s1; refine Keeps.cut (s₀ := s₀) s1 ?_ fun h1 => ?_; rotate_left; clear_value s1; rotate_left; unfold s1; clear s1)
    | (intro x1; clear_value x1)
    | lift_lets
    | with_reducible apply Keeps.next
    | split
    | (apply Keeps.other; (case h1 => dsimp only); (any_goals exact rfl); first | with_reducible assumption | with_reducible apply Keeps.ite | with_reducible apply wr_keeps | with_reducible apply Keeps.foldl | split)

theorem execBeatClearExt_keeps {d : DieNo} {a : WingNo} {s₀ s : State} (hk : Keeps s₀ s) : KeepsRes s₀ (execBeatClearExt d a s) := by
  unfold execBeatClearExt
  repeat' first
    | with_reducible assumption
    | with_reducible apply wr_keeps
    | with_reducible apply Keeps.next

theorem execDieWrapClear_keeps {d : DieNo} {s₀ s : State} (hk : Keeps s₀ s) : KeepsRes s₀ (execDieWrapClear d s) := by
  unfold execDieWrapClear
  repeat' first
    | with_reducible assumption
    | with_reducible apply wr_keeps
    | with_reducible apply Keeps.next

theorem execWingRefresh_keeps {d : DieNo} {a : WingNo} {bank : Fin 32} {row : Fin 1024} {s₀ s : State} (hk : Keeps s₀ s) : KeepsRes s₀ (execWingRefresh d a bank row s) := by
  unfold execWingRefresh
  repeat' first
    | (intro s1; refine Keeps.cut (s₀ := s₀) s1 ?_ fun h1 => ?_; rotate_left; clear_value s1; rotate_left; unfold s1; clear s1)
    | intro _
    | lift_lets
    | with_reducible apply Keeps.next
    | split
    | (apply Keeps.other; (case h1 => dsimp only); (any_goals exact rfl); first | with_reducible assumption | with_reducible apply Keeps.ite | with_reducible apply eccRead_keeps | with_reducible apply Keeps.foldl | refine Keeps.fst (by assumption) ?_ | split)

theorem execRefreshIntervalChange_keeps {d : DieNo} {a : WingNo} {hottest : BitVec 8} {s₀ s : State} (hk : Keeps s₀ s) : KeepsRes s₀ (execRefreshIntervalChange d a hottest s) := by
  unfold execRefreshIntervalChange
  repeat' first
    | with_reducible assumption
    | with_reducible apply Keeps.ite
    | with_reducible apply followHeat_keeps
    | with_reducible apply Keeps.next

theorem execCopyStall_keeps {d : DieNo} {cl : ClusterNo} {s₀ s : State} (hk : Keeps s₀ s) : KeepsRes s₀ (execCopyStall d cl s) := by
  unfold execCopyStall
  repeat' first
    | with_reducible assumption
    | with_reducible apply raise_keeps
    | with_reducible apply incSat_keeps
    | with_reducible apply Keeps.next
    | split

theorem execMemClearCounts_keeps {d : DieNo} {s₀ s : State} (hk : Keeps s₀ s) : KeepsRes s₀ (execMemClearCounts d s) := by
  unfold execMemClearCounts
  repeat' first
    | with_reducible assumption
    | intro _
    | with_reducible apply wr_keeps
    | with_reducible apply Keeps.foldl
    | with_reducible apply Keeps.next

theorem dropCount_keeps {f : Fld} {s₀ s : State} (hk : Keeps s₀ s) : Keeps s₀ (dropCount s f) := by
  unfold dropCount
  repeat' first
    | with_reducible assumption
    | with_reducible apply setBit_keeps
    | with_reducible apply incSat_keeps

theorem leaveBuffer_keeps {input : Nat} {vc : Nat} {p : Packet} {s₀ s : State} (hk : Keeps s₀ s) : Keeps s₀ (leaveBuffer s input vc p) := by
  unfold leaveBuffer
  repeat' first
    | with_reducible assumption
    | with_reducible apply emit_keeps

theorem portDown_keeps {port : Nat} {lost : Nat} {s₀ s : State} (hk : Keeps s₀ s) : Keeps s₀ (portDown s port lost) := by
  unfold portDown
  repeat' first
    | intro _
    | (apply Keeps.other; (case h1 => dsimp only); (any_goals exact rfl); first | with_reducible assumption | with_reducible apply Keeps.ite | with_reducible apply leaveBuffer_keeps | with_reducible apply setBit_keeps | with_reducible apply incSat_keeps | with_reducible apply wr_keeps | with_reducible apply raiseIf_keeps | with_reducible apply Keeps.foldl | split)

theorem losePorts_keeps {s₀ s : State} (hk : Keeps s₀ s) : Keeps s₀ (losePorts s) := by
  unfold losePorts
  repeat' first
    | with_reducible assumption
    | intro _
    | with_reducible apply Keeps.ite
    | with_reducible apply portDown_keeps
    | with_reducible apply Keeps.foldl

theorem wingOffNow_keeps {w : Nat} {s₀ s : State} (hk : Keeps s₀ s) : Keeps s₀ (wingOffNow s w) := by
  unfold wingOffNow
  repeat' first | (apply Keeps.other; (case h1 => dsimp only); (any_goals exact rfl); first | with_reducible assumption | with_reducible apply Keeps.ite | with_reducible apply zeroRange_keeps | with_reducible apply wr_keeps | with_reducible apply setRefresh_keeps | with_reducible apply setWing_keeps | with_reducible apply Keeps.foldl | split)

theorem linksDown_keeps {d : Nat} {s₀ s : State} (hk : Keeps s₀ s) : Keeps s₀ (linksDown s d) := by
  unfold linksDown
  repeat' first
    | with_reducible assumption
    | intro _
    | with_reducible apply Keeps.ite
    | with_reducible apply showLink_keeps
    | with_reducible apply Keeps.foldl

theorem dieOffNow_keeps {d : Nat} {s₀ s : State} (hk : Keeps s₀ s) : Keeps s₀ (dieOffNow s d) := by
  unfold dieOffNow
  repeat' first
    | with_reducible assumption
    | intro _
    | with_reducible apply Keeps.ite
    | with_reducible apply wingOffNow_keeps
    | with_reducible apply zeroRange_keeps
    | with_reducible apply wr_keeps
    | with_reducible apply linksDown_keeps
    | with_reducible apply Keeps.foldl

theorem selfRefresh_keeps {d : Nat} {s₀ s : State} (hk : Keeps s₀ s) : Keeps s₀ (selfRefresh s d) := by
  unfold selfRefresh
  repeat' first
    | with_reducible assumption
    | intro _
    | with_reducible apply Keeps.ite
    | with_reducible apply wr_keeps
    | with_reducible apply Keeps.foldl

theorem retireDie_keeps {d : Nat} {origin : Nat} {s₀ s : State} (hk : Keeps s₀ s) : Keeps s₀ (retireDie s d origin) := by
  unfold retireDie
  repeat' first
    | with_reducible assumption
    | intro _
    | with_reducible apply Keeps.ite
    | with_reducible apply setUnit_keeps
    | with_reducible apply losePorts_keeps
    | with_reducible apply raise_keeps
    | with_reducible apply dieOffNow_keeps
    | with_reducible apply Keeps.foldl

theorem recordRetired_keeps {d : Nat} {s₀ s : State} (hk : Keeps s₀ s) : Keeps s₀ (recordRetired s d) := by
  unfold recordRetired
  split
  · exact hk
  · split
    · rename_i h
      exact ⟨hk.pending, hk.outbox, hk.free, hk.mem, fun _ => by simp only [List.length_append, List.length_singleton]; omega⟩
    · exact setBit_keeps (Keeps.other hk rfl rfl rfl rfl rfl)

end Sys2Proof.Machine
end

