-- ==== Sys2Proof/Laws/KeepsStacks.lean ====
section
/-! SUPPORT. Keeps lemmas for Machine/Stacks.lean (the memory stacks and far memory): each meaning and operation leaves the queue of waiting commands
alone, only adds to the outbox, and keeps the canonical memory and the eight fuse records. -/

namespace Sys2Proof.Machine

theorem spareCount_keeps {w : Nat} {s₀ s : State} (hk : Keeps s₀ s) : Keeps s₀ (spareCount s w) := by
  unfold spareCount
  repeat' first
    | with_reducible assumption
    | with_reducible apply Keeps.ite
    | with_reducible apply wr_keeps
    | with_reducible apply setBit_keeps

theorem copyRow_keeps {row : Nat} {s₀ s : State} (hk : Keeps s₀ s) : Keeps s₀ (copyRow s row) := by
  unfold copyRow
  repeat' first
    | with_reducible assumption
    | intro _
    | with_reducible apply countCe_keeps
    | with_reducible apply Keeps.foldl

theorem dropSpare_keeps {row : Nat} {s₀ s : State} (hk : Keeps s₀ s) : Keeps s₀ (dropSpare s row) := by
  unfold dropSpare
  repeat' first
    | intro _
    | (apply Keeps.other; (case h1 => dsimp only); (any_goals exact rfl); first | with_reducible assumption | with_reducible apply Keeps.ite | with_reducible apply wr_keeps | with_reducible apply Keeps.foldl | split)

theorem execStkPatrol_keeps {w : StackNo} {s₀ s : State} (hk : Keeps s₀ s) : KeepsRes s₀ (execStkPatrol w s) := by
  unfold execStkPatrol
  repeat' first
    | with_reducible assumption
    | intro _
    | with_reducible apply countCe_keeps
    | with_reducible apply countUe_keeps
    | with_reducible apply Keeps.foldl
    | with_reducible apply Keeps.next
    | split

theorem rowDone_keeps {row : Nat} {s₀ s : State} (hk : Keeps s₀ s) : Keeps s₀ (rowDone s row) := by
  unfold rowDone
  apply Keeps.other hk <;> rfl

theorem fillSpare_keeps {i row cause spare : Nat} {s₀ s : State} (hk : Keeps s₀ s) : Keeps s₀ (fillSpare s i row cause spare) :=
  wr_keeps (wr_keeps (wr_keeps (wr_keeps (wr_keeps (wr_keeps hk)))))

theorem remapRow_keeps {w : StackNo} {row cause spare : Nat} {e : Option Nat} {s₀ s : State} (hk : Keeps s₀ s) :
    Keeps s₀ (remapRow s w row cause spare e) := by
  cases e with
  | some e => exact bumpFree_keeps (spareCount_keeps (fillSpare_keeps (rowDone_keeps (dropSpare_keeps (copyRow_keeps hk)))))
  | none =>
    unfold remapRow
    have k := rowDone_keeps (row := row) hk
    exact Keeps.ite k (raise_keeps (by apply Keeps.other k <;> rfl))

theorem execRowRemap_keeps {w : StackNo} {s₀ s : State} (hk : Keeps s₀ s) : KeepsRes s₀ (execRowRemap w s) := by
  unfold execRowRemap
  repeat' first
    | with_reducible apply Keeps.next
    | with_reducible assumption
    | with_reducible apply remapRow_keeps
    | dsimp only
    | split

theorem execStkRefreshChange_keeps {w : StackNo} {temp : BitVec 8} {s₀ s : State} (hk : Keeps s₀ s) : KeepsRes s₀ (execStkRefreshChange w temp s) := by
  unfold execStkRefreshChange
  repeat' first
    | with_reducible assumption
    | with_reducible apply Keeps.ite
    | with_reducible apply wr_keeps
    | with_reducible apply Keeps.next

theorem execSelfRefreshExit_keeps {w : StackNo} {s₀ s : State} (hk : Keeps s₀ s) : KeepsRes s₀ (execSelfRefreshExit w s) := by
  unfold execSelfRefreshExit
  repeat' first
    | with_reducible assumption
    | with_reducible apply wakeDie_keeps
    | with_reducible apply Keeps.next
    | split

theorem execStkFailed_keeps {w : StackNo} {s₀ s : State} (hk : Keeps s₀ s) : KeepsRes s₀ (execStkFailed w s) := by
  unfold execStkFailed
  repeat' first
    | with_reducible assumption
    | with_reducible apply Keeps.ite
    | with_reducible apply raise_keeps
    | with_reducible apply retireMark_keeps
    | with_reducible apply wr_keeps
    | with_reducible apply losePorts_keeps
    | with_reducible apply recordRetired_keeps
    | with_reducible apply retireDie_keeps
    | with_reducible apply Keeps.next

theorem repairRow_keeps {row : Nat} {s₀ s : State} (hk : Keeps s₀ s) : KeepsVia Prod.fst s₀ (repairRow s row) := by
  unfold repairRow
  repeat' first | (apply Keeps.other; (case h1 => dsimp only); (any_goals exact rfl); first | with_reducible assumption | with_reducible apply Keeps.ite | with_reducible apply wr_keeps | with_reducible apply Keeps.foldl | refine Keeps.fst (by assumption) ?_ | split)

theorem repairChannel_keeps {w : Nat} {ch : Nat} {s₀ s : State} (hk : Keeps s₀ s) : Keeps s₀ (repairChannel s w ch) := by
  unfold repairChannel
  repeat' first
    | with_reducible assumption
    | intro _
    | lift_lets
    | with_reducible apply wr_keeps
    | with_reducible apply repairRow_keeps
    | with_reducible apply Keeps.foldl
    | with_reducible apply Keeps.foldlFst
    | split
    | dsimp only

theorem execStkInit_keeps {w : StackNo} {s₀ s : State} (hk : Keeps s₀ s) : KeepsRes s₀ (execStkInit w s) := by
  unfold execStkInit
  repeat' first
    | (intro s1; refine Keeps.cut (s₀ := s₀) s1 ?_ fun h1 => ?_; rotate_left; clear_value s1; rotate_left; unfold s1; clear s1)
    | intro _
    | lift_lets
    | with_reducible apply Keeps.next
    | split
    | (apply Keeps.other; (case h1 => dsimp only); (any_goals exact rfl); first | with_reducible assumption | with_reducible apply Keeps.ite | with_reducible apply wr_keeps | with_reducible apply spareCount_keeps | with_reducible apply repairChannel_keeps | with_reducible apply zeroRange_keeps | with_reducible apply Keeps.foldl | split)

theorem execStkClearCounts_keeps {w : StackNo} {s₀ s : State} (hk : Keeps s₀ s) : KeepsRes s₀ (execStkClearCounts w s) := by
  unfold execStkClearCounts
  repeat' first
    | with_reducible assumption
    | intro _
    | with_reducible apply wr_keeps
    | with_reducible apply Keeps.foldl
    | with_reducible apply Keeps.next

theorem execStkPprGo_keeps {w : StackNo} {kind : Bool} {row : BitVec 16} {s₀ s : State} (hk : Keeps s₀ s) : KeepsRes s₀ (execStkPprGo w kind row s) := by
  unfold execStkPprGo
  repeat' first
    | with_reducible assumption
    | (intro s1; refine Keeps.cut (s₀ := s₀) s1 ?_ fun h1 => ?_; rotate_left; clear_value s1; rotate_left; unfold s1; clear s1)
    | lift_lets
    | with_reducible apply wr_keeps
    | with_reducible apply setBit_keeps
    | with_reducible apply Keeps.next
    | split

theorem execPprDone_keeps {w : StackNo} {fails : Bool} {s₀ s : State} (hk : Keeps s₀ s) : KeepsRes s₀ (execPprDone w fails s) := by
  unfold execPprDone
  repeat' first
    | with_reducible assumption
    | (intro s1; refine Keeps.cut (s₀ := s₀) s1 ?_ fun h1 => ?_; rotate_left; clear_value s1; rotate_left; unfold s1; clear s1)
    | intro _
    | lift_lets
    | with_reducible apply wr_keeps
    | with_reducible apply Keeps.next
    | split

theorem execFarEnable_keeps {v : Bool} {s₀ s : State} (hk : Keeps s₀ s) : KeepsRes s₀ (execFarEnable v s) := by
  unfold execFarEnable
  repeat' first
    | with_reducible assumption
    | intro _
    | lift_lets
    | with_reducible apply wr_keeps
    | with_reducible apply bringIn_keeps
    | with_reducible apply Keeps.foldl
    | with_reducible apply Keeps.next
    | split

theorem farFail_keeps {i : Nat} {w : FarWrite} {s₀ s : State} (hk : Keeps s₀ s) : Keeps s₀ (farFail s i w) := by
  unfold farFail
  repeat' first
    | with_reducible assumption
    | intro _
    | with_reducible apply Keeps.ite
    | with_reducible apply memWrite_keeps
    | with_reducible apply incSat_keeps
    | with_reducible apply modCtx_keeps
    | with_reducible apply saveFailed_keeps
    | with_reducible apply sendPacket_keeps
    | with_reducible apply Keeps.foldl
    | (apply Keeps.other; (case h1 => dsimp only); (any_goals exact rfl))

theorem farFailAll_keeps {f : Nat} {first : Bool} {s₀ s : State} (hk : Keeps s₀ s) : Keeps s₀ (farFailAll s f first) := by
  unfold farFailAll
  repeat' first
    | intro _
    | (apply Keeps.other; (case h1 => dsimp only); (any_goals exact rfl); first | with_reducible assumption | with_reducible apply Keeps.ite | with_reducible apply bumpFree_keeps | with_reducible apply farFail_keeps | with_reducible apply Keeps.foldl | split)

theorem execFarAccessTimeout_keeps {f : FarPort} {s₀ s : State} (hk : Keeps s₀ s) : KeepsRes s₀ (execFarAccessTimeout f s) := by
  unfold execFarAccessTimeout
  repeat' first
    | with_reducible apply Keeps.next
    | split
    | (apply Keeps.other; (case h1 => dsimp only); (any_goals exact rfl); first | with_reducible assumption | with_reducible apply Keeps.ite | with_reducible apply farFailAll_keeps | with_reducible apply Keeps.foldl | split)

theorem execFarLinkDown_keeps {f : FarPort} {s₀ s : State} (hk : Keeps s₀ s) : KeepsRes s₀ (execFarLinkDown f s) := by
  unfold execFarLinkDown
  repeat' first
    | with_reducible assumption
    | with_reducible apply wr_keeps
    | with_reducible apply raise_keeps
    | with_reducible apply farFailAll_keeps
    | with_reducible apply incSat_keeps
    | with_reducible apply Keeps.next
    | split

theorem execFarLinkUp_keeps {f : FarPort} {rate : Fin 4} {width : BitVec 5} {s₀ s : State} (hk : Keeps s₀ s) : KeepsRes s₀ (execFarLinkUp f rate width s) := by
  unfold execFarLinkUp
  repeat' first
    | with_reducible assumption
    | with_reducible apply wr_keeps
    | with_reducible apply Keeps.next
    | split

theorem execFarWriteComplete_keeps {f : FarPort} {s₀ s : State} (hk : Keeps s₀ s) : KeepsRes s₀ (execFarWriteComplete f s) := by
  unfold execFarWriteComplete
  repeat' first
    | intro _
    | with_reducible apply Keeps.next
    | split
    | (apply Keeps.other; (case h1 => dsimp only); (any_goals exact rfl); first | with_reducible assumption | with_reducible apply Keeps.ite | with_reducible apply memWrite_keeps | with_reducible apply sendReplies_keeps | split)

theorem execFarPortRetrain_keeps {f : FarPort} {rate : Fin 4} {width : BitVec 5} {device : W64} {s₀ s : State} (hk : Keeps s₀ s) : KeepsRes s₀ (execFarPortRetrain f rate width device s) := by
  unfold execFarPortRetrain
  repeat' first
    | with_reducible assumption
    | with_reducible apply farFailAll_keeps
    | with_reducible apply wr_keeps
    | with_reducible apply raise_keeps
    | with_reducible apply incSat_keeps
    | with_reducible apply Keeps.next
    | split

end Sys2Proof.Machine
end

