-- ==== Sys2Proof/Laws/KeepsLinks.lean ====
section
/-! SUPPORT. Keeps lemmas for Machine/Links.lean (the die to die links): each meaning and operation leaves the queue of waiting commands
alone, only adds to the outbox, and keeps the canonical memory and the eight fuse records. -/

namespace Sys2Proof.Machine

theorem storeLink_keeps {n : Nat} {mask : Nat} {s₀ s : State} (hk : Keeps s₀ s) : Keeps s₀ (storeLink s n mask) := by
  unfold storeLink
  repeat' first
    | with_reducible assumption
    | intro _
    | with_reducible apply wr_keeps
    | with_reducible apply bumpUnit_keeps
    | with_reducible apply Keeps.foldl

theorem linkOut_keeps {n : Nat} {full : Bool} {s₀ s : State} (hk : Keeps s₀ s) : Keeps s₀ (linkOut s n full) := by
  unfold linkOut
  repeat' first
    | with_reducible assumption
    | with_reducible apply Keeps.ite
    | with_reducible apply showLink_keeps
    | with_reducible apply retireMark_keeps
    | with_reducible apply raise_keeps
    | with_reducible apply recordRetired_keeps
    | with_reducible apply retireDie_keeps

theorem dueTest_keeps {r : Nat} {g : Nat} {s₀ s : State} (hk : Keeps s₀ s) : Keeps s₀ (dueTest s r g) := by
  unfold dueTest
  repeat' first | (apply Keeps.other; (case h1 => dsimp only); (any_goals exact rfl); first | with_reducible assumption | with_reducible apply Keeps.ite | with_reducible apply Keeps.foldl | split)

theorem execTcnReplay_keeps {d : DieNo} {f : BadFlit} {s₀ s : State} (hk : Keeps s₀ s) : KeepsRes s₀ (execTcnReplay d f s) := by
  unfold execTcnReplay
  repeat' first
    | (intro s1; refine Keeps.cut (s₀ := s₀) s1 ?_ fun h1 => ?_; rotate_left; clear_value s1; rotate_left; unfold s1; clear s1)
    | (intro x1; clear_value x1)
    | lift_lets
    | with_reducible apply Keeps.next
    | split
    | (apply Keeps.other; (case h1 => dsimp only); (any_goals exact rfl); first | with_reducible assumption | with_reducible apply Keeps.ite | with_reducible apply incSat_keeps | with_reducible apply emit_keeps | with_reducible apply dueTest_keeps | with_reducible apply Keeps.foldl | split)

theorem execTcnLaneTest_keeps {d : DieNo} {r : LinkRecv} {g : Fin 16} {t : LaneTest} {s₀ s : State} (hk : Keeps s₀ s) : KeepsRes s₀ (execTcnLaneTest d r g t s) := by
  unfold execTcnLaneTest
  repeat' first
    | (intro s1; refine Keeps.cut (s₀ := s₀) s1 ?_ fun h1 => ?_; rotate_left; clear_value s1; rotate_left; unfold s1; clear s1)
    | intro _
    | lift_lets
    | with_reducible apply Keeps.next
    | split
    | (apply Keeps.other; (case h1 => dsimp only); (any_goals exact rfl); first | with_reducible assumption | with_reducible apply Keeps.ite | with_reducible apply putRepair_keeps | with_reducible apply raise_keeps | with_reducible apply incSat_keeps | with_reducible apply wr_keeps | with_reducible apply storeLink_keeps | with_reducible apply linkOut_keeps | with_reducible apply showLink_keeps | with_reducible apply Keeps.foldl | split)

theorem execTcnRetrain_keeps {d : DieNo} {e : EdgeNo} {s₀ s : State} (hk : Keeps s₀ s) : KeepsRes s₀ (execTcnRetrain d e s) := by
  unfold execTcnRetrain
  repeat' first
    | with_reducible assumption
    | with_reducible apply startTraining_keeps
    | with_reducible apply Keeps.next

theorem testEnd_keeps {r : Nat} {ts : List LaneTest} {s₀ s : State} (hk : Keeps s₀ s) : KeepsVia Prod.fst s₀ (testEnd s r ts) := by
  unfold testEnd
  repeat' first
    | intro _
    | with_reducible apply Keeps.foldlFst
    | (apply Keeps.other; (case h1 => dsimp only); (any_goals exact rfl); first | with_reducible assumption | with_reducible apply Keeps.ite | with_reducible apply putRepair_keeps | with_reducible apply raiseIf_keeps | with_reducible apply incSat_keeps | with_reducible apply Keeps.foldl | refine Keeps.fst (by assumption) ?_ | split)

theorem retireTrained_keeps {n : Nat} {mask : Nat} {passed : Nat} {s₀ s : State} (hk : Keeps s₀ s) : Keeps s₀ (retireTrained s n mask passed) := by
  unfold retireTrained
  repeat' first
    | with_reducible assumption
    | intro _
    | with_reducible apply Keeps.ite
    | with_reducible apply wr_keeps
    | with_reducible apply incSat_keeps
    | with_reducible apply raiseIf_keeps
    | with_reducible apply Keeps.foldl

theorem execTcnTraining_keeps {d : DieNo} {e : EdgeNo} {mine : List LaneTest} {theirs : List LaneTest} {got : Bool} {gave : Bool} {s₀ s : State} (hk : Keeps s₀ s) : KeepsRes s₀ (execTcnTraining d e mine theirs got gave s) := by
  unfold execTcnTraining
  repeat' first
    | intro _
    | lift_lets
    | with_reducible apply Keeps.next
    | with_reducible apply Keeps.fault
    | split
    | (apply Keeps.other; (case h1 => dsimp only); (any_goals exact rfl); first | with_reducible assumption | with_reducible apply Keeps.ite | with_reducible apply testEnd_keeps | with_reducible apply retireTrained_keeps | with_reducible apply incSat_keeps | with_reducible apply wr_keeps | with_reducible apply raise_keeps | with_reducible apply setBit_keeps | with_reducible apply storeLink_keeps | with_reducible apply linkOut_keeps | with_reducible apply showLink_keeps | with_reducible apply Keeps.foldl | refine Keeps.fst (by assumption) ?_ | split)

theorem execTcnMarginMeasure_keeps {d : DieNo} {r : LinkRecv} {ms : List Margin} {s₀ s : State} (hk : Keeps s₀ s) : KeepsRes s₀ (execTcnMarginMeasure d r ms s) := by
  unfold execTcnMarginMeasure
  repeat' first
    | intro _
    | lift_lets
    | with_reducible apply Keeps.next
    | split
    | (apply Keeps.other; (case h1 => dsimp only); (any_goals exact rfl); first | with_reducible assumption | with_reducible apply Keeps.ite | with_reducible apply wr_keeps | with_reducible apply dueTest_keeps | with_reducible apply raise_keeps | with_reducible apply setBit_keeps | with_reducible apply Keeps.foldl | split)

theorem failOutstanding_keeps {site : Nat} {q : Nat} {idx : Nat} {s₀ s : State} (hk : Keeps s₀ s) : Keeps s₀ (failOutstanding s site q idx) := by
  unfold failOutstanding
  repeat' first
    | with_reducible assumption
    | with_reducible apply putQ_keeps
    | with_reducible apply incSat_keeps
    | with_reducible apply finishCtx_keeps

theorem failSite_keeps {site : Nat} {s₀ s : State} (hk : Keeps s₀ s) : Keeps s₀ (failSite s site) := by
  unfold failSite
  repeat' first
    | with_reducible assumption
    | intro _
    | with_reducible apply failOutstanding_keeps
    | with_reducible apply Keeps.foldl

theorem siteDark_keeps {site : Nat} {state : Nat} {s₀ s : State} (hk : Keeps s₀ s) : Keeps s₀ (siteDark s site state) := by
  unfold siteDark
  repeat' first | (apply Keeps.other; (case h1 => dsimp only); (any_goals exact rfl); first | with_reducible assumption | with_reducible apply Keeps.ite | with_reducible apply wr_keeps | with_reducible apply Keeps.foldl | split)

theorem siteFalls_keeps {site : Nat} {state : Nat} {s₀ s : State} (hk : Keeps s₀ s) : Keeps s₀ (siteFalls s site state) := by
  unfold siteFalls
  repeat' first
    | with_reducible assumption
    | with_reducible apply raise_keeps
    | with_reducible apply siteDark_keeps
    | with_reducible apply failSite_keeps
    | with_reducible apply incSat_keeps

theorem execUciSiteEnable_keeps {site : SiteNo} {v : Bool} {s₀ s : State} (hk : Keeps s₀ s) : KeepsRes s₀ (execUciSiteEnable site v s) := by
  unfold execUciSiteEnable
  repeat' first
    | with_reducible assumption
    | (intro s1; refine Keeps.cut (s₀ := s₀) s1 ?_ fun h1 => ?_; rotate_left; clear_value s1; rotate_left; unfold s1; clear s1)
    | (intro x1; clear_value x1)
    | lift_lets
    | with_reducible apply wr_keeps
    | with_reducible apply bringIn_keeps
    | with_reducible apply siteDark_keeps
    | with_reducible apply siteFalls_keeps
    | with_reducible apply failSite_keeps
    | with_reducible apply Keeps.next
    | split

theorem execUciIdentity_keeps {site : SiteNo} {rate : Fin 4} {lanes : Fin 65} {modules : Fin 5} {msg : UciIdentity} {s₀ s : State} (hk : Keeps s₀ s) : KeepsRes s₀ (execUciIdentity site rate lanes modules msg s) := by
  unfold execUciIdentity
  repeat' first
    | with_reducible assumption
    | (intro s1; refine Keeps.cut (s₀ := s₀) s1 ?_ fun h1 => ?_; rotate_left; clear_value s1; rotate_left; unfold s1; clear s1)
    | (intro x1; clear_value x1)
    | lift_lets
    | with_reducible apply wr_keeps
    | with_reducible apply raise_keeps
    | with_reducible apply Keeps.next
    | split

theorem execUciRetrain_keeps {site : SiteNo} {s₀ s : State} (hk : Keeps s₀ s) : KeepsRes s₀ (execUciRetrain site s) := by
  unfold execUciRetrain
  repeat' first
    | with_reducible assumption
    | with_reducible apply siteFalls_keeps
    | with_reducible apply Keeps.next
    | split

theorem execUciSiteDown_keeps {site : SiteNo} {s₀ s : State} (hk : Keeps s₀ s) : KeepsRes s₀ (execUciSiteDown site s) := by
  unfold execUciSiteDown
  repeat' first
    | with_reducible assumption
    | with_reducible apply siteFalls_keeps
    | with_reducible apply Keeps.next
    | split

theorem execUciL1Entry_keeps {site : SiteNo} {s₀ s : State} (hk : Keeps s₀ s) : KeepsRes s₀ (execUciL1Entry site s) := by
  unfold execUciL1Entry
  repeat' first
    | with_reducible apply Keeps.next
    | split
    | (apply Keeps.other; (case h1 => dsimp only); (any_goals exact rfl); first | with_reducible assumption | with_reducible apply Keeps.ite | with_reducible apply Keeps.foldl | split)

theorem execUciAnswer_keeps {site : SiteNo} {q : QueueNo} {idx : BitVec 32} {status : BitVec 8} {low : Bool} {high : Bool} {result0 : W64} {s₀ s : State} (hk : Keeps s₀ s) : KeepsRes s₀ (execUciAnswer site q idx status low high result0 s) := by
  unfold execUciAnswer
  repeat' first
    | with_reducible assumption
    | with_reducible apply modCtx_keeps
    | with_reducible apply Keeps.next
    | split

theorem execUciDieRequest_keeps {site : SiteNo} {q : QueueNo} {idx : BitVec 32} {write : Bool} {va : W64} {n : BitVec 12} {data : List Byte} {s₀ s : State} (hk : Keeps s₀ s) : KeepsRes s₀ (execUciDieRequest site q idx write va n data s) := by
  unfold execUciDieRequest
  repeat' first
    | with_reducible apply Keeps.next
    | split
    | dsimp only
    | (apply Keeps.other; (case h1 => dsimp only); (any_goals exact rfl); first | with_reducible assumption | with_reducible apply Keeps.ite | with_reducible apply emit_keeps | with_reducible apply incSat_keeps | with_reducible apply writeVa_keeps | with_reducible apply stopShare_keeps | with_reducible apply readVa_keeps | with_reducible apply Keeps.foldl | refine Keeps.fst (by assumption) ?_ | split)

theorem execUciCommandTimeout_keeps {site : SiteNo} {q : QueueNo} {idx : BitVec 32} {s₀ s : State} (hk : Keeps s₀ s) : KeepsRes s₀ (execUciCommandTimeout site q idx s) := by
  unfold execUciCommandTimeout
  repeat' first
    | with_reducible assumption
    | with_reducible apply failOutstanding_keeps
    | with_reducible apply Keeps.next
    | split

end Sys2Proof.Machine
end

