-- ==== Sys2Proof/Laws/KeepsWire.lean ====
section
/-! SUPPORT. Keeps lemmas for Machine/Wire.lean (the lane words and flits): each meaning and operation leaves the queue of waiting commands
alone, only adds to the outbox, and keeps the canonical memory and the eight fuse records. -/

namespace Sys2Proof.Machine

theorem sendFlits_keeps {n f i : Nat} {flits : List LaneFlit} {s₀ s : State} (hk : Keeps s₀ s) : Keeps s₀ (sendFlits s n f i flits) := by
  unfold sendFlits
  repeat' first
    | with_reducible apply emit_keeps
    | (apply Keeps.other; (case h1 => dsimp only); (any_goals exact rfl); with_reducible assumption)

theorem launch_keeps {port : Nat} {n : Nat} {p : Packet} {s₀ s : State} (hk : Keeps s₀ s) : Keeps s₀ (launch s port n p) := by
  unfold launch
  repeat' first | (apply Keeps.other; (case h1 => dsimp only); (any_goals exact rfl); first | with_reducible assumption | with_reducible apply Keeps.ite | with_reducible apply sendFlits_keeps | with_reducible apply emit_keeps | with_reducible apply Keeps.foldl | split)

end Sys2Proof.Machine
end

