-- ==== Sys2Proof/Laws/KeepsFabric.lean ====
section
/-! SUPPORT. Keeps lemmas for Machine/Fabric.lean (the fabric): each meaning and operation leaves the queue of waiting commands
alone, only adds to the outbox, and keeps the canonical memory and the eight fuse records. -/

namespace Sys2Proof.Machine

theorem putBankState_keeps {b : Nat} {v : Nat} {s₀ s : State} (hk : Keeps s₀ s) : Keeps s₀ (putBankState s b v) := by
  unfold putBankState
  repeat' first
    | with_reducible assumption
    | with_reducible apply wr_keeps

theorem putBankHold_keeps {b : Nat} {v : Nat} {s₀ s : State} (hk : Keeps s₀ s) : Keeps s₀ (putBankHold s b v) := by
  unfold putBankHold
  repeat' first
    | with_reducible assumption
    | with_reducible apply wr_keeps

theorem unitTakes_keeps {p : Packet} {s₀ s : State} (hk : Keeps s₀ s) : Keeps s₀ (unitTakes s p) := by
  unfold unitTakes
  repeat' first | (apply Keeps.other; (case h1 => dsimp only); (any_goals exact rfl); first | with_reducible assumption | with_reducible apply Keeps.ite | with_reducible apply rmtCount_keeps | with_reducible apply emit_keeps | with_reducible apply Keeps.foldl | split)

theorem arrive_keeps {p : TcnPkt} {s₀ s : State} (hk : Keeps s₀ s) : Keeps s₀ (arrive s p) := by
  unfold arrive
  repeat' first
    | with_reducible assumption
    | with_reducible apply launch_keeps
    | with_reducible apply unitTakes_keeps
    | split

theorem carry_keeps {hold : Bool} {p : TcnPkt} {s₀ s : State} (hk : Keeps s₀ s) : Keeps s₀ (carry s hold p) := by
  unfold carry
  repeat' first | (apply Keeps.other; (case h1 => dsimp only); (any_goals exact rfl); first | with_reducible assumption | with_reducible apply Keeps.ite | with_reducible apply arrive_keeps | with_reducible apply Keeps.foldl | split)

theorem tcnPass_keeps {hold : Bool} {s₀ s : State} (hk : Keeps s₀ s) : Keeps s₀ (tcnPass hold s) := by
  unfold tcnPass
  repeat' first
    | intro _
    | (apply Keeps.other; (case h1 => dsimp only); (any_goals exact rfl); first | with_reducible assumption | with_reducible apply Keeps.ite | with_reducible apply carry_keeps | with_reducible apply Keeps.foldl | split)

theorem tcnRun_keeps {hold : Bool} {passes : Nat} {s₀ s : State} (hk : Keeps s₀ s) : Keeps s₀ (tcnRun hold passes s) := by
  induction passes generalizing s with
  | zero => exact hk
  | succ n ih =>
    unfold tcnRun
    exact Keeps.ite hk (ih (tcnPass_keeps hk))

theorem tcnDrain_keeps {hold : Bool} {s₀ s : State} (hk : Keeps s₀ s) : Keeps s₀ (tcnDrain hold s) := by
  unfold tcnDrain
  repeat' first
    | with_reducible assumption
    | with_reducible apply tcnRun_keeps

theorem deliver_keeps {input : Nat} {p : Packet} {s₀ s : State} (hk : Keeps s₀ s) : Keeps s₀ (deliver s input p) := by
  unfold deliver
  repeat' first
    | with_reducible assumption
    | intro _
    | with_reducible apply incSat_keeps
    | with_reducible apply sendPacket_keeps
    | with_reducible apply carry_keeps
    | with_reducible apply Keeps.foldl
    | split

theorem putOut_keeps {src : Nat} {port : Nat} {p : Packet} {s₀ s : State} (hk : Keeps s₀ s) : Keeps s₀ (putOut s src port p) := by
  unfold putOut
  repeat' first | (apply Keeps.other; (case h1 => dsimp only); (any_goals exact rfl); first | with_reducible assumption | with_reducible apply Keeps.ite | with_reducible apply bumpFree_keeps | with_reducible apply carry_keeps | with_reducible apply Keeps.foldl | split)

theorem takePartner_keeps {node cls i : Nat} {s₀ s t : State} (e : takePartner s node cls = some (t, i)) (hk : Keeps s₀ s) : Keeps s₀ t := by
  unfold takePartner at e
  extract_lets fr at e
  split at e
  · cases e
  · cases e
    apply Keeps.other
    case h1 => dsimp only
    any_goals exact rfl
    exact wr_keeps (wr_keeps (wr_keeps (wr_keeps (wr_keeps hk))))

theorem takeSlot_keeps {p : Packet} {s₀ s t : State} (e : takeSlot s p = .go t) (hk : Keeps s₀ s) : Keeps s₀ t := by
  unfold takeSlot at e
  split at e
  · cases e; exact hk
  · extract_lets use at e
    have hu : ∀ s i, Keeps s₀ s → Keeps s₀ (use s i) := fun s i h => incSat_keeps (Keeps.other h rfl rfl rfl rfl rfl)
    clear_value use
    split at e
    · extract_lets w at e
      split at e
      · cases e; exact hu _ _ hk
      · cases e
    · split at e
      · rename_i e'
        cases e; exact hu _ _ (takePartner_keeps e' hk)
      · cases e

theorem freeSlot_keeps {i : Nat} {s₀ s : State} (hk : Keeps s₀ s) : Keeps s₀ (freeSlot s i) := by
  unfold freeSlot
  repeat' first
    | with_reducible assumption
    | with_reducible apply wr_keeps

theorem injFail_keeps {own : InjOwner} {s₀ s : State} (hk : Keeps s₀ s) : Keeps s₀ (injFail s own) := by
  unfold injFail
  repeat' first
    | with_reducible assumption
    | with_reducible apply rmtFail_keeps
    | with_reducible apply collTimeout_keeps
    | split

theorem tryInject_keeps {own : InjOwner} {p : Packet} {s₀ s t : State} (e : tryInject s own p = .done t) (hk : Keeps s₀ s) : Keeps s₀ t := by
  unfold tryInject at e
  extract_lets p1 at e
  have hd : ∀ f, Keeps s₀ (dropCount s f) := fun f => dropCount_keeps hk
  split at e
  · cases e; exact injFail_keeps (hd _)
  · split at e
    · cases e
    · split at e
      · split at e
        · cases e; exact injFail_keeps (hd _)
        · split at e
          split at e
          · cases e; exact hd _
          · split at e
            · cases e; exact putOut_keeps hk
            · cases e
      · split at e
        · cases e; exact injFail_keeps (hd _)
        · split at e
          split at e
          · cases e; exact hk
          · split at e
            · cases e
            · cases e
            · rename_i e'
              have h1 := takeSlot_keeps e' hk
              split at e
              · cases e; exact dropCount_keeps h1
              · split at e
                · cases e; exact putOut_keeps h1
                · cases e

theorem injectFirst_keeps {l : List (InjOwner × Packet)} {s₀ s : State} (hk : Keeps s₀ s) : Keeps s₀ (injectFirst l s) := by
  induction l generalizing s with
  | nil => exact hk
  | cons x l ih =>
    obtain ⟨own, p⟩ := x
    unfold injectFirst
    extract_lets t
    have ht : Keeps s₀ t := Keeps.other hk rfl rfl rfl rfl rfl
    clear_value t
    split
    · rename_i e
      exact tryInject_keeps e ht
    · exact ih hk
    · exact incWrap_keeps (Keeps.other ht rfl rfl rfl rfl rfl)

theorem execPacketInject_keeps {s₀ s : State} (hk : Keeps s₀ s) : KeepsRes s₀ (execPacketInject s) := by
  unfold execPacketInject
  repeat' first
    | with_reducible assumption
    | with_reducible apply pullReq_keeps
    | with_reducible apply injectFirst_keeps
    | with_reducible apply Keeps.next

theorem execPartnerEntryWait_keeps {s₀ s : State} (hk : Keeps s₀ s) : KeepsRes s₀ (execPartnerEntryWait s) := by
  unfold execPartnerEntryWait
  repeat' first
    | with_reducible apply Keeps.next
    | split
    | (apply Keeps.other; (case h1 => dsimp only); (any_goals exact rfl); first | with_reducible assumption | with_reducible apply Keeps.ite | with_reducible apply Keeps.foldl | refine takeSlot_keeps (by assumption) ?_ | split)

theorem forward_keeps {input : Nat} {vc : Nat} {port : Nat} {p : Packet} {s₀ s : State} (hk : Keeps s₀ s) : Keeps s₀ (forward s input vc port p) := by
  unfold forward
  repeat' first | (apply Keeps.other; (case h1 => dsimp only); (any_goals exact rfl); first | with_reducible assumption | with_reducible apply Keeps.ite | with_reducible apply leaveBuffer_keeps | with_reducible apply dropCount_keeps | with_reducible apply putOut_keeps | with_reducible apply Keeps.foldl | split)

theorem execPacketRoute_keeps {port : Fin 5} {p : Packet} {ue space : Bool} {s₀ s : State} (hk : Keeps s₀ s) :
    KeepsRes s₀ (execPacketRoute port p ue space s) := by
  unfold execPacketRoute
  extract_lets vc drop
  have hd : ∀ f, KeepsRes s₀ (drop f) := fun f => Keeps.next (leaveBuffer_keeps (dropCount_keeps hk))
  clear_value drop
  repeat' first
    | exact hd _
    | with_reducible apply Keeps.next
    | split
    | (apply Keeps.other; (case h1 => dsimp only); (any_goals exact rfl); first | with_reducible assumption | with_reducible apply Keeps.ite | exact hd _ | with_reducible apply leaveBuffer_keeps | with_reducible apply dropCount_keeps | with_reducible apply deliver_keeps | with_reducible apply forward_keeps | with_reducible apply Keeps.foldl | split)

theorem drainWaits_keeps {fuel port : Nat} {s₀ s : State} (hk : Keeps s₀ s) : Keeps s₀ (drainWaits fuel port s) := by
  induction fuel generalizing s with
  | zero => exact hk
  | succ n ih =>
    unfold drainWaits
    split
    · exact hk
    · rename_i w _
      have h := leaveBuffer_keeps (input := w.input) (vc := w.vc) (p := w.pkt) (s := { s with fabWaits := s.fabWaits.erase w })
        (Keeps.other hk rfl rfl rfl rfl rfl)
      exact ih (Keeps.ite (dropCount_keeps h) (putOut_keeps h))

theorem execCreditReturn_keeps {port : Fin 5} {vc : Fin 16} {units : BitVec 20} {s₀ s : State} (hk : Keeps s₀ s) : KeepsRes s₀ (execCreditReturn port vc units s) := by
  unfold execCreditReturn
  repeat' first
    | with_reducible apply Keeps.next
    | split
    | (apply Keeps.other; (case h1 => dsimp only); (any_goals exact rfl); first | with_reducible assumption | with_reducible apply Keeps.ite | with_reducible apply drainWaits_keeps | with_reducible apply Keeps.foldl | split)

theorem execWindowAck_keeps {node : BitVec 14} {cls : Fin 4} {s₀ s : State} (hk : Keeps s₀ s) : KeepsRes s₀ (execWindowAck node cls s) := by
  unfold execWindowAck
  repeat' first
    | with_reducible assumption
    | with_reducible apply freeSlot_keeps
    | with_reducible apply Keeps.next
    | split

theorem execWindowSlotRelease_keeps {i : Fin 4096} {s₀ s : State} (hk : Keeps s₀ s) : KeepsRes s₀ (execWindowSlotRelease i s) := by
  unfold execWindowSlotRelease
  repeat' first
    | with_reducible assumption
    | with_reducible apply freeSlot_keeps
    | with_reducible apply Keeps.next

theorem execResidenceDrop_keeps {n : BitVec 32} {s₀ s : State} (hk : Keeps s₀ s) : KeepsRes s₀ (execResidenceDrop n s) := by
  unfold execResidenceDrop
  repeat' first
    | with_reducible apply Keeps.next
    | split
    | (apply Keeps.other; (case h1 => dsimp only); (any_goals exact rfl); first | with_reducible assumption | with_reducible apply Keeps.ite | with_reducible apply leaveBuffer_keeps | with_reducible apply dropCount_keeps | with_reducible apply Keeps.foldl | split)

theorem execPortDown_keeps {port : Fin 5} {lost : BitVec 16} {s₀ s : State} (hk : Keeps s₀ s) : KeepsRes s₀ (execPortDown port lost s) := by
  unfold execPortDown
  repeat' first
    | with_reducible assumption
    | with_reducible apply portDown_keeps
    | with_reducible apply setBit_keeps
    | with_reducible apply incSat_keeps
    | with_reducible apply Keeps.next
    | split

theorem showRate_keeps {port : Nat} {s₀ s : State} (hk : Keeps s₀ s) : Keeps s₀ (showRate s port) := by
  unfold showRate
  repeat' first
    | with_reducible assumption
    | with_reducible apply wr_keeps

theorem lendCredits_keeps {port : Nat} {s₀ s : State} (hk : Keeps s₀ s) : Keeps s₀ (lendCredits s port) := by
  unfold lendCredits
  exact Keeps.foldlFst (β := Nat) _ hk fun t n v h => Keeps.ite h (emit_keeps h)

theorem execPortTrain_keeps {port : Fin 5} {s₀ s : State} (hk : Keeps s₀ s) : KeepsRes s₀ (execPortTrain port s) := by
  unfold execPortTrain
  repeat' first
    | (intro s1; refine Keeps.cut (s₀ := s₀) s1 ?_ fun h1 => ?_; rotate_left; clear_value s1; rotate_left; unfold s1; clear s1)
    | (intro x1; clear_value x1)
    | lift_lets
    | with_reducible apply Keeps.next
    | split
    | (apply Keeps.other; (case h1 => dsimp only); (any_goals exact rfl); first | with_reducible assumption | with_reducible apply Keeps.ite | with_reducible apply raise_keeps | with_reducible apply wr_keeps | with_reducible apply bumpFree_keeps | with_reducible apply lendCredits_keeps | with_reducible apply showRate_keeps | with_reducible apply Keeps.foldl | split)

theorem execRouteTableChange_keeps {s₀ s : State} (hk : Keeps s₀ s) : KeepsRes s₀ (execRouteTableChange s) := by
  unfold execRouteTableChange
  repeat' first
    | with_reducible apply Keeps.next
    | (apply Keeps.other; (case h1 => dsimp only); (any_goals exact rfl); first | with_reducible assumption | with_reducible apply Keeps.ite | with_reducible apply tcnDrain_keeps | with_reducible apply raiseIf_keeps | with_reducible apply Keeps.foldl | split)

theorem execFabEnable_keeps {v : Bool} {s₀ s : State} (hk : Keeps s₀ s) : KeepsRes s₀ (execFabEnable v s) := by
  unfold execFabEnable
  repeat' first
    | with_reducible assumption
    | with_reducible apply wr_keeps
    | with_reducible apply setBit_keeps
    | with_reducible apply bringIn_keeps
    | with_reducible apply Keeps.next
    | split

theorem epochWrite_keeps {b : Nat} {s₀ s : State} (hk : Keeps s₀ s) : KeepsVia Prod.fst s₀ (epochWrite s b) := by
  unfold epochWrite
  repeat' first
    | with_reducible assumption
    | with_reducible apply setBit_keeps
    | with_reducible apply incWrap_keeps
    | with_reducible apply wr_keeps
    | split

theorem execBankLoad_keeps {bank : Fin 2} {s₀ s : State} (hk : Keeps s₀ s) : KeepsRes s₀ (execBankLoad bank s) := by
  unfold execBankLoad
  repeat' first
    | with_reducible apply Keeps.next
    | split
    | (apply Keeps.other; (case h1 => dsimp only); (any_goals exact rfl); first | with_reducible assumption | with_reducible apply Keeps.ite | with_reducible apply putBankState_keeps | with_reducible apply setBit_keeps | with_reducible apply Keeps.foldl | split)

theorem readImage_keeps {a units : Nat} {s₀ s : State} (hk : Keeps s₀ s) : KeepsVia Prod.fst s₀ (readImage a units s) := by
  induction units generalizing a s with
  | zero => exact hk
  | succ n ih =>
    unfold readImage
    extract_lets g
    have hg : KeepsVia Got.s s₀ g := readFlat_keeps hk
    clear_value g
    split
    · exact hg
    · split
      · rename_i e
        exact Keeps.fst e (ih hg)
      · exact ih hg

theorem execBankLoadDone_keeps {bank : Fin 2} {s₀ s : State} (hk : Keeps s₀ s) : KeepsRes s₀ (execBankLoadDone bank s) := by
  unfold execBankLoadDone
  repeat' first
    | (intro x1; clear_value x1)
    | lift_lets
    | with_reducible apply Keeps.next
    | split
    | (apply Keeps.other; (case h1 => dsimp only); (any_goals exact rfl); first | with_reducible assumption | with_reducible apply Keeps.ite | with_reducible apply readImage_keeps | with_reducible apply putBankState_keeps | with_reducible apply raise_keeps | with_reducible apply Keeps.foldl | refine Keeps.fst (by assumption) ?_ | split)

theorem execBankFree_keeps {bank : Fin 2} {s₀ s : State} (hk : Keeps s₀ s) : KeepsRes s₀ (execBankFree bank s) := by
  unfold execBankFree
  repeat' first
    | intro _
    | with_reducible apply Keeps.next
    | split
    | (apply Keeps.other; (case h1 => dsimp only); (any_goals exact rfl); first | with_reducible assumption | with_reducible apply Keeps.ite | with_reducible apply setBit_keeps | with_reducible apply leaveBuffer_keeps | with_reducible apply dropCount_keeps | with_reducible apply putBankHold_keeps | with_reducible apply putBankState_keeps | with_reducible apply Keeps.foldl | split)

theorem execEpochHoldExpiry_keeps {bank : Fin 2} {s₀ s : State} (hk : Keeps s₀ s) : KeepsRes s₀ (execEpochHoldExpiry bank s) := by
  unfold execEpochHoldExpiry
  repeat' first
    | with_reducible assumption
    | with_reducible apply putBankHold_keeps
    | with_reducible apply Keeps.next

theorem execFabDropsClear_keeps {s₀ s : State} (hk : Keeps s₀ s) : KeepsRes s₀ (execFabDropsClear s) := by
  unfold execFabDropsClear
  repeat' first
    | with_reducible assumption
    | intro _
    | with_reducible apply wr_keeps
    | with_reducible apply Keeps.foldl
    | with_reducible apply Keeps.next

theorem execPartnerPin_keeps {i : Fin 4096} {pin : Bool} {cls : Fin 4} {node : BitVec 14} {window : BitVec 8} {s₀ s : State} (hk : Keeps s₀ s) : KeepsRes s₀ (execPartnerPin i pin cls node window s) := by
  unfold execPartnerPin
  repeat' first
    | intro _
    | lift_lets
    | with_reducible apply Keeps.next
    | split
    | (apply Keeps.other; (case h1 => dsimp only); (any_goals exact rfl); first | with_reducible assumption | with_reducible apply Keeps.ite | with_reducible apply setBit_keeps | with_reducible apply wr_keeps | with_reducible apply Keeps.foldl | split)

end Sys2Proof.Machine
end

