-- ==== Sys2Proof/Laws/KeepsOptics.lean ====
section
/-! SUPPORT. Keeps lemmas for Machine/Optics.lean (the optical engines): each meaning and operation leaves the queue of waiting commands
alone, only adds to the outbox, and keeps the canonical memory and the eight fuse records. -/

namespace Sys2Proof.Machine

theorem optStatus_keeps {n : Nat} {s₀ s : State} (hk : Keeps s₀ s) : Keeps s₀ (optStatus s n) := by
  unfold optStatus
  repeat' first
    | with_reducible assumption
    | with_reducible apply Keeps.ite
    | with_reducible apply wr_keeps
    | with_reducible apply raiseIf_keeps
    | with_reducible apply portDown_keeps
    | with_reducible apply showRate_keeps

theorem putLane_keeps {n : Nat} {f : Nat} {i : Nat} {st : Nat} {s₀ s : State} (hk : Keeps s₀ s) : Keeps s₀ (putLane s n f i st) := by
  unfold putLane
  repeat' first
    | with_reducible assumption
    | with_reducible apply wr_keeps

theorem flitsGone_keeps {k : Nat} {s₀ s : State} (hk : Keeps s₀ s) : Keeps s₀ (flitsGone s k) := by apply Keeps.other hk <;> rfl

theorem flitsLost_keeps {lost : Nat} {s₀ s : State} (hk : Keeps s₀ s) : Keeps s₀ (flitsLost s lost) :=
  Keeps.ite hk (setBit_keeps (incSat_keeps hk))

theorem handOver_keeps {n : Nat} {f : Nat} {i : Nat} {lost : Option Nat} {s₀ s : State} (hk : Keeps s₀ s) : Keeps s₀ (handOver s n f i lost) := by
  unfold handOver
  repeat' first
    | with_reducible assumption
    | lift_lets
    | intro _
    | with_reducible apply Keeps.ite
    | with_reducible apply sendFlits_keeps
    | with_reducible apply flitsLost_keeps
    | with_reducible apply flitsGone_keeps
    | with_reducible apply emit_keeps
    | split

theorem laneOut_keeps {n : Nat} {f : Nat} {i : Nat} {st : Nat} {lost : Option Nat} {s₀ s : State} (hk : Keeps s₀ s) : Keeps s₀ (laneOut s n f i st lost) := by
  unfold laneOut
  repeat' first
    | with_reducible assumption
    | with_reducible apply optStatus_keeps
    | with_reducible apply putLane_keeps
    | with_reducible apply handOver_keeps

theorem relock_keeps {n : Nat} {f : Nat} {i : Nat} {lost : Option Nat} {s₀ s : State} (hk : Keeps s₀ s) : Keeps s₀ (relock s n f i lost) := by
  unfold relock
  repeat' first | (apply Keeps.other; (case h1 => dsimp only); (any_goals exact rfl); first | with_reducible assumption | with_reducible apply Keeps.ite | with_reducible apply incSat_keeps | with_reducible apply raise_keeps | with_reducible apply laneOut_keeps | with_reducible apply Keeps.foldl | split)

theorem execFlitNak_keeps {n : OptNo} {f : FibreNo} {i : LaneNo} {mine : Bool} {ucw : Bool} {seq : BitVec 12} {s₀ s : State} (hk : Keeps s₀ s) : KeepsRes s₀ (execFlitNak n f i mine ucw seq s) := by
  unfold execFlitNak
  repeat' first
    | (intro s1; refine Keeps.cut (s₀ := s₀) s1 ?_ fun h1 => ?_; rotate_left; clear_value s1; rotate_left; unfold s1; clear s1)
    | (intro x1; clear_value x1)
    | lift_lets
    | with_reducible apply Keeps.next
    | split
    | (apply Keeps.other; (case h1 => dsimp only); (any_goals exact rfl); first | with_reducible assumption | with_reducible apply Keeps.ite | with_reducible apply incSat_keeps | with_reducible apply emit_keeps | with_reducible apply Keeps.foldl | split)

theorem execFlitAckTimeout_keeps {n : OptNo} {f : FibreNo} {i : LaneNo} {seq : BitVec 12} {s₀ s : State} (hk : Keeps s₀ s) : KeepsRes s₀ (execFlitAckTimeout n f i seq s) := by
  unfold execFlitAckTimeout
  repeat' first
    | with_reducible assumption
    | (intro x1; clear_value x1)
    | lift_lets
    | with_reducible apply emit_keeps
    | with_reducible apply Keeps.next
    | split

theorem execRingTune_keeps {n : OptNo} {dir : Fin 2} {f : FibreNo} {i : LaneNo} {heater : BitVec 16} {err : BitVec 8} {held : Bool} {s₀ s : State} (hk : Keeps s₀ s) : KeepsRes s₀ (execRingTune n dir f i heater err held s) := by
  unfold execRingTune
  repeat' first
    | with_reducible assumption
    | (intro s1; refine Keeps.cut (s₀ := s₀) s1 ?_ fun h1 => ?_; rotate_left; clear_value s1; rotate_left; unfold s1; clear s1)
    | (intro x1; clear_value x1)
    | lift_lets
    | with_reducible apply wr_keeps
    | with_reducible apply relock_keeps
    | with_reducible apply Keeps.next
    | split

theorem execFeedForwardNotice_keeps {n : OptNo} {unit : Fin 2} {kind : Fin 2} {amount : BitVec 16} {s₀ s : State} (hk : Keeps s₀ s) : KeepsRes s₀ (execFeedForwardNotice n unit kind amount s) := by
  unfold execFeedForwardNotice
  repeat' first
    | with_reducible assumption
    | intro _
    | lift_lets
    | with_reducible apply wr_keeps
    | with_reducible apply Keeps.foldl
    | with_reducible apply Keeps.next
    | split

theorem execFfStale_keeps {n : OptNo} {s₀ s : State} (hk : Keeps s₀ s) : KeepsRes s₀ (execFfStale n s) := by
  unfold execFfStale
  repeat' first
    | with_reducible assumption
    | with_reducible apply setBit_keeps
    | with_reducible apply Keeps.next

theorem execWrongLock_keeps {n : OptNo} {f : FibreNo} {i : LaneNo} {walks : RingTest} {lost : BitVec 10} {s₀ s : State} (hk : Keeps s₀ s) : KeepsRes s₀ (execWrongLock n f i walks lost s) := by
  unfold execWrongLock
  repeat' first
    | with_reducible assumption
    | (intro s1; refine Keeps.cut (s₀ := s₀) s1 ?_ fun h1 => ?_; rotate_left; clear_value s1; rotate_left; unfold s1; clear s1)
    | (intro x1; clear_value x1)
    | lift_lets
    | with_reducible apply laneOut_keeps
    | with_reducible apply incSat_keeps
    | with_reducible apply raise_keeps
    | with_reducible apply Keeps.next
    | split

theorem execWalkComplete_keeps {n : OptNo} {f : FibreNo} {i : LaneNo} {s₀ s : State} (hk : Keeps s₀ s) : KeepsRes s₀ (execWalkComplete n f i s) := by
  unfold execWalkComplete
  repeat' first
    | with_reducible assumption
    | with_reducible apply optStatus_keeps
    | with_reducible apply putLane_keeps
    | with_reducible apply Keeps.next
    | split

theorem retireWave_keeps {n : Nat} {b : Nat} {i : Nat} {s₀ s : State} (hk : Keeps s₀ s) : Keeps s₀ (retireWave s n b i) := by
  unfold retireWave
  repeat' first
    | with_reducible assumption
    | intro _
    | with_reducible apply Keeps.ite
    | with_reducible apply wr_keeps
    | with_reducible apply incSat_keeps
    | with_reducible apply laneOut_keeps
    | with_reducible apply Keeps.foldl

theorem warmSpare_keeps {n : Nat} {b : Nat} {i : Nat} {s₀ s : State} (hk : Keeps s₀ s) : Keeps s₀ (warmSpare s n b i) := by
  unfold warmSpare
  repeat' first
    | with_reducible assumption
    | with_reducible apply Keeps.ite
    | with_reducible apply wr_keeps

theorem execLaserSample_keeps {n : OptNo} {b : Fin 2} {i : LaneNo} {power : BitVec 16} {fade : BitVec 8} {s₀ s : State} (hk : Keeps s₀ s) : KeepsRes s₀ (execLaserSample n b i power fade s) := by
  unfold execLaserSample
  repeat' first
    | intro _
    | lift_lets
    | with_reducible apply Keeps.next
    | split
    | (apply Keeps.other; (case h1 => dsimp only); (any_goals exact rfl); first | with_reducible assumption | with_reducible apply Keeps.ite | with_reducible apply wr_keeps | with_reducible apply optStatus_keeps | with_reducible apply putLane_keeps | with_reducible apply raiseIf_keeps | with_reducible apply warmSpare_keeps | with_reducible apply raise_keeps | with_reducible apply setBit_keeps | with_reducible apply retireWave_keeps | with_reducible apply Keeps.foldl | split)

theorem execSpareSwitchover_keeps {n : OptNo} {i : LaneNo} {stage : Fin 3} {s₀ s : State} (hk : Keeps s₀ s) : KeepsRes s₀ (execSpareSwitchover n i stage s) := by
  unfold execSpareSwitchover
  repeat' first
    | with_reducible assumption
    | intro _
    | with_reducible apply optStatus_keeps
    | with_reducible apply putLane_keeps
    | with_reducible apply wr_keeps
    | with_reducible apply incSat_keeps
    | with_reducible apply Keeps.foldl
    | with_reducible apply Keeps.next
    | split

theorem execSuddenLoss_keeps {n : OptNo} {i : LaneNo} {lost : BitVec 10} {s₀ s : State} (hk : Keeps s₀ s) : KeepsRes s₀ (execSuddenLoss n i lost s) := by
  unfold execSuddenLoss
  repeat' first
    | with_reducible assumption
    | intro _
    | with_reducible apply warmSpare_keeps
    | with_reducible apply wr_keeps
    | with_reducible apply laneOut_keeps
    | with_reducible apply retireWave_keeps
    | with_reducible apply Keeps.foldl
    | with_reducible apply Keeps.next
    | split

theorem execBerInterval_keeps {n : OptNo} {f : FibreNo} {i : LaneNo} {db : BitVec 8} {high : Bool} {corrected : BitVec 32} {ucws : BitVec 32} {lost : BitVec 10} {s₀ s : State} (hk : Keeps s₀ s) : KeepsRes s₀ (execBerInterval n f i db high corrected ucws lost s) := by
  unfold execBerInterval
  repeat' first
    | with_reducible apply Keeps.next
    | split
    | (apply Keeps.other; (case h1 => dsimp only); (any_goals exact rfl); first | with_reducible assumption | with_reducible apply Keeps.ite | with_reducible apply wr_keeps | with_reducible apply incSat_keeps | with_reducible apply raise_keeps | with_reducible apply relock_keeps | with_reducible apply Keeps.foldl | split)

theorem execLaneLocked_keeps {n : OptNo} {f : FibreNo} {i : LaneNo} {node : BitVec 14} {engine : Fin 32} {s₀ s : State} (hk : Keeps s₀ s) : KeepsRes s₀ (execLaneLocked n f i node engine s) := by
  unfold execLaneLocked
  repeat' first
    | with_reducible assumption
    | (intro s1; refine Keeps.cut (s₀ := s₀) s1 ?_ fun h1 => ?_; rotate_left; clear_value s1; rotate_left; unfold s1; clear s1)
    | (intro x1; clear_value x1)
    | lift_lets
    | with_reducible apply raise_keeps
    | with_reducible apply setBit_keeps
    | with_reducible apply wr_keeps
    | with_reducible apply optStatus_keeps
    | with_reducible apply putLane_keeps
    | with_reducible apply Keeps.next
    | split

theorem execLaneLockTimeout_keeps {n : OptNo} {f : FibreNo} {i : LaneNo} {s₀ s : State} (hk : Keeps s₀ s) : KeepsRes s₀ (execLaneLockTimeout n f i s) := by
  unfold execLaneLockTimeout
  repeat' first
    | with_reducible assumption
    | with_reducible apply relock_keeps
    | with_reducible apply Keeps.next
    | split

theorem execLaneTrained_keeps {n : OptNo} {f : FibreNo} {i : LaneNo} {rtt : BitVec 16} {s₀ s : State} (hk : Keeps s₀ s) : KeepsRes s₀ (execLaneTrained n f i rtt s) := by
  unfold execLaneTrained
  repeat' first
    | with_reducible assumption
    | with_reducible apply wr_keeps
    | with_reducible apply optStatus_keeps
    | with_reducible apply putLane_keeps
    | with_reducible apply Keeps.next
    | split

theorem flitsDark_keeps {n : Nat} {s₀ s : State} (hk : Keeps s₀ s) : Keeps s₀ (flitsDark s n) := by
  unfold flitsDark
  extract_lets busy u
  have h : Keeps s₀ u := flitsLost_keeps hk
  clear_value u
  apply Keeps.other h <;> rfl

theorem optDark_keeps {n : Nat} {s₀ s : State} (hk : Keeps s₀ s) : Keeps s₀ (optDark s n) := by
  unfold optDark
  repeat' first
    | with_reducible assumption
    | with_reducible apply flitsDark_keeps
    | intro _
    | with_reducible apply Keeps.ite
    | with_reducible apply putLane_keeps
    | with_reducible apply wr_keeps
    | with_reducible apply optStatus_keeps
    | with_reducible apply Keeps.foldl

theorem optBringUp_keeps {n : Nat} {s₀ s : State} (hk : Keeps s₀ s) : Keeps s₀ (optBringUp s n) := by
  unfold optBringUp
  repeat' first
    | with_reducible assumption
    | intro _
    | with_reducible apply Keeps.ite
    | with_reducible apply optStatus_keeps
    | with_reducible apply putLane_keeps
    | with_reducible apply wr_keeps
    | with_reducible apply Keeps.foldl

theorem execOptEnable_keeps {n : OptNo} {v : Bool} {s₀ s : State} (hk : Keeps s₀ s) : KeepsRes s₀ (execOptEnable n v s) := by
  unfold execOptEnable
  repeat' first
    | with_reducible assumption
    | (intro s1; refine Keeps.cut (s₀ := s₀) s1 ?_ fun h1 => ?_; rotate_left; clear_value s1; rotate_left; unfold s1; clear s1)
    | (intro x1; clear_value x1)
    | lift_lets
    | with_reducible apply wr_keeps
    | with_reducible apply optBringUp_keeps
    | with_reducible apply optDark_keeps
    | with_reducible apply Keeps.next
    | split

theorem execOptCtlWrite_keeps {n : OptNo} {retire : BitVec 8} {spare : BitVec 8} {warn : BitVec 8} {gain : BitVec 8} {relocks : BitVec 4} {ucws : BitVec 4} {ff : Bool} {s₀ s : State} (hk : Keeps s₀ s) : KeepsRes s₀ (execOptCtlWrite n retire spare warn gain relocks ucws ff s) := by
  unfold execOptCtlWrite
  repeat' first
    | with_reducible assumption
    | (intro s1; refine Keeps.cut (s₀ := s₀) s1 ?_ fun h1 => ?_; rotate_left; clear_value s1; rotate_left; unfold s1; clear s1)
    | (intro x1; clear_value x1)
    | lift_lets
    | with_reducible apply setBit_keeps
    | with_reducible apply wr_keeps
    | with_reducible apply Keeps.next
    | split

theorem execOptCommission_keeps {n : OptNo} {mgmt : Bool} {coefs : List FfCoef} {s₀ s : State} (hk : Keeps s₀ s) : KeepsRes s₀ (execOptCommission n mgmt coefs s) := by
  unfold execOptCommission
  repeat' first
    | (intro s1; refine Keeps.cut (s₀ := s₀) s1 ?_ fun h1 => ?_; rotate_left; clear_value s1; rotate_left; unfold s1; clear s1)
    | intro _
    | lift_lets
    | with_reducible apply Keeps.next
    | split
    | (apply Keeps.other; (case h1 => dsimp only); (any_goals exact rfl); first | with_reducible assumption | with_reducible apply Keeps.ite | with_reducible apply setBit_keeps | with_reducible apply wr_keeps | with_reducible apply Keeps.foldl | split)

theorem execOptClear_keeps {n : OptNo} {s₀ s : State} (hk : Keeps s₀ s) : KeepsRes s₀ (execOptClear n s) := by
  unfold execOptClear
  repeat' first
    | with_reducible assumption
    | intro _
    | with_reducible apply wr_keeps
    | with_reducible apply Keeps.foldl
    | with_reducible apply Keeps.next

end Sys2Proof.Machine
end

