-- ==== Sys2Proof/Laws/KeepsMirror.lean ====
section
/-! SUPPORT. Keeps lemmas for Machine/Mirror.lean (mirroring and admission): each meaning and operation leaves the queue of waiting commands
alone, only adds to the outbox, and keeps the canonical memory and the eight fuse records. -/

namespace Sys2Proof.Machine

/-- The state that the path test for a mirror message leaves. -/
theorem mirPath_fails {node : Nat} {s₀ s t : State} (e : mirPath s node = .fails t) (hk : Keeps s₀ s) : Keeps s₀ t := by
  unfold mirPath at e
  split at e
  · injection e with e; subst e; exact dropCount_keeps hk
  · split at e
    · cases e
    · dsimp only at e
      split at e
      · injection e with e; subst e; exact dropCount_keeps hk
      · split at e <;> cases e

theorem mirPath_lost {node : Nat} {s₀ s t : State} (e : mirPath s node = .lost t) (hk : Keeps s₀ s) : Keeps s₀ t := by
  unfold mirPath at e
  split at e
  · cases e
  · split at e
    · cases e
    · dsimp only at e
      split at e
      · cases e
      · split at e
        · cases e
        · injection e with e; subst e; exact dropCount_keeps hk

theorem mirAnswer_keeps {node : Nat} {o : Out} {s₀ w s : State} (hw : Keeps s₀ w) (hk : Keeps s₀ s) : Keeps s₀ (mirAnswer w s node o) := by
  unfold mirAnswer
  split
  · exact emit_keeps hk
  · exact hw
  · rename_i e; exact mirPath_fails e hk
  · rename_i e; exact mirPath_lost e hk

theorem putPhase_keeps {job : Nat} {phase : Nat} {s₀ s : State} (hk : Keeps s₀ s) : Keeps s₀ (putPhase s job phase) := by
  unfold putPhase
  repeat' first
    | with_reducible assumption
    | with_reducible apply wr_keeps

theorem landingEnd_keeps {job : Nat} {status : Nat} {s₀ s : State} (hk : Keeps s₀ s) : Keeps s₀ (landingEnd s job status) := by
  unfold landingEnd
  repeat' first
    | intro _
    | (apply Keeps.other; (case h1 => dsimp only); (any_goals exact rfl); first | with_reducible assumption | with_reducible apply Keeps.ite | with_reducible apply putQ_keeps | with_reducible apply putPhase_keeps | with_reducible apply Keeps.foldl | split)

theorem landingFail_keeps {job : Nat} {status : Nat} {reason : Nat} {s₀ s : State} (hk : Keeps s₀ s) : Keeps s₀ (landingFail s job status reason) := by
  unfold landingFail
  repeat' first
    | with_reducible assumption
    | with_reducible apply landingEnd_keeps
    | with_reducible apply wr_keeps

theorem landingDone_keeps {job : Nat} {l : Landing} {s₀ s : State} (hk : Keeps s₀ s) : Keeps s₀ (landingDone s job l) := by
  unfold landingDone
  repeat' first | (apply Keeps.other; (case h1 => dsimp only); (any_goals exact rfl); first | with_reducible assumption | with_reducible apply Keeps.ite | with_reducible apply wr_keeps | with_reducible apply incWrap_keeps | with_reducible apply landingEnd_keeps | with_reducible apply Keeps.foldl | split)

theorem landingStep_keeps {job : Nat} {l : Landing} {step : Nat} {phase : Nat} {s₀ s : State} (hk : Keeps s₀ s) : Keeps s₀ (landingStep s job l step phase) := by
  unfold landingStep
  repeat' first | (apply Keeps.other; (case h1 => dsimp only); (any_goals exact rfl); first | with_reducible assumption | with_reducible apply Keeps.ite | with_reducible apply putPhase_keeps | with_reducible apply Keeps.foldl | split)

theorem execLanding_keeps {q : QueueNo} {idx : BitVec 32} {s₀ s : State} (hk : Keeps s₀ s) : KeepsRes s₀ (execLanding q idx s) := by
  unfold execLanding
  repeat' first
    | with_reducible assumption
    | (intro s1; refine Keeps.cut (s₀ := s₀) s1 ?_ fun h1 => ?_; rotate_left; clear_value s1; rotate_left; unfold s1; clear s1)
    | (intro x1; clear_value x1)
    | lift_lets
    | with_reducible apply modCtx_keeps
    | with_reducible apply wr_keeps
    | with_reducible apply landingStep_keeps
    | with_reducible apply Keeps.next
    | split

theorem mirDrop_keeps {s₀ s : State} (hk : Keeps s₀ s) : KeepsRes s₀ (mirDrop s) := Keeps.next (incSat_keeps hk)

theorem tellBarrier_keeps {job : Nat} {l : Landing} {s₀ s : State} (hk : Keeps s₀ s) : Keeps s₀ (tellBarrier s job l) := by
  unfold tellBarrier
  split
  · refine emit_keeps ?_
    apply Keeps.other; (case h1 => dsimp only)
    any_goals exact rfl
    exact hk
  · exact hk

theorem tellBarriers_keeps {s₀ s : State} (hk : Keeps s₀ s) : Keeps s₀ (tellBarriers s) :=
  Keeps.foldl _ hk fun _ _ h => tellBarrier_keeps h

theorem toBarrier_keeps {job : Nat} {l : Landing} {step phase : Nat} {s₀ s : State} (hk : Keeps s₀ s) :
    Keeps s₀ (toBarrier s job l step phase) := tellBarrier_keeps (landingStep_keeps hk)

theorem execArrival_keeps {job : JobNo} {s₀ s : State} (hk : Keeps s₀ s) : KeepsRes s₀ (execArrival job s) := by
  unfold execArrival
  repeat' first
    | with_reducible assumption
    | (intro x1; clear_value x1)
    | lift_lets
    | with_reducible apply landingFail_keeps
    | with_reducible apply toBarrier_keeps
    | with_reducible apply Keeps.next
    | split

theorem execArrivalBarrier_keeps {job : JobNo} {low : BitVec 48} {s₀ s : State} (hk : Keeps s₀ s) : KeepsRes s₀ (execArrivalBarrier job low s) := by
  unfold execArrivalBarrier
  repeat' first
    | with_reducible apply mirDrop_keeps
    | with_reducible assumption
    | with_reducible apply landingDone_keeps
    | with_reducible apply landingStep_keeps
    | with_reducible apply Keeps.next
    | split

theorem readRanges_keeps {job : Nat} {l : List (Nat × Nat)} {s₀ s : State} (hk : Keeps s₀ s) : KeepsVia Prod.fst s₀ (readRanges job l s) := by
  induction l generalizing s with
  | nil => exact hk
  | cons r rs ih =>
    unfold readRanges
    repeat' first
      | with_reducible assumption
      | (intro x1; refine Keeps.cutVia (s₀ := s₀) Got.s x1 ?_ fun h1 => ?_; rotate_left; clear_value x1; rotate_left; unfold x1; clear x1)
      | (intro x1; refine Keeps.cutVia (s₀ := s₀) Runs.s x1 ?_ fun h1 => ?_; rotate_left; clear_value x1; rotate_left; unfold x1; clear x1)
      | lift_lets
      | with_reducible apply ih
      | with_reducible apply xlRange_keeps
      | with_reducible apply readRuns_keeps
      | refine Keeps.fst (by assumption) ?_
      | split

theorem execCommit_keeps {job : JobNo} {s₀ s : State} (hk : Keeps s₀ s) : KeepsRes s₀ (execCommit job s) := by
  unfold execCommit
  repeat' first
    | with_reducible assumption
    | with_reducible apply landingFail_keeps
    | exact mirPath_fails (by assumption) (by assumption)
    | exact mirPath_lost (by assumption) (by assumption)
    | with_reducible apply readRanges_keeps
    | with_reducible apply emit_keeps
    | with_reducible apply landingStep_keeps
    | with_reducible apply Keeps.next
    | refine Keeps.fst (by assumption) ?_
    | split

theorem execLandingSeal_keeps {job : JobNo} {refused : Bool} {s₀ s : State} (hk : Keeps s₀ s) : KeepsRes s₀ (execLandingSeal job refused s) := by
  unfold execLandingSeal
  repeat' first
    | with_reducible apply mirDrop_keeps
    | with_reducible assumption
    | with_reducible apply landingFail_keeps
    | with_reducible apply incSat_keeps
    | with_reducible apply toBarrier_keeps
    | with_reducible apply Keeps.next
    | split

theorem execCommitBarrier_keeps {job : JobNo} {low : BitVec 48} {s₀ s : State} (hk : Keeps s₀ s) : KeepsRes s₀ (execCommitBarrier job low s) := by
  unfold execCommitBarrier
  repeat' first
    | with_reducible apply mirDrop_keeps
    | with_reducible assumption
    | with_reducible apply landingDone_keeps
    | with_reducible apply Keeps.next
    | split

theorem execLandingTimeout_keeps {job : JobNo} {s₀ s : State} (hk : Keeps s₀ s) : KeepsRes s₀ (execLandingTimeout job s) := by
  unfold execLandingTimeout
  repeat' first
    | with_reducible assumption
    | with_reducible apply landingFail_keeps
    | with_reducible apply Keeps.next
    | split

theorem putBuf_keeps {e : Nat} {b : Nat} {st : Nat} {landing : Nat} {s₀ s : State} (hk : Keeps s₀ s) : Keeps s₀ (putBuf s e b st landing) := by
  unfold putBuf
  repeat' first
    | with_reducible assumption
    | with_reducible apply wr_keeps

theorem emptyBuf_keeps {e : Nat} {b : Nat} {s₀ s : State} (hk : Keeps s₀ s) : Keeps s₀ (emptyBuf s e b) := by
  unfold emptyBuf
  repeat' first | (apply Keeps.other; (case h1 => dsimp only); (any_goals exact rfl); first | with_reducible assumption | with_reducible apply Keeps.ite | with_reducible apply putBuf_keeps | with_reducible apply Keeps.foldl | split)

theorem mirRefuse_keeps {node : Nat} {s₀ s : State} (hk : Keeps s₀ s) : Keeps s₀ (mirRefuse s node) := by
  unfold mirRefuse
  repeat' first
    | with_reducible assumption
    | with_reducible apply mirAnswer_keeps
    | with_reducible apply incSat_keeps

theorem execPartnerCommit_keeps {e : Fin 8} {src : BitVec 14} {key : BitVec 16} {feed : BitVec 8} {keep : BitVec 48} {n : BitVec 48} {size : W64} {offset : W64} {data : List Byte} {last : Bool} {s₀ s : State} (hk : Keeps s₀ s) : KeepsRes s₀ (execPartnerCommit e src key feed keep n size offset data last s) := by
  unfold execPartnerCommit
  repeat' first
    | with_reducible apply mirDrop_keeps
    | with_reducible apply Keeps.next
    | with_reducible apply Keeps.fault
    | split
    | dsimp only
    | (apply Keeps.other; (case h1 => dsimp only); (any_goals exact rfl); first | with_reducible assumption | with_reducible apply Keeps.ite | with_reducible apply mirRefuse_keeps | with_reducible apply putBuf_keeps | with_reducible apply writeVa_keeps | with_reducible apply Keeps.foldl | refine Keeps.fst (by assumption) ?_ | with_reducible apply mirAnswer_keeps | with_reducible apply mirAnswer_keeps | split)

theorem execCommitAbandon_keeps {e : Fin 8} {s₀ s : State} (hk : Keeps s₀ s) : KeepsRes s₀ (execCommitAbandon e s) := by
  unfold execCommitAbandon
  repeat' first
    | with_reducible assumption
    | intro _
    | with_reducible apply Keeps.ite
    | with_reducible apply emptyBuf_keeps
    | with_reducible apply Keeps.foldl
    | with_reducible apply Keeps.next

theorem execMirBufUe_keeps {e : Fin 8} {b : Fin 2} {s₀ s : State} (hk : Keeps s₀ s) : KeepsRes s₀ (execMirBufUe e b s) := by
  unfold execMirBufUe
  repeat' first
    | with_reducible assumption
    | with_reducible apply raise_keeps
    | with_reducible apply emptyBuf_keeps
    | with_reducible apply Keeps.next

theorem execPartnerLoad_keeps {e : Fin 8} {src : BitVec 14} {key : BitVec 16} {n : BitVec 48} {size : W64} {s₀ s : State} (hk : Keeps s₀ s) : KeepsRes s₀ (execPartnerLoad e src key n size s) := by
  unfold execPartnerLoad
  repeat' first
    | with_reducible apply mirDrop_keeps
    | with_reducible assumption
    | (intro x1; refine Keeps.cutVia (s₀ := s₀) VGot.s x1 ?_ fun h1 => ?_; rotate_left; clear_value x1; rotate_left; unfold x1; clear x1)
    | (intro x1; clear_value x1)
    | lift_lets
    | with_reducible apply mirRefuse_keeps
    | with_reducible apply readVa_keeps
    | with_reducible apply mirAnswer_keeps
    | with_reducible apply raise_keeps
    | with_reducible apply emptyBuf_keeps
    | with_reducible apply Keeps.next
    | split

theorem execMirEnable_keeps {v : Bool} {s₀ s : State} (hk : Keeps s₀ s) : KeepsRes s₀ (execMirEnable v s) := by
  unfold execMirEnable
  repeat' first
    | with_reducible assumption
    | (intro s1; refine Keeps.cut (s₀ := s₀) s1 ?_ fun h1 => ?_; rotate_left; clear_value s1; rotate_left; unfold s1; clear s1)
    | (intro x1; clear_value x1)
    | lift_lets
    | with_reducible apply wr_keeps
    | with_reducible apply bringIn_keeps
    | with_reducible apply Keeps.next
    | split

theorem execMirJobWrite_keeps {job : JobNo} {partner : BitVec 14} {group : BitVec 10} {bound : Bool} {enable : Bool} {s₀ s : State} (hk : Keeps s₀ s) : KeepsRes s₀ (execMirJobWrite job partner group bound enable s) := by
  unfold execMirJobWrite
  repeat' first
    | with_reducible assumption
    | with_reducible apply Keeps.ite
    | with_reducible apply wr_keeps
    | with_reducible apply setBit_keeps
    | with_reducible apply Keeps.next

theorem execMirRangeEnable_keeps {r : Fin 64} {v : Bool} {s₀ s : State} (hk : Keeps s₀ s) : KeepsRes s₀ (execMirRangeEnable r v s) := by
  unfold execMirRangeEnable
  repeat' first
    | with_reducible assumption
    | with_reducible apply wr_keeps
    | with_reducible apply setBit_keeps
    | with_reducible apply Keeps.next
    | split

theorem execMirHostEnable_keeps {e : Fin 8} {v : Bool} {s₀ s : State} (hk : Keeps s₀ s) : KeepsRes s₀ (execMirHostEnable e v s) := by
  unfold execMirHostEnable
  repeat' first
    | with_reducible assumption
    | (intro x1; clear_value x1)
    | lift_lets
    | with_reducible apply wr_keeps
    | with_reducible apply emptyBuf_keeps
    | with_reducible apply setBit_keeps
    | with_reducible apply Keeps.next
    | split

theorem execMgmtViewWrite_keeps {mgmt : Bool} {w : ViewWrite} {s₀ s : State} (hk : Keeps s₀ s) : KeepsRes s₀ (execMgmtViewWrite mgmt w s) := by
  unfold execMgmtViewWrite
  repeat' first
    | with_reducible assumption
    | with_reducible apply setBit_keeps
    | with_reducible apply wr_keeps
    | with_reducible apply Keeps.next
    | split

theorem undefineRanges_keeps {l : MirLoad} {s₀ s : State} (hk : Keeps s₀ s) : Keeps s₀ (undefineRanges s l) := by
  unfold undefineRanges
  repeat' first
    | with_reducible assumption
    | intro _
    | with_reducible apply Keeps.ite
    | with_reducible apply bumpFree_keeps
    | with_reducible apply xlRange_keeps
    | with_reducible apply memWrite_keeps
    | with_reducible apply Keeps.foldl

theorem orphan_keeps {s₀ s : State} (hk : Keeps s₀ s) : Keeps s₀ (orphan s) := by
  unfold orphan
  repeat' first | (apply Keeps.other; (case h1 => dsimp only); (any_goals exact rfl); first | with_reducible assumption | with_reducible apply Keeps.ite | with_reducible apply undefineRanges_keeps | with_reducible apply wr_keeps | with_reducible apply setBit_keeps | with_reducible apply raise_keeps | with_reducible apply putPhase_keeps | with_reducible apply incSat_keeps | with_reducible apply Keeps.foldl | split)

theorem fenceEffects_keeps {s₀ s : State} (hk : Keeps s₀ s) : Keeps s₀ (fenceEffects s) := by
  unfold fenceEffects
  repeat' first
    | with_reducible assumption
    | intro _
    | with_reducible apply Keeps.ite
    | with_reducible apply landingFail_keeps
    | with_reducible apply emptyBuf_keeps
    | with_reducible apply orphan_keeps
    | with_reducible apply Keeps.foldl

theorem execFabEpochWrite_keeps {bank : Fin 2} {s₀ s : State} (hk : Keeps s₀ s) : KeepsRes s₀ (execFabEpochWrite bank s) := by
  unfold execFabEpochWrite
  repeat' first
    | with_reducible apply Keeps.next
    | split
    | dsimp only
    | (apply Keeps.other; (case h1 => dsimp only); (any_goals exact rfl); first | with_reducible assumption | with_reducible apply Keeps.ite | with_reducible apply epochWrite_keeps | with_reducible apply wr_keeps | with_reducible apply fenceEffects_keeps | with_reducible apply Keeps.foldl | refine Keeps.fst (by assumption) ?_ | split)

theorem admitIgnored_keeps {mgmt : Bool} {s₀ s : State} (hk : Keeps s₀ s) : Keeps s₀ (admitIgnored s mgmt) := by
  unfold admitIgnored
  repeat' first
    | with_reducible assumption
    | with_reducible apply Keeps.ite
    | with_reducible apply setBit_keeps

theorem execSelfTest_keeps {mgmt : Bool} {s₀ s : State} (hk : Keeps s₀ s) : KeepsRes s₀ (execSelfTest mgmt s) := by
  unfold execSelfTest
  repeat' first
    | with_reducible assumption
    | intro _
    | lift_lets
    | with_reducible apply admitIgnored_keeps
    | with_reducible apply zeroRange_keeps
    | with_reducible apply startTraining_keeps
    | with_reducible apply wr_keeps
    | with_reducible apply Keeps.foldl
    | with_reducible apply Keeps.next
    | split

theorem execSelfTestDone_keeps {failed : List (BitVec 9)} {s₀ s : State} (hk : Keeps s₀ s) : KeepsRes s₀ (execSelfTestDone failed s) := by
  unfold execSelfTestDone
  repeat' first
    | with_reducible assumption
    | intro _
    | with_reducible apply wr_keeps
    | with_reducible apply raise_keeps
    | with_reducible apply retireMark_keeps
    | with_reducible apply Keeps.foldl
    | with_reducible apply Keeps.next
    | split

theorem askLoad_keeps {s₀ s : State} (hk : Keeps s₀ s) : Keeps s₀ (askLoad s) := by
  unfold askLoad
  repeat' first
    | (intro s1; refine Keeps.cut (s₀ := s₀) s1 ?_ fun h1 => ?_; rotate_left; clear_value s1; rotate_left; unfold s1; clear s1)
    | (intro x1; clear_value x1)
    | lift_lets
    | split
    | (apply Keeps.other; (case h1 => dsimp only); (any_goals exact rfl); first | with_reducible assumption | with_reducible apply Keeps.ite | with_reducible apply emit_keeps | with_reducible apply orphan_keeps | with_reducible apply Keeps.foldl | exact mirPath_fails (by assumption) (by assumption) | exact mirPath_lost (by assumption) (by assumption) | exact mirPath_fails (by assumption) (by assumption) | exact mirPath_lost (by assumption) (by assumption) | split)

theorem execAdmitLoad_keeps {mgmt : Bool} {job : JobNo} {n : BitVec 48} {s₀ s : State} (hk : Keeps s₀ s) : KeepsRes s₀ (execAdmitLoad mgmt job n s) := by
  unfold execAdmitLoad
  repeat' first
    | (intro s1; refine Keeps.cut (s₀ := s₀) s1 ?_ fun h1 => ?_; rotate_left; clear_value s1; rotate_left; unfold s1; clear s1)
    | (intro x1; clear_value x1)
    | lift_lets
    | with_reducible apply Keeps.next
    | split
    | (apply Keeps.other; (case h1 => dsimp only); (any_goals exact rfl); first | with_reducible assumption | with_reducible apply Keeps.ite | with_reducible apply admitIgnored_keeps | with_reducible apply putPhase_keeps | with_reducible apply wr_keeps | with_reducible apply orphan_keeps | with_reducible apply askLoad_keeps | with_reducible apply Keeps.foldl | split)

theorem writeRanges_keeps {job : Nat} {l : List (Nat × Nat)} {image : List Byte} {s₀ s : State} (hk : Keeps s₀ s) :
    KeepsVia Prod.fst s₀ (writeRanges job l image s) := by
  induction l generalizing image s with
  | nil => exact hk
  | cons r rs ih =>
    unfold writeRanges
    repeat' first
      | with_reducible assumption
      | with_reducible apply ih
      | with_reducible apply writeVa_keeps
      | refine Keeps.fst (by assumption) ?_
      | split

theorem execLoadComplete_keeps {image : List Byte} {s₀ s : State} (hk : Keeps s₀ s) : KeepsRes s₀ (execLoadComplete image s) := by
  unfold execLoadComplete
  repeat' first
    | with_reducible apply mirDrop_keeps
    | with_reducible apply Keeps.next
    | split
    | dsimp only
    | (apply Keeps.other; (case h1 => dsimp only); (any_goals exact rfl); first | with_reducible assumption | with_reducible apply Keeps.ite | with_reducible apply writeRanges_keeps | with_reducible apply orphan_keeps | with_reducible apply wr_keeps | with_reducible apply putPhase_keeps | with_reducible apply Keeps.foldl | refine Keeps.fst (by assumption) ?_ | split)

theorem execLoadRefused_keeps {s₀ s : State} (hk : Keeps s₀ s) : KeepsRes s₀ (execLoadRefused s) := by
  unfold execLoadRefused
  repeat' first
    | with_reducible apply mirDrop_keeps
    | with_reducible apply Keeps.next
    | split
    | (apply Keeps.other; (case h1 => dsimp only); (any_goals exact rfl); first | with_reducible assumption | with_reducible apply Keeps.ite | with_reducible apply raise_keeps | with_reducible apply putPhase_keeps | with_reducible apply wr_keeps | with_reducible apply incSat_keeps | with_reducible apply Keeps.foldl | split)

theorem execOrphaned_keeps {s₀ s : State} (hk : Keeps s₀ s) : KeepsRes s₀ (execOrphaned s) := by
  unfold execOrphaned
  repeat' first
    | with_reducible assumption
    | with_reducible apply orphan_keeps
    | with_reducible apply Keeps.next

theorem execAbortLoad_keeps {mgmt : Bool} {s₀ s : State} (hk : Keeps s₀ s) : KeepsRes s₀ (execAbortLoad mgmt s) := by
  unfold execAbortLoad
  repeat' first
    | (intro x1; clear_value x1)
    | lift_lets
    | with_reducible apply Keeps.next
    | split
    | (apply Keeps.other; (case h1 => dsimp only); (any_goals exact rfl); first | with_reducible assumption | with_reducible apply Keeps.ite | with_reducible apply admitIgnored_keeps | with_reducible apply wr_keeps | with_reducible apply putPhase_keeps | with_reducible apply undefineRanges_keeps | with_reducible apply Keeps.foldl | split)

theorem execRejoinComplete_keeps {s₀ s : State} (hk : Keeps s₀ s) : KeepsRes s₀ (execRejoinComplete s) := by
  unfold execRejoinComplete
  repeat' first
    | with_reducible assumption
    | with_reducible apply wr_keeps
    | with_reducible apply Keeps.next
    | split

theorem execMirAdmitTimeout_keeps {s₀ s : State} (hk : Keeps s₀ s) : KeepsRes s₀ (execMirAdmitTimeout s) := by
  unfold execMirAdmitTimeout
  repeat' first
    | with_reducible apply Keeps.next
    | split
    | (apply Keeps.other; (case h1 => dsimp only); (any_goals exact rfl); first | with_reducible assumption | with_reducible apply Keeps.ite | with_reducible apply raise_keeps | with_reducible apply wr_keeps | with_reducible apply Keeps.foldl | split)

end Sys2Proof.Machine
end

