-- ==== Sys2Proof/Laws/KeepsPower.lean ====
section
/-! SUPPORT. Keeps lemmas for Machine/Power.lean (power): each meaning and operation leaves the queue of waiting commands
alone, only adds to the outbox, and keeps the canonical memory and the eight fuse records. -/

namespace Sys2Proof.Machine

theorem sealDebug_keeps {s₀ s : State} (hk : Keeps s₀ s) : Keeps s₀ (sealDebug s) := by
  unfold sealDebug
  repeat' first | (apply Keeps.other; (case h1 => dsimp only); (any_goals exact rfl); first | with_reducible assumption | with_reducible apply Keeps.ite | with_reducible apply wr_keeps | with_reducible apply Keeps.foldl | split)

theorem dropNonce_keeps {s₀ s : State} (hk : Keeps s₀ s) : Keeps s₀ (dropNonce s) := by
  unfold dropNonce
  repeat' first | (apply Keeps.other; (case h1 => dsimp only); (any_goals exact rfl); first | with_reducible assumption | with_reducible apply Keeps.ite | with_reducible apply wr_keeps | with_reducible apply Keeps.foldl | split)

theorem eraseIde_keeps {port : Nat} {s₀ s : State} (hk : Keeps s₀ s) : Keeps s₀ (eraseIde s port) := by
  unfold eraseIde
  repeat' first | (apply Keeps.other; (case h1 => dsimp only); (any_goals exact rfl); first | with_reducible assumption | with_reducible apply Keeps.ite | with_reducible apply wr_keeps | with_reducible apply Keeps.foldl | split)

theorem bareState_keeps {keep : List Fld} {s₀ s : State} (hk : Keeps s₀ s) : Keeps s₀ (bareState s keep) := by
  unfold bareState
  extract_lets s1
  have h1 : Keeps s₀ s1 := Keeps.foldl _ hk fun s f h => farFailAll_keeps h
  clear_value s1
  exact ⟨h1.pending, h1.outbox, h1.free, fun w => wf_filter _ (h1.mem w), h1.fuse⟩

theorem enterP3_keeps {s₀ s : State} (hk : Keeps s₀ s) : Keeps s₀ (enterP3 s) := by
  unfold enterP3
  repeat' first
    | (intro s1; refine Keeps.cut (s₀ := s₀) s1 ?_ fun h1 => ?_; rotate_left; clear_value s1; rotate_left; unfold s1; clear s1)
    | lift_lets
    | (apply Keeps.other; (case h1 => dsimp only); (any_goals exact rfl); first | with_reducible assumption | with_reducible apply Keeps.ite | with_reducible apply bareState_keeps | with_reducible apply wr_keeps | with_reducible apply Keeps.foldl | split)

theorem powerLost_keeps {s₀ s : State} (hk : Keeps s₀ s) : Keeps s₀ (powerLost s) := by
  unfold powerLost
  repeat' first
    | (intro s1; refine Keeps.cut (s₀ := s₀) s1 ?_ fun h1 => ?_; rotate_left; clear_value s1; rotate_left; unfold s1; clear s1)
    | lift_lets
    | (apply Keeps.other; (case h1 => dsimp only); (any_goals exact rfl); first | with_reducible assumption | with_reducible apply Keeps.ite | with_reducible apply enterP3_keeps | with_reducible apply incSat_keeps | with_reducible apply Keeps.foldl | split)

theorem setPace_keeps {s₀ s : State} (hk : Keeps s₀ s) : Keeps s₀ (setPace s) := by
  unfold setPace
  repeat' first
    | with_reducible assumption
    | intro _
    | with_reducible apply wr_keeps
    | with_reducible apply Keeps.foldl

theorem setFrozen_keeps {s₀ s : State} (hk : Keeps s₀ s) : Keeps s₀ (setFrozen s) := by
  unfold setFrozen
  repeat' first | (apply Keeps.other; (case h1 => dsimp only); (any_goals exact rfl); first | with_reducible assumption | with_reducible apply Keeps.ite | with_reducible apply wr_keeps | with_reducible apply Keeps.foldl | split)

theorem limitStep_keeps {s₀ s : State} (hk : Keeps s₀ s) : Keeps s₀ (limitStep s) := by
  unfold limitStep
  repeat' first | (apply Keeps.other; (case h1 => dsimp only); (any_goals exact rfl); first | with_reducible assumption | with_reducible apply Keeps.ite | with_reducible apply setBit_keeps | with_reducible apply Keeps.foldl | split)

theorem execInputSample_keeps {volts : BitVec 16} {amps : BitVec 16} {bank : BitVec 16} {s₀ s : State} (hk : Keeps s₀ s) : KeepsRes s₀ (execInputSample volts amps bank s) := by
  unfold execInputSample
  repeat' first
    | (intro s1; refine Keeps.cut (s₀ := s₀) s1 ?_ fun h1 => ?_; rotate_left; clear_value s1; rotate_left; unfold s1; clear s1)
    | (intro x1; clear_value x1)
    | lift_lets
    | with_reducible apply Keeps.next
    | split
    | (apply Keeps.other; (case h1 => dsimp only); (any_goals exact rfl); first | with_reducible assumption | with_reducible apply Keeps.ite | with_reducible apply wr_keeps | with_reducible apply powerLost_keeps | with_reducible apply incSat_keeps | with_reducible apply setBit_keeps | with_reducible apply raiseIf_keeps | with_reducible apply raise_keeps | with_reducible apply setFrozen_keeps | with_reducible apply setPace_keeps | with_reducible apply limitStep_keeps | with_reducible apply Keeps.foldl | split)

theorem execBrownoutCut_keeps {draw : BitVec 16} {s₀ s : State} (hk : Keeps s₀ s) : KeepsRes s₀ (execBrownoutCut draw s) := by
  unfold execBrownoutCut
  repeat' first
    | with_reducible apply Keeps.next
    | split
    | (apply Keeps.other; (case h1 => dsimp only); (any_goals exact rfl); first | with_reducible assumption | with_reducible apply Keeps.ite | with_reducible apply setPace_keeps | with_reducible apply Keeps.foldl | split)

theorem execPowerLost_keeps {s₀ s : State} (hk : Keeps s₀ s) : KeepsRes s₀ (execPowerLost s) := by
  unfold execPowerLost
  repeat' first
    | with_reducible assumption
    | with_reducible apply powerLost_keeps
    | with_reducible apply Keeps.next
    | split

theorem execSagEnd_keeps {s₀ s : State} (hk : Keeps s₀ s) : KeepsRes s₀ (execSagEnd s) := by
  unfold execSagEnd
  repeat' first
    | with_reducible assumption
    | with_reducible apply setFrozen_keeps
    | with_reducible apply setPace_keeps
    | with_reducible apply wr_keeps
    | with_reducible apply Keeps.next
    | split

theorem execHoldupCharged_keeps {s₀ s : State} (hk : Keeps s₀ s) : KeepsRes s₀ (execHoldupCharged s) := by
  unfold execHoldupCharged
  repeat' first
    | with_reducible apply Keeps.next
    | split
    | (apply Keeps.other; (case h1 => dsimp only); (any_goals exact rfl); first | with_reducible assumption | with_reducible apply Keeps.ite | with_reducible apply setFrozen_keeps | with_reducible apply Keeps.foldl | split)

theorem execStandbyLost_keeps {s₀ s : State} (hk : Keeps s₀ s) : KeepsRes s₀ (execStandbyLost s) := by
  unfold execStandbyLost
  repeat' first
    | (intro s1; refine Keeps.cut (s₀ := s₀) s1 ?_ fun h1 => ?_; rotate_left; clear_value s1; rotate_left; unfold s1; clear s1)
    | (intro x1; clear_value x1)
    | lift_lets
    | with_reducible apply Keeps.next
    | split
    | (apply Keeps.other; (case h1 => dsimp only); (any_goals exact rfl); first | with_reducible assumption | with_reducible apply Keeps.ite | with_reducible apply raise_keeps | with_reducible apply setBit_keeps | with_reducible apply Keeps.foldl | split)

theorem execPaceWindow_keeps {d : DieNo} {a : WingNo} {arrays : Fin 513} {wanted : BitVec 16} {s₀ s : State} (hk : Keeps s₀ s) : KeepsRes s₀ (execPaceWindow d a arrays wanted s) := by
  unfold execPaceWindow
  repeat' first
    | with_reducible assumption
    | with_reducible apply incWrap_keeps
    | with_reducible apply Keeps.next

theorem notice_keeps {d : Nat} {kind : Nat} {amount : Int} {s₀ s : State} (hk : Keeps s₀ s) : Keeps s₀ (notice s d kind amount) := by
  unfold notice
  repeat' first
    | with_reducible assumption
    | intro _
    | with_reducible apply emit_keeps
    | with_reducible apply Keeps.foldl

theorem execCreditGrant_keeps {s₀ s : State} (hk : Keeps s₀ s) : KeepsRes s₀ (execCreditGrant s) := by
  unfold execCreditGrant
  repeat' first
    | (intro s1; refine Keeps.cut (s₀ := s₀) s1 ?_ fun h1 => ?_; rotate_left; clear_value s1; rotate_left; unfold s1; clear s1)
    | (intro x1; clear_value x1)
    | lift_lets
    | with_reducible apply Keeps.next
    | split
    | (apply Keeps.other; (case h1 => dsimp only); (any_goals exact rfl); first | with_reducible assumption | with_reducible apply Keeps.ite | with_reducible apply notice_keeps | with_reducible apply Keeps.foldl | split)

theorem admitArrays_keeps {w : Nat} {s₀ s : State} (hk : Keeps s₀ s) : Keeps s₀ (admitArrays s w) := by
  unfold admitArrays
  repeat' first
    | with_reducible assumption
    | intro _
    | with_reducible apply Keeps.ite
    | with_reducible apply arrayOn_keeps
    | with_reducible apply Keeps.foldl

theorem execCreditEffect_keeps {d : DieNo} {a : WingNo} {s₀ s : State} (hk : Keeps s₀ s) : KeepsRes s₀ (execCreditEffect d a s) := by
  unfold execCreditEffect
  repeat' first
    | (intro s1; refine Keeps.cut (s₀ := s₀) s1 ?_ fun h1 => ?_; rotate_left; clear_value s1; rotate_left; unfold s1; clear s1)
    | (intro x1; clear_value x1)
    | lift_lets
    | with_reducible apply Keeps.next
    | split
    | (apply Keeps.other; (case h1 => dsimp only); (any_goals exact rfl); first | with_reducible assumption | with_reducible apply Keeps.ite | with_reducible apply admitArrays_keeps | with_reducible apply wr_keeps | with_reducible apply Keeps.foldl | split)

theorem execAllowanceFall_keeps {d : DieNo} {a : WingNo} {s₀ s : State} (hk : Keeps s₀ s) : KeepsRes s₀ (execAllowanceFall d a s) := by
  unfold execAllowanceFall
  repeat' first
    | with_reducible assumption
    | with_reducible apply wr_keeps
    | with_reducible apply Keeps.next

theorem clampHit_keeps {s₀ s : State} (hk : Keeps s₀ s) : Keeps s₀ (clampHit s) := by
  unfold clampHit
  repeat' first | (apply Keeps.other; (case h1 => dsimp only); (any_goals exact rfl); first | with_reducible assumption | with_reducible apply Keeps.ite | with_reducible apply setBit_keeps | with_reducible apply incSat_keeps | with_reducible apply raiseIf_keeps | with_reducible apply Keeps.foldl | split)

theorem clampSet_keeps {key : Nat} {applies : Bool} {s₀ s : State} (hk : Keeps s₀ s) : Keeps s₀ (clampSet s key applies) := by
  unfold clampSet
  repeat' first | (apply Keeps.other; (case h1 => dsimp only); (any_goals exact rfl); first | with_reducible assumption | with_reducible apply Keeps.ite | with_reducible apply clampHit_keeps | with_reducible apply Keeps.foldl | split)

theorem execClampEpisodeEnd_keeps {s₀ s : State} (hk : Keeps s₀ s) : KeepsRes s₀ (execClampEpisodeEnd s) := by
  unfold execClampEpisodeEnd
  repeat' first
    | with_reducible apply Keeps.next
    | split
    | (apply Keeps.other; (case h1 => dsimp only); (any_goals exact rfl); first | with_reducible assumption | with_reducible apply Keeps.ite | with_reducible apply Keeps.foldl | split)

theorem voltStep_keeps {w : Nat} {s₀ s : State} (hk : Keeps s₀ s) : Keeps s₀ (voltStep s w) := by
  unfold voltStep
  repeat' first
    | with_reducible assumption
    | with_reducible apply Keeps.ite
    | with_reducible apply wr_keeps
    | with_reducible apply clampSet_keeps
    | with_reducible apply notice_keeps

theorem execOptimiserStep_keeps {d : DieNo} {a : WingNo} {mean : BitVec 16} {s₀ s : State} (hk : Keeps s₀ s) : KeepsRes s₀ (execOptimiserStep d a mean s) := by
  unfold execOptimiserStep
  repeat' first
    | (intro x1; clear_value x1)
    | lift_lets
    | with_reducible apply Keeps.next
    | split
    | (apply Keeps.other; (case h1 => dsimp only); (any_goals exact rfl); first | with_reducible assumption | with_reducible apply Keeps.ite | with_reducible apply voltStep_keeps | with_reducible apply Keeps.foldl | split)

theorem execPwrClearEvents_keeps {s₀ s : State} (hk : Keeps s₀ s) : KeepsRes s₀ (execPwrClearEvents s) := by
  unfold execPwrClearEvents
  repeat' first
    | with_reducible assumption
    | with_reducible apply wr_keeps
    | with_reducible apply Keeps.next

theorem capStep_keeps {s₀ s : State} (hk : Keeps s₀ s) : Keeps s₀ (capStep s) := by
  unfold capStep
  repeat' first
    | intro _
    | (apply Keeps.other; (case h1 => dsimp only); (any_goals exact rfl); first | with_reducible assumption | with_reducible apply Keeps.ite | with_reducible apply clampSet_keeps | with_reducible apply Keeps.foldl | split)

theorem floorStep_keeps {w : Nat} {s₀ s : State} (hk : Keeps s₀ s) : Keeps s₀ (floorStep s w) := by
  unfold floorStep
  repeat' first | (apply Keeps.other; (case h1 => dsimp only); (any_goals exact rfl); first | with_reducible assumption | with_reducible apply Keeps.ite | with_reducible apply clampSet_keeps | with_reducible apply raise_keeps | with_reducible apply setBit_keeps | with_reducible apply Keeps.foldl | split)

theorem coreOffNow_keeps {c : Nat} {s₀ s : State} (hk : Keeps s₀ s) : Keeps s₀ (coreOffNow s c) := by
  unfold coreOffNow
  repeat' first | (apply Keeps.other; (case h1 => dsimp only); (any_goals exact rfl); first | with_reducible assumption | with_reducible apply Keeps.ite | with_reducible apply zeroRange_keeps | with_reducible apply Keeps.foldl | split)

theorem meetOff_keeps {w : Nat} {s₀ s : State} (hk : Keeps s₀ s) : Keeps s₀ (meetOff s w) := by
  unfold meetOff
  repeat' first
    | with_reducible assumption
    | intro _
    | with_reducible apply Keeps.ite
    | with_reducible apply coreOffNow_keeps
    | with_reducible apply wingOffNow_keeps
    | with_reducible apply dieOffNow_keeps
    | with_reducible apply Keeps.foldl

theorem tryP1_keeps {s₀ s : State} (hk : Keeps s₀ s) : Keeps s₀ (tryP1 s) := by
  unfold tryP1
  repeat' first
    | with_reducible assumption
    | with_reducible apply Keeps.ite
    | with_reducible apply wr_keeps

theorem execUnitIdleDown_keeps {u : PowUnit} {n : Fin 3} {s₀ s : State} (hk : Keeps s₀ s) : KeepsRes s₀ (execUnitIdleDown u n s) := by
  unfold execUnitIdleDown
  repeat' first
    | (intro s1; refine Keeps.cut (s₀ := s₀) s1 ?_ fun h1 => ?_; rotate_left; clear_value s1; rotate_left; unfold s1; clear s1)
    | (intro x1; clear_value x1)
    | lift_lets
    | with_reducible apply Keeps.next
    | split
    | (apply Keeps.other; (case h1 => dsimp only); (any_goals exact rfl); first | with_reducible assumption | with_reducible apply Keeps.ite | with_reducible apply meetOff_keeps | with_reducible apply setWing_keeps | with_reducible apply tryP1_keeps | with_reducible apply wr_keeps | with_reducible apply Keeps.foldl | split)

theorem execU2IdleExpiry_keeps {d : DieNo} {c : CoreNo} {s₀ s : State} (hk : Keeps s₀ s) : KeepsRes s₀ (execU2IdleExpiry d c s) := by
  unfold execU2IdleExpiry
  repeat' first
    | (intro x1; clear_value x1)
    | lift_lets
    | with_reducible apply Keeps.next
    | split
    | (apply Keeps.other; (case h1 => dsimp only); (any_goals exact rfl); first | with_reducible assumption | with_reducible apply Keeps.ite | with_reducible apply Keeps.foldl | split)

theorem execD2IdleExpiry_keeps {d : DieNo} {s₀ s : State} (hk : Keeps s₀ s) : KeepsRes s₀ (execD2IdleExpiry d s) := by
  unfold execD2IdleExpiry
  repeat' first
    | with_reducible assumption
    | with_reducible apply selfRefresh_keeps
    | with_reducible apply wr_keeps
    | with_reducible apply Keeps.next
    | split

theorem execUnitWake_keeps {u : PowUnit} {s₀ s : State} (hk : Keeps s₀ s) : KeepsRes s₀ (execUnitWake u s) := by
  unfold execUnitWake
  repeat' first
    | with_reducible assumption
    | (intro x1; clear_value x1)
    | lift_lets
    | with_reducible apply wakeCore_keeps
    | with_reducible apply wakeCluster_keeps
    | with_reducible apply wakePanel_keeps
    | with_reducible apply wakeWing_keeps
    | with_reducible apply wakeDie_keeps
    | with_reducible apply Keeps.next
    | split

theorem execPwrDieOffWrite_keeps {mask : BitVec 40} {s₀ s : State} (hk : Keeps s₀ s) : KeepsRes s₀ (execPwrDieOffWrite mask s) := by
  unfold execPwrDieOffWrite
  repeat' first
    | with_reducible assumption
    | intro _
    | with_reducible apply Keeps.ite
    | with_reducible apply wr_keeps
    | with_reducible apply meetOff_keeps
    | with_reducible apply wakeDie_keeps
    | with_reducible apply Keeps.foldl
    | with_reducible apply Keeps.next

theorem execWingOffWrite_keeps {d : DieNo} {a : WingNo} {cores : Bool} {v : BitVec 64} {s₀ s : State} (hk : Keeps s₀ s) : KeepsRes s₀ (execWingOffWrite d a cores v s) := by
  unfold execWingOffWrite
  repeat' first
    | with_reducible assumption
    | with_reducible apply Keeps.ite
    | with_reducible apply meetOff_keeps
    | with_reducible apply wr_keeps
    | with_reducible apply Keeps.next

theorem unitsRetain_keeps {s₀ s : State} (hk : Keeps s₀ s) : Keeps s₀ (unitsRetain s) := by
  unfold unitsRetain
  repeat' first
    | intro _
    | (apply Keeps.other; (case h1 => dsimp only); (any_goals exact rfl); first | with_reducible assumption | with_reducible apply Keeps.ite | with_reducible apply setWing_keeps | with_reducible apply selfRefresh_keeps | with_reducible apply wr_keeps | with_reducible apply optDark_keeps | with_reducible apply siteDark_keeps | with_reducible apply failSite_keeps | with_reducible apply farFailAll_keeps | with_reducible apply Keeps.foldl | split)

theorem takeTarget_keeps {s₀ s : State} (hk : Keeps s₀ s) : Keeps s₀ (takeTarget s) := by
  unfold takeTarget
  repeat' first | (apply Keeps.other; (case h1 => dsimp only); (any_goals exact rfl); first | with_reducible assumption | with_reducible apply Keeps.ite | with_reducible apply clampHit_keeps | with_reducible apply wr_keeps | with_reducible apply tryP1_keeps | with_reducible apply setBit_keeps | with_reducible apply unitsRetain_keeps | with_reducible apply Keeps.foldl | split)

theorem execPstateTarget_keeps {target : Fin 4} {s₀ s : State} (hk : Keeps s₀ s) : KeepsRes s₀ (execPstateTarget target s) := by
  unfold execPstateTarget
  repeat' first
    | with_reducible assumption
    | (intro s1; refine Keeps.cut (s₀ := s₀) s1 ?_ fun h1 => ?_; rotate_left; clear_value s1; rotate_left; unfold s1; clear s1)
    | lift_lets
    | with_reducible apply wr_keeps
    | with_reducible apply takeTarget_keeps
    | with_reducible apply Keeps.next
    | split

theorem startWake_keeps {code : Option Nat} {s₀ s : State} (hk : Keeps s₀ s) : Keeps s₀ (startWake s code) := by
  unfold startWake
  repeat' first | (apply Keeps.other; (case h1 => dsimp only); (any_goals exact rfl); first | with_reducible assumption | with_reducible apply Keeps.ite | with_reducible apply incSat_keeps | with_reducible apply wr_keeps | with_reducible apply Keeps.foldl | split)

end Sys2Proof.Machine
end

