-- ==== Sys2Proof/Laws/KeepsBoot.lean ====
section
/-! SUPPORT. Keeps lemmas for Machine/Boot.lean (reset and start-up): each meaning and operation leaves the queue of waiting commands
alone, only adds to the outbox, and keeps the canonical memory and the eight fuse records. -/

namespace Sys2Proof.Machine

theorem showArb_keeps {s₀ s : State} (hk : Keeps s₀ s) : Keeps s₀ (showArb s) := by
  unfold showArb
  repeat' first
    | with_reducible assumption
    | with_reducible apply wr_keeps

theorem verifyImages_keeps {s₀ s : State} (hk : Keeps s₀ s) : Keeps s₀ (verifyImages s) := by
  unfold verifyImages
  repeat' first
    | (intro s1; refine Keeps.cut (s₀ := s₀) s1 ?_ fun h1 => ?_; rotate_left; clear_value s1; rotate_left; unfold s1; clear s1)
    | (intro x1; clear_value x1)
    | lift_lets
    | (apply Keeps.other; (case h1 => dsimp only); (any_goals exact rfl); first | with_reducible assumption | with_reducible apply Keeps.ite | with_reducible apply wr_keeps | with_reducible apply Keeps.foldl | split)

theorem writeFlash_keeps {l : List FlashWrite} {s₀ s : State} (hk : Keeps s₀ s) : Keeps s₀ (writeFlash s l) := by
  unfold writeFlash
  repeat' first
    | (apply Keeps.other; (case h1 => dsimp only); (any_goals exact rfl); first | with_reducible assumption | with_reducible apply Keeps.ite | with_reducible apply Keeps.foldl | split)

theorem bootIdentity_keeps {s₀ s : State} (hk : Keeps s₀ s) : Keeps s₀ (bootIdentity s) := by
  unfold bootIdentity
  repeat' first
    | with_reducible assumption
    | with_reducible apply wr_keeps

theorem setRoles_keeps {s₀ s : State} (hk : Keeps s₀ s) : Keeps s₀ (setRoles s) := by
  unfold setRoles
  repeat' first
    | with_reducible assumption
    | intro _
    | with_reducible apply wr_keeps
    | with_reducible apply Keeps.foldl

theorem portsChanged_keeps {was : Bool} {s₀ s : State} (hk : Keeps s₀ s) : Keeps s₀ (portsChanged was s) := by
  unfold portsChanged
  repeat' first
    | with_reducible assumption
    | with_reducible apply Keeps.ite
    | with_reducible apply dbRestart_keeps

theorem portLinkDown_keeps {p : Nat} {config : Bool} {s₀ s : State} (hk : Keeps s₀ s) : Keeps s₀ (portLinkDown s p config) := by
  unfold portLinkDown
  repeat' first
    | (apply Keeps.other; (case h1 => dsimp only); (any_goals exact rfl); first | with_reducible assumption | with_reducible apply Keeps.ite | with_reducible apply wr_keeps | with_reducible apply portsChanged_keeps | with_reducible apply setRoles_keeps | with_reducible apply Keeps.foldl | split)

theorem portLinkUp_keeps {p : Nat} {rate : Nat} {width : Nat} {cacheEn : Bool} {memEn : Bool} {s₀ s : State} (hk : Keeps s₀ s) : Keeps s₀ (portLinkUp s p rate width cacheEn memEn) := by
  unfold portLinkUp
  repeat' first
    | with_reducible assumption
    | with_reducible apply Keeps.ite
    | with_reducible apply wr_keeps
    | with_reducible apply portsChanged_keeps
    | with_reducible apply setRoles_keeps

theorem startUnits_keeps {kind : Nat} {s₀ s : State} (hk : Keeps s₀ s) : Keeps s₀ (startUnits s kind) := by
  unfold startUnits
  have ho : ∀ (s : State) x, Keeps s₀ s → Keeps s₀ { s with hst := x } := fun s x h => Keeps.other h rfl rfl rfl rfl rfl
  have ht : ∀ (s : State) x, Keeps s₀ s → Keeps s₀ { s with ticks := x } := fun s x h => Keeps.other h rfl rfl rfl rfl rfl
  extract_lets +onlyGivenNames s1 s2
  have h1 : Keeps s₀ s1 := Keeps.foldl _ hk fun s d h => Keeps.ite (recordRetired_keeps (retireDie_keeps h)) h
  clear_value s1
  have h2 : Keeps s₀ s2 := Keeps.foldl _ h1 fun s u h => Keeps.ite (setUnit_keeps h) h
  clear_value s2
  extract_lets +onlyGivenNames k3 s3
  have h3 : Keeps s₀ s3 := by
    unfold s3
    split
    · exact setBit_keeps (wr_keeps (ho _ _ h2))
    · exact h2
  clear_value s3
  extract_lets +onlyGivenNames s4 s5 s6 s7 s8 s9 s10
  have h4 : Keeps s₀ s4 := wr_keeps h3
  clear_value s4
  have h5 : Keeps s₀ s5 := Keeps.foldl _ h4 fun s d h => Keeps.ite h
    (Keeps.foldl _ (Keeps.foldl _ (wr_keeps (ht _ _ h)) fun s w h => setRefresh_keeps (wr_keeps (setWing_keeps h)))
      fun s w h => Keeps.ite h (wr_keeps h))
  clear_value s5
  have h6 : Keeps s₀ s6 := Keeps.foldl _ h5 fun s u h => startTraining_keeps h
  clear_value s6
  have h7 : Keeps s₀ s7 := Keeps.foldl _ h6 fun s n h => optBringUp_keeps (Keeps.foldl _ h fun s k h => Keeps.ite h (wr_keeps h))
  clear_value s7
  have h8 : Keeps s₀ s8 := incWrap_keeps h7
  clear_value s8
  have h9 : Keeps s₀ s9 := bringIn_keeps h8
  clear_value s9
  have h10 : Keeps s₀ s10 := wr_keeps (wr_keeps h9)
  clear_value s10
  exact setRoles_keeps (ho _ _ h10)

theorem startFail_keeps {step : Nat} {s₀ s : State} (hk : Keeps s₀ s) : Keeps s₀ (startFail s step) := by
  unfold startFail
  repeat' first
    | (apply Keeps.other; (case h1 => dsimp only); (any_goals exact rfl); first | with_reducible assumption | with_reducible apply Keeps.ite | with_reducible apply wr_keeps | with_reducible apply setBit_keeps | with_reducible apply Keeps.foldl | split)

theorem bootHubs_keeps {h0 : Bool} {h1 : Bool} {s₀ s : State} (hk : Keeps s₀ s) : Keeps s₀ (bootHubs s h0 h1) := by
  unfold bootHubs
  repeat' first
    | (apply Keeps.other; (case h1 => dsimp only); (any_goals exact rfl); first | with_reducible assumption | with_reducible apply Keeps.ite | with_reducible apply setBit_keeps | with_reducible apply wr_keeps | with_reducible apply Keeps.foldl | split)

theorem bootRegs_keeps {kind : Nat} {s₀ s : State} (hk : Keeps s₀ s) : Keeps s₀ (bootRegs s kind) := by
  have hp : ∀ (s : State) x y, Keeps s₀ s → Keeps s₀ { s with pw := x, hst := y } := fun s x y h => Keeps.other h rfl rfl rfl rfl rfl
  have hh : ∀ (s : State) x, Keeps s₀ s → Keeps s₀ { s with hst := x } := fun s x h => Keeps.other h rfl rfl rfl rfl rfl
  have hm : ∀ (s : State) x y, Keeps s₀ s → Keeps s₀ { s with msix := x, ticks := y } := fun s x y h => Keeps.other h rfl rfl rfl rfl rfl
  unfold bootRegs
  extract_lets keep p q s1 s2 u
  have h1 : Keeps s₀ s1 := bareState_keeps (hp _ _ _ hk)
  clear_value s1
  have h2 : Keeps s₀ s2 := wr_keeps (hm _ _ _ h1)
  clear_value s2
  exact Keeps.ite (hh _ _ (wr_keeps h2)) h2

theorem bootNotes_keeps {s₀ s : State} (hk : Keeps s₀ s) : Keeps s₀ (bootNotes s) := by
  have k := raiseIf_keeps (c := s.th.heldNote) (src := 0x000) (raiseIf_keeps (c := s.th.lossNote) (src := 0x003) hk)
  unfold bootNotes
  generalize raiseIf s.th.heldNote (raiseIf s.th.lossNote s 0x003) 0x000 = t at k
  exact Keeps.other k rfl rfl rfl rfl rfl

theorem bootOn_keeps {kind : Nat} {h0 h1 : Bool} {s₀ s : State} (hk : Keeps s₀ s) : Keeps s₀ (bootOn s kind h0 h1) := by
  have hq : ∀ (s : State) x, Keeps s₀ s → Keeps s₀ { s with pw := x } := fun s x h => Keeps.other h rfl rfl rfl rfl rfl
  have hh : ∀ (s : State) x, Keeps s₀ s → Keeps s₀ { s with hst := x } := fun s x h => Keeps.other h rfl rfl rfl rfl rfl
  unfold bootOn
  extract_lets bad up0 up1
  clear_value up0 up1 bad
  exact Keeps.ite (startFail_keeps (hq _ _ hk)) (Keeps.ite (wr_keeps (hh _ _ hk)) (bootNotes_keeps (startUnits_keeps (bootHubs_keeps hk))))

theorem bootFrom_keeps {kind : Nat} {h0 h1 : Bool} {s₀ s : State} (hk : Keeps s₀ s) : Keeps s₀ (bootFrom s kind h0 h1) :=
  bootOn_keeps (bootIdentity_keeps (verifyImages_keeps (bootRegs_keeps hk)))

theorem coldReset_keeps {h0 : Bool} {h1 : Bool} {s₀ s : State} (hk : Keeps s₀ s) : Keeps s₀ (coldReset s h0 h1) := by
  unfold coldReset
  repeat' first
    | with_reducible assumption
    | with_reducible apply Keeps.ite
    | with_reducible apply setBit_keeps
    | with_reducible apply bootFrom_keeps

theorem warmReset_keeps {h0 : Bool} {h1 : Bool} {s₀ s : State} (hk : Keeps s₀ s) : Keeps s₀ (warmReset s h0 h1) := by
  unfold warmReset
  repeat' first
    | with_reducible assumption
    | with_reducible apply Keeps.ite
    | with_reducible apply setBit_keeps
    | with_reducible apply bootFrom_keeps

theorem panelReset_keeps {cxl : Bool} {s₀ s : State} (hk : Keeps s₀ s) : Keeps s₀ (panelReset s cxl) := by
  unfold panelReset
  repeat' first
    | (intro s1; refine Keeps.cut (s₀ := s₀) s1 ?_ fun h1 => ?_; rotate_left; clear_value s1; rotate_left; unfold s1; clear s1)
    | lift_lets
    | (apply Keeps.other; (case h1 => dsimp only); (any_goals exact rfl); first | with_reducible assumption | with_reducible apply Keeps.ite | with_reducible apply setBit_keeps | with_reducible apply bareState_keeps | with_reducible apply startUnits_keeps | with_reducible apply Keeps.foldl | split)

theorem execColdReset_keeps {flash : List FlashWrite} {h0 : Bool} {h1 : Bool} {s₀ s : State} (hk : Keeps s₀ s) : KeepsRes s₀ (execColdReset flash h0 h1 s) := by
  unfold execColdReset
  repeat' first
    | with_reducible apply Keeps.next
    | (apply Keeps.other; (case h1 => dsimp only); (any_goals exact rfl); first | with_reducible assumption | with_reducible apply Keeps.ite | with_reducible apply coldReset_keeps | with_reducible apply writeFlash_keeps | with_reducible apply Keeps.foldl | split)

theorem execWarmReset_keeps {flash : List FlashWrite} {h0 : Bool} {h1 : Bool} {s₀ s : State} (hk : Keeps s₀ s) : KeepsRes s₀ (execWarmReset flash h0 h1 s) := by
  unfold execWarmReset
  repeat' first
    | with_reducible assumption
    | with_reducible apply warmReset_keeps
    | with_reducible apply writeFlash_keeps
    | with_reducible apply Keeps.next

theorem execPanelReset_keeps {cxl : Bool} {s₀ s : State} (hk : Keeps s₀ s) : KeepsRes s₀ (execPanelReset cxl s) := by
  unfold execPanelReset
  repeat' first
    | with_reducible assumption
    | with_reducible apply panelReset_keeps
    | with_reducible apply Keeps.next

theorem execPanelReady_keeps {ms : BitVec 16} {s₀ s : State} (hk : Keeps s₀ s) : KeepsRes s₀ (execPanelReady ms s) := by
  unfold execPanelReady
  repeat' first
    | with_reducible apply Keeps.next
    | split
    | (apply Keeps.other; (case h1 => dsimp only); (any_goals exact rfl); first | with_reducible assumption | with_reducible apply Keeps.ite | with_reducible apply wr_keeps | with_reducible apply setBit_keeps | with_reducible apply emit_keeps | with_reducible apply Keeps.foldl | split)

theorem execStartupFail_keeps {step : Fin 11} {s₀ s : State} (hk : Keeps s₀ s) : KeepsRes s₀ (execStartupFail step s) := by
  unfold execStartupFail
  repeat' first
    | with_reducible assumption
    | with_reducible apply startFail_keeps
    | with_reducible apply Keeps.next
    | split

theorem execPerstRelease_keeps {p : HostPortNo} {rate : Fin 3} {x8 : Bool} {cacheEn : Bool} {memEn : Bool} {s₀ s : State} (hk : Keeps s₀ s) : KeepsRes s₀ (execPerstRelease p rate x8 cacheEn memEn s) := by
  unfold execPerstRelease
  repeat' first
    | with_reducible apply Keeps.next
    | (apply Keeps.other; (case h1 => dsimp only); (any_goals exact rfl); first | with_reducible assumption | with_reducible apply Keeps.ite | with_reducible apply portLinkUp_keeps | with_reducible apply Keeps.foldl | split)

theorem execHostLinkUp_keeps {p : HostPortNo} {rate : Fin 3} {x8 : Bool} {cacheEn : Bool} {memEn : Bool} {s₀ s : State} (hk : Keeps s₀ s) : KeepsRes s₀ (execHostLinkUp p rate x8 cacheEn memEn s) := by
  unfold execHostLinkUp
  repeat' first
    | with_reducible assumption
    | with_reducible apply portLinkUp_keeps
    | with_reducible apply Keeps.next
    | split

theorem execHostLinkDown_keeps {p : HostPortNo} {s₀ s : State} (hk : Keeps s₀ s) : KeepsRes s₀ (execHostLinkDown p s) := by
  unfold execHostLinkDown
  repeat' first
    | with_reducible assumption
    | with_reducible apply portLinkDown_keeps
    | with_reducible apply incSat_keeps
    | with_reducible apply Keeps.next
    | split

theorem bootWake_keeps {code : Nat} {s₀ s : State} (hk : Keeps s₀ s) : Keeps s₀ (bootWake s code) := by
  unfold bootWake
  repeat' first
    | (apply Keeps.other; (case h1 => dsimp only); (any_goals exact rfl); first | with_reducible assumption | with_reducible apply Keeps.ite | with_reducible apply bootFrom_keeps | with_reducible apply incSat_keeps | with_reducible apply wr_keeps | with_reducible apply Keeps.foldl | split)

theorem execPstateTransitionEnd_keeps {s₀ s : State} (hk : Keeps s₀ s) : KeepsRes s₀ (execPstateTransitionEnd s) := by
  unfold execPstateTransitionEnd
  repeat' first
    | (intro s1; refine Keeps.cut (s₀ := s₀) s1 ?_ fun h1 => ?_; rotate_left; clear_value s1; rotate_left; unfold s1; clear s1)
    | (intro x1; clear_value x1)
    | lift_lets
    | with_reducible apply Keeps.next
    | split
    | (apply Keeps.other; (case h1 => dsimp only); (any_goals exact rfl); first | with_reducible assumption | with_reducible apply Keeps.ite | with_reducible apply wr_keeps | with_reducible apply takeTarget_keeps | with_reducible apply unitsRetain_keeps | with_reducible apply dropNonce_keeps | with_reducible apply enterP3_keeps | with_reducible apply bootWake_keeps | with_reducible apply startWake_keeps | with_reducible apply Keeps.foldl | split)

theorem porterWake_keeps {code : Nat} {s₀ s : State} (hk : Keeps s₀ s) : Keeps s₀ (porterWake s code) := by
  unfold porterWake
  repeat' first
    | (apply Keeps.other; (case h1 => dsimp only); (any_goals exact rfl); first | with_reducible assumption | with_reducible apply Keeps.ite | with_reducible apply bootWake_keeps | with_reducible apply startWake_keeps | with_reducible apply Keeps.foldl | split)

theorem execPorterWake_keeps {code : Fin 1027} {s₀ s : State} (hk : Keeps s₀ s) : KeepsRes s₀ (execPorterWake code s) := by
  unfold execPorterWake
  repeat' first
    | with_reducible assumption
    | (intro x1; clear_value x1)
    | lift_lets
    | with_reducible apply porterWake_keeps
    | with_reducible apply Keeps.next
    | split

theorem execPorterTimer_keeps {s₀ s : State} (hk : Keeps s₀ s) : KeepsRes s₀ (execPorterTimer s) := by
  unfold execPorterTimer
  repeat' first
    | with_reducible assumption
    | with_reducible apply porterWake_keeps
    | with_reducible apply Keeps.next
    | split

theorem execMgmtWake_keeps {mgmt : Bool} {s₀ s : State} (hk : Keeps s₀ s) : KeepsRes s₀ (execMgmtWake mgmt s) := by
  unfold execMgmtWake
  repeat' first
    | with_reducible assumption
    | with_reducible apply porterWake_keeps
    | with_reducible apply setBit_keeps
    | with_reducible apply Keeps.next
    | split

end Sys2Proof.Machine
end

