-- ==== Sys2Proof/Laws/KeepsThermal.lean ====
section
/-! SUPPORT. Keeps lemmas for Machine/Thermal.lean (thermal control): each meaning and operation leaves the queue of waiting commands
alone, only adds to the outbox, and keeps the canonical memory and the eight fuse records. -/

namespace Sys2Proof.Machine

theorem thmShow_keeps {s₀ s : State} (hk : Keeps s₀ s) : Keeps s₀ (thmShow s) := by
  unfold thmShow
  repeat' first
    | with_reducible assumption
    | with_reducible apply wr_keeps

theorem setSensor_keeps {k : Nat} {st : Nat} {s₀ s : State} (hk : Keeps s₀ s) : Keeps s₀ (setSensor s k st) := by
  unfold setSensor
  repeat' first
    | with_reducible assumption
    | with_reducible apply thmShow_keeps
    | with_reducible apply wr_keeps

theorem settleSensor_keeps {k : Nat} {s₀ s : State} (hk : Keeps s₀ s) : Keeps s₀ (settleSensor s k) := by
  unfold settleSensor
  repeat' first
    | with_reducible assumption
    | with_reducible apply setSensor_keeps

theorem setDeadline_keeps {k : Nat} {s₀ s : State} (hk : Keeps s₀ s) : Keeps s₀ (setDeadline s k) := by
  unfold setDeadline
  repeat' first
    | with_reducible assumption
    | with_reducible apply wr_keeps

theorem requestThrottle_keeps {k : Nat} {s₀ s : State} (hk : Keeps s₀ s) : Keeps s₀ (requestThrottle s k) := by
  unfold requestThrottle
  repeat' first | (apply Keeps.other; (case h1 => dsimp only); (any_goals exact rfl); first | with_reducible assumption | with_reducible apply Keeps.ite | with_reducible apply setSensor_keeps | with_reducible apply wr_keeps | with_reducible apply raise_keeps | with_reducible apply setDeadline_keeps | with_reducible apply setBit_keeps | with_reducible apply Keeps.foldl | split)

theorem endGrace_keeps {k : Nat} {s₀ s : State} (hk : Keeps s₀ s) : Keeps s₀ (endGrace s k) := raise_keeps (settleSensor_keeps hk)

theorem endThrottle_keeps {k : Nat} {s₀ s : State} (hk : Keeps s₀ s) : Keeps s₀ (endThrottle s k) := by
  unfold endThrottle
  repeat' first | (apply Keeps.other; (case h1 => dsimp only); (any_goals exact rfl); first | with_reducible assumption | with_reducible apply Keeps.ite | with_reducible apply raise_keeps | with_reducible apply settleSensor_keeps | with_reducible apply Keeps.foldl | split)

theorem execGraceEnd_keeps {kind : Fin 4} {index : Fin 640} {s₀ s : State} (hk : Keeps s₀ s) : KeepsRes s₀ (execGraceEnd kind index s) := by
  unfold execGraceEnd
  repeat' first
    | (intro s1; refine Keeps.cut (s₀ := s₀) s1 ?_ fun h1 => ?_; rotate_left; clear_value s1; rotate_left; unfold s1; clear s1)
    | intro _
    | lift_lets
    | with_reducible apply Keeps.next
    | split
    | (apply Keeps.other; (case h1 => dsimp only); (any_goals exact rfl); first | with_reducible assumption | with_reducible apply Keeps.ite | with_reducible apply setSensor_keeps | with_reducible apply incSat_keeps | with_reducible apply Keeps.foldl | split)

theorem throttleStep_keeps {s₀ s : State} (hk : Keeps s₀ s) : Keeps s₀ (throttleStep s) := by
  unfold throttleStep
  repeat' first
    | intro _
    | (apply Keeps.other; (case h1 => dsimp only); (any_goals exact rfl); first | with_reducible assumption | with_reducible apply Keeps.ite | with_reducible apply Keeps.foldl | split)

theorem execPowerTelemetry_keeps {power : BitVec 16} {s₀ s : State} (hk : Keeps s₀ s) : KeepsRes s₀ (execPowerTelemetry power s) := by
  unfold execPowerTelemetry
  repeat' first
    | with_reducible assumption
    | intro _
    | with_reducible apply throttleStep_keeps
    | with_reducible apply capStep_keeps
    | with_reducible apply wr_keeps
    | with_reducible apply voltStep_keeps
    | with_reducible apply floorStep_keeps
    | with_reducible apply Keeps.foldl
    | with_reducible apply Keeps.next
    | split

theorem haltShares_keeps {d : Nat} {s₀ s : State} (hk : Keeps s₀ s) : Keeps s₀ (haltShares s d) := by
  unfold haltShares
  repeat' first
    | with_reducible assumption
    | intro _
    | with_reducible apply stopShare_keeps
    | with_reducible apply endShare_keeps
    | with_reducible apply endCopyShare_keeps
    | with_reducible apply Keeps.foldl
    | split

theorem stopDie_keeps {d : Nat} {pts : List DiePoint} {s₀ s : State} (hk : Keeps s₀ s) : Keeps s₀ (stopDie s d pts) := by
  unfold stopDie
  repeat' first
    | with_reducible assumption
    | intro _
    | with_reducible apply haltShares_keeps
    | with_reducible apply stopPoint_keeps
    | with_reducible apply Keeps.foldl

theorem hubStopped_keeps {s₀ s : State} (hk : Keeps s₀ s) : Keeps s₀ (hubStopped s) := Keeps.ite (enterP3_keeps hk) hk

theorem dieShutNow_keeps {d : Nat} {s₀ s : State} (hk : Keeps s₀ s) : Keeps s₀ (dieShutNow s d) := by
  unfold dieShutNow
  repeat' first
    | (intro s1; refine Keeps.cut (s₀ := s₀) s1 ?_ fun h1 => ?_; rotate_left; clear_value s1; rotate_left; unfold s1; clear s1)
    | intro _
    | lift_lets
    | (apply Keeps.other; (case h1 => dsimp only); (any_goals exact rfl); first | with_reducible assumption | with_reducible apply Keeps.ite | with_reducible apply hubStopped_keeps | with_reducible apply wingOffNow_keeps | with_reducible apply selfRefresh_keeps | with_reducible apply thmShow_keeps | with_reducible apply wr_keeps | with_reducible apply enterP3_keeps | with_reducible apply Keeps.foldl | split)

theorem dieTrip_keeps {d : Nat} {s₀ s : State} (hk : Keeps s₀ s) : Keeps s₀ (dieTrip s d) := by
  unfold dieTrip
  repeat' first | (apply Keeps.other; (case h1 => dsimp only); (any_goals exact rfl); first | with_reducible assumption | with_reducible apply Keeps.ite | with_reducible apply hubStopped_keeps | with_reducible apply dieOffNow_keeps | with_reducible apply haltShares_keeps | with_reducible apply wr_keeps | with_reducible apply thmShow_keeps | with_reducible apply losePorts_keeps | with_reducible apply retireMark_keeps | with_reducible apply incSat_keeps | with_reducible apply setBit_keeps | with_reducible apply Keeps.foldl | split)

theorem countShut_keeps {d : Nat} {s₀ s : State} (hk : Keeps s₀ s) : Keeps s₀ (countShut s d) := by
  unfold countShut
  repeat' first | (apply Keeps.other; (case h1 => dsimp only); (any_goals exact rfl); first | with_reducible assumption | with_reducible apply Keeps.ite | with_reducible apply retireMark_keeps | with_reducible apply Keeps.foldl | split)

theorem dieShutdown_keeps {d : Nat} {skip : Bool} {s₀ s : State} (hk : Keeps s₀ s) : Keeps s₀ (dieShutdown s d skip) := by
  unfold dieShutdown
  repeat' first | (apply Keeps.other; (case h1 => dsimp only); (any_goals exact rfl); first | with_reducible assumption | with_reducible apply Keeps.ite | with_reducible apply countShut_keeps | with_reducible apply dieShutNow_keeps | with_reducible apply haltShares_keeps | with_reducible apply incSat_keeps | with_reducible apply setBit_keeps | with_reducible apply Keeps.foldl | split)

theorem sensorShutdown_keeps {k : Nat} {s₀ s : State} (hk : Keeps s₀ s) : Keeps s₀ (sensorShutdown s k) := by
  unfold sensorShutdown
  repeat' first
    | intro _
    | (apply Keeps.other; (case h1 => dsimp only); (any_goals exact rfl); first | with_reducible assumption | with_reducible apply Keeps.ite | with_reducible apply hubStopped_keeps | with_reducible apply raise_keeps | with_reducible apply setSensor_keeps | with_reducible apply incSat_keeps | with_reducible apply dieShutdown_keeps | with_reducible apply thmShow_keeps | with_reducible apply optDark_keeps | with_reducible apply wr_keeps | with_reducible apply enterP3_keeps | with_reducible apply Keeps.foldl | split)

theorem clearShut_keeps {mine : Nat → Bool} {s₀ s : State} (hk : Keeps s₀ s) : Keeps s₀ (clearShut s mine) := by
  unfold clearShut
  repeat' first
    | with_reducible assumption
    | intro _
    | with_reducible apply Keeps.ite
    | with_reducible apply setSensor_keeps
    | with_reducible apply Keeps.foldl

theorem comparator_keeps {kind i n : Nat} {s₀ s : State} (hk : Keeps s₀ s) : Keeps s₀ (comparator kind i n s) :=
  Keeps.ite (dieTrip_keeps hk) hk

theorem execSensorRead_keeps {kind : Fin 4} {index : Fin 640} {reading : BitVec 8} {s₀ s : State} (hk : Keeps s₀ s) : KeepsRes s₀ (execSensorRead kind index reading s) := by
  unfold execSensorRead
  repeat' first
    | (intro s1; refine Keeps.cut (s₀ := s₀) s1 ?_ fun h1 => ?_; rotate_left; clear_value s1; rotate_left; unfold s1; clear s1)
    | (intro x1; clear_value x1)
    | lift_lets
    | with_reducible apply Keeps.next
    | split
    | (apply Keeps.other; (case h1 => dsimp only); (any_goals exact rfl); first | with_reducible assumption | with_reducible apply Keeps.ite | with_reducible apply hubStopped_keeps | with_reducible apply comparator_keeps | with_reducible apply wr_keeps | with_reducible apply followHeat_keeps | with_reducible apply enterP3_keeps | with_reducible apply dieTrip_keeps | with_reducible apply setSensor_keeps | with_reducible apply sensorShutdown_keeps | with_reducible apply requestThrottle_keeps | with_reducible apply raise_keeps | with_reducible apply incSat_keeps | with_reducible apply settleSensor_keeps | with_reducible apply endThrottle_keeps | with_reducible apply endGrace_keeps | with_reducible apply comparator_keeps | with_reducible apply Keeps.foldl | split)

theorem execOrderlyStopEnd_keeps {d : DieNo} {pts : List DiePoint} {s₀ s : State} (hk : Keeps s₀ s) : KeepsRes s₀ (execOrderlyStopEnd d pts s) := by
  unfold execOrderlyStopEnd
  repeat' first
    | with_reducible assumption
    | with_reducible apply bumpFree_keeps
    | with_reducible apply dieShutNow_keeps
    | with_reducible apply stopDie_keeps
    | with_reducible apply Keeps.next
    | split

theorem dieBack_keeps {d : Nat} {s₀ s : State} (hk : Keeps s₀ s) : Keeps s₀ (dieBack s d) := by
  unfold dieBack
  repeat' first
    | with_reducible assumption
    | intro _
    | with_reducible apply wr_keeps
    | with_reducible apply clearShut_keeps
    | with_reducible apply wakeWing_keeps
    | with_reducible apply wakeDie_keeps
    | with_reducible apply raise_keeps
    | with_reducible apply thmShow_keeps
    | with_reducible apply Keeps.foldl

theorem execThmDieBack_keeps {d : DieNo} {s₀ s : State} (hk : Keeps s₀ s) : KeepsRes s₀ (execThmDieBack d s) := by
  unfold execThmDieBack
  repeat' first
    | with_reducible assumption
    | with_reducible apply dieBack_keeps
    | with_reducible apply Keeps.next
    | split

theorem execThmReturnWrite_keeps {mask : BitVec 40} {s₀ s : State} (hk : Keeps s₀ s) : KeepsRes s₀ (execThmReturnWrite mask s) := by
  unfold execThmReturnWrite
  repeat' first
    | with_reducible assumption
    | intro _
    | with_reducible apply Keeps.ite
    | with_reducible apply dieBack_keeps
    | with_reducible apply setBit_keeps
    | with_reducible apply Keeps.foldl
    | with_reducible apply Keeps.next

theorem execOptThermalReturn_keeps {n : OptNo} {s₀ s : State} (hk : Keeps s₀ s) : KeepsRes s₀ (execOptThermalReturn n s) := by
  unfold execOptThermalReturn
  repeat' first
    | with_reducible assumption
    | with_reducible apply wr_keeps
    | with_reducible apply optBringUp_keeps
    | with_reducible apply thmShow_keeps
    | with_reducible apply clearShut_keeps
    | with_reducible apply Keeps.next
    | split

theorem execHardwareTrip_keeps {d : DieNo} {s₀ s : State} (hk : Keeps s₀ s) : KeepsRes s₀ (execHardwareTrip d s) := by
  unfold execHardwareTrip
  repeat' first
    | with_reducible assumption
    | with_reducible apply dieTrip_keeps
    | with_reducible apply Keeps.next
    | split

theorem execThmThresholdWrite_keeps {kind : Fin 3} {warning : BitVec 8} {throttle : BitVec 8} {shutdown : BitVec 8} {s₀ s : State} (hk : Keeps s₀ s) : KeepsRes s₀ (execThmThresholdWrite kind warning throttle shutdown s) := by
  unfold execThmThresholdWrite
  repeat' first
    | with_reducible assumption
    | (intro x1; clear_value x1)
    | lift_lets
    | with_reducible apply setBit_keeps
    | with_reducible apply wr_keeps
    | with_reducible apply Keeps.next
    | split

theorem execThmClearMax_keeps {s₀ s : State} (hk : Keeps s₀ s) : KeepsRes s₀ (execThmClearMax s) := by
  unfold execThmClearMax
  repeat' first
    | with_reducible assumption
    | (intro x1; clear_value x1)
    | lift_lets
    | with_reducible apply wr_keeps
    | with_reducible apply Keeps.next
    | split

theorem rescanAll_keeps {s₀ s : State} (hk : Keeps s₀ s) : Keeps s₀ (rescanAll s) := by
  unfold rescanAll
  repeat' first
    | with_reducible assumption
    | intro _
    | with_reducible apply wr_keeps
    | with_reducible apply Keeps.foldl

theorem execWakeFromP2_keeps {s₀ s : State} (hk : Keeps s₀ s) : KeepsRes s₀ (execWakeFromP2 s) := by
  unfold execWakeFromP2
  repeat' first
    | with_reducible assumption
    | intro _
    | with_reducible apply rescanAll_keeps
    | with_reducible apply sealDebug_keeps
    | with_reducible apply wakeDie_keeps
    | with_reducible apply wakeWing_keeps
    | with_reducible apply siteDark_keeps
    | with_reducible apply optBringUp_keeps
    | with_reducible apply Keeps.foldl
    | with_reducible apply Keeps.next
    | split

theorem stackStarts_keeps {w : Nat} {s₀ s : State} (hk : Keeps s₀ s) : Keeps s₀ (stackStarts s w) := by
  unfold stackStarts
  repeat' first
    | with_reducible assumption
    | with_reducible apply Keeps.ite
    | with_reducible apply wr_keeps

theorem dieReset_keeps {d : Nat} {pts : List DiePoint} {s₀ s : State} (hk : Keeps s₀ s) : Keeps s₀ (dieReset s d pts) := by
  unfold dieReset
  repeat' first
    | (intro s1; refine Keeps.cut (s₀ := s₀) s1 ?_ fun h1 => ?_; rotate_left; clear_value s1; rotate_left; unfold s1; clear s1)
    | intro _
    | lift_lets
    | (apply Keeps.other; (case h1 => dsimp only); (any_goals exact rfl); first | with_reducible assumption | with_reducible apply Keeps.ite | with_reducible apply setBit_keeps | with_reducible apply wakeDie_keeps | with_reducible apply stopDie_keeps | with_reducible apply wingOffNow_keeps | with_reducible apply selfRefresh_keeps | with_reducible apply wr_keeps | with_reducible apply stackStarts_keeps | with_reducible apply wakeWing_keeps | with_reducible apply startTraining_keeps | with_reducible apply Keeps.foldl | split)

theorem execDieReset_keeps {d : DieNo} {pts : List DiePoint} {s₀ s : State} (hk : Keeps s₀ s) : KeepsRes s₀ (execDieReset d pts s) := by
  unfold execDieReset
  repeat' first
    | with_reducible assumption
    | with_reducible apply bumpFree_keeps
    | with_reducible apply dieReset_keeps
    | with_reducible apply Keeps.next

end Sys2Proof.Machine
end

