-- ==== Sys2Proof/Laws/KeepsEvents.lean ====
section
/-! SUPPORT. Keeps lemmas for Machine/Events.lean (events, galleries and timers): each meaning and operation leaves the queue of waiting commands
alone, only adds to the outbox, and keeps the canonical memory and the eight fuse records. -/

namespace Sys2Proof.Machine

theorem execEventLatch_keeps {src : Fin 1024} {s₀ s : State} (hk : Keeps s₀ s) : KeepsRes s₀ (execEventLatch src s) := by
  unfold execEventLatch
  repeat' first
    | with_reducible assumption
    | with_reducible apply raise_keeps
    | with_reducible apply Keeps.next
    | split

theorem execEvtSwSet_keeps {n : Fin 128} {s₀ s : State} (hk : Keeps s₀ s) : KeepsRes s₀ (execEvtSwSet n s) := by
  unfold execEvtSwSet
  repeat' first
    | with_reducible assumption
    | with_reducible apply raise_keeps
    | with_reducible apply Keeps.next

theorem execEvtAck_keeps {src : Fin 1024} {s₀ s : State} (hk : Keeps s₀ s) : KeepsRes s₀ (execEvtAck src s) := by
  unfold execEvtAck
  repeat' first
    | with_reducible assumption
    | with_reducible apply wr_keeps
    | with_reducible apply Keeps.next

theorem unpend_keeps {n : Nat} {s₀ s : State} (hk : Keeps s₀ s) : Keeps s₀ (unpend s n) := by
  unfold unpend
  repeat' first
    | with_reducible assumption
    | with_reducible apply wr_keeps

theorem repend_keeps {n : Nat} {s₀ s : State} (hk : Keeps s₀ s) : Keeps s₀ (repend s n) := by
  unfold repend
  repeat' first
    | with_reducible assumption
    | with_reducible apply Keeps.ite
    | with_reducible apply pendSource_keeps

theorem hostActive_keeps {priv : Bool} {n : Nat} {s₀ s : State} (hk : Keeps s₀ s) : Keeps s₀ (hostActive s priv n) := by
  unfold hostActive
  repeat' first
    | with_reducible assumption
    | with_reducible apply wr_keeps
    | with_reducible apply setBit_keeps
    | with_reducible apply sendMsix_keeps

theorem execSourceActivate_keeps {target : Fin 5} {eoi : Bool} {s₀ s : State} (hk : Keeps s₀ s) : KeepsRes s₀ (execSourceActivate target eoi s) := by
  unfold execSourceActivate
  repeat' first
    | (intro s1; refine Keeps.cut (s₀ := s₀) s1 ?_ fun h1 => ?_; rotate_left; clear_value s1; rotate_left; unfold s1; clear s1)
    | (intro x1; clear_value x1)
    | lift_lets
    | with_reducible apply Keeps.next
    | split
    | (apply Keeps.other; (case h1 => dsimp only); (any_goals exact rfl); first | with_reducible assumption | with_reducible apply Keeps.ite | with_reducible apply hostActive_keeps | with_reducible apply unpend_keeps | with_reducible apply wr_keeps | with_reducible apply repend_keeps | with_reducible apply Keeps.foldl | split)

theorem execEvtHostEoi_keeps {priv : Bool} {src : BitVec 10} {s₀ s : State} (hk : Keeps s₀ s) : KeepsRes s₀ (execEvtHostEoi priv src s) := by
  unfold execEvtHostEoi
  repeat' first
    | with_reducible assumption
    | with_reducible apply wr_keeps
    | with_reducible apply repend_keeps
    | with_reducible apply setBit_keeps
    | with_reducible apply Keeps.next
    | split

theorem execEvtPendWrite_keeps {word : Fin 17} {bits : W64} {s₀ s : State} (hk : Keeps s₀ s) : KeepsRes s₀ (execEvtPendWrite word bits s) := by
  unfold execEvtPendWrite
  repeat' first
    | with_reducible assumption
    | with_reducible apply Keeps.ite
    | with_reducible apply wr_keeps
    | with_reducible apply Keeps.next

theorem execRescan_keeps {s₀ s : State} (hk : Keeps s₀ s) : KeepsRes s₀ (execRescan s) := by
  unfold execRescan
  repeat' first
    | with_reducible assumption
    | with_reducible apply rescanAll_keeps
    | with_reducible apply Keeps.next

theorem execPeriodicRescan_keeps {s₀ s : State} (hk : Keeps s₀ s) : KeepsRes s₀ (execPeriodicRescan s) := by
  unfold execPeriodicRescan
  repeat' first
    | with_reducible assumption
    | with_reducible apply rescanAll_keeps
    | with_reducible apply Keeps.next
    | split

theorem execGallerySample_keeps {g : Fin 42} {r : Fin 1024} {v : BitVec 32} {s₀ s : State} (hk : Keeps s₀ s) : KeepsRes s₀ (execGallerySample g r v s) := by
  unfold execGallerySample
  repeat' first
    | with_reducible apply Keeps.next
    | split
    | (apply Keeps.other; (case h1 => dsimp only); (any_goals exact rfl); first | with_reducible assumption | with_reducible apply Keeps.ite | with_reducible apply Keeps.foldl | split)

theorem galPublish_keeps {g : Nat} {r : Nat} {s₀ s : State} (hk : Keeps s₀ s) : Keeps s₀ (galPublish s g r) := by
  unfold galPublish
  repeat' first | (apply Keeps.other; (case h1 => dsimp only); (any_goals exact rfl); first | with_reducible assumption | with_reducible apply Keeps.ite | with_reducible apply Keeps.foldl | split)

theorem execGalleryPublish_keeps {g : Fin 42} {s₀ s : State} (hk : Keeps s₀ s) : KeepsRes s₀ (execGalleryPublish g s) := by
  unfold execGalleryPublish
  repeat' first
    | with_reducible assumption
    | intro _
    | with_reducible apply galPublish_keeps
    | with_reducible apply Keeps.foldl
    | with_reducible apply Keeps.next

theorem execGalCursorWrite_keeps {b : Fin 41} {record : BitVec 10} {hub : Bool} {clear : Bool} {s₀ s : State} (hk : Keeps s₀ s) : KeepsRes s₀ (execGalCursorWrite b record hub clear s) := by
  unfold execGalCursorWrite
  repeat' first
    | with_reducible apply Keeps.next
    | (apply Keeps.other; (case h1 => dsimp only); (any_goals exact rfl); first | with_reducible assumption | with_reducible apply Keeps.ite | with_reducible apply wr_keeps | with_reducible apply Keeps.foldl | split)

theorem execGalBinsWrite_keeps {b : Fin 41} {lo : BitVec 16} {shift : BitVec 4} {s₀ s : State} (hk : Keeps s₀ s) : KeepsRes s₀ (execGalBinsWrite b lo shift s) := by
  unfold execGalBinsWrite
  repeat' first
    | with_reducible apply Keeps.next
    | split
    | (apply Keeps.other; (case h1 => dsimp only); (any_goals exact rfl); first | with_reducible assumption | with_reducible apply Keeps.ite | with_reducible apply Keeps.foldl | split)

theorem execHoldEnd_keeps {b : Fin 41} {s₀ s : State} (hk : Keeps s₀ s) : KeepsRes s₀ (execHoldEnd b s) := by
  unfold execHoldEnd
  repeat' first
    | (intro s1; refine Keeps.cut (s₀ := s₀) s1 ?_ fun h1 => ?_; rotate_left; clear_value s1; rotate_left; unfold s1; clear s1)
    | (intro x1; clear_value x1)
    | lift_lets
    | with_reducible apply Keeps.next
    | split
    | (apply Keeps.other; (case h1 => dsimp only); (any_goals exact rfl); first | with_reducible assumption | with_reducible apply Keeps.ite | with_reducible apply galPublish_keeps | with_reducible apply Keeps.foldl | split)

theorem clockTick_keeps {s₀ s : State} (hk : Keeps s₀ s) : Keeps s₀ (clockTick s) := by
  unfold clockTick
  repeat' first | (apply Keeps.other; (case h1 => dsimp only); (any_goals exact rfl); first | with_reducible assumption | with_reducible apply Keeps.ite | with_reducible apply countTimers_keeps | with_reducible apply tcnDrain_keeps | with_reducible apply askLoad_keeps | with_reducible apply tellBarriers_keeps | with_reducible apply Keeps.foldl | split)

theorem execTmrCorr_keeps {s₀ s : State} (hk : Keeps s₀ s) : KeepsRes s₀ (execTmrCorr s) := by
  unfold execTmrCorr
  repeat' first
    | with_reducible assumption
    | intro _
    | with_reducible apply wr_keeps
    | with_reducible apply Keeps.foldl
    | with_reducible apply Keeps.next

theorem execAlarm_keeps {k : Fin 16} {s₀ s : State} (hk : Keeps s₀ s) : KeepsRes s₀ (execAlarm k s) := by
  unfold execAlarm
  repeat' first
    | with_reducible assumption
    | (intro s1; refine Keeps.cut (s₀ := s₀) s1 ?_ fun h1 => ?_; rotate_left; clear_value s1; rotate_left; unfold s1; clear s1)
    | (intro x1; clear_value x1)
    | lift_lets
    | with_reducible apply wr_keeps
    | with_reducible apply Keeps.next
    | split

end Sys2Proof.Machine
end

