-- ==== Sys2Proof/Laws/KeepsSecurity.lean ====
section
/-! SUPPORT. Keeps lemmas for Machine/Security.lean (security and debug): each meaning and operation leaves the queue of waiting commands
alone, only adds to the outbox, and keeps the canonical memory and the eight fuse records. -/

namespace Sys2Proof.Machine

theorem mbDone_keeps {result : Nat} {s₀ s : State} (hk : Keeps s₀ s) : Keeps s₀ (mbDone s result) := by
  unfold mbDone
  repeat' first
    | with_reducible assumption
    | intro _
    | with_reducible apply Keeps.ite
    | with_reducible apply wr_keeps
    | with_reducible apply setBit_keeps
    | with_reducible apply Keeps.foldl

theorem mbRun_keeps {code : Nat} {anyPath : Bool} {path : SecPath} {f : State → State × Nat} {s₀ s : State}
    (hf : ∀ s, Keeps s₀ s → KeepsVia Prod.fst s₀ (f s)) (hk : Keeps s₀ s) : Keeps s₀ (mbRun s code anyPath path f) := by
  unfold mbRun
  repeat' first
    | with_reducible assumption
    | with_reducible apply Keeps.ite
    | with_reducible apply hf
    | with_reducible apply wr_keeps
    | with_reducible apply mbDone_keeps

theorem openDebug_keeps {duration : Nat} {s₀ s : State} (hk : Keeps s₀ s) : Keeps s₀ (openDebug s duration) := by
  unfold openDebug
  repeat' first | (apply Keeps.other; (case h1 => dsimp only); (any_goals exact rfl); first | with_reducible assumption | with_reducible apply Keeps.ite | with_reducible apply setBit_keeps | with_reducible apply eraseIde_keeps | with_reducible apply wr_keeps | with_reducible apply Keeps.foldl | refine Keeps.fst (by assumption) ?_ | split)

theorem execGetNonce_keeps {path : SecPath} {s₀ s : State} (hk : Keeps s₀ s) : KeepsRes s₀ (execGetNonce path s) := by
  unfold execGetNonce
  repeat' first
    | intro _
    | with_reducible apply Keeps.next
    | (apply Keeps.other; (case h1 => dsimp only); (any_goals exact rfl); first | with_reducible assumption | with_reducible apply Keeps.ite | with_reducible apply mbRun_keeps | with_reducible apply wr_keeps | with_reducible apply Keeps.foldl | refine Keeps.fst (by assumption) ?_ | split)

theorem execUnlock_keeps {path : SecPath} {blown : Bool} {s₀ s : State} (hk : Keeps s₀ s) : KeepsRes s₀ (execUnlock path blown s) := by
  unfold execUnlock
  repeat' first
    | with_reducible assumption
    | intro _
    | lift_lets
    | with_reducible apply mbRun_keeps
    | with_reducible apply setBit_keeps
    | with_reducible apply dropNonce_keeps
    | with_reducible apply openDebug_keeps
    | with_reducible apply wr_keeps
    | with_reducible apply Keeps.next
    | split

theorem execSetDebug_keeps {path : SecPath} {s₀ s : State} (hk : Keeps s₀ s) : KeepsRes s₀ (execSetDebug path s) := by
  unfold execSetDebug
  repeat' first
    | with_reducible assumption
    | intro _
    | with_reducible apply mbRun_keeps
    | with_reducible apply sealDebug_keeps
    | with_reducible apply wr_keeps
    | with_reducible apply openDebug_keeps
    | with_reducible apply Keeps.next
    | split

theorem execAdvanceArb_keeps {path : SecPath} {blown0 : Bool} {blown1 : Bool} {s₀ s : State} (hk : Keeps s₀ s) : KeepsRes s₀ (execAdvanceArb path blown0 blown1 s) := by
  unfold execAdvanceArb
  repeat' first
    | intro _
    | with_reducible apply Keeps.next
    | (apply Keeps.other; (case h1 => dsimp only); (any_goals exact rfl); first | with_reducible assumption | with_reducible apply Keeps.ite | with_reducible apply mbRun_keeps | with_reducible apply showArb_keeps | with_reducible apply Keeps.foldl | refine Keeps.fst (by assumption) ?_ | split)

theorem execLifecycle_keeps {path : SecPath} {blown : Bool} {s₀ s : State} (hk : Keeps s₀ s) : KeepsRes s₀ (execLifecycle path blown s) := by
  unfold execLifecycle
  repeat' first
    | with_reducible assumption
    | intro _
    | lift_lets
    | with_reducible apply mbRun_keeps
    | with_reducible apply wr_keeps
    | with_reducible apply Keeps.next
    | split

theorem execFuseAuth_keeps {path : SecPath} {blown : Bool} {s₀ s : State} (hk : Keeps s₀ s) : KeepsRes s₀ (execFuseAuth path blown s) := by
  unfold execFuseAuth
  repeat' first
    | intro _
    | with_reducible apply Keeps.next
    | (apply Keeps.other; (case h1 => dsimp only); (any_goals exact rfl); first | with_reducible assumption | with_reducible apply Keeps.ite | with_reducible apply mbRun_keeps | with_reducible apply Keeps.foldl | refine Keeps.fst (by assumption) ?_ | split)

theorem execNonceExpiry_keeps {s₀ s : State} (hk : Keeps s₀ s) : KeepsRes s₀ (execNonceExpiry s) := by
  unfold execNonceExpiry
  repeat' first
    | with_reducible assumption
    | with_reducible apply dropNonce_keeps
    | with_reducible apply Keeps.next

theorem execOpenExpiry_keeps {s₀ s : State} (hk : Keeps s₀ s) : KeepsRes s₀ (execOpenExpiry s) := by
  unfold execOpenExpiry
  repeat' first
    | with_reducible assumption
    | with_reducible apply sealDebug_keeps
    | with_reducible apply Keeps.next
    | split

theorem execDbgSeal_keeps {s₀ s : State} (hk : Keeps s₀ s) : KeepsRes s₀ (execDbgSeal s) := by
  unfold execDbgSeal
  repeat' first
    | with_reducible assumption
    | with_reducible apply sealDebug_keeps
    | with_reducible apply Keeps.next

theorem spdmAnswer_keeps {port step : Nat} {full : Bool} {f : State → State × SpdmAns} {s₀ s : State}
    (hf : ∀ s, Keeps s₀ s → KeepsVia Prod.fst s₀ (f s)) (hk : Keeps s₀ s) : Keeps s₀ (spdmAnswer s port step full f) := by
  unfold spdmAnswer
  repeat' first
    | with_reducible assumption
    | with_reducible apply Keeps.ite
    | with_reducible apply hf
    | with_reducible apply emit_keeps

theorem spdmAt_keeps {port : Nat} {step : Nat} {s₀ s : State} (hk : Keeps s₀ s) : Keeps s₀ (spdmAt s port step) := by
  unfold spdmAt
  repeat' first | (apply Keeps.other; (case h1 => dsimp only); (any_goals exact rfl); first | with_reducible assumption | with_reducible apply Keeps.ite | with_reducible apply Keeps.foldl | refine Keeps.fst (by assumption) ?_ | split)

theorem execGetVersion_keeps {port : HostPortNo} {s₀ s : State} (hk : Keeps s₀ s) : KeepsRes s₀ (execGetVersion port s) := by
  unfold execGetVersion
  repeat' first
    | with_reducible assumption
    | with_reducible apply spdmAnswer_keeps
    | with_reducible apply spdmAt_keeps
    | with_reducible apply Keeps.next

theorem execGetCapabilities_keeps {port : HostPortNo} {s₀ s : State} (hk : Keeps s₀ s) : KeepsRes s₀ (execGetCapabilities port s) := by
  unfold execGetCapabilities
  repeat' first
    | with_reducible assumption
    | with_reducible apply spdmAnswer_keeps
    | with_reducible apply spdmAt_keeps
    | with_reducible apply Keeps.next

theorem execNegotiateAlgorithms_keeps {port : HostPortNo} {common : Bool} {s₀ s : State} (hk : Keeps s₀ s) : KeepsRes s₀ (execNegotiateAlgorithms port common s) := by
  unfold execNegotiateAlgorithms
  repeat' first
    | with_reducible assumption
    | intro _
    | with_reducible apply spdmAnswer_keeps
    | with_reducible apply spdmAt_keeps
    | with_reducible apply Keeps.next
    | split

theorem execGetDigests_keeps {port : HostPortNo} {s₀ s : State} (hk : Keeps s₀ s) : KeepsRes s₀ (execGetDigests port s) := by
  unfold execGetDigests
  repeat' first
    | with_reducible assumption
    | intro _
    | with_reducible apply spdmAnswer_keeps
    | with_reducible apply Keeps.next

theorem execGetCertificate_keeps {port : HostPortNo} {slot : Fin 8} {offset : BitVec 16} {length : BitVec 16} {s₀ s : State} (hk : Keeps s₀ s) : KeepsRes s₀ (execGetCertificate port slot offset length s) := by
  unfold execGetCertificate
  repeat' first
    | with_reducible assumption
    | intro _
    | lift_lets
    | with_reducible apply spdmAnswer_keeps
    | with_reducible apply Keeps.next
    | split

theorem execChallenge_keeps {port : HostPortNo} {slot : Fin 8} {nonce : BitVec 256} {s₀ s : State} (hk : Keeps s₀ s) : KeepsRes s₀ (execChallenge port slot nonce s) := by
  unfold execChallenge
  repeat' first
    | with_reducible assumption
    | intro _
    | with_reducible apply spdmAnswer_keeps
    | with_reducible apply Keeps.next
    | split

theorem execGetMeasurements_keeps {port : HostPortNo} {index : BitVec 8} {signed : Bool} {nonce : BitVec 256} {s₀ s : State} (hk : Keeps s₀ s) : KeepsRes s₀ (execGetMeasurements port index signed nonce s) := by
  unfold execGetMeasurements
  repeat' first
    | with_reducible assumption
    | intro _
    | lift_lets
    | with_reducible apply spdmAnswer_keeps
    | with_reducible apply Keeps.next
    | split

theorem execKeyExchange_keeps {port : HostPortNo} {s₀ s : State} (hk : Keeps s₀ s) : KeepsRes s₀ (execKeyExchange port s) := by
  unfold execKeyExchange
  repeat' first
    | intro _
    | with_reducible apply Keeps.next
    | (apply Keeps.other; (case h1 => dsimp only); (any_goals exact rfl); first | with_reducible assumption | with_reducible apply Keeps.ite | with_reducible apply spdmAnswer_keeps | with_reducible apply Keeps.foldl | refine Keeps.fst (by assumption) ?_ | split)

theorem execFinish_keeps {port : HostPortNo} {id : Fin 2} {valid : Bool} {s₀ s : State} (hk : Keeps s₀ s) : KeepsRes s₀ (execFinish port id valid s) := by
  unfold execFinish
  repeat' first
    | intro _
    | with_reducible apply Keeps.next
    | (apply Keeps.other; (case h1 => dsimp only); (any_goals exact rfl); first | with_reducible assumption | with_reducible apply Keeps.ite | with_reducible apply spdmAnswer_keeps | with_reducible apply Keeps.foldl | refine Keeps.fst (by assumption) ?_ | split)

theorem execEndSession_keeps {port : HostPortNo} {id : Fin 2} {s₀ s : State} (hk : Keeps s₀ s) : KeepsRes s₀ (execEndSession port id s) := by
  unfold execEndSession
  repeat' first
    | intro _
    | with_reducible apply Keeps.next
    | (apply Keeps.other; (case h1 => dsimp only); (any_goals exact rfl); first | with_reducible assumption | with_reducible apply Keeps.ite | with_reducible apply spdmAnswer_keeps | with_reducible apply Keeps.foldl | refine Keeps.fst (by assumption) ?_ | split)

theorem execGetCsr_keeps {port : HostPortNo} {nonce : BitVec 256} {s₀ s : State} (hk : Keeps s₀ s) : KeepsRes s₀ (execGetCsr port nonce s) := by
  unfold execGetCsr
  repeat' first
    | with_reducible assumption
    | intro _
    | with_reducible apply spdmAnswer_keeps
    | with_reducible apply Keeps.next
    | split

theorem execSetCertificate_keeps {port : HostPortNo} {slot : Fin 8} {chain : List Byte} {s₀ s : State} (hk : Keeps s₀ s) : KeepsRes s₀ (execSetCertificate port slot chain s) := by
  unfold execSetCertificate
  repeat' first
    | intro _
    | with_reducible apply Keeps.next
    | (apply Keeps.other; (case h1 => dsimp only); (any_goals exact rfl); first | with_reducible assumption | with_reducible apply Keeps.ite | with_reducible apply spdmAnswer_keeps | with_reducible apply Keeps.foldl | refine Keeps.fst (by assumption) ?_ | split)

theorem ideShow_keeps {port : Nat} {s₀ s : State} (hk : Keeps s₀ s) : Keeps s₀ (ideShow s port) := by
  unfold ideShow
  repeat' first
    | with_reducible assumption
    | with_reducible apply wr_keeps

theorem execCxlIdeKm_keeps {port : HostPortNo} {id : Fin 2} {op : IdeKmOp} {s₀ s : State} (hk : Keeps s₀ s) :
    KeepsRes s₀ (execCxlIdeKm port id op s) := by
  unfold execCxlIdeKm
  have hs : ∀ (s : State) x, Keeps s₀ s → Keeps s₀ { s with sec := x } := fun s x h => Keeps.other h rfl rfl rfl rfl rfl
  refine Keeps.next (spdmAnswer_keeps (fun s h => ?_) hk)
  dsimp only
  split
  · exact h
  · refine ideShow_keeps ?_
    cases op <;> exact hs _ _ h

end Sys2Proof.Machine
end

