-- ==== Sys2Proof/Laws/KeepsHostPort.lean ====
section
/-! SUPPORT. Keeps lemmas for Machine/HostPort.lean (the host ports): each meaning and operation leaves the queue of waiting commands
alone, only adds to the outbox, and keeps the canonical memory and the eight fuse records. -/

namespace Sys2Proof.Machine

theorem execHostModeWrite_keeps {dual : Bool} {s₀ s : State} (hk : Keeps s₀ s) : KeepsRes s₀ (execHostModeWrite dual s) := by
  unfold execHostModeWrite
  repeat' first
    | with_reducible assumption
    | with_reducible apply setRoles_keeps
    | with_reducible apply wr_keeps
    | with_reducible apply Keeps.next

theorem msixFlush_keeps {p : Nat} {s₀ s : State} (hk : Keeps s₀ s) : Keeps s₀ (msixFlush s p) := by
  unfold msixFlush
  repeat' first
    | intro _
    | (apply Keeps.other; (case h1 => dsimp only); (any_goals exact rfl); first | with_reducible assumption | with_reducible apply Keeps.ite | with_reducible apply emit_keeps | with_reducible apply Keeps.foldl | split)

theorem execMsixUnmask_keeps {p : HostPortNo} {op : MsixOp} {s₀ s : State} (hk : Keeps s₀ s) : KeepsRes s₀ (execMsixUnmask p op s) := by
  unfold execMsixUnmask
  repeat' first
    | with_reducible apply Keeps.next
    | split
    | (apply Keeps.other; (case h1 => dsimp only); (any_goals exact rfl); first | with_reducible assumption | with_reducible apply Keeps.ite | with_reducible apply msixFlush_keeps | with_reducible apply Keeps.foldl | split)

theorem snoopSet_keeps {a : Nat} {hold : Bool} {s₀ s : State} (hk : Keeps s₀ s) : Keeps s₀ (snoopSet s a hold) := by
  unfold snoopSet
  repeat' first | (apply Keeps.other; (case h1 => dsimp only); (any_goals exact rfl); first | with_reducible assumption | with_reducible apply Keeps.ite | with_reducible apply Keeps.foldl | split)

theorem snoopEvict_keeps {s₀ s : State} (hk : Keeps s₀ s) : Keeps s₀ (snoopEvict s) := by
  unfold snoopEvict
  repeat' first | (apply Keeps.other; (case h1 => dsimp only); (any_goals exact rfl); first | with_reducible assumption | with_reducible apply Keeps.ite | with_reducible apply emit_keeps | with_reducible apply Keeps.foldl | split)

theorem winDo_keeps {p : Nat} {a : Nat} {op : WinOp} {s₀ s : State} (hk : Keeps s₀ s) : Keeps s₀ (winDo s p a op) := by
  unfold winDo
  repeat' first
    | with_reducible refine Keeps.app (by assumption) ?_
    | (apply Keeps.other; (case h1 => dsimp only); (any_goals exact rfl); first | with_reducible assumption | with_reducible apply Keeps.ite | with_reducible apply readFlat_keeps | with_reducible apply emit_keeps | with_reducible apply bumpFree_keeps | with_reducible apply snoopSet_keeps | with_reducible apply writeFlat_keeps | with_reducible apply Keeps.foldl | refine Keeps.fst (by assumption) ?_ | refine Keeps.got (by assumption) ?_ | split)

theorem execWindowAccess_keeps {p : HostPortNo} {line : BitVec 36} {op : WinOp} {s₀ s : State} (hk : Keeps s₀ s) : KeepsRes s₀ (execWindowAccess p line op s) := by
  unfold execWindowAccess
  repeat' first
    | with_reducible assumption
    | (intro s1; refine Keeps.cut (s₀ := s₀) s1 ?_ fun h1 => ?_; rotate_left; clear_value s1; rotate_left; unfold s1; clear s1)
    | (intro x1; clear_value x1)
    | lift_lets
    | with_reducible apply incWrap_keeps
    | with_reducible apply emit_keeps
    | with_reducible apply snoopEvict_keeps
    | with_reducible apply winDo_keeps
    | with_reducible apply Keeps.next
    | split

theorem execBisnp_keeps {line : BitVec 46} {data : Option Line} {s₀ s : State} (hk : Keeps s₀ s) : KeepsRes s₀ (execBisnp line data s) := by
  unfold execBisnp
  repeat' first
    | with_reducible assumption
    | (intro s1; refine Keeps.cut (s₀ := s₀) s1 ?_ fun h1 => ?_; rotate_left; clear_value s1; rotate_left; unfold s1; clear s1)
    | (intro x1; clear_value x1)
    | lift_lets
    | with_reducible apply snoopSet_keeps
    | with_reducible apply writeFlat_keeps
    | with_reducible apply Keeps.next
    | split

theorem execPnlMemSegWrite_keeps {seg : Fin 256} {v : W64} {s₀ s : State} (hk : Keeps s₀ s) : KeepsRes s₀ (execPnlMemSegWrite seg v s) := by
  unfold execPnlMemSegWrite
  repeat' first
    | with_reducible assumption
    | with_reducible apply wr_keeps
    | with_reducible apply Keeps.next

theorem startTakeover_keeps {s₀ s : State} (hk : Keeps s₀ s) : Keeps s₀ (startTakeover s) := by
  unfold startTakeover
  repeat' first | (apply Keeps.other; (case h1 => dsimp only); (any_goals exact rfl); first | with_reducible assumption | with_reducible apply Keeps.ite | with_reducible apply setFrozen_keeps | with_reducible apply portLinkDown_keeps | with_reducible apply Keeps.foldl | split)

theorem hubFails_keeps {s₀ s : State} (hk : Keeps s₀ s) : Keeps s₀ (hubFails s) := by
  unfold hubFails
  repeat' first | (apply Keeps.other; (case h1 => dsimp only); (any_goals exact rfl); first | with_reducible assumption | with_reducible apply Keeps.ite | with_reducible apply startTakeover_keeps | with_reducible apply emit_keeps | with_reducible apply Keeps.foldl | split)

theorem retireHub_keeps {h : Nat} {s₀ s : State} (hk : Keeps s₀ s) : Keeps s₀ (retireHub s h) := by
  unfold retireHub
  repeat' first
    | intro _
    | (apply Keeps.other; (case h1 => dsimp only); (any_goals exact rfl); first | with_reducible assumption | with_reducible apply Keeps.ite | with_reducible apply hubFails_keeps | with_reducible apply portLinkDown_keeps | with_reducible apply wr_keeps | with_reducible apply showLink_keeps | with_reducible apply raise_keeps | with_reducible apply farFailAll_keeps | with_reducible apply incSat_keeps | with_reducible apply siteFalls_keeps | with_reducible apply Keeps.foldl | split)

theorem execTakeover_keeps {mgmt : Bool} {s₀ s : State} (hk : Keeps s₀ s) : KeepsRes s₀ (execTakeover mgmt s) := by
  unfold execTakeover
  repeat' first
    | with_reducible assumption
    | with_reducible apply setBit_keeps
    | with_reducible apply startTakeover_keeps
    | with_reducible apply Keeps.next
    | split

theorem execHeartbeatMiss_keeps {s₀ s : State} (hk : Keeps s₀ s) : KeepsRes s₀ (execHeartbeatMiss s) := by
  unfold execHeartbeatMiss
  repeat' first
    | with_reducible assumption
    | with_reducible apply hubFails_keeps
    | with_reducible apply Keeps.next

theorem execHubDomainFault_keeps {s₀ s : State} (hk : Keeps s₀ s) : KeepsRes s₀ (execHubDomainFault s) := by
  unfold execHubDomainFault
  repeat' first
    | with_reducible assumption
    | with_reducible apply hubFails_keeps
    | with_reducible apply Keeps.next

theorem execHomePortDown_keeps {s₀ s : State} (hk : Keeps s₀ s) : KeepsRes s₀ (execHomePortDown s) := by
  unfold execHomePortDown
  repeat' first
    | with_reducible assumption
    | with_reducible apply startTakeover_keeps
    | with_reducible apply Keeps.next
    | split

theorem rebaseTimers_keeps {old : Nat} {new : Nat} {s₀ s : State} (hk : Keeps s₀ s) : Keeps s₀ (rebaseTimers s old new) := by
  unfold rebaseTimers
  repeat' first | (apply Keeps.other; (case h1 => dsimp only); (any_goals exact rfl); first | with_reducible assumption | with_reducible apply Keeps.ite | with_reducible apply wr_keeps | with_reducible apply Keeps.foldl | split)

theorem execHubTakeover_keeps {s₀ s : State} (hk : Keeps s₀ s) : KeepsRes s₀ (execHubTakeover s) := by
  unfold execHubTakeover
  repeat' first
    | with_reducible apply Keeps.next
    | split
    | (apply Keeps.other; (case h1 => dsimp only); (any_goals exact rfl); first | with_reducible assumption | with_reducible apply Keeps.ite | with_reducible apply rebaseTimers_keeps | with_reducible apply incSat_keeps | with_reducible apply wr_keeps | with_reducible apply dropNonce_keeps | with_reducible apply sealDebug_keeps | with_reducible apply eraseIde_keeps | with_reducible apply rescanAll_keeps | with_reducible apply dbRestart_keeps | with_reducible apply sendMsix_keeps | with_reducible apply setFrozen_keeps | with_reducible apply setRoles_keeps | with_reducible apply Keeps.foldl | split)

theorem execHubSync_keeps {s₀ s : State} (hk : Keeps s₀ s) : KeepsRes s₀ (execHubSync s) := by
  unfold execHubSync
  repeat' first
    | with_reducible apply Keeps.next
    | split
    | (apply Keeps.other; (case h1 => dsimp only); (any_goals exact rfl); first | with_reducible assumption | with_reducible apply Keeps.ite | with_reducible apply setBit_keeps | with_reducible apply Keeps.foldl | split)

theorem pmbusAnswer_keeps {code : Nat} {value : Nat} {s₀ s : State} (hk : Keeps s₀ s) : Keeps s₀ (pmbusAnswer s code value) := by
  unfold pmbusAnswer
  repeat' first
    | with_reducible assumption
    | with_reducible apply Keeps.ite
    | with_reducible apply bumpFree_keeps
    | with_reducible apply emit_keeps

theorem execReadVin_keeps {s₀ s : State} (hk : Keeps s₀ s) : KeepsRes s₀ (execReadVin s) := by
  unfold execReadVin
  repeat' first
    | with_reducible assumption
    | with_reducible apply pmbusAnswer_keeps
    | with_reducible apply Keeps.next

theorem execReadIin_keeps {s₀ s : State} (hk : Keeps s₀ s) : KeepsRes s₀ (execReadIin s) := by
  unfold execReadIin
  repeat' first
    | with_reducible assumption
    | with_reducible apply pmbusAnswer_keeps
    | with_reducible apply Keeps.next

theorem execReadTemperature1_keeps {s₀ s : State} (hk : Keeps s₀ s) : KeepsRes s₀ (execReadTemperature1 s) := by
  unfold execReadTemperature1
  repeat' first
    | with_reducible assumption
    | with_reducible apply pmbusAnswer_keeps
    | with_reducible apply Keeps.next

theorem execReadPin_keeps {s₀ s : State} (hk : Keeps s₀ s) : KeepsRes s₀ (execReadPin s) := by
  unfold execReadPin
  repeat' first
    | with_reducible assumption
    | with_reducible apply pmbusAnswer_keeps
    | with_reducible apply Keeps.next

theorem execStatusWord_keeps {s₀ s : State} (hk : Keeps s₀ s) : KeepsRes s₀ (execStatusWord s) := by
  unfold execStatusWord
  repeat' first
    | with_reducible assumption
    | with_reducible apply pmbusAnswer_keeps
    | with_reducible apply Keeps.next

end Sys2Proof.Machine
end

