-- ==== Sys2Proof/Laws/KeepsBus.lean ====
section
/-! SUPPORT. Keeps lemmas for Machine/Bus.lean (the register bus, management and debug access): each meaning and operation leaves the queue of waiting commands
alone, only adds to the outbox, and keeps the canonical memory and the eight fuse records. -/

namespace Sys2Proof.Machine

theorem noteMiss_keeps {off : Nat} {s₀ s : State} (hk : Keeps s₀ s) : Keeps s₀ (noteMiss s off) := by
  unfold noteMiss
  repeat' first
    | with_reducible assumption
    | with_reducible apply Keeps.ite
    | with_reducible apply setBit_keeps

theorem barRead_keeps {mgmt : Bool} {off : Nat} {bytes : Nat} {s₀ s : State} (hk : Keeps s₀ s) : KeepsVia Prod.fst s₀ (barRead s mgmt off bytes) := by
  unfold barRead
  repeat' first
    | with_reducible assumption
    | with_reducible apply noteMiss_keeps
    | split

theorem retireUnit_keeps {u : Nat} {s₀ s : State} (hk : Keeps s₀ s) : Keeps s₀ (retireUnit s u) := by
  unfold retireUnit
  repeat' first | (apply Keeps.other; (case h1 => dsimp only); (any_goals exact rfl); first | with_reducible assumption | with_reducible apply Keeps.ite | with_reducible apply dieOffNow_keeps | with_reducible apply haltShares_keeps | with_reducible apply recordRetired_keeps | with_reducible apply retireDie_keeps | with_reducible apply setUnit_keeps | with_reducible apply wr_keeps | with_reducible apply showLink_keeps | with_reducible apply optDark_keeps | with_reducible apply retireHub_keeps | with_reducible apply siteFalls_keeps | with_reducible apply siteDark_keeps | with_reducible apply failSite_keeps | with_reducible apply Keeps.foldl | split)

theorem unitWrite_keeps {mgmt : Bool} {mask : Nat} {v : Nat} {s₀ s : State} (hk : Keeps s₀ s) : Keeps s₀ (unitWrite s mgmt mask v) := by
  unfold unitWrite
  repeat' first
    | with_reducible assumption
    | (intro s1; refine Keeps.cut (s₀ := s₀) s1 ?_ fun h1 => ?_; rotate_left; clear_value s1; rotate_left; unfold s1; clear s1)
    | (intro x1; clear_value x1)
    | lift_lets
    | with_reducible apply setBit_keeps
    | with_reducible apply setUnit_keeps
    | with_reducible apply retireUnit_keeps
    | split

theorem execUnitStateWrite_keeps {mgmt : Bool} {half : Fin 3} {v : W64} {s₀ s : State} (hk : Keeps s₀ s) : KeepsRes s₀ (execUnitStateWrite mgmt half v s) := by
  unfold execUnitStateWrite
  repeat' first
    | with_reducible assumption
    | with_reducible apply unitWrite_keeps
    | with_reducible apply Keeps.next

theorem afterWrite_keeps {f : Fld} {i : Nat} {s₀ s : State} (hk : Keeps s₀ s) : Keeps s₀ (afterWrite s f i) := by
  unfold afterWrite
  repeat' first
    | with_reducible assumption
    | intro _
    | with_reducible apply Keeps.ite
    | with_reducible apply setRefresh_keeps
    | with_reducible apply setDeadline_keeps
    | with_reducible apply setFrozen_keeps
    | with_reducible apply showRate_keeps
    | with_reducible apply Keeps.foldl

theorem presetPut_keeps {f : Fld} {i : Nat} {v : Nat} {s₀ s : State} (hk : Keeps s₀ s) : Keeps s₀ (presetPut s f i v) := by
  unfold presetPut
  repeat' first
    | with_reducible assumption
    | with_reducible apply setBit_keeps
    | with_reducible apply wr_keeps
    | with_reducible apply afterWrite_keeps
    | split

theorem profilePut_keeps {p : Fld} {v : Nat} {s₀ s : State} (hk : Keeps s₀ s) : Keeps s₀ (profilePut s p v) := by
  unfold profilePut
  repeat' first
    | with_reducible assumption
    | intro _
    | with_reducible apply wr_keeps
    | with_reducible apply setBit_keeps
    | with_reducible apply presetPut_keeps
    | with_reducible apply Keeps.foldl
    | split

theorem profileWrite_keeps {mask : Nat} {v : Nat} {s₀ s : State} (hk : Keeps s₀ s) : Keeps s₀ (profileWrite s mask v) := by
  unfold profileWrite
  repeat' first
    | with_reducible assumption
    | intro _
    | with_reducible apply Keeps.ite
    | with_reducible apply profilePut_keeps
    | with_reducible apply Keeps.foldl

theorem execProfileWrite_keeps {half : Fin 3} {v : W64} {s₀ s : State} (hk : Keeps s₀ s) : KeepsRes s₀ (execProfileWrite half v s) := by
  unfold execProfileWrite
  repeat' first
    | with_reducible assumption
    | with_reducible apply profileWrite_keeps
    | with_reducible apply Keeps.next

theorem after_keeps {r : Res} {s₀ s : State} (hr : KeepsRes s₀ r) (hk : Keeps s₀ s) : Keeps s₀ (after r s) := by
  unfold after
  split
  · exact hr.go _ rfl
  · exact hk

theorem putFld_keeps {p : Spot} {i : Nat} {mgmt : Bool} {x : FldRow} {mask : Nat} {v : Nat} {s₀ s : State} (hk : Keeps s₀ s) : Keeps s₀ (putFld s p i mgmt x mask v) := by
  unfold putFld
  repeat' first
    | with_reducible assumption
    | (intro x1; clear_value x1)
    | lift_lets
    | with_reducible apply wr_keeps
    | with_reducible apply setBit_keeps
    | with_reducible apply afterWrite_keeps
    | split

theorem ringDisable_keeps {en : Fld} {i : Nat} {rs : List RingId} {s₀ s : State} (hk : Keeps s₀ s) : Keeps s₀ (ringDisable s en i rs) := by
  unfold ringDisable
  repeat' first
    | with_reducible assumption
    | intro _
    | with_reducible apply Keeps.ite
    | with_reducible apply dbRemove_keeps
    | with_reducible apply wr_keeps
    | with_reducible apply Keeps.foldl

theorem enableTable_keeps {s₀ : State} : ∀ e ∈ enableTable, ∀ i v x s, Keeps s₀ s → Keeps s₀ (e.2 i v x s) := by
  unfold enableTable
  simp only [List.forall_mem_cons]
  refine ⟨?_, ?_, ?_, ?_, ?_, ?_, ?_, ?_, ?_, ?_, ?_, ?_, ?_, ?_, ?_, ?_, ?_, fun _ h => absurd h List.not_mem_nil⟩
  all_goals
    intro _ _ _ s hk
    try dsimp -zeta only
    repeat' first
      | with_reducible assumption
      | with_reducible apply after_keeps
      | with_reducible apply execCompletionRingEnable_keeps
      | with_reducible apply execControlRingEnable_keeps
      | with_reducible apply execFabEnable_keeps
      | with_reducible apply execFarEnable_keeps
      | with_reducible apply execGroupEntryEnable_keeps
      | with_reducible apply execGrpEnable_keeps
      | with_reducible apply execMirEnable_keeps
      | with_reducible apply execMirHostEnable_keeps
      | with_reducible apply execMirRangeEnable_keeps
      | with_reducible apply execOptEnable_keeps
      | with_reducible apply execQueueDisable_keeps
      | with_reducible apply execQueueEnable_keeps
      | with_reducible apply execQueueEngineEnable_keeps
      | with_reducible apply execRmtEnable_keeps
      | with_reducible apply execUciSiteEnable_keeps
      | with_reducible apply ringDisable_keeps
      | with_reducible apply wr_keeps
      | split

theorem mailbox_keeps {path : SecPath} {x : Outside} {s₀ s : State} (hk : Keeps s₀ s) : Keeps s₀ (mailbox s path x) := by
  unfold mailbox
  repeat' first
    | with_reducible assumption
    | intro _
    | with_reducible apply after_keeps
    | with_reducible apply execGetNonce_keeps
    | with_reducible apply execUnlock_keeps
    | with_reducible apply execSetDebug_keeps
    | with_reducible apply execAdvanceArb_keeps
    | with_reducible apply execLifecycle_keeps
    | with_reducible apply execFuseAuth_keeps
    | with_reducible apply mbRun_keeps
    | with_reducible apply Keeps.next
    | split

theorem admitGo_keeps {mgmt : Bool} {s₀ s : State} (hk : Keeps s₀ s) : Keeps s₀ (admitGo s mgmt) := by
  unfold admitGo
  repeat' first
    | with_reducible assumption
    | with_reducible apply after_keeps
    | with_reducible apply execSelfTest_keeps
    | with_reducible apply execAdmitLoad_keeps
    | with_reducible apply execAbortLoad_keeps
    | with_reducible apply Keeps.next
    | split

theorem goTable_keeps {s₀ : State} : ∀ e ∈ goTable, ∀ i p x s, Keeps s₀ s → Keeps s₀ (e.2 i p x s) := by
  unfold goTable
  simp only [List.forall_mem_cons]
  refine ⟨?_, ?_, ?_, ?_, ?_, ?_, ?_, ?_, ?_, ?_, ?_, ?_, ?_, ?_, ?_, ?_, fun _ h => absurd h List.not_mem_nil⟩
  all_goals
    intro _ _ _ s hk
    try dsimp -zeta only
    repeat' first
      | with_reducible assumption
      | with_reducible apply after_keeps
      | with_reducible apply execArrayClearCounts_keeps
      | with_reducible apply execBankFree_keeps
      | with_reducible apply execBankLoad_keeps
      | with_reducible apply execBeatClearExt_keeps
      | with_reducible apply execDieWrapClear_keeps
      | with_reducible apply execFabDropsClear_keeps
      | with_reducible apply execFarPortRetrain_keeps
      | with_reducible apply execGrpClear_keeps
      | with_reducible apply execMemClearCounts_keeps
      | with_reducible apply execQueueResume_keeps
      | with_reducible apply execRmtClear_keeps
      | with_reducible apply execStkClearCounts_keeps
      | with_reducible apply execStkPprGo_keeps
      | with_reducible apply execTcnRetrain_keeps
      | with_reducible apply execUciRetrain_keeps
      | with_reducible apply execXltInvalidate_keeps
      | with_reducible apply wr_keeps
      | split

theorem goTable2_keeps {s₀ : State} : ∀ e ∈ goTable2, ∀ i p x s, Keeps s₀ s → Keeps s₀ (e.2 i p x s) := by
  unfold goTable2
  simp only [List.forall_mem_cons]
  refine ⟨?_, ?_, ?_, ?_, ?_, ?_, ?_, ?_, ?_, ?_, ?_, fun _ h => absurd h List.not_mem_nil⟩
  all_goals
    intro _ _ _ s hk
    try dsimp -zeta only
    repeat' first
      | with_reducible assumption
      | with_reducible apply admitGo_keeps
      | with_reducible apply after_keeps
      | with_reducible apply execDbgSeal_keeps
      | with_reducible apply execMgmtWake_keeps
      | with_reducible apply execOptClear_keeps
      | with_reducible apply execOptCommission_keeps
      | with_reducible apply execPwrClearEvents_keeps
      | with_reducible apply execRescan_keeps
      | with_reducible apply execTakeover_keeps
      | with_reducible apply execThmClearMax_keeps
      | with_reducible apply execTmrCorr_keeps
      | with_reducible apply mailbox_keeps

theorem resetWrite_keeps {mgmt : Bool} {mask : Nat} {v : Nat} {x : Outside} {s₀ s : State} (hk : Keeps s₀ s) : Keeps s₀ (resetWrite s mgmt mask v x) := by
  unfold resetWrite
  repeat' first
    | with_reducible assumption
    | with_reducible apply wr_keeps
    | with_reducible apply coldReset_keeps
    | with_reducible apply setBit_keeps
    | with_reducible apply warmReset_keeps
    | with_reducible apply panelReset_keeps
    | with_reducible apply bumpFree_keeps
    | with_reducible apply dieReset_keeps
    | split

theorem wholeWrite_keeps {p : Spot} {r : RegRow} {i : Nat} {path : SecPath} {mask : Nat} {v : Nat} {x : Outside} {s₀ s : State} (hk : Keeps s₀ s) : KeepsOpt s₀ (wholeWrite s p r i path mask v x) := by
  unfold wholeWrite
  repeat' first
    | with_reducible assumption
    | with_reducible apply Keeps.ite
    | with_reducible apply unitWrite_keeps
    | with_reducible apply profileWrite_keeps
    | with_reducible apply resetWrite_keeps
    | with_reducible apply after_keeps
    | with_reducible apply execMirJobWrite_keeps
    | with_reducible apply execPartnerPin_keeps
    | with_reducible apply execThmThresholdWrite_keeps
    | with_reducible apply execThmReturnWrite_keeps
    | with_reducible apply execGalCursorWrite_keeps
    | with_reducible apply execGalBinsWrite_keeps
    | with_reducible apply execEvtAck_keeps
    | with_reducible apply execEvtSwSet_keeps
    | with_reducible apply execEvtHostEoi_keeps
    | with_reducible apply execFabEpochWrite_keeps
    | with_reducible apply wr_keeps
    | with_reducible apply execPstateTarget_keeps
    | with_reducible apply execPwrDieOffWrite_keeps
    | with_reducible apply execPwrClearEvents_keeps
    | with_reducible apply execWingOffWrite_keeps
    | with_reducible apply Keeps.iteOpt
    | with_reducible apply Keeps.some
    | with_reducible apply Keeps.none

theorem optFields_keeps {i : Nat} {mask : Nat} {v : Nat} {s₀ s : State} (hk : Keeps s₀ s) : Keeps s₀ (optFields s i mask v) := by
  unfold optFields
  repeat' first
    | with_reducible assumption
    | with_reducible apply after_keeps
    | with_reducible apply execOptCtlWrite_keeps

theorem writeReg_keeps {p : Spot} {path : SecPath} {mask v : Nat} {x : Outside} {s₀ s : State} (hk : Keeps s₀ s) :
    Keeps s₀ (writeReg s p path mask v x) := by
  unfold writeReg
  split
  · exact hk
  · rename_i r k _
    extract_lets i
    split
    · rename_i e
      exact Keeps.ofSome e (wholeWrite_keeps hk)
    · rename_i en rest plain s1 s2 _ _
      have hplain : ∀ s, Keeps s₀ s → Keeps s₀ (plain s) := fun s h => by
        dsimp only [plain]
        exact Keeps.ite (optFields_keeps h) (Keeps.foldl _ h fun s y h => putFld_keeps h)
      clear_value plain
      have hen : ∀ e, en = some e → e ∈ enableTable := fun e he => List.mem_of_find?_eq_some he
      have h1 : Keeps s₀ s1 := by
        dsimp only [s1]
        clear_value en
        cases en with
        | none => exact hplain _ hk
        | some e =>
          have hm := enableTable_keeps (s₀ := s₀) e (hen e rfl)
          exact Keeps.ite (hm _ _ _ _ (hplain _ hk)) (hplain _ (hm _ _ _ _ hk))
      clear_value s1
      have h2 : Keeps s₀ s2 := Keeps.ite (setRoles_keeps h1) h1
      clear_value s2
      refine Keeps.foldlMem _ h2 fun s e he h => Keeps.ite ?_ h
      rcases List.mem_append.1 he with he | he
      · exact goTable_keeps e he _ _ _ _ h
      · exact goTable2_keeps e he _ _ _ _ h

theorem barWrite_keeps {path : SecPath} {off : Nat} {bytes : Nat} {v : Nat} {x : Outside} {s₀ s : State} (hk : Keeps s₀ s) : Keeps s₀ (barWrite s path off bytes v x) := by
  unfold barWrite
  repeat' first
    | with_reducible assumption
    | with_reducible apply noteMiss_keeps
    | with_reducible apply writeReg_keeps
    | split

theorem execRegisterWrite_keeps {mgmt : Bool} {off : BitVec 28} {bytes : Fin 65} {v : W64} {x : Outside} {s₀ s : State} (hk : Keeps s₀ s) : KeepsRes s₀ (execRegisterWrite mgmt off bytes v x s) := by
  unfold execRegisterWrite
  repeat' first
    | with_reducible assumption
    | with_reducible apply barWrite_keeps
    | with_reducible apply Keeps.next

theorem missAccess_keeps {off : Nat} {bytes : Nat} {write : Bool} {s₀ s : State} (hk : Keeps s₀ s) : Keeps s₀ (missAccess s off bytes write) := by
  unfold missAccess
  repeat' first
    | with_reducible assumption
    | with_reducible apply Keeps.ite
    | with_reducible apply noteMiss_keeps
    | with_reducible apply emit_keeps

theorem execAbsentAccess_keeps {a : BusAccess} {write : Bool} {s₀ s : State} (hk : Keeps s₀ s) : KeepsRes s₀ (execAbsentAccess a write s) := by
  unfold execAbsentAccess
  repeat' first
    | with_reducible assumption
    | with_reducible apply Keeps.ite
    | with_reducible apply missAccess_keeps
    | with_reducible apply Keeps.next

theorem execEarlyAccess_keeps {a : BusAccess} {write : Bool} {s₀ s : State} (hk : Keeps s₀ s) : KeepsRes s₀ (execEarlyAccess a write s) := by
  unfold execEarlyAccess
  repeat' first
    | with_reducible assumption
    | with_reducible apply Keeps.ite
    | with_reducible apply missAccess_keeps
    | with_reducible apply Keeps.next

theorem mgmtSend_keeps {r : MgmtReply} {s₀ s : State} (hk : Keeps s₀ s) : Keeps s₀ (mgmtSend s r) := by
  unfold mgmtSend
  repeat' first | (apply Keeps.other; (case h1 => dsimp only); (any_goals exact rfl); first | with_reducible assumption | with_reducible apply Keeps.ite | with_reducible apply emit_keeps | with_reducible apply Keeps.foldl | split)

theorem mgmtAnswer_keeps {src seq : Nat} {f : State → State × MgmtReply} {s₀ s : State}
    (hf : ∀ s, Keeps s₀ s → KeepsVia Prod.fst s₀ (f s)) (hk : Keeps s₀ s) : Keeps s₀ (mgmtAnswer s src seq f) := by
  unfold mgmtAnswer
  repeat' first
    | with_reducible assumption
    | with_reducible apply hf
    | with_reducible apply emit_keeps
    | with_reducible apply mgmtSend_keeps
    | split

theorem execMgmtRead_keeps {src : W64} {seq : BitVec 16} {off : BitVec 32} {count : BitVec 16} {s₀ s : State} (hk : Keeps s₀ s) : KeepsRes s₀ (execMgmtRead src seq off count s) := by
  unfold execMgmtRead
  repeat' first
    | with_reducible assumption
    | intro _
    | with_reducible apply mgmtAnswer_keeps
    | with_reducible apply barRead_keeps
    | with_reducible apply Keeps.next
    | with_reducible apply Keeps.foldlFst
    | split

theorem execMgmtWrite_keeps {src : W64} {seq : BitVec 16} {off : BitVec 32} {words : List RegWord} {s₀ s : State} (hk : Keeps s₀ s) : KeepsRes s₀ (execMgmtWrite src seq off words s) := by
  unfold execMgmtWrite
  repeat' first
    | with_reducible assumption
    | intro _
    | with_reducible apply mgmtAnswer_keeps
    | with_reducible apply barWrite_keeps
    | with_reducible apply Keeps.foldl
    | with_reducible apply Keeps.next
    | split

theorem dapDo_keeps {r : DapReq} {s₀ s : State} (hk : Keeps s₀ s) : KeepsVia Prod.fst s₀ (dapDo s r) := by
  have hs : ∀ (s : State) x, Keeps s₀ s → Keeps s₀ { s with sec := x } := fun s x h => Keeps.other h rfl rfl rfl rfl rfl
  cases r <;> unfold dapDo
  · exact hs _ _ hk
  · exact hk
  · exact hs _ _ hk
  · exact barRead_keeps hk
  · exact barWrite_keeps hk
  · exact readFlat_keeps hk
  · exact writeFlat_keeps hk
  · exact hk
  · exact bumpFree_keeps hk

theorem execDebugAccessPortRequest_keeps {req : DapReq} {s₀ s : State} (hk : Keeps s₀ s) : KeepsRes s₀ (execDebugAccessPortRequest req s) := by
  unfold execDebugAccessPortRequest
  repeat' first
    | with_reducible assumption
    | with_reducible apply emit_keeps
    | with_reducible apply dapDo_keeps
    | with_reducible apply Keeps.next
    | split

end Sys2Proof.Machine
end

