-- ==== Sys2Proof/Laws/Queues.lean ====
section
/-!
SUPPORT. Queues and contexts: what storing a queue, changing a context and ending a command leave.
-/

namespace Sys2Proof.Machine

@[simp] theorem getQ_putQ_same (s : State) (q : Nat) (x : Queue) : getQ (putQ s q x) q = x := by simp [getQ, putQ]

theorem getQ_putQ_other (s : State) {p q : Nat} (x : Queue) (h : p ≠ q) : getQ (putQ s q x) p = getQ s p := by
  simp [getQ, putQ, kget_kput_other _ _ _ h]

theorem getQ_congr {s t : State} (h : t.queues = s.queues) (q : Nat) : getQ t q = getQ s q := by simp [getQ, h]

theorem findCtx_congr {s t : State} (h : t.queues = s.queues) (q i : Nat) : findCtx t q i = findCtx s q i := by simp [findCtx, getQ, h]

/-- A context that is found has the index sought. -/
theorem findCtx_idx {s : State} {q i : Nat} {c : Ctx} (h : findCtx s q i = some c) : c.idx = i := by
  have := List.find?_some h; simpa using this

theorem find_map_ctx (l : List Ctx) (i : Nat) (f : Ctx → Ctx) (hf : ∀ c, c.idx = i → (f c).idx = i) :
    (l.map fun c => if c.idx == i then f c else c).find? (·.idx == i) = (l.find? (·.idx == i)).map f := by
  induction l with
  | nil => rfl
  | cons c l ih =>
    by_cases h : c.idx = i
    · have h2 := hf c h
      simp [h, h2]
    · simp [h]; simpa using ih

/-- A change of the context of an index is what is then found. -/
theorem findCtx_modCtx (s : State) (q i : Nat) (f : Ctx → Ctx) (hf : ∀ c, c.idx = i → (f c).idx = i) :
    findCtx (modCtx s q i f) q i = (findCtx s q i).map f := by
  simp only [findCtx, modCtx, getQ_putQ_same]; exact find_map_ctx _ _ _ hf

/-- Ending a command's work: its context is done, and nothing else of its queue has changed. -/
theorem findCtx_finishCtx {s : State} {q i : Nat} {c : Ctx} (h : findCtx s q i = some c) (st r : Nat) :
    findCtx (finishCtx s q i st r) q i = some { c with phase := .done, status := stWorse c.status st, result0 := r } := by
  have hi := findCtx_idx h; subst hi
  unfold finishCtx
  refine (findCtx_modCtx s q c.idx (fun c =>
    { c with
      phase := .done, status := stWorse c.status st, low := c.low || false, high := c.high || false, result0 := r }) (fun _ h => h)).trans ?_
  rw [h]; simp

theorem getQ_finishCtx (s : State) (q i st r : Nat) :
    getQ (finishCtx s q i st r) q = { getQ s q with ctxs := (getQ (finishCtx s q i st r) q).ctxs } := by
  simp [finishCtx, modCtx]

theorem getQ_finishCtx_other (s : State) {p q : Nat} (i st r : Nat) (h : p ≠ q) : getQ (finishCtx s q i st r) p = getQ s p :=
  getQ_putQ_other _ _ h

/-- A command at work is a context of its opcode in the running phase. -/
theorem runningCtx_some {s : State} {q i op : Nat} {c : Ctx} (h : runningCtx s q i op = some c) :
    findCtx s q i = some c ∧ c.idx = i ∧ descOpcode c.desc = op ∧ c.phase = .running := by
  unfold runningCtx at h; split at h
  · rename_i hf
    split at h
    · rename_i e; cases h
      simp only [Bool.and_eq_true, beq_iff_eq] at e
      exact ⟨hf, findCtx_idx hf, e⟩
    · cases h
  · cases h

/-! ### Rings -/

theorem sendMsix_mem (s : State) (v : Nat) : (sendMsix s v).mem = s.mem := by unfold sendMsix; dsimp only; split <;> rfl
theorem sendMsix_fields (s : State) (v : Nat) : (sendMsix s v).fields = s.fields := by unfold sendMsix; dsimp only; split <;> rfl
theorem sendMsix_queues (s : State) (v : Nat) : (sendMsix s v).queues = s.queues := by unfold sendMsix; dsimp only; split <;> rfl
theorem sendMsix_rings (s : State) (v : Nat) :
    (sendMsix s v).crings = s.crings ∧ (sendMsix s v).frings = s.frings ∧ (sendMsix s v).rrings = s.rrings ∧ (sendMsix s v).xrings = s.xrings := by
  unfold sendMsix; dsimp only; split <;> exact ⟨rfl, rfl, rfl, rfl⟩

@[simp] theorem putWindex_mem (s : State) (r : RingId) (w : Nat) : (putWindex s r w).mem = s.mem := by cases r <;> rfl
@[simp] theorem putWindex_queues (s : State) (r : RingId) (w : Nat) : (putWindex s r w).queues = s.queues := by cases r <;> rfl
@[simp] theorem putRing_mem (s : State) (r : RingId) (x : Ring) : (putRing s r x).mem = s.mem := by cases r <;> rfl
@[simp] theorem putRing_queues (s : State) (r : RingId) (x : Ring) : (putRing s r x).queues = s.queues := by cases r <;> rfl
@[simp] theorem putRing_fields (s : State) (r : RingId) (x : Ring) : (putRing s r x).fields = s.fields := by cases r <;> rfl

/-- The episode that a ring shows changes no byte of memory and no queue. -/
@[simp] theorem noteRing_mem (s : State) (r : RingId) : (noteRing s r).mem = s.mem := by
  unfold noteRing raise pendSource; dsimp only; repeat' split
  all_goals simp [setBit]

@[simp] theorem noteRing_queues (s : State) (r : RingId) : (noteRing s r).queues = s.queues := by
  unfold noteRing raise pendSource; dsimp only; repeat' split
  all_goals simp [setBit]

/-- It sets ring_full and raises CRING_FULL at most. -/
theorem noteRing_fields (s : State) (r : RingId) :
    FieldsBut [(QUE_STATUS.ring_full, 0), (EVT_LEVEL.latched, 0), (EVT_PEND.pending, 0)] s (noteRing s r) := by
  have h (x : Ring) : FieldsBut [(QUE_STATUS.ring_full, 0), (EVT_LEVEL.latched, 0), (EVT_PEND.pending, 0)] s (putRing s r x) :=
    (FieldsBut.refl _ s).of_eq (putRing_fields _ _ _)
  unfold noteRing; dsimp only
  generalize (if ringEnabled s r = true then ringFull s r else !(getRing s r).held.isEmpty) = now
  split
  · exact .refl _ _
  · split
    · unfold raise pendSource; dsimp only; split
      · exact (h _).wr (by simp)
      · exact (((h _).wr (by simp)).wr (by simp)).wr (by simp)
    · exact h _

theorem noteRing_xrings (s : State) (r : RingId) : (noteRing s r).xrings = s.xrings := by
  unfold noteRing raise pendSource; dsimp only; repeat' split
  all_goals cases r <;> simp [setBit, putRing]

/-- A ring whose number the registers give. -/
def RingId.Exists : RingId → Prop
  | .cr c => c < 4096
  | .fr f => f < 256
  | _ => True

/-- The write index of a ring stays. -/
theorem ringWindex_noteRing {s : State} {r p : RingId} (hp : p.Exists) : ringWindex (noteRing s r) p = ringWindex s p := by
  have h := noteRing_fields s r
  cases p with
  | cr c => refine h.rd ?_; simp [fkey, QUE_C_STATE.windex, EVT_LEVEL.latched, EVT_PEND.pending, QUE_STATUS.ring_full]; simp [RingId.Exists] at hp; omega
  | fr f => refine h.rd ?_; simp [fkey, QUE_F_STATE.windex, EVT_LEVEL.latched, EVT_PEND.pending, QUE_STATUS.ring_full]; simp [RingId.Exists] at hp; omega
  | xr x => simp only [ringWindex, noteRing_xrings]
  | sq q => rfl
  | xq x => rfl

/-- A record is written whole into its slot (R197). -/
theorem ringWrite_mem (s : State) (r : RingId) (h : HeldRec) :
    (ringWrite s r h).mem = memPutList s.mem (hostFlat (ringEntry s r (ringWindex s r)))
      (recordBytes (hubTick s) (ringPhase (ringSize s r) (ringWindex s r)) h.body) := by
  unfold ringWrite; cases r <;> dsimp only <;> (repeat' split) <;> simp [sendMsix_mem, memStore]

@[simp] theorem ringWrite_queues (s : State) (r : RingId) (h : HeldRec) : (ringWrite s r h).queues = s.queues := by
  unfold ringWrite; cases r <;> dsimp only <;> (repeat' split) <;> simp [sendMsix_queues, memStore]

/-- The write index moves by one, modulo 2^32 (R197). -/
theorem ringWrite_window {s : State} {r : RingId} (h : HeldRec) (hr : r.Exists) (hq : ∀ q, r ≠ .sq q) (hx : ∀ x, r ≠ .xq x) :
    ringWindex (ringWrite s r h) r = (ringWindex s r + 1) % 2 ^ 32 := by
  have e (w : Nat) (t : State) (hw : w < 2 ^ 32) : ringWindex (noteRing (putWindex t r w) r) r = w := by
    rw [ringWindex_noteRing hr]
    cases r with
    | cr c => simp only [ringWindex, putWindex, rd_wr_same]; exact Nat.mod_eq_of_lt hw
    | fr f => simp only [ringWindex, putWindex, rd_wr_same]; exact Nat.mod_eq_of_lt hw
    | xr x => simpa [ringWindex, putWindex, kmod, kget] using hw
    | sq q => exact absurd rfl (hq q)
    | xq x => exact absurd rfl (hx x)
  have e := e ((ringWindex s r + 1) % 2 ^ 32) (memStore s (hostFlat (ringEntry s r (ringWindex s r)))
    (recordBytes (hubTick s) (ringPhase (ringSize s r) (ringWindex s r)) h.body)) (Nat.mod_lt _ (by decide))
  unfold ringWrite
  cases r <;> dsimp only
  all_goals first
    | exact e
    | (split <;> first | exact e | (simp only [ringWindex, rd_congr (sendMsix_fields _ _)]; exact e))

/-- Putting a record into a ring leaves what every ring holds back and the head it last observed. -/
theorem ringWrite_held (s : State) (r p : RingId) (h : HeldRec) :
    (getRing (ringWrite s r h) p).held = (getRing s p).held ∧ (getRing (ringWrite s r h) p).head = (getRing s p).head := by
  have m (t : State) (v : Nat) : getRing (sendMsix t v) p = getRing t p := by
    obtain ⟨a, b, c, d⟩ := sendMsix_rings t v
    cases p <;> simp only [getRing, a, b, c, d]
  have w (t : State) (r : RingId) (i : Nat) : getRing (putWindex t r i) p = getRing t p := by cases r <;> cases p <;> rfl
  have u (t : State) (r : RingId) (e : Bool) : (getRing (putRing t r { getRing t r with episode := e }) p).held = (getRing t p).held ∧
      (getRing (putRing t r { getRing t r with episode := e }) p).head = (getRing t p).head := by
    cases r <;> cases p <;> simp only [getRing, putRing, and_self]
    all_goals
      rename_i a b
      by_cases h : b = a
      · subst h; simp [kget]
      · simp [kget_kput_other _ _ _ h]
  have n (t : State) (r : RingId) : (getRing (noteRing t r) p).held = (getRing t p).held ∧ (getRing (noteRing t r) p).head = (getRing t p).head := by
    have k (t : State) (src : Nat) : getRing (raise (setBit t QUE_STATUS.ring_full) src) p = getRing t p := by
      unfold raise pendSource; dsimp only; split <;> cases p <;> rfl
    unfold noteRing; dsimp only; repeat' split
    all_goals (try rw [k]); first | exact u t r _ | exact ⟨rfl, rfl⟩
  have g (t : State) (a i : Nat) (bs : List Byte) :
      (getRing (noteRing (putWindex (memStore t a bs) r i) r) p).held = (getRing t p).held ∧
      (getRing (noteRing (putWindex (memStore t a bs) r i) r) p).head = (getRing t p).head := by
    rw [(n _ r).1, (n _ r).2, w]; exact ⟨rfl, rfl⟩
  unfold ringWrite
  cases r <;> dsimp only <;> (repeat' split) <;> (try rw [m]) <;> exact g _ _ _ _

end Sys2Proof.Machine
end

