-- ==== Sys2Proof/Laws/Tiles.lean ====
section
/-!
SUPPORT. Tile memory: a row written into a tile touches no byte outside the tile, and reading a row touches none at all.
-/

namespace Sys2Proof.Machine

/-- A byte of the tile memory of one of the cores. -/
def InTiles (cores : List Nat) (a : Nat) : Prop := ∃ c ∈ cores, tileFlat c 0 ≤ a ∧ a < tileFlat c 0 + 2 ^ 20

theorem leBytes_length (n v : Nat) : (leBytes n v).length = n := by
  induction n generalizing v with
  | zero => rfl
  | succ n ih => simp [leBytes, ih]

theorem raise_mem (s : State) (src : Nat) : (raise s src).mem = s.mem := by unfold raise pendSource; dsimp only; split <;> rfl
theorem raiseIf_mem (c : Bool) (s : State) (src : Nat) : (raiseIf c s src).mem = s.mem := by unfold raiseIf; split <;> simp [raise_mem]
theorem dueRow_mem (s : State) (row cause : Nat) : (dueRow s row cause).mem = s.mem := by unfold dueRow; split <;> rfl
theorem rowErr_mem (s : State) (row : Nat) : (rowErr s row).mem = s.mem := by
  unfold rowErr; dsimp only; split
  · rw [dueRow_mem]
  · rfl

theorem countCe_mem (s : State) (u : Nat) : (countCe s u).mem = s.mem := by
  unfold countCe; dsimp only; repeat' split
  all_goals simp [raiseIf_mem, rowErr_mem, incSat]

theorem countUe_mem (s : State) (u : Nat) (p : Bool) : (countUe s u p).mem = s.mem := by
  unfold countUe; dsimp only; repeat' split
  all_goals simp [raiseIf_mem, dueRow_mem, incSat]

theorem mergeUnit_mem (s : State) (u : Nat) : (mergeUnit s u).mem = s.mem := by
  unfold mergeUnit; repeat' split
  all_goals simp [dueRow_mem, countCe_mem]

/-- The bytes that a write leaves: its own, over what was there. -/
theorem memWrite_mem (s : State) (a : Nat) (bs : List Byte) : (memWrite s a bs).mem = memPutList s.mem a bs := by
  have fold : ∀ (l : List Nat) (s : State), (l.foldl mergeUnit s).mem = s.mem := by
    intro l
    induction l with
    | nil => exact fun _ => rfl
    | cons u l ih => exact fun s => (ih _).trans (mergeUnit_mem s u)
  unfold memWrite
  rw [memStore, fold]

theorem memWrite_outside (s : State) (a : Nat) (bs : List Byte) (x : Nat) (h : x < a ∨ a + bs.length ≤ x) :
    memByte (memWrite s a bs).mem x = memByte s.mem x := by
  rw [memWrite_mem]; exact memByte_memPutList_outside bs s.mem a x h

/-- A merged bit run touches only the bytes that hold it. -/
theorem writeBits_outside (s : State) (a bit len v x : Nat) (h : x < a + bit / 8 ∨ a + bit / 8 + (bit % 8 + len + 7) / 8 ≤ x) :
    memByte (writeBits s a bit len v).mem x = memByte s.mem x := by
  unfold writeBits
  split
  · rfl
  · dsimp only
    have hl : ∀ n w, (leBytes n w).length = n := leBytes_length
    repeat' split
    all_goals first
      | rfl
      | (repeat rw [memWrite_outside]
         all_goals (simp only [List.length_take, List.length_drop, hl]; omega))

theorem tilePut_outside (core fuel o bit len v x : Nat) (s : State) (ho : o < 2 ^ 20) (hb : bit < 8)
    (h : x < tileFlat core 0 ∨ tileFlat core 0 + 2 ^ 20 ≤ x) : memByte (tilePut core fuel o bit len v s).mem x = memByte s.mem x := by
  induction fuel generalizing o bit len v s with
  | zero => rfl
  | succ n ih =>
    have e : ∀ len, len ≤ (2 ^ 20 - o) * 8 - bit → memByte (writeBits s (tileFlat core o) bit len v).mem x = memByte s.mem x := by
      intro len hl
      apply writeBits_outside
      simp only [tileFlat] at *
      omega
    unfold tilePut
    dsimp only
    split
    · exact e len ‹_›
    · rw [ih 0 0 _ _ _ (by decide) (by decide)]; exact e _ (Nat.le_refl _)

/-- A row written into a tile leaves every byte outside the tile. -/
theorem tileWrite_outside (s : State) (core row bit w : Nat) (vals : List Nat) (x : Nat)
    (h : x < tileFlat core 0 ∨ tileFlat core 0 + 2 ^ 20 ≤ x) : memByte (tileWrite s core row bit w vals).mem x = memByte s.mem x :=
  tilePut_outside _ _ _ _ _ _ _ _ (Nat.mod_lt _ (by decide)) (Nat.mod_lt _ (by decide)) h

/-- Reading with its error checks changes no byte. -/
theorem eccRead_mem (s : State) (a n : Nat) : (eccRead s a n).1.mem = s.mem := by
  unfold eccRead
  have : ∀ (l : List Nat) (acc : State × Nat), acc.1.mem = s.mem →
      (l.foldl (fun (x : State × Nat) u => match x with
        | (s, st) => if s.ue.contains u then (countUe s u, stUncorrectable) else if s.ce.contains u then (countCe s u, st) else (s, st)) acc).1.mem = s.mem := by
    intro l
    induction l with
    | nil => intro acc h; exact h
    | cons u l ih =>
      intro acc h
      refine ih _ ?_
      obtain ⟨x, st⟩ := acc
      dsimp only at h ⊢
      repeat' split
      all_goals simp [countUe_mem, countCe_mem, h]
  exact this _ _ rfl

theorem tileEcc_mem (s : State) (core row bit len : Nat) : (tileEcc s core row bit len).1.mem = s.mem := by
  unfold tileEcc
  split
  · rfl
  · have : ∀ (l : List (Nat × Nat)) (acc : State × Nat), acc.1.mem = s.mem →
        (l.foldl (fun (x : State × Nat) r => match x with | (s, st) => ((eccRead s r.1 r.2).1, stWorse st (eccRead s r.1 r.2).2)) acc).1.mem = s.mem := by
      intro l
      induction l with
      | nil => intro acc h; exact h
      | cons u l ih => intro acc h; exact ih _ (by rw [← h]; exact eccRead_mem _ _ _)
    exact this _ _ rfl

theorem countWrap_mem (s : State) (core row bit len : Nat) : (countWrap s core row bit len).mem = s.mem := by
  unfold countWrap; split <;> simp [incSat]

/-- Reading the rows of a block changes no byte. -/
theorem readRows_mem (s : State) (core : Nat) (l : List RowAcc) : (readRows s core l).1.mem = s.mem := by
  unfold readRows
  have : ∀ (l : List RowAcc) (acc : State × Nat), acc.1.mem = s.mem →
      (l.foldl (fun (x : State × Nat) (a : RowAcc) => match x with
        | (s, st) => ((tileEcc (if a.fresh then countWrap s core a.row a.bit a.len else s) core a.row a.bit a.len).1,
            stWorse st (tileEcc (if a.fresh then countWrap s core a.row a.bit a.len else s) core a.row a.bit a.len).2)) acc).1.mem = s.mem := by
    intro l
    induction l with
    | nil => intro acc h; exact h
    | cons u l ih =>
      intro acc h
      refine ih _ ?_
      rw [← h]
      refine (tileEcc_mem _ _ _ _ _).trans ?_
      split
      · exact countWrap_mem _ _ _ _ _
      · rfl
  exact this _ _ rfl

end Sys2Proof.Machine
end

