-- ==== Sys2Proof/Tests/Slice0.lean ====
section
/-!
SUPPORT. Tests: for each statement that has hypotheses, states and operands that meet them, clause by clause (`test_meets_…`); the checks of
WellFormed; results that the spec gives, each about one step on a small state.
-/

-- One declaration at a time: the check of the whole package then stays within its memory.
set_option Elab.async false

namespace Sys2Proof.Tests

open Sys2Proof Sys2Proof.Machine

/-! ### Small states -/

/-- The state after reset with no register field listed: every field at its own reset value. -/
def bare : State := { State.reset with fields := [] }

/-- That state with some register fields set: field, unit, value. -/
def withFields (l : List (Fld × Nat × Nat)) : State := l.foldl (fun s e => wr s e.1 e.2.1 e.2.2) bare

/-- A descriptor from values at bit positions. -/
def descOf (l : List (Nat × Nat)) : Line := BitVec.ofNat 512 (l.foldl (fun n e => n + e.2 * 2 ^ e.1) 0)

/-- A context of command 5 with a descriptor. -/
def ctxOf (d : Line) : Ctx := ctxNew 5 d [0]

/-- A state with a context at work in queue 3. -/
def withCtx (c : Ctx) (s : State) : State := putQ s 3 { queueEmpty with ctxs := [c] }

/-- A state with a descriptor of a value at bit positions at work in queue 3. -/
def atWork (op : Nat) (l : List (Nat × Nat)) : State := withCtx (ctxOf (descOf ((0, op) :: l))) bare

/-- Job 0's page table in stack 0: its first gigabyte maps to the first of the stack, with every permission (Tables 6.1, 6.2). -/
def paged : State :=
  let s := withFields [(XLT_JOB_ROOT.enable, 0, 1), (XLT_JOB_ROOT.root, 0, 1), (XLT_CTL.tc_en, 0, 0), (DIE_STATUS.die_state, 0, 1)]
  { s with mem := memPutList (memPutList [] 0x10000 (leBytes 8 0x20001)) 0x20000 (leBytes 8 0x1F) }

/-! ### The machine -/

theorem test_meets_StepKeepsInvariant :
    MachineInv { State.reset with pending := [.dbgSeal] } ∧ ∃ t, step { State.reset with pending := [.dbgSeal] } = .next t :=
  ⟨⟨by decide +kernel, by decide +kernel⟩, _, rfl⟩

theorem test_meets_IdleStepCountsTicks :
    State.reset.pending = [] ∧ State.reset.pw.offP3 = false ∧ 0 ∈ State.reset.hst.hubsUp ∧ 1 ∈ State.reset.hst.hubsUp ∧ State.reset.hst.hubsUp.Nodup ∧
    State.reset.tcn = [] ∧ State.reset.mirLoad = none ∧ State.reset.landings = [] ∧ primaryHub State.reset ∈ State.reset.hst.hubsUp ∧
    ({ State.reset with pw := { State.reset.pw with offP3 := true } }).pw.offP3 = true := by decide +kernel

theorem test_meets_CommandsLeaveQueueAlone : ∃ t, exec .dbgSeal State.reset = .next t := ⟨_, rfl⟩

theorem test_meets_CommandsCompleteOrAreIllFormed :
    (Instr.descriptorRead 0 [0]).wf = true ∧ (Instr.descriptorRead 0 (List.replicate 8 0)).wf = true ∧ 8 < (List.replicate 9 (0 : Line)).length ∧
    ([] : List LaneTest).length ≠ 16 := by decide +kernel

/-! ### Queues (file 05) -/

theorem test_meets_NopFenceTimerComplete :
    (runningCtx (atWork opNop []) 3 5 opNop).isSome = true ∧
    (runningCtx (atWork opFence [(64, 3)]) 3 5 opFence).any (fun c => decide (lineBits c.desc 8 0 3 < 4 ∧ lineBits c.desc 8 0 3 < 5)) = true ∧
    (let s := atWork opFence [(64, 5)]
     (runningCtx s 3 5 opFence).any (fun c => decide (5 ≤ lineBits c.desc 8 0 3)) = true ∧ (∀ w ∈ s.farWrites, w.queue ≠ 3) ∧
       (∀ o ∈ s.rmtOps, o.origin.queue = 3 → o.code = rcLoad) ∧
       ∃ o ∈ [(⟨4, .signal 3 5, rcAdd, 8, 1, 9, 0, [], 7, 0, true, false, 6, 0, 0, 1, 20, 20, [], false, none, 0⟩ : RmtOp)], o.origin.queue = 3 ∧ o.code ≠ rcLoad) ∧
    (let s := { atWork opFence [(64, 4)] with farWrites := [⟨0, 3, 4, 0, [], []⟩] }
     (runningCtx s 3 5 opFence).any (fun c => decide (4 ≤ lineBits c.desc 8 0 3)) = true ∧ ∃ w ∈ s.farWrites, w.queue = 3) ∧
    (∀ c ∈ runningCtx (atWork opTimer [(64, 0), (128, 1)]) 3 5 opTimer, (getQ (atWork opTimer [(64, 0), (128, 1)]) 3).ctxs.head? = some c ∧ c.started = false ∧ c.tick = 0) ∧
    (runningCtx (atWork opTimer [(64, 0), (128, 1)]) 3 5 opTimer).isSome = true ∧ (runningCtx (atWork opTimer [(64, 9)]) 3 5 opTimer).any (·.tick == 9) = true ∧
    (runningCtx (withCtx { ctxOf (descOf [(0, opTimer)]) with started := true } bare) 3 5 opTimer).any (fun c => c.started && c.tick == 0) = true := by
  decide +kernel


/-- A WAIT or SIGNAL on address 0x800 of job 0. -/
def onSem (op : Nat) (l : List (Nat × Nat)) : State := withCtx (ctxOf (descOf ([(0, op), (64, 0x800)] ++ l))) paged

theorem test_meets_SemaphoresAreTestedAndSignalled :
    (let s := onSem opWait []
     let x := translate s 1280 (rd s QUE_Q_BIND.space 3) 0x800 accRead
     (runningCtx s 3 5 opWait).any (fun c => sigAddr c.desc == 0x800 && lineBits c.desc 0x10 0 64 == 0) = true ∧ x.status = stOk ∧ x.flat < 2 ^ 52 ∧
       placeOf x.s x.flat = .stack 0 ∧ (readFlat x.s x.flat 8).status = stOk ∧ 0 ≤ leNat (readFlat x.s x.flat 8).data ∧
       ({ s with watch := [(0x20, 3, 5)] }).watch.any (·.2 == (3, 5)) = true) ∧
    (let s := onSem opWait [(128, 1), (192, 1)]
     let x := translate s 1280 (rd s QUE_Q_BIND.space 3) 0x800 accRead
     let g := readFlat x.s x.flat 8
     (runningCtx s 3 5 opWait).any (fun c => lineBits c.desc 0x10 0 64 == 1 && lineBits c.desc 0x18 0 32 != 0) = true ∧ g.status = stOk ∧
       leNat g.data < 1 ∧ g.s.watch.any (·.2 == (3, 5)) = false ∧ watchLines g.s < 1024) ∧
    (let s := onSem opSignal [(128, 1)]
     let x := translate s 1280 (rd s QUE_Q_BIND.space 3) 0x800 accAtomic
     let g := readFlat x.s x.flat 8
     (runningCtx s 3 5 opSignal).any (fun c => sigRemote c.desc == false && sigAddr c.desc == 0x800) = true ∧ x.status = stOk ∧ x.flat < 2 ^ 64 ∧ g.status = stOk ∧
       (writeFlat g.s 3 5 x.flat (leBytes 8 (leNat g.data + 1))).2 = stOk) ∧
    (let s := { onSem opSignal [(128, 1)] with mem := memPutList paged.mem 0x20000 (leBytes 8 0x5F) }
     let x := translate s 1280 (rd s QUE_Q_BIND.space 3) 0x800 accAtomic
     let y := wr (wr x.s PNL_HOST_STATUS.rate 0 1) PNL_HOST_STATUS.cache_en 0 1
     let g := readFlat y x.flat 8
     x.status = stOk ∧ 2 ^ 64 ≤ x.flat ∧ homeUp x.s = false ∧ homeUp y = true ∧ on y PNL_HOST_STATUS.cache_en (rd y PNL_HUB_ROLE.primary) = true ∧
       on (wr y PNL_HOST_STATUS.cache_en 0 0) PNL_HOST_STATUS.cache_en 0 = false ∧ g.status = stOk ∧ (writeFlat g.s 3 5 x.flat (List.replicate 8 0)).2 = stOk) ∧
    (runningCtx (onSem opSignal [(206, 1)]) 3 5 opSignal).any (fun c => sigRemote c.desc && !c.started) = true ∧
    (runningCtx (withCtx { ctxOf (descOf [(0, opSignal), (206, 1)]) with started := true } paged) 3 5 opSignal).any (fun c => sigRemote c.desc && c.started) = true := by
  decide +kernel

/-- Queue 3 runs and has one descriptor to dispatch, with core list entry 0 (core 0 of die 0). -/
def fetched (d : Line) : State :=
  putQ (withFields [(QUE_Q_STATE.state, 3, 1), (QUE_CSET.count, 0, 1), (QUE_CSET.first, 0, 0)]) 3 { queueEmpty with fetched := [(5, d)] }

/-- A COPY of one element from job memory to job memory. -/
def copyDesc : Line := descOf [(0, opCopy), (64, 0x100), (128, 0x200), (256, 1), (280, 1), (304, 1)]

theorem test_meets_DispatchTakesNextDescriptor :
    pickQueue bare = none ∧
    (let s := fetched (descOf [(0, opNop)])
     pickQueue s = some 3 ∧ (getQ s 3).fetched = [(5, descOf [(0, opNop)])] ∧ findCtx s 3 5 = none ∧ descOpcode (descOf [(0, opNop)]) ∉ [opMatmul, opVector, opCopy] ∧
       headerOk (descOf [(0, opNop)]) = true ∧ bodyOk (taken s 3 []) 3 (coreSet s 3) (descOf [(0, opNop)]) = true) ∧
    (let s := fetched copyDesc
     pickQueue s = some 3 ∧ findCtx s 3 5 = none ∧ headerOk copyDesc = true ∧ coreSet s 3 = some [0] ∧ bodyOk (taken s 3 []) 3 (some [0]) copyDesc = true ∧
       (∀ n ∈ coreDies [0], dieTripped s n = false ∧ isCut s n = false) ∧ siteOf [0] = none ∧ ∀ n ∈ coreDies [0], isCut { s with cut := [(40 + rd s PNL_HUB_ROLE.primary, 0)] } n = true) ∧
    siteOf [2 ^ 15] = some 0 ∧ coreSetOk (withFields [(UCI_SITE_STATUS.state, 0, 3), (UCI_SITE_INFO.engines, 0, 1)]) opCopy [2 ^ 15] = true ∧
    (let d := descOf [(0, opNop), (16, 1)]
     pickQueue (fetched d) = some 3 ∧ headerOk d = false) := by decide +kernel

theorem test_meets_DescriptorsAreReadBelowTail :
    (let s := putQ (withFields [(QUE_Q_STATE.state, 3, 1), (PNL_HOST_STATUS.rate, 0, 1)]) 3 { queueEmpty with tail := 8 }
     homeUp s = true ∧ homeUp bare = false ∧ qState s 3 = qsRunning ∧ (getQ s 3).preempting = false ∧ (getQ s 3).tailFault = false) ∧
    qState (withFields [(QUE_Q_STATE.state, 4095, 2)]) 4095 = qsFaulted ∧ (List.replicate 8 (0 : Line)).length = 8 := by decide +kernel

/-- Queue 3's rings: completion ring 0 and fault ring 0 with 64 records. -/
def rings (l : List (Fld × Nat × Nat)) : State :=
  withFields ([(PNL_HOST_STATUS.rate, 0, 1), (QUE_C_RING.enable, 0, 1), (QUE_C_RING.size_log2, 0, 6), (QUE_F_RING.enable, 0, 1), (QUE_F_RING.size_log2, 0, 6)] ++ l)

theorem test_meets_RecordsAreWrittenOnce :
    (let c : Ctx := { ctxOf 0 with phase := .done }
     let s := withCtx c (rings [])
     findCtx s 3 5 = some c ∧ (∀ w ∈ s.farWrites, w.queue ≠ 3 ∨ w.idx ≠ 5) ∧ descCompMode c.desc = 0 ∧ ctxStatus c = stOk) ∧
    (let c : Ctx := { ctxOf (descOf [(13, 1)]) with phase := .done }
     findCtx (withCtx c (rings [])) 3 5 = some c ∧ descCompMode c.desc ≠ 0 ∧ ringReady (withCtx c (rings [])) (.cr 0) = true ∧
       ringReady (withCtx c bare) (.cr 0) = false ∧ (getRing bare (.cr 0)).episode = false) ∧
    (let s := putRing (rings []) (.cr 0) ⟨0, [⟨4095, 5, [], false⟩], false⟩
     homeUp s = true ∧ homeUp (wr s PNL_HOST_STATUS.rate 0 0) = false ∧ (getRing s (ringOf 0 0)).held = [⟨4095, 5, [], false⟩] ∧ saveOpen s 0 5 = false ∧ ringEnabled s (ringOf 0 0) = true ∧ ringFull s (ringOf 0 0) = false) ∧
    (let r : StopRec := ⟨5, 0, opCopy, stopPlain stTimeout 3 0⟩
     let s := putQ (rings [(QUE_Q_STATE.state, 3, 1)]) 3 { queueEmpty with stops := [r] }
     (getQ s 3).stops = [r] ∧ qState s 3 = qsRunning ∧ qState (wr s QUE_Q_STATE.state 3 3) 3 = qsDraining ∧ unitsStopped s 3 5 = true ∧
       (getQ s 3).frecHeld = false ∧ ringReady s (.fr 0) = true) := by
  decide +kernel

theorem test_meets_QueuesAndRingsFollowTheirTables :
    (qState bare 0 = qsDisabled ∧ sizeOk (rd (withFields [(QUE_Q_RING.size_log2, 0, 6)]) QUE_Q_RING.size_log2 0) = true ∧
      sizeOk (rd (withFields [(QUE_Q_RING.size_log2, 0, 15)]) QUE_Q_RING.size_log2 0) = true ∧
      sizeOk (rd (withFields [(QUE_Q_RING.size_log2, 0, 5)]) QUE_Q_RING.size_log2 0) = false) ∧
    (qState (withFields [(QUE_Q_STATE.state, 0, 1)]) 0 = qsRunning ∧ qState (withFields [(QUE_Q_STATE.state, 0, 2)]) 0 = qsFaulted ∧
      (getQ (withFields [(QUE_Q_STATE.state, 0, 2)]) 0).tailFault = false) ∧
    (let s := withFields [(QUE_Q_STATE.state, 0, 3)]
     qState s 0 = qsDraining ∧ (getQ s 0).ctxs = [] ∧ (getQ s 0).stops = [] ∧ (getQ s 0).frecHeld = false) ∧
    on (withFields [(QUE_CTL.engine_en, 0, 0)]) QUE_CTL.engine_en = false ∧ ringEnabled bare (ringOf 0 4095) = false ∧ ringEnabled bare (ringOf 1 255) = false ∧
    sizeOk (rd (withFields [(QUE_C_RING.size_log2, 4095, 6)]) QUE_C_RING.size_log2 4095) = true ∧ sizeOk (rd (withFields [(QUE_C_RING.size_log2, 0, 5)]) QUE_C_RING.size_log2 0) = false ∧
    on bare QUE_X_RING.enable 15 = false ∧ sizeOk (rd (withFields [(QUE_X_RING.size_log2, 15, 6)]) QUE_X_RING.size_log2 15) = true ∧
    sizeOk (rd (withFields [(QUE_X_RING.size_log2, 0, 17)]) QUE_X_RING.size_log2 0) = false := by decide +kernel

theorem test_meets_DoorbellLinesAreReadAgain :
    (let l : DbLine := ⟨0x40, [.sq 3], false, true⟩
     let s := { withFields [(PNL_HOST_STATUS.rate, 0, 1), (QUE_Q_STATE.state, 3, 1), (QUE_Q_RING.size_log2, 3, 6)] with dbLines := [l] }
     homeUp s = true ∧ s.dbLines = [l] ∧ l.addr = (0x47 : W64).toNat / 64 * 64 ∧ l.users = [.sq 3] ∧ l.reread = true ∧ qState s 3 = qsRunning ∧ (getQ s 3).tailFault = false ∧
       (lineBits (descOf [(0, 64)]) (4 * (ringSlot s (.sq 3)).2) 0 32 + 2 ^ 32 - rd s QUE_Q_STATE.head 3) % 2 ^ 32 ≤ 2 ^ rd s QUE_Q_RING.size_log2 3) ∧
    (∀ l ∈ ([⟨0x40, [], true, false⟩] : List DbLine), l.reread = false) ∧
    (let s := { onSem opWait [] with unwatched := [(3, 5)] }
     s.unwatched = [((3 : QueueNo).val, (5 : BitVec 32).toNat)] ∧ (runningCtx s 3 5 opWait).isSome = true) := by decide +kernel

/-! ### Number formats and the arrays (files 02 to 04) -/

theorem test_meets_CellSumsExactlyInAnyOrder :
    ([.fin false 1 0, .fin true 1 0] : List Val).all isFin = true ∧ ([Val.nan, .fin false 1 0] : List Val).Perm [.fin false 1 0, .nan] :=
  ⟨by decide +kernel, List.Perm.swap _ _ _⟩

theorem test_meets_WorstStatusIgnoresOrder : stClass stOk < stClass stTimeout ∧ stClass stTimeout = stClass stTimeout ∧ stTimeout ≠ stOk := by decide +kernel

theorem test_meets_X128AddIsExactOrSaturates :
    (0 : Nat) < 2 ^ 128 ∧ isFin (elemVal .x128 0 0) = true ∧ isFin (elemVal .x128 0 (2 ^ 127 - 2)) = true ∧ (signed 128 0 + signed 128 (2 ^ 127 - 2)).natAbs ≤ 2 ^ 127 - 2 ∧
    2 ^ 127 - 2 < (signed 128 1 + signed 128 (2 ^ 127 - 2)).natAbs ∧ isFin (elemVal .x128 0 1) = true := by decide +kernel

/-- A MATMUL of FP32 values with its records read. -/
def matmulCtx : Ctx := { ctxOf (descOf [(0, opMatmul)]) with recs := some (List.replicate 128 0, []) }

/-- A VECTOR with an operation and its records read. -/
def vectorCtx (op : Nat) : Ctx := { ctxOf (descOf [(0, opVector), (0x2C * 8 + 6, op)]) with recs := some (List.replicate 128 0, []) }

theorem test_meets_MatmulWritesOnlyItsTiles : ∃ s' pl, MatmulAt (withCtx matmulCtx bare) 3 5 s' pl := by
  have p : (mmPlan matmulCtx.desc [0] (List.replicate 128 0) []).isSome = true := by decide +kernel
  exact ⟨_, _, matmulCtx, _, _, by decide +kernel, by decide +kernel, by decide +kernel, rfl, (Option.some_get p).symm⟩

theorem test_meets_VectorsRunTheirRows : ∀ op < 0x13, ∃ s' pl, VectorAt op (withCtx (vectorCtx op) bare) 3 5 s' pl := by
  intro op h
  have hp : ∀ op < 0x13, (vecPlan (vectorCtx op).desc [0] (List.replicate 128 0) []).isSome = true ∧ descOpcode (vectorCtx op).desc = opVector ∧
      (vecBody (vectorCtx op).desc).op = op ∧ findCtx (withCtx (vectorCtx op) bare) 3 5 = some (vectorCtx op) ∧
      sharesRun (withCtx (vectorCtx op) bare) 3 (vectorCtx op) = true := by decide +kernel
  obtain ⟨p, q, r, f, g⟩ := hp op h
  exact ⟨_, _, _, _, _, f, q, g, r, rfl, (Option.some_get p).symm⟩

theorem test_meets_CopiesRunTheirShares : ∀ op < 3, ∀ k < 4, let c := ctxOf (descOf [(0, opCopy), (0x38 * 8 + 32, k), (0x38 * 8 + 37, op)])
    let s := withCtx c { bare with copyShares := [(0, 3, 5)] }
    findCtx s 3 5 = some c ∧ descOpcode c.desc = opCopy ∧ sharesRun s 3 c = true ∧ (cpBody c.desc).op = op ∧ engineFirst s 0 3 5 = true ∧
    (cpPlan c.desc c.cores).any (fun pl => (pl.src.kind == 3) == (k == 3) && engineSet pl.cores == [0]) = true ∧ c.ran = [] ∧ c.stops = [] ∧
    dieHeld s (0 / 32) = false ∧ getCopyRemote s 3 5 0 = none := by decide +kernel


/-! ### Collectives and remote memory (files 11, 12) -/

/-- A packet from node 1 to this panel. -/
def packetOf (cls owner : Nat) (payload : List Byte) : Packet := { packetNew bare 0 cls 41 owner payload with src := 1 }

/-- The command of a collective of group 5 (nodes 0 and 1). -/
def collCmd (d : Line) : CollCmd := ⟨3, 5, 5, 0, d, true, true, false, false, [], [], [], [], 0, [], [], [], [], [], false⟩

/-- Group 5 is enabled with key 7, and a command of it is at work in queue 3. -/
def collState (c : CollCmd) (ins : List Packet) : State :=
  { withCtx (ctxOf c.desc) (withFields [(GRP_CTL.enable, 0, 1), (GRP_ENT_CTL.enable, 5, 1), (GRP_ENT_CTL.key, 5, 7), (GRP_ENT_CTL.depth, 5, 4),
      (GRP_ENT_SHAPE.nx, 5, 2), (GRP_ENT_SHAPE.ny, 5, 1), (GRP_ENT_SHAPE.zmask, 5, 1), (FAB_COORD.dim_x, 0, 2), (FAB_COORD.dim_y, 0, 1), (FAB_COORD.dim_z, 0, 1)]) with
    colls := [c], collIn := ins, groups := [(5, [0, 1])] }

/-- An ALL_GATHER of 16 elements in group 5. -/
def gatherDesc : Line := descOf [(0, opAllGather), (0x28 * 8, 16), (0x30 * 8, 5)]

/-- A COL packet of group 5 for command 0, chunk 0, with key 7. -/
def colPkt (ty : Nat) : Packet :=
  packetOf 2 (colOwner 5 ty 0 7 0) (leBytes 4 0 ++ leBytes 4 0 ++ leBytes 4 16 ++ leBytes 1 (lineBits gatherDesc 0x31 2 5) ++ leBytes 19 0)

theorem test_meets_CollectivesStartAndRun :
    (∀ op ∈ [opReduceScatter, opAllGather, opExchange],
      let c := collCmd (descOf [(0, op)])
      (runningCtx (collState c []) 3 5 op).isSome = true ∧ getColl (collState c []) 3 5 = some c ∧ c.started = true ∧ (collBody c.desc).count = 0 ∧ c.counts = [] ∧
        c.failed = [] ∧ c.lost = false) ∧
    (collBody gatherDesc).count ≠ 0 ∧
    (let c := { collCmd gatherDesc with started := false }
     let s := collState c []
     (s.colls.find? fun c => !c.started && on s GRP_CTL.enable && collDist s c.group c.seq < rd s GRP_ENT_CTL.depth c.group &&
      (runningCtx s c.queue c.idx (descOpcode c.desc)).isSome) = some c) := by decide +kernel

theorem test_meets_CollectivePacketsReachTheirCommand : ∀ ty < 5,
    let c := { collCmd gatherDesc with rxs := [⟨1, 0, [], none, false⟩], txs := [⟨0, [], [], sealNone⟩] }
    let p := colPkt ty
    let s := collState c [p]
    (s.collIn.find? fun p => colType p == ty) = some p ∧ on s GRP_ENT_CTL.enable (colGroup p) = true ∧ on s GRP_CTL.enable = true ∧
      colKey p = rd s GRP_ENT_CTL.key (colGroup p) ∧ (colSeq p + 2 ^ 32 - rd s GRP_ENT_SEQ.next (colGroup p)) % 2 ^ 32 < 2 ^ 31 ∧
      (s.colls.find? fun c => c.group == colGroup p && c.seq == colSeq p) = some c ∧ (kget s.groups (colGroup p) []).idxOf? p.src = some 1 ∧
      paramOk (collBody c.desc) p = true ∧ c.rxs.any (fun r => r.src == 1 && r.index == colIndex p && !r.used) = true ∧
      (c.txs.find? (·.index == colIndex p)).isSome = true ∧ ((collEnv (colTaken s p) c).plan[colIndex p]?).isSome = true ∧
      (runningCtx s c.queue c.idx (descOpcode c.desc)).isSome = true ∧
      on { s with fields := kput s.fields (fkey GRP_ENT_CTL.enable 5) 0 } GRP_ENT_CTL.enable (colGroup p) = false ∧
      colKey p ≠ rd (wr s GRP_ENT_CTL.key 5 8) GRP_ENT_CTL.key (colGroup p) := by decide +kernel

theorem test_meets_CollectiveTimersAndGroups :
    (let c := { collCmd gatherDesc with rxs := [⟨1, 0, [], none, false⟩] }
     let s := collState c []
     getColl s 3 5 = some c ∧ (c.rxs.find? fun r => r.src == 1 && r.index == 0 && !r.used).isSome = true ∧ (runningCtx s 3 c.idx (descOpcode c.desc)).isSome = true ∧
       c.group < 1024 ∧ c.started = true ∧ qState s 3 ≠ qsFaulted ∧ qState s 3 ≠ qsStopped) ∧
    on bare GRP_CTL.enable = false ∧ rd (withFields [(GRP_STAGE.size_mib, 0, 0)]) GRP_STAGE.size_mib = 0 ∧ rd (withFields [(GRP_STAGE.size_mib, 0, 1)]) GRP_STAGE.size_mib ≠ 0 ∧
    bare.colls = [] ∧ on bare GRP_ENT_CTL.enable 1023 = false ∧ grpOk bare 1023 = false ∧
    (let s := withFields [(GRP_STAGE.size_mib, 0, 1023), (GRP_ENT_SHAPE.nx, 1023, 2), (GRP_ENT_SHAPE.ny, 1023, 1), (GRP_ENT_SHAPE.zmask, 1023, 1), (FAB_COORD.dim_x, 0, 2),
        (FAB_COORD.dim_y, 0, 1), (FAB_COORD.dim_z, 0, 1)]
     on s GRP_ENT_CTL.enable 1023 = false ∧ grpOk s 1023 = true) ∧
    on (withFields [(GRP_ENT_CTL.enable, 1023, 1)]) GRP_ENT_CTL.enable 1023 = true := by decide +kernel

/-- Job 0 is paged, and window 9 gives it whole to whoever has key 7. -/
def remoteState : State :=
  [(RMT_CTL.enable, 0, 1), (RMT_WIN_CTL.enable, 9, 1), (RMT_WIN_CTL.key, 9, 7), (RMT_WIN_CTL.size_pages, 9, 1), (RMT_WIN_CTL.read, 9, 1), (RMT_WIN_CTL.write, 9, 1),
    (RMT_WIN_CTL.atomic, 9, 1), (RMT_WIN_CTL.job, 9, 0)].foldl (fun s e => wr s e.1 e.2.1 e.2.2) paged

/-- A request of a code for 8 bytes at offset `o` of window 9, numbered 0. -/
def request (code key o : Nat) : Packet := packetOf 0 (key + 2 ^ 16 * code + 2 ^ 21 * 7) (leBytes 8 (o + 2 ^ 40 * 9) ++ leBytes 16 0 ++ leBytes 16 1)

theorem test_meets_AtomicResultsFollowTable : (4 : Nat) ∈ [4, 8, 16] ∧ 2 ^ 32 - 1 < 2 ^ (8 * 4) ∧ 2 ^ 128 - 1 < 2 ^ (8 * 16) := by decide +kernel

theorem test_meets_RequestsAreCheckedPerformedAnswered :
    (∀ code ∈ [rcLoad, rcStore],
      let p := request code 7 4088
      let s := { remoteState with rmtHeld := [p] }
      let k := checkRequest s p
      takeHeld s code [] s.rmtHeld = some (p, []) ∧ k.wait = false ∧ k.reason = 0 ∧ (readRuns k.runs k.s).status = stOk ∧
        (readRuns k.runs { k.s with ue := [4080 / 64 * 64] }).status = stUncorrectable ∧
        (code = rcStore → (writeRuns noQueue (reqTag p) k.runs (padTo (rqSize p) (rqData p)) k.s).2 ≠ stWait) ∧
        (checkRequest s (request code 7 4089)).wait = false ∧ (checkRequest s (request code 7 4089)).reason ≠ 0 ∧
        (checkRequest (wr s THM_SHUT.dies 0 1) p).wait = true) ∧
    (∀ code ∈ [rcAdd, rcMinS, rcMinU, rcMaxS, rcMaxU, rcSwap, rcCas, rcAddX128], takeHeld remoteState code [] [request code 7 0] = some (request code 7 0, []) ∧
      (performAtomic remoteState (request code 7 0)).status ≠ stWait ∧
      (performAtomic (wr remoteState THM_SHUT.dies 0 1) (request code 7 0)).status = stWait ∧
      atomicDue (wr remoteState THM_SHUT.dies 0 1) (request code 7 0) = true ∧
      atomicDue { remoteState with rmtRecs := [(1, ⟨0, 0, 1⟩)] } (request code 7 0) = false) := by decide +kernel

theorem test_meets_AtomicsActOnce :
    (let s := remoteState
     let p := request rcAdd 7 0
     let k := checkRequest s p
     let g := readRuns k.runs k.s
     k.wait = false ∧ k.reason = 0 ∧ g.status = stOk ∧ (writeRuns noQueue (reqTag p) k.runs (leBytes (rqSize p) (atomicNew (rqCode p) (rqSize p) (leNat g.data) (rqData p)).1) g.s).2 = stOk) ∧
    (let p := request rcAdd 7 0
     let d (r : AtomicRec) : Nat := (rqSeq p + 2 ^ 32 - r.next) % 2 ^ 32
     rmtHole remoteState = false ∧ kfind ({ remoteState with rmtRecs := [(1, ⟨0, 0, 1⟩)] }).rmtRecs p.src = some ⟨0, 0, 1⟩ ∧ rqInc p = 0 ∧ d ⟨0, 0, 1⟩ < 64 ∧ bitOn 1 (d ⟨0, 0, 1⟩) = true ∧
       2 ^ 31 ≤ d ⟨0, 1, 0⟩ ∧ remoteState.rmtCache = []) := by decide +kernel

/-- An operation of a remote SIGNAL to node 1. -/
def remoteOp (flag issued : Bool) : RmtOp := ⟨4, .signal 3 5, rcAdd, 8, 1, 9, 0, [], 7, 0, flag, issued, 6, 0, 0, 1, 20, 20, [], false, none, 0⟩

theorem test_meets_OperationsAreIssuedInOrder :
    (let s := { bare with rmtOps := [remoteOp false false] }
     rmtOutstanding s < 8192 ∧ (s.rmtOps.find? fun o => !o.issued && !o.flag && (!rcIsAtomic o.code || seqFree s o.node)) = some (remoteOp false false) ∧
       (remoteOp false false).node ≠ rd s FAB_COORD.node) ∧
    (let s := { bare with rmtOps := [remoteOp true false] }
     (s.rmtOps.find? fun o => !o.issued && o.flag) = some (remoteOp true false) ∧ (∀ x ∈ s.rmtOps, x.issued = true → x.code = rcLoad) ∧
       (∀ x ∈ s.rmtOps, x.issued = true ∨ 4 ≤ x.id) ∧ (remoteOp true false).doomed = false ∧ rmtOutstanding s < 8192 ∧ seqFree s 1 = true) ∧
    (let s := { bare with rmtOps := [remoteOp false true, remoteOp true false] }
     (s.rmtOps.find? fun o => !o.issued && o.flag) = some (remoteOp true false) ∧ ∃ x ∈ s.rmtOps, x.issued = true ∧ x.code ≠ rcLoad) := by decide +kernel

theorem test_meets_RemoteCommandsAndTheirEngine :
    (let c := ctxOf (descOf [(0, opRemote)])
     findCtx (withCtx c bare) 3 5 = some c ∧ descOpcode c.desc = opRemote ∧ c.phase = .running ∧ rmCount c.desc = 0) ∧
    (let c := ctxOf (descOf [(0, opRemote), (0x18 * 8, 1)])
     rmCount c.desc ≠ 0 ∧ getRmtCmd (withCtx c bare) 3 5 = none ∧
       (getRmtCmd { withCtx c bare with rmtCmds := [⟨3, 5, 0, [], [], none, none, stOk⟩] } 3 5).isSome = true) ∧
    (let p := packetOf 1 (2 ^ 16 * 6) []
     let s := { bare with rmtOps := [remoteOp false true], rmtReplies := [p] }
     (s.rmtOps.find? fun o => o.issued && o.rid == rpRid p && o.node == p.src) = some (remoteOp false true) ∧ (remoteOp false true).origin = .signal 3 5 ∧
       (∀ x ∈ s.rmtOps, x.id ≠ 4 → x.origin ≠ .signal 3 5) ∧ rpStatus p = stOk ∧ (remoteOp false true).part = none ∧ rcIsAtomic (remoteOp false true).code = true ∧
       (∀ o ∈ bare.rmtOps, ¬(o.issued = true ∧ o.rid = rpRid p ∧ o.node = p.src)) ∧
       (s.rmtOps.find? fun o => o.issued && o.rid == (6 : BitVec 28).toNat) = some (remoteOp false true) ∧ (remoteOp false true).retry < (remoteOp false true).timeout * 10 ∧
       (remoteOp false true).node ≠ rd s FAB_COORD.node) ∧
    rd (withFields [(RMT_STATE.base, 0, 0)]) RMT_STATE.base = 0 ∧ rd (withFields [(RMT_STATE.base, 0, 1)]) RMT_STATE.base ≠ 0 := by decide +kernel

/-! ### Mirrors, landings and admission (file 14) -/

/-- A state whose fabric takes packets for node 64 = (0, 1, 0). -/
def wired (s : State) : State :=
  [(FAB_CTL.enable, 0, 1), (FAB_COORD.dim_x, 0, 1), (FAB_COORD.dim_y, 0, 2), (FAB_COORD.dim_z, 0, 1), (FAB_PORT_STATUS.up, 2, 1),
    (FAB_PORT_STATUS.up, 3, 1)].foldl (fun s e => wr s e.1 e.2.1 e.2.2) s

/-- With `wired` states packets go, without a fabric they wait, and a node that is none fails. -/
theorem test_mirPath : mirPath (wired bare) 64 = .go ∧ mirPath (wr (wired bare) FAB_CTL.enable 0 0) 64 = .waits ∧
    mirPath (wired bare) 65 = .fails (dropCount (wired bare) FAB_DROPS2.bad_node) ∧
    mirPath (wr (wr (wired bare) FAB_PORT_STATUS.up 2 0) FAB_PORT_STATUS.up 3 0) 64 ≠ .go := by decide +kernel

/-- A landing of number 9 of job 0 at a step, to partner 64. -/
def landingAt (step : Nat) (rejoin : Bool) (ranges : List (Nat × Nat)) (s : State) : State := { s with landings := [(0, ⟨9, rejoin, step, 64, ranges, true⟩)] }

theorem test_meets_LandingsFollowTheirSteps :
    (runningCtx (atWork opLanding [(64, 9)]) 3 5 opLanding).isSome = true ∧ kfind (atWork opLanding [(64, 9)]).landings 0 = none ∧
    (kfind (landingAt 1 false [] bare).landings 0).isSome = true ∧
    (let s := landingAt 1 false [] (atWork opLanding [(64, 9)])
     let s := wr s QUE_Q_STATE.state 3 1
     (landingSet s 0).length = 1 ∧ (∀ x ∈ landingSet s 0, (landingCtx 9 x.2.ctxs).isSome = true) ∧ (∀ o ∈ s.rmtOps, o.job = 0 → o.code = rcLoad)) ∧
    (on bare DATA_VIEW.panel_state = false ∧ on (withFields [(DATA_VIEW.panel_state, 0, 1)]) DATA_VIEW.panel_state = true ∧
      barrierOpen (wired bare) 0 = false ∧ barrierOpen (wr (wr (wired bare) GRP_CTL.enable 0 1) GRP_ENT_CTL.enable 0 1) 0 = true ∧
      rd bare MIR_JOB.partner 0 ≠ 64 ∧ rd (wr bare MIR_JOB.partner 0 64) MIR_JOB.partner 0 = 64) ∧
    (8 : BitVec 48).toNat < 9 ∧ 9 ≤ (9 : BitVec 48).toNat ∧
    (let s := wired (wr (landingAt 3 false [(0, 1)] paged) MIR_CTL.enable 0 1)
     on s MIR_CTL.enable = true ∧ fencedNode s 64 = false ∧ fencedNode { s with dataFence := [(1, 1)] } 64 = true ∧
       mirPath s 64 = .go ∧ mirPath (wr s FAB_CTL.enable 0 0) 64 = .waits ∧ (readRanges 0 [] s).2 = .inl [] ∧ (readRanges 1 [(0, 1)] s).2 = .inr (stRefused, 5) ∧
       (readRanges 0 [(0, 1)] (wr s THM_SHUT.dies 0 1)).2 = .inr (stWait, 2) ∧ stRefused ≠ stWait ∧ 5 < 16) ∧
    (2 ≤ (⟨9, false, 2, 64, [], true⟩ : Landing).step ∧ (⟨9, false, 4, 64, [], true⟩ : Landing).step = 4 ∧ (⟨9, false, 5, 64, [], true⟩ : Landing).step = 5) := by decide +kernel

/-- Entry 7 takes commits of node 64 with key 5 into a gibibyte of job 0. -/
def partnerState : State :=
  [(MIR_CTL.enable, 0, 1), (MIR_HOST_CTL.enable, 7, 1), (MIR_HOST_CTL.key, 7, 5), (MIR_HOST_CTL.source, 7, 64), (MIR_HOST_CTL.loader, 7, 64), (MIR_HOST_BASE.size_gib, 7, 1),
    (MIR_CTL.feed, 0, 1)].foldl (fun s e => wr s e.1 e.2.1 e.2.2) paged

theorem test_meets_PartnerKeepsCommittedBuffers :
    (let s := partnerState
     fencedNode s 64 = false ∧ fencedNode { s with dataFence := [(1, 1)] } 64 = true ∧ on s MIR_CTL.enable = true ∧ on s MIR_HOST_CTL.enable 7 = true ∧
       rd s MIR_HOST_CTL.key 7 = 5 ∧ rd s MIR_HOST_CTL.source 7 = 64 ∧ sameRack s 64 = false ∧ rd s MIR_CTL.feed ≠ 2 ∧ 8 ≤ bufSize s 7 ∧
       List.length (List.replicate 8 (0 : Byte)) = min mirChunk (8 - 0) ∧ 0 % mirChunk = 0 ∧ ¬(on bare MIR_CTL.enable = true)) ∧
    (let s := partnerState
     let b := chooseBuf s 7 0 9
     let u := putBuf { s with mirSize := kput s.mirSize (bufIdx 7 b) 8, mirPlaced := kput s.mirPlaced (bufIdx 7 b) [] } 7 b 1 9
     let w := writeVa u 1281 (rd u MIR_CTL.host_job) 0 (2 ^ 32) (bufVa u 7 b) (List.replicate 8 (0 : Byte))
     w.2.1 = stOk ∧ cdiv (kget w.1.mirSize (bufIdx 7 b) 0) mirChunk = 1 ∧ mirPath (wired w.1) 64 = .go ∧ mirPath (wr (wired w.1) FAB_CTL.enable 0 0) 64 = .waits ∧
       mirPath (incSat (wired s) MIR_STATS.refusals) 64 = .go) ∧
    (let s := putBuf { partnerState with mirSize := [(15, 8)] } 7 1 2 9
     ((List.range 2).find? fun b => bufState s 7 b == 2 && bufLanding s 7 b == 9) = some 1 ∧ rd s MIR_HOST_CTL.loader 7 = 64 ∧ kget s.mirSize (bufIdx 7 1) 0 = 8 ∧
       (readVa (wr s MIR_HOST_BASE.size_gib 7 0) 1281 (rd s MIR_CTL.host_job) (bufVa (wr s MIR_HOST_BASE.size_gib 7 0) 7 1) 8).status = stOk) ∧
    (∀ b < 2, ¬(bufState partnerState 7 b = 2 ∧ bufLanding partnerState 7 b = 9)) := by decide +kernel

/-- A load for a job of some ranges. -/
def loadOf (job : Nat) (ranges : List (Nat × Nat)) (s : State) : State := { s with mirLoad := some ⟨job, 9, 2, 64, ranges, true⟩ }

theorem test_meets_MirrorSettingsAndAdmission :
    (on bare MIR_CTL.enable = false ∧ on bare MIR_RANGE_CTL.enable 63 = false ∧ rd bare MIR_RANGE_CTL.size_64k 63 = 0 ∧
      rd (withFields [(MIR_RANGE_CTL.size_64k, 63, 1)]) MIR_RANGE_CTL.size_64k 63 ≠ 0 ∧ on bare MIR_JOB.residency_bound 0 = false ∧
      on bare MIR_HOST_CTL.enable 7 = false ∧ usableStacked (withFields [(MIR_HOST_BASE.size_gib, 7, 4095)]) < 4 * (2 * bufSize (withFields [(MIR_HOST_BASE.size_gib, 7, 4095)]) 7) ∧
      4 * (2 * bufSize (withFields [(MIR_HOST_BASE.size_gib, 7, 1)]) 7) ≤ usableStacked (withFields [(MIR_HOST_BASE.size_gib, 7, 1)]) ∧
      bankState bare 0 ≠ 2 ∧ bankState (withFields [(FAB_BANK_STATUS.state_b, 0, 2)]) 1 = 2 ∧ rd bare FAB_EPOCH.current ≠ 1 ∧
      bankState (withFields [(FAB_BANK_STATUS.state_a, 0, 2)]) 0 = 2 ∧ rd bare FAB_EPOCH.current = 0) ∧
    ((∀ x ∈ bare.queues, qState bare x.1 = qsDisabled) ∧ rd bare MIR_STATUS.admission = 0 ∧
      (∀ a < 7, rd (withFields [(MIR_STATUS.admission, 0, a)]) MIR_STATUS.admission = a) ∧ fencedNode bare 0 = false ∧
      fencedNode { bare with dataFence := [(0, 1)] } (rd bare MIR_JOB.partner 255) = true ∧
      on (withFields [(MIR_JOB.residency_bound, 255, 1)]) MIR_JOB.residency_bound 255 = true) ∧
    (let s := wired bare
     let u := putPhase (wr (loadOf 0 [] s) MIR_STATUS.admission 0 3) 0 5
     mirPath u 64 = .go ∧ mirPath (wr u FAB_CTL.enable 0 0) 64 = .waits ∧ mirPath u 65 = .fails (dropCount u FAB_DROPS2.bad_node)) ∧
    (255 < 256 ∧ 2 < 8 ∧ ([] : List Byte).length = rangesSize [] ∧ (writeRanges 255 [] [] (loadOf 255 [] bare)).2 = stOk ∧
      List.length [(0 : Byte)] = rangesSize [(0, 1)] ∧ List.length ([] : List Byte) ≠ rangesSize [(0, 1)] ∧
      (writeRanges 255 [(0, 1)] [0] (loadOf 255 [(0, 1)] bare)).2 ∉ [stOk, stWait] ∧
      (writeRanges 0 [(0, 1)] [0] (loadOf 0 [(0, 1)] (wr paged THM_SHUT.dies 0 1))).2 = stWait) ∧
    bare.mirWaiting = [] := by decide +kernel

/-! ### Pre-emption, translation and dies (files 03, 04, 06, 07) -/

/-- Control ring 0 has one request to handle, and room for its response; queue 3 is in a state. -/
def asked (st : Nat) : State :=
  let s := withFields [(PNL_HOST_STATUS.rate, 0, 1), (QUE_X_RING.enable, 0, 1), (QUE_X_RING.size_log2, 0, 6), (QUE_Q_STATE.state, 3, st)]
  { s with xrings := kput s.xrings 0 ⟨1, 0, 0⟩ }

/-- A request for queue 3 with its save area at the start of host memory. -/
def reqOf (op size : Nat) : Line := descOf [(0, op), (9, 1), (64, 3), (192, size)]

/-- The same with its save area at 1 MiB of stack 0. -/
def reqAt (op size : Nat) : Line := descOf [(0, op), (64, 3), (128, 2 ^ 20), (192, size)]

theorem test_meets_QueuesArePreemptedAndRestored :
    (∀ st < 3, nextRequest (asked st) 0 = some 0 ∧ rqOp (reqOf 1 0x10000) ≠ 0x02 ∧ saving (asked st) 3 = false) ∧
    saving (putRing (asked 1) (.xr 0) ⟨0, [⟨3, 5, [], true⟩], false⟩) 3 = true ∧ rqOk (reqOf 3 0) = false ∧ qState (asked 0) 3 ≠ qsRunning ∧
    qState (asked 0) 3 ≠ qsFaulted ∧
    (rqOk (reqOf 1 0xFFFF) = true ∧ qState (asked 1) 3 = qsRunning ∧ qState (asked 2) 3 = qsFaulted ∧ rqSaveSize (reqOf 1 0xFFFF) < saveSize 0 (rqTile (reqOf 1 0xFFFF)) ∧
      (flightCores (asked 1) (rqQueue (reqOf 1 0xFFFF))).length = 0) ∧
    (let req := reqAt 1 0x10000
      let s := wr (asked 1) DIE_STATUS.die_state 0 1
      rqOk req = true ∧ saveSize 0 (rqTile req) ≤ rqSaveSize req ∧ areaOk s req 0x10000 = true ∧
      (let u := stopQueue s 3 []
       let v := (saveSpans u 3 req).foldl (spanWaits req) (u, false)
       let w := requestTaken v.1 0 0 req
       v.2 = false ∧ (getQ u 3).frecHeld = false ∧ (∀ c ∈ (getQ u 3).ctxs, mustEnd u 3 c = false) ∧ (getQ u 3).stops = [] ∧
         (getQ u 3).tailFault = false ∧ (getRing w (.xr 0)).held = [] ∧ ringEnabled w (.xr 0) = true ∧ ringFull w (.xr 0) = false ∧ homeUp w = true)) ∧
    (let u := stopQueue (wr (wr (asked 1) DIE_STATUS.die_state 0 1) THM_SHUT.dies 0 1) 3 []
     ((saveSpans u 3 (reqAt 1 0x10000)).foldl (spanWaits (reqAt 1 0x10000)) (u, false)).2 = true) := by decide +kernel

theorem test_meets_QueuesArePreemptedAndRestored_restore :
    (let req := reqOf 2 0x10000
     let s := asked 4
     let s := { s with mem := memPutList s.mem (hostFlat 0) (saveHeader 3 0 1 7 0 0 false) }
     let g := saveRead s req 0 0x100
     nextRequest s 0 = some 0 ∧ rqOp req = 0x02 ∧ rqOk req = true ∧ qState s 3 = qsStopped ∧ areaOk s req 0x100 = true ∧ g.status = stOk ∧
       headerFits s 3 req g.data = true ∧ (∀ st ∈ (restoreReads s 3 req).2.1, st = stOk) ∧ headerFits s 3 req (List.replicate 256 0) = false ∧
       (let h := primaryHub s
        (saveRead { s with cut := [(40 + h, 40 + h)] } req 0 0x100).status = stTimeout)) ∧
    (let req := reqAt 2 0x10000
     let s := wr (asked 4) DIE_STATUS.die_state 0 1
     let s := { s with mem := memPutList s.mem (2 ^ 20) (saveHeader 3 0 1 7 1 0 false) }
     let g := saveRead s req 0 0x100
     areaOk s req 0x100 = true ∧ g.status = stOk ∧ headerFits s 3 req g.data = true ∧ (saveRead (wr s THM_SHUT.dies 0 1) req 0 0x100).status = stWait ∧
       stWait ∈ (restoreReads { s with hst := { s.hst with snoop := [(2 ^ 20 + 0x100, false)] } } 3 req).2.1 ∧
       (let r := restoreReads { s with ue := [2 ^ 20 + 0x100] } 3 req
        stWait ∉ r.2.1 ∧ r.2.2 = stUncorrectable)) ∧
    nextRequest bare 15 = none := by decide +kernel

theorem test_meets_InvalidationsEmptyTheirExtent :
    on (withFields [(XLT_INV_STATUS.busy, 0, 1)]) XLT_INV_STATUS.busy = true ∧ on bare XLT_INV_STATUS.busy = false ∧ (3 : Fin 4).val = 3 ∧ (2 : Fin 4).val ≠ 3 ∧
    ({ bare with inv := some (2, 255, 0x1000, 2 ^ 12) }).inv = some (2, 255, 0x1000, 2 ^ 12) ∧ bare.farWrites = [] := by decide +kernel

/-- The MATMUL of `matmulCtx` is at work in queue 3 on core 0, whose arrays are active and whose die aborts stalled arrays. -/
def stalledShare : State :=
  { withCtx { matmulCtx with cores := [0] } (withFields [(DIE_ARR_CTL.stall_abort, 0, 1), (DIE_STATUS.die_state, 0, 1), (WNG_STATUS.state, 0, 0)]) with
    coreShares := [(0, 3, 5)], arrays := (List.range 8).map fun i => (i, 1) }

theorem test_meets_DieEventsUpdateTheirMeters :
    (kget bare.arrays 0 0 ≠ 1 ∧ kget stalledShare.arrays 0 0 = 1 ∧ joined stalledShare 0 = false ∧
      joined { stalledShare with arrayJoin := [(0, ⟨0, 0, 0, false⟩)] } 0 = true) ∧
    (stallable bare 0 = false ∧ stallable stalledShare 0 = true ∧ on (withFields [(DIE_ARR_CTL.stall_event_en, 39, 1)]) DIE_ARR_CTL.stall_event_en 39 = true ∧
      rd (withFields [(DIE_ARR_CTL.stall_abort, 39, 0)]) DIE_ARR_CTL.stall_abort 39 = 0) ∧
    (let s := stalledShare
     let cx := { matmulCtx with cores := [0] }
     rd s DIE_ARR_CTL.stall_abort 0 ≠ 0 ∧ coreOf 0 0 ∉ s.sec.halted ∧ (s.coreShares.find? fun e => e.1 == coreOf 0 0) = some (0, 3, 5) ∧
       findCtx s 3 5 = some cx ∧ descOpcode cx.desc = opMatmul ∧ sharesRun s 3 cx = true ∧
       (let u := beforeBlock s cx 3 5 0 0
        (findCtx u 3 5).any (fun c => c.phase == .running) = true ∧ (0, 3, 5) ∈ u.coreShares ∧ arraysActive u 0 = true)) ∧
    (rd (withFields [(WNG_STATUS.state, 159, 0)]) WNG_STATUS.state (wingOf 39 3) = 0 ∧ rd (withFields [(WNG_STATUS.state, 159, 3)]) WNG_STATUS.state (wingOf 39 3) = 3 ∧
      159 ∈ ({ bare with beatLeft := [159] }).beatLeft ∧ 159 ∉ bare.beatLeft) ∧
    (kget ({ bare with wingRefs := [(0, 255)] }).wingRefs 0 0 + 1) % 256 = 0 ∧ on bare DIE_MEM_CTL.scrub_en 0 = true ∧
    ((90 : BitVec 8).toNat = wingHottest (withFields [(THM_DATA.reading, 3, 90)]) (wingOf 0 0) ∧ (90 : BitVec 8).toNat ≠ wingHottest bare (wingOf 39 3)) ∧
    (let s := { withFields [(QUE_Q_STATE.state, 3, 1)] with copyShares := [(31, 3, 5)] }
     (s.copyShares.find? fun e => e.1 == 32 * 0 + 31) = some (31, 3, 5) ∧ qState s 3 ≠ qsFaulted ∧ qState (wr s QUE_Q_STATE.state 3 2) 3 = qsFaulted ∧
       (¬∃ i < 8, 8 * (32 * 0 + 31) + i ∈ s.sec.halted) ∧ ∃ i < 8, 8 * (32 * 0 + 31) + i ∈ ({ s.sec with halted := [255] }).halted) := by
  decide +kernel

/-! ### Stacks, the far tier and the links (files 08, 09) -/

theorem test_meets_StacksKeepAndRepairTheirRows :
    (rd (withFields [(STK_CTL.patrol_hours, 79, 0)]) STK_CTL.patrol_hours 79 = 0 ∧
      (let s := { withFields [(STK_CTL.patrol_hours, 79, 1), (STK_STATUS.state, 79, 2)] with ue := [79 * 2 ^ 36] }
       rd s STK_CTL.patrol_hours 79 ≠ 0 ∧ rd s STK_STATUS.state 79 = 2 ∧ ∃ u ∈ s.ue, u / 2 ^ 36 = 79)) ∧
    (let row := 79 * 2 ^ 27 + 31 * 2 ^ 22
     let s := { withFields [(STK_INFO.height, 79, 16), (STK_INFO.usable, 79, 30000)] with remapDue := [(row, 1)] }
     let held := sparesHeld s 79 31 0 0
     (s.remapDue.find? fun r => r.1 / 2 ^ 27 == 79) = some (row, 1) ∧ rowChan row % 32 = 31 ∧ row / 2 ^ 21 % 2 = 0 ∧ row / 2 ^ 16 % 32 = 0 ∧
       ((List.range 64).find? fun e => !(spareTaken s 79 31).contains e) = some 0 ∧ held.length < (spareRows s 79).2 ∧ rd s STK_INFO.height 79 ≤ 32 ∧
       (let v := wr s STK_SPARE_DATA.valid (spareIdx 79 31 63) 1
        63 ∈ spareUsed v 79 31 ∧ redirects v row 63 = true) ∧ s.spareOut.contains (rowChan row) = false ∧
       (let s := { s with spareDead := (List.range 64).map fun e => spareIdx 79 31 e }
        ((List.range 64).find? fun e => !(spareTaken s 79 31).contains e) = none) ∧
       ({ s with spareOut := [rowChan row] }).spareOut.contains (rowChan row) = true ∧
       (let u := wr s STK_INFO.height 79 0
        (spareRows u 79).2 ≤ (sparesHeld u 79 31 0 0).length)) ∧
    (let s := withFields [(STK_STATUS.state, 79, 3), (DIE_STATUS.die_state, 39, 2)]
     rd s STK_STATUS.state 79 = 3 ∧ dieHeld s 39 = false ∧ dieTripped s 39 = false ∧ dieActive s 39 = true ∧ dieFloor s < 2 ∧ rd s DIE_STATUS.die_state 39 = 2 ∧
       2 ≤ dieFloor (wr s PWR_PSTATE.current 0 2)) ∧
    (rd (withFields [(STK_STATUS.state, 79, 2)]) STK_STATUS.state 79 ≠ 3 ∧
      (let s := withFields [(STK_STATUS.state, 79, 1), (STK_CTL.bringup, 79, 1)]
       rd s STK_STATUS.state 79 = 1 ∧ stackExcluded s 79 = false ∧ stackExcluded (wr s PNL_UNIT_DATA.state 119 4) 79 = true ∧ on s STK_CTL.bringup 79 = true ∧ on (wr s STK_CTL.bringup 79 0) STK_CTL.bringup 79 = false)) ∧
    (bare.hst.resetKind = none ∧ (∀ p < 5, portUp bare p = false) ∧ unitState (withFields [(PNL_UNIT_DATA.state, 119, 1)]) 119 = 1 ∧ unitState (withFields [(PNL_UNIT_DATA.state, 39, 1)]) 39 = 1 ∧
      ({ bare with hst := { bare.hst with resetKind := some 0 } }).hst.resetKind.isSome = true) ∧
    (let s := withFields [(STK_STATUS.state, 79, 5)]
     rd s STK_STATUS.state 79 = 5 ∧ on s STK_PPR_CMD.busy 79 = false ∧ on (wr s STK_PPR_CMD.busy 79 1) STK_PPR_CMD.busy 79 = true) := by decide +kernel

theorem test_meets_FarPortsFollowTheirLinks :
    on (withFields [(FAR_CTL.enable, 0, 0)]) FAR_CTL.enable = false ∧
    (let w : FarWrite := ⟨3, 3, 5, 2 ^ 51, [1], []⟩
     let s := { bare with farWrites := [w] }
     (∀ x ∈ s.farWrites, x.port = 3 → 2 ^ 51 ≤ x.addr ∧ x.addr + x.data.length ≤ 2 ^ 52) ∧ s.farWrites.filter (·.port == (3 : FarPort).val) = [w] ∧ s.farWrites.find? (·.port == (3 : FarPort).val) = some w) ∧
    (∀ w ∈ bare.farWrites, w.port ≠ (0 : FarPort).val) ∧ on (withFields [(FAR_PORT_STATUS.link_up, 3, 1)]) FAR_PORT_STATUS.link_up 3 = true ∧
    on bare FAR_PORT_STATUS.link_up 0 = false ∧ (1 : Fin 4).val ≠ 0 ∧
    (let s := { bare with force := [(fkey FAR_PORT_CTL.port_en 3, 1)] }
     inForce s FAR_PORT_CTL.port_en 3 ≠ 0 ∧ inForce s FAR_PORT_CTL.port_en 3 = 1 ∧ dieFloor s < 2 ∧ 2 ≤ dieFloor (wr s PWR_PSTATE.current 0 2) ∧
       inForce { s with force := [(fkey FAR_PORT_CTL.port_en 3, 0)] } FAR_PORT_CTL.port_en 3 = 0) := by decide +kernel

/-- Both ends of the link east of die 0, in a state with all of its lane groups. -/
def linkAt (st : Nat) : State :=
  withFields ((linkSites 1).flatMap fun m => [(TCN_STATUS.state, m, st), (TCN_STATUS.active_mask, m, 0xFFFF), (PNL_UNIT_DATA.state, m / 4, 1)])

theorem test_meets_LinksRepairAndTrain :
    (rd (linkAt 3) TCN_STATUS.state 1 = tcnUp ∧ rd (linkAt 1) TCN_STATUS.state 1 ≠ tcnUp ∧ bitOn (rd (linkAt 3) TCN_STATUS.active_mask 1) 15 = true ∧
      rd (wr (linkAt 3) TCN_CTL.lane_test_errors 1 1) TCN_CTL.lane_test_errors 1 ≤ 1 ∧ 1 < rd (wr (linkAt 3) TCN_CTL.lane_test_errors 1 2) TCN_CTL.lane_test_errors 1) ∧
    (let s := { linkAt 3 with tcnTests := [16 * receiverOf 1 false + 15] }
     16 * receiverOf 1 false + 15 ∈ s.tcnTests ∧ 16 * receiverOf 1 false + 15 ∉ (linkAt 3).tcnTests ∧
      (repairGroup (getRepair s 1 15) (lowCounted s 1 15 ⟨0, false⟩)).works = true ∧
      (repairGroup (getRepair s 1 15) (lowCounted s 1 15 ⟨0, false⟩)).spared = 0 ∧
      (repairGroup (getRepair s 1 15) (lowCounted s 1 15 ⟨1, false⟩)).spared ≠ 0 ∧
      (repairGroup (getRepair s 1 15) (lowCounted s 1 15 ⟨0, true⟩)).works = false ∧
      8 ≤ popCount 16 (bitClr (rd s TCN_STATUS.active_mask 1) 15) ∧ popCount 16 (bitClr 0xFF 7) < 8) ∧
    ((List.range 160).any fun n => !linkExists n) = true ∧
    (linkExists 1 = true ∧ linkLive (linkAt 1) 1 = true ∧ unitInService (wr (linkAt 1) PNL_UNIT_DATA.state (linkUnit 1) 1) (linkUnit 1) = true ∧
      unitInService (wr (linkAt 1) PNL_UNIT_DATA.state (linkUnit 1) 4) (linkUnit 1) = false ∧ linkLive (wr (linkAt 1) PNL_UNIT_DATA.state 0 4) 1 = false ∧
      dieActive (wr (linkAt 1) PNL_UNIT_DATA.state 0 4) 1 = true) ∧
    (let good := List.replicate 16 (⟨0, false⟩ : LaneTest)
     let poor := List.replicate 16 (⟨0, true⟩ : LaneTest)
     good.length = 16 ∧ rd (linkAt 2) TCN_STATUS.state 1 = tcnTraining ∧ 8 ≤ popCount 16 (passMask (linkAt 2) 1 good) ∧ popCount 16 (passMask (linkAt 2) 1 poor) < 8 ∧
       ({ linkAt 2 with tcnFull := [linkUnit 1] }).tcnFull.contains (linkUnit 1) = true ∧ (linkAt 2).tcnFull.contains (linkUnit 1) = false ∧
       (repairGroup groupFresh (lowCounted (linkAt 2) 1 0 ⟨1, false⟩)).works = true ∧ (repairGroup groupFresh (lowCounted (linkAt 2) 1 0 ⟨1, false⟩)).spared ≠ 0) ∧
    (let s := wr (linkAt 3) TCN_CTL.margin_min 1 16
     (15 : BitVec 8).toNat < rd s TCN_CTL.margin_min 1 ∧ laneInService s 1 15 63 = true ∧ on (wr s TCN_CTL.proactive_spare 1 1) TCN_CTL.proactive_spare 1 = true) := by
  decide +kernel

theorem test_meets_RoutesFollowLinksInService :
    (∀ u ∈ linkUnits, u ∈ linkUnits) ∧ 41 < 42 ∧ ((List.range 42).any fun w => (adaptiveHop linkUnits 0 w).isSome) = true ∧ bare.tcn = [] := by decide +kernel

/-- A command at site 1, in queue 3; the site is in a state. -/
def siteCmd (st : Nat) : State :=
  [(UCI_SITE_STATUS.state, 1, st), (UCI_SITE_INFO.requester, 1, 1)].foldl (fun s e => wr s e.1 e.2.1 e.2.2)
    (withCtx { ctxOf (descOf [(0, opVector)]) with cores := [2 ^ 15 + 256] } paged)

theorem test_meets_UciSitesServeTheirCommands :
    (siteMayTrain bare 1 = true ∧ siteMayTrain (wr bare PWR_PSTATE.current 0 2) 1 = false ∧ on bare UCI_SITE_CTL.enable 1 = false ∧ on (withFields [(UCI_SITE_CTL.enable, 1, 1)]) UCI_SITE_CTL.enable 1 = true) ∧
    ((∀ st < 5, rd (siteCmd st) UCI_SITE_STATUS.state 1 = st) ∧ siteInflight (withFields [(UCI_SITE_STATUS.state, 1, 3)]) 1 = 0 ∧ siteInflight (siteCmd 3) 1 ≠ 0) ∧
    (let m : UciIdentity := ⟨1, 2, 8, 8, true, 1⟩
     m.protocol = 1 ∧ m.engines ≠ 0 ∧ m.maxInflight ≠ 0 ∧ (2 : BitVec 8) ≠ 1) ∧
    ((siteCtx (siteCmd 3) 1 3 5).isSome = true ∧ siteCtx (siteCmd 3) 0 3 5 = none ∧ on (siteCmd 3) UCI_SITE_INFO.requester 1 = true ∧
      on (siteCmd 3) UCI_SITE_INFO.requester 0 = false) ∧
    (let s := siteCmd 3
     let asSite : State := { s with srcAt := some 41 }
     (readVa asSite 1280 (rd s QUE_Q_BIND.space 3) 0 64).status = stOk ∧ (readVa asSite 1280 255 0 64).status = stFaultPage ∧
      (writeVa asSite 1280 (rd s QUE_Q_BIND.space 3) 3 5 0 [1]).2.1 = stOk) ∧
    (findCtx (siteCmd 4) 3 5).any (fun c => siteOf c.cores == some 1 && !c.recheck && c.phase == .running) = true := by decide +kernel

/-! ### The fabric and the optical engines (files 10, 13) -/

/-- Node 0 of two along X, with bank A loaded and the fabric enabled; its ports 0 and 1 are up with credits on every channel. -/
def fabric : State :=
  { withFields [(FAB_COORD.dim_x, 0, 2), (FAB_COORD.dim_y, 0, 1), (FAB_COORD.dim_z, 0, 1), (FAB_CTL.enable, 0, 1), (FAB_BANK_STATUS.state_a, 0, 2),
      (FAB_PORT_STATUS.up, 0, 1), (FAB_PORT_STATUS.up, 1, 1), (FAB_PORT_STATUS.up, 4, 1)] with
    fabCredits := (List.range 32).map fun k => (k, 4) }

/-- A packet of a class from node 1 to a node, for the IO hub. -/
def pktTo (dst cls : Nat) : Packet := { packetOf cls 0 (List.replicate 16 0) with dst := dst }

/-- Windows are on for requests, and the partner table is full of one pinned pair. -/
def fullTable : State :=
  { [(FAB_PARTNER_DATA.pin, 0, 1), (FAB_PARTNER_DATA.node, 0, 9)].foldl (fun s e => wr s e.1 e.2.1 e.2.2) fabric with
    partnerUse := List.replicate 4096 0
    force := kput fabric.force (fkey FAB_CTL.req_win_en 0) 1 }

/-- Dies 0 and 8, joined by nothing, with some link of the panel in the tables. -/
def unjoined : State := { fabric with routeLinks := [linkUnit 39] }

theorem test_meets_PacketsAreRoutedOnCredit_services :
    ((pktTo 1 3).cls = 3 ∧ (pktTo 1 1).cls = 1 ∧ (pktTo 1 0).cls ≠ 1 ∧ soonest fabric 0 [⟨4, 0, 0, pktTo 1 0⟩, ⟨4, 0, 4, pktTo 1 1⟩] = some ⟨4, 0, 4, pktTo 1 1⟩) ∧
    (tcnWalk fabric false 0 41 maxHops ⟨0, none, false⟩).node = 41 ∧ (tcnWalk unjoined false 0 41 maxHops ⟨0, none, false⟩).node ≠ 41 ∧
    (unitsNamed (wr fabric PNL_UNIT_DATA.state 1 1) { pktTo 0 2 with unit := 1 } = [1] ∧ (unitsNamed fabric { pktTo 0 2 with unit := 9, unitMc := 1 }).length = 8) ∧
    laneState (putLane fabric (portEngine fabric 0) 7 15 lnUp) (portEngine fabric 0) 7 15 = lnUp := by decide +kernel

theorem test_meets_PacketsAreRoutedOnCredit :
    ((pktTo 1 0).dirX ≤ 1 ∧ (pktTo 1 0).dirY ≤ 1) ∧
    (let p := pktTo 1 0
     let s := { fabric with injQ := [(.none, p)] }
     let u := { s with injQ := s.injQ.erase (.none, p) }
     let r := routePacket u 5 { p with epoch := rd s FAB_EPOCH.current, dl := 0, set := 0 }
     inOrder s s.injQ = [(.none, p)] ∧ (∀ w ∈ s.fabWaits, w.output ≠ 5) ∧ on s FAB_CTL.enable = true ∧ on s DATA_VIEW.panel_state = false ∧ p.mc = 0 ∧ nodeValid s 2 = false ∧ nodeValid s p.dst = true ∧ bankEntry s 0 p.dst / 4 % 4 = 0 ∧ r.1 ≠ 5 ∧
       windowed u r.2 = false ∧ portUp s r.1 = true ∧ creditOk u r.1 r.2 = true ∧ creditOk { u with fabCredits := [] } r.1 r.2 = false ∧
       2 ≤ bankEntry { s with fabBanks := [(1, 8)] } 0 p.dst / 4 % 4) ∧
    ((match takeSlot fabric (pktTo 1 0) with | .noEntry => false | _ => true) = true ∧
      (match takeSlot fullTable (pktTo 1 0) with | .noEntry => true | _ => false) = true) ∧
    (let s := fabric
     let away := pktTo 1 0
     let here (cls : Nat) := pktTo 0 cls
     on bare FAB_CTL.enable = false ∧ portUp s 4 = true ∧ bankState s 0 = 2 ∧ bankState s 1 ≠ 2 ∧ away.mc ≠ 1 ∧
       (routePacket s 4 away).1 ≠ 5 ∧ portUp s (routePacket s 4 away).1 = true ∧ creditOk s (routePacket s 4 away).1 (routePacket s 4 away).2 = true ∧
       creditOk { s with fabCredits := [] } (routePacket s 4 away).1 (routePacket s 4 away).2 = false ∧
       portUp (wr s FAB_PORT_STATUS.up (routePacket s 4 away).1 0) (routePacket s 4 away).1 = false ∧
       (∀ cls < 3, (routePacket s 4 (here cls)).1 = 5 ∧ (routePacket s 4 (here cls)).2.cls = cls ∧ viewDrop s (routePacket s 4 (here cls)).2 = none) ∧
       s.rmtHeld.length < 1024 ∧ repliesOut s = true ∧ repliesOut { s with injQ := [(.none, here 1)] } = false ∧ (List.replicate 1024 away).length = 1024 ∧ colType (here 2) < 5 ∧
       viewDrop (wr s DATA_VIEW.panel_state 0 1) (routePacket s 4 (here 2)).2 ≠ none ∧
       ({ away with mc := 1, mcSpan := 1 }).mcSpan ≤ 1 ∧ 1 < ({ away with mc := 1, mcSpan := 2 }).mcSpan) ∧
    (let w : FabWait := ⟨4, 0, 0, pktTo 1 0⟩
     let s := { fabric with fabWaits := [w] }
     portUp bare 0 = false ∧ portUp s 0 = true ∧ bufHole s 4 = false ∧
       bufHole (wr (wr s FAB_PORT_BUF.base 4 (79 * 2 ^ 16)) PNL_UNIT_DATA.state 119 4) 4 = true ∧ (∀ w ∈ fabric.fabWaits, w.output ≠ (0 : Fin 5).val) ∧ s.fabWaits = [w] ∧ w.output = (0 : Fin 5).val ∧
       16 * 0 + pktVc w.pkt = 0 ∧ pktUnits w.pkt ≤ kget s.fabCredits 0 0 + 1 ∧ s.fabWaits[(0 : BitVec 32).toNat]? = some w) ∧
    (partnerOf fabric 1 0 = none ∧
      partnerOf { withFields [(FAB_PARTNER_DATA.node, 4095, 16383), (FAB_PARTNER_DATA.cls, 4095, 3)] with partnerUse := [4095] } (16383 : BitVec 14).toNat (3 : Fin 4) = some 4095) := by
  decide +kernel

/-- Engine 20 (port 0) is UP and its partner is a node. -/
def trained (node : Nat) : State :=
  [(OPT_STATUS.state, 20, 4), (OPT_PARTNER.node, 20, node), (OPT_STATUS.state, 4, 4), (FAB_PORT_STATUS.up, 0, 0), (FAB_PORT_STATUS.up, 4, 0)].foldl (fun s e => wr s e.1 e.2.1 e.2.2) fabric

theorem test_meets_FabricIsConfigured :
    (portUp fabric 0 = true ∧ portUp fabric 3 = false ∧ regionOk (wr fabric STK_STATUS.state 0 4) 0 = false) ∧
    ((portEngines 0).filter (engineUp (trained 1)) = [20] ∧ (portEngines 4).filter (engineUp (trained 1)) = [4] ∧ portUp (trained 1) 0 = false ∧
      portUp (trained 1) 4 = false ∧ expectedNode (wr (trained 1) FAB_COORD.wrap_x 0 1) 0 = some (rd (trained 1) OPT_PARTNER.node 20) ∧
      expectedNode (trained 9) 0 ≠ some (rd (trained 9) OPT_PARTNER.node 20)) ∧
    (let s := wr fabric FAB_CTL.enable 0 0
     on s FAB_CTL.enable = false ∧ bankState s (rd s FAB_EPOCH.current) = 2 ∧ coordOk s = true ∧
       (∀ p ∈ portsUsed (wr (wr s FAB_PORT_BUF.size_mib 0 1) FAB_PORT_BUF.size_mib 1 1), rd (wr (wr s FAB_PORT_BUF.size_mib 0 1) FAB_PORT_BUF.size_mib 1 1) FAB_PORT_BUF.size_mib p ≠ 0) ∧
       coordOk (wr s FAB_COORD.dim_x 0 0) = false) ∧
    (bankState bare 1 = 0 ∧ bankHold bare 1 = 0 ∧ ¬(bankState fabric 0 = 0)) ∧
    (let s := withFields [(FAB_BANK_STATUS.state_b, 0, 1), (DIE_STATUS.die_state, 0, 1)]
     bankState s 1 = 1 ∧ (match (readImage 0 256 s).2 with | .inl bs => bs.length == 16384 | .inr _ => false) = true ∧
       (readImage 0 256 { s with ue := [0] }).2 = .inr stUncorrectable ∧ (readImage 0 256 (wr s THM_SHUT.dies 0 1)).2 = .inr stWait) ∧
    (rd fabric FAB_EPOCH.current = (0 : Fin 2).val ∧ bankState (wr fabric FAB_BANK_STATUS.state_b 0 2) 1 = 2 ∧ rd fabric FAB_EPOCH.current ≠ (1 : Fin 2).val) ∧
    (let s := withFields [(PNL_PROFILE.fabric, 0, 15)]
     rd bare PNL_PROFILE.fabric ≠ 15 ∧ rd s PNL_PROFILE.fabric = 15 ∧ on s FAB_PARTNER_DATA.pin 4095 = false ∧ pinCount s < 1024 ∧
       (let u := { s with fields := [(fkey FAB_PARTNER_DATA.pin 0, 1)], partnerUse := List.replicate 1024 0 }
        1024 ≤ pinCount u) ∧
       on (wr s FAB_PARTNER_DATA.pin 4095 1) FAB_PARTNER_DATA.pin 4095 = true ∧ rd s FAB_PARTNER_DATA.outstanding 4095 = 0 ∧
       rd (wr s FAB_PARTNER_DATA.outstanding 4095 1) FAB_PARTNER_DATA.outstanding 4095 ≠ 0) := by
  decide +kernel

/-- Engine 23 runs, and lane pair (7, 15) of it is in a state. -/
def lane (st : Nat) : State :=
  putLane (withFields [(OPT_CTL.enable, 23, 1), (PNL_UNIT_DATA.state, 303, 1), (PWR_PSTATE.current, 0, 0)]) 23 7 15 st

theorem test_wrong_lock_second_test :
    (let s := { (lane 3) with commHeater := [(laneIdx 23 0 7 15, 0), (laneIdx 23 1 7 15, 1000)] }
     laneFails s 23 7 15 ⟨1606, 1000, false⟩ = false ∧ laneFails s 23 7 15 ⟨1607, 1000, false⟩ = true ∧ laneFails s 23 7 15 ⟨0, -607, false⟩ = true ∧
     laneFails s 23 7 15 ⟨0, 1000, true⟩ = true ∧ laneFails (lane 3) 23 7 15 ⟨1607, 0, false⟩ = false) := by decide +kernel

theorem test_ber_high : berHigh 35 false = true ∧ berHigh 36 false = false ∧ berHigh 37 true = true ∧ berHigh 38 true = false := by decide

/-- Half the power is −3.01 dB; a rounding up is taken only between two tenths. -/
theorem test_fade : fadeOf 5000 10000 0 = -31 ∧ fadeOf 5000 10000 (-30) = -30 ∧ fadeOf 10000 10000 1 = 0 ∧ fadeOf 0 10000 0 = -128 ∧
    fadeOf 65535 1 0 = 127 ∧ fadeOf 1000 10000 (-99) = -100 := by decide +kernel

theorem test_meets_LanesLockTrainAndRetire :
    (∀ st < 7, laneState (lane st) 23 7 15 = st) ∧ optRuns (lane 0) 23 = true ∧ optRuns (wr (lane 0) OPT_CTL.enable 23 0) 23 = false ∧ (-9 : Int) = (BitVec.ofInt 8 (-9)).toInt ∧
    (BitVec.ofInt 8 (-9)).toInt < -8 ∧ ¬((8 : BitVec 8).toInt < -8 ∨ 8 < (8 : BitVec 8).toInt) ∧ kfind (lane 3).berTick (pairIdx 23 7 15) = none ∧
    (0 : BitVec 32).toNat < rd (wr (lane 3) OPT_CTL.ucw_limit 23 1) OPT_CTL.ucw_limit 23 ∧ rd (wr (lane 3) OPT_CTL.ucw_limit 23 1) OPT_CTL.ucw_limit 23 ≤ (1 : BitVec 32).toNat ∧
    (let s := [(OPT_PARTNER.fibres_matched, 23, 1), (OPT_PARTNER.node, 23, 5)].foldl (fun s e => wr s e.1 e.2.1 e.2.2) (lane 1)
     rd s OPT_PARTNER.fibres_matched 23 ≠ 0 ∧ rd s OPT_PARTNER.node 23 ≠ (6 : BitVec 14).toNat) := by decide +kernel

/-- Laser (b, 15) of engine 23, which runs, is in a state with the other in another; its lanes are dark. -/
def lasers (a b : Nat) : State := wr (wr (lane 0) OPT_LASER_DATA.state (laserIdx 23 0 15) a) OPT_LASER_DATA.state (laserIdx 23 1 15) b

theorem test_meets_LasersAreSparedAndEnginesSet :
    (on (wr (lane 0) OPT_CTL.ff_en 23 1) OPT_CTL.ff_en 23 = true ∧ optRuns (wr (lane 0) OPT_CTL.ff_en 23 1) 23 = true ∧ on (wr (lane 0) OPT_CTL.ff_en 23 0) OPT_CTL.ff_en 23 = false) ∧
    (laserState (lasers 1 0) 23 0 15 = lzWarming ∧ bankOf (lasers 1 0) 23 15 = none ∧ optRuns (lasers 1 0) 23 = true ∧ ∀ f < 8, laneState (lasers 1 0) 23 f 15 = lnDark) ∧
    (∀ st ∈ [lzOff, lzFailed], let s := lasers 3 st
      laserState s 23 0 15 = lzInService ∧ laserState s 23 1 15 = st ∧ (rd s OPT_CTL.fade_retire 23 : Int) ≤ -fadeOf 0 (rd s OPT_LASER_DATA.commissioned_uw (laserIdx 23 0 15)) (-128) ∧
      (rd s OPT_CTL.fade_spare 23 : Int) ≤ -fadeOf 0 (rd s OPT_LASER_DATA.commissioned_uw (laserIdx 23 0 15)) (-128) ∧ (rd s OPT_CTL.fade_warn 23 : Int) ≤ -fadeOf 0 (rd s OPT_LASER_DATA.commissioned_uw (laserIdx 23 0 15)) (-128) ∧
      ∀ k < 3, bitOn (kget s.fadeDone (laserIdx 23 0 15) 0) k = false) ∧
    (∀ st ∈ [lzWarming, lzLocked], ((List.range 2).find? fun b => laserState (lasers 3 st) 23 b 15 == lzWarming || laserState (lasers 3 st) 23 b 15 == lzLocked) = some 1 ∧
      laserState (lasers 3 lzLocked) 23 1 15 = lzLocked) ∧
    (∀ b < 2, laserState (lasers 3 0) 23 b 15 ≠ lzWarming ∧ laserState (lasers 3 0) 23 b 15 ≠ lzLocked) ∧
    bankOf (lasers 3 0) 23 15 = some 0 ∧
    (on (lane 0) OPT_CTL.enable 23 = true ∧ on (wr (lane 0) OPT_CTL.enable 23 0) OPT_CTL.enable 23 = false ∧ optRuns (wr (wr (lane 0) OPT_CTL.enable 23 0) OPT_CTL.enable 23 1) 23 = true) ∧
    (rd bare PNL_PROFILE.optics ≠ 15 ∧ rd (withFields [(PNL_PROFILE.optics, 0, 15)]) PNL_PROFILE.optics = 15) ∧
    ((5 : BitVec 8).toNat ≤ 50 ∧ 50 ≤ (60 : BitVec 8).toNat) ∧
    (rd (withFields [(SEC_STATUS.lifecycle, 0, 0)]) SEC_STATUS.lifecycle = 0 ∧ rd (withFields [(SEC_STATUS.lifecycle, 0, 3)]) SEC_STATUS.lifecycle = 3 ∧
      rd (withFields [(SEC_STATUS.lifecycle, 0, 2)]) SEC_STATUS.lifecycle ≠ 0) := by decide +kernel

/-! ### Power and temperature (files 15, 16) -/

/-- The panel runs with dies 0 and 39 active, die 1 not, and the bank charged; arrays of core 0 wait for credits. -/
def powered (l : List (Fld × Nat × Nat)) : State :=
  let s := withFields ([(PNL_UNIT_DATA.state, 0, 1), (PNL_UNIT_DATA.state, 1, 0), (PNL_UNIT_DATA.state, 39, 1), (DIE_STATUS.die_state, 0, 0), (DIE_STATUS.die_state, 39, 0), (WNG_STATUS.state, 0, 0)] ++ l)
  { s with arrays := [(0, 2)], pw := { s.pw with offP3 := false, bankReady := true } }

theorem test_meets_InputSetsPaceAndCredits :
    ({ bare with pw := { bare.pw with offP3 := true } }).pw.offP3 = true ∧ (powered []).pw.offP3 = false ∧ 8000 < (8001 : BitVec 16).toNat ∧
    ¬(8000 < (6001 : BitVec 16).toNat ∨ (6000 < (6001 : BitVec 16).toNat ∧ 10000 ≤ (powered []).pw.overUs) ∨
      (7200 < (6001 : BitVec 16).toNat ∧ 100 ≤ (powered []).pw.overHiUs)) ∧ (powered []).pw.overUs = 0 ∧
    ¬(8000 < (3799 : BitVec 16).toNat ∨ 6000 < (3799 : BitVec 16).toNat ∨ 7200 < (3799 : BitVec 16).toNat) ∧ on (powered []) PWR_STATUS.sag = false ∧
    on (powered []) PWR_STATUS.brownout = false ∧ 10 * rd (powered []) PWR_LIMIT.curr_limit < (6401 : BitVec 16).toNat ∧
    (on (powered [(PWR_STATUS.brownout, 0, 1), (PWR_LIMIT.curr_limit, 0, 1)]) PWR_STATUS.brownout = true ∧
      25 * (50 * rd (powered [(PWR_STATUS.brownout, 0, 1), (PWR_LIMIT.curr_limit, 0, 1)]) PWR_LIMIT.curr_limit) < 100 * (13 : BitVec 16).toNat) ∧
    (let s := powered [(PWR_STATUS.sag, 0, 1), (PWR_INPUT.voltage, 0, 4400)]
     on s PWR_STATUS.sag = true ∧ on s PWR_STATUS.brownout = false ∧ 4400 ≤ rd s PWR_INPUT.voltage) ∧
    (let s := powered []
     on s PWR_STATUS.credits_frozen = false ∧ s.pw.bankReady = true ∧ running s = true ∧
       64 * ((s.pw.credHist.filter fun e => since (hubTick s) e.2 < 1000).length + 1) ≤ rd s PWR_CTL.panel_ramp * 256 ∧
       roundRobin ((((creditWings s).filter (creditFree s (hubTick s))).map (· / 4)).foldl setIns []) s.pw.credDie = some 0 ∧
       roundRobin (((creditWings s).filter (creditFree s (hubTick s))).filter (· / 4 == 0)) (kget s.pw.credWing 0 (4 * 0 + 3)) = some 0 ∧
       (let u := { s with pw := { s.pw with credPend := [(159, 7)], clamped := [0] } }
        u.pw.credPend.find? (·.1 == 4 * (39 : DieNo).val + (3 : WingNo).val) = some (159, 7) ∧ u.pw.clamped ≠ []) ∧ s.pw.clamped = []) ∧
    on (powered [(PWR_STATUS.credits_frozen, 0, 1)]) PWR_STATUS.credits_frozen = true := by decide +kernel

theorem test_meets_UnitsFollowPowerStates :
    (let s := powered []
     on s PWR_CTL.vopt_en = true ∧ rd s WNG_STATUS.state 0 = 0 ∧ running s = true ∧ on s PWR_STATUS.sag = false ∧ on s PWR_STATUS.brownout = false ∧ s.hst.takingOver = false ∧
       running (powered [(PWR_PSTATE.current, 0, 2)]) = false ∧ dieActive s 39 = true ∧ dieTripped s 39 = false ∧ dieShut s 39 = false ∧ dieFloor s = 0) ∧
    (let s := { powered [] with coreShares := [(0, 3, 5)] }
     coreBusy s 0 = true ∧ coreBusy s (256 * 39 + 255) = false ∧ NoOffBits s ((256 * 39 + 255) / 64) ∧ (∃ e ∈ s.coreShares, e.1 = 256 * (0 : DieNo).val + (0 : CoreNo).val)) ∧
    (let s := { powered [(WNG_STATUS.state, 159, 0)] with corePow := (List.range 8).map fun i => (8 * (32 * 39 + 31) + i, 2), clusPow := [(32 * 39 + 31, 1)] }
     clusPowOf s (32 * 39 + 31) < 2 ∧ clusBusy s (32 * 39 + 31) = false ∧ (∀ i < 8, 2 ≤ corePowOf s (8 * (32 * 39 + 31) + i)) ∧ NoOffBits s ((32 * 39 + 31) / 8)) ∧
    (let s := { powered [(WNG_STATUS.state, 159, 0)] with clusPow := (List.range 8).map fun i => (8 * 159 + i, 2) }
     rd s WNG_STATUS.state 159 < 2 ∧ (∀ i < 8, 2 ≤ clusPowOf s (8 * 159 + i)) ∧ NoOffBits s 159) ∧
    (let s := powered [(WNG_STATUS.state, 156, 1), (WNG_STATUS.state, 157, 1), (WNG_STATUS.state, 158, 1), (WNG_STATUS.state, 159, 1)]
     rd s DIE_STATUS.die_state 39 = 0 ∧ (∀ a < 4, 1 ≤ rd s WNG_STATUS.state (4 * 39 + a)) ∧ NoOffBits s (4 * 39)) := by
  unfold NoOffBits
  decide +kernel

theorem test_meets_UnitsFollowPowerStates_and_panel_states :
    (let s := { powered [] with corePow := [(9, 1)] }
     corePowOf s 9 = 1 ∧ coreBusy s 9 = false ∧ corePowOf { s with corePow := [(9, 0)] } 9 ≠ 1 ∧ ∃ i < 8, corePowOf { s with corePow := [(9, 0)] } (8 * (32 * 0 + 1) + i) = 0) ∧
    (let s := powered [(PWR_IDLE.d2_idle_ms, 0, 1), (DIE_STATUS.die_state, 39, 1), (WNG_STATUS.state, 156, 2), (WNG_STATUS.state, 157, 2), (WNG_STATUS.state, 158, 2), (WNG_STATUS.state, 159, 2)]
     rd s PWR_IDLE.d2_idle_ms ≠ 0 ∧ rd s DIE_STATUS.die_state 39 = 1 ∧ running s = true ∧ ∀ a < 4, 2 ≤ rd s WNG_STATUS.state (4 * 39 + a)) ∧
    (let s := powered [(DIE_STATUS.die_state, 39, 3), (PWR_DIE_OFF.off, 0, 2 ^ 39)]
     dieFloor s < 2 ∧ dieTripped s 39 = false ∧ dieShut s 39 = false ∧ dieActive s 39 = true ∧ dieBusy s 39 = false ∧ bitOn (rd s PWR_DIE_OFF.off) 39 = true ∧ rd s DIE_STATUS.die_state 39 = 3) ∧
    (NoOffBits (powered []) 159 ∧ wingBusy (powered []) 159 = false ∧ wingBusy (powered []) 0 = true ∧ rd (powered []) WNG_STATUS.state 0 ≠ 3) ∧
    (let s := powered [(PWR_PSTATE.busy, 0, 1)]
     on s PWR_PSTATE.busy = true ∧ on (powered []) PWR_PSTATE.busy = false ∧ mayRetain (powered [(FAB_CTL.enable, 0, 1)]) = false ∧
       mayRetain (powered [(FAB_CTL.enable, 0, 0), (GRP_CTL.enable, 0, 0), (MIR_CTL.enable, 0, 0)]) = true ∧ rd (powered []) PWR_PSTATE.current = 0 ∧ 2 ≤ (2 : Fin 4).val ∧
       (2 : Fin 4).val ≠ rd (powered []) PWR_PSTATE.current ∧ arraysBusy (powered []) = false ∧ arraysBusy { powered [] with arrays := [(0, 1)] } = true) := by
  unfold NoOffBits
  decide +kernel

theorem test_meets_SensorsMoveByTheirThresholds :
    (senExists (powered []) 0 639 = true ∧ senExists (powered []) 0 16 = false ∧ senExists (powered []) 2 23 = true ∧ thThrottle (powered []) 0 ≤ 105 ∧ 105 < thShutdown (powered []) 0 ∧
      ¬(thThrottle (powered []) 0 ≤ thWarn (powered []) 0) ∧ senState (powered []) (senIdx 0 639) = snNormal ∧ 0 < thWarn (powered []) 0 ∧
      (∀ st < 5, senState (powered [(THM_DATA.state, 639, st)]) (senIdx 0 639) = st) ∧ snNormal < snShutdown ∧ (powered []).th.hubStop = false ∧ rd (powered []) DIE_STATUS.die_state 39 < 2 ∧ dieTripped (powered []) 39 = false ∧
      thShutdown (powered []) 2 ≤ 95) ∧
    (rd (powered [(PWR_PSTATE.current, 0, 2)]) PWR_PSTATE.current = 2 ∧ (powered []).th.waking = false ∧ rd (powered []) PWR_PSTATE.current ≠ 2) ∧
    (let s := { powered [(THM_DATA.state, 639, snEnforce), (THM_DATA.reading, 639, 105)] with th := { bare.th with sensors := [(639, ⟨0, 0, []⟩)] } }
     639 ∈ sensorsIn s snEnforce ∧ callsLower s 639 = true ∧ 159 ∈ senWings 639 ∧ dieActive s 39 = true) ∧
    (rd (powered []) PNL_PROFILE.thermal ≠ 15 ∧ rd (powered [(PNL_PROFILE.thermal, 0, 15)]) PNL_PROFILE.thermal = 15) ∧
    (senExists (powered [(THM_SEL.kind, 0, 3), (THM_SEL.index, 0, 7)]) 3 7 = true ∧ senExists (powered []) 3 8 = false) := by decide +kernel

theorem test_meets_DiesShutDownAndReturn :
    (let s := { powered [] with th := { bare.th with stopping := [39] } }
     s.th.stopping.contains (39 : DieNo).val = true ∧ (stopDie s 39 []).th.hubStop = false ∧ s.th.stopping.contains (0 : DieNo).val = false) ∧
    (let s := powered [(THM_SHUT.dies, 0, 2 ^ 39), (THM_SHUT.engines, 0, 2 ^ 23)]
     dieShut s 39 = true ∧ dieTripped s 39 = false ∧ on s THM_CTL.auto_return = true ∧ dieCool s 39 = true ∧ dieCool (wr s THM_DATA.reading (16 * 39) 127) 39 = false ∧ dieActive s 39 = true ∧ dieFloor s < 2 ∧
       bitOn (rd s THM_SHUT.engines) 23 = true ∧ senReading s (senIdx 2 23) + hyst s < thWarn s 2 ∧ (BitVec.ofNat 40 (2 ^ 39)).getLsbD 39 = true) ∧
    (let s := powered []
     s.pw.offP3 = false ∧ dieActive s 39 = true ∧ dieActive s 1 = false ∧ rd s DIE_STATUS.die_state 39 ≠ 3 ∧ dieTripped s 39 = false ∧ s.hst.resetKind = none ∧ dieShut s 39 = false ∧ dieFloor s < 2 ∧
       (let u := stopDie { s with th := { s.th with stopping := setIns s.th.stopping 39 } } 39 []
        dieTripped u 39 = false ∧ dieShut u 39 = false)) ∧
    (let s := { powered [(THM_SHUT.dies, 0, 2 ^ 39 - 1)] with th := { bare.th with hubStop := true } }
     s.th.hubStop = true ∧ ∀ n < 40, n ≠ 39 → dieActive s n = true → dieShut s n = true ∨ dieTripped s n = true) ∧
    (let s := { powered [(PWR_PSTATE.current, 0, 2), (DIE_STATUS.die_state, 39, 2), (WNG_STATUS.state, 159, 2)] with th := { bare.th with waking := true } }
     s.th.waking = true ∧ s.pw.offP3 = false ∧ rd s PWR_PSTATE.current = 2 ∧ rd s DIE_STATUS.die_state 39 = 2 ∧ rd s WNG_STATUS.state 159 = 2) := by decide +kernel

/-! ### Start-up, events and the Galleries (files 17, 19) -/

theorem test_meets_ResetsAndWakesRunStartUp :
    ({ bare with hst := { bare.hst with resetKind := some 0 } }).hst.resetKind = some 0 ∧ bare.hst.resetKind ≠ some 0 ∧
    unitState bare 304 < 3 ∧
    bare.pw.offP3 = false ∧ ¬(bare.hst.resetKind = some 0 ∨ bare.hst.resetKind = some 1) ∧ (∀ k, bare.hst.resetKind = some k → 2 < k) ∧
    (let s := { withFields ((PNL_HOST_STATUS.rate, 0, 1) :: (List.range 40).map fun d => (PNL_UNIT_DATA.state, d, 0)) with hst := { bare.hst with resetKind := some 2 } }
     s.hst.resetKind.isSome = true ∧ on s PNL_START.failed = false ∧ readyNow s = true ∧ (10 : Fin 11).val ≠ 0 ∧ (10 : Fin 11).val ≠ 3) ∧
    (1 ∉ bare.hst.portHeld ∧ 1 ∈ bare.hst.hubsUp ∧ (2 : Fin 3).val ≠ 0 ∧ rd bare PNL_HOST_STATUS.rate 1 = 0 ∧
      1 ∈ ({ bare with hst := { bare.hst with perst := [1] } }).hst.perst ∧ rd (withFields [(PNL_HOST_STATUS.rate, 1, 2)]) PNL_HOST_STATUS.rate 1 ≠ 0) ∧
    (let s := withFields [(PWR_PSTATE.busy, 0, 1)]
     on bare PWR_PSTATE.busy = false ∧ on s PWR_PSTATE.busy = true ∧ ({ s with th := { s.th with waking := true } }).th.waking = true ∧ rd s PWR_PSTATE.target = 0 ∧
       s.th.waking = false ∧ s.th.wakeNext = none ∧ (∀ p < 4, rd (wr s PWR_PSTATE.target 0 p) PWR_PSTATE.target = p) ∧ arraysBusy s = false ∧ arraysBusy { s with arrays := [(0, 1)] } = true ∧
       (let v := wr s PWR_PSTATE.target 0 2
        let u (s : State) : State := if diesRetained s then s else unitsRetain (wr s PWR_PSTATE.busy 0 0)
        watchedSource (u v) = none ∧ watchedSource (u (wr (wr v THM_PORTER_SRC.entry_3 15 0x8006) EVT_LEVEL.latched 0 64)) = some 6)) ∧
    (let s := withFields [(PWR_PSTATE.current, 0, 2), (THM_PORTER_SRC.entry_3, 15, 0x83FF), (THM_PORTER_CTL.smbus_wake_en, 0, 1), (THM_PORTER_CTL.timer_s, 0, 1)]
     rd s PWR_PSTATE.current = 2 ∧ on s PWR_PSTATE.busy = false ∧ bitOn (rd s SEC_STATUS.image_fail) 2 = false ∧ (1023 : Fin 1027).val < 0x400 ∧
       bitOn (rd s THM_PORTER_SRC.entry_3 15) 15 = true ∧ rd s THM_PORTER_SRC.entry_3 15 % 1024 = (1023 : Fin 1027).val ∧ on s THM_PORTER_CTL.smbus_wake_en = true ∧
       rd s THM_PORTER_CTL.timer_s ≠ 0 ∧ rd bare THM_PORTER_CTL.timer_s = 0) ∧
    (let s := { bare with pw := { bare.pw with offP3 := true } }
     s.pw.offP3 = true ∧ bitOn (rd s SEC_STATUS.image_fail) 2 = false) := by decide +kernel

/-- Whether an image runs rests on the free hash and signature of Config: given any two images that pass the checks of R579, a flash
holding them meets `imagesRun`, and the erased flash does not. -/
theorem test_meets_imagesRun (a b : List Byte) (ha : imageOk bare 0 a = true) (hb : imageOk bare 1 b = true) :
    imagesRun { bare with sec := { bare.sec with flash := [(0, a), (2, b)] } } ∧ ¬imagesRun bare := by
  have ha' : imageOk { bare with sec := { bare.sec with flash := [(0, a), (2, b)] } } 0 a = true := ha
  have hb' : imageOk { bare with sec := { bare.sec with flash := [(0, a), (2, b)] } } 1 b = true := hb
  refine ⟨⟨?_, ?_⟩, ?_⟩
  · simp [runningCopy, kget, kfind, ha']
  · simp [runningCopy, kget, kfind, hb']
  · intro h
    exact absurd h.1 (by decide +kernel)

/-- Shared source 1023 and private source 63 are pending for the host. -/
def pended (l : List (Fld × Nat × Nat)) : State :=
  withFields ([(EVT_PEND.pending, 15, 2 ^ 63), (EVT_MASK.mask, 15, 0), (EVT_SRC_CFG.enable, 1023, 1), (EVT_SRC_CFG.target, 1023, 4), (EVT_HOST_PRIV.pending, 0, 2 ^ 63),
    (EVT_HOST_PRIV_MASK.mask, 0, 0)] ++ l)

theorem test_meets_EventsAreLatchedAndDelivered :
    (bare.pw.offP3 = false ∧ srcNamed 0 = true ∧ srcNamed 1023 = false) ∧
    (nextShared (pended []) 4 = some 1023 ∧ running (pended []) = true ∧ on (pended []) EVT_HOST_ACTIVE.valid = false ∧ nextShared (pended [(EVT_PEND.pending, 15, 0)]) 4 = none ∧
      nextPrivate (pended [(EVT_PEND.pending, 15, 0)]) = some 63 ∧ on (pended [(EVT_HOST_ACTIVE.valid, 0, 1)]) EVT_HOST_ACTIVE.valid = true) ∧
    (let s := pended [(EVT_SRC_CFG.target, 1023, 3)]
     kfind s.gal.stewardActive 3 = none ∧ nextShared s 3 = some 1023 ∧
       (let u := { s with gal := { s.gal with stewardActive := [(3, 5)] } }
        kfind u.gal.stewardActive 3 = some 5 ∧ nextShared (repend (wr u EVT_PEND.pending 15 0) 5) 3 = none)) ∧
    (let s := withFields [(EVT_HOST_ACTIVE.valid, 0, 1), (EVT_HOST_ACTIVE.priv, 0, 0), (EVT_HOST_ACTIVE.source, 0, 1023), (EVT_LEVEL.latched, 15, 2 ^ 63)]
     on s EVT_HOST_ACTIVE.valid = true ∧ on s EVT_HOST_ACTIVE.priv = false ∧ rd s EVT_HOST_ACTIVE.source = (1023 : BitVec 10).toNat ∧ Latched s (1023 : BitVec 10).toNat ∧
       ¬Latched bare 1023 ∧ ¬(on bare EVT_HOST_ACTIVE.valid = true)) ∧
    rd (withFields [(EVT_CTL.rescan_ms, 0, 1)]) EVT_CTL.rescan_ms ≠ 0 ∧ rd (withFields [(EVT_CTL.rescan_ms, 0, 0)]) EVT_CTL.rescan_ms = 0 := by
  unfold Latched
  decide +kernel

theorem test_meets_AlarmsComeDueAsSigned :
    (let s := withFields [(TMR_ALARM_CTL.enable, 15, 1), (TMR_ALARM_CMP.compare, 15, 2 ^ 64 - 1)]
     on s TMR_ALARM_CTL.enable 15 = true ∧ 0 ≤ (BitVec.ofNat 64 (hubTick s) - BitVec.ofNat 64 (rd s TMR_ALARM_CMP.compare 15)).toInt ∧
       rd (wr s TMR_ALARM_CTL.period 15 1) TMR_ALARM_CTL.period 15 ≠ 0 ∧ rd s TMR_ALARM_CTL.period 15 = 0) ∧
    (let s := withFields [(TMR_ALARM_CTL.enable, 0, 1), (TMR_ALARM_CMP.compare, 0, 1)]
     ¬(0 ≤ (BitVec.ofNat 64 (hubTick s) - BitVec.ofNat 64 (rd s TMR_ALARM_CMP.compare 0)).toInt)) ∧ on bare TMR_ALARM_CTL.enable 0 = false := by decide +kernel

theorem test_meets_GalleriesSampleAndPublish :
    (let x : GalRec := { galFresh 0 0 with bins := 65535 :: List.replicate 15 0 }
     x.bins.length = 16 ∧ ((-1 - x.lo) / 2 ^ x.shift : Int) < 0 ∧ (0 : Int) ≤ ((15 - x.lo) / 2 ^ x.shift : Int) ∧ x.bins.getD (galBin x 15) 0 < 65535 ∧
       x.bins.getD (galBin x (-1)) 0 = 65535 ∧ x.low = none ∧ x.high = none ∧ ({ x with low := some (1, 1), high := some (1, 1) } : GalRec).low = some (1, 1)) ∧
    (galKeeps (withFields [(PNL_UNIT_DATA.state, 39, 1)]) 39 99 = true ∧ galKeeps bare 39 100 = false ∧
      galSamples (withFields [(PNL_UNIT_DATA.state, 39, 1), (DIE_STATUS.die_state, 39, 0)]) 39 99 = true ∧ galSamples bare 39 100 = false ∧ (∀ e ∈ bare.gal.galHold, e.2 ≠ galKey 39 99) ∧
      kfind bare.gal.galBins (galKey 39 99) = none ∧ kfind ({ bare.gal with galBins := [(galKey 39 99, 5, 2)] } : GalState).galBins (galKey 39 99) = some (5, 2)) ∧
    (rd (withFields [(GAL_CTL.hold_us, 40, 0)]) GAL_CTL.hold_us 40 = 0 ∧ rd (withFields [(GAL_CTL.hold_us, 40, 1)]) GAL_CTL.hold_us 40 ≠ 0 ∧
      (galQuantity (galSelected (withFields [(GAL_CURSOR.record, 40, 343), (GAL_CURSOR.hub, 40, 1)]) 40).1
        (galSelected (withFields [(GAL_CURSOR.record, 40, 343), (GAL_CURSOR.hub, 40, 1)]) 40).2).isSome = true) ∧
    (kfind bare.gal.galHold 0 = none ∧ kfind ({ bare.gal with galHold := [(39, galKey 39 99)] } : GalState).galHold 39 = some (galKey 39 99) ∧ 99 < 1024) := by
  decide +kernel

/-! ### Security and the host (files 18, 19) -/

/-- The buffer of the mailbox holds a token of a new state, and the lifecycle is as given. -/
def mailbox (life new arg : Nat) : State :=
  withFields [(SEC_STATUS.lifecycle, 0, life), (SEC_MBOX_BUF.data, 0, new * 2 ^ 48), (SEC_MBOX_ARG.arg, 0, arg), (SEC_STATUS.debug, 0, 0), (SEC_STATUS.lifecycle_next, 0, life)]

theorem test_meets_MailboxFollowsItsTable :
    mailboxCommand (.fuseAuth .host true) = some (6, .host) ∧ bare.pw.offP3 = false ∧ on bare PWR_PSTATE.busy = false ∧
    on (withFields [(PWR_PSTATE.busy, 0, 1)]) PWR_PSTATE.busy = true ∧ ({ bare.pw with offP3 := true } : PowerState).offP3 = true ∧ SecPath.host ≠ .management ∧
    (∀ life < 4, lifecycle (mailbox life 2 0) = life) ∧ leAt (mbBuf (mailbox 1 2 0)) 6 1 = 2 ∧ leAt (mbBuf (mailbox 2 3 0)) 6 1 = 3 ∧
    (∀ arg < 4, rd (mailbox 0 2 arg) SEC_MBOX_ARG.arg % 4 = arg) ∧
    (let s := wr (mailbox 0 2 (64 + 256 * 3)) SEC_ARB.running_ver 0 (64 * 2 ^ 24)
     rd s SEC_MBOX_ARG.arg % 128 ≤ 64 ∧ arbCount s (rd s SEC_MBOX_ARG.arg / 256 % 4) ≤ rd s SEC_MBOX_ARG.arg % 128 ∧
       rd s SEC_MBOX_ARG.arg % 128 ≤ rd s SEC_ARB.running_ver / 2 ^ (8 * (rd s SEC_MBOX_ARG.arg / 256 % 4)) % 256) ∧
    ¬(rd (mailbox 0 2 65) SEC_MBOX_ARG.arg % 128 ≤ 64) ∧
    (let s := mailbox 0 2 1
     rd s SEC_MBOX_ARG.arg % 4 = 1 ∧ lifecycle s + 1 = 1 ∧ rd s SEC_STATUS.lifecycle_next = lifecycle s ∧ ¬(lifecycle (mailbox 2 2 1) + 1 = 1)) ∧
    (lifecycle (mailbox 1 2 0) = 1 ∧ (mailbox 1 2 0).sec.authDigest = none) ∧
    (let s := { withFields [(SEC_STATUS.debug, 0, 2)] with sec := { bare.sec with openTimed := true } }
     rd s SEC_STATUS.debug = 2 ∧ s.sec.openTimed = true ∧ bare.sec.openTimed = false) := by decide +kernel

/-- Port 1 is up and its exchange has come to its end, at a lifecycle state. -/
def spoken (life : Nat) (ids : List SpdmSession) : State :=
  { withFields [(PNL_HOST_STATUS.rate, 1, 1), (SEC_STATUS.lifecycle, 0, life), (SEC_STATUS.debug, 0, 0)] with
    sec := { bare.sec with spdmStep := [(1, 3)], certs := [(1, [7])], sessions := ids } }

theorem test_meets_RespondersAnswerByTheirState :
    spdmRequest (.keyExchange 1) = some (1, 3, true) ∧ rd bare PNL_HOST_STATUS.rate 1 = 0 ∧ Answerable (spoken 1 []) 1 3 true ∧ Answerable (spoken 0 []) 1 2 false ∧
    Answerable (spoken 2 []) 1 0 false ∧ lifecycle (spoken 0 []) ≠ 1 ∧ lifecycle (spoken 0 []) ≠ 2 ∧ kget ({ bare.sec with spdmStep := [] } : SecState).spdmStep 1 0 < 3 ∧
    lifecycle (spoken 1 []) = 1 ∧ lifecycle (spoken 2 []) = 2 ∧ certSlot (spoken 1 []) 1 ≠ [] ∧ (List.replicate 2 (0 : Byte)).length ≤ 4096 ∧
    1 ≤ (5 : BitVec 8).toNat ∧ (5 : BitVec 8).toNat ≤ 5 ∧ 5 < (6 : BitVec 8).toNat ∧ (6 : BitVec 8) ≠ 0xFF ∧
    (let s := spoken 1 [⟨1, 0, false⟩, ⟨1, 1, true⟩]
     2 ≤ (s.sec.sessions.filter (·.port == (1 : HostPortNo).val)).length ∧ ((spoken 1 []).sec.sessions.filter (·.port == (1 : HostPortNo).val)).length < 2 ∧
       ⟨1, 0, false⟩ ∈ s.sec.sessions ∧ ⟨1, 1, true⟩ ∈ s.sec.sessions ∧ rd s SEC_STATUS.debug ≠ 2 ∧ rd (wr s SEC_STATUS.debug 0 2) SEC_STATUS.debug = 2) := by
  unfold Answerable
  decide +kernel

/-- The home port serves segment 0, which shows the first part of a stack's window. -/
def windowed0 (valid window : Nat) : State :=
  { withFields [(PNL_HUB_ROLE.primary, 0, 0), (PNL_HOST_STATUS.mem_en, 0, 1), (PNL_HOST_STATUS.rate, 0, 1), (PNL_MEM_SEG.valid, 0, valid), (PNL_MEM_SEG.window, 0, window),
      (DIE_STATUS.die_state, 0, 1)] with
    force := [(fkey PNL_MEM_WIN.segments 0, 1)] }

/-- The addresses of windows of stack number 80 and above are no stack's. -/
theorem test_meets_WindowLinesReachTheirStacks :
    WindowOpen (windowed0 1 0) 0 0 ∧ ¬WindowOpen bare 1 0 ∧ WindowHole (windowed0 0 0) 0 ∧ ¬WindowHole (windowed0 1 0) 0 ∧ WindowOpen (windowed0 0 0) 0 0 ∧
    WindowHole (windowed0 1 80) 0 ∧
    (let s := windowed0 1 0
     windowAddress s 0 = 0 ∧ reachStatus s 0 = stOk ∧ rd s DIE_STATUS.die_state (0 / 2 ^ 37) ≠ 3 ∧ ¬(2 ^ 20 ≤ s.hst.snoop.length) ∧ ¬(∃ l ∈ s.hst.snoop, l.1 = 0)) ∧
    (let s := { windowed0 1 0 with hst := { bare.hst with snoop := [(0, false)] } }
     (∃ l ∈ s.hst.snoop, l.1 = 0) ∧ (∀ l ∈ s.hst.snoop, l.1 % 64 = 0) ∧ reachStatus s 0 = stOk ∧ ∀ l ∈ bare.hst.snoop, l.1 ≠ 0) := by
  have p : ∀ s, placeOf s 0 = .stack 0 → ¬∀ w, placeOf s 0 ≠ .stack w := fun _ h k => k 0 h
  have q : placeOf (windowed0 1 0) (windowAddress (windowed0 1 0) 0) = .stack 0 := by decide +kernel
  refine ⟨?_, ?_, ?_, ?_, ?_, ?_, ?_, ?_⟩
  · unfold WindowOpen; decide +kernel
  · unfold WindowOpen; decide +kernel
  · exact .inl (by decide +kernel)
  · rintro (h | h | h)
    · revert h; decide +kernel
    · revert h; decide +kernel
    · exact h 0 q
  · unfold WindowOpen; decide +kernel
  · exact .inr (.inl (by decide +kernel))
  · decide +kernel
  · decide +kernel

/-- A full snoop filter whose oldest line has not been sent for. -/
theorem test_meets_WindowLinesReachTheirStacks_full :
    ∃ rest : List (Nat × Bool), 2 ^ 20 ≤ ((64, false) :: rest).length ∧ ∀ l ∈ (64, false) :: rest, l.1 ≠ 0 :=
  ⟨List.replicate (2 ^ 20) (64, false), by rw [List.length_cons, List.length_replicate]; exact Nat.le_succ _,
    fun l h => by rcases List.mem_cons.mp h with rfl | h; exact (by decide); rw [List.eq_of_mem_replicate h]; decide⟩

theorem test_meets_HubsTakeOverAndPortsFollow :
    bare.pw.offP3 = false ∧ bare.hst.resetKind = none ∧ bare.hst.takingOver = false ∧ bare.hst.hubLost = false ∧
    on (withFields [(PNL_HUB_ROLE.peer_synced, 0, 1)]) PNL_HUB_ROLE.peer_synced = true ∧ on (withFields [(PNL_HUB_ROLE.peer_synced, 0, 0)]) PNL_HUB_ROLE.peer_synced = false ∧
    (let s := withFields [(PNL_HUB_ROLE.peer_synced, 0, 1), (PNL_HUB_ROLE.primary, 0, 1), (PNL_HOST_STATUS.rate, 0, 1)]
     rd s PNL_HOST_STATUS.rate (rd s PNL_HUB_ROLE.primary) = 0 ∧ rd s PNL_HOST_STATUS.rate (1 - rd s PNL_HUB_ROLE.primary) ≠ 0) ∧
    (let s := withFields [(PNL_HUB_ROLE.primary, 0, 1)]
     unitState s (305 - rd s PNL_HUB_ROLE.primary) ≠ 4 ∧ let u := wr s PNL_UNIT_DATA.state 304 4; unitState u (305 - rd u PNL_HUB_ROLE.primary) = 4) ∧
    ({ bare.hst with takingOver := true } : HostState).takingOver = true ∧
    (let m := kget ({ bare with msix := [(1, ⟨false, [], [2047]⟩)] }).msix 1 ⟨false, [], []⟩
     2047 ∈ m.pba) := by decide +kernel

/-! ### Registers, the management path and the debug access port (files 00, 01, 18, 19) -/

/-- The register of the mailbox's argument (Table 18.4). -/
def plainRow : RegRow := ⟨"SEC_MBOX_ARG", .bar, 0x80108, 0, 1, 1, [], [⟨SEC_MBOX_ARG.arg, .rw, .imm, none⟩]⟩

theorem plainRow_plain : PlainReg plainRow := by
  refine ⟨by decide +kernel, fun s p i path mask v x => ?_⟩
  rfl

theorem test_meets_RegisterWritesStoreAddressedBits :
    (let s := withFields [(PNL_START.ready, 0, 1)]
     let e := withFields [(PNL_START.ready, 0, 0)]
     let a := wr s PNL_UNIT_DATA.state 39 4
     spotOf (0x8010C / 8 * 8) = some ⟨.bar, 0, 0x80108⟩ ∧ regAt ⟨.bar, 0, 0x80108⟩ = some (plainRow, 0) ∧ 0x8010C % 4 = 0 ∧ 0x80108 % 8 = 0 ∧ 0x8010C % 8 ≠ 0 ∧
       (s.pw.offP3 = false ∧ earlyAt s 0x8010C = false ∧ absentAt s 0x8010C = false) ∧ (spotOf 0x1C0000).bind regAt = none ∧ (spotOf (0x10FF8)).bind regAt = none ∧
       (s.pw.offP3 = false ∧ earlyAt s 0x1C0000 = false ∧ absentAt s 0x1C0000 = false) ∧ earlyAt e 0x80108 = true ∧ e.pw.offP3 = false ∧ earlyAt e 0xFFF8 = false ∧
       earlyAt a 0x3700000 = false ∧ absentAt a 0x3700000 = true ∧ absentAt a 0x37FFFFF = true ∧ absentAt a 0x3800000 = false) ∧
    (Sized 0x8010C 4 ∧ Sized 0x80108 8 ∧ ¬Sized 0x8010C 8 ∧ ¬Sized 0x80108 2) ∧
    (let s := withFields [(PNL_START.ready, 0, 1)]
     missed s 0x8010C = false ∧ missed s (0x8010C / 8 * 8) = false ∧ s.pw.offP3 = false ∧ absentAt s 0x8010C = false ∧ earlyAt s 0x8010C = false ∧ 0x8010C % 4 = 0) ∧
    (∃ r k, regAt ⟨.bar, 0, 0x10000⟩ = some (r, k) ∧ (Space.bar ≠ .gal) ∧ ∀ y ∈ r.fields, 63 < y.f.lo ∨ y.f.lo + y.f.w ≤ 63) :=
  ⟨by decide +kernel, by unfold Sized; decide, by decide +kernel, _, _, rfl, by decide, by decide +kernel⟩

theorem test_meets_UnitsAndProfilesAreWritten :
    (let s := withFields [(PNL_UNIT_SEL.index, 0, 39), (PNL_UNIT_DATA.state, 39, 1), (PNL_UNIT_DATA.generation, 39, 7)]
     let g (n : Nat) : W64 := BitVec.ofNat 64 (n + 7 * 2 ^ 32)
     rd s PNL_UNIT_SEL.index < 308 ∧ (g 3).toNat / 2 ^ 32 % 2 ^ 16 = rd s PNL_UNIT_DATA.generation 39 ∧ unitState s 39 = 1 ∧ (g 3).toNat % 16 = 3 ∧ (g 4).toNat % 16 = 4 ∧
       ((8 * 2 ^ 32 : W64)).toNat / 2 ^ 32 % 2 ^ 16 ≠ rd s PNL_UNIT_DATA.generation 39 ∧ ¬(rd (wr s PNL_UNIT_SEL.index 0 308) PNL_UNIT_SEL.index < 308) ∧
       unitState (wr s PNL_UNIT_DATA.state 39 3) 39 = 3 ∧ (g 1).toNat % 16 = 1 ∧ unitInService s 118 = true ∧ unitInService s 119 = true ∧ 40 ≤ rd (wr s PNL_UNIT_SEL.index 0 304) PNL_UNIT_SEL.index ∧ 39 < 40) ∧
    (Fin.val (0 : Fin 3) ≠ 2 ∧ expertTable ≠ [] ∧ (0xFFFF : W64).toNat / 2 ^ 0 % 16 = 15 ∧
      (∃ e ∈ expertTable, e.1.lo < 32) ∧ (∀ e ∈ expertTable, preset e.1 14 = none) ∧ (∀ e ∈ expertTable, (preset e.1 0).isSome = true) ∧
      on (withFields [(FAR_CTL.enable, 0, 1)]) FAR_CTL.enable = true ∧ on (withFields [(FAR_CTL.enable, 0, 0)]) FAR_CTL.enable = false) := by decide +kernel

theorem test_meets_ManagementMessagesAreAnswered :
    (let p := { bare with pw := { bare.pw with offP3 := true, standby := false } }
     p.pw.offP3 = true ∧ p.pw.standby = false ∧ bare.pw.offP3 = false) ∧
    (let s := { bare with hst := { bare.hst with mgmtKept := [⟨5, 9, 0x81, 0, 0, []⟩] } }
     (s.hst.mgmtKept.find? fun r => r.src == (5 : W64).toNat && r.seq == (9 : BitVec 16).toNat) = some ⟨5, 9, 0x81, 0, 0, []⟩ ∧
       (s.hst.mgmtKept.find? fun r => r.src == (5 : W64).toNat && r.seq == (8 : BitVec 16).toNat) = none) ∧
    (let off : BitVec 32 := 0xFFFFFF8
     off.toNat % 8 = 0 ∧ off.toNat + 8 * (1 : BitVec 16).toNat ≤ 2 ^ 28 ∧ ¬(off.toNat + 8 * (2 : BitVec 16).toNat ≤ 2 ^ 28) ∧ (128 : BitVec 16).toNat ≤ 128 ∧
       ¬((129 : BitVec 16).toNat ≤ 128) ∧ ¬(1 ≤ (0 : BitVec 16).toNat) ∧ (0 : BitVec 32).toNat + 8 * (128 : BitVec 16).toNat ≤ 2 ^ 28) ∧
    ({ bare.th with sensors := [(0, ⟨0, 0, []⟩)] } : ThermState).sensors ≠ [] := by decide +kernel

theorem test_meets_DebugPortReachesByState :
    (let s := withFields [(SEC_STATUS.debug, 0, 0), (PWR_PSTATE.current, 0, 0), (DIE_STATUS.die_state, 0, 1)]
     let o := wr s SEC_STATUS.debug 0 2
     s.pw.offP3 = false ∧ rd s SEC_STATUS.debug = 0 ∧ rd o SEC_STATUS.debug = 2 ∧ rd o PWR_PSTATE.current ≠ 2 ∧ 16384 ≤ dapUnit (.steward 0 0) ∧
       ¬(16384 ≤ dapUnit (.core 39 255)) ∧ rd (wr o PWR_PSTATE.current 0 2) PWR_PSTATE.current = 2 ∧ (dapNeeds (.readMem (.device 0))).2 = false ∧
       rd s SEC_STATUS.debug < (dapNeeds (.gallery 41 0)).1 ∧ 1 ≤ rd o SEC_STATUS.debug ∧ 0x80100 ≤ (0x80278 : BitVec 28).toNat ∧ (0x80278 : BitVec 28).toNat < 0x80280 ∧
       o.hst.snoop = [] ∧ reachStatus o (dapFlat (.device 7)) = stOk ∧ reachStatus o (dapFlat (.tile 0 0 0xFFFFF)) = stOk ∧ 2 ^ 52 ≤ dapFlat (.tile 0 0 0xFFFFF) ∧
       dapFlat (.device 7) < 2 ^ 52) := by decide +kernel

/-! ### Well-formedness: each check refuses an ill-formed command -/

/-- Sixteen lane groups that pass. -/
def groups : List LaneTest := List.replicate 16 ⟨0, false⟩

theorem test_wf_descriptorRead : (Instr.descriptorRead 3 []).wf = false ∧ (Instr.descriptorRead 3 (List.replicate 9 0)).wf = false := by decide +kernel

theorem test_wf_tcnTraining :
    (Instr.tcnTraining 0 1 groups (groups.drop 1) true true).wf = false ∧ (Instr.tcnTraining 0 1 (⟨0, false⟩ :: groups) groups true true).wf = false ∧
    (Instr.tcnTraining 0 1 groups groups true true).wf = true := by decide +kernel

theorem test_wf_uciDieRequest :
    (Instr.uciDieRequest 0 0 0 true 0 2 [1]).wf = false ∧ (Instr.uciDieRequest 0 0 0 false 0 1 [1]).wf = false ∧ (Instr.uciDieRequest 0 0 0 false 0 0 []).wf = false ∧
    (Instr.uciDieRequest 0 0 0 true 0 1 [1]).wf = true := by decide +kernel

theorem test_wf_partnerCommit :
    (Instr.partnerCommit 0 0 0 0 0 0 2 1 [7] true).wf = false ∧ (Instr.partnerCommit 0 0 0 0 0 0 2 0 [7] true).wf = false ∧
    (Instr.partnerCommit 0 0 0 0 0 0 2 0 [7, 8] true).wf = true := by decide +kernel

theorem test_wf_selfTestDone : (Instr.selfTestDone [308]).wf = false ∧ (Instr.selfTestDone [307]).wf = true := by decide +kernel

theorem test_wf_mgmt :
    (Instr.mgmtRead 0 0 0 0).wf = false ∧ (Instr.mgmtRead 0 0 0 129).wf = false ∧ (Instr.mgmtWrite 0 0 0 []).wf = false ∧
    (Instr.mgmtRead 0 0 0 128).wf = true := by decide +kernel

/-! ### The remaining witnesses -/

theorem test_meets_ElementwiseVectorsRunTheirRows : ∀ op < 0x0E, ∃ s' pl, VectorAt op (withCtx (vectorCtx op) bare) 3 5 s' pl :=
  fun op h => test_meets_VectorsRunTheirRows op (Nat.lt_trans h (by decide))

theorem test_meets_RowVectorsRunTheirRows : ∀ op < 0x13, ∃ s' pl, VectorAt op (withCtx (vectorCtx op) bare) 3 5 s' pl :=
  test_meets_VectorsRunTheirRows

theorem test_meets_TermsAlignToNearestEven :
    (255 < 256 ∧ 15 < 16 ∧ 254 < 255) ∧ NearestEven 3 (-1) 0 2 ∧ NearestEven 5 (-1) 0 2 ∧ NearestEven 3 1 0 6 ∧ ¬NearestEven 3 (-1) 0 1 ∧
    isFin (elemVal .x128 0 (2 ^ 127 - 2)) = true ∧ isFin (elemVal .x128 0 (2 ^ 127 + 2)) = true := by
  unfold NearestEven
  decide +kernel

/-! ### Results that the spec's examples give -/

/-- Example 1.1: D13's link to D21 is unit 174, its link to D12 unit 169; core D13.W2.K5.U3 is panel core 3,499. -/
theorem test_units_of_D13 : linkUnit (4 * 13 + 2) = 174 ∧ linkUnit (4 * 13 + 3) = 169 ∧ linkUnit (4 * 5 + 2) = 142 ∧ linkUnit (4 * 13 + 1) = 173 ∧
    dapUnit (.core 13 171) = 3499 ∧ spotOf 0x1D42000 = some ⟨.wng, 4 * 13 + 2, 0⟩ ∧ spotOf 0x1D38000 = some ⟨.tcn, 4 * 13 + 2, 0⟩ := by decide +kernel

/-- Example 1.1, continued: retiring D13 at generation 7 takes its stacks and links with it. -/
theorem test_retire_D13 :
    (match exec (.unitStateWrite true 0 0x0000_0007_0000_0004)
        (withFields [(PNL_UNIT_SEL.index, 0, 13), (PNL_UNIT_DATA.state, 13, 1), (PNL_UNIT_DATA.generation, 13, 7)]) with
      | .next t => [13, 66, 67, 169, 174, 142, 173].all (unitState t · == 4) && rd t PNL_UNIT_DATA.generation 13 == 8 && !bitOn (dieMask t) 13 && bitOn (dieMask t) 12
      | _ => false) = true := by decide +kernel

/-- Example 2.1: 57,344², 2⁻³² and −57,344² sum to 2⁻³² at anchor −32, and convert to 0x2F80_0000 in FP32. -/
theorem test_exact_sum :
    cellVal (-32) (cellAdd (-32) (cellAdd (-32) (cellAdd (-32) cellZero (.fin false 49 26)) (.fin false 1 (-32))) (.fin true 49 26)) = .fin false 1 (-32) ∧
    (conv .fp32 0 .rne (.fin false 1 (-32))).bits = 0x2F800000 ∧ (conv .fp16 0 .rne (.fin false 1 (-16))).bits = 0x0100 := by decide +kernel

/-- Example 2.2: at anchor −6 the terms 3·2⁻⁷ and 2⁻⁹ give 2⁻⁵ and are inexact; at anchor −9 they give 13·2⁻⁹ exactly. -/
theorem test_anchor :
    (let c := cellAdd (-6) (cellAdd (-6) cellZero (.fin false 3 (-7))) (.fin false 1 (-9))
     cellVal (-6) c = .fin false 2 (-6) ∧ c.low = true) ∧
    (let c := cellAdd (-9) (cellAdd (-9) cellZero (.fin false 3 (-7))) (.fin false 1 (-9))
     cellVal (-9) c = .fin false 13 (-9) ∧ c.low = false) := by decide +kernel

/-- R83, R86: the largest finite X128 value plus 1 saturates; a sum in range is exact. -/
theorem test_x128 : x128Add (2 ^ 127 - 2) 1 = (2 ^ 127 - 2, true) ∧ x128Add (2 ^ 128 - 5) 7 = (2, false) ∧ x128Add (2 ^ 127 - 1) 3 = (2 ^ 127 - 1, false) := by
  decide +kernel

/-- Example 10.1: 0x1166 is panel (38, 5, 2) and 0x31C1 is (1, 7, 6). -/
theorem test_nodes : (nodeX 0x1166, nodeY 0x1166, nodeZ 0x1166) = (38, 5, 2) ∧ (nodeX 0x31C1, nodeY 0x31C1, nodeZ 0x31C1) = (1, 7, 6) := by decide

/-- Example 19.1: segment 8 shows part 2 of stack 27; offset 0x22_3000_1240 is device address 0x01BA_3000_1240. -/
theorem test_window_address :
    windowAddress (withFields [(PNL_MEM_SEG.valid, 8, 1), (PNL_MEM_SEG.window, 8, 27), (PNL_MEM_SEG.part, 8, 2)]) 0x2230001240 = 0x01BA30001240 := by decide +kernel

/-- Example 17.1: a write of zeros to word 5 of EVT_PEND loses the pending bit of source 0x16B, and the level stays. -/
theorem test_pending_lost :
    (match exec (.evtPendWrite 5 0) (withFields [(EVT_PEND.pending, 5, 0x0000080000000004), (EVT_LEVEL.latched, 5, 0x0000080000000000)]) with
      | .next t => rd t EVT_PEND.pending 5 == 0 && rd t EVT_LEVEL.latched 5 == 0x0000080000000000
      | _ => false) = true := by decide +kernel

/-- R455: the check value of IEEE 802.3's CRC-32 over the characters 1 to 9. -/
theorem test_crc32 : crc32 [0x31, 0x32, 0x33, 0x34, 0x35, 0x36, 0x37, 0x38, 0x39] = 0xCBF43926 := by decide +kernel

/-- R454: the generator of RS(544,514) in IEEE 802.3 (its second and last coefficients), and a word with its parity has the roots 1, α and α^29. -/
theorem test_reed_solomon : rsGen.head? = some 575 ∧ rsGen.getLast? = some 523 ∧
    ∀ r ∈ [1, 2, ((List.range 29).foldl (fun a _ => gfMul a 2) 1)], ([5, 1023, 7] ++ rsParity [5, 1023, 7]).foldl (fun a m => Nat.xor (gfMul a r) m) 0 = 0 := by
  decide +kernel

/-- Table 13.5, Table 13.6: a flit is 256 bytes with its sequence number in bytes 0xFA and 0xFB; a packet of 272 bytes takes two flits of its lane. -/
theorem test_flits : (flitBytes 0 0x0ABC [1]).length = 256 ∧ leAt (flitBytes 0 0x0ABC [1]) 0xFA 2 = 0x0ABC ∧
    (dataFlits 3 4095 (List.replicate 272 7)).map (fun b => leAt b 0xFA 2) = [0x0FFF, 0x0000] := by decide +kernel

/-- Table 10.3: a header written out field by field, for the packet of Example 10.1. -/
theorem test_header :
    let p : Packet := ⟨0x31C1, 1, 0x1166, 1, 1, 1, 0, 1, 1, 0, 1, 39, 41, 2, 0x0605_0403_0201, [0xAA, 0xBB]⟩
    packPacket p = [0xC1, 0x71, 0x66, 0xD1, 0xED, 0x09, 0xA9, 0x00, 0x02, 0x00, 1, 2, 3, 4, 5, 6, 0xAA, 0xBB] ∧ unpackPacket (packPacket p) = p := by
  decide +kernel

/-! ### Tables of the model -/

/-- The presets of every profile lie within their fields. -/
theorem test_presets_fit : ∀ e ∈ expertTable, ∀ n < 15, ∀ l, preset e.1 n = some l → ∀ q ∈ l, q.2.2 < 2 ^ q.1.w := by
  intro e he n hn l h
  have k : (expertTable.all fun e => (List.range 15).all fun n => match preset e.1 n with | some l => l.all (fun q => decide (q.2.2 < 2 ^ q.1.w)) | none => true) = true := by
    decide +kernel
  have := List.all_eq_true.mp (List.all_eq_true.mp k e he) n (List.mem_range.mpr hn)
  rw [h] at this
  simpa using this

/-- No two fields of a register overlap, and each lies within 64 bits. -/
theorem test_fields_apart : (regTable.all fun r => r.fields.all fun x => decide (x.f.lo + x.f.w ≤ 64) &&
    r.fields.all fun y => x.f.id == y.f.id || decide (x.f.lo + x.f.w ≤ y.f.lo) || decide (y.f.lo + y.f.w ≤ x.f.lo)) = true := by decide +kernel

end Sys2Proof.Tests
end

section
/-!
PROOFS. The choice among several statuses (R25) is a maximum: `stRank` numbers the codes from the one that every other displaces (OK) upwards,
no two codes share a rank, and `stWorse` answers the code of the larger rank. Its laws are then those of `max` on ranks.
-/

namespace Sys2Proof.Machine

/-- How strongly a status code displaces others (R25): by its class first, in a class the lower code the more, and OK below every other code. -/
def stRank (c : Nat) : Nat := if c = stOk then 0 else 16 * stClass c + (16 - c % 16)

@[simp] theorem stRank_stOk : stRank stOk = 0 := rfl

theorem stRank_of_ne_stOk {c : Nat} (h : c ≠ stOk) : stRank c = 16 * stClass c + (16 - c % 16) := if_neg h

theorem stRank_pos {c : Nat} (h : c ≠ stOk) : 0 < stRank c := by
  rw [stRank_of_ne_stOk h]; omega

theorem stRank_injective : Function.Injective stRank := by
  intro a b h
  by_cases ha : a = stOk
  · by_cases hb : b = stOk
    · exact ha.trans hb.symm
    · have := stRank_pos hb
      rw [← h, ha, stRank_stOk] at this
      omega
  · by_cases hb : b = stOk
    · have := stRank_pos ha
      rw [h, hb, stRank_stOk] at this
      omega
    · rw [stRank_of_ne_stOk ha, stRank_of_ne_stOk hb] at h
      unfold stClass at h
      omega

theorem stRank_lt_of_stClass_lt {a b : Nat} (h : stClass a < stClass b) : stRank a < stRank b := by
  have hb : b ≠ stOk := by rintro rfl; exact Nat.not_lt_zero _ h
  rw [stRank_of_ne_stOk hb]
  by_cases ha : a = stOk
  · rw [ha, stRank_stOk]; omega
  · rw [stRank_of_ne_stOk ha]; omega

/-- Within a class the ranks of codes other than OK run against the codes. -/
theorem stRank_le_iff_of_stClass_eq {a b : Nat} (h : stClass a = stClass b) (ha : a ≠ stOk) (hb : b ≠ stOk) :
    stRank a ≤ stRank b ↔ b ≤ a := by
  rw [stRank_of_ne_stOk ha, stRank_of_ne_stOk hb]
  unfold stClass at *
  omega

theorem stWorse_of_stClass_lt {a b : Nat} (h : stClass a < stClass b) : stWorse a b = b := if_pos h

theorem stWorse_of_stClass_gt {a b : Nat} (h : stClass b < stClass a) : stWorse a b = a := by
  simp [stWorse, h, Nat.lt_asymm h]

@[simp] theorem stWorse_stOk_left (a : Nat) : stWorse stOk a = a := by
  by_cases h : stClass stOk < stClass a
  · exact stWorse_of_stClass_lt h
  · have : ¬ stClass a < stClass stOk := Nat.not_lt_zero _
    simp [stWorse, h, this]

@[simp] theorem stWorse_stOk_right (a : Nat) : stWorse a stOk = a := by
  by_cases h : stClass stOk < stClass a
  · exact stWorse_of_stClass_gt h
  · have : ¬ stClass a < stClass stOk := Nat.not_lt_zero _
    simp +contextual [stWorse, h, this]

theorem stWorse_of_stClass_eq {a b : Nat} (h : stClass a = stClass b) (ha : a ≠ stOk) (hb : b ≠ stOk) : stWorse a b = min a b := by
  simp [stWorse, h, ha, hb]

/-- R25 as a maximum: of two codes the one of the larger rank is reported. -/
theorem stWorse_eq_ite_stRank (a b : Nat) : stWorse a b = if stRank a ≤ stRank b then b else a := by
  by_cases ha : a = stOk
  · simp [ha]
  by_cases hb : b = stOk
  · have := stRank_pos ha
    simp [hb, Nat.not_le.2 this]
  obtain h | h | h := Nat.lt_trichotomy (stClass a) (stClass b)
  · rw [stWorse_of_stClass_lt h, if_pos (Nat.le_of_lt (stRank_lt_of_stClass_lt h))]
  · rw [stWorse_of_stClass_eq h ha hb, Nat.min_comm, Nat.min_def]
    simp only [stRank_le_iff_of_stClass_eq h ha hb]
  · rw [stWorse_of_stClass_gt h, if_neg (Nat.not_le.2 (stRank_lt_of_stClass_lt h))]

@[simp] theorem stRank_stWorse (a b : Nat) : stRank (stWorse a b) = max (stRank a) (stRank b) := by
  rw [stWorse_eq_ite_stRank, apply_ite stRank, Nat.max_def]

theorem stWorse_comm (a b : Nat) : stWorse a b = stWorse b a := stRank_injective (by simp only [stRank_stWorse, Nat.max_comm])

theorem stWorse_assoc (a b c : Nat) : stWorse (stWorse a b) c = stWorse a (stWorse b c) := stRank_injective (by simp only [stRank_stWorse, Nat.max_assoc])

theorem stWorse_eq_or (a b : Nat) : stWorse a b = a ∨ stWorse a b = b := by
  rw [stWorse_eq_ite_stRank]
  by_cases h : stRank a ≤ stRank b
  · exact .inr (if_pos h)
  · exact .inl (if_neg h)

/-- Settles O16: R25's choice is the maximum by rank, so it is commutative, associative and one of its operands. -/
theorem worstStatusIgnoresOrder : Obligations.WorstStatusIgnoresOrder :=
  ⟨stWorse_comm, stWorse_assoc, stWorse_eq_or, fun _ _ => stWorse_of_stClass_lt, fun _ _ => stWorse_of_stClass_eq, stWorse_stOk_left⟩

end Sys2Proof.Machine
end


section
/-!
PROOFS. Elements and terms (R63, R66, R71, R72, R75). `roundMag_rne_cases` says once what round-to-nearest-even does: the magnitude is a
multiple of the unit, or it lies strictly between two neighbouring multiples and the remainder, on a tie the evenness, decides between them.
That the result is the nearest multiple and that the flag marks the discarded fractions both follow from it.
-/

namespace Sys2Proof.Machine

theorem signed_of_lt {w n : Nat} (h : n < 2 ^ w) : signed w n = if n < 2 ^ (w - 1) then (n : Int) else (n : Int) - ((2 ^ w : Nat) : Int) := by
  simp only [signed, Nat.mod_eq_of_lt h]

theorem elemVal_int8 (anchor n : Nat) : elemVal .int8 anchor n = intVal (signed 8 n) 0 := rfl

theorem elemVal_int4 (anchor n : Nat) : elemVal .int4 anchor n = intVal (signed 4 n) 0 := rfl

theorem scaledVal_fin_of_lt {x : Nat} (h : x < 255) (neg : Bool) (m : Nat) (e : Int) :
    scaledVal x (.fin neg m e) = .fin neg m (e + (x : Int) - 127) := by
  have hmod : x % 256 = x := Nat.mod_eq_of_lt (by omega)
  simp [scaledVal, hmod, Nat.ne_of_lt h]

@[simp] theorem scaledVal_255 (v : Val) : scaledVal 255 v = .nan := rfl

theorem roundMag_of_le (r : Rnd) (m : Nat) {e q : Int} (h : q ≤ e) : roundMag r m e q = (m * 2 ^ (e - q).toNat, false) := if_pos h

theorem roundMag_of_mod_eq_zero (r : Rnd) {m : Nat} {e q : Int} (h : ¬ q ≤ e) (h0 : m % 2 ^ (q - e).toNat = 0) :
    roundMag r m e q = (m / 2 ^ (q - e).toNat, false) := by
  simp [roundMag, h, h0]

theorem roundMag_rne_of_mod_ne_zero {m : Nat} {e q : Int} (h : ¬ q ≤ e) (h0 : m % 2 ^ (q - e).toNat ≠ 0) :
    roundMag .rne m e q =
      (if 2 ^ (q - e).toNat < 2 * (m % 2 ^ (q - e).toNat) ∨ 2 * (m % 2 ^ (q - e).toNat) = 2 ^ (q - e).toNat ∧ m / 2 ^ (q - e).toNat % 2 = 1
        then m / 2 ^ (q - e).toNat + 1 else m / 2 ^ (q - e).toNat, true) := by
  simp [roundMag, h, h0]

/-- The two outcomes of round-to-nearest-even (R71): the magnitude is exactly `k` units, or it is `t` units and a fraction `rem` of the `d`
parts of one, and goes to `t + 1` where the fraction is above a half, or is a half and `t` is odd. -/
theorem roundMag_rne_cases (m : Nat) (e q : Int) :
    (∃ k, roundMag .rne m e q = (k, false) ∧ k * 2 ^ (q - e).toNat = m * 2 ^ (e - q).toNat) ∨
    ∃ t rem d, roundMag .rne m e q = (if d < 2 * rem ∨ 2 * rem = d ∧ t % 2 = 1 then t + 1 else t, true) ∧
      2 ^ (q - e).toNat = d ∧ m * 2 ^ (e - q).toNat = t * d + rem ∧ 0 < rem ∧ rem < d := by
  by_cases h : q ≤ e
  · have hd : (q - e).toNat = 0 := by omega
    exact .inl ⟨_, roundMag_of_le .rne m h, by rw [hd, Nat.pow_zero, Nat.mul_one]⟩
  have hx : (e - q).toNat = 0 := by omega
  rw [hx, Nat.pow_zero, Nat.mul_one]
  by_cases h0 : m % 2 ^ (q - e).toNat = 0
  · exact .inl ⟨_, roundMag_of_mod_eq_zero .rne h h0, Nat.div_mul_cancel (Nat.dvd_of_mod_eq_zero h0)⟩
  · exact .inr ⟨_, _, _, roundMag_rne_of_mod_ne_zero h h0, rfl, (Nat.div_add_mod' m _).symm, Nat.pos_of_ne_zero h0, Nat.mod_lt m (Nat.two_pow_pos _)⟩

/-- Round-to-nearest-even rounds to the nearest multiple, a tie to the even one (R71). -/
theorem nearestEven_roundMag_rne (m : Nat) (e q : Int) : NearestEven m e q (roundMag .rne m e q).1 := by
  unfold NearestEven
  obtain ⟨k, hk, hexact⟩ | ⟨t, rem, d, hk, hd, hm, h0, hlt⟩ := roundMag_rne_cases m e q
  · have hpos := Nat.two_pow_pos (q - e).toNat
    simp only [hk, hexact]
    omega
  · have hsucc : (t + 1) * d = t * d + d := Nat.succ_mul t d
    simp only [hk, hd, hm]
    split <;> omega

/-- The flag of round-to-nearest-even says that the multiple is not the magnitude itself: a non-zero fraction was discarded (R72). -/
theorem roundMag_rne_snd (m : Nat) (e q : Int) :
    (roundMag .rne m e q).2 = decide ((roundMag .rne m e q).1 * 2 ^ (q - e).toNat ≠ m * 2 ^ (e - q).toNat) := by
  obtain ⟨k, hk, hexact⟩ | ⟨t, rem, d, hk, hd, hm, h0, hlt⟩ := roundMag_rne_cases m e q
  · simp [hk, hexact]
  · have hsucc : (t + 1) * d = t * d + d := Nat.succ_mul t d
    simp only [hk, hd, hm]
    refine (decide_eq_true ?_).symm
    split <;> omega

/-- A finite term at a cell: the rounded magnitude, limited to 2^134 − 1 (R75), is added to V with its sign (R73) and
counts in n and b (R74). -/
theorem cellAdd_fin (anchor : Int) (c : Cell) (neg : Bool) (m : Nat) (e : Int) :
    let k := (roundMag .rne m e anchor).1
    let held : Nat := if 2 ^ 134 ≤ k then 2 ^ 134 - 1 else k
    cellAdd anchor c (.fin neg m e) = { c with
      v := toBits 136 (c.v + if neg then -(held : Int) else (held : Int)), b := max c.b (bitLen held), n := c.n + 1,
      low := c.low || (roundMag .rne m e anchor).2, high := c.high || decide (2 ^ 134 ≤ k) } := by
  simp only [cellAdd, decide_eq_true_eq]

/-- Settles O15: the integer formats are two's complement, an E8M0 scale shifts the exponent, and a term is aligned by the rounding that
`nearestEven_roundMag_rne` and `roundMag_rne_snd` describe. -/
theorem termsAlignToNearestEven : Obligations.TermsAlignToNearestEven := by
  refine ⟨fun a n h => ?int8, fun a n h => ?int4, fun x neg m e h => scaledVal_fin_of_lt h neg m e, scaledVal_255, fun anchor c neg m e => ?term⟩
  case int8 => rw [elemVal_int8, signed_of_lt h]; rfl
  case int4 => rw [elemVal_int4, signed_of_lt h]; rfl
  case term =>
    refine ⟨(roundMag .rne m e anchor).1, nearestEven_roundMag_rne m e anchor, ?_⟩
    rw [← roundMag_rne_snd]
    exact cellAdd_fin anchor c neg m e

end Sys2Proof.Machine
end

section
/-!
PROOFS. Alarms (R575). `exec_alarm` says once what an alarm does: enabled and due it leaves `alarmFired`, otherwise the machine as it was.
The lemmas about `alarmFired` then give its fields one by one; that the other pending bits stay is `bitOn_bitSet_of_ne`.
-/

namespace Sys2Proof.Machine

/-! ### Bits of a word -/

theorem bitOn_eq_testBit (w j : Nat) : bitOn w j = w.testBit j := by
  rw [Nat.testBit_eq_decide_div_mod_eq]; rfl

/-- Adding 2^k where bit k is clear carries into no higher bit. -/
theorem add_two_pow_div_two_pow {w k j : Nat} (h : bitOn w k = false) (hkj : k < j) : (w + 2 ^ k) / 2 ^ j = w / 2 ^ j := by
  obtain ⟨i, rfl⟩ := Nat.exists_eq_add_of_le hkj
  have hsplit (x : Nat) : x / 2 ^ (k + 1 + i) = x / 2 ^ k / 2 / 2 ^ i := by
    rw [Nat.pow_add, Nat.pow_succ, ← Nat.div_div_eq_div_mul, ← Nat.div_div_eq_div_mul]
  have hclear : w / 2 ^ k % 2 = 0 := by simpa [bitOn] using h
  have hcarry : (w / 2 ^ k + 1) / 2 = w / 2 ^ k / 2 := by omega
  rw [hsplit, hsplit, Nat.add_div_right _ (Nat.two_pow_pos k), hcarry]

/-- Setting bit k leaves every other bit. -/
theorem bitOn_bitSet_of_ne {w k j : Nat} (h : j ≠ k) : bitOn (bitSet w k) j = bitOn w j := by
  unfold bitSet
  split
  next => rfl
  next hclear =>
    obtain hjk | hkj := Nat.lt_or_gt_of_ne h
    · rw [bitOn_eq_testBit, bitOn_eq_testBit, Nat.add_comm, Nat.testBit_two_pow_add_gt hjk]
    · rw [bitOn, bitOn, add_two_pow_div_two_pow (eq_false_of_ne_true hclear) hkj]

/-! ### When an alarm is due -/

/-- Alarm k is due (R575): the primary hub's tick minus its comparison value, as a signed 64-bit value, is at least 0. -/
abbrev AlarmDue (s : State) (k : Fin 16) : Prop :=
  0 ≤ (BitVec.ofNat 64 (hubTick s) - BitVec.ofNat 64 (rd s TMR_ALARM_CMP.compare k)).toInt

/-- The signed difference of two 64-bit values is at least 0 iff their difference modulo 2^64 lies in the lower half. -/
theorem zero_le_toInt_sub_iff (a : Nat) {c : Nat} (hc : c < 2 ^ 64) :
    0 ≤ (BitVec.ofNat 64 a - BitVec.ofNat 64 c).toInt ↔ (a + 2 ^ 64 - c) % 2 ^ 64 < 2 ^ 63 := by
  rw [BitVec.toInt_pos_iff, BitVec.toNat_sub, BitVec.toNat_ofNat, BitVec.toNat_ofNat]
  omega

theorem alarmDue_iff (s : State) (k : Fin 16) :
    AlarmDue s k ↔ (hubTick s + 2 ^ 64 - rd s TMR_ALARM_CMP.compare k) % 2 ^ 64 < 2 ^ 63 :=
  zero_le_toInt_sub_iff _ (rd_lt s TMR_ALARM_CMP.compare k)

/-! ### The pending bit of an alarm's source -/

/-- The machine with the pending bit of host private source k set. -/
def pendAlarm (s : State) (k : Fin 16) : State := wr s EVT_HOST_PRIV.pending 0 (bitSet (rd s EVT_HOST_PRIV.pending) k)

/-- A bit of the private sources' word after source k has become pending. -/
theorem bitOn_pendAlarm (s : State) (k : Fin 16) {j : Nat} (hj : j < 64) :
    bitOn (rd (pendAlarm s k) EVT_HOST_PRIV.pending) j = bitOn (bitSet (rd s EVT_HOST_PRIV.pending) k) j := by
  rw [pendAlarm, rd_wr_same, show EVT_HOST_PRIV.pending.w = 64 from rfl, bitOn_mod hj]

theorem rd_pendAlarm_of_id_ne (s : State) (k : Fin 16) {f : Fld} (h : f.id ≠ EVT_HOST_PRIV.pending.id) : rd (pendAlarm s k) f k = rd s f k :=
  rd_wr_other s _ (fkey_ne (by decide) (by omega) (.inl h))

@[simp] theorem rd_pendAlarm_enable (s : State) (k : Fin 16) : rd (pendAlarm s k) TMR_ALARM_CTL.enable k = rd s TMR_ALARM_CTL.enable k :=
  rd_pendAlarm_of_id_ne s k (by decide)

@[simp] theorem rd_pendAlarm_period (s : State) (k : Fin 16) : rd (pendAlarm s k) TMR_ALARM_CTL.period k = rd s TMR_ALARM_CTL.period k :=
  rd_pendAlarm_of_id_ne s k (by decide)

@[simp] theorem rd_pendAlarm_compare (s : State) (k : Fin 16) : rd (pendAlarm s k) TMR_ALARM_CMP.compare k = rd s TMR_ALARM_CMP.compare k :=
  rd_pendAlarm_of_id_ne s k (by decide)

/-! ### What an alarm leaves -/

/-- The machine that a due alarm leaves (R575): its source is pending, and it is disabled if it is a one-shot and due again a period later if not. -/
def alarmFired (s : State) (k : Fin 16) : State :=
  if rd s TMR_ALARM_CTL.period k = 0 then wr (pendAlarm s k) TMR_ALARM_CTL.enable k 0
  else wr (pendAlarm s k) TMR_ALARM_CMP.compare k ((rd s TMR_ALARM_CMP.compare k + rd s TMR_ALARM_CTL.period k) % 2 ^ 64)

theorem exec_alarm (s : State) (k : Fin 16) :
    exec (.alarm k) s = .next (if on s TMR_ALARM_CTL.enable k = true ∧ AlarmDue s k then alarmFired s k else s) := by
  have hunfold : exec (.alarm k) s =
      if on s TMR_ALARM_CTL.enable k && decide ((hubTick s + 2 ^ 64 - rd s TMR_ALARM_CMP.compare k) % 2 ^ 64 < 2 ^ 63) then
        if rd (pendAlarm s k) TMR_ALARM_CTL.period k == 0 then .next (wr (pendAlarm s k) TMR_ALARM_CTL.enable k 0)
        else .next (wr (pendAlarm s k) TMR_ALARM_CMP.compare k
          ((rd (pendAlarm s k) TMR_ALARM_CMP.compare k + rd (pendAlarm s k) TMR_ALARM_CTL.period k) % 2 ^ 64))
      else .next s := rfl
  simp only [hunfold, rd_pendAlarm_period, rd_pendAlarm_compare, beq_iff_eq, Bool.and_eq_true, decide_eq_true_eq, alarmDue_iff, alarmFired,
    apply_ite Host.Outcome.next]

theorem alarmFired_of_period_eq_zero {s : State} {k : Fin 16} (h : rd s TMR_ALARM_CTL.period k = 0) :
    alarmFired s k = wr (pendAlarm s k) TMR_ALARM_CTL.enable k 0 := if_pos h

theorem alarmFired_of_period_ne_zero {s : State} {k : Fin 16} (h : rd s TMR_ALARM_CTL.period k ≠ 0) :
    alarmFired s k = wr (pendAlarm s k) TMR_ALARM_CMP.compare k ((rd s TMR_ALARM_CMP.compare k + rd s TMR_ALARM_CTL.period k) % 2 ^ 64) := if_neg h

/-- Rearming and disabling leave the private sources' word as raising the source left it. -/
theorem rd_alarmFired_pending (s : State) (k : Fin 16) : rd (alarmFired s k) EVT_HOST_PRIV.pending = rd (pendAlarm s k) EVT_HOST_PRIV.pending := by
  by_cases h : rd s TMR_ALARM_CTL.period k = 0
  · rw [alarmFired_of_period_eq_zero h]
    exact rd_wr_other _ _ (fkey_ne (by omega) (by decide) (.inl (by decide)))
  · rw [alarmFired_of_period_ne_zero h]
    exact rd_wr_other _ _ (fkey_ne (by omega) (by decide) (.inl (by decide)))

theorem on_alarmFired_of_period_eq_zero {s : State} {k : Fin 16} (h : rd s TMR_ALARM_CTL.period k = 0) :
    on (alarmFired s k) TMR_ALARM_CTL.enable k = false := by
  rw [alarmFired_of_period_eq_zero h, on, rd_wr_same]; rfl

theorem rd_alarmFired_enable_of_period_ne_zero {s : State} {k : Fin 16} (h : rd s TMR_ALARM_CTL.period k ≠ 0) :
    rd (alarmFired s k) TMR_ALARM_CTL.enable k = rd s TMR_ALARM_CTL.enable k := by
  rw [alarmFired_of_period_ne_zero h, rd_wr_other _ _ (fkey_ne (by omega) (by omega) (.inl (by decide))), rd_pendAlarm_enable]

theorem rd_alarmFired_compare_of_period_ne_zero {s : State} {k : Fin 16} (h : rd s TMR_ALARM_CTL.period k ≠ 0) :
    rd (alarmFired s k) TMR_ALARM_CMP.compare k = (rd s TMR_ALARM_CMP.compare k + rd s TMR_ALARM_CTL.period k) % 2 ^ 64 := by
  rw [alarmFired_of_period_ne_zero h, rd_wr_same, show TMR_ALARM_CMP.compare.w = 64 from rfl, Nat.mod_mod]

theorem onlyFields_alarmFired (s : State) (k : Fin 16) :
    OnlyFields [(EVT_HOST_PRIV.pending, 0), (TMR_ALARM_CTL.enable, k), (TMR_ALARM_CMP.compare, k)] s (alarmFired s k) := by
  have hpend : OnlyFields [(EVT_HOST_PRIV.pending, 0), (TMR_ALARM_CTL.enable, ↑k), (TMR_ALARM_CMP.compare, ↑k)] s (pendAlarm s k) :=
    (OnlyFields.refl _ s).wr (by simp)
  exact .ite (hpend.wr (by simp)) (hpend.wr (by simp))

/-- Settles O51: a due alarm leaves `alarmFired`, whose fields the lemmas above give one by one; any other leaves the machine alone. -/
theorem alarmsComeDueAsSigned : Obligations.AlarmsComeDueAsSigned := by
  refine fun k s => ⟨fun hon hdue => ⟨alarmFired s k, ?fires, ?raised, ?kept, fun hp => ⟨?enabled, ?rearmed⟩,
    on_alarmFired_of_period_eq_zero, onlyFields_alarmFired s k⟩, fun hrest => ?rests⟩
  case fires => rw [exec_alarm, if_pos ⟨hon, hdue⟩]
  case raised => rw [rd_alarmFired_pending, bitOn_pendAlarm s k (by omega), bitOn_bitSet]
  case kept =>
    intro j hj hjk
    rw [rd_alarmFired_pending, bitOn_pendAlarm s k hj, bitOn_bitSet_of_ne hjk]
  case enabled => rw [on, rd_alarmFired_enable_of_period_ne_zero hp]; exact hon
  case rearmed => exact rd_alarmFired_compare_of_period_ne_zero hp
  case rests =>
    rw [exec_alarm, if_neg]
    rintro ⟨hon, hdue⟩
    obtain hoff | hnot := hrest
    · exact Bool.false_ne_true (hoff.symm.trans hon)
    · exact hnot hdue

end Sys2Proof.Machine
end
